-- ==== Sys2Proof/Word.lean ====
section
/-! DEFINITION. The word types of the Ezune (R6, R36): 8, 16, 32 and 64 bits, lane words of 96 bits. -/

namespace Sys2Proof

abbrev Byte := BitVec 8
abbrev Word := BitVec 32
abbrev DWord := BitVec 64
/-- A mask register: bit l stands for lane l (R42). -/
abbrev Mask := BitVec 32
/-- A lane instruction (R63). -/
abbrev LaneWord := BitVec 96

/-- The pair value of R37: the even register holds bits 31:0. -/
def pairOf (lo hi : Word) : DWord := hi ++ lo

/-- Bits 31:0 and 63:32 of a pair (R37). -/
def loOf (d : DWord) : Word := d.extractLsb' 0 32
def hiOf (d : DWord) : Word := d.extractLsb' 32 32

end Sys2Proof
end

