-- ==== Sys2Proof/Config.lean ====
section
/-! DEFINITION. What the spec leaves open, as constants without a body: no proof can see their values, so a
statement holds for every value. Each is named in notes/assumptions. -/

namespace Sys2Proof.Config

/-- Every free choice, by what is chosen and the free counter: 0 the next agent (R25; log 2), 1 the lanes that read and the registers
written now (R120, R167; log 23), 2 the lane that acts (R171; log 23), 3 a second-stage root (R318; log 34), 4 what %grp reads in a
handler run (R50; log 25), 5 the slew of device time (R378; log 3), 6 the line that a full L1 gives up (R331; log 8), 7 the move of a
lane entry (log 23), 8 and 9 the line that a set of L2 or of a die directory gives up (R317, R330; log 8), 10 the bytes of a copy that
move (R201; log 11), 11 the elements of a tile that move (R197; log 11), 12 the staged tile that an MMA takes (R188; log 21), 13 whether
an error that ECC corrects has met an access (R389; log 34), from 64 on a payload word of a frame that cannot be read (R259; log 33). -/
opaque choice : Nat → Nat → Nat

/-- How many clocks pass in a step beyond one, and how much longer than 0.8 ns each of them is while the main clock is
lowered, in units of 1/50,000 ns beyond the first (R8; log 3). -/
opaque clocks : Nat → Nat
opaque extra : Nat → Nat

/-- How many pending references the list of a walker holds in the core's stash (R231, R232; log 44). -/
opaque walkList : Nat

/-- Which value within the bound of R93 a transcendental returns, by function code and operand (log 12). -/
opaque transcend : Nat → Nat → Nat

/-- INFO of a RAS event for which the spec gives none, by event code and free counter (R389; log 34). -/
opaque rasInfo : Nat → Nat → BitVec 32

/-- The firmware and configuration digests and the two signatures of a report, byte by byte; a signature
also depends on the free counter (R388; log 7). -/
opaque digest : Nat → BitVec 8
opaque signature : Nat → List (BitVec 8) → Nat → BitVec 8

/-- The certificate chains of the device identity keys (R388; log 7). -/
opaque certificate : Nat → BitVec 8

/-- Integrity tags (R321; log 7): a function of address, key slot, key generation, PUB, TAGS and the plain bytes. -/
opaque itag : Nat → Nat → Nat → Bool → BitVec 16 → List (BitVec 8) → BitVec 39

end Sys2Proof.Config
end

