-- ==== Sys2Proof/Syntax.lean ====
section
/-! DEFINITION. The instructions and steps of the Ezune: one constructor of Instr for each row of
spec/opcode_table.json. Scalar words (R55, R58), lane words (R63, R67), matrix words (R68, R69), then the
events of the device, its hosts and its peers (95_what_each_step_holds.md). -/

namespace Sys2Proof

/-- The TY codes 0-15 (R63). -/
inductive Ty where
  | i32 | n32 | i64 | n64 | f32 | f16x2 | bf16x2 | e4m3x4 | e5m2x4 | i16x2 | n16x2 | i8x4 | n8x4 | b32 | q4n | t3p
  deriving DecidableEq, Repr

/-- Memory orders (R60). -/
inductive Ord where
  | rlx | acq | rel | ar
  deriving DecidableEq, Repr

/-- VCMP conditions (R143). -/
inductive Cond where
  | eq | ne | lt | le | gt | ge
  deriving DecidableEq, Repr

/-- VFCMP conditions (R148). -/
inductive FCond where
  | eq | ne | lt | le | gt | ge | un | or
  deriving DecidableEq, Repr

/-- Rounding choices of VFRND and the conversions (R149, R151): `rm` takes RM of %fpctl. -/
inductive Rnd where
  | rm | rne | rtz | rup | rdn
  deriving DecidableEq, Repr

/-- VSHUF modes (R157). -/
inductive ShufMode where
  | idx | up | down | xor
  deriving DecidableEq, Repr

/-- VREDS and VSCAN operations (R159). -/
inductive RedOp where
  | add | min | max | and | or | xor | fadd | fmin | fmax
  deriving DecidableEq, Repr

/-- VVOTE modes (R161). -/
inductive VoteMode where
  | ballot | any | all
  deriving DecidableEq, Repr

/-- Atomic operations (R116, R170). -/
inductive AtomOp where
  | add | min | max | and | or | xor | xch | cas | fadd
  deriving DecidableEq, Repr

/-- A lane source operand (R64), or IMM32 as the last source (R137). -/
inductive Src where
  | v (n : BitVec 8)
  | s (n : BitVec 10)
  | laneid
  | item
  | imm (w : Word)
  deriving DecidableEq, Repr

/-- A lane address (R162, R163): base, optional index, scale, signed index, signed byte offset. -/
structure LAddr where
  base  : Src
  index : Option Src
  scale : BitVec 2
  sidx  : Bool
  off   : BitVec 17
  deriving DecidableEq, Repr

/-- The AUX fields of a lane memory instruction (R65). -/
structure LCtl where
  fb    : Bool
  scope : BitVec 3
  order : Ord
  width : BitVec 2
  deriving DecidableEq, Repr

/-- The origin of a tile operand (R185): index registers and 12-bit offsets in units of 64. -/
structure Tile where
  tn   : BitVec 8
  ka   : BitVec 4
  kb   : BitVec 4
  off0 : BitVec 12
  off1 : BitVec 12
  deriving DecidableEq, Repr

/-- A command block as a host writes it (R291): issuing host and port, context index, TAG, COMPL, ARG0 to ARG13, and the reserved
bits 15:8 and 31:26 of HEAD. -/
structure Cmd where
  host  : Nat
  port  : Nat
  ctx   : BitVec 10
  tag   : BitVec 32
  compl : DWord
  args  : List DWord
  res1  : BitVec 8 := 0
  res2  : BitVec 6 := 0
  deriving DecidableEq, Repr

/-- A submission block (R373): issuing host, port and page, and its fields. -/
structure Sub where
  host  : Nat
  port  : Nat
  page  : BitVec 12
  head  : DWord
  compl : DWord
  desc  : DWord
  gang  : DWord
  start : DWord
  deadline : DWord
  members  : DWord
  rest  : List DWord
  deriving DecidableEq, Repr

/-- The answer to an ATS Translation Request (R313): page size in bytes, address, R, W, X; none when unsuccessful. -/
structure AtsAnswer where
  size : Nat
  gpa  : Nat
  r    : Bool
  w    : Bool
  x    : Bool
  deriving DecidableEq, Repr

/-- The answer to a snoop (R335). -/
inductive Resp where
  | miss | clean | dirty
  deriving DecidableEq, Repr

/-- The state a GNT carries (R335). -/
inductive Grant where
  | s | e | m
  deriving DecidableEq, Repr

/-- A transfer that a peer asks of this device's memory over Nirus Link (R211-R213), and a write on the peer in its own memory, whose
bytes an RGET meets there (R213). -/
inductive PeerReq where
  | read  (ast : BitVec 10) (gpa : Nat) (count : Nat)
  | write (ast : BitVec 10) (gpa : Nat) (bytes : List Byte)
  | home  (peer : BitVec 12) (addr : Nat) (bytes : List Byte)
  deriving DecidableEq, Repr

/-- A host's side of a CXL.mem transfer (R199): the host's processors write their own memory, or acknowledge. -/
inductive CxlReq where
  | hostWrite (host : Nat) (addr : Nat) (bytes : List Byte)
  | deviceWrite (host : Nat) (ast : BitVec 10) (gpa : Nat) (bytes : List Byte)
  | readDone  (line : Nat)
  | writeDone (line : Nat)
  deriving DecidableEq, Repr

inductive Instr where
  -- register arithmetic, SR (R96-R100)
  | sadd (d a b : BitVec 8)
  | ssub (d a b : BitVec 8)
  | smul (d a b : BitVec 8)
  | smulhi (d a b : BitVec 8)
  | smulhn (d a b : BitVec 8)
  | smulw (d a b : BitVec 8)
  | sdivi (d a b : BitVec 8)
  | sdivn (d a b : BitVec 8)
  | sremi (d a b : BitVec 8)
  | sremn (d a b : BitVec 8)
  | sand (d a b : BitVec 8)
  | sor (d a b : BitVec 8)
  | sxor (d a b : BitVec 8)
  | sandn (d a b : BitVec 8)
  | sshl (d a b : BitVec 8)
  | sshr (d a b : BitVec 8)
  | ssra (d a b : BitVec 8)
  | srot (d a b : BitVec 8)
  | smini (d a b : BitVec 8)
  | sminn (d a b : BitVec 8)
  | smaxi (d a b : BitVec 8)
  | smaxn (d a b : BitVec 8)
  | sclz (d a : BitVec 8)
  | spopc (d a : BitVec 8)
  | sbrev (d a : BitVec 8)
  | sceq (d a b : BitVec 8)
  | scne (d a b : BitVec 8)
  | sclti (d a b : BitVec 8)
  | scltn (d a b : BitVec 8)
  | sclei (d a b : BitVec 8)
  | sclen (d a b : BitVec 8)
  | saddp (d a b : BitVec 8)
  | ssubp (d a b : BitVec 8)
  | sshlp (d a b : BitVec 8)
  | sshrp (d a b : BitVec 8)
  -- immediates, SI (R101)
  | smovi (d : BitVec 8) (i : BitVec 16)
  | smovhi (d : BitVec 8) (i : BitVec 16)
  | saddi (d : BitVec 8) (i : BitVec 16)
  | sandi (d : BitVec 8) (i : BitVec 16)
  | sori (d : BitVec 8) (i : BitVec 16)
  | sxori (d : BitVec 8) (i : BitVec 16)
  | sshli (d : BitVec 8) (i : BitVec 5)
  | sshri (d : BitVec 8) (i : BitVec 5)
  | ssrai (d : BitVec 8) (i : BitVec 5)
  | sceqi (d : BitVec 8) (i : BitVec 16)
  | scltis (d : BitVec 8) (i : BitVec 16)
  | scltin (d : BitVec 8) (i : BitVec 16)
  -- moves and special registers (R102-R104)
  | smov (d a : BitVec 8)
  | smovx (d : BitVec 8) (far : BitVec 10)
  | smovxW (d : BitVec 8) (far : BitVec 10)
  | sget (d : BitVec 8) (sel : BitVec 8)
  | sset (d : BitVec 8) (sel : BitVec 8)
  -- control flow (R105-R109)
  | brz (c : BitVec 8) (disp : BitVec 16)
  | brnz (c : BitVec 8) (disp : BitVec 16)
  | brany (c : BitVec 4) (disp : BitVec 16)
  | brall (c : BitVec 4) (disp : BitVec 16)
  | brnone (c : BitVec 4) (disp : BitVec 16)
  | jmp (disp : BitVec 16)
  | call (c : BitVec 8) (disp : BitVec 16)
  | ret (a : BitVec 8)
  | jmpr (a : BitVec 8)
  | exit
  | nop
  | sleep (i : BitVec 16)
  -- masks (R125, R126)
  | mfrom (d : BitVec 4) (a : BitVec 8)
  | mto (d : BitVec 8) (a : BitVec 4)
  | mand (d a b : BitVec 4)
  | mor (d a b : BitVec 4)
  | mxor (d a b : BitVec 4)
  | mandn (d a b : BitVec 4)
  | mnot (d a : BitVec 4)
  | mpopc (d : BitVec 8) (a : BitVec 4)
  | mfirst (d : BitVec 8) (a : BitVec 4)
  | exset (c : BitVec 4)
  | exsetAll
  | exsave (d c : BitVec 4)
  -- clauses, splits, joins (R118-R135)
  | lrun (x : BitVec 16)
  | fwait (f : BitVec 12)
  | ftest (d : BitVec 8) (f : BitVec 12)
  | split (c : BitVec 4) (a : BitVec 8)
  | jset (k : BitVec 3) (c : BitVec 4)
  | join (k : BitVec 3)
  | jsave (k : BitVec 3) (a o : BitVec 8)
  | jload (k : BitVec 3) (a o : BitVec 8)
  | fragq (d : BitVec 8) (sel : BitVec 2)
  -- barriers, fences, scopes (R195, R240, R247, R249)
  | bara (n : BitVec 4) (count : BitVec 6)
  | barw (n : BitVec 4)
  | baraw (n : BitVec 4) (count : BitVec 6)
  | cbara (n : BitVec 2) (count : BitVec 9)
  | cbarw (n : BitVec 2)
  | fence (scope : BitVec 5)
  | rdv (d : BitVec 8)
  | scpset (n a o : BitVec 8)
  -- scalar memory (R110-R117, R60)
  | sld32 (d a o : BitVec 8)
  | sld64 (d a o : BitVec 8)
  | sst32 (d a o : BitVec 8)
  | sst64 (d a o : BitVec 8)
  | saadd (d a o : BitVec 8)
  | samin (d a o : BitVec 8)
  | samax (d a o : BitVec 8)
  | saand (d a o : BitVec 8)
  | saor (d a o : BitVec 8)
  | saxor (d a o : BitVec 8)
  | saxch (d a o : BitVec 8)
  | sacas (d a o : BitVec 8)
  | ord (order : Ord) (scope : BitVec 5)
  -- copies and stash mappings (R202-R211)
  | cpy (d a b : BitVec 8)
  | cseal (k : BitVec 3)
  | cwait (k : BitVec 3)
  | cpoll (d : BitVec 8) (k : BitVec 3)
  | smap (d a b : BitVec 8)
  | sunmap (d : BitVec 8)
  | rget (d a b : BitVec 8)
  | rput (d a b : BitVec 8)
  -- tensors and the matrix stream (R178, R179, R182)
  | tdset (t a o : BitVec 8)
  | tdget (t a o : BitVec 8)
  | mfork (d a o : BitVec 8)
  -- objects (R221-R237)
  | new (d a : BitVec 8)
  | newLong (d a : BitVec 8)
  | stref (d a o : BitVec 8)
  | ldref (d a : BitVec 8) (t o : BitVec 4)
  | publ (scope : BitVec 5) (a : BitVec 8)
  | ispub (d a : BitVec 8)
  | qgetUse (d dom : BitVec 8)
  | qgetLim (d dom : BitVec 8)
  -- ladders, mailboxes, launches, service calls (R256-R282)
  | ladr (n : BitVec 4) (a : BitVec 8)
  | lfeed (n : BitVec 4) (a b : BitVec 8)
  | lclose (n : BitVec 4)
  | esc (c : BitVec 4) (v : BitVec 8)
  | lret (c : BitVec 4) (v : BitVec 8)
  | lwait (d : BitVec 8) (n : BitVec 4) (b : BitVec 8)
  | mbsend (d a : BitVec 8) (mb : BitVec 6)
  | mbsendTrap (d a : BitVec 8) (mb : BitVec 6)
  | mbrecv (d : BitVec 8) (mb : BitVec 6)
  | mbpoll (d : BitVec 8) (mb : BitVec 6)
  | launch (d a : BitVec 8)
  | svc (v : BitVec 8) (code : BitVec 16)
  | trap (code : BitVec 16)
  | brk (code : BitVec 16)
  -- the handler's instructions (R354-R357)
  | tret (mode : BitVec 8)
  | wrd (d a : BitVec 8)
  | wwr (a b : BitVec 8)
  | wsplR (d a : BitVec 8)
  | wsplW (d a : BitVec 8)
  | sysrd (d sel : BitVec 8)
  | syswr (d sel : BitVec 8)
  -- lane integer (R140-R144)
  | vadd (ty : Ty) (sat : Bool) (m : BitVec 4) (d : BitVec 8) (a b : Src)
  | vsub (ty : Ty) (sat : Bool) (m : BitVec 4) (d : BitVec 8) (a b : Src)
  | vmul (ty : Ty) (sat : Bool) (m : BitVec 4) (d : BitVec 8) (a b : Src)
  | vmulhi (ty : Ty) (m : BitVec 4) (d : BitVec 8) (a b : Src)
  | vmad (ty : Ty) (sat : Bool) (m : BitVec 4) (d : BitVec 8) (a b c : Src)
  | vmin (ty : Ty) (m : BitVec 4) (d : BitVec 8) (a b : Src)
  | vmax (ty : Ty) (m : BitVec 4) (d : BitVec 8) (a b : Src)
  | vabs (ty : Ty) (sat : Bool) (m : BitVec 4) (d : BitVec 8) (a : Src)
  | vneg (ty : Ty) (sat : Bool) (m : BitVec 4) (d : BitVec 8) (a : Src)
  | vand (ty : Ty) (m : BitVec 4) (d : BitVec 8) (a b : Src)
  | vor (ty : Ty) (m : BitVec 4) (d : BitVec 8) (a b : Src)
  | vxor (ty : Ty) (m : BitVec 4) (d : BitVec 8) (a b : Src)
  | vandn (ty : Ty) (m : BitVec 4) (d : BitVec 8) (a b : Src)
  | vnot (ty : Ty) (m : BitVec 4) (d : BitVec 8) (a : Src)
  | vshl (ty : Ty) (m : BitVec 4) (d : BitVec 8) (a b : Src)
  | vshr (ty : Ty) (m : BitVec 4) (d : BitVec 8) (a b : Src)
  | vsra (ty : Ty) (m : BitVec 4) (d : BitVec 8) (a b : Src)
  | vrot (ty : Ty) (m : BitVec 4) (d : BitVec 8) (a b : Src)
  | vclz (ty : Ty) (m : BitVec 4) (d : BitVec 8) (a : Src)
  | vpopc (ty : Ty) (m : BitVec 4) (d : BitVec 8) (a : Src)
  | vbfx (ty : Ty) (m : BitVec 4) (d : BitVec 8) (a b c : Src)
  | vbfi (ty : Ty) (m : BitVec 4) (d : BitVec 8) (a b c : Src)
  | vcmp (ty : Ty) (cond : Cond) (m : BitVec 4) (d : BitVec 4) (a b : Src)
  | vsel (ty : Ty) (c : BitVec 4) (m : BitVec 4) (d : BitVec 8) (a b : Src)
  | vmov (ty : Ty) (m : BitVec 4) (d : BitVec 8) (a : Src)
  | viota (ty : Ty) (m : BitVec 4) (d : BitVec 8) (a b : Src)
  -- lane floating point (R145-R150)
  | vfadd (ty : Ty) (m : BitVec 4) (d : BitVec 8) (a b : Src)
  | vfsub (ty : Ty) (m : BitVec 4) (d : BitVec 8) (a b : Src)
  | vfmul (ty : Ty) (m : BitVec 4) (d : BitVec 8) (a b : Src)
  | vfma (ty : Ty) (m : BitVec 4) (d : BitVec 8) (a b c : Src)
  | vfmin (ty : Ty) (m : BitVec 4) (d : BitVec 8) (a b : Src)
  | vfmax (ty : Ty) (m : BitVec 4) (d : BitVec 8) (a b : Src)
  | vfabs (ty : Ty) (m : BitVec 4) (d : BitVec 8) (a : Src)
  | vfneg (ty : Ty) (m : BitVec 4) (d : BitVec 8) (a : Src)
  | vfcmp (ty : Ty) (cond : FCond) (m : BitVec 4) (d : BitVec 4) (a b : Src)
  | vfdiv (ty : Ty) (m : BitVec 4) (d : BitVec 8) (a b : Src)
  | vfsqrt (ty : Ty) (m : BitVec 4) (d : BitVec 8) (a : Src)
  | vfrcp (ty : Ty) (m : BitVec 4) (d : BitVec 8) (a : Src)
  | vfrsq (ty : Ty) (m : BitVec 4) (d : BitVec 8) (a : Src)
  | vfexp2 (ty : Ty) (m : BitVec 4) (d : BitVec 8) (a : Src)
  | vflog2 (ty : Ty) (m : BitVec 4) (d : BitVec 8) (a : Src)
  | vfsinp (ty : Ty) (m : BitVec 4) (d : BitVec 8) (a : Src)
  | vfcosp (ty : Ty) (m : BitVec 4) (d : BitVec 8) (a : Src)
  | vftanh (ty : Ty) (m : BitVec 4) (d : BitVec 8) (a : Src)
  | vfrnd (ty : Ty) (rnd : Rnd) (exact : Bool) (m : BitVec 4) (d : BitVec 8) (a : Src)
  -- conversion and packing (R151-R155)
  | vcvt (ty dty : Ty) (rnd : Rnd) (sat : Bool) (sel del : BitVec 2) (m : BitVec 4) (d : BitVec 8) (a : Src)
  | vpack (ty sty : Ty) (rnd : Rnd) (sat : Bool) (half : Bool) (m : BitVec 4) (d : BitVec 8) (a b : Src)
  | vunpk (ty dty : Ty) (rnd : Rnd) (sat : Bool) (half : Bool) (m : BitVec 4) (d : BitVec 8) (a : Src)
  | vq4n (dty : Ty) (idx : BitVec 3) (m : BitVec 4) (d : BitVec 8) (a b c : Src)
  | vt3p (dty : Ty) (idx : BitVec 5) (trapr : Bool) (m : BitVec 4) (d : BitVec 8) (a b : Src)
  -- cross-lane (R156-R161)
  | vshuf (ty : Ty) (mode : ShufMode) (m : BitVec 4) (d : BitVec 8) (a b : Src)
  | vbcst (ty : Ty) (m : BitVec 4) (d : BitVec 8) (a b : Src)
  | vreds (ty : Ty) (op : RedOp) (m : BitVec 4) (d : BitVec 8) (a : Src)
  | vscan (ty : Ty) (op : RedOp) (excl : Bool) (m : BitVec 4) (d : BitVec 8) (a : Src)
  | vvote (ty : Ty) (mode : VoteMode) (m : BitVec 4) (d : BitVec 4) (a : Src)
  | vmatch (ty : Ty) (m : BitVec 4) (d : BitVec 8) (a : Src)
  -- lane memory (R162-R174), references (R222, R229), tensor elements (R181)
  | vld (ty : Ty) (m : BitVec 4) (d : BitVec 8) (addr : LAddr) (ctl : LCtl)
  | vst (ty : Ty) (m : BitVec 4) (d : BitVec 8) (addr : LAddr) (ctl : LCtl)
  | vlds (ty : Ty) (m : BitVec 4) (d : BitVec 8) (addr : LAddr) (ctl : LCtl) (peer : Option Src)
  | vsts (ty : Ty) (m : BitVec 4) (d : BitVec 8) (addr : LAddr) (ctl : LCtl)
  | vatom (ty : Ty) (op : AtomOp) (nr stash : Bool) (m : BitVec 4) (d : BitVec 8) (addr : LAddr) (c : Src) (ctl : LCtl)
  | vprf (l2 : Bool) (m : BitVec 4) (addr : LAddr) (ctl : LCtl)
  | vnew (long : Bool) (fb : Bool) (m : BitVec 4) (d : BitVec 8) (a : Src)
  | vstref (m : BitVec 4) (d : BitVec 8) (addr : LAddr) (ctl : LCtl)
  | vldref (t : BitVec 4) (m : BitVec 4) (d : BitVec 8) (addr : LAddr) (ctl : LCtl)
  | vtld (ty : Ty) (tn : BitVec 8) (m : BitVec 4) (d : BitVec 8) (a b : Src) (ctl : LCtl)
  | vtst (ty : Ty) (sat : Bool) (tn : BitVec 8) (m : BitVec 4) (d : BitVec 8) (a b : Src) (ctl : LCtl)
  -- matrix stream (R185-R196)
  | mlda (a : BitVec 4) (t : Tile)
  | mldb (t : Tile)
  | mst (acc : BitVec 4) (t : Tile)
  | mldc (acc : BitVec 4) (t : Tile)
  | mzero (acc : BitVec 4)
  | mma (acc a : BitVec 4) (keep : Bool) (t : Tile)
  | mmaz (acc a : BitVec 4) (keep : Bool) (t : Tile)
  | mkset (k : BitVec 4) (i : BitVec 24)
  | mksetH (k : BitVec 4) (i : BitVec 8)
  | mkadd (k : BitVec 4) (i : BitVec 24)
  | mkaddReg (k b : BitVec 4) (i : BitVec 24)
  | mloop (k b : BitVec 4) (disp count : BitVec 12)
  | mend
  | mbara (n : BitVec 4)
  | mbarw (n : BitVec 4)
  | mrel (noadd : Bool) (tn : BitVec 8) (ka kb : BitVec 4) (scope : BitVec 5) (value : BitVec 16)
  | mrdv
  | mnop
  | mtrap (code : BitVec 16)
  -- events within a group (R45, R109, R112, R119, R121, R247, R249-R251)
  | clauseStart (core slot frag : Nat)
  | laneLlComplete (core slot seq : Nat)
  | scalarLoadReturn (core slot seq : Nat)
  | sleepExpire (core slot frag : Nat)
  | barrierArrivalEffect (team : Nat) (who : Option Nat) (bar : Nat)
  | fenceComplete (core slot frag : Nat)
  | fenceRollback (core slot frag : Nat)
  -- the copy engine, mapped stash, walkers (R201-R210, R227, R231-R236)
  | copyRetire (id : Nat)
  | copyFault (id : Nat)
  | mappedStashFill (team line : Nat) (excl : Bool)
  | walkLineStep (walker : Nat)
  | walkComplete (walker : Nat)
  | escapeHwPublish (core slot frag : Nat) (target : DWord) (scope : BitVec 5)
  -- the dispatcher (R16-R33, R263, R276-R278, R376)
  | teamStart (launch : Nat)
  | clusterStart (launch : Nat)
  | teamRetire (team : Nat)
  | launchEnd (launch : Nat)
  | depctrPoll (launch : Nat)
  | notbeforeReached (launch : Nat)
  | missedSlot (launch : Nat)
  | launchBlocking (launch : Nat)
  | rungLimitExpiry (cid slot rung : Nat)
  | rungGroupLaunch (cid slot rung : Nat)
  | rungGroupStart (launch : Nat)
  -- parking, service calls, traps, pre-emption (R273, R279, R347-R366)
  | groupPark (core slot : Nat)
  | svcRequestPost (core slot : Nat)
  | trapDeliver (team : Nat)
  | handlerStart (core : Nat)
  | sliceEnd (core cid : Nat)
  | urgentPreempt (launch : Nat)
  | groupRestore (team : Nat)
  | contextRemove (cid : Nat)
  | watchdogHandler (core : Nat)
  | watchdogProgress (team : Nat)
  -- host commands (R291-R304)
  | create (c : Cmd)
  | guardOffer (c : Cmd)
  | guardAccept (c : Cmd)
  | guardShare (c : Cmd)
  | guardDrop (c : Cmd)
  | adopt (c : Cmd)
  | lease (c : Cmd)
  | map (c : Cmd)
  | unmap (c : Cmd)
  | resumeFault (c : Cmd)
  | resumeSvc (c : Cmd)
  | kill (c : Cmd)
  | setctlPermit (c : Cmd)
  | setctlLease (c : Cmd)
  | setctlRequestRing (c : Cmd)
  | setctlEventRing (c : Cmd)
  | setctlRespbase (c : Cmd)
  | setctlQuotaLimit (c : Cmd)
  | submitLaunch (b : Sub)
  | submitGang (b : Sub)
  | cmdwinPostedAccess (host : Nat)
  | leaseExpiry (cid host : Nat)
  | hostPortDown (port : Nat)
  -- host register writes (R281, R289, R316-R320, R345, R350, R372, R377, R388)
  | rqreadWrite (host : Nat) (ctx : BitVec 10) (v : Word)
  | evreadWrite (host : Nat) (ctx : BitVec 10) (v : Word)
  | poolwrWrite (host : Nat) (ast : BitVec 10) (v : Word)
  | astRecordWrite (host : Nat) (ast : BitVec 10) (word : BitVec 3) (v : DWord)
  | s2dataWrite (host : Nat) (v : DWord)
  | s2WriteComplete (part : Nat)
  | freleaseWrite (host : Nat) (v : DWord)
  | frameReleaseComplete (part : Nat)
  | keyarmWrite (host : Nat) (v : DWord)
  | spbindWrite (host : Nat) (v : DWord)
  | actionTableWrite (host : Nat) (ctx : BitVec 10) (hi : Bool) (v : DWord)
  | saveMemoryWrite (host : Nat) (ctx : BitVec 10) (size : Bool) (v : DWord)
  | sliceWrite (host : Nat) (ctx : BitVec 10) (v : DWord)
  | timeadjWrite (host : Nat) (v : DWord)
  | attreqWrite (host : Nat) (v : DWord)
  | attestationReportReady (host : Nat)
  | registerWrite (host : Nat) (off : Nat) (v : DWord)
  -- translation, fills, frame service (R308-R328)
  | pageWalk (core cid : Nat) (va : DWord)
  | atsTranslationCompletion (id : Nat) (answer : Option AtsAnswer)
  | atsInvalidationRequest (host : Nat) (ctx : BitVec 10) (va : DWord) (len : Nat)
  | demandFill (cid : Nat) (va : DWord)
  | migration (cid : Nat) (va : DWord)
  | hbmFill (line : Nat) (write : Bool)
  -- coherence (R329-R343)
  | gets (core line : Nat)
  | getx (core line : Nat)
  | upgr (core line : Nat)
  | putd (core line : Nat)
  | atom (core line off : Nat) (op : AtomOp) (ty : Ty) (x y : DWord) (scope : BitVec 5)
  | wbp (core line : Nat)
  | qinv (die line quad : Nat)
  | qfwdS (die line core : Nat)
  | qfwdX (die line core : Nat)
  | rds (die line : Nat)
  | rdx (die line : Nat)
  | rda (die line off : Nat) (op : AtomOp) (ty : Ty) (x y : DWord)
  | wb (die line : Nat)
  | snps (die line : Nat)
  | snpx (die line : Nat)
  | srsp (die line : Nat) (excl : Bool) (r : Resp)
  | gnt (die line : Nat) (g : Grant)
  | wback (die line : Nat)
  | rginv (die base size : Nat)
  | rgdat (die line : Nat)
  | rgack (die base size : Nat)
  | adone (die line : Nat) (old : DWord)
  | regionMerge (home base size : Nat)
  | dirEccRecall (die : Nat) (region : Bool) (line : Nat)
  | firewallDrop (src dst : Nat)
  -- time, gangs, links, power, reset (R8, R368, R377-R387)
  | timeOffsetMeasure (ofs : Int)
  | gangPrepare (gid : Word) (start : DWord)
  | gangAck (gid : Word) (dev : BitVec 12)
  | gangDeadline (gid : Word)
  | gangCommit (gid : Word)
  | gangAbort (gid : Word)
  | gangStartTimeout (gid : Word)
  | gangHeartbeat (gid : Word)
  | gangHeartbeatReceive (gid : Word) (dev : BitVec 12)
  | gangMemberLost (gid : Word) (dev : BitVec 12)
  | nirusLinkDown (port : Nat)
  | d2dDegraded (a b : Nat)
  | thermalThrottle
  | powerCap
  | deviceReset
  | hostPortLinkUp (port : Nat)
  | peerTransferRequest (r : PeerReq)
  | cxlMemCompletion (r : CxlReq)
  | unsupportedRequest (host : Nat)
  | unlistedCommand (c : Cmd) (code : Byte)
  | mainClockRestored
  deriving DecidableEq, Repr

/-- The events of the device, its hosts and its peers, as the machine holds those that have been raised and not yet
taken: the same operands as the constructors of Instr with the same names. -/
inductive Ev where
  -- events within a group (R45, R109, R112, R119, R121, R247, R249-R251)
  | clauseStart (core slot frag : Nat)
  | laneLlComplete (core slot seq : Nat)
  | scalarLoadReturn (core slot seq : Nat)
  | sleepExpire (core slot frag : Nat)
  | barrierArrivalEffect (team : Nat) (who : Option Nat) (bar : Nat)
  | fenceComplete (core slot frag : Nat)
  | fenceRollback (core slot frag : Nat)
  -- the copy engine, mapped stash, walkers (R201-R210, R227, R231-R236)
  | copyRetire (id : Nat)
  | copyFault (id : Nat)
  | mappedStashFill (team line : Nat) (excl : Bool)
  | walkLineStep (walker : Nat)
  | walkComplete (walker : Nat)
  | escapeHwPublish (core slot frag : Nat) (target : DWord) (scope : BitVec 5)
  -- the dispatcher (R16-R33, R263, R276-R278, R376)
  | teamStart (launch : Nat)
  | clusterStart (launch : Nat)
  | teamRetire (team : Nat)
  | launchEnd (launch : Nat)
  | depctrPoll (launch : Nat)
  | notbeforeReached (launch : Nat)
  | missedSlot (launch : Nat)
  | launchBlocking (launch : Nat)
  | rungLimitExpiry (cid slot rung : Nat)
  | rungGroupLaunch (cid slot rung : Nat)
  | rungGroupStart (launch : Nat)
  -- parking, service calls, traps, pre-emption (R273, R279, R347-R366)
  | groupPark (core slot : Nat)
  | svcRequestPost (core slot : Nat)
  | trapDeliver (team : Nat)
  | handlerStart (core : Nat)
  | sliceEnd (core cid : Nat)
  | urgentPreempt (launch : Nat)
  | groupRestore (team : Nat)
  | contextRemove (cid : Nat)
  | watchdogHandler (core : Nat)
  | watchdogProgress (team : Nat)
  -- host commands (R291-R304)
  | create (c : Cmd)
  | guardOffer (c : Cmd)
  | guardAccept (c : Cmd)
  | guardShare (c : Cmd)
  | guardDrop (c : Cmd)
  | adopt (c : Cmd)
  | lease (c : Cmd)
  | map (c : Cmd)
  | unmap (c : Cmd)
  | resumeFault (c : Cmd)
  | resumeSvc (c : Cmd)
  | kill (c : Cmd)
  | setctlPermit (c : Cmd)
  | setctlLease (c : Cmd)
  | setctlRequestRing (c : Cmd)
  | setctlEventRing (c : Cmd)
  | setctlRespbase (c : Cmd)
  | setctlQuotaLimit (c : Cmd)
  | submitLaunch (b : Sub)
  | submitGang (b : Sub)
  | cmdwinPostedAccess (host : Nat)
  | leaseExpiry (cid host : Nat)
  | hostPortDown (port : Nat)
  -- host register writes (R281, R289, R316-R320, R345, R350, R372, R377, R388)
  | rqreadWrite (host : Nat) (ctx : BitVec 10) (v : Word)
  | evreadWrite (host : Nat) (ctx : BitVec 10) (v : Word)
  | poolwrWrite (host : Nat) (ast : BitVec 10) (v : Word)
  | astRecordWrite (host : Nat) (ast : BitVec 10) (word : BitVec 3) (v : DWord)
  | s2dataWrite (host : Nat) (v : DWord)
  | s2WriteComplete (part : Nat)
  | freleaseWrite (host : Nat) (v : DWord)
  | frameReleaseComplete (part : Nat)
  | keyarmWrite (host : Nat) (v : DWord)
  | spbindWrite (host : Nat) (v : DWord)
  | actionTableWrite (host : Nat) (ctx : BitVec 10) (hi : Bool) (v : DWord)
  | saveMemoryWrite (host : Nat) (ctx : BitVec 10) (size : Bool) (v : DWord)
  | sliceWrite (host : Nat) (ctx : BitVec 10) (v : DWord)
  | timeadjWrite (host : Nat) (v : DWord)
  | attreqWrite (host : Nat) (v : DWord)
  | attestationReportReady (host : Nat)
  | registerWrite (host : Nat) (off : Nat) (v : DWord)
  -- translation, fills, frame service (R308-R328)
  | pageWalk (core cid : Nat) (va : DWord)
  | atsTranslationCompletion (id : Nat) (answer : Option AtsAnswer)
  | atsInvalidationRequest (host : Nat) (ctx : BitVec 10) (va : DWord) (len : Nat)
  | demandFill (cid : Nat) (va : DWord)
  | migration (cid : Nat) (va : DWord)
  | hbmFill (line : Nat) (write : Bool)
  -- coherence (R329-R343)
  | gets (core line : Nat)
  | getx (core line : Nat)
  | upgr (core line : Nat)
  | putd (core line : Nat)
  | atom (core line off : Nat) (op : AtomOp) (ty : Ty) (x y : DWord) (scope : BitVec 5)
  | wbp (core line : Nat)
  | qinv (die line quad : Nat)
  | qfwdS (die line core : Nat)
  | qfwdX (die line core : Nat)
  | rds (die line : Nat)
  | rdx (die line : Nat)
  | rda (die line off : Nat) (op : AtomOp) (ty : Ty) (x y : DWord)
  | wb (die line : Nat)
  | snps (die line : Nat)
  | snpx (die line : Nat)
  | srsp (die line : Nat) (excl : Bool) (r : Resp)
  | gnt (die line : Nat) (g : Grant)
  | wback (die line : Nat)
  | rginv (die base size : Nat)
  | rgdat (die line : Nat)
  | rgack (die base size : Nat)
  | adone (die line : Nat) (old : DWord)
  | regionMerge (home base size : Nat)
  | dirEccRecall (die : Nat) (region : Bool) (line : Nat)
  | firewallDrop (src dst : Nat)
  -- time, gangs, links, power, reset (R8, R368, R377-R387)
  | timeOffsetMeasure (ofs : Int)
  | gangPrepare (gid : Word) (start : DWord)
  | gangAck (gid : Word) (dev : BitVec 12)
  | gangDeadline (gid : Word)
  | gangCommit (gid : Word)
  | gangAbort (gid : Word)
  | gangStartTimeout (gid : Word)
  | gangHeartbeat (gid : Word)
  | gangHeartbeatReceive (gid : Word) (dev : BitVec 12)
  | gangMemberLost (gid : Word) (dev : BitVec 12)
  | nirusLinkDown (port : Nat)
  | d2dDegraded (a b : Nat)
  | thermalThrottle
  | powerCap
  | deviceReset
  | hostPortLinkUp (port : Nat)
  | peerTransferRequest (r : PeerReq)
  | cxlMemCompletion (r : CxlReq)
  | unsupportedRequest (host : Nat)
  | unlistedCommand (c : Cmd) (code : Byte)
  | mainClockRestored
  deriving DecidableEq, Repr

end Sys2Proof
end

