-- ==== Sys2Proof/Machine/Legal.lean ====
section
/-! DEFINITION. The encoding checks of an instruction that need neither a state nor an allocation: even pairs,
register and selector limits, type sets, orders and scopes (R37, R40, R56, R63-R65, R72, R136-R138 and each
instruction's entry). -/

namespace Sys2Proof

/-- The TY code of R63. -/
def Ty.code : Ty → BitVec 4
  | .i32 => 0 | .n32 => 1 | .i64 => 2 | .n64 => 3 | .f32 => 4 | .f16x2 => 5 | .bf16x2 => 6 | .e4m3x4 => 7
  | .e5m2x4 => 8 | .i16x2 => 9 | .n16x2 => 10 | .i8x4 => 11 | .n8x4 => 12 | .b32 => 13 | .q4n => 14 | .t3p => 15

/-- The type of a TY code (R63). -/
def Ty.ofCode (c : BitVec 4) : Ty :=
  match c.toNat with
  | 0 => .i32 | 1 => .n32 | 2 => .i64 | 3 => .n64 | 4 => .f32 | 5 => .f16x2 | 6 => .bf16x2 | 7 => .e4m3x4
  | 8 => .e5m2x4 | 9 => .i16x2 | 10 => .n16x2 | 11 => .i8x4 | 12 => .n8x4 | 13 => .b32 | 14 => .q4n | _ => .t3p

/-- A 64-bit type occupies a pair (R73). -/
def Ty.is64 : Ty → Bool
  | .i64 | .n64 => true
  | _ => false

/-- Elements in one register (R73, R75); 1 for 32-bit and 64-bit types. -/
def Ty.elems : Ty → Nat
  | .f16x2 | .bf16x2 | .i16x2 | .n16x2 => 2
  | .e4m3x4 | .e5m2x4 | .i8x4 | .n8x4 => 4
  | _ => 1

/-- Element width in bits (R73, R75). -/
def Ty.width : Ty → Nat
  | .i64 | .n64 => 64
  | .f16x2 | .bf16x2 | .i16x2 | .n16x2 => 16
  | .e4m3x4 | .e5m2x4 | .i8x4 | .n8x4 => 8
  | _ => 32

/-- Signed integer types (R138). -/
def Ty.signed : Ty → Bool
  | .i32 | .i64 | .i16x2 | .i8x4 => true
  | _ => false

/-- Integer types of R73 without .b32. -/
def Ty.isInt : Ty → Bool
  | .i32 | .n32 | .i64 | .n64 | .i16x2 | .n16x2 | .i8x4 | .n8x4 => true
  | _ => false

/-- Floating-point types of R75. -/
def Ty.isFloat : Ty → Bool
  | .f32 | .f16x2 | .bf16x2 | .e4m3x4 | .e5m2x4 => true
  | _ => false

/-- The type sets of R138. -/
def Ty.inWIDE : Ty → Bool
  | .i32 | .n32 | .i64 | .n64 => true
  | _ => false
def Ty.inN32 : Ty → Bool
  | .i32 | .n32 => true
  | _ => false
def Ty.inBITS : Ty → Bool
  | .b32 | .n64 => true
  | _ => false
def Ty.inFLT : Ty → Bool
  | .f32 | .f16x2 | .bf16x2 => true
  | _ => false
def Ty.inMEM (t : Ty) : Bool := t.inWIDE || t == .b32

/-- Both registers of a pair exist: an even number, and not v254:v255 for lanes (R37, R40). -/
def evenReg {n : Nat} (r : BitVec n) : Bool := r.getLsbD 0 == false
def lanePair (r : BitVec 8) : Bool := evenReg r && r != 254
def laneReg (pair : Bool) (r : BitVec 8) : Bool := if pair then lanePair r else r != 255

/-- A register source of one or two registers (R64, R136). -/
def Src.okReg (pair : Bool) : Src → Bool
  | .v n => laneReg pair n
  | .s n => !pair || evenReg n
  | .laneid | .item => true
  | .imm _ => false

/-- The last source may be IMM32 (R137). -/
def Src.okLast (pair : Bool) : Src → Bool
  | .imm _ => true
  | x => x.okReg pair

/-- A lane or scalar register, not %laneid, %item or an immediate. -/
def Src.isReg : Src → Bool
  | .v _ | .s _ => true
  | _ => false

/-- The address fields of a global access or of a stash access (R162). -/
def LAddr.ok (stash : Bool) (m : LAddr) : Bool :=
  m.base.isReg && m.base.okReg (!stash) && (match m.index with | none => !m.sidx | some x => x.isReg && x.okReg false)

/-- The orders a load, a store or an atomic permits (R60, R162). -/
def Ord.forLoad : Ord → Bool
  | .rlx | .acq => true
  | _ => false
def Ord.forStore : Ord → Bool
  | .rlx | .rel => true
  | _ => false

/-- WIDTH fits the type of a load or store (R164). -/
def LCtl.okWidth (c : LCtl) (t : Ty) : Bool := t.is64 || c.width != 3

/-- Types of VREDS and VSCAN (R159). -/
def RedOp.okTy (op : RedOp) (t : Ty) : Bool :=
  match op with
  | .add | .min | .max => t.inWIDE
  | .and | .or | .xor => t.inWIDE || t == .b32
  | .fadd | .fmin | .fmax => t == .f32

/-- Types of VATOM (R170). -/
def AtomOp.okTy (op : AtomOp) (t : Ty) : Bool :=
  match op with
  | .add | .min | .max => t.inWIDE
  | .and | .or | .xor | .xch | .cas => t.inWIDE || t == .b32
  | .fadd => t == .f32

/-- The SC operand of VATOM (R170). -/
def AtomOp.okSrc (op : AtomOp) (t : Ty) (c : Src) : Bool :=
  match op, c with
  | .cas, .v n => if t.is64 then n.getLsbD 0 == false && n.getLsbD 1 == false && n != 252 else lanePair n
  | .cas, _ => false
  | _, c => c.isReg && c.okReg t.is64

/-- Packed types of VPACK and VUNPK (R152, R153). -/
def Ty.isPacked (t : Ty) : Bool := 1 < t.elems

def Ty.narrow : Ty → Bool
  | .i32 | .n32 | .f32 => true
  | _ => false

/-- HALF must be 0 for the two-element types (R152, R153). -/
def okHalf (t : Ty) (half : Bool) : Bool := t.elems == 4 || !half

/-- VCVT types (R151). -/
def Ty.inCvt : Ty → Bool
  | .b32 | .q4n | .t3p => false
  | _ => true

/-- IDX limits of VT3P (R155). -/
def okT3pIdx (dty : Ty) (idx : BitVec 5) : Bool :=
  match dty with
  | .f32 => idx.toNat ≤ 19
  | .f16x2 | .bf16x2 => idx.toNat ≤ 18
  | .i8x4 => idx.toNat ≤ 16
  | _ => false

/-- SGET selectors (R49): 0x00-0x0D, even destinations for %time and %cycle. -/
def okSget (d sel : BitVec 8) : Bool :=
  sel.toNat ≤ 13 && (!(sel == 9 || sel == 10) || evenReg d)

/-- SSET writes %fpctl and %gstat only (R49, R104). -/
def okSset (sel : BitVec 8) : Bool := sel == 12 || sel == 13

/-- The checks of an instruction's encoding that R72 lists under item 3, for every instruction. -/
def Instr.legal : Instr → Bool
  | .smulw d _ _ => evenReg d
  | .saddp d a b | .ssubp d a b => evenReg d && evenReg a && evenReg b
  | .sshlp d a _ | .sshrp d a _ => evenReg d && evenReg a
  | .sget d sel => okSget d sel
  | .sset _ sel => okSset sel
  | .call c _ => evenReg c
  | .ret a | .jmpr a => evenReg a
  | .mfrom d _ | .mand d _ _ | .mor d _ _ | .mxor d _ _ | .mandn d _ _ | .mnot d _ | .exsave d _ => d != 0
  | .split _ a => evenReg a
  | .jsave _ a _ | .jload _ a _ => evenReg a
  | .bara _ count | .baraw _ count => count.toNat ≤ 33
  | .cbara _ count => count.toNat ≤ 384
  | .fence scope => scope != 7
  | .scpset n a _ => 8 ≤ n.toNat && n.toNat ≤ 31 && evenReg a
  | .sld32 _ a _ | .sst32 _ a _ | .saadd _ a _ | .samin _ a _ | .samax _ a _ | .saand _ a _ | .saor _ a _
  | .saxor _ a _ | .saxch _ a _ | .tdset _ a _ | .tdget _ a _ | .mfork _ a _ => evenReg a
  | .sld64 d a _ | .sst64 d a _ | .sacas d a _ | .new d a | .newLong d a | .stref d a _ => evenReg d && evenReg a
  | .ord _ scope => scope != 7
  | .cpy d a b | .rget d a b | .rput d a b => evenReg d && evenReg a && evenReg b
  | .smap _ a _ => evenReg a
  | .ldref d a t _ => evenReg d && evenReg a && t != 0
  | .publ scope a => 2 ≤ scope.toNat && scope != 7 && evenReg a
  | .ispub _ a | .ladr _ a | .lfeed _ a _ | .mbsend _ a _ | .mbsendTrap _ a _ | .launch _ a => evenReg a
  | .esc _ v | .lret _ v => v != 255
  | .mbrecv d _ => evenReg d
  | .svc v _ => v.toNat ≤ 251
  | .tret mode => mode.toNat ≤ 3
  | .wsplR d _ | .wsplW d _ => d.getLsbD 0 == false && d.getLsbD 1 == false
  | .sysrd d sel | .syswr d sel => evenReg d && sel.toNat ≤ 11
  | .vadd ty _ _ d a b | .vsub ty _ _ d a b | .vmul ty _ _ d a b | .vmin ty _ d a b | .vmax ty _ d a b =>
    ty.isInt && laneReg ty.is64 d && a.okReg ty.is64 && b.okLast ty.is64
  | .vmulhi ty _ d a b | .viota ty _ d a b => ty.inN32 && laneReg false d && a.okReg false && b.okLast false
  | .vmad ty _ _ d a b c => ty.inWIDE && laneReg ty.is64 d && a.okReg ty.is64 && b.okReg ty.is64 && c.okLast ty.is64
  | .vabs ty _ _ d a | .vneg ty _ _ d a => ty.isInt && ty.signed && laneReg ty.is64 d && a.okLast ty.is64
  | .vand ty _ d a b | .vor ty _ d a b | .vxor ty _ d a b | .vandn ty _ d a b | .vsel ty _ _ d a b =>
    ty.inBITS && laneReg ty.is64 d && a.okReg ty.is64 && b.okLast ty.is64
  | .vnot ty _ d a | .vmov ty _ d a => ty.inBITS && laneReg ty.is64 d && a.okLast ty.is64
  | .vshl ty _ d a b | .vshr ty _ d a b | .vsra ty _ d a b =>
    (ty.isInt || ty == .b32) && laneReg ty.is64 d && a.okReg ty.is64 && b.okLast false
  | .vrot ty _ d a b => ty == .b32 && laneReg false d && a.okReg false && b.okLast false
  | .vclz ty _ d a | .vpopc ty _ d a => ty == .b32 && laneReg false d && a.okLast false
  | .vbfx ty _ d a b c => ty.inN32 && laneReg false d && a.okReg false && b.okReg false && c.okLast false
  | .vbfi ty _ d a b c => ty == .b32 && laneReg false d && a.okReg false && b.okReg false && c.okLast false
  | .vcmp ty _ _ d a b => ty.inWIDE && d != 0 && a.okReg ty.is64 && b.okLast ty.is64
  | .vfadd ty _ d a b | .vfsub ty _ d a b | .vfmul ty _ d a b | .vfmin ty _ d a b | .vfmax ty _ d a b
  | .vfdiv ty _ d a b => ty.inFLT && laneReg false d && a.okReg false && b.okLast false
  | .vfma ty _ d a b c => ty.inFLT && laneReg false d && a.okReg false && b.okReg false && c.okLast false
  | .vfabs ty _ d a | .vfneg ty _ d a | .vfsqrt ty _ d a | .vfrcp ty _ d a | .vfrsq ty _ d a | .vfexp2 ty _ d a
  | .vflog2 ty _ d a | .vfsinp ty _ d a | .vfcosp ty _ d a | .vftanh ty _ d a | .vfrnd ty _ _ _ d a =>
    ty.inFLT && laneReg false d && a.okLast false
  | .vfcmp ty _ _ d a b => ty == .f32 && d != 0 && a.okReg false && b.okLast false
  | .vcvt ty dty _ _ sel del _ d a =>
    ty.inCvt && dty.inCvt && sel.toNat < ty.elems && del.toNat < dty.elems && laneReg dty.is64 d && a.okReg ty.is64
  | .vpack ty sty _ _ half _ d a b =>
    ty.isPacked && sty.narrow && okHalf ty half && laneReg false d && a.okReg false && b.okReg false
  | .vunpk ty dty _ _ half _ d a => ty.isPacked && dty.narrow && okHalf ty half && lanePair d && a.okReg false
  | .vq4n dty idx _ d a b c =>
    dty.inFLT && (dty == .f32 || evenReg idx) && laneReg false d && a.okReg false && b.okReg false && c.okReg false
  | .vt3p dty idx _ _ d a b => okT3pIdx dty idx && laneReg false d && a.okReg false && b.okReg false
  | .vshuf ty _ _ d a b => ty.inBITS && laneReg ty.is64 d && a.okReg ty.is64 && b.okLast false
  | .vbcst ty _ d a b =>
    ty.inBITS && laneReg ty.is64 d && a.okReg ty.is64 && (match b with | .s _ | .imm _ => true | _ => false)
  | .vreds ty op _ d a | .vscan ty op _ _ d a => op.okTy ty && laneReg ty.is64 d && a.okLast ty.is64
  | .vvote ty _ _ d a => ty.inBITS && d != 0 && a.okLast ty.is64
  | .vmatch ty _ d a => ty.inBITS && laneReg false d && a.okLast ty.is64
  | .vld ty _ d m c => ty.inMEM && laneReg ty.is64 d && m.ok false && c.scope != 7 && c.order.forLoad && c.okWidth ty
  | .vst ty _ d m c => ty.inMEM && laneReg ty.is64 d && m.ok false && c.scope != 7 && c.order.forStore && c.okWidth ty
  | .vlds ty _ d m c peer =>
    ty.inMEM && laneReg ty.is64 d && m.ok true && c.scope.toNat ≤ 2 && c.order.forLoad && c.okWidth ty &&
      (match peer with | none | some (.s _) => true | _ => false)
  | .vsts ty _ d m c =>
    ty.inMEM && laneReg ty.is64 d && m.ok true && c.scope.toNat ≤ 2 && c.order.forStore && c.okWidth ty
  | .vatom ty op nr stash _ d m c k =>
    op.okTy ty && op.okSrc ty c && (if nr then d == 0 else laneReg ty.is64 d) && m.ok stash && k.scope != 7 &&
      k.width == (if ty.is64 then 3 else 2)
  | .vprf _ _ m c => m.ok false && c.scope != 7 && c.order == .rlx
  | .vnew _ _ _ d a => lanePair d && a.okLast false
  | .vstref _ d m c => lanePair d && m.ok false && c.scope != 7 && c.order.forStore && c.width == 3
  | .vldref t _ d m c => t != 0 && lanePair d && m.ok false && c.scope != 7 && c.order.forLoad && c.width == 3
  | .vtld ty _ _ d a b c =>
    (ty == .f32 || ty == .i32) && laneReg false d && a.okReg false && b.okReg false && c.scope != 7 &&
      c.order.forLoad && c.width == 2
  | .vtst ty _ _ _ d a b c =>
    (ty == .f32 || ty == .i32) && laneReg false d && a.okReg false && b.okReg false && c.scope != 7 &&
      c.order.forStore && c.width == 2
  | .mlda a _ => a.toNat ≤ 7
  | .mma _ a _ _ | .mmaz _ a _ _ => a.toNat ≤ 7
  | .mloop _ b disp count => disp != 0 && (count == 0 || b == 0)
  | .mrel noadd tn ka kb scope value =>
    scope != 7 && (!noadd || (tn == 0 && ka == 0 && kb == 0 && value == 0))
  | _ => true

end Sys2Proof
end

