-- ==== Sys2Proof/WellFormed.lean ====
section
/-! DEFINITION. Well-formed instructions: those whose fields break none of the encoding checks of R72 item 3.
The checks themselves stand in Sys2Proof/Machine/Legal.lean, one arm for each instruction that has any. -/

namespace Sys2Proof

/-- No field of the instruction breaks a rule that its encoding alone decides. -/
abbrev Instr.wf (i : Instr) : Prop := i.legal = true

end Sys2Proof
end

