-- ==== Sys2Proof/Decode.lean ====
section
/-! DEFINITION. Decoding of scalar words (R55-R62), lane words and clause headers (R63-R67) and matrix words
(R68, R69), total on any bits, and the encoder written from the same tables. Pair, selector and type checks are
Instr.legal; the decoder refuses unassigned opcodes, reserved fields that are not zero, and operand fields with no
meaning (R64). -/

namespace Sys2Proof

/-- Why a word is no instruction: each raises ILLEGAL in the scalar and lane streams (R58, R64, R67, R72), and
MSTREAM with its reason in the matrix stream (R69, R184). -/
inductive DecErr where
  | unassigned
  | reservedField
  | badOperand
  | badModifier
  deriving DecidableEq, Repr

/-- The order codes of R60. -/
def Ord.code : Ord → BitVec 2
  | .rlx => 0 | .acq => 1 | .rel => 2 | .ar => 3
def Ord.ofCode (c : BitVec 2) : Ord :=
  match c.toNat with
  | 0 => .rlx | 1 => .acq | 2 => .rel | _ => .ar

/-- Scalar opcodes 0x00-0x0F (R58). -/
def decodeScalar0 (lo : BitVec 4) (w : Word) : Except DecErr Instr :=
  match lo with
  | 0x0#4 => .ok (.sadd (w.extractLsb' 16 8) (w.extractLsb' 8 8) (w.extractLsb' 0 8))
  | 0x1#4 => .ok (.ssub (w.extractLsb' 16 8) (w.extractLsb' 8 8) (w.extractLsb' 0 8))
  | 0x2#4 => .ok (.smul (w.extractLsb' 16 8) (w.extractLsb' 8 8) (w.extractLsb' 0 8))
  | 0x3#4 => .ok (.smulhi (w.extractLsb' 16 8) (w.extractLsb' 8 8) (w.extractLsb' 0 8))
  | 0x4#4 => .ok (.smulhn (w.extractLsb' 16 8) (w.extractLsb' 8 8) (w.extractLsb' 0 8))
  | 0x5#4 => .ok (.smulw (w.extractLsb' 16 8) (w.extractLsb' 8 8) (w.extractLsb' 0 8))
  | 0x6#4 => .ok (.sdivi (w.extractLsb' 16 8) (w.extractLsb' 8 8) (w.extractLsb' 0 8))
  | 0x7#4 => .ok (.sdivn (w.extractLsb' 16 8) (w.extractLsb' 8 8) (w.extractLsb' 0 8))
  | 0x8#4 => .ok (.sremi (w.extractLsb' 16 8) (w.extractLsb' 8 8) (w.extractLsb' 0 8))
  | 0x9#4 => .ok (.sremn (w.extractLsb' 16 8) (w.extractLsb' 8 8) (w.extractLsb' 0 8))
  | 0xA#4 => .ok (.sand (w.extractLsb' 16 8) (w.extractLsb' 8 8) (w.extractLsb' 0 8))
  | 0xB#4 => .ok (.sor (w.extractLsb' 16 8) (w.extractLsb' 8 8) (w.extractLsb' 0 8))
  | 0xC#4 => .ok (.sxor (w.extractLsb' 16 8) (w.extractLsb' 8 8) (w.extractLsb' 0 8))
  | 0xD#4 => .ok (.sandn (w.extractLsb' 16 8) (w.extractLsb' 8 8) (w.extractLsb' 0 8))
  | 0xE#4 => .ok (.sshl (w.extractLsb' 16 8) (w.extractLsb' 8 8) (w.extractLsb' 0 8))
  | _ => .ok (.sshr (w.extractLsb' 16 8) (w.extractLsb' 8 8) (w.extractLsb' 0 8))

/-- Scalar opcodes 0x10-0x1F (R58). -/
def decodeScalar1 (lo : BitVec 4) (w : Word) : Except DecErr Instr :=
  match lo with
  | 0x0#4 => .ok (.ssra (w.extractLsb' 16 8) (w.extractLsb' 8 8) (w.extractLsb' 0 8))
  | 0x1#4 => .ok (.srot (w.extractLsb' 16 8) (w.extractLsb' 8 8) (w.extractLsb' 0 8))
  | 0x2#4 => .ok (.smini (w.extractLsb' 16 8) (w.extractLsb' 8 8) (w.extractLsb' 0 8))
  | 0x3#4 => .ok (.sminn (w.extractLsb' 16 8) (w.extractLsb' 8 8) (w.extractLsb' 0 8))
  | 0x4#4 => .ok (.smaxi (w.extractLsb' 16 8) (w.extractLsb' 8 8) (w.extractLsb' 0 8))
  | 0x5#4 => .ok (.smaxn (w.extractLsb' 16 8) (w.extractLsb' 8 8) (w.extractLsb' 0 8))
  | 0x6#4 => if w.extractLsb' 0 8 = 0x0#8 then .ok (.sclz (w.extractLsb' 16 8) (w.extractLsb' 8 8)) else .error .reservedField
  | 0x7#4 => if w.extractLsb' 0 8 = 0x0#8 then .ok (.spopc (w.extractLsb' 16 8) (w.extractLsb' 8 8)) else .error .reservedField
  | 0x8#4 => if w.extractLsb' 0 8 = 0x0#8 then .ok (.sbrev (w.extractLsb' 16 8) (w.extractLsb' 8 8)) else .error .reservedField
  | 0x9#4 => .ok (.sceq (w.extractLsb' 16 8) (w.extractLsb' 8 8) (w.extractLsb' 0 8))
  | 0xA#4 => .ok (.scne (w.extractLsb' 16 8) (w.extractLsb' 8 8) (w.extractLsb' 0 8))
  | 0xB#4 => .ok (.sclti (w.extractLsb' 16 8) (w.extractLsb' 8 8) (w.extractLsb' 0 8))
  | 0xC#4 => .ok (.scltn (w.extractLsb' 16 8) (w.extractLsb' 8 8) (w.extractLsb' 0 8))
  | 0xD#4 => .ok (.sclei (w.extractLsb' 16 8) (w.extractLsb' 8 8) (w.extractLsb' 0 8))
  | 0xE#4 => .ok (.sclen (w.extractLsb' 16 8) (w.extractLsb' 8 8) (w.extractLsb' 0 8))
  | _ => .ok (.saddp (w.extractLsb' 16 8) (w.extractLsb' 8 8) (w.extractLsb' 0 8))

/-- Scalar opcodes 0x20-0x2F (R58). -/
def decodeScalar2 (lo : BitVec 4) (w : Word) : Except DecErr Instr :=
  match lo with
  | 0x0#4 => .ok (.ssubp (w.extractLsb' 16 8) (w.extractLsb' 8 8) (w.extractLsb' 0 8))
  | 0x1#4 => .ok (.sshlp (w.extractLsb' 16 8) (w.extractLsb' 8 8) (w.extractLsb' 0 8))
  | 0x2#4 => .ok (.sshrp (w.extractLsb' 16 8) (w.extractLsb' 8 8) (w.extractLsb' 0 8))
  | _ => .error .unassigned

/-- Scalar opcodes 0x40-0x4F (R58). -/
def decodeScalar4 (lo : BitVec 4) (w : Word) : Except DecErr Instr :=
  match lo with
  | 0x0#4 => .ok (.smovi (w.extractLsb' 16 8) (w.extractLsb' 0 16))
  | 0x1#4 => .ok (.smovhi (w.extractLsb' 16 8) (w.extractLsb' 0 16))
  | 0x2#4 => .ok (.saddi (w.extractLsb' 16 8) (w.extractLsb' 0 16))
  | 0x3#4 => .ok (.sandi (w.extractLsb' 16 8) (w.extractLsb' 0 16))
  | 0x4#4 => .ok (.sori (w.extractLsb' 16 8) (w.extractLsb' 0 16))
  | 0x5#4 => .ok (.sxori (w.extractLsb' 16 8) (w.extractLsb' 0 16))
  | 0x6#4 => if w.extractLsb' 5 11 = 0x0#11 then .ok (.sshli (w.extractLsb' 16 8) (w.extractLsb' 0 5)) else .error .reservedField
  | 0x7#4 => if w.extractLsb' 5 11 = 0x0#11 then .ok (.sshri (w.extractLsb' 16 8) (w.extractLsb' 0 5)) else .error .reservedField
  | 0x8#4 => if w.extractLsb' 5 11 = 0x0#11 then .ok (.ssrai (w.extractLsb' 16 8) (w.extractLsb' 0 5)) else .error .reservedField
  | 0x9#4 => .ok (.sceqi (w.extractLsb' 16 8) (w.extractLsb' 0 16))
  | 0xA#4 => .ok (.scltis (w.extractLsb' 16 8) (w.extractLsb' 0 16))
  | 0xB#4 => .ok (.scltin (w.extractLsb' 16 8) (w.extractLsb' 0 16))
  | _ => .error .unassigned

/-- Scalar opcodes 0x50-0x5F (R58). -/
def decodeScalar5 (lo : BitVec 4) (w : Word) : Except DecErr Instr :=
  match lo with
  | 0x8#4 => if w.extractLsb' 0 8 = 0x0#8 then .ok (.smov (w.extractLsb' 16 8) (w.extractLsb' 8 8)) else .error .reservedField
  | 0x9#4 => if w.extractLsb' 10 6 = 0x0#6 then .ok (.smovx (w.extractLsb' 16 8) (w.extractLsb' 0 10)) else if w.extractLsb' 10 6 = 0x20#6 then .ok (.smovxW (w.extractLsb' 16 8) (w.extractLsb' 0 10)) else .error .reservedField
  | 0xA#4 => if w.extractLsb' 8 8 = 0x0#8 then .ok (.sget (w.extractLsb' 16 8) (w.extractLsb' 0 8)) else .error .reservedField
  | 0xB#4 => if w.extractLsb' 8 8 = 0x0#8 then .ok (.sset (w.extractLsb' 16 8) (w.extractLsb' 0 8)) else .error .reservedField
  | _ => .error .unassigned

/-- Scalar opcodes 0x60-0x6F (R58). -/
def decodeScalar6 (lo : BitVec 4) (w : Word) : Except DecErr Instr :=
  match lo with
  | 0x0#4 => .ok (.brz (w.extractLsb' 16 8) (w.extractLsb' 0 16))
  | 0x1#4 => .ok (.brnz (w.extractLsb' 16 8) (w.extractLsb' 0 16))
  | 0x2#4 => if w.extractLsb' 20 4 = 0x0#4 then .ok (.brany (w.extractLsb' 16 4) (w.extractLsb' 0 16)) else .error .reservedField
  | 0x3#4 => if w.extractLsb' 20 4 = 0x0#4 then .ok (.brall (w.extractLsb' 16 4) (w.extractLsb' 0 16)) else .error .reservedField
  | 0x4#4 => if w.extractLsb' 20 4 = 0x0#4 then .ok (.brnone (w.extractLsb' 16 4) (w.extractLsb' 0 16)) else .error .reservedField
  | 0x5#4 => if w.extractLsb' 16 8 = 0x0#8 then .ok (.jmp (w.extractLsb' 0 16)) else .error .reservedField
  | 0x6#4 => .ok (.call (w.extractLsb' 16 8) (w.extractLsb' 0 16))
  | 0x7#4 => if w.extractLsb' 16 8 = 0x0#8 ∧ w.extractLsb' 0 8 = 0x0#8 then .ok (.ret (w.extractLsb' 8 8)) else .error .reservedField
  | 0x8#4 => if w.extractLsb' 16 8 = 0x0#8 ∧ w.extractLsb' 0 8 = 0x0#8 then .ok (.jmpr (w.extractLsb' 8 8)) else .error .reservedField
  | 0x9#4 => if w.extractLsb' 0 24 = 0x0#24 then .ok (.exit) else .error .reservedField
  | 0xA#4 => if w.extractLsb' 0 24 = 0x0#24 then .ok (.nop) else .error .reservedField
  | 0xB#4 => if w.extractLsb' 16 8 = 0x0#8 then .ok (.sleep (w.extractLsb' 0 16)) else .error .reservedField
  | _ => .error .unassigned

/-- Scalar opcodes 0x70-0x7F (R58). -/
def decodeScalar7 (lo : BitVec 4) (w : Word) : Except DecErr Instr :=
  match lo with
  | 0x0#4 => if w.extractLsb' 20 4 = 0x0#4 ∧ w.extractLsb' 0 8 = 0x0#8 then .ok (.mfrom (w.extractLsb' 16 4) (w.extractLsb' 8 8)) else .error .reservedField
  | 0x1#4 => if w.extractLsb' 12 4 = 0x0#4 ∧ w.extractLsb' 0 8 = 0x0#8 then .ok (.mto (w.extractLsb' 16 8) (w.extractLsb' 8 4)) else .error .reservedField
  | 0x2#4 => if w.extractLsb' 20 4 = 0x0#4 ∧ w.extractLsb' 12 4 = 0x0#4 ∧ w.extractLsb' 4 4 = 0x0#4 then .ok (.mand (w.extractLsb' 16 4) (w.extractLsb' 8 4) (w.extractLsb' 0 4)) else .error .reservedField
  | 0x3#4 => if w.extractLsb' 20 4 = 0x0#4 ∧ w.extractLsb' 12 4 = 0x0#4 ∧ w.extractLsb' 4 4 = 0x0#4 then .ok (.mor (w.extractLsb' 16 4) (w.extractLsb' 8 4) (w.extractLsb' 0 4)) else .error .reservedField
  | 0x4#4 => if w.extractLsb' 20 4 = 0x0#4 ∧ w.extractLsb' 12 4 = 0x0#4 ∧ w.extractLsb' 4 4 = 0x0#4 then .ok (.mxor (w.extractLsb' 16 4) (w.extractLsb' 8 4) (w.extractLsb' 0 4)) else .error .reservedField
  | 0x5#4 => if w.extractLsb' 20 4 = 0x0#4 ∧ w.extractLsb' 12 4 = 0x0#4 ∧ w.extractLsb' 4 4 = 0x0#4 then .ok (.mandn (w.extractLsb' 16 4) (w.extractLsb' 8 4) (w.extractLsb' 0 4)) else .error .reservedField
  | 0x6#4 => if w.extractLsb' 20 4 = 0x0#4 ∧ w.extractLsb' 12 4 = 0x0#4 ∧ w.extractLsb' 0 8 = 0x0#8 then .ok (.mnot (w.extractLsb' 16 4) (w.extractLsb' 8 4)) else .error .reservedField
  | 0x7#4 => if w.extractLsb' 12 4 = 0x0#4 ∧ w.extractLsb' 0 8 = 0x0#8 then .ok (.mpopc (w.extractLsb' 16 8) (w.extractLsb' 8 4)) else .error .reservedField
  | 0x8#4 => if w.extractLsb' 12 4 = 0x0#4 ∧ w.extractLsb' 0 8 = 0x0#8 then .ok (.mfirst (w.extractLsb' 16 8) (w.extractLsb' 8 4)) else .error .reservedField
  | 0x9#4 => if w.extractLsb' 12 12 = 0x0#12 ∧ w.extractLsb' 0 8 = 0x0#8 then .ok (.exset (w.extractLsb' 8 4)) else if w.extractLsb' 0 24 = 0x1#24 then .ok (.exsetAll) else .error .reservedField
  | 0xA#4 => if w.extractLsb' 20 4 = 0x0#4 ∧ w.extractLsb' 12 4 = 0x0#4 ∧ w.extractLsb' 0 8 = 0x0#8 then .ok (.exsave (w.extractLsb' 16 4) (w.extractLsb' 8 4)) else .error .reservedField
  | 0xB#4 => if w.extractLsb' 16 8 = 0x0#8 then .ok (.lrun (w.extractLsb' 0 16)) else .error .reservedField
  | 0xC#4 => if w.extractLsb' 12 12 = 0x0#12 then .ok (.fwait (w.extractLsb' 0 12)) else .error .reservedField
  | 0xD#4 => if w.extractLsb' 12 4 = 0x0#4 then .ok (.ftest (w.extractLsb' 16 8) (w.extractLsb' 0 12)) else .error .reservedField
  | _ => .error .unassigned

/-- Scalar opcodes 0x80-0x8F (R58). -/
def decodeScalar8 (lo : BitVec 4) (w : Word) : Except DecErr Instr :=
  match lo with
  | 0x0#4 => if w.extractLsb' 20 4 = 0x0#4 ∧ w.extractLsb' 0 8 = 0x0#8 then .ok (.split (w.extractLsb' 16 4) (w.extractLsb' 8 8)) else .error .reservedField
  | 0x1#4 => if w.extractLsb' 19 5 = 0x0#5 ∧ w.extractLsb' 12 4 = 0x0#4 ∧ w.extractLsb' 0 8 = 0x0#8 then .ok (.jset (w.extractLsb' 16 3) (w.extractLsb' 8 4)) else .error .reservedField
  | 0x2#4 => if w.extractLsb' 19 5 = 0x0#5 ∧ w.extractLsb' 0 16 = 0x0#16 then .ok (.join (w.extractLsb' 16 3)) else .error .reservedField
  | 0x3#4 => if w.extractLsb' 19 5 = 0x0#5 then .ok (.jsave (w.extractLsb' 16 3) (w.extractLsb' 8 8) (w.extractLsb' 0 8)) else .error .reservedField
  | 0x4#4 => if w.extractLsb' 19 5 = 0x0#5 then .ok (.jload (w.extractLsb' 16 3) (w.extractLsb' 8 8) (w.extractLsb' 0 8)) else .error .reservedField
  | 0x5#4 => if w.extractLsb' 10 6 = 0x0#6 ∧ w.extractLsb' 0 8 = 0x0#8 then .ok (.fragq (w.extractLsb' 16 8) (w.extractLsb' 8 2)) else .error .reservedField
  | 0x8#4 => if w.extractLsb' 10 14 = 0x0#14 then .ok (.bara (w.extractLsb' 0 4) (w.extractLsb' 4 6)) else .error .reservedField
  | 0x9#4 => if w.extractLsb' 4 20 = 0x0#20 then .ok (.barw (w.extractLsb' 0 4)) else .error .reservedField
  | 0xA#4 => if w.extractLsb' 10 14 = 0x0#14 then .ok (.baraw (w.extractLsb' 0 4) (w.extractLsb' 4 6)) else .error .reservedField
  | 0xB#4 => if w.extractLsb' 11 13 = 0x0#13 then .ok (.cbara (w.extractLsb' 0 2) (w.extractLsb' 2 9)) else .error .reservedField
  | 0xC#4 => if w.extractLsb' 2 22 = 0x0#22 then .ok (.cbarw (w.extractLsb' 0 2)) else .error .reservedField
  | 0xD#4 => if w.extractLsb' 5 19 = 0x0#19 then .ok (.fence (w.extractLsb' 0 5)) else .error .reservedField
  | 0xE#4 => if w.extractLsb' 0 16 = 0x0#16 then .ok (.rdv (w.extractLsb' 16 8)) else .error .reservedField
  | 0xF#4 => .ok (.scpset (w.extractLsb' 16 8) (w.extractLsb' 8 8) (w.extractLsb' 0 8))
  | _ => .error .unassigned

/-- Scalar opcodes 0x90-0x9F (R58). -/
def decodeScalar9 (lo : BitVec 4) (w : Word) : Except DecErr Instr :=
  match lo with
  | 0x0#4 => .ok (.sld32 (w.extractLsb' 16 8) (w.extractLsb' 8 8) (w.extractLsb' 0 8))
  | 0x1#4 => .ok (.sld64 (w.extractLsb' 16 8) (w.extractLsb' 8 8) (w.extractLsb' 0 8))
  | 0x2#4 => .ok (.sst32 (w.extractLsb' 16 8) (w.extractLsb' 8 8) (w.extractLsb' 0 8))
  | 0x3#4 => .ok (.sst64 (w.extractLsb' 16 8) (w.extractLsb' 8 8) (w.extractLsb' 0 8))
  | 0x4#4 => .ok (.saadd (w.extractLsb' 16 8) (w.extractLsb' 8 8) (w.extractLsb' 0 8))
  | 0x5#4 => .ok (.samin (w.extractLsb' 16 8) (w.extractLsb' 8 8) (w.extractLsb' 0 8))
  | 0x6#4 => .ok (.samax (w.extractLsb' 16 8) (w.extractLsb' 8 8) (w.extractLsb' 0 8))
  | 0x7#4 => .ok (.saand (w.extractLsb' 16 8) (w.extractLsb' 8 8) (w.extractLsb' 0 8))
  | 0x8#4 => .ok (.saor (w.extractLsb' 16 8) (w.extractLsb' 8 8) (w.extractLsb' 0 8))
  | 0x9#4 => .ok (.saxor (w.extractLsb' 16 8) (w.extractLsb' 8 8) (w.extractLsb' 0 8))
  | 0xA#4 => .ok (.saxch (w.extractLsb' 16 8) (w.extractLsb' 8 8) (w.extractLsb' 0 8))
  | 0xB#4 => .ok (.sacas (w.extractLsb' 16 8) (w.extractLsb' 8 8) (w.extractLsb' 0 8))
  | 0xF#4 => if w.extractLsb' 7 17 = 0x0#17 then .ok (.ord (Ord.ofCode (w.extractLsb' 5 2)) (w.extractLsb' 0 5)) else .error .reservedField
  | _ => .error .unassigned

/-- Scalar opcodes 0xA0-0xAF (R58). -/
def decodeScalarA (lo : BitVec 4) (w : Word) : Except DecErr Instr :=
  match lo with
  | 0x0#4 => .ok (.cpy (w.extractLsb' 16 8) (w.extractLsb' 8 8) (w.extractLsb' 0 8))
  | 0x1#4 => if w.extractLsb' 19 5 = 0x0#5 ∧ w.extractLsb' 0 16 = 0x0#16 then .ok (.cseal (w.extractLsb' 16 3)) else .error .reservedField
  | 0x2#4 => if w.extractLsb' 19 5 = 0x0#5 ∧ w.extractLsb' 0 16 = 0x0#16 then .ok (.cwait (w.extractLsb' 16 3)) else .error .reservedField
  | 0x3#4 => if w.extractLsb' 11 5 = 0x0#5 ∧ w.extractLsb' 0 8 = 0x0#8 then .ok (.cpoll (w.extractLsb' 16 8) (w.extractLsb' 8 3)) else .error .reservedField
  | 0x4#4 => .ok (.smap (w.extractLsb' 16 8) (w.extractLsb' 8 8) (w.extractLsb' 0 8))
  | 0x5#4 => if w.extractLsb' 0 16 = 0x0#16 then .ok (.sunmap (w.extractLsb' 16 8)) else .error .reservedField
  | 0x6#4 => .ok (.rget (w.extractLsb' 16 8) (w.extractLsb' 8 8) (w.extractLsb' 0 8))
  | 0x7#4 => .ok (.rput (w.extractLsb' 16 8) (w.extractLsb' 8 8) (w.extractLsb' 0 8))
  | 0x8#4 => .ok (.tdset (w.extractLsb' 16 8) (w.extractLsb' 8 8) (w.extractLsb' 0 8))
  | 0x9#4 => .ok (.tdget (w.extractLsb' 16 8) (w.extractLsb' 8 8) (w.extractLsb' 0 8))
  | 0xA#4 => .ok (.mfork (w.extractLsb' 16 8) (w.extractLsb' 8 8) (w.extractLsb' 0 8))
  | _ => .error .unassigned

/-- Scalar opcodes 0xB0-0xBF (R58). -/
def decodeScalarB (lo : BitVec 4) (w : Word) : Except DecErr Instr :=
  match lo with
  | 0x0#4 => if w.extractLsb' 0 8 = 0x0#8 then .ok (.new (w.extractLsb' 16 8) (w.extractLsb' 8 8)) else if w.extractLsb' 0 8 = 0x1#8 then .ok (.newLong (w.extractLsb' 16 8) (w.extractLsb' 8 8)) else .error .reservedField
  | 0x1#4 => .ok (.stref (w.extractLsb' 16 8) (w.extractLsb' 8 8) (w.extractLsb' 0 8))
  | 0x2#4 => .ok (.ldref (w.extractLsb' 16 8) (w.extractLsb' 8 8) (w.extractLsb' 4 4) (w.extractLsb' 0 4))
  | 0x3#4 => if w.extractLsb' 21 3 = 0x0#3 ∧ w.extractLsb' 0 8 = 0x0#8 then .ok (.publ (w.extractLsb' 16 5) (w.extractLsb' 8 8)) else .error .reservedField
  | 0x4#4 => if w.extractLsb' 0 8 = 0x0#8 then .ok (.ispub (w.extractLsb' 16 8) (w.extractLsb' 8 8)) else .error .reservedField
  | 0x5#4 => if w.extractLsb' 8 8 = 0x0#8 then .ok (.qgetUse (w.extractLsb' 16 8) (w.extractLsb' 0 8)) else if w.extractLsb' 8 8 = 0x2#8 then .ok (.qgetLim (w.extractLsb' 16 8) (w.extractLsb' 0 8)) else .error .reservedField
  | _ => .error .unassigned

/-- Scalar opcodes 0xC0-0xCF (R58). -/
def decodeScalarC (lo : BitVec 4) (w : Word) : Except DecErr Instr :=
  match lo with
  | 0x0#4 => if w.extractLsb' 20 4 = 0x0#4 ∧ w.extractLsb' 0 8 = 0x0#8 then .ok (.ladr (w.extractLsb' 16 4) (w.extractLsb' 8 8)) else .error .reservedField
  | 0x1#4 => if w.extractLsb' 20 4 = 0x0#4 then .ok (.lfeed (w.extractLsb' 16 4) (w.extractLsb' 8 8) (w.extractLsb' 0 8)) else .error .reservedField
  | 0x2#4 => if w.extractLsb' 20 4 = 0x0#4 ∧ w.extractLsb' 0 16 = 0x0#16 then .ok (.lclose (w.extractLsb' 16 4)) else .error .reservedField
  | 0x3#4 => if w.extractLsb' 20 4 = 0x0#4 ∧ w.extractLsb' 0 8 = 0x0#8 then .ok (.esc (w.extractLsb' 16 4) (w.extractLsb' 8 8)) else .error .reservedField
  | 0x4#4 => if w.extractLsb' 20 4 = 0x0#4 ∧ w.extractLsb' 0 8 = 0x0#8 then .ok (.lret (w.extractLsb' 16 4) (w.extractLsb' 8 8)) else .error .reservedField
  | 0x5#4 => if w.extractLsb' 12 4 = 0x0#4 then .ok (.lwait (w.extractLsb' 16 8) (w.extractLsb' 8 4) (w.extractLsb' 0 8)) else .error .reservedField
  | 0x6#4 => if w.extractLsb' 6 2 = 0x0#2 then .ok (.mbsend (w.extractLsb' 16 8) (w.extractLsb' 8 8) (w.extractLsb' 0 6)) else if w.extractLsb' 6 2 = 0x2#2 then .ok (.mbsendTrap (w.extractLsb' 16 8) (w.extractLsb' 8 8) (w.extractLsb' 0 6)) else .error .reservedField
  | 0x7#4 => if w.extractLsb' 6 10 = 0x0#10 then .ok (.mbrecv (w.extractLsb' 16 8) (w.extractLsb' 0 6)) else .error .reservedField
  | 0x8#4 => if w.extractLsb' 6 10 = 0x0#10 then .ok (.mbpoll (w.extractLsb' 16 8) (w.extractLsb' 0 6)) else .error .reservedField
  | 0x9#4 => if w.extractLsb' 0 8 = 0x0#8 then .ok (.launch (w.extractLsb' 16 8) (w.extractLsb' 8 8)) else .error .reservedField
  | _ => .error .unassigned

/-- Scalar opcodes 0xD0-0xDF (R58). -/
def decodeScalarD (lo : BitVec 4) (w : Word) : Except DecErr Instr :=
  match lo with
  | 0x0#4 => .ok (.svc (w.extractLsb' 16 8) (w.extractLsb' 0 16))
  | 0x1#4 => if w.extractLsb' 16 8 = 0x0#8 then .ok (.trap (w.extractLsb' 0 16)) else .error .reservedField
  | 0x2#4 => if w.extractLsb' 16 8 = 0x0#8 then .ok (.brk (w.extractLsb' 0 16)) else .error .reservedField
  | 0x3#4 => if w.extractLsb' 0 16 = 0x0#16 then .ok (.tret (w.extractLsb' 16 8)) else .error .reservedField
  | 0x4#4 => if w.extractLsb' 0 8 = 0x0#8 then .ok (.wrd (w.extractLsb' 16 8) (w.extractLsb' 8 8)) else .error .reservedField
  | 0x5#4 => if w.extractLsb' 16 8 = 0x0#8 then .ok (.wwr (w.extractLsb' 8 8) (w.extractLsb' 0 8)) else .error .reservedField
  | 0x6#4 => if w.extractLsb' 0 8 = 0x0#8 then .ok (.wsplR (w.extractLsb' 16 8) (w.extractLsb' 8 8)) else if w.extractLsb' 0 8 = 0x1#8 then .ok (.wsplW (w.extractLsb' 16 8) (w.extractLsb' 8 8)) else .error .reservedField
  | 0x7#4 => if w.extractLsb' 8 8 = 0x0#8 then .ok (.sysrd (w.extractLsb' 16 8) (w.extractLsb' 0 8)) else .error .reservedField
  | 0x8#4 => if w.extractLsb' 8 8 = 0x0#8 then .ok (.syswr (w.extractLsb' 16 8) (w.extractLsb' 0 8)) else .error .reservedField
  | _ => .error .unassigned

/-- A scalar word (R55, R58): the opcode's high nibble chooses the family, its low nibble the instruction. -/
def decodeScalar (w : Word) : Except DecErr Instr :=
  match w.extractLsb' 28 4 with
  | 0x0#4 => decodeScalar0 (w.extractLsb' 24 4) w
  | 0x1#4 => decodeScalar1 (w.extractLsb' 24 4) w
  | 0x2#4 => decodeScalar2 (w.extractLsb' 24 4) w
  | 0x4#4 => decodeScalar4 (w.extractLsb' 24 4) w
  | 0x5#4 => decodeScalar5 (w.extractLsb' 24 4) w
  | 0x6#4 => decodeScalar6 (w.extractLsb' 24 4) w
  | 0x7#4 => decodeScalar7 (w.extractLsb' 24 4) w
  | 0x8#4 => decodeScalar8 (w.extractLsb' 24 4) w
  | 0x9#4 => decodeScalar9 (w.extractLsb' 24 4) w
  | 0xA#4 => decodeScalarA (w.extractLsb' 24 4) w
  | 0xB#4 => decodeScalarB (w.extractLsb' 24 4) w
  | 0xC#4 => decodeScalarC (w.extractLsb' 24 4) w
  | 0xD#4 => decodeScalarD (w.extractLsb' 24 4) w
  | _ => .error .unassigned
/-! ## Lane words -/

/-- The fields of a lane word (R63). -/
structure LaneFields where
  opc  : BitVec 10
  ty   : BitVec 4
  imm  : Bool
  msel : BitVec 4
  mod  : BitVec 5
  vd   : BitVec 8
  sa   : BitVec 11
  sb   : BitVec 11
  aux  : BitVec 10
  low  : BitVec 32
  deriving DecidableEq, Repr

/-- The fields of a word, and the word of the fields (R63). -/
def LaneFields.ofWord (w : LaneWord) : LaneFields where
  opc := w.extractLsb' 86 10
  ty := w.extractLsb' 82 4
  imm := w.getLsbD 81
  msel := w.extractLsb' 77 4
  mod := w.extractLsb' 72 5
  vd := w.extractLsb' 64 8
  sa := w.extractLsb' 53 11
  sb := w.extractLsb' 42 11
  aux := w.extractLsb' 32 10
  low := w.extractLsb' 0 32
def LaneFields.word (f : LaneFields) : LaneWord :=
  f.opc ++ f.ty ++ BitVec.ofBool f.imm ++ f.msel ++ f.mod ++ f.vd ++ f.sa ++ f.sb ++ f.aux ++ f.low

/-- SC and EXT (R63). -/
def LaneFields.sc (f : LaneFields) : BitVec 11 := f.low.extractLsb' 21 11
def LaneFields.ext (f : LaneFields) : BitVec 21 := f.low.extractLsb' 0 21

/-- An operand field (R64). -/
def Src.ofField (f : BitVec 11) : Except DecErr Src :=
  if f.getLsbD 10 then .ok (.s (f.extractLsb' 0 10))
  else
    match (f.extractLsb' 8 2).toNat with
    | 0 => if f.extractLsb' 0 8 = 255#8 then .error .badOperand else .ok (.v (f.extractLsb' 0 8))
    | 1 => if f.extractLsb' 0 8 = 0#8 then .ok .laneid else if f.extractLsb' 0 8 = 1#8 then .ok .item else .error .badOperand
    | _ => .error .badOperand

/-- The field of an operand (R64); an immediate leaves its field zero (R137). -/
def Src.field : Src → BitVec 11
  | .v n => 0#3 ++ n
  | .s n => 1#1 ++ n
  | .laneid => 0x100#11
  | .item => 0x101#11
  | .imm _ => 0#11

/-- The forms of R139: one, two and three sources, the last of which IMM32 may replace (R137). -/
def LaneFields.src1 (f : LaneFields) : Except DecErr Src :=
  if f.aux = 0 ∧ f.sb = 0 then
    if f.imm then (if f.sa = 0 then .ok (.imm f.low) else .error .reservedField)
    else if f.low = 0 then Src.ofField f.sa else .error .reservedField
  else .error .reservedField
def LaneFields.src2 (f : LaneFields) : Except DecErr (Src × Src) :=
  if f.aux = 0 then
    if f.imm then
      if f.sb = 0 then (Src.ofField f.sa).bind fun a => .ok (a, .imm f.low) else .error .reservedField
    else if f.low = 0 then (Src.ofField f.sa).bind fun a => (Src.ofField f.sb).bind fun b => .ok (a, b)
    else .error .reservedField
  else .error .reservedField
def LaneFields.src3 (f : LaneFields) : Except DecErr (Src × Src × Src) :=
  if f.aux = 0 then
    (Src.ofField f.sa).bind fun a => (Src.ofField f.sb).bind fun b =>
      if f.imm then .ok (a, b, .imm f.low)
      else if f.ext = 0 then (Src.ofField f.sc).bind fun c => .ok (a, b, c) else .error .reservedField
  else .error .reservedField

/-- MOD of an instruction that defines none, or only bit 0 (R139, R140). -/
def LaneFields.plain (f : LaneFields) (i : Except DecErr Instr) : Except DecErr Instr :=
  if f.mod = 0 then i else .error .badModifier
def LaneFields.sat (f : LaneFields) (i : Bool → Except DecErr Instr) : Except DecErr Instr :=
  if f.mod.extractLsb' 1 4 = 0#4 then i (f.mod.getLsbD 0) else .error .badModifier

/-- VD naming a mask: bits 7:4 zero (R63). -/
def LaneFields.maskDst (f : LaneFields) (i : BitVec 4 → Except DecErr Instr) : Except DecErr Instr :=
  if f.vd.extractLsb' 4 4 = 0#4 then i (f.vd.extractLsb' 0 4) else .error .reservedField

def LaneFields.tyOf (f : LaneFields) : Ty := Ty.ofCode f.ty

def LaneFields.un (f : LaneFields) (k : Src → Instr) : Except DecErr Instr := f.src1.bind fun a => .ok (k a)
def LaneFields.bin (f : LaneFields) (k : Src → Src → Instr) : Except DecErr Instr := f.src2.bind fun p => .ok (k p.1 p.2)
def LaneFields.ter (f : LaneFields) (k : Src → Src → Src → Instr) : Except DecErr Instr :=
  f.src3.bind fun p => .ok (k p.1 p.2.1 p.2.2)

/-- Integer instructions, 0x000-0x019 (R139-R144). -/
def decodeLaneInt (f : LaneFields) : Except DecErr Instr :=
  let t := f.tyOf
  let m := f.msel
  let d := f.vd
  match f.opc.toNat with
  | 0x000 => f.sat fun s => f.bin (.vadd t s m d)
  | 0x001 => f.sat fun s => f.bin (.vsub t s m d)
  | 0x002 => f.sat fun s => f.bin (.vmul t s m d)
  | 0x003 => f.plain (f.bin (.vmulhi t m d))
  | 0x004 => f.sat fun s => f.ter (.vmad t s m d)
  | 0x005 => f.plain (f.bin (.vmin t m d))
  | 0x006 => f.plain (f.bin (.vmax t m d))
  | 0x007 => f.sat fun s => f.un (.vabs t s m d)
  | 0x008 => f.sat fun s => f.un (.vneg t s m d)
  | 0x009 => f.plain (f.bin (.vand t m d))
  | 0x00A => f.plain (f.bin (.vor t m d))
  | 0x00B => f.plain (f.bin (.vxor t m d))
  | 0x00C => f.plain (f.bin (.vandn t m d))
  | 0x00D => f.plain (f.un (.vnot t m d))
  | 0x00E => f.plain (f.bin (.vshl t m d))
  | 0x00F => f.plain (f.bin (.vshr t m d))
  | 0x010 => f.plain (f.bin (.vsra t m d))
  | 0x011 => f.plain (f.bin (.vrot t m d))
  | 0x012 => f.plain (f.un (.vclz t m d))
  | 0x013 => f.plain (f.un (.vpopc t m d))
  | 0x014 => f.plain (f.ter (.vbfx t m d))
  | 0x015 => f.plain (f.ter (.vbfi t m d))
  | 0x016 => f.maskDst fun md =>
    match f.mod.toNat with
    | 0 => f.bin (.vcmp t .eq m md)
    | 1 => f.bin (.vcmp t .ne m md)
    | 2 => f.bin (.vcmp t .lt m md)
    | 3 => f.bin (.vcmp t .le m md)
    | 4 => f.bin (.vcmp t .gt m md)
    | 5 => f.bin (.vcmp t .ge m md)
    | _ => .error .badModifier
  | 0x017 => if f.mod.getLsbD 4 then .error .badModifier else f.bin (.vsel t (f.mod.extractLsb' 0 4) m d)
  | 0x018 => f.plain (f.un (.vmov t m d))
  | 0x019 => f.plain (f.bin (.viota t m d))
  | _ => .error .unassigned

/-- The rounding codes of R149 and R151. -/
def Rnd.code : Rnd → BitVec 3
  | .rm => 0 | .rne => 1 | .rtz => 2 | .rup => 3 | .rdn => 4
def Rnd.ofCode (c : BitVec 3) : Except DecErr Rnd :=
  match c.toNat with
  | 0 => .ok .rm | 1 => .ok .rne | 2 => .ok .rtz | 3 => .ok .rup | 4 => .ok .rdn
  | _ => .error .badModifier

/-- Floating-point instructions, 0x080-0x092 (R145-R150). -/
def decodeLaneFp (f : LaneFields) : Except DecErr Instr :=
  let t := f.tyOf
  let m := f.msel
  let d := f.vd
  match f.opc.toNat with
  | 0x080 => f.plain (f.bin (.vfadd t m d))
  | 0x081 => f.plain (f.bin (.vfsub t m d))
  | 0x082 => f.plain (f.bin (.vfmul t m d))
  | 0x083 => f.plain (f.ter (.vfma t m d))
  | 0x084 => f.plain (f.bin (.vfmin t m d))
  | 0x085 => f.plain (f.bin (.vfmax t m d))
  | 0x086 => f.plain (f.un (.vfabs t m d))
  | 0x087 => f.plain (f.un (.vfneg t m d))
  | 0x088 => f.maskDst fun md =>
    match f.mod.toNat with
    | 0 => f.bin (.vfcmp t .eq m md)
    | 1 => f.bin (.vfcmp t .ne m md)
    | 2 => f.bin (.vfcmp t .lt m md)
    | 3 => f.bin (.vfcmp t .le m md)
    | 4 => f.bin (.vfcmp t .gt m md)
    | 5 => f.bin (.vfcmp t .ge m md)
    | 6 => f.bin (.vfcmp t .un m md)
    | 7 => f.bin (.vfcmp t .or m md)
    | _ => .error .badModifier
  | 0x089 => f.plain (f.bin (.vfdiv t m d))
  | 0x08A => f.plain (f.un (.vfsqrt t m d))
  | 0x08B => f.plain (f.un (.vfrcp t m d))
  | 0x08C => f.plain (f.un (.vfrsq t m d))
  | 0x08D => f.plain (f.un (.vfexp2 t m d))
  | 0x08E => f.plain (f.un (.vflog2 t m d))
  | 0x08F => f.plain (f.un (.vfsinp t m d))
  | 0x090 => f.plain (f.un (.vfcosp t m d))
  | 0x091 => f.plain (f.un (.vftanh t m d))
  | 0x092 =>
    if f.mod.getLsbD 4 then .error .badModifier
    else (Rnd.ofCode (f.mod.extractLsb' 0 3)).bind fun r => f.un (.vfrnd t r (f.mod.getLsbD 3) m d)
  | _ => .error .unassigned

/-- A conversion uses EXT: IMM and AUX are zero, and the EXT bits above its own are reserved (R137, R151-R155). -/
def LaneFields.conv (f : LaneFields) (top : Nat) (k : Except DecErr Instr) : Except DecErr Instr :=
  if f.imm ∨ f.aux ≠ 0 ∨ f.ext.toNat / 2 ^ top ≠ 0 then .error .reservedField else k

/-- RND and SAT of a conversion (R151). -/
def LaneFields.rndSat (f : LaneFields) (k : Rnd → Bool → Except DecErr Instr) : Except DecErr Instr :=
  if f.mod.getLsbD 4 then .error .badModifier
  else (Rnd.ofCode (f.mod.extractLsb' 0 3)).bind fun r => k r (f.mod.getLsbD 3)

/-- Conversion and packing, 0x100-0x104 (R151-R155). -/
def decodeLaneCvt (f : LaneFields) : Except DecErr Instr :=
  let t := f.tyOf
  let m := f.msel
  let d := f.vd
  let dty := Ty.ofCode (f.ext.extractLsb' 0 4)
  match f.opc.toNat with
  | 0x100 => f.conv 8 <| if f.sb ≠ 0 ∨ f.sc ≠ 0 then .error .reservedField else
    f.rndSat fun r s => (Src.ofField f.sa).bind fun a =>
      .ok (.vcvt t dty r s (f.ext.extractLsb' 4 2) (f.ext.extractLsb' 6 2) m d a)
  | 0x101 => f.conv 5 <| if f.sc ≠ 0 then .error .reservedField else
    f.rndSat fun r s => (Src.ofField f.sa).bind fun a => (Src.ofField f.sb).bind fun b =>
      .ok (.vpack t dty r s (f.ext.getLsbD 4) m d a b)
  | 0x102 => f.conv 5 <| if f.sb ≠ 0 ∨ f.sc ≠ 0 then .error .reservedField else
    f.rndSat fun r s => (Src.ofField f.sa).bind fun a => .ok (.vunpk t dty r s (f.ext.getLsbD 4) m d a)
  | 0x103 => f.conv 7 <| if t ≠ .q4n then .error .badOperand else
    f.plain ((Src.ofField f.sa).bind fun a => (Src.ofField f.sb).bind fun b => (Src.ofField f.sc).bind fun c =>
      .ok (.vq4n dty (f.ext.extractLsb' 4 3) m d a b c))
  | 0x104 => f.conv 9 <| if t ≠ .t3p then .error .badOperand else if f.sc ≠ 0 then .error .reservedField else
    f.sat fun tr => (Src.ofField f.sa).bind fun a => (Src.ofField f.sb).bind fun b =>
      .ok (.vt3p dty (f.ext.extractLsb' 4 5) tr m d a b)
  | _ => .error .unassigned

/-- The operation codes of R159 and R170. -/
def RedOp.code : RedOp → BitVec 4
  | .add => 0 | .min => 1 | .max => 2 | .and => 3 | .or => 4 | .xor => 5 | .fadd => 6 | .fmin => 7 | .fmax => 8
def RedOp.ofCode (c : BitVec 4) : Except DecErr RedOp :=
  match c.toNat with
  | 0 => .ok .add | 1 => .ok .min | 2 => .ok .max | 3 => .ok .and | 4 => .ok .or | 5 => .ok .xor
  | 6 => .ok .fadd | 7 => .ok .fmin | 8 => .ok .fmax
  | _ => .error .badModifier
def AtomOp.code : AtomOp → BitVec 4
  | .add => 0 | .min => 1 | .max => 2 | .and => 3 | .or => 4 | .xor => 5 | .xch => 6 | .cas => 7 | .fadd => 8
def AtomOp.ofCode (c : BitVec 4) : Except DecErr AtomOp :=
  match c.toNat with
  | 0 => .ok .add | 1 => .ok .min | 2 => .ok .max | 3 => .ok .and | 4 => .ok .or | 5 => .ok .xor
  | 6 => .ok .xch | 7 => .ok .cas | 8 => .ok .fadd
  | _ => .error .badModifier

/-- Cross-lane instructions, 0x140-0x145 (R156-R161). -/
def decodeLaneX (f : LaneFields) : Except DecErr Instr :=
  let t := f.tyOf
  let m := f.msel
  let d := f.vd
  match f.opc.toNat with
  | 0x140 =>
    match f.mod.toNat with
    | 0 => f.bin (.vshuf t .idx m d)
    | 1 => f.bin (.vshuf t .up m d)
    | 2 => f.bin (.vshuf t .down m d)
    | 3 => f.bin (.vshuf t .xor m d)
    | _ => .error .badModifier
  | 0x141 => f.plain (f.bin (.vbcst t m d))
  | 0x142 =>
    if f.mod.getLsbD 4 then .error .badModifier
    else (RedOp.ofCode (f.mod.extractLsb' 0 4)).bind fun o => f.un (.vreds t o m d)
  | 0x143 => (RedOp.ofCode (f.mod.extractLsb' 0 4)).bind fun o => f.un (.vscan t o (f.mod.getLsbD 4) m d)
  | 0x144 => f.maskDst fun md =>
    match f.mod.toNat with
    | 0 => f.un (.vvote t .ballot m md)
    | 1 => f.un (.vvote t .any m md)
    | 2 => f.un (.vvote t .all m md)
    | _ => .error .badModifier
  | 0x145 => f.plain (f.un (.vmatch t m d))
  | _ => .error .unassigned

/-- AUX of a memory instruction, without OPX (R65). -/
def LaneFields.ctl (f : LaneFields) : LCtl where
  fb := f.aux.getLsbD 9
  scope := f.aux.extractLsb' 6 3
  order := Ord.ofCode (f.aux.extractLsb' 4 2)
  width := f.aux.extractLsb' 2 2
def LaneFields.opx (f : LaneFields) : BitVec 2 := f.aux.extractLsb' 0 2

/-- The address fields of R162: IMM must be 0, SB is reserved unless IDX is 1. -/
def LaneFields.addr (f : LaneFields) : Except DecErr LAddr :=
  if f.imm then .error .reservedField
  else
    (Src.ofField f.sa).bind fun base =>
      let mk (x : Option Src) : LAddr :=
        { base, index := x, scale := f.ext.extractLsb' 19 2, sidx := f.ext.getLsbD 17, off := f.ext.extractLsb' 0 17 }
      if f.ext.getLsbD 18 then (Src.ofField f.sb).bind fun b => .ok (mk (some b))
      else if f.sb = 0 then .ok (mk none) else .error .reservedField

/-- Memory, reference and tensor-element instructions, 0x180-0x1FF (R162-R174, R181, R222, R229). -/
def decodeLaneMem (f : LaneFields) : Except DecErr Instr :=
  let t := f.tyOf
  let m := f.msel
  let d := f.vd
  match f.opc.toNat with
  | 0x180 => if f.opx ≠ 0 ∨ f.sc ≠ 0 then .error .reservedField else
    f.plain (f.addr.bind fun a => .ok (.vld t m d a f.ctl))
  | 0x181 => if f.opx ≠ 0 ∨ f.sc ≠ 0 then .error .reservedField else
    f.plain (f.addr.bind fun a => .ok (.vst t m d a f.ctl))
  | 0x182 => if f.opx.getLsbD 1 then .error .reservedField else
    f.plain (f.addr.bind fun a =>
      if f.opx.getLsbD 0 then (Src.ofField f.sc).bind fun c => .ok (.vlds t m d a f.ctl (some c))
      else if f.sc = 0 then .ok (.vlds t m d a f.ctl none) else .error .reservedField)
  | 0x183 => if f.opx ≠ 0 ∨ f.sc ≠ 0 then .error .reservedField else
    f.plain (f.addr.bind fun a => .ok (.vsts t m d a f.ctl))
  | 0x184 => if f.opx.getLsbD 1 then .error .reservedField else
    (AtomOp.ofCode (f.mod.extractLsb' 0 4)).bind fun o => f.addr.bind fun a => (Src.ofField f.sc).bind fun c =>
      .ok (.vatom t o (f.mod.getLsbD 4) (f.opx.getLsbD 0) m d a c f.ctl)
  | 0x185 => if f.opx ≠ 0 ∨ f.sc ≠ 0 ∨ f.vd ≠ 0 then .error .reservedField
    else if t ≠ .b32 then .error .badOperand
    else
      match f.mod.toNat with
      | 0 => f.addr.bind fun a => .ok (.vprf false m a f.ctl)
      | 1 => f.addr.bind fun a => .ok (.vprf true m a f.ctl)
      | _ => .error .badModifier
  | 0x186 => if f.aux.extractLsb' 0 9 ≠ 0#9 ∨ f.sb ≠ 0 then .error .reservedField
    else if t ≠ .n64 then .error .badOperand
    else f.sat fun long =>
      if f.imm then (if f.sa = 0 then .ok (.vnew long (f.aux.getLsbD 9) m d (.imm f.low)) else .error .reservedField)
      else if f.low = 0 then (Src.ofField f.sa).bind fun a => .ok (.vnew long (f.aux.getLsbD 9) m d a)
      else .error .reservedField
  | 0x187 => if f.opx ≠ 0 ∨ f.sc ≠ 0 then .error .reservedField else if t ≠ .n64 then .error .badOperand else
    f.plain (f.addr.bind fun a => .ok (.vstref m d a f.ctl))
  | 0x188 => if f.opx ≠ 0 ∨ f.sc ≠ 0 ∨ f.mod.getLsbD 4 then .error .reservedField
    else if t ≠ .n64 then .error .badOperand
    else f.addr.bind fun a => .ok (.vldref (f.mod.extractLsb' 0 4) m d a f.ctl)
  | 0x1E0 => if f.imm ∨ f.opx ≠ 0 ∨ f.sc ≠ 0 ∨ f.ext.extractLsb' 8 13 ≠ 0#13 then .error .reservedField else
    f.plain ((Src.ofField f.sa).bind fun a => (Src.ofField f.sb).bind fun b =>
      .ok (.vtld t (f.ext.extractLsb' 0 8) m d a b f.ctl))
  | 0x1E1 => if f.imm ∨ f.opx ≠ 0 ∨ f.sc ≠ 0 ∨ f.ext.extractLsb' 8 13 ≠ 0#13 then .error .reservedField else
    f.sat fun s => (Src.ofField f.sa).bind fun a => (Src.ofField f.sb).bind fun b =>
      .ok (.vtst t s (f.ext.extractLsb' 0 8) m d a b f.ctl)
  | _ => .error .unassigned

/-- A lane word (R67). OPC 0x3FF, the clause header, is no instruction inside a clause (R66). -/
def decodeLane (w : LaneWord) : Except DecErr Instr :=
  let f := LaneFields.ofWord w
  if f.opc.toNat < 0x080 then decodeLaneInt f
  else if f.opc.toNat < 0x100 then decodeLaneFp f
  else if f.opc.toNat < 0x140 then decodeLaneCvt f
  else if f.opc.toNat < 0x180 then decodeLaneX f
  else if f.opc.toNat < 0x200 then decodeLaneMem f
  else .error .unassigned

/-- A clause header's fields (R66): LEN as 1-64, WAIT, and the two flags. -/
structure Header where
  len  : Nat
  wait : BitVec 12
  fa   : Option (BitVec 4)
  fb   : Option (BitVec 4)
  deriving DecidableEq, Repr

/-- The checks of R66, and of R118 on a WAIT bit that names the clause's own flag. -/
def decodeHeader (w : LaneWord) : Option Header :=
  let fa := w.extractLsb' 63 4
  let fb := w.extractLsb' 58 4
  let av := w.getLsbD 67
  let bv := w.getLsbD 62
  let wait := w.extractLsb' 68 12
  let len := (w.extractLsb' 80 6).toNat
  if w.extractLsb' 86 10 = 0x3FF#10 ∧ w.extractLsb' 0 58 = 0#58 ∧ fa.toNat < 12 ∧ fb.toNat < 12
      ∧ (av ∨ fa = 0) ∧ (bv ∨ fb = 0) ∧ ¬(av ∧ bv ∧ fa = fb)
      ∧ ¬(av ∧ wait.getLsbD fa.toNat) ∧ ¬(bv ∧ wait.getLsbD fb.toNat) then
    some { len := if len = 0 then 64 else len, wait, fa := if av then some fa else none, fb := if bv then some fb else none }
  else none

/-! ## Matrix words -/

/-- The fields of a matrix word (R68). -/
structure MFields where
  opc : BitVec 8
  da  : BitVec 4
  db  : BitVec 4
  tn  : BitVec 8
  ka  : BitVec 4
  kb  : BitVec 4
  fl  : BitVec 8
  imm : BitVec 24
  deriving DecidableEq, Repr

def MFields.ofWord (w : DWord) : MFields where
  opc := w.extractLsb' 56 8
  da := w.extractLsb' 52 4
  db := w.extractLsb' 48 4
  tn := w.extractLsb' 40 8
  ka := w.extractLsb' 36 4
  kb := w.extractLsb' 32 4
  fl := w.extractLsb' 24 8
  imm := w.extractLsb' 0 24
def MFields.word (f : MFields) : DWord := f.opc ++ f.da ++ f.db ++ f.tn ++ f.ka ++ f.kb ++ f.fl ++ f.imm

/-- The tile operand of R185. -/
def MFields.tile (f : MFields) : Tile where
  tn := f.tn
  ka := f.ka
  kb := f.kb
  off0 := f.imm.extractLsb' 12 12
  off1 := f.imm.extractLsb' 0 12

/-- A matrix word (R69, R185-R196). -/
def decodeMatrix (w : DWord) : Except DecErr Instr :=
  let f := MFields.ofWord w
  let only (c : Bool) (i : Instr) : Except DecErr Instr := if c then .ok i else .error .reservedField
  let noTile := f.tn == 0 && f.ka == 0 && f.kb == 0
  match f.opc.toNat with
  | 0x00 => if f.db ≠ 0 ∨ f.fl ≠ 0 then .error .reservedField else .ok (.mlda f.da f.tile)
  | 0x01 => if f.da ≠ 0 ∨ f.db ≠ 0 ∨ f.fl ≠ 0 then .error .reservedField else .ok (.mldb f.tile)
  | 0x02 => if f.db ≠ 0 ∨ f.fl ≠ 0 then .error .reservedField else .ok (.mst f.da f.tile)
  | 0x03 => if f.db ≠ 0 ∨ f.fl ≠ 0 then .error .reservedField else .ok (.mldc f.da f.tile)
  | 0x04 => only (noTile && f.db == 0 && f.fl == 0 && f.imm == 0) (.mzero f.da)
  | 0x10 => only (f.fl.extractLsb' 1 7 == 0#7) (.mma f.da f.db (f.fl.getLsbD 0) f.tile)
  | 0x11 => only (f.fl.extractLsb' 1 7 == 0#7) (.mmaz f.da f.db (f.fl.getLsbD 0) f.tile)
  | 0x20 =>
    if f.fl == 0 then only (noTile && f.db == 0) (.mkset f.da f.imm)
    else only (noTile && f.db == 0 && f.fl == 1 && f.imm.extractLsb' 8 16 == 0#16) (.mksetH f.da (f.imm.extractLsb' 0 8))
  | 0x21 =>
    if f.fl == 0 then only (noTile && f.db == 0) (.mkadd f.da f.imm)
    else only (noTile && f.fl == 1) (.mkaddReg f.da f.db f.imm)
  | 0x22 => only (noTile && f.fl == 0) (.mloop f.da f.db (f.imm.extractLsb' 12 12) (f.imm.extractLsb' 0 12))
  | 0x23 => only (noTile && f.da == 0 && f.db == 0 && f.fl == 0 && f.imm == 0) .mend
  | 0x30 => only (noTile && f.db == 0 && f.fl == 0 && f.imm == 0) (.mbara f.da)
  | 0x31 => only (noTile && f.db == 0 && f.fl == 0 && f.imm == 0) (.mbarw f.da)
  | 0x32 => only (f.da == 0 && f.db == 0 && f.fl.extractLsb' 1 7 == 0#7 && f.imm.extractLsb' 21 3 == 0#3)
      (.mrel (f.fl.getLsbD 0) f.tn f.ka f.kb (f.imm.extractLsb' 16 5) (f.imm.extractLsb' 0 16))
  | 0x33 => only (noTile && f.da == 0 && f.db == 0 && f.fl == 0 && f.imm == 0) .mrdv
  | 0x34 => only (noTile && f.da == 0 && f.db == 0 && f.fl == 0 && f.imm == 0) .mnop
  | 0x35 => only (noTile && f.da == 0 && f.db == 0 && f.fl == 0 && f.imm.extractLsb' 16 8 == 0#8) (.mtrap (f.imm.extractLsb' 0 16))
  | _ => .error .unassigned

/-! ## The encoder -/

/-- The word of a scalar instruction (R55, R58 and each entry). -/
def encodeScalar : Instr → Option Word
  | .sadd d a b => some (0x0#8 ++ d ++ a ++ b)
  | .ssub d a b => some (0x1#8 ++ d ++ a ++ b)
  | .smul d a b => some (0x2#8 ++ d ++ a ++ b)
  | .smulhi d a b => some (0x3#8 ++ d ++ a ++ b)
  | .smulhn d a b => some (0x4#8 ++ d ++ a ++ b)
  | .smulw d a b => some (0x5#8 ++ d ++ a ++ b)
  | .sdivi d a b => some (0x6#8 ++ d ++ a ++ b)
  | .sdivn d a b => some (0x7#8 ++ d ++ a ++ b)
  | .sremi d a b => some (0x8#8 ++ d ++ a ++ b)
  | .sremn d a b => some (0x9#8 ++ d ++ a ++ b)
  | .sand d a b => some (0xA#8 ++ d ++ a ++ b)
  | .sor d a b => some (0xB#8 ++ d ++ a ++ b)
  | .sxor d a b => some (0xC#8 ++ d ++ a ++ b)
  | .sandn d a b => some (0xD#8 ++ d ++ a ++ b)
  | .sshl d a b => some (0xE#8 ++ d ++ a ++ b)
  | .sshr d a b => some (0xF#8 ++ d ++ a ++ b)
  | .ssra d a b => some (0x10#8 ++ d ++ a ++ b)
  | .srot d a b => some (0x11#8 ++ d ++ a ++ b)
  | .smini d a b => some (0x12#8 ++ d ++ a ++ b)
  | .sminn d a b => some (0x13#8 ++ d ++ a ++ b)
  | .smaxi d a b => some (0x14#8 ++ d ++ a ++ b)
  | .smaxn d a b => some (0x15#8 ++ d ++ a ++ b)
  | .sclz d a => some (0x16#8 ++ d ++ a ++ 0x0#8)
  | .spopc d a => some (0x17#8 ++ d ++ a ++ 0x0#8)
  | .sbrev d a => some (0x18#8 ++ d ++ a ++ 0x0#8)
  | .sceq d a b => some (0x19#8 ++ d ++ a ++ b)
  | .scne d a b => some (0x1A#8 ++ d ++ a ++ b)
  | .sclti d a b => some (0x1B#8 ++ d ++ a ++ b)
  | .scltn d a b => some (0x1C#8 ++ d ++ a ++ b)
  | .sclei d a b => some (0x1D#8 ++ d ++ a ++ b)
  | .sclen d a b => some (0x1E#8 ++ d ++ a ++ b)
  | .saddp d a b => some (0x1F#8 ++ d ++ a ++ b)
  | .ssubp d a b => some (0x20#8 ++ d ++ a ++ b)
  | .sshlp d a b => some (0x21#8 ++ d ++ a ++ b)
  | .sshrp d a b => some (0x22#8 ++ d ++ a ++ b)
  | .smovi d i => some (0x40#8 ++ d ++ i)
  | .smovhi d i => some (0x41#8 ++ d ++ i)
  | .saddi d i => some (0x42#8 ++ d ++ i)
  | .sandi d i => some (0x43#8 ++ d ++ i)
  | .sori d i => some (0x44#8 ++ d ++ i)
  | .sxori d i => some (0x45#8 ++ d ++ i)
  | .sshli d i => some (0x46#8 ++ d ++ 0x0#11 ++ i)
  | .sshri d i => some (0x47#8 ++ d ++ 0x0#11 ++ i)
  | .ssrai d i => some (0x48#8 ++ d ++ 0x0#11 ++ i)
  | .sceqi d i => some (0x49#8 ++ d ++ i)
  | .scltis d i => some (0x4A#8 ++ d ++ i)
  | .scltin d i => some (0x4B#8 ++ d ++ i)
  | .smov d a => some (0x58#8 ++ d ++ a ++ 0x0#8)
  | .smovx d far => some (0x59#8 ++ d ++ 0x0#6 ++ far)
  | .smovxW d far => some (0x59#8 ++ d ++ 0x20#6 ++ far)
  | .sget d sel => some (0x5A#8 ++ d ++ 0x0#8 ++ sel)
  | .sset d sel => some (0x5B#8 ++ d ++ 0x0#8 ++ sel)
  | .brz c disp => some (0x60#8 ++ c ++ disp)
  | .brnz c disp => some (0x61#8 ++ c ++ disp)
  | .brany c disp => some (0x620#12 ++ c ++ disp)
  | .brall c disp => some (0x630#12 ++ c ++ disp)
  | .brnone c disp => some (0x640#12 ++ c ++ disp)
  | .jmp disp => some (0x6500#16 ++ disp)
  | .call c disp => some (0x66#8 ++ c ++ disp)
  | .ret a => some (0x6700#16 ++ a ++ 0x0#8)
  | .jmpr a => some (0x6800#16 ++ a ++ 0x0#8)
  | .exit => some (0x69000000#32)
  | .nop => some (0x6A000000#32)
  | .sleep i => some (0x6B00#16 ++ i)
  | .mfrom d a => some (0x700#12 ++ d ++ a ++ 0x0#8)
  | .mto d a => some (0x71#8 ++ d ++ 0x0#4 ++ a ++ 0x0#8)
  | .mand d a b => some (0x720#12 ++ d ++ 0x0#4 ++ a ++ 0x0#4 ++ b)
  | .mor d a b => some (0x730#12 ++ d ++ 0x0#4 ++ a ++ 0x0#4 ++ b)
  | .mxor d a b => some (0x740#12 ++ d ++ 0x0#4 ++ a ++ 0x0#4 ++ b)
  | .mandn d a b => some (0x750#12 ++ d ++ 0x0#4 ++ a ++ 0x0#4 ++ b)
  | .mnot d a => some (0x760#12 ++ d ++ 0x0#4 ++ a ++ 0x0#8)
  | .mpopc d a => some (0x77#8 ++ d ++ 0x0#4 ++ a ++ 0x0#8)
  | .mfirst d a => some (0x78#8 ++ d ++ 0x0#4 ++ a ++ 0x0#8)
  | .exset c => some (0x79000#20 ++ c ++ 0x0#8)
  | .exsetAll => some (0x79000001#32)
  | .exsave d c => some (0x7A0#12 ++ d ++ 0x0#4 ++ c ++ 0x0#8)
  | .lrun x => some (0x7B00#16 ++ x)
  | .fwait f => some (0x7C000#20 ++ f)
  | .ftest d f => some (0x7D#8 ++ d ++ 0x0#4 ++ f)
  | .split c a => some (0x800#12 ++ c ++ a ++ 0x0#8)
  | .jset k c => some (0x1020#13 ++ k ++ 0x0#4 ++ c ++ 0x0#8)
  | .join k => some (0x1040#13 ++ k ++ 0x0#16)
  | .jsave k a o => some (0x1060#13 ++ k ++ a ++ o)
  | .jload k a o => some (0x1080#13 ++ k ++ a ++ o)
  | .fragq d sel => some (0x85#8 ++ d ++ 0x0#6 ++ sel ++ 0x0#8)
  | .bara n count => some (0x220000#22 ++ count ++ n)
  | .barw n => some (0x8900000#28 ++ n)
  | .baraw n count => some (0x228000#22 ++ count ++ n)
  | .cbara n count => some (0x116000#21 ++ count ++ n)
  | .cbarw n => some (0x23000000#30 ++ n)
  | .fence scope => some (0x4680000#27 ++ scope)
  | .rdv d => some (0x8E#8 ++ d ++ 0x0#16)
  | .scpset n a o => some (0x8F#8 ++ n ++ a ++ o)
  | .sld32 d a o => some (0x90#8 ++ d ++ a ++ o)
  | .sld64 d a o => some (0x91#8 ++ d ++ a ++ o)
  | .sst32 d a o => some (0x92#8 ++ d ++ a ++ o)
  | .sst64 d a o => some (0x93#8 ++ d ++ a ++ o)
  | .saadd d a o => some (0x94#8 ++ d ++ a ++ o)
  | .samin d a o => some (0x95#8 ++ d ++ a ++ o)
  | .samax d a o => some (0x96#8 ++ d ++ a ++ o)
  | .saand d a o => some (0x97#8 ++ d ++ a ++ o)
  | .saor d a o => some (0x98#8 ++ d ++ a ++ o)
  | .saxor d a o => some (0x99#8 ++ d ++ a ++ o)
  | .saxch d a o => some (0x9A#8 ++ d ++ a ++ o)
  | .sacas d a o => some (0x9B#8 ++ d ++ a ++ o)
  | .ord order scope => some (0x13E0000#25 ++ order.code ++ scope)
  | .cpy d a b => some (0xA0#8 ++ d ++ a ++ b)
  | .cseal k => some (0x1420#13 ++ k ++ 0x0#16)
  | .cwait k => some (0x1440#13 ++ k ++ 0x0#16)
  | .cpoll d k => some (0xA3#8 ++ d ++ 0x0#5 ++ k ++ 0x0#8)
  | .smap d a b => some (0xA4#8 ++ d ++ a ++ b)
  | .sunmap d => some (0xA5#8 ++ d ++ 0x0#16)
  | .rget d a b => some (0xA6#8 ++ d ++ a ++ b)
  | .rput d a b => some (0xA7#8 ++ d ++ a ++ b)
  | .tdset t a o => some (0xA8#8 ++ t ++ a ++ o)
  | .tdget t a o => some (0xA9#8 ++ t ++ a ++ o)
  | .mfork d a o => some (0xAA#8 ++ d ++ a ++ o)
  | .new d a => some (0xB0#8 ++ d ++ a ++ 0x0#8)
  | .newLong d a => some (0xB0#8 ++ d ++ a ++ 0x1#8)
  | .stref d a o => some (0xB1#8 ++ d ++ a ++ o)
  | .ldref d a t o => some (0xB2#8 ++ d ++ a ++ t ++ o)
  | .publ scope a => some (0x598#11 ++ scope ++ a ++ 0x0#8)
  | .ispub d a => some (0xB4#8 ++ d ++ a ++ 0x0#8)
  | .qgetUse d dom => some (0xB5#8 ++ d ++ 0x0#8 ++ dom)
  | .qgetLim d dom => some (0xB5#8 ++ d ++ 0x2#8 ++ dom)
  | .ladr n a => some (0xC00#12 ++ n ++ a ++ 0x0#8)
  | .lfeed n a b => some (0xC10#12 ++ n ++ a ++ b)
  | .lclose n => some (0xC20#12 ++ n ++ 0x0#16)
  | .esc c v => some (0xC30#12 ++ c ++ v ++ 0x0#8)
  | .lret c v => some (0xC40#12 ++ c ++ v ++ 0x0#8)
  | .lwait d n b => some (0xC5#8 ++ d ++ 0x0#4 ++ n ++ b)
  | .mbsend d a mb => some (0xC6#8 ++ d ++ a ++ 0x0#2 ++ mb)
  | .mbsendTrap d a mb => some (0xC6#8 ++ d ++ a ++ 0x2#2 ++ mb)
  | .mbrecv d mb => some (0xC7#8 ++ d ++ 0x0#10 ++ mb)
  | .mbpoll d mb => some (0xC8#8 ++ d ++ 0x0#10 ++ mb)
  | .launch d a => some (0xC9#8 ++ d ++ a ++ 0x0#8)
  | .svc v code => some (0xD0#8 ++ v ++ code)
  | .trap code => some (0xD100#16 ++ code)
  | .brk code => some (0xD200#16 ++ code)
  | .tret mode => some (0xD3#8 ++ mode ++ 0x0#16)
  | .wrd d a => some (0xD4#8 ++ d ++ a ++ 0x0#8)
  | .wwr a b => some (0xD500#16 ++ a ++ b)
  | .wsplR d a => some (0xD6#8 ++ d ++ a ++ 0x0#8)
  | .wsplW d a => some (0xD6#8 ++ d ++ a ++ 0x1#8)
  | .sysrd d sel => some (0xD7#8 ++ d ++ 0x0#8 ++ sel)
  | .syswr d sel => some (0xD8#8 ++ d ++ 0x0#8 ++ sel)
  | _ => none
/-- IMM and the low word of an instruction whose last source is x (R137). -/
def Src.immBit : Src → Bool
  | .imm _ => true
  | _ => false
def Src.immLow : Src → BitVec 32
  | .imm w => w
  | _ => 0

/-- Lane words with one, two and three sources (R63, R139). -/
def encUn (opc : BitVec 10) (t : Ty) (m : BitVec 4) (mod : BitVec 5) (d : BitVec 8) (a : Src) : LaneWord :=
  LaneFields.word { opc, ty := t.code, imm := a.immBit, msel := m, mod, vd := d, sa := a.field, sb := 0, aux := 0, low := a.immLow }
def encBin (opc : BitVec 10) (t : Ty) (m : BitVec 4) (mod : BitVec 5) (d : BitVec 8) (a b : Src) : LaneWord :=
  LaneFields.word { opc, ty := t.code, imm := b.immBit, msel := m, mod, vd := d, sa := a.field, sb := b.field, aux := 0, low := b.immLow }
def encTer (opc : BitVec 10) (t : Ty) (m : BitVec 4) (mod : BitVec 5) (d : BitVec 8) (a b c : Src) : LaneWord :=
  LaneFields.word { opc, ty := t.code, imm := c.immBit, msel := m, mod, vd := d, sa := a.field, sb := b.field, aux := 0,
                    low := if c.immBit then c.immLow else c.field ++ 0#21 }

/-- MOD with bit 0 only, and with a rounding and SAT. -/
def satMod (s : Bool) : BitVec 5 := 0#4 ++ BitVec.ofBool s
def rndMod (r : Rnd) (s : Bool) : BitVec 5 := 0#1 ++ BitVec.ofBool s ++ r.code

/-- The condition codes of R143 and R148, the shuffle and vote modes of R157 and R161. -/
def Cond.code : Cond → BitVec 3
  | .eq => 0 | .ne => 1 | .lt => 2 | .le => 3 | .gt => 4 | .ge => 5
def FCond.code : FCond → BitVec 3
  | .eq => 0 | .ne => 1 | .lt => 2 | .le => 3 | .gt => 4 | .ge => 5 | .un => 6 | .or => 7
def ShufMode.code : ShufMode → BitVec 2
  | .idx => 0 | .up => 1 | .down => 2 | .xor => 3
def VoteMode.code : VoteMode → BitVec 2
  | .ballot => 0 | .any => 1 | .all => 2

/-- A memory word (R162, R65). -/
def encMem (opc : BitVec 10) (t : Ty) (m : BitVec 4) (mod : BitVec 5) (d : BitVec 8) (a : LAddr) (c : LCtl)
    (opx : BitVec 2) (sc : BitVec 11) : LaneWord :=
  LaneFields.word
    { opc, ty := t.code, imm := false, msel := m, mod, vd := d, sa := a.base.field,
      sb := (match a.index with | none => 0 | some x => x.field),
      aux := BitVec.ofBool c.fb ++ c.scope ++ c.order.code ++ c.width ++ opx,
      low := sc ++ a.scale ++ BitVec.ofBool a.index.isSome ++ BitVec.ofBool a.sidx ++ a.off }

/-- The word of a lane instruction (R63, R67). -/
def encodeLane : Instr → Option LaneWord
  | .vadd t s m d a b => some (encBin 0x000 t m (satMod s) d a b)
  | .vsub t s m d a b => some (encBin 0x001 t m (satMod s) d a b)
  | .vmul t s m d a b => some (encBin 0x002 t m (satMod s) d a b)
  | .vmulhi t m d a b => some (encBin 0x003 t m 0 d a b)
  | .vmad t s m d a b c => some (encTer 0x004 t m (satMod s) d a b c)
  | .vmin t m d a b => some (encBin 0x005 t m 0 d a b)
  | .vmax t m d a b => some (encBin 0x006 t m 0 d a b)
  | .vabs t s m d a => some (encUn 0x007 t m (satMod s) d a)
  | .vneg t s m d a => some (encUn 0x008 t m (satMod s) d a)
  | .vand t m d a b => some (encBin 0x009 t m 0 d a b)
  | .vor t m d a b => some (encBin 0x00A t m 0 d a b)
  | .vxor t m d a b => some (encBin 0x00B t m 0 d a b)
  | .vandn t m d a b => some (encBin 0x00C t m 0 d a b)
  | .vnot t m d a => some (encUn 0x00D t m 0 d a)
  | .vshl t m d a b => some (encBin 0x00E t m 0 d a b)
  | .vshr t m d a b => some (encBin 0x00F t m 0 d a b)
  | .vsra t m d a b => some (encBin 0x010 t m 0 d a b)
  | .vrot t m d a b => some (encBin 0x011 t m 0 d a b)
  | .vclz t m d a => some (encUn 0x012 t m 0 d a)
  | .vpopc t m d a => some (encUn 0x013 t m 0 d a)
  | .vbfx t m d a b c => some (encTer 0x014 t m 0 d a b c)
  | .vbfi t m d a b c => some (encTer 0x015 t m 0 d a b c)
  | .vcmp t k m d a b => some (encBin 0x016 t m (0#2 ++ k.code) (0#4 ++ d) a b)
  | .vsel t c m d a b => some (encBin 0x017 t m (0#1 ++ c) d a b)
  | .vmov t m d a => some (encUn 0x018 t m 0 d a)
  | .viota t m d a b => some (encBin 0x019 t m 0 d a b)
  | .vfadd t m d a b => some (encBin 0x080 t m 0 d a b)
  | .vfsub t m d a b => some (encBin 0x081 t m 0 d a b)
  | .vfmul t m d a b => some (encBin 0x082 t m 0 d a b)
  | .vfma t m d a b c => some (encTer 0x083 t m 0 d a b c)
  | .vfmin t m d a b => some (encBin 0x084 t m 0 d a b)
  | .vfmax t m d a b => some (encBin 0x085 t m 0 d a b)
  | .vfabs t m d a => some (encUn 0x086 t m 0 d a)
  | .vfneg t m d a => some (encUn 0x087 t m 0 d a)
  | .vfcmp t k m d a b => some (encBin 0x088 t m (0#2 ++ k.code) (0#4 ++ d) a b)
  | .vfdiv t m d a b => some (encBin 0x089 t m 0 d a b)
  | .vfsqrt t m d a => some (encUn 0x08A t m 0 d a)
  | .vfrcp t m d a => some (encUn 0x08B t m 0 d a)
  | .vfrsq t m d a => some (encUn 0x08C t m 0 d a)
  | .vfexp2 t m d a => some (encUn 0x08D t m 0 d a)
  | .vflog2 t m d a => some (encUn 0x08E t m 0 d a)
  | .vfsinp t m d a => some (encUn 0x08F t m 0 d a)
  | .vfcosp t m d a => some (encUn 0x090 t m 0 d a)
  | .vftanh t m d a => some (encUn 0x091 t m 0 d a)
  | .vfrnd t r e m d a => some (encUn 0x092 t m (rndMod r e) d a)
  | .vcvt t dt r s sel del m d a => some (LaneFields.word
      { opc := 0x100, ty := t.code, imm := false, msel := m, mod := rndMod r s, vd := d, sa := a.field, sb := 0, aux := 0,
        low := 0#24 ++ del ++ sel ++ dt.code })
  | .vpack t st r s half m d a b => some (LaneFields.word
      { opc := 0x101, ty := t.code, imm := false, msel := m, mod := rndMod r s, vd := d, sa := a.field, sb := b.field, aux := 0,
        low := 0#27 ++ BitVec.ofBool half ++ st.code })
  | .vunpk t dt r s half m d a => some (LaneFields.word
      { opc := 0x102, ty := t.code, imm := false, msel := m, mod := rndMod r s, vd := d, sa := a.field, sb := 0, aux := 0,
        low := 0#27 ++ BitVec.ofBool half ++ dt.code })
  | .vq4n dt idx m d a b c => some (LaneFields.word
      { opc := 0x103, ty := Ty.q4n.code, imm := false, msel := m, mod := 0, vd := d, sa := a.field, sb := b.field, aux := 0,
        low := c.field ++ 0#14 ++ idx ++ dt.code })
  | .vt3p dt idx tr m d a b => some (LaneFields.word
      { opc := 0x104, ty := Ty.t3p.code, imm := false, msel := m, mod := satMod tr, vd := d, sa := a.field, sb := b.field, aux := 0,
        low := 0#23 ++ idx ++ dt.code })
  | .vshuf t k m d a b => some (encBin 0x140 t m (0#3 ++ k.code) d a b)
  | .vbcst t m d a b => some (encBin 0x141 t m 0 d a b)
  | .vreds t o m d a => some (encUn 0x142 t m (0#1 ++ o.code) d a)
  | .vscan t o x m d a => some (encUn 0x143 t m (BitVec.ofBool x ++ o.code) d a)
  | .vvote t k m d a => some (encUn 0x144 t m (0#3 ++ k.code) (0#4 ++ d) a)
  | .vmatch t m d a => some (encUn 0x145 t m 0 d a)
  | .vld t m d a c => some (encMem 0x180 t m 0 d a c 0 0)
  | .vst t m d a c => some (encMem 0x181 t m 0 d a c 0 0)
  | .vlds t m d a c p => some (encMem 0x182 t m 0 d a c (if p.isSome then 1 else 0) (match p with | none => 0 | some x => x.field))
  | .vsts t m d a c => some (encMem 0x183 t m 0 d a c 0 0)
  | .vatom t o nr st m d a x c => some (encMem 0x184 t m (BitVec.ofBool nr ++ o.code) d a c (0#1 ++ BitVec.ofBool st) x.field)
  | .vprf l2 m a c => some (encMem 0x185 .b32 m (satMod l2) 0 a c 0 0)
  | .vnew long fb m d a => some (LaneFields.word
      { opc := 0x186, ty := Ty.n64.code, imm := a.immBit, msel := m, mod := satMod long, vd := d, sa := a.field, sb := 0,
        aux := BitVec.ofBool fb ++ 0#9, low := a.immLow })
  | .vstref m d a c => some (encMem 0x187 .n64 m 0 d a c 0 0)
  | .vldref t m d a c => some (encMem 0x188 .n64 m (0#1 ++ t) d a c 0 0)
  | .vtld t tn m d a b c => some (LaneFields.word
      { opc := 0x1E0, ty := t.code, imm := false, msel := m, mod := 0, vd := d, sa := a.field, sb := b.field,
        aux := BitVec.ofBool c.fb ++ c.scope ++ c.order.code ++ c.width ++ 0#2, low := 0#24 ++ tn })
  | .vtst t s tn m d a b c => some (LaneFields.word
      { opc := 0x1E1, ty := t.code, imm := false, msel := m, mod := satMod s, vd := d, sa := a.field, sb := b.field,
        aux := BitVec.ofBool c.fb ++ c.scope ++ c.order.code ++ c.width ++ 0#2, low := 0#24 ++ tn })
  | _ => none

/-- A matrix word with a tile operand, and one without (R68, R185). -/
def encTile (opc : BitVec 8) (da db : BitVec 4) (fl : BitVec 8) (t : Tile) : DWord :=
  MFields.word { opc, da, db, tn := t.tn, ka := t.ka, kb := t.kb, fl, imm := t.off0 ++ t.off1 }
def encM (opc : BitVec 8) (da db : BitVec 4) (fl : BitVec 8) (imm : BitVec 24) : DWord :=
  MFields.word { opc, da, db, tn := 0, ka := 0, kb := 0, fl, imm }

/-- The word of a matrix instruction (R68, R69). -/
def encodeMatrix : Instr → Option DWord
  | .mlda a t => some (encTile 0x00 a 0 0 t)
  | .mldb t => some (encTile 0x01 0 0 0 t)
  | .mst acc t => some (encTile 0x02 acc 0 0 t)
  | .mldc acc t => some (encTile 0x03 acc 0 0 t)
  | .mzero acc => some (encM 0x04 acc 0 0 0)
  | .mma acc a keep t => some (encTile 0x10 acc a (0#7 ++ BitVec.ofBool keep) t)
  | .mmaz acc a keep t => some (encTile 0x11 acc a (0#7 ++ BitVec.ofBool keep) t)
  | .mkset k i => some (encM 0x20 k 0 0 i)
  | .mksetH k i => some (encM 0x20 k 0 1 (0#16 ++ i))
  | .mkadd k i => some (encM 0x21 k 0 0 i)
  | .mkaddReg k b i => some (encM 0x21 k b 1 i)
  | .mloop k b disp count => some (encM 0x22 k b 0 (disp ++ count))
  | .mend => some (encM 0x23 0 0 0 0)
  | .mbara n => some (encM 0x30 n 0 0 0)
  | .mbarw n => some (encM 0x31 n 0 0 0)
  | .mrel noadd tn ka kb scope value => some (MFields.word
      { opc := 0x32, da := 0, db := 0, tn, ka, kb, fl := 0#7 ++ BitVec.ofBool noadd, imm := 0#3 ++ scope ++ value })
  | .mrdv => some (encM 0x33 0 0 0 0)
  | .mnop => some (encM 0x34 0 0 0 0)
  | .mtrap code => some (encM 0x35 0 0 0 (0#8 ++ code))
  | _ => none

/-- The bytes of an instruction word, little-endian (R6, R55, R63, R68); events have none. -/
def bytesOf (n : Nat) (w : Nat) : List Byte := (List.range n).map fun i => BitVec.ofNat 8 (w / 2 ^ (8 * i))
def encode (i : Instr) : List Byte :=
  match encodeScalar i with
  | some w => bytesOf 4 w.toNat
  | none =>
    match encodeLane i with
    | some w => bytesOf 12 w.toNat
    | none =>
      match encodeMatrix i with
      | some w => bytesOf 8 w.toNat
      | none => []

/-- The value of little-endian bytes (R6). -/
def valueOf : List Byte → Nat
  | [] => 0
  | b :: bs => b.toNat + 256 * valueOf bs

/-- The three streams of words. -/
inductive WordKind where
  | scalar | lane | matrix
  deriving DecidableEq, Repr

/-- The instruction at the front of a list of bytes, and the rest. -/
def decodeBytes (k : WordKind) (bs : List Byte) : Except DecErr (Instr × List Byte) :=
  match k with
  | .scalar => if bs.length < 4 then .error .unassigned else
    (decodeScalar (BitVec.ofNat 32 (valueOf (bs.take 4)))).bind fun i => .ok (i, bs.drop 4)
  | .lane => if bs.length < 12 then .error .unassigned else
    (decodeLane (BitVec.ofNat 96 (valueOf (bs.take 12)))).bind fun i => .ok (i, bs.drop 12)
  | .matrix => if bs.length < 8 then .error .unassigned else
    (decodeMatrix (BitVec.ofNat 64 (valueOf (bs.take 8)))).bind fun i => .ok (i, bs.drop 8)

/-- The instruction of a row's bits as the opcode table numbers them: 32 bits a scalar word, 64 a matrix word, 96 a
lane word. -/
def decodeTableWord (nbits w : Nat) : Option Instr :=
  let k := if nbits ≤ 32 then WordKind.scalar else if nbits ≤ 64 then .matrix else .lane
  match decodeBytes k (bytesOf 12 w) with
  | .ok p => some p.1
  | .error _ => none

end Sys2Proof
end

