-- ==== Sys2Proof/Machine/State.lean ====
section
/-! DEFINITION. The state of the device, all of it plain data. One structure for each level of R13 and for each unit
of Book II; INVENTORY.md lists every field with the rule that names it and its reset value. -/

namespace Sys2Proof.Machine

/-- Bytes by address in canonical form: addresses strictly rising, no entry equal to what an unlisted address reads
as (Memory.wf in Ops.lean). An unlisted address reads 0 (R54, R200, R323; log 5). -/
structure Memory where
  cells : List Host.Cell := []
  deriving DecidableEq, Repr

/-- The trap causes of R344. -/
inductive Cause where
  | illegal | priv | align | page | prot | hostlost | remote | stashbound | escape | privLine | quota | joinmis
  | ladder | mailbox | svc | trap | brk | fpe | fmt | integrity | uncorr | ringerr | watchdog | double | gang | mstream
  deriving DecidableEq, Repr

/-- Where a byte lies: coherent memory under an address space (partition x 1024 + AST) at a guest-physical address
(R307, R317), a team's stash window (R200), or a peer device's memory (R211). -/
inductive Loc where
  | glob (aid gpa : Nat)
  | stash (team off : Nat)
  | peer (id addr : Nat)
  deriving DecidableEq, Repr

/-- What raised a cause, and so what is incomplete (R70, R112, R173, R184, R203, R236). -/
inductive Culprit where
  | scalar (slot frag : Nat)
  | laneWord (slot frag : Nat)
  | lane (slot seq : Nat)
  | load (slot seq : Nat)
  | store (slot seq : Nat)
  | copy (id : Nat)
  | walk (id : Nat)
  | stream
  | device
  deriving DecidableEq, Repr

/-- The trap record of R348, with its culprit. -/
structure TrapRec where
  cause   : Cause
  group   : Nat := 0
  streamF : Bool := false
  stage   : Bool := false
  lanei   : Bool := false
  clidx   : Nat := 0
  lanes   : Mask := 0
  done    : Mask := 0
  gov     : Mask := 0
  detail  : DWord := 0
  addr    : DWord := 0
  pc      : DWord := 0
  pair    : Bool := false
  code    : BitVec 16 := 0
  reason  : BitVec 8 := 0
  spc     : DWord := 0
  culprit : Culprit := .device
  deriving DecidableEq, Repr

/-- A clause in a fragment's lane queue (R118, R119). -/
structure Clause where
  uid     : Nat
  lrunPc  : DWord
  body    : List LaneWord
  idx     : Nat := 0
  fa      : Option Nat := none
  fb      : Option Nat := none
  wait    : BitVec 12 := 0
  masks   : List Mask
  scal    : List Word
  fpctl   : Word
  started : Bool := false
  deriving DecidableEq, Repr

/-- What a fragment remembers of an instruction that has begun and not ended (R109, R195, R230, R247, R257, R270); `arrive`: an arrival whose earlier
phase is open (R247); `lwait`: an LWAIT (R266); `forward`: an SVC that goes on as FORWARD (R357); `words`: the 8-byte words that JLOAD, SCPSET or
TDSET has read so far, from its address on (R134, R178, R240); `done`: the walk from a root has ended (R270); `feed`: an LFEED at an item of its
array (R257); `dst`: the register that the instruction has still to write (R95). -/
inductive Wait where
  | sleep (until_ : Nat)
  | bar (cluster : Bool) (n : Nat) (target : Word)
  | arrive
  | rdv (count dst : Nat)
  | walk (id : Nat) (dst : Option Nat := none)
  | feed (pos : Nat) (base : DWord) (n : Nat)
  | lwait (dst : Nat)
  | forward
  | words (va : DWord) (ws : List DWord)
  | done (root : Nat) (dst : Option Nat := none)
  deriving DecidableEq, Repr

/-- A fence of a fragment (R249-R251): the marked accesses are those with a number below `mark`; `reads` holds the bytes
that window loads took from memory. -/
structure Fence where
  scope  : BitVec 5
  mark   : Nat
  spec   : Bool
  hold   : Bool := false
  issued : Nat := 0
  lanes  : Nat := 0
  pc     : DWord
  reads  : List (Loc × Byte) := []
  deriving DecidableEq, Repr

/-- A fragment (R127). -/
structure Fragment where
  mask  : Mask
  exec  : Mask
  pc    : DWord
  queue : List Clause := []
  wait  : Option Wait := none
  fence : Option Fence := none
  again : Bool := false
  deriving DecidableEq, Repr

/-- A rejoin register (R44). -/
structure Rejoin where
  armed   : Bool := false
  jaddr   : DWord := 0
  arrived : Mask := 0
  expect  : Mask := 0
  deriving DecidableEq, Repr

/-- A barrier of a team or cluster (R246), and a group's or stream's part in it. -/
structure Barrier where
  count   : Nat := 0
  arrived : Nat := 0
  phase   : Word := 0
  deriving DecidableEq, Repr
structure BarPart where
  pending : Bool := false
  phase   : Word := 0
  effect  : Option Nat := none
  deriving DecidableEq, Repr

/-- A store that has issued and not performed (R114, R250, R331): its bytes, whether it sets its word's tag (STREF), its
scope when it is a release, and `uid`, the number of its clause (of the store itself for a scalar one). `inOrder`: it issued in
a fence window, so it performs in issue order (R251). `after`: how many scalar words its group had issued (R112). `lanes`, `gov` and
`clidx` are those of a lane store (R70, R172, R173); `stash`: it goes through the window (R209). -/
structure BufStore where
  seq     : Nat
  bytes   : List (Loc × Byte)
  setTag  : Bool := false
  rel     : Option (BitVec 5) := none
  uid     : Nat := 0
  bad     : Bool := false
  inOrder : Bool := false
  after   : Nat := 0
  pc      : DWord := 0
  addr    : DWord := 0
  lanes   : Mask := 0
  gov     : Mask := 0
  clidx   : Nat := 0
  stash   : Bool := false
  deriving DecidableEq, Repr

/-- What a scalar atomic does when it performs (R116, R117); `scope` gives the level, as the scope table stood when it issued
(R238). -/
structure Atomic where
  op    : AtomOp
  x     : DWord
  y     : DWord
  rel   : Bool
  scope : BitVec 5
  deriving DecidableEq, Repr

/-- A scalar load or atomic whose data has not returned (R95, R112): destination register, size, bytes read, the mask that
LDREF writes, the lanes of the issuing fragment, and what an atomic does with its value once it has performed. -/
structure Load where
  seq   : Nat
  dst   : Nat
  pair  : Bool
  locs  : List Loc
  acq   : Bool := false
  atom  : Option Atomic := none
  value : Option DWord := none
  tagTo : Option Nat := none
  frag  : Mask := 0
  bad   : Bool := false
  scope : BitVec 5 := 4
  after : Nat := 0
  addr  : DWord := 0
  pc    : DWord
  deriving DecidableEq, Repr

/-- A lane of an operand log entry (R173, R326). -/
inductive LaneStat where
  | ready
  | done
  | service
  | bad (c : Cause) (stage : Bool) (detail addr : DWord)
  deriving DecidableEq, Repr
/-- A lane of an entry; `spans` are the address ranges it accesses, in the stash or not; `got` holds the bytes that have been read
and not yet written to its registers, by their place in the lane's data (R120, R166). -/
structure LaneEntry where
  lane  : Nat
  addr  : DWord
  data  : List Word
  spans : List (Bool × Nat × Nat) := []
  locs  : List Loc
  stat  : LaneStat
  got   : List (Nat × Byte) := []
  deriving DecidableEq, Repr

/-- An outstanding long-latency lane instruction (R121, R326), with the clock of its issue; `retry`: its cause has been
raised. `flag` is none once the instruction has completed and its reference stores have not all performed. `inOrder`: it issued in a
fence window (R251). -/
structure LogEntry where
  seq    : Nat
  uid    : Nat
  flag   : Option Nat
  frag   : Mask
  instr  : Instr
  lrunPc : DWord
  idx    : Nat
  gov    : Mask
  fpctl  : Word
  lanes  : List LaneEntry
  tn     : BitVec 512 := 0
  issued : Nat := 0
  retry  : Bool := false
  inOrder : Bool := false
  deriving DecidableEq, Repr

/-- A clause's hold on a flag count (R45, R121): how many of its long-latency instructions attached to the flag have not
completed. With none attached the count falls at the clause's last issue. -/
structure FlagHold where
  uid  : Nat
  flag : Nat
  left : Nat
  deriving DecidableEq, Repr

/-- Why a group is off the core while parked (R273). -/
inductive Park where
  | mbrecv (mb : Nat) (dst : Nat)
  | svc (va : Nat) (code : BitVec 16) (lanes : Mask) (pc : DWord)
  deriving DecidableEq, Repr

/-- A group (R36, R54), resident, parked or saved. Slot 128 is a handler run (R351). `parkAt` is set, in the order of parking, once a parking group is
off-core; `token` once its request is posted (R273, R279). `qsel` and `wspl` are a handler's: QSEL, and the groups whose fragments it changed, each
with its lanes before and whether WSPL wrote them (R350, R357). `savedAt` orders the saved groups; `urgent` marks those that urgent pre-emption
evicted, `sliced` those saved at the end of a slice (R360-R362), `stay` those of them whose team never moves (R363), and `leaving` the
resident groups that urgent pre-emption has chosen. `words` counts the scalar words it issued (R112). `ended`: its last fragment has
exited, and what it issued has not all performed (R31). `low` numbers the lane accesses that an open fence marks and that issue in its
window, below those of the window (R249, R250). `image` is the first granule of its register image and how many it takes (R359). -/
structure Group where
  core     : Nat
  slot     : Nat
  team     : Nat
  grp      : Nat
  sregs    : List Word
  vregs    : List (List Word)
  masks    : List Mask
  rejoin   : List Rejoin
  flags    : List Nat
  holds    : List FlagHold := []
  opened   : List Nat := []
  sealed_  : List (List Nat)
  fpctl    : Word := 0
  estat    : BitVec 8 := 0
  spilled  : Bool := false
  jlost    : Bool := false
  slot0    : Option Fragment
  slot1    : Option Fragment := none
  stack    : List Fragment := []
  rung     : Word := 0
  items    : List (Option Nat) := []
  itemIdx  : List Word := []
  bars     : List BarPart
  cbars    : List BarPart
  rdvCount : Nat := 0
  loads    : List Load := []
  sbuf     : List BufStore := []
  olog     : List LogEntry := []
  seq      : Nat := 0
  low      : Nat := 0
  park     : Option Park := none
  parkAt   : Option Nat := none
  token    : Option Nat := none
  saved    : Bool := false
  skid     : Word := 0
  qsel     : BitVec 8 := 0
  wspl     : List (Nat × Mask × Bool) := []
  savedAt  : Nat := 0
  urgent   : Bool := false
  sliced   : Bool := false
  stay     : Bool := false
  leaving  : Bool := false
  words    : Nat := 0
  ended    : Bool := false
  image    : Option (Nat × Nat) := none
  deriving DecidableEq, Repr

/-- A stash mapping (R207): offset, global address, length, and for each filled line its place. -/
structure SMap where
  off    : Nat
  addr   : DWord
  len    : Nat
  filled : List (Nat × Nat × Nat) := []
  deriving DecidableEq, Repr

/-- A level of the loop stack (R193). -/
structure Loop where
  reg   : Nat
  total : Nat
  start : DWord
  stop  : DWord
  deriving DecidableEq, Repr

/-- An A register: its format tag (FORMAT code, 0 NONE) and 8 KiB of bytes (R186). -/
structure AReg where
  tag   : Nat := 0
  bytes : List Byte := []
  deriving DecidableEq, Repr

/-- A B tile that MLDB has brought in (R188): the entry's identifier and contents, the tile's origin, and the elements that did not
fault, by number, each the bytes of its pieces. -/
structure Staged where
  tn    : Nat
  entry : BitVec 512
  d0    : Nat
  row   : Nat
  elems : List (Nat × List Byte)
  deriving DecidableEq, Repr

/-- The matrix stream of a team (R47, R182, R191, R193, R195). `part` holds the elements of the tile in progress that have been
read or written so far, by number (R197); `held` that word as it was fetched, with the entry of its tensor as it was read (R180, R183); `adding` the add of an MREL that waits to
perform away from the L1, its places, value and level, and `added` that it has performed (R196, R339);
`staged` the tiles of MLDB (R188). -/
structure Stream where
  running  : Bool := false
  stopped  : Bool := false
  pc       : DWord := 0
  k        : List Word := List.replicate 16 0
  a        : List AReg := List.replicate 8 {}
  latch    : Option (Nat × List AReg) := none
  loops    : List Loop := []
  rdvCount : Nat := 0
  forker   : Nat := 0
  bars     : List BarPart := List.replicate 16 {}
  wait     : Option (Nat × Word) := none
  part     : List (Nat × List Byte) := []
  held     : Option (DWord × BitVec 512) := none
  adding   : Option (List Loc × Word × BitVec 5) := none
  added    : Bool := false
  staged   : List Staged := []
  deriving DecidableEq, Repr

/-- Why a team is halted (R346, R347). -/
inductive Halt where
  | handle
  | held (fid : Nat)
  deriving DecidableEq, Repr

/-- A team (R13, R19). -/
structure Team where
  tid     : Nat
  lid     : Nat
  cid     : Nat
  index   : Nat
  x       : Word
  y       : Word
  z       : Word
  rank    : Nat := 0
  cluster : Nat
  core    : Nat
  slot    : Nat
  size    : Nat
  window  : Nat
  stash   : Memory := {}
  maps    : List SMap := []
  acc     : List (List Word) := []
  stream  : Stream := {}
  bars    : List Barrier := List.replicate 16 {}
  record  : Option TrapRec := none
  halt    : Option Halt := none
  queued  : List TrapRec := []
  chunk   : Option (Nat × Nat) := none
  retired : Bool := false
  dead    : Bool := false
  issued  : Nat := 0
  image   : Option (Nat × Nat) := none
  deriving DecidableEq, Repr

/-- A cluster (R20, R246). -/
structure Cluster where
  kid   : Nat
  lid   : Nat
  size  : Nat
  cbars : List Barrier := List.replicate 4 {}
  deriving DecidableEq, Repr

/-- A launch descriptor's fields (R274). -/
structure Desc where
  entry     : DWord := 0
  laneBase  : DWord := 0
  gx        : Nat := 1
  gy        : Nat := 1
  gz        : Nat := 1
  groups    : Nat := 1
  lregs     : Nat := 1
  sregs     : Nat := 1
  acc       : Nat := 0
  stash     : Nat := 0
  cw        : Nat := 1
  ch        : Nat := 1
  tx        : Nat := 0
  ty        : Nat := 0
  tz        : Nat := 0
  cores     : Bool := false
  tile      : Bool := false
  rung      : Bool := false
  prio      : Nat := 0
  domain    : Nat := 0
  policy    : Nat := 0
  arenaBase : Nat := 0
  arenaSize : Nat := 0
  longBase  : Nat := 0
  longSize  : Nat := 0
  depctr    : Nat := 0
  signal    : Nat := 0
  notBefore : Nat := 0
  window    : Nat := 0
  init      : List Word := []
  succ      : List Nat := []
  deriving DecidableEq, Repr

/-- A gang launch before and after its commit (R380, R381). -/
structure GangLaunch where
  gid       : Word
  start     : Nat
  coord     : Bool
  members   : List (BitVec 12)
  deadline  : Nat
  acked     : List (BitVec 12) := []
  reserved  : Bool := false
  places    : List (Nat × List Nat) := []
  prepared  : Bool := false
  committed : Bool := false
  started   : Bool := false
  heard     : List (BitVec 12 × Nat) := []
  beat      : Nat := 0
  deriving DecidableEq, Repr

/-- How a launch ends (R34). -/
inductive EndStatus where
  | complete | aborted | skipped
  deriving DecidableEq, Repr

/-- A launch record (R13, R32, R35, R276, R376). -/
structure Launch where
  lid      : Nat
  cid      : Nat
  addr     : DWord
  desc     : Desc
  acceptAt : Nat
  ready    : Bool
  depFault : Bool := false
  timeOk   : Bool := false
  next     : Nat := 0
  retired  : Nat := 0
  started  : Bool := false
  held     : Option Nat := none
  ending   : Option EndStatus := none
  passedAt : Option Nat := none
  blocking : Bool := false
  cursor   : Nat := 0
  charges  : List (Nat × Nat) := []
  msix     : Option (Nat × Nat) := none
  ladder   : Option (Nat × Nat × List Nat × Nat) := none
  gang     : Option GangLaunch := none
  deriving DecidableEq, Repr

/-- A rung of a bound ladder (R254) and its arrivals, oldest first, each with its device time (R263) and the core it came from (R264). -/
structure Rung where
  nostore  : Bool
  frame    : Nat
  fill     : Nat
  limit    : Nat
  desc     : Desc
  addr     : DWord
  pend     : List (Nat × Nat × Nat) := []
  launched : Nat := 0
  deriving DecidableEq, Repr

/-- The state of a ladder slot and of an item (R255). -/
inductive SlotState where
  | free | open_ | closed | done
  deriving DecidableEq, Repr
inductive ItemState where
  | pending (rung : Nat)
  | running (rung : Nat)
  | retired
  deriving DecidableEq, Repr
structure Ladder where
  st       : SlotState := .free
  scope    : BitVec 5 := 4
  rsz8     : Bool := false
  capacity : Nat := 0
  frames   : Nat := 0
  results  : Nat := 0
  rungs    : List Rung := []
  items    : List (Nat × ItemState) := []
  deriving DecidableEq, Repr

/-- A mapping record (R295). -/
structure Mapping where
  base    : Nat
  len     : Nat
  backing : Nat
  r       : Bool
  w       : Bool
  x       : Bool
  target  : Nat
  lost    : Bool := false
  deriving DecidableEq, Repr

/-- A fault with a fault id (R300, R346). -/
structure FwdFault where
  fid     : Nat
  team    : Option Nat
  lid     : Nat
  target  : Option Nat
  park    : Bool
  cause   : Cause
  kind    : Nat := 1
  addr    : DWord
  pc      : DWord
  lanes   : Mask
  backing : Nat
  deriving DecidableEq, Repr

/-- An event entry (R302). -/
structure Event where
  kind    : Nat
  cause   : Nat := 0
  id      : Word := 0
  pc      : DWord := 0
  addr    : DWord := 0
  backing : Nat := 15
  lanes   : Mask := 0
  deriving DecidableEq, Repr

/-- A ring (R281, R290, R302). -/
structure Ring where
  base  : Nat := 0
  log2  : Nat := 0
  read  : Word := 0
  write : Word := 0
  error : Bool := false
  deriving DecidableEq, Repr

/-- The state codes of R290. -/
inductive CtxState where
  | free | guarded | offered | orphaned | suspended | destroyed
  deriving DecidableEq, Repr

/-- A context (R288-R304), with its tensor table (R175), scope entries 8-31 (R238), ladders (R255), mailboxes
(R269), quotas (R223) and trap control (R350). -/
structure Context where
  cid      : Nat
  st       : CtxState := .free
  primary  : Nat := 8
  coguard  : BitVec 8 := 0
  permit   : BitVec 8 := 0
  offerTo  : Nat := 8
  lease    : Nat := 250
  losth    : BitVec 8 := 0
  ast      : Nat := 0
  colour   : Nat := 0
  rq       : Ring := {}
  respBase : Nat := 0
  rings    : List (Nat × Ring) := []
  heldEv   : List (Nat × Event) := []
  seq      : Word := 0
  nextFid  : Nat := 1
  faults   : List FwdFault := []
  clocks   : List (Nat × Nat) := []
  maps     : List Mapping := []
  limits   : List Word := List.replicate 256 0
  usage    : List Word := List.replicate 256 0
  tensors  : List (Nat × BitVec 512) := []
  scopes   : List (Nat × BitVec 384) := []
  ladders  : List Ladder := List.replicate 16 {}
  mail     : List (List DWord) := List.replicate 64 []
  longNext : List (Nat × Nat) := []
  longUse  : List (Nat × Nat × Nat) := []
  hentry   : DWord := 0
  hlane    : DWord := 0
  actlo    : DWord := 0x4000303044040000
  acthi    : DWord := 0x0000004404000020
  wdog     : DWord := 0x00000000000003E8
  saveBase : DWord := 0
  saveSize : DWord := 0
  slice    : DWord := 10000
  deriving DecidableEq, Repr

/-- An AST record (R318). -/
structure Ast where
  aid      : Nat
  valid    : Bool := false
  keyid    : BitVec 8 := 0
  colour   : BitVec 4 := 0
  traps    : Bool := false
  frel     : Bool := false
  esc      : Bool := false
  fserv    : Bool := false
  walk     : Bool := false
  ttroot   : Nat := 0
  poolBase : Nat := 0
  poolLog2 : Nat := 0
  poolRd   : Word := 0
  poolWr   : Word := 0
  poolErr  : Bool := false
  freeTabs : List Nat := []
  s2root   : List (BitVec 24) := [0, 0, 0, 0]
  deriving DecidableEq, Repr

/-- A TLB entry (R311, R313). -/
structure TlbEntry where
  core : Nat
  aid  : Nat
  va   : Nat
  size : Nat
  gpa  : Nat
  r    : Bool
  w    : Bool
  x    : Bool
  kind : Nat
  high : Nat
  lost : Bool := false
  deriving DecidableEq, Repr

/-- A copy in flight (R201-R206, R211); `remote` is 0 for CPY, 1 for RGET and 2 for RPUT. `got` holds the bytes that have been read
and not written, by offset, `moved` the offsets that have been written (R201). -/
structure Copy where
  id     : Nat
  core   : Nat
  team   : Nat
  grp    : Nat
  cid    : Nat
  dstS   : Bool
  srcS   : Bool
  dst    : Nat
  src    : Nat
  count  : Nat
  remote : Nat
  pc     : DWord
  skip   : Nat := 0
  stuck  : Bool := false
  got    : List (Nat × Byte) := []
  moved  : List Nat := []
  deriving DecidableEq, Repr

/-- A Gauze walk (R231): its walker (4 x die + walker), the issuing group and fragment (mask 0: a lane store, with the number of
its log entry), the scope with its rank as the scope table stood when the walk was issued (R238), pending references, the object
in hand with its next line, the chain of objects it has stamped, and what a fault records. `spilled` counts the references in the
walk area, `overflow` says that it was full; `rescan` holds the objects of the chain that a rescan has not read, `found` whether it
has added a reference (R232). -/
structure Walk where
  id      : Nat
  walker  : Nat
  core    : Nat
  team    : Nat
  grp     : Nat
  frag    : Mask
  cid     : Nat
  pc      : DWord
  root    : Nat
  aid     : Nat := 0
  entry   : Option Nat := none
  scope   : BitVec 5
  rank    : Nat := 0
  pending : List Nat
  spilled : Nat := 0
  overflow : Bool := false
  rescan  : List Nat := []
  found   : Bool := false
  obj     : Option (Nat × Nat × Nat) := none
  chain   : List Nat := []
  fault   : Option (Cause × Bool × Nat) := none
  deriving DecidableEq, Repr

/-- A handler run of a core, or the teams that wait for one (R351). -/
structure Handler where
  core    : Nat
  serving : Option Nat := none
  since   : Nat := 0
  waiting : List Nat := []
  deriving DecidableEq, Repr

/-- Line metadata and HBM (R321): the key slot and the generation of the key it was written under. `flip` is how the ITAG that is held
differs from the one that KMAC gives, 0 when it matches (log 7). -/
structure LineMeta where
  line   : Nat
  tags   : BitVec 16 := 0
  keyid  : BitVec 8 := 0
  keygen : Nat := 0
  pub    : Bool := false
  uncorr : Bool := false
  flip   : BitVec 39 := 0
  deriving DecidableEq, Repr

/-- A line held on the chip, with its tags, published bit and dirt (R216, R219, R317). `line` is the address space
times 2^45 plus GPA bits 51:7. `wrote` marks the bytes written since the line was last written back: those of a host-backed line that
a write-back writes, as host processors write the rest (R199, R390). -/
structure ChipLine where
  line  : Nat
  tags  : BitVec 16 := 0
  pub   : Bool := false
  dirty : Bool := false
  wrote : BitVec 128 := 0
  deriving DecidableEq, Repr

/-- The states of an L1 line (R331) and of a directory entry (R330). -/
inductive LState where
  | I | S | E | O | M | P
  deriving DecidableEq, Repr
structure L1Line where
  core : Nat
  line : Nat
  st   : LState
  deriving DecidableEq, Repr
structure DirEntry where
  die    : Nat
  line   : Nat
  st     : LState := .I
  gst    : LState := .I
  owner  : Nat := 127
  shares : BitVec 24 := 0
  l2     : Bool := false
  deriving DecidableEq, Repr

/-- A region directory entry (R333): home die, SIZE, the standing of each die (0 NONE, 1 SHARED, 2 OWNED), the
address space, BASE in lines (R317), and the clock of the last transaction, from which QUIET counts. -/
structure RegionEntry where
  home  : Nat
  k     : Nat
  sts   : List Nat
  aid   : Nat
  since : Nat := 0
  base  : Nat
  deriving DecidableEq, Repr

/-- A transaction of a home that waits for snoop answers (R336, R337, R339, R340, R342). -/
structure Txn where
  home    : Nat
  line    : Nat
  asker   : Nat
  excl    : Bool
  atomic  : Option (Nat × AtomOp × Ty × DWord × DWord) := none
  waiting : List Nat
  dirty   : List Nat := []
  clean   : Bool := false
  deriving DecidableEq, Repr

/-- Second-stage entries of a die, valid ones only (R314). -/
structure S2Entry where
  aid   : Nat
  die   : Nat
  gran  : Nat
  frame : Nat
  w     : Bool
  deriving DecidableEq, Repr

/-- An S2DATA write in progress (R316, R325): its address space and granule (GPA bits 39:16), how many of the queued
releases come before it, and the entry it installs. -/
structure S2Write where
  aid   : Nat
  gran  : Nat
  left  : Nat
  entry : Option (Nat × Bool)
  deriving DecidableEq, Repr

/-- A frame release that is queued (R324). -/
structure Release where
  aid   : Nat
  gran  : Nat
  deriving DecidableEq, Repr

/-- A journal entry (R305). -/
structure Journal where
  seq      : Nat
  ctx      : Nat
  host     : Nat
  cmd      : Byte
  tag      : Word
  arg      : DWord
  hash     : DWord
  accept   : Nat
  complete : Nat
  status   : Byte
  oldSt    : CtxState
  newSt    : CtxState
  oldPrim  : Nat
  newPrim  : Nat
  oldCog   : BitVec 8
  newCog   : BitVec 8
  deriving DecidableEq, Repr

/-- A RAS log entry (R389). -/
structure Ras where
  seq  : Nat
  code : BitVec 16
  die  : Nat
  info : Word
  time : Nat
  addr : DWord
  deriving DecidableEq, Repr

/-- A partition (R382, R383), with its journal, RAS log, key slots and the block of R316. -/
structure Part where
  id       : Nat
  dies     : List Nat
  admin    : Nat
  journal  : List Journal := []
  jhead    : Nat := 0
  ras      : List Ras := []
  rashead  : Nat := 0
  keygen   : List (Nat × Nat) := []
  s2sel    : DWord := 0
  s2res    : Byte := 0
  s2busy   : Option S2Write := none
  releases : List Release := []
  relDone  : Word := 0
  relOvf   : Bool := false
  deriving DecidableEq, Repr

/-- DEVSTATE (R386). -/
inductive DevState where
  | reset | secureBoot | memoryInit | running | recovery
  deriving DecidableEq, Repr

/-- A submission page's binding (R372). -/
structure Bind where
  host    : Nat
  page    : BitVec 12
  ctx     : BitVec 10
  prioMax : BitVec 3
  deriving DecidableEq, Repr

/-- What bring-up is given (R382, R383, R387): whether both signatures of image and configuration verify, the image's
SVN and the fused minimum, the dies of each partition with its administering host, each port's host number, and the images that are
supplied in RECOVERY for further resets, each with whether its signatures verify and its SVN. -/
structure Boot where
  verifies : Bool := true
  svn      : Word := 1
  minSvn   : Word := 1
  parts    : List (List Nat × Nat) := [([0, 1, 2, 3], 0)]
  ports    : List (Option Nat) := [some 0, some 1, some 2, some 3, some 4, some 5, some 6, some 7]
  images   : List (Bool × Word) := []
  deriving DecidableEq, Repr

/-- A vector of the MSI-X table of a port (R369, R375), in its PCIe form: address, data, mask bit and pending bit. -/
structure MsixVec where
  port    : Nat
  vec     : Nat
  addr    : DWord := 0
  data    : Word := 0
  masked  : Bool := true
  pending : Bool := false
  deriving DecidableEq, Repr

/-- A block that has been accepted and whose status is not decided (R293, R370, R371): its host, its context, its journal entry, whether the
context held 16 commands at its acceptance, and the binding of its page. -/
structure Queued where
  host : Nat
  cid  : Nat
  ev   : Ev
  seq  : Nat
  busy : Bool := false
  bind : Option Bind := none
  deriving DecidableEq, Repr

/-- Device-wide registers (R8, R368, R372, R377, R380, R386, R388). `sent` holds the gang messages sent to peers (1 PREPARE,
2 ACK, 3 COMMIT, 4 ABORT, 5 heartbeat; an ACK goes to the sender of its PREPARE), each with T for PREPARE, `prepares` the PREPAREs that
wait for a launch, `lostPeers` the failed members of R381 by the launch that runs on without them, `offset` the offset e of R378 in units of
1/50,000 ns, `vectors` the MSI-X vectors that a host has written, `queue` the accepted blocks that are not decided, oldest first, and
`taking` the one that is being decided (R371), `answers` what this device has answered to RGETs of peers, by GPA (R213), `poisoned` the
host-backed lines that a directory error has poisoned, by GPA bits 51:7 (R342). -/
structure Dev where
  st       : DevState := .reset
  svn      : Word := 0
  boot     : Boot := {}
  portUp   : List Bool := List.replicate 8 false
  nirusUp  : List Bool := List.replicate 12 false
  slowed   : Bool := false
  timeSrc  : DWord := 0
  timeOfs  : DWord := 0
  offset   : Int := 0
  binds    : List Bind := []
  lastPage : List (Nat × BitVec 12 × Bool) := []
  nonces   : List (Nat × List Byte) := []
  attest   : List (Nat × Bool × List Byte) := []
  fwclosed : List (Nat × Nat) := []
  fwdrops  : List Nat := [0, 0, 0, 0]
  fwparts  : List Nat := [15, 15, 15, 15]
  msix     : List (Nat × Nat) := []
  prepares : List (Word × Nat) := []
  sent     : List (Nat × BitVec 12 × Word × Nat) := []
  lostPeers : List (Nat × Nat) := []
  vectors  : List MsixVec := []
  queue    : List Queued := []
  taking   : Option Queued := none
  answers  : List (Nat × List Byte) := []
  poisoned : List Nat := []
  deriving DecidableEq, Repr

/-- A context's slice on a core: when it began, how long it is in µs, and whether the context drains there (R350, R360). -/
structure Slice where
  core     : Nat
  cid      : Nat
  since    : Nat
  length   : Nat := 10000
  draining : Bool := false
  deriving DecidableEq, Repr

/-- Whose move a step is (log 2). -/
inductive Agent where
  | idle
  | scalar (core slot frag : Nat)
  | lane (core slot frag : Nat)
  | stream (team : Nat)
  | drain (core slot idx : Nat)
  | save (core slot : Nat)
  | work (idx : Nat)
  | input
  | event (e : Ev)
  | flush (cid host : Nat)
  | copyStep (id : Nat)
  | prefetch (team : Nat)
  | decide (idx : Nat)
  deriving DecidableEq, Repr

/-- Where a scalar word was fetched: its own address, or its ORD's with the order and scope (R60-R62). -/
structure OrdCtx where
  order : Ord := .rlx
  scope : BitVec 5 := 4
  pair  : Bool := false
  deriving DecidableEq, Repr

/-- The whole machine. -/
structure State where
  cur      : Agent
  ord      : OrdCtx
  agenda   : List Agent
  inputs   : List Ev
  work     : List Ev
  free     : Nat
  cycle    : Nat
  time     : Nat
  frac     : Nat
  nextId   : Nat
  groups   : List Group
  snaps    : List Group
  teams    : List Team
  clusters : List Cluster
  launches : List Launch
  contexts : List Context
  asts     : List Ast
  copies   : List Copy
  walks    : List Walk
  handlers : List Handler
  tlb      : List TlbEntry
  ats      : List (Nat × Nat × Nat × DWord)
  chip     : Memory
  chipMeta : List ChipLine
  hbm      : Memory
  hbmMeta  : List LineMeta
  s2       : List S2Entry
  hostMem  : Memory
  undurable : List (Nat × List Byte)
  peerMem  : Memory
  l1       : List L1Line
  dir      : List DirEntry
  regions  : List RegionEntry
  txns     : List Txn
  slices   : List Slice
  parts    : List Part
  dev      : Dev
  deriving DecidableEq, Repr

/-- Why the machine stops with a fault. -/
inductive Fault where
  /-- A scalar, lane or matrix word is executed where no fragment, started clause or running stream of that kind moves.
  Raised by every meaning of a word; safe: the spec gives a word no effect without a stream that holds it. -/
  | noAgent
  deriving DecidableEq, Repr

/-- Why an instruction has no next state. -/
inductive Refusal where
  /-- An instruction without a meaning in this model, by its mnemonic. Raised by the dispatcher only; safe. -/
  | notModelled (mnemonic : String)
  /-- An event of the device, a host or a peer that does not arise in this state: its rule's condition does not hold,
  so the spec gives no effect (log 19). Raised by the meanings of events; safe. -/
  | notArisen (event : String)
  deriving DecidableEq, Repr

/-- The outcome of a step. -/
abbrev Out := Host.Outcome State Fault Refusal

/-- The machine right after reset (R385 step 1): power good, DEVSTATE RESET, nothing resident, device time 0, %cycle
0, every line of memory reading zero. Each field is the value of the spec or of a log entry, as INVENTORY.md lists. -/
def State.reset : State where
  cur := .idle
  ord := {}
  agenda := []
  inputs := []
  work := []
  free := 0
  cycle := 0
  time := 0
  frac := 0
  nextId := 0
  groups := []
  snaps := []
  teams := []
  clusters := []
  launches := []
  contexts := []
  asts := []
  copies := []
  walks := []
  handlers := []
  tlb := []
  ats := []
  chip := {}
  chipMeta := []
  hbm := {}
  hbmMeta := []
  s2 := []
  hostMem := {}
  undurable := []
  peerMem := {}
  l1 := []
  dir := []
  regions := []
  txns := []
  slices := []
  parts := []
  dev := {}

end Sys2Proof.Machine
end

