-- ==== Sys2Proof/Machine/Bits.lean ====
section
/-! DEFINITION. Bit fields, small list helpers and the codes of causes (R6, R344). -/

namespace Sys2Proof.Machine

/-- The register at index n of a list, 0 beyond its end, and its update. -/
def getW (l : List Word) (n : Nat) : Word := l.getD n 0

/-- The value of a bit field of a natural number: `n` bits from `lo`. -/
def bitsOf (x lo n : Nat) : Nat := x / 2 ^ lo % 2 ^ n

def b2n (b : Bool) : Nat := if b then 1 else 0

/-- Replace the first element with the given property, or add one. -/
def upsert {α : Type} (p : α → Bool) (x : α) : List α → List α
  | [] => [x]
  | y :: ys => if p y then x :: ys else y :: upsert p x ys

/-- The association list of numbers: lookup with a default, and update. -/
def assoc {α : Type} (d : α) (k : Nat) : List (Nat × α) → α
  | [] => d
  | (j, v) :: t => if j == k then v else assoc d k t
def assocSet {α : Type} (k : Nat) (v : α) : List (Nat × α) → List (Nat × α)
  | [] => [(k, v)]
  | (j, w) :: t => if j == k then (k, v) :: t else (j, w) :: assocSet k v t

/-- Lane l of a mask (R42), and the lowest lane, 32 when none. -/
def inMask (m : Mask) (l : Nat) : Bool := m.getLsbD l
def lowestLane (m : Mask) : Nat := ((List.range 32).find? (inMask m)).getD 32
def popCount (m : Mask) : Nat := ((List.range 32).filter (inMask m)).length
def maskOf (p : Nat → Bool) : Mask := (List.range 32).foldl (fun m l => if p l then m ||| (1#32 <<< l) else m) 0
def lanesOf (m : Mask) : List Nat := (List.range 32).filter (inMask m)

/-- Rotate left in 16 bits (R22). -/
def rotl16 (v a : Nat) : Nat := (v * 2 ^ a ||| v / 2 ^ (16 - a)) % 65536

/-- The codes of R344. -/
def Cause.code : Cause → Nat
  | .illegal => 0x01 | .priv => 0x02 | .align => 0x03 | .page => 0x04 | .prot => 0x05 | .hostlost => 0x06
  | .remote => 0x07 | .stashbound => 0x08 | .escape => 0x09 | .privLine => 0x0A | .quota => 0x0B | .joinmis => 0x0C
  | .ladder => 0x0D | .mailbox => 0x0E | .svc => 0x0F | .trap => 0x10 | .brk => 0x11 | .fpe => 0x12 | .fmt => 0x13
  | .integrity => 0x14 | .uncorr => 0x15 | .ringerr => 0x16 | .watchdog => 0x17 | .double => 0x18 | .gang => 0x19
  | .mstream => 0x1A

/-- The state codes of R290. -/
def CtxState.code : CtxState → Nat
  | .free => 0 | .guarded => 1 | .offered => 2 | .orphaned => 3 | .suspended => 4 | .destroyed => 5

/-- The die of a core (R3), and of a home. -/
def dieOf (core : Nat) : Nat := core / 96

/-- Little-endian bytes of a value, and the value of bytes (R6). -/
def leBytes (n v : Nat) : List Byte := (List.range n).map fun i => BitVec.ofNat 8 (v / 2 ^ (8 * i))
def leVal (bs : List Byte) : Nat := bs.foldr (fun b acc => b.toNat + 256 * acc) 0

/-- The first set bit of a byte mask of hosts, and all of them. -/
def hostsOf (m : BitVec 8) : List Nat := (List.range 8).filter fun h => m.getLsbD h

end Sys2Proof.Machine
end

