-- ==== Sys2Proof/Machine/Mem.lean ====
section
/-! DEFINITION. Memory: the canonical list of bytes, line metadata, the second stage, and the one coherent value of
every byte of an address space (R216, R239, R241, R307, R314, R315, R321-R323). -/

namespace Sys2Proof.Machine

/-! ## Bytes by address -/

/-- The byte at an address; what is not listed reads 0. -/
def cellsGet : List Host.Cell → Nat → Byte
  | [], _ => 0
  | (k, v) :: t, a => if k = a then v else if a < k then 0 else cellsGet t a

/-- Write a byte: the list stays strictly rising, and a byte of 0 is not listed. -/
def cellsSet : List Host.Cell → Nat → Byte → List Host.Cell
  | [], a, b => if b = 0 then [] else [(a, b)]
  | (k, v) :: t, a, b =>
    if a < k then (if b = 0 then (k, v) :: t else (a, b) :: (k, v) :: t)
    else if k = a then (if b = 0 then t else (a, b) :: t)
    else (k, v) :: cellsSet t a b

/-- The canonical form: every address above `lo`, strictly rising, no byte 0. -/
def cellsOk : Nat → List Host.Cell → Bool
  | _, [] => true
  | lo, (k, v) :: t => decide (lo ≤ k) && v != 0 && cellsOk (k + 1) t

def Memory.get (m : Memory) (a : Nat) : Byte := cellsGet m.cells a
def Memory.set (m : Memory) (a : Nat) (b : Byte) : Memory := { cells := cellsSet m.cells a b }
def Memory.wf (m : Memory) : Bool := cellsOk 0 m.cells

/-- Write consecutive bytes, and read them. -/
def Memory.setAll (m : Memory) (a : Nat) : List Byte → Memory
  | [] => m
  | b :: bs => (m.set a b).setAll (a + 1) bs
def Memory.getAll (m : Memory) (a n : Nat) : List Byte := (List.range n).map fun i => m.get (a + i)

/-! ## Lines and the second stage -/

/-- The number of a line: address space and GPA bits 51:7 (R317). A coherent byte's address is line x 128 + offset. -/
def lineOf (aid gpa : Nat) : Nat := aid * 2 ^ 45 + gpa % 2 ^ 52 / 128
def byteOf (aid gpa : Nat) : Nat := aid * 2 ^ 52 + gpa % 2 ^ 52
def lineAid (line : Nat) : Nat := line / 2 ^ 45
def lineGpa (line : Nat) : Nat := line % 2 ^ 45 * 128

/-- The two forms of R307. -/
def isHostGpa (gpa : Nat) : Bool := gpa / 2 ^ 51 % 2 == 1
def gpaHost (gpa : Nat) : Nat := gpa / 2 ^ 48 % 8
def gpaBus (gpa : Nat) : Nat := gpa % 2 ^ 48
def gpaHome (gpa : Nat) : Nat := gpa / 2 ^ 38 % 4
def gpaGran (gpa : Nat) : Nat := gpa / 2 ^ 16 % 2 ^ 22
def okDeviceGpa (gpa : Nat) : Bool := gpa / 2 ^ 40 == 0

/-- The AST record of an address space; unset records read as reset (R318). -/
def State.ast (s : State) (aid : Nat) : Ast := (s.asts.find? fun a => a.aid == aid).getD { aid }
def State.setAst (s : State) (a : Ast) : State := { s with asts := upsert (fun b => b.aid == a.aid) a s.asts }

/-- The partition of an address space or context, by number (R382), and its die list. -/
def State.part (s : State) (id : Nat) : Part := (s.parts.find? fun p => p.id == id).getD { id, dies := [], admin := 8 }
def State.setPart (s : State) (p : Part) : State := { s with parts := upsert (fun q => q.id == p.id) p s.parts }
def partOfId (x : Nat) : Nat := x / 1024

/-- The second-stage entry for a GPA (R314). -/
def State.s2find (s : State) (aid gpa : Nat) : Option S2Entry :=
  s.s2.find? fun e => e.aid == aid && e.die == gpaHome gpa && e.gran == gpaGran gpa

/-- The host-physical address behind an entry: die in bits 39:38 (R314, R320). -/
def S2Entry.hpa (e : S2Entry) (gpa : Nat) : Nat := e.die * 2 ^ 38 + e.frame * 2 ^ 16 + gpa % 2 ^ 16

/-- Line metadata (R321); at bring-up KEYID 0, no tag, PUB 0. -/
def State.metaOf (s : State) (hl : Nat) : LineMeta := (s.hbmMeta.find? fun m => m.line == hl).getD { line := hl }
def State.setMeta (s : State) (m : LineMeta) : State := { s with hbmMeta := upsert (fun x => x.line == m.line) m s.hbmMeta }

/-- The present generation of a key slot (R320). -/
def State.keyGen (s : State) (part : Nat) (key : BitVec 8) : Nat := assoc 0 key.toNat (s.part part).keygen

/-- The metadata that a fill of the line takes: none of another key id counts (R322, R323). -/
def State.backMeta (s : State) (aid gpa : Nat) : LineMeta :=
  if isHostGpa gpa then { line := 0 }
  else
    match s.s2find aid gpa with
    | none => { line := 0 }
    | some e =>
      let m := s.metaOf (e.hpa gpa / 128)
      if m.keyid = (s.ast aid).keyid then m else { line := m.line }

/-- A byte as a fill from HBM or from host memory gives it (R199, R322, R323). -/
def State.backByte (s : State) (aid gpa : Nat) : Byte :=
  if isHostGpa gpa then s.hostMem.get (gpaHost gpa * 2 ^ 64 + gpaBus gpa)
  else
    match s.s2find aid gpa with
    | none => 0
    | some e => if (s.metaOf (e.hpa gpa / 128)).keyid = (s.ast aid).keyid then s.hbm.get (e.hpa gpa) else 0

/-- The on-chip line, if any. -/
def State.chipLine (s : State) (line : Nat) : Option ChipLine := s.chipMeta.find? fun c => c.line == line
def State.onChip (s : State) (aid gpa : Nat) : Bool := (s.chipLine (lineOf aid gpa)).isSome

/-- The value of a byte for every party of the device (R239, R241, R242; log 8). -/
def State.readByte (s : State) (aid gpa : Nat) : Byte :=
  if s.onChip aid gpa then s.chip.get (byteOf aid gpa) else s.backByte aid gpa

/-- Tags and published bit of a line (R216, R219). -/
def State.lineTags (s : State) (aid gpa : Nat) : BitVec 16 :=
  match s.chipLine (lineOf aid gpa) with
  | some c => c.tags
  | none => (s.backMeta aid gpa).tags
def State.linePub (s : State) (aid gpa : Nat) : Bool :=
  match s.chipLine (lineOf aid gpa) with
  | some c => c.pub
  | none => (s.backMeta aid gpa).pub
def wordOfLine (gpa : Nat) : Nat := gpa % 128 / 8
def State.readTag (s : State) (aid gpa : Nat) : Bool := (s.lineTags aid gpa).getLsbD (wordOfLine gpa)

/-- The metadata word of a line (R321): TAGS, KEYID, PUB and ITAG (log 7). -/
def State.itagOf (s : State) (m : LineMeta) : BitVec 39 :=
  Config.itag (m.line * 128) m.keyid.toNat m.keygen m.pub m.tags (s.hbm.getAll (m.line * 128) 128) ^^^ m.flip
def State.metaWord (s : State) (hl : Nat) : BitVec 64 :=
  let m := s.metaOf hl
  m.tags ++ m.keyid ++ BitVec.ofBool m.pub ++ s.itagOf m

/-- What a fill raises (R315, R322): cause and STAGE. A line on the chip raises nothing; a host-backed line UNCORR when it is poisoned
(R342). -/
def State.fillFault (s : State) (aid gpa : Nat) (write : Bool) : Option (Cause × Bool) :=
  if s.onChip aid gpa then none
  else if isHostGpa gpa then (if s.dev.poisoned.contains (gpa % 2 ^ 52 / 128) then some (.uncorr, false) else none)
  else
    match s.s2find aid gpa with
    | none => some (.page, true)
    | some e =>
      if write && !e.w then some (.prot, true)
      else
        let m := s.metaOf (e.hpa gpa / 128)
        if m.uncorr then some (.uncorr, false)
        else if m.keyid = (s.ast aid).keyid ∧ (m.flip ≠ 0 ∨ m.keygen ≠ s.keyGen (partOfId aid) m.keyid) then
          some (.integrity, false)
        else none

/-- Bring a line onto the chip: its 128 bytes, tags and published bit (R322). -/
def State.fill (s : State) (aid gpa : Nat) : State :=
  if s.onChip aid gpa then s
  else
    let base := gpa % 2 ^ 52 / 128 * 128
    let m := s.backMeta aid gpa
    { s with
      chip := s.chip.setAll (byteOf aid base) ((List.range 128).map fun i => s.backByte aid (base + i))
      chipMeta := { line := lineOf aid gpa, tags := m.tags, pub := m.pub } :: s.chipMeta }

/-- Change the metadata of an on-chip line. -/
def State.onLine (s : State) (aid gpa : Nat) (f : ChipLine → ChipLine) : State :=
  { s with chipMeta := s.chipMeta.map fun c => if c.line == lineOf aid gpa then f c else c }

/-- Write one byte: the line is filled, the byte changes, the line is dirty and the tag of its word is cleared (R216). -/
def State.writeByte (s : State) (aid gpa : Nat) (b : Byte) : State :=
  let s1 := s.fill aid gpa
  { s1 with chip := s1.chip.set (byteOf aid gpa) b }.onLine aid gpa fun c =>
    { c with dirty := true, tags := c.tags &&& ~~~(1#16 <<< wordOfLine gpa), wrote := c.wrote ||| (1#128 <<< (gpa % 128)) }

def State.writeBytes (s : State) (aid gpa : Nat) : List Byte → State
  | [] => s
  | b :: bs => (s.writeByte aid gpa b).writeBytes aid (gpa + 1) bs

def State.readBytes (s : State) (aid gpa n : Nat) : List Byte := (List.range n).map fun i => s.readByte aid (gpa + i)
def State.read64 (s : State) (aid gpa : Nat) : Nat := leVal (s.readBytes aid gpa 8)

/-- Set the tag of a word, and the published bit of a line; host-backed memory keeps no tags (R216). -/
def State.setTag (s : State) (aid gpa : Nat) : State :=
  if isHostGpa gpa then s
  else (s.fill aid gpa).onLine aid gpa fun c => { c with dirty := true, tags := c.tags ||| (1#16 <<< wordOfLine gpa) }
def State.setPub (s : State) (aid gpa : Nat) (p : Bool) : State :=
  (s.fill aid gpa).onLine aid gpa fun c => { c with dirty := true, pub := p }

/-- Mapped stash lines leave the directory with the lines of their cores (`p core line`): each keeps its last value as plain stash,
and the next access fills it again (R208, R209). -/
def State.unfill (s : State) (p : Nat → Nat → Bool) : State :=
  { s with teams := s.teams.map fun (t : Team) =>
      let out (f : Nat × Nat × Nat) : Bool := p t.core (lineOf f.2.1 f.2.2)
      let gone := t.maps.flatMap fun m => m.filled.filter out
      { t with stash := gone.foldl (fun (m : Memory) f => m.setAll (128 * f.1) (s.readBytes f.2.1 f.2.2 128)) t.stash
               maps := t.maps.map fun m => { m with filled := m.filled.filter fun f => !out f } } }

/-- Take a line off the chip without writing it back, with its directory state (R324 step 1). -/
def State.dropLine (s0 : State) (line : Nat) : State :=
  if (s0.chipLine line).isSome then
    let s := s0.unfill fun _ l => l == line
    { s with chip := s.chip.setAll (line * 128) (List.replicate 128 0)
             chipMeta := s.chipMeta.filter fun c => c.line != line
             l1 := s.l1.filter fun c => c.line != line
             dir := s.dir.filter fun e => e.line != line }
  else s0

/-- A RAS entry of a partition (R389). -/
def State.ras (s : State) (part : Nat) (code : BitVec 16) (die : Nat) (info : Word) (addr : DWord) : State :=
  let p := s.part part
  let e : Ras := { seq := p.rashead, code, die, info, time := s.time, addr }
  s.setPart { p with ras := (if p.ras.length < 4096 then p.ras else p.ras.drop 1) ++ [e], rashead := p.rashead + 1 }

/-- An event whose INFO the spec does not give. -/
def State.rasFree (s : State) (part : Nat) (code : BitVec 16) (die : Nat) (addr : DWord) : State :=
  s.ras part code die (Config.rasInfo code.toNat s.free) addr

/-- Write a dirty line back to HBM under the address space's key, or its written bytes to host memory (R315, R322, R199). -/
def State.writeBack (s : State) (line : Nat) : State :=
  match s.chipLine line with
  | none => s
  | some c =>
    if !c.dirty then s
    else
      let aid := lineAid line
      let gpa := lineGpa line
      let bs := s.chip.getAll (line * 128) 128
      if isHostGpa gpa then
        { s with undurable := if s.undurable.any (fun p => p.1 == line) then s.undurable
                   else s.undurable ++ [(line, s.hostMem.getAll (gpaHost gpa * 2 ^ 64 + gpaBus gpa) 128)]
                 hostMem := (List.range 128).foldl (fun (m : Memory) n =>
                   if c.wrote.getLsbD n then m.set (gpaHost gpa * 2 ^ 64 + gpaBus gpa + n) (bs.getD n 0) else m) s.hostMem
                 chipMeta := s.chipMeta.map fun (x : ChipLine) => if x.line == line then { x with dirty := false, wrote := 0 } else x }
      else
        match s.s2find aid gpa with
        | none => (s.dropLine line).rasFree (partOfId aid) 0x0004 (gpaHome gpa) (BitVec.ofNat 64 gpa)
        | some e =>
          let key := (s.ast aid).keyid
          let s1 := { s with hbm := s.hbm.setAll (e.hpa gpa) bs
                             chipMeta := s.chipMeta.map fun (x : ChipLine) => if x.line == line then { x with dirty := false } else x }
          s1.setMeta { line := e.hpa gpa / 128, tags := c.tags, keyid := key, keygen := s.keyGen (partOfId aid) key, pub := c.pub }

/-- A byte of a host's memory as its persistence domain holds it (R252): what has been written since without a release at .pers has
not reached it. -/
def State.durable (s : State) (host bus : Nat) : Byte :=
  match s.undurable.find? fun p => gpaHost (lineGpa p.1) == host && gpaBus (lineGpa p.1) == bus / 128 * 128 with
  | some p => p.2.getD (bus % 128) 0
  | none => s.hostMem.get (host * 2 ^ 64 + bus)

/-- Write a line back and take it off the chip. -/
def State.evict (s : State) (line : Nat) : State := (s.writeBack line).dropLine line

/-! ## Locations -/

/-- A team by id, and its update. -/
def State.team (s : State) (tid : Nat) : Option Team := s.teams.find? fun t => t.tid == tid
def State.setTeam (s : State) (t : Team) : State :=
  { s with teams := s.teams.map fun u => if u.tid == t.tid then t else u }

/-- Read and write the byte at a location. -/
def State.readLoc (s : State) : Loc → Byte
  | .glob aid gpa => s.readByte aid gpa
  | .stash tid off => match s.team tid with | some t => t.stash.get off | none => 0
  | .peer id addr => s.peerMem.get (id * 2 ^ 52 + addr)
def State.writeLoc (s : State) (l : Loc) (b : Byte) : State :=
  match l with
  | .glob aid gpa => s.writeByte aid gpa b
  | .stash tid off => match s.team tid with | some t => s.setTeam { t with stash := t.stash.set off b } | none => s
  | .peer id addr => { s with peerMem := s.peerMem.set (id * 2 ^ 52 + addr) b }

def State.writeLocs (s : State) : List (Loc × Byte) → State
  | [] => s
  | (l, b) :: t => (s.writeLoc l b).writeLocs t
def State.readLocs (s : State) (ls : List Loc) : List Byte := ls.map s.readLoc

/-- The tag of the word a location lies in (R216). -/
def State.tagLoc (s : State) : Loc → Bool
  | .glob aid gpa => if isHostGpa gpa then false else s.readTag aid gpa
  | _ => false
def State.setTagLoc (s : State) : Loc → State
  | .glob aid gpa => s.setTag aid gpa
  | _ => s

end Sys2Proof.Machine
end

