-- ==== Sys2Proof/Machine/Xlate.lean ====
section
/-! DEFINITION. The first stage: walks, leaves, checks, table changes, frame pool (R307-R313, R318, R319). -/

namespace Sys2Proof.Machine

/-- A leaf as translation uses it (R309, R310): GPA of the page, its size, permissions, KIND, OWNER or PEERID, LOST, CONT. -/
structure Leaf where
  base : Nat
  size : Nat
  gpa  : Nat
  r    : Bool
  w    : Bool
  x    : Bool
  kind : Nat
  own  : Nat
  lost : Bool
  cont : Bool
  deriving DecidableEq, Repr

/-- The end of a walk: a leaf, an invalid entry, a malformed entry, or a fault in reading a table. -/
inductive Walked where
  | leaf (l : Leaf)
  | invalid
  | malformed
  | tableFault (c : Cause) (stage : Bool) (gpa : Nat)
  deriving DecidableEq, Repr

/-- The page size of a leaf at a level (R308). -/
def levelSize (lvl : Nat) : Nat := 2 ^ (12 + 9 * lvl)
/-- The index of a level (R308). -/
def levelIndex (lvl va : Nat) : Nat := if lvl = 4 then va / 2 ^ 48 % 256 else va / 2 ^ (12 + 9 * lvl) % 512

/-- Fields of an entry (R309). -/
def eAddr (e : Nat) : Nat := bitsOf e 12 40 * 4096
def eBit (e n : Nat) : Bool := bitsOf e n 1 == 1
def eKind (e : Nat) : Nat := bitsOf e 6 2

/-- A table entry: VALID, LEAF 0, a device-form ADDR, every other field zero (R309). -/
def tableOk (e : Nat) : Bool := bitsOf e 1 11 == 0 && bitsOf e 52 12 == 0 && okDeviceGpa (eAddr e)

/-- The reserved fields of a leaf by KIND, and CONT only at level 0 (R309, R310). -/
def leafOk (lvl e : Nat) : Bool :=
  lvl ≤ 2 && (lvl == 0 || !eBit e 5) &&
    (match eKind e with
     | 0 => bitsOf e 53 11 == 0 && bitsOf e 8 4 == 0
     | 1 => bitsOf e 8 4 == 0
     | 2 => true
     | _ => bitsOf e 8 4 == 0 && bitsOf e 52 12 == 0 && eAddr e == 0)

def leafOf (lvl va e : Nat) : Leaf :=
  let cont := lvl == 0 && eBit e 5
  let size := if cont then 65536 else levelSize lvl
  { base := va / size * size, size, gpa := eAddr e / size * size, r := eBit e 2, w := eBit e 3, x := eBit e 4,
    kind := eKind e, own := if eKind e = 1 then bitsOf e 52 12 else bitsOf e 52 12 * 16 + bitsOf e 8 4, lost := eKind e == 0 && eBit e 52, cont }

/-- The 16 entries of a CONT run agree in all but ADDR bits 15:12, and the run maps an aligned 64 KiB page (R310). -/
def State.contOk (s : State) (aid table idx e : Nat) : Bool :=
  (List.range 16).all fun i =>
    let x := s.read64 aid (table + 8 * (idx / 16 * 16 + i))
    x / 2 ^ 16 == e / 2 ^ 16 && x % 4096 == e % 4096 && (eKind e == 3 || bitsOf x 12 4 == i)

/-- A device-form GPA with its HOME in the partition (R307). -/
def State.okHome (s : State) (aid gpa : Nat) : Bool := okDeviceGpa gpa && (s.part (partOfId aid)).dies.contains (gpaHome gpa)

/-- The walk from a level's table downwards (R308, R310): VALID 0 gives PAGE, a malformed valid entry PROT. -/
def State.walkFrom (s : State) (aid va : Nat) : Nat → Nat → Walked
  | 0, table =>
    match s.fillFault aid (table + 8 * levelIndex 0 va) false with
    | some (c, st) => .tableFault c st (table + 8 * levelIndex 0 va)
    | none =>
      let e := s.read64 aid (table + 8 * levelIndex 0 va)
      if !eBit e 0 then .invalid
      else if !eBit e 1 || !leafOk 0 e then .malformed
      else if eBit e 5 && !s.contOk aid table (levelIndex 0 va) e then .malformed
      else .leaf (leafOf 0 va e)
  | lvl + 1, table =>
    match s.fillFault aid (table + 8 * levelIndex (lvl + 1) va) false with
    | some (c, st) => .tableFault c st (table + 8 * levelIndex (lvl + 1) va)
    | none =>
      let e := s.read64 aid (table + 8 * levelIndex (lvl + 1) va)
      if !eBit e 0 then .invalid
      else if eBit e 1 then (if leafOk (lvl + 1) e then .leaf (leafOf (lvl + 1) va e) else .malformed)
      else if tableOk e && s.okHome aid (eAddr e) then s.walkFrom aid va lvl (eAddr e)
      else .malformed

/-- The walk from TTROOT, which must be a device-form GPA with its HOME in the partition (R307, R318). -/
def State.walkVa (s : State) (aid va : Nat) : Walked :=
  let root := (s.ast aid).ttroot * 4096
  if s.okHome aid root then s.walkFrom aid va 4 root else .malformed

/-- The TLB entry of a core for an address (R311). -/
def State.tlbFind (s : State) (core aid va : Nat) : Option TlbEntry :=
  s.tlb.find? fun e => e.core == core && e.aid == aid && decide (e.va ≤ va) && decide (va < e.va + e.size)

def TlbEntry.leaf (e : TlbEntry) : Leaf :=
  { base := e.va, size := e.size, gpa := e.gpa, r := e.r, w := e.w, x := e.x, kind := e.kind, own := e.high,
    lost := e.lost, cont := e.size == 65536 }

/-- The kinds of access (R310). -/
inductive Acc where
  | rd | wr | at | ex
  deriving DecidableEq, Repr

def Acc.writes : Acc → Bool
  | .wr | .at => true
  | _ => false

/-- Who accesses: core, context, its address space, the team's OWNER value (R309), whether it is the remote side of
RGET or RPUT (R310), whether the private check is skipped (R225, R237), whether INTEGRITY and UNCORR are found later, when the data
returns or the store reaches its home (R112), and whether the tables are walked as in hardware mode, as arena pages are (R313). -/
structure Who where
  core   : Nat
  cid    : Nat
  aid    : Nat
  owner  : Nat
  remote : Bool := false
  noPriv : Bool := false
  late   : Bool := false
  hw     : Bool := false
  deriving DecidableEq, Repr

/-- What translation answers: a place, a fault with STAGE, or a device service to wait for. -/
inductive XRes where
  | ok (l : Loc)
  | bad (c : Cause) (stage : Bool)
  | wait (e : Option Ev)
  deriving DecidableEq, Repr

/-- The first stage's pool holds a granule: a table given back (R312), or an entry of the ring (R319). -/
def Ast.poolHas (a : Ast) : Bool := !a.freeTabs.isEmpty || (a.poolLog2 != 0 && !a.poolErr && a.poolRd != a.poolWr)

/-- Host h has a live port (R368). -/
def State.hostLive (s : State) (h : Nat) : Bool :=
  (List.range 8).any fun p => s.dev.boot.ports.getD p none == some h && s.dev.portUp.getD p false

/-- Nirus Link can carry a transfer of a partition: one of its ports has link (R203, R382). -/
def State.peerLink (s : State) (part : Nat) : Bool :=
  (s.part part).dies.any fun d => (List.range 3).any fun i => s.dev.nirusUp.getD (3 * d + i) false


/-- A line of an object whose header a walk in progress has published (R233): the private check no longer applies to it. -/
def State.walkedPub (s : State) (aid va : Nat) : Bool :=
  s.walks.any fun w => match w.obj with
    | some (base, n, l) => w.aid == aid && decide (1 ≤ l) && decide (base ≤ va) && decide (va < base + 128 * n)
    | none => false

/-- A context by id, reading as FREE when none is held (R290). -/
def State.ctx (s : State) (cid : Nat) : Context := (s.contexts.find? fun c => c.cid == cid).getD { cid }
def State.setCtx (s : State) (c : Context) : State := { s with contexts := upsert (fun d => d.cid == c.cid) c s.contexts }

def Leaf.permits (l : Leaf) : Acc → Bool
  | .rd => l.r
  | .wr | .at => l.w
  | .ex => l.x

/-- The checks at a leaf: permission, KIND, GPA form, then second stage, fill and privacy (R307, R310, R172, R315,
R219, R327, R328). -/
def State.checkLeaf (s : State) (w : Who) (va : Nat) (a : Acc) (l : Leaf) : XRes :=
  let gpa := l.gpa + (va - l.base)
  let ast := s.ast w.aid
  if !l.permits a then .bad .prot false
  else if !okDeviceGpa gpa && !isHostGpa gpa then .bad .prot false
  else if l.kind = 1 then
    if w.remote then .ok (.peer l.own gpa)
    else if !ast.fserv && ast.poolHas && l.cont && s.peerLink (partOfId w.aid) then .wait (some (.migration w.cid (BitVec.ofNat 64 l.base)))
    else .bad .remote false
  else if l.kind = 3 then
    if !ast.fserv && ast.poolHas && l.cont then .wait (some (.demandFill w.cid (BitVec.ofNat 64 l.base))) else .bad .page false
  else if isHostGpa gpa then
    if l.kind = 0 && (l.lost || !s.hostLive (gpaHost gpa)) then .bad .hostlost false else .ok (.glob w.aid gpa)
  else if !s.okHome w.aid gpa then .bad .prot false
  else
    let private_ := l.kind == 2 && !w.noPriv && l.own != w.owner && !s.linePub w.aid gpa && !s.walkedPub w.aid va
    match s.fillFault w.aid gpa a.writes with
    | some (c, st) =>
      if w.late && (c == .integrity || c == .uncorr) then (if private_ then .bad .privLine false else .ok (.glob w.aid gpa)) else .bad c st
    | none => if private_ then .bad .privLine false else .ok (.glob w.aid gpa)

/-- Translate one address (R110, R198, R310, R311, R313): bits 63:56 first, the TLB, then the walk; arena pages exist only in the
device's tables. -/
def State.xlate (s : State) (w : Who) (va : Nat) (a : Acc) : XRes :=
  if va / 2 ^ 56 ≠ 0 then .bad .page false
  else
    match (if w.hw then none else s.tlbFind w.core w.aid va) with
    | some e => s.checkLeaf w va a e.leaf
    | none =>
      match s.walkVa w.aid va with
      | .leaf l => s.checkLeaf w va a l
      | .malformed => .bad .prot false
      | .tableFault c st _ => .bad c st
      | .invalid =>
        if !w.hw && (s.ast w.aid).walk && (s.ctx w.cid).primary ≠ 8 then
          match s.ats.find? fun q => q.2.1 == w.core && q.2.2.1 == w.cid && q.2.2.2.toNat / 4096 == va / 4096 with
          | some q => if q.1 == 0 then .bad .page false else .wait none
          | none => .wait (some (.pageWalk w.core w.cid (BitVec.ofNat 64 va)))
        else .bad .page false

/-- The place k bytes further on in the same line or window. -/
def Loc.plus (l : Loc) (k : Nat) : Loc :=
  match l with
  | .glob aid gpa => .glob aid (gpa + k)
  | .stash t o => .stash t (o + k)
  | .peer i a => .peer i (a + k)

/-- The places of n bytes from va, translated once for each distinct line (R167, R311). -/
def State.places (s : State) (w : Who) (va n : Nat) (a : Acc) : Except (XRes × Nat) (List Loc) :=
  let first := min n (128 - va % 128)
  match s.xlate w va a with
  | .ok l =>
    if n ≤ first then .ok ((List.range n).map l.plus)
    else
      match s.xlate w (va + first) a with
      | .ok l2 => .ok ((List.range first).map l.plus ++ (List.range (n - first)).map l2.plus)
      | r => .error (r, va + first)
  | r => .error (r, va)

/-! ## Changes of first-stage tables (R312) -/

/-- Write an 8-byte entry of a table. -/
def State.writeEntry (s : State) (aid gpa e : Nat) : State := s.writeBytes aid gpa (leBytes 8 e)

/-- Drop TLB entries of an address space that overlap a range, on every core (R312). -/
def State.tlbDrop (s : State) (aid va len : Nat) : State :=
  { s with tlb := s.tlb.filter fun e => !(e.aid == aid && decide (e.va < va + len) && decide (va < e.va + e.size)) }

/-- Make a granule read zero (R319, R323): its lines leave the chip and its frame's metadata takes KEYID 0. -/
def State.zeroGranule (s : State) (aid gpa : Nat) : State :=
  let base := gpa / 65536 * 65536
  let inGran := fun (c : ChipLine) => lineAid c.line == aid && lineGpa c.line / 65536 * 65536 == base
  let s1 := s.chipMeta.foldl (fun t c => if inGran c then t.dropLine c.line else t) s
  match s1.s2find aid base with
  | none => s1
  | some e => { s1 with hbmMeta := s1.hbmMeta.filter fun m => m.line / 512 != e.hpa base / 65536 }

/-- Take a granule from the frame pool: first a table given back, then the ring; unusable entries are consumed and
logged as POOL_BAD (R319). At most `fuel` entries are tried. -/
def State.poolTake (s : State) (aid : Nat) : Nat → State × Option Nat
  | 0 => (s, none)
  | fuel + 1 =>
    let a := s.ast aid
    match a.freeTabs with
    | g :: rest => ((s.setAst { a with freeTabs := rest }).zeroGranule aid g, some g)
    | [] =>
      if !a.poolHas then (s, none)
      else
        let cap := 2 ^ a.poolLog2 / 8
        let e := s.read64 aid (a.poolBase * 65536 + 8 * (a.poolRd.toNat % cap))
        let s1 := s.setAst { a with poolRd := a.poolRd + 1 }
        if e % 65536 == 0 && okDeviceGpa e && (s1.s2find aid e).isSome then (s1.zeroGranule aid e, some e)
        else (s1.rasFree (partOfId aid) 0x0005 15 (BitVec.ofNat 64 e)).poolTake aid fuel

/-- Enough tries for any pool: the ring's capacity is at most 2^26 / 8 entries, and the walk needs at most 4 tables. -/
def State.poolFuel (s : State) (aid : Nat) : Nat := ((s.ast aid).poolWr - (s.ast aid).poolRd).toNat + (s.ast aid).freeTabs.length + 1

/-- A draw has failed: what the change had taken goes back to the pool, and the unusable entries of the ring have been consumed and
logged (R312, R319). -/
def State.poolFail (s : State) (aid : Nat) : Nat → State
  | 0 => s
  | n + 1 =>
    match s.poolTake aid (s.poolFuel aid) with
    | (s1, none) => s1
    | (s1, some g) =>
      let t := s1.poolFail aid n
      let a := t.ast aid
      t.setAst { a with freeTabs := g :: a.freeTabs }
def State.poolFailed (s : State) (aid : Nat) : State := s.poolFail aid (s.poolFuel aid)

/-- A larger leaf split into the 512 leaves of the next level (R312). -/
def splitLeaf (lvl e : Nat) : List Nat :=
  (List.range 512).map fun i => e + i * levelSize (lvl - 1)

/-- Install a leaf entry at a level for one address, making the tables it needs; none when the pool is empty. -/
def State.putLeaf (s : State) (aid va lvl entry : Nat) : Nat → Nat → Option State
  | 0, table => some (s.writeEntry aid (table + 8 * levelIndex 0 va) entry)
  | cur + 1, table =>
    let slot := table + 8 * levelIndex (cur + 1) va
    if cur + 1 = lvl then some (s.writeEntry aid slot entry)
    else
      let e := s.read64 aid slot
      if eBit e 0 && !eBit e 1 then s.putLeaf aid va lvl entry cur (eAddr e)
      else
        match s.poolTake aid (s.poolFuel aid) with
        | (_, none) => none
        | (s1, some g) =>
          let s2 := if eBit e 0 && eBit e 1 then s1.writeBytes aid g ((splitLeaf (cur + 1) e).flatMap (leBytes 8)) else s1
          (s2.writeEntry aid slot (g + 1)).putLeaf aid va lvl entry cur g

def State.setLeaf (s : State) (aid va lvl entry : Nat) : Option State := s.putLeaf aid va lvl entry 4 ((s.ast aid).ttroot * 4096)

/-- The largest page size that base, target and length allow (R312): level and size; 64 KiB is a CONT run. -/
def pageFor (va target len : Nat) : Nat × Nat × Bool :=
  if va % 2 ^ 30 = 0 ∧ target % 2 ^ 30 = 0 ∧ 2 ^ 30 ≤ len then (2, 2 ^ 30, false)
  else if va % 2 ^ 21 = 0 ∧ target % 2 ^ 21 = 0 ∧ 2 ^ 21 ≤ len then (1, 2 ^ 21, false)
  else if va % 65536 = 0 ∧ target % 65536 = 0 ∧ 65536 ≤ len then (0, 65536, true)
  else (0, 4096, false)

/-- KIND 0 leaf bits (R309). -/
def leafBits (r w x cont lost : Bool) (gpa : Nat) : Nat :=
  gpa + 3 + 4 * b2n r + 8 * b2n w + 16 * b2n x + 32 * b2n cont + 2 ^ 52 * b2n lost

/-- Install the leaves of a range (R312); `fuel` bounds the number of pages. -/
def State.mapRange (s : State) (aid : Nat) (r w x : Bool) : Nat → Nat → Nat → Nat → Option State
  | 0, _, _, _ => some s
  | fuel + 1, va, target, len =>
    if len = 0 then some s
    else
      match pageFor va target len with
      | (lvl, size, cont) =>
        let one (t : Option State) (i : Nat) : Option State :=
          t.bind fun u => u.setLeaf aid (va + 4096 * i) 0 (leafBits r w x true false (target + 4096 * i))
        let s1 := if cont then (List.range 16).foldl one (some s)
          else s.setLeaf aid va lvl (leafBits r w x false false target)
        match s1 with
        | none => none
        | some t => t.mapRange aid r w x fuel (va + size) (target + size) (len - size)

/-- The entry slot that maps an address: its place, level and value. -/
def State.slotOf (s : State) (aid va : Nat) : Nat → Nat → Option (Nat × Nat × Nat)
  | 0, table =>
    let e := s.read64 aid (table + 8 * levelIndex 0 va)
    if eBit e 0 then some (table + 8 * levelIndex 0 va, 0, e) else none
  | lvl + 1, table =>
    let slot := table + 8 * levelIndex (lvl + 1) va
    let e := s.read64 aid slot
    if !eBit e 0 then none else if eBit e 1 then some (slot, lvl + 1, e) else s.slotOf aid va lvl (eAddr e)
def State.leafSlot (s : State) (aid va : Nat) : Option (Nat × Nat × Nat) := s.slotOf aid va 4 ((s.ast aid).ttroot * 4096)

/-- Rewrite the 16 leaves of the CONT run that an entry lies in (R309). -/
def State.editRun (s : State) (aid slot : Nat) (f : Nat → Nat) : State :=
  (List.range 16).foldl (fun (t : State) i =>
    let a := slot / 128 * 128 + 8 * i
    t.writeEntry aid a (f (t.read64 aid a))) s

/-- Rewrite the leaves that map a range, page by page, splitting a larger leaf or a CONT run that the range covers in
part (R312). -/
def State.editRange (s : State) (aid : Nat) (f : Nat → Nat) : Nat → Nat → Nat → State
  | 0, _, _ => s
  | fuel + 1, va, len =>
    if len = 0 then s
    else
      match s.leafSlot aid va with
      | none => s.editRange aid f fuel (va + 4096) (len - 4096)
      | some (slot, lvl, e) =>
        if lvl = 0 ∧ eBit e 5 then
          if va % 65536 = 0 ∧ 65536 ≤ len then (s.editRun aid slot f).editRange aid f fuel (va + 65536) (len - 65536)
          else (s.editRun aid slot fun x => x - 32 * b2n (eBit x 5)).editRange aid f fuel va len
        else if va % levelSize lvl = 0 ∧ levelSize lvl ≤ len then
          (s.writeEntry aid slot (f e)).editRange aid f fuel (va + levelSize lvl) (len - levelSize lvl)
        else
          match lvl with
          | 0 => s.editRange aid f fuel (va + 4096) (len - 4096)
          | l + 1 =>
            match s.poolTake aid (s.poolFuel aid) with
            | (s1, none) => s1.editRange aid f fuel (va + 4096) (len - 4096)
            | (s1, some g) =>
              ((s1.writeBytes aid g ((splitLeaf (l + 1) e).flatMap (leBytes 8))).writeEntry aid slot (g + 1)).editRange aid f
                fuel va len

/-- Set KIND and OWNER of an arena leaf (R309, R312). -/
def asArena (owner e : Nat) : Nat :=
  e % 64 + 2 * 64 + owner % 16 * 256 + bitsOf e 12 40 * 4096 + owner / 16 * 2 ^ 52

/-- After a range is cleared, a table all of whose entries are invalid goes back to the pool (R312). -/
def State.freeTables (s : State) (aid va : Nat) : Nat → Nat → State
  | 0, _ => s
  | lvl + 1, table =>
    let slot := table + 8 * levelIndex (lvl + 1) va
    let e := s.read64 aid slot
    if eBit e 0 && !eBit e 1 then
      let s1 := s.freeTables aid va lvl (eAddr e)
      let empty := (List.range 512).all fun i => s1.readByte aid (eAddr e + 8 * i) &&& 1 == 0
      if empty then
        let a := s1.ast aid
        (s1.writeEntry aid slot 0).setAst { a with freeTabs := eAddr e :: a.freeTabs }
      else s1
    else s

/-- Clear the leaves of a range and drop its TLB entries (R312). -/
def State.unmapRange (s : State) (aid va len : Nat) : State :=
  let s1 := (s.editRange aid (fun _ => 0) (2 * (len / 4096) + 8) va len).tlbDrop aid va len
  (List.range (len / 2097152 + 2)).foldl (fun t i => t.freeTables aid (va + 2097152 * i) 4 ((t.ast aid).ttroot * 4096)) s1

end Sys2Proof.Machine
end

