-- ==== Sys2Proof/Machine/Dir.lean ====
section
/-! DEFINITION. L1 states, die directory and region directory entries, homes of lines, what an access asks of the directories, and what
a die does with its lines (R329-R333, R335, R341; log 8). -/

namespace Sys2Proof.Machine

/-! ## Messages and homes -/

/-- Raise a device event, once (95). -/
def State.post (s : State) (e : Ev) : State := if s.work.contains e then s else { s with work := s.work ++ [e] }
def State.posts (s : State) (es : List Ev) : State := es.foldl (fun t e => t.post e) s
/-- A request that waits keeps its place before those that came later (R337). -/
def State.repost (s : State) (e : Ev) : State := if s.work.contains e then s else { s with work := e :: s.work }

/-- The die whose port reaches a host (R329, R368). -/
def State.hostDie (s : State) (h : Nat) : Nat := (((List.range 8).find? fun p => s.dev.boot.ports.getD p none == some h).getD 0) / 2
/-- The home die of a line (R329). -/
def State.lineHome (s : State) (line : Nat) : Nat :=
  let gpa := lineGpa line
  if isHostGpa gpa then s.hostDie (gpaHost gpa) else gpaHome gpa

/-- The L2 slice of a line (R329). -/
def sliceOf (gpa : Nat) : Nat :=
  let group := gpa / 2048
  Nat.xor (Nat.xor (bitsOf group 0 16) (bitsOf group 16 16)) (bitsOf group 32 9) % 192

/-- The quad of a core on its die (R330): the mesh of a die is 12 wide. -/
def quadOf (core : Nat) : Nat := core % 96 / 12 / 2 * 6 + core % 96 % 12 / 2

/-! ## L1 lines and directory entries -/

def State.l1St (s : State) (core line : Nat) : LState :=
  match s.l1.find? fun x => x.core == core && x.line == line with
  | some x => x.st
  | none => .I
/-- Lines leave the L1 of their core, a mapped stash line with them (R208). -/
def State.dropL1 (s : State) (p : L1Line → Bool) : State :=
  let out := s.l1.filter p
  { (s.unfill fun core line => out.any fun x => x.core == core && x.line == line) with l1 := s.l1.filter fun x => !p x }
def State.setL1 (s : State) (core line : Nat) (st : LState) : State :=
  if st == .I then s.dropL1 fun x => x.core == core && x.line == line
  else { s with l1 := { core, line, st } :: s.l1.filter fun x => !(x.core == core && x.line == line) }

/-- The die directory's entry for a line; none held reads as its reset value (R330). -/
def State.dirOf (s : State) (die line : Nat) : DirEntry := (s.dir.find? fun e => e.die == die && e.line == line).getD { die, line }
def State.setDir (s : State) (e : DirEntry) : State :=
  let rest := s.dir.filter fun x => !(x.die == e.die && x.line == e.line)
  { s with dir := if e.st == .I && e.gst == .I && !e.l2 then rest else e :: rest }

def DirEntry.share (e : DirEntry) (core : Nat) : DirEntry := { e with shares := e.shares ||| (1#24 <<< quadOf core) }
/-- The owner gives the line up: the entry is S when a quad may hold it, I otherwise. -/
def DirEntry.disown (e : DirEntry) : DirEntry := { e with st := if e.shares == 0 then .I else .S, owner := 127 }
def ownsDirty (st : LState) : Bool := st == .M || st == .O

/-! ## Room (R3, R317, R330, R332) -/

/-- The element of a list that a free choice picks. -/
def State.pickOf {α : Type} (s : State) (domain : Nat) (l : List α) : Option α :=
  match l with
  | [] => none
  | _ => l[Config.choice domain s.free % l.length]?

/-- A mapped stash line of a core takes no room in its L1 (R208). -/
def State.mappedAt (s : State) (core line : Nat) : Bool :=
  s.teams.any fun t => t.core == core && t.maps.any fun m => m.filled.any fun f => lineOf f.2.1 f.2.2 == line

/-- A full L1 gives up a line (R331): S, E and a clean P silently; an O or M line must first go as PUTD, a dirty P line as WBP. An
L1 holds 6,144 lines. -/
def State.l1Room (s : State) (core line : Nat) : Except Ev State :=
  let mine := s.l1.filter fun x => x.core == core && !s.mappedAt core x.line
  if mine.length < 6144 || mine.any (fun x => x.line == line) then .ok s
  else
    match s.pickOf 6 mine with
    | none => .ok s
    | some v =>
      let dirty := match s.chipLine v.line with | some c => c.dirty | none => false
      if ownsDirty v.st then .error (.putd core v.line)
      else if v.st == .P && dirty then .error (.wbp core v.line)
      else .ok (s.setL1 core v.line .I)

/-! ## What an access asks for -/

/-- The line lies in an arena page and is not published, nor is its object by a walk in progress (R219, R233, R341). -/
def State.privateAt (s : State) (w : Who) (va gpa : Nat) : Bool :=
  match s.walkVa w.aid va with
  | .leaf l => l.kind == 2 && !s.linePub w.aid gpa && !s.walkedPub w.aid va
  | _ => false

/-- A private line comes into its owner's L1 untracked (R341). -/
def State.takeP (s : State) (core line : Nat) : Except Ev State := (s.l1Room core line).map fun t => t.setL1 core line .P

/-- A load of a core at a line of its L1 (R331, R341): a hit, an untracked private line, or a request to the slice. -/
def State.want (s : State) (w : Who) (va : Nat) (l : Option Loc) : State :=
  match l with
  | some (.glob aid gpa) =>
    let line := lineOf aid gpa
    if decide (384 ≤ w.core) || s.l1St w.core line != .I then s
    else if s.privateAt w va gpa then (match s.takeP w.core line with | .ok t => t | .error e => s.post e)
    else s.post (.gets w.core line)
  | _ => s

/-- A store, or an atomic of the L1, needs its line in state M, or untracked as the owner's (R331, R341): the state in which it
may be written, or what the core asks for first. -/
def State.own (s : State) (w : Who) (va : Nat) (l : Option Loc) : Except Ev State :=
  match l with
  | some (.glob aid gpa) =>
    let line := lineOf aid gpa
    match s.l1St w.core line with
    | .M | .P => .ok s
    | .E => .ok (s.setL1 w.core line .M)
    | st =>
      if 384 ≤ w.core then .ok s
      else if s.privateAt w va gpa then s.takeP w.core line
      else .error (if st == .I then .getx w.core line else .upgr w.core line)
  | _ => .ok s

/-- The core of an access has the line of a place in its L1 (R331); what is no coherent memory, and what no core accesses, needs none. -/
def State.inCache (s : State) (w : Who) (l : Loc) : Bool :=
  match l with
  | .glob aid gpa => decide (384 ≤ w.core) || s.l1St w.core (lineOf aid gpa) != .I
  | _ => true
/-- What a core reads comes to its L1 first: places with their addresses. -/
def State.wantAll (s : State) (w : Who) (ps : List (Nat × Loc)) : State := ps.foldl (fun (u : State) p => u.want w p.1 (some p.2)) s

/-- The request of a die to a home that is on its way or under way. -/
def State.asking (s : State) (die line : Nat) : Bool := s.txns.any fun t => t.line == line && t.asker == die

/-- The walk has written a line back to the level of its scope (R231, R341): the slice holds the data, the home too when the scope is
wider than the die, and the L1 that had it as M keeps the line as E. -/
def State.cleanL1 (s : State) (line rank : Nat) : State :=
  let s1 := match s.l1.find? fun x => x.line == line && x.st == .M with
    | some x => (s.setL1 x.core line .E).setDir { s.dirOf (dieOf x.core) line with st := .E, l2 := true }
    | none => s
  if 3 < rank then s1.writeBack line else s1

/-- Lines leave every L1 and the die directories (R340). -/
def State.untrack (s : State) (p : Nat → Bool) : State :=
  let t := s.dropL1 fun x => p x.line
  { t with dir := t.dir.filter fun x => !p x.line }

/-- The lines of some places. -/
def linesOf (ls : List Loc) : List Nat := (ls.filterMap fun l => match l with | .glob aid gpa => some (lineOf aid gpa) | _ => none).eraseDups
/-- A write that goes past the L1s (copies, frames and results of rungs, the device itself, peers): every copy of its lines in an L1 or a
die is invalidated with it, and the bytes are written at the homes (R201, R242, R338; log 8). -/
def State.storeAway (s : State) (ps : List (Loc × Byte)) : State :=
  (s.untrack (linesOf (ps.map fun p => p.1)).contains).writeLocs ps

/-- The core is the last of its quad to hold a line: the slice's SHARERS bit falls with it (R209, R330). -/
def State.unshare (s : State) (core line : Nat) : State :=
  let e := s.dirOf (dieOf core) line
  let more := s.l1.any fun x => x.line == line && x.core != core && dieOf x.core == dieOf core && quadOf x.core == quadOf core
  let e1 := if more then e else { e with shares := e.shares &&& ~~~(1#24 <<< quadOf core) }
  s.setDir (if e1.st == .S && e1.shares == 0 then e1.disown else e1)

/-- A line of a core leaves its L1 as its state asks (R331), and the directory knows of it (R209): L2 takes the data of O and M, and a
dirty private line goes to HBM. -/
def State.leaveL1 (s : State) (core line : Nat) : State :=
  let e := s.dirOf (dieOf core) line
  match s.l1St core line with
  | .M | .O => (s.setL1 core line .I).setDir { e.disown with l2 := true }
  | .E => (s.setL1 core line .I).setDir e.disown
  | .S => (s.unshare core line).setL1 core line .I
  | .P => (s.setL1 core line .I).evict line
  | .I => s

/-- Private copies that a walk leaves without a line step of theirs go to HBM (R231, R236). -/
def State.flushP (s : State) (line : Nat) : State :=
  match s.l1.find? fun x => x.line == line && x.st == .P with
  | some x => s.leaveL1 x.core line
  | none => s

/-! ## At the die (R331, R332, R335) -/

def coreOf (die owner : Nat) : Nat := die * 96 + owner
def localOf (core : Nat) : Nat := core % 96
def quadsOf (m : BitVec 24) : List Nat := (List.range 24).filter fun q => m.getLsbD q

/-- A line that a slice serves is held on the chip, when its fill raises nothing. -/
def State.hold (s : State) (line : Nat) : State :=
  if (s.fillFault (lineAid line) (lineGpa line) false).isSome then s else s.fill (lineAid line) (lineGpa line)

/-- QFWD.S at the owner (R331): O answers DIRTY, S and E answer CLEAN, and the entry follows. An owner that has given its line up
silently answers MISS, and whoever asked receives S all the same (R332). -/
def State.forwardS (s : State) (die line core : Nat) : State × Resp :=
  let e := s.dirOf die line
  match s.l1St core line with
  | .M | .O => ((s.setL1 core line .O).setDir { e with st := .O, l2 := true }, .dirty)
  | .E => ((s.setL1 core line .S).setDir { (e.share core) with st := .S, owner := 127 }, .clean)
  | .S => (s, .clean)
  | .I | .P => (if e.owner = localOf core then s.setDir { e with st := .S, owner := 127 } else s, .miss)

/-- QFWD.X at the owner (R331). -/
def State.forwardX (s : State) (die line core : Nat) : State × Resp :=
  let e := s.dirOf die line
  let d := if e.owner = localOf core then e.disown else e
  match s.l1St core line with
  | .M | .O => ((s.setL1 core line .I).setDir { d with l2 := true }, .dirty)
  | .E | .S => ((s.setL1 core line .I).setDir d, .clean)
  | .I | .P => (s.setDir d, .miss)

/-- QINV reaches the four cores of a quad (R330, R331): S and E become I; O, M and P are not asked. -/
def State.invalidate (s : State) (die line quad : Nat) : State :=
  let s1 := s.dropL1 fun x => x.line == line && dieOf x.core == die && quadOf x.core == quad && (x.st == LState.S || x.st == LState.E)
  let e := s.dirOf die line
  let e1 := { e with shares := e.shares &&& ~~~(1#24 <<< quad) }
  let lost := e1.st == LState.E && quadOf (coreOf die e1.owner) == quad
  s1.setDir (if lost || (e1.st == LState.S && e1.shares == 0) then e1.disown else e1)

/-- A snoop at a die (R335): its answer, and GSTATE after it. SNPX leaves nothing of the line on the die. -/
def State.snoop (s : State) (die line : Nat) (excl : Bool) : State × Resp :=
  let e := s.dirOf die line
  let owned := e.owner != 127
  let f := if owned then (if excl then s.forwardX die line (coreOf die e.owner) else s.forwardS die line (coreOf die e.owner)) else (s, .miss)
  let dirty := e.gst == .M || e.gst == .O || f.2 == .dirty
  let r : Resp := if e.gst == .I then .miss else if dirty then .dirty else .clean
  if excl then
    let s1 := (quadsOf e.shares).foldl (fun (u : State) (q : Nat) => u.invalidate die line q) f.1
    (s1.setDir { die, line }, r)
  else
    let d := f.1.dirOf die line
    (f.1.setDir { d with gst := if e.gst == .I then .I else if dirty then .O else .S }, r)

/-- No die holds the line: it leaves the chip, written back. -/
def State.retireLine (s : State) (line : Nat) : State :=
  if s.dir.any (fun e => e.line == line) || s.l1.any (fun x => x.line == line) then s else s.evict line

/-! ## Room on the die (R317, R330, R332) -/

/-- A die gives up a line: a dirty one with WB; else silently, its L1 copies invalidated first. -/
def State.evictDie (s : State) (die line : Nat) : Except Ev State :=
  let e := s.dirOf die line
  if e.gst == .M || e.gst == .O then .error (.wb die line) else .ok ((s.snoop die line true).1.retireLine line)

/-- The set of a line in its slice: of the L2 data by colour and GPA (R317), of the directory too, with one more GPA bit, a DESIGN
CHOICE (R330; log 8), so that lines of different colours never give way to each other. -/
def State.l2Set (s : State) (line : Nat) : Nat := (s.ast (lineAid line)).colour.toNat * 16 + lineGpa line / 128 % 16
def State.dirSet (s : State) (line : Nat) : Nat := (s.ast (lineAid line)).colour.toNat * 32 + lineGpa line / 128 % 32
/-- Sixteen ways: with none free, an entry that a free choice picks is given up. -/
def State.wayFor (s : State) (domain die line : Nat) (set : List DirEntry) : Except Ev State :=
  if set.length < 16 || set.any (fun e => e.line == line) then .ok s
  else match s.pickOf domain set with | some v => s.evictDie die v.line | none => .ok s
def State.dieRoom (s : State) (die line : Nat) : Except Ev State :=
  let here (e : DirEntry) : Bool := e.die == die && sliceOf (lineGpa e.line) == sliceOf (lineGpa line)
  match s.wayFor 9 die line (s.dir.filter fun e => here e && s.dirSet e.line == s.dirSet line) with
  | .error e => .error e
  | .ok s1 => s1.wayFor 8 die line (s1.dir.filter fun e => here e && e.l2 && s.l2Set e.line == s.l2Set line)
/-! ## Region entries (R333) -/

def RegionEntry.lines (r : RegionEntry) : Nat := 2 ^ (9 - r.k)
def RegionEntry.covers (r : RegionEntry) (line : Nat) : Bool := decide (r.base ≤ line) && decide (line < r.base + r.lines)
def RegionEntry.sta (r : RegionEntry) (die : Nat) : Nat := r.sts.getD die 0
/-- The home die's own field is 0 (R333). -/
def RegionEntry.mark (r : RegionEntry) (die v : Nat) : RegionEntry := if die = r.home then r else { r with sts := r.sts.set die v }
def RegionEntry.same (r q : RegionEntry) : Bool := r.home == q.home && r.base == q.base && r.k == q.k
/-- The entry that covers a line: the smallest, should several do. -/
def State.regionOf (s : State) (home line : Nat) : Option RegionEntry :=
  (s.regions.filter fun r => r.home == home && r.covers line).foldl (fun o r => match o with | some q => if q.k < r.k then some r else o | none => some r) none
def State.setRegion (s : State) (r : RegionEntry) : State := { s with regions := s.regions.map fun q => if q.same r then r else q }
def State.dropRegion (s : State) (r : RegionEntry) : State := { s with regions := s.regions.filter fun q => !q.same r }

/-- A die gives a dirty line up (R332, R336): every copy it has is invalid, the line is written to HBM, and in a 128-byte entry the
writer becomes NONE. -/
def State.giveUp (s : State) (die line : Nat) : State :=
  let s1 := (s.snoop die line true).1.writeBack line
  let s2 := match s1.regionOf (s.lineHome line) line with
    | some r => if r.k = 9 then s1.setRegion (r.mark die 0) else s1
    | none => s1
  s2.retireLine line
/-- Room at a die for a line that the home itself takes: what stands in its way is given up at once. -/
def State.clearWay (s : State) (die line : Nat) : Nat → State
  | 0 => s
  | n + 1 =>
    match s.dieRoom die line with
    | .ok t => t
    | .error (.wb d v) => (s.giveUp d v).clearWay die line n
    | .error _ => s

/-- A Gauze line step registers the owner's private copy with the slice (R341): STATE M when the line is dirty, E when it is clean,
GSTATE M through an RDX to the home, which comes first. -/
def State.registerP (s : State) (line : Nat) : Except Ev State :=
  match s.l1.find? fun x => x.line == line && x.st == .P with
  | none => .ok s
  | some x =>
    let die := dieOf x.core
    if (s.dirOf die line).gst != .M then .error (.rdx die line)
    else
      match s.dieRoom die line with
      | .error ev => .error ev
      | .ok s1 =>
        let st : LState := match s1.chipLine line with | some c => (if c.dirty then .M else .E) | none => .E
        .ok ((s1.setL1 x.core line st).setDir { s1.dirOf die line with st, owner := x.core % 96, l2 := true })

end Sys2Proof.Machine
end

