-- ==== Sys2Proof/Machine/Ctx.lean ====
section
/-! DEFINITION. Contexts: guardians, the journal, events, fault placement, suspension, host loss (R288-R306, R391,
R394). -/

namespace Sys2Proof.Machine

/-- Device time goes at half rate while it is more than 1 ms ahead (R378). -/
def Dev.half (d : Dev) : Bool := decide (50000000000 < d.offset)
/-- The step is the last one of its nanosecond of device time, however short it is: what must come after everything else of one device
time takes effect in such a step (R294, R345; log 3). -/
def State.lastOfNs (s : State) : Bool := decide (50000 ≤ s.frac + if s.dev.half then 20000 else 39992)

/-- PRIMARY together with COGUARD (R290). -/
def Context.guardian (c : Context) (h : Nat) : Bool := c.primary == h || c.coguard.getLsbD h
def Context.permitted (c : Context) (h : Nat) : Bool := c.permit.getLsbD h

/-- The address space of a context (R288). -/
def Context.aid (c : Context) : Nat := c.cid / 1024 * 1024 + c.ast

/-- Write a journal entry, written at acceptance and complete at once (R305). -/
def State.journal (s : State) (cid host : Nat) (cmd : Byte) (tag : Word) (arg hash : DWord) (status : Byte)
    (old new : Context) : State :=
  let p := s.part (cid / 1024)
  let e : Journal :=
    { seq := p.jhead, ctx := cid % 1024, host, cmd, tag, arg, hash, accept := s.time, complete := s.time, status,
      oldSt := old.st, newSt := new.st, oldPrim := old.primary, newPrim := new.primary, oldCog := old.coguard,
      newCog := new.coguard }
  s.setPart { p with journal := (if p.journal.length < 65536 then p.journal else p.journal.drop 1) ++ [e],
                     jhead := p.jhead + 1 }

/-- The dispatcher, the rings and the device itself: no core's TLB, no team (R276, R279, R302). -/
def Context.device (c : Context) : Who := { core := 384, cid := c.cid, aid := c.aid, owner := 0xFFFF }

/-- Write bytes under a context's translation; host-backed lines are released at .sys (R199, R302). -/
def State.putVa (s : State) (w : Who) (va : Nat) (bs : List Byte) : Except (Cause × Nat) State :=
  match s.places w va bs.length .wr with
  | .ok ls =>
    let s1 := s.storeAway (ls.zip bs)
    .ok (ls.foldl (fun t l => match l with | .glob aid gpa => if isHostGpa gpa then t.writeBack (lineOf aid gpa) else t | _ => t) s1)
  | .error (.bad c _, a) => .error (c, a)
  | .error (_, a) => .error (.page, a)
/-- A place of a device access, read as bytes. -/
def State.getVa (s : State) (w : Who) (va n : Nat) : Except (Cause × Nat) (List Byte) :=
  match s.places w va n .rd with
  | .ok ls => .ok (s.readLocs ls)
  | .error (.bad c _, a) => .error (c, a)
  | .error (_, a) => .error (.page, a)

/-- The first of the device's accesses that the device serves and replays, or that waits for the host (R313, R327, R328), with the event
that serves it. -/
def State.firstWait (s : State) (w : Who) : List (Nat × Acc) → Option (Option Ev)
  | [] => none
  | (va, a) :: rest =>
    match s.xlate w va a with
    | .wait e => some e
    | _ => s.firstWait w rest

/-- A failed translation of the host is the answer to the access that asked for it: the next one asks again (R313). -/
def State.atsSpent (s : State) (core cid : Nat) : State :=
  { s with ats := s.ats.filter fun q => !(q.1 == 0 && q.2.1 == core && q.2.2.1 == cid) }

/-- Accesses of the device under a context's translation, at the addresses `accs`: an access that waits is served first, and what
makes it is tried again; `again` keeps what asked for it. -/
def State.serveFirst (s : State) (c : Context) (accs : List (Nat × Acc)) (again : State → State) (run : State → Out) : Out :=
  match s.firstWait c.device accs with
  | some (some e) => .next (again (s.post e))
  | some none => .next (again s)
  | none =>
    match run s with
    | .next t => .next (t.atsSpent 384 c.cid)
    | r => r

/-- Read n bytes line by line under a context's translation, 8 bytes at a time (n a multiple of 8). -/
def State.getWords (s : State) (w : Who) (va : Nat) : Nat → Except (Cause × Nat) (List DWord)
  | 0 => .ok []
  | n + 1 =>
    match s.getVa w va 8 with
    | .error e => .error e
    | .ok bs =>
      match s.getWords w (va + 8) n with
      | .error e => .error e
      | .ok rest => .ok (BitVec.ofNat 64 (leVal bs) :: rest)

/-- The 32-byte entry of R302. -/
def Event.bytes (e : Event) (ctx : Nat) : List Byte :=
  leBytes 32 (e.kind + e.cause * 2 ^ 8 + ctx * 2 ^ 16 + e.id.toNat * 2 ^ 32 + e.pc.toNat * 2 ^ 64 + e.addr.toNat * 2 ^ 128
    + e.backing * 2 ^ 220 + e.lanes.toNat * 2 ^ 224)

/-- Entries of a ring (R281). -/
def Ring.capacity (r : Ring) (entry : Nat) : Nat := 2 ^ r.log2 / entry
def Ring.full (r : Ring) (entry : Nat) : Bool := (r.write - r.read).toNat ≥ r.capacity entry

/-- Write an event to host h's ring, or hold it (R302). -/
def State.event (s : State) (cid h : Nat) (e : Event) : State :=
  let c := s.ctx cid
  let r := assoc {} h c.rings
  let hold := s.setCtx { c with heldEv := c.heldEv ++ [(h, e)] }
  if r.log2 = 0 ∨ r.error ∨ r.full 32 ∨ c.heldEv.any (fun x => x.1 == h) then hold
  else
    let va := r.base + 32 * (r.write.toNat % r.capacity 32)
    match s.firstWait c.device [(va, .wr)] with
    | some (some ev) => hold.post ev
    | some none => hold
    | none =>
      match s.putVa c.device va (e.bytes (cid % 1024)) with
      | .ok s1 =>
        let c1 := s1.ctx cid
        s1.setCtx { c1 with rings := assocSet h { r with write := r.write + 1 } c1.rings }
      | .error _ => (s.setCtx { c with heldEv := c.heldEv ++ [(h, e)], rings := assocSet h { r with error := true } c.rings }).atsSpent 384 cid

/-- Events of a host that its ring would take are held: their write waits for a page (R302, R313, R327, R328). -/
def Context.flushable (c : Context) (h : Nat) : Bool :=
  let r := assoc {} h c.rings
  r.log2 != 0 && !r.error && !r.full 32 && c.heldEv.any fun x => x.1 == h

/-- Write held events of a host while its ring takes them (R302). -/
def State.flushEvents (s : State) (cid h : Nat) : Nat → State
  | 0 => s
  | fuel + 1 =>
    let c := s.ctx cid
    match c.heldEv.find? fun x => x.1 == h with
    | none => s
    | some (_, e) =>
      let r := assoc {} h c.rings
      if r.log2 = 0 ∨ r.error ∨ r.full 32 then s
      else
        let mine := c.heldEv.filter fun x => x.1 == h
        let rest := c.heldEv.filter fun x => x.1 != h
        let s1 := (s.setCtx { c with heldEv := rest }).event cid h e
        let c1 := s1.ctx cid
        if c1.heldEv.any (fun x => x.1 == h) then s1.setCtx { c1 with heldEv := rest ++ mine }
        else (s1.setCtx { c1 with heldEv := c1.heldEv ++ mine.drop 1 }).flushEvents cid h fuel

/-- An event to PRIMARY; none when PRIMARY is 8. -/
def State.eventPrimary (s : State) (cid : Nat) (e : Event) : State :=
  let p := (s.ctx cid).primary
  if p < 8 then s.event cid p e else s

/-- The mapping that holds an address (R295). -/
def Context.mappingAt (c : Context) (va : Nat) : Option Mapping :=
  c.maps.find? fun m => decide (m.base ≤ va) && decide (va < m.base + m.len)
def Context.backingAt (c : Context) (va : Nat) : Nat := match c.mappingAt va with | some m => m.backing | none => 15

/-- The target of a fault (R300, R346). -/
def Context.targetOf (c : Context) (f : FwdFault) : Option Nat :=
  if !f.park && f.backing < 8 && c.guardian f.backing then some f.backing
  else if c.primary < 8 then some c.primary else none

def FwdFault.event (f : FwdFault) : Event :=
  { kind := f.kind, cause := if f.kind == 1 then f.cause.code else 0, id := BitVec.ofNat 32 f.fid, pc := f.pc, addr := f.addr,
    backing := f.backing, lanes := f.lanes }

def State.tell (s : State) (cid : Nat) (f : FwdFault) (t : Option Nat) : State :=
  match t with
  | some h => s.event cid h f.event
  | none => s

/-- Suspension (R304): the state and its journal entry (R305, R394). The dispatcher and the schedulers read the state;
groups that can be saved are saved by State.suspendIf. -/
def State.markSuspended (s : State) (cid : Nat) (arg : DWord) : State :=
  let c := s.ctx cid
  let c1 := { c with st := .suspended }
  (s.setCtx c1).journal cid 8 0x81 0 arg 0 0 c c1

/-- The lowest id of an unanswered fault of the FORWARD action. -/
def Context.firstForward (c : Context) : Option Nat :=
  (c.faults.filter fun f => !f.park).foldl (fun m f => match m with | none => some f.fid | some x => some (min x f.fid)) none

/-- Suspend an ORPHANED context that has a FORWARD fault unanswered (R304, R394). -/
def State.checkSuspend (s : State) (cid : Nat) : State :=
  let c := s.ctx cid
  if c.st == .orphaned then
    match c.firstForward with
    | some fid => s.markSuspended cid (BitVec.ofNat 64 (fid % 2 ^ 32 + 8 * 2 ^ 32))
    | none => s
  else s

/-- The causes that a mapping raises at the fault address (R300, R302; log 56). -/
def Cause.onMapping : Cause → Bool
  | .page | .prot | .hostlost | .remote | .privLine | .integrity | .uncorr => true
  | _ => false
/-- Give a fault its id and its target (R300, R346); the first FORWARD fault in ORPHANED suspends (R304). -/
def State.placeFault (s : State) (cid : Nat) (f : FwdFault) : State × Nat :=
  let c := s.ctx cid
  let g := { f with fid := c.nextFid, backing := if f.kind == 1 && f.cause.onMapping then c.backingAt f.addr.toNat else 15 }
  let g := { g with target := c.targetOf g }
  let s1 := s.setCtx { c with nextFid := c.nextFid + 1, faults := c.faults ++ [g] }
  ((s1.tell cid g g.target).checkSuspend cid, g.fid)

/-- Place a fault again: a REPLACED entry, and a FAULT event to the new target (R300, R391). -/
def State.placeAgain (s : State) (cid : Nat) (f : FwdFault) (t : Option Nat) : State :=
  let c := s.ctx cid
  let arg := BitVec.ofNat 64 (f.fid % 2 ^ 32 + t.getD 8 * 2 ^ 32)
  let s1 := s.setCtx { c with faults := c.faults.map fun g => if g.fid == f.fid then { g with target := t } else g }
  (s1.journal cid 8 0x82 0 arg 0 0 c c).tell cid f t
def State.replaceFault (s : State) (cid : Nat) (f : FwdFault) : State := s.placeAgain cid f ((s.ctx cid).targetOf f)

def State.replaceFaults (s : State) (cid : Nat) (p : FwdFault → Bool) : State :=
  ((s.ctx cid).faults.filter p).foldl (fun t f => t.replaceFault cid f) s

/-- LOST in every KIND 0 leaf of the context whose GPA names a host, and in the records of its mappings (R296, R312). -/
def namesHost (h e : Nat) : Bool := eKind e == 0 && isHostGpa (eAddr e) && gpaHost (eAddr e) == h
def State.loseMappings (s : State) (cid h : Nat) : State :=
  let c := s.ctx cid
  let mine := c.maps.filter fun m => (m.backing == h || m.backing == 8) && !m.lost
  let s1 := mine.foldl (fun t m =>
    (t.editRange c.aid (fun e => if namesHost h e && !eBit e 52 then e + 2 ^ 52 else e) (2 * (m.len / 4096) + 8) m.base m.len).tlbDrop c.aid m.base m.len) s
  s1.setCtx { c with maps := c.maps.map fun m => if m.backing == h then { m with lost := true } else m }

/-- A guardian leaves (R299 items 2-5; `lost` adds item 1 and its journal entry of R305). -/
def State.leave (s : State) (cid h : Nat) (lost : Bool) : State :=
  let s0 := if lost then s.loseMappings cid h else s
  let c := s0.ctx cid
  let offer := c.offerTo == h || c.primary == h
  let c1 := { c with
    losth := if lost then c.losth ||| (1#8 <<< h) else c.losth
    offerTo := if offer then 8 else c.offerTo
    st := if offer && c.st == .offered then .guarded else c.st
    coguard := c.coguard &&& ~~~(1#8 <<< h)
    clocks := c.clocks.filter fun x => x.1 != h }
  let heirs := hostsOf c1.coguard
  let c2 :=
    if c.primary == h then
      match heirs with
      | n :: _ => { c1 with primary := n, coguard := c1.coguard &&& ~~~(1#8 <<< n), clocks := assocSet n s.time c1.clocks }
      | [] => { c1 with primary := 8, st := .orphaned }
    else c1
  let s1 := s0.setCtx c2
  let s2 := if lost then s1.journal cid 8 0x80 0 (BitVec.ofNat 64 h) 0 0 c c2 else s1
  let s3 :=
    if c.primary == h then
      match heirs with
      | n :: _ => s2.event cid n { kind := 8 }
      | [] => (hostsOf c2.permit).foldl (fun t p => t.event cid p { kind := 6 }) s2
    else s2
  s3.replaceFaults cid fun f => f.target == some h

end Sys2Proof.Machine
end

