-- ==== Sys2Proof/Machine/Names.lean ====
section
/-! DEFINITION. What each instruction names: the sources and destinations of lane instructions, the scalar registers that a
scalar instruction writes (R36, R39, R43, R63-R65, R95). -/

namespace Sys2Proof.Machine

/-! ## What an instruction names -/

def regsOf (t : Ty) : Nat := if t.is64 then 2 else 1
/-- The registers of a memory base: 64-bit for global forms, 32-bit for stash forms (R162). -/
def addrSrcs (stash : Bool) (m : LAddr) : List (Src × Nat) :=
  (m.base, if stash then 1 else 2) :: (match m.index with | some x => [(x, 1)] | none => [])
def vReg (d : BitVec 8) : Src := .v d

/-- The sources of a lane instruction with their numbers of registers. DESIGN CHOICE: SB of VT3P is one with DTY .i8x4 too (log 54). -/
def laneSrcs : Instr → List (Src × Nat)
  | .vadd ty _ _ _ a b | .vsub ty _ _ _ a b | .vmul ty _ _ _ a b | .vmulhi ty _ _ a b | .vmin ty _ _ a b | .vmax ty _ _ a b
  | .vand ty _ _ a b | .vor ty _ _ a b | .vxor ty _ _ a b | .vandn ty _ _ a b | .vcmp ty _ _ _ a b | .vsel ty _ _ _ a b
  | .viota ty _ _ a b => [(a, regsOf ty), (b, regsOf ty)]
  | .vmad ty _ _ _ a b c => [(a, regsOf ty), (b, regsOf ty), (c, regsOf ty)]
  | .vabs ty _ _ _ a | .vneg ty _ _ _ a | .vnot ty _ _ a | .vmov ty _ _ a => [(a, regsOf ty)]
  | .vshl ty _ _ a b | .vshr ty _ _ a b | .vsra ty _ _ a b | .vrot ty _ _ a b | .vshuf ty _ _ _ a b | .vbcst ty _ _ a b =>
    [(a, regsOf ty), (b, 1)]
  | .vclz _ _ _ a | .vpopc _ _ _ a => [(a, 1)]
  | .vbfx _ _ _ a b c => [(a, 1), (b, 1), (c, 1)]
  | .vbfi _ _ d a b c => [(vReg d, 1), (a, 1), (b, 1), (c, 1)]
  | .vfadd _ _ _ a b | .vfsub _ _ _ a b | .vfmul _ _ _ a b | .vfmin _ _ _ a b | .vfmax _ _ _ a b | .vfcmp _ _ _ _ a b
  | .vfdiv _ _ _ a b => [(a, 1), (b, 1)]
  | .vfma _ _ _ a b c => [(a, 1), (b, 1), (c, 1)]
  | .vfabs _ _ _ a | .vfneg _ _ _ a | .vfsqrt _ _ _ a | .vfrcp _ _ _ a | .vfrsq _ _ _ a | .vfexp2 _ _ _ a | .vflog2 _ _ _ a
  | .vfsinp _ _ _ a | .vfcosp _ _ _ a | .vftanh _ _ _ a | .vfrnd _ _ _ _ _ a => [(a, 1)]
  | .vcvt ty _ _ _ _ _ _ _ a => [(a, regsOf ty)]
  | .vpack _ _ _ _ _ _ _ a b => [(a, 1), (b, 1)]
  | .vunpk _ _ _ _ _ _ _ a => [(a, 1)]
  | .vq4n _ _ _ _ a b c => [(a, 1), (b, 1), (c, 1)]
  | .vt3p _ _ _ _ _ a b => [(a, 1), (b, 1)]
  | .vreds ty _ _ _ a | .vscan ty _ _ _ _ a | .vvote ty _ _ _ a | .vmatch ty _ _ a => [(a, regsOf ty)]
  | .vld _ _ _ m _ | .vldref _ _ _ m _ | .vprf _ _ m _ => addrSrcs false m
  | .vst ty _ d m _ => (vReg d, regsOf ty) :: addrSrcs false m
  | .vlds _ _ _ m _ p => addrSrcs true m ++ (match p with | some x => [(x, 1)] | none => [])
  | .vsts ty _ d m _ => (vReg d, regsOf ty) :: addrSrcs true m
  | .vatom ty op _ stash _ _ m c _ => addrSrcs stash m ++ [(c, if op == .cas then 2 * regsOf ty else regsOf ty)]
  | .vnew _ _ _ _ a => [(a, 1)]
  | .vstref _ d m _ => (vReg d, 2) :: addrSrcs false m
  | .vtld _ _ _ _ a b _ => [(a, 1), (b, 1)]
  | .vtst _ _ _ _ d a b _ => [(vReg d, 1), (a, 1), (b, 1)]
  | _ => []

def regList (d : BitVec 8) (n : Nat) : List Nat := (List.range n).map fun i => d.toNat + i

/-- The lane registers that a lane instruction writes. -/
def laneDsts : Instr → List Nat
  | .vadd ty _ _ d _ _ | .vsub ty _ _ d _ _ | .vmul ty _ _ d _ _ | .vmulhi ty _ d _ _ | .vmin ty _ d _ _ | .vmax ty _ d _ _
  | .vand ty _ d _ _ | .vor ty _ d _ _ | .vxor ty _ d _ _ | .vandn ty _ d _ _ | .vsel ty _ _ d _ _ | .viota ty _ d _ _
  | .vmad ty _ _ d _ _ _ | .vabs ty _ _ d _ | .vneg ty _ _ d _ | .vnot ty _ d _ | .vmov ty _ d _ | .vshl ty _ d _ _
  | .vshr ty _ d _ _ | .vsra ty _ d _ _ | .vrot ty _ d _ _ | .vshuf ty _ _ d _ _ | .vbcst ty _ d _ _ | .vclz ty _ d _
  | .vpopc ty _ d _ | .vbfx ty _ d _ _ _ | .vbfi ty _ d _ _ _ | .vreds ty _ _ d _ | .vscan ty _ _ _ d _ | .vld ty _ d _ _
  | .vlds ty _ d _ _ _ => regList d (regsOf ty)
  | .vfadd _ _ d _ _ | .vfsub _ _ d _ _ | .vfmul _ _ d _ _ | .vfmin _ _ d _ _ | .vfmax _ _ d _ _ | .vfdiv _ _ d _ _
  | .vfma _ _ d _ _ _ | .vfabs _ _ d _ | .vfneg _ _ d _ | .vfsqrt _ _ d _ | .vfrcp _ _ d _ | .vfrsq _ _ d _ | .vfexp2 _ _ d _
  | .vflog2 _ _ d _ | .vfsinp _ _ d _ | .vfcosp _ _ d _ | .vftanh _ _ d _ | .vfrnd _ _ _ _ d _ | .vpack _ _ _ _ _ _ d _ _
  | .vq4n _ _ _ d _ _ _ | .vt3p _ _ _ _ d _ _ | .vmatch _ _ d _ | .vtld _ _ _ d _ _ _ => regList d 1
  | .vcvt _ dty _ _ _ _ _ d _ => regList d (regsOf dty)
  | .vunpk _ _ _ _ _ _ d _ | .vnew _ _ _ d _ | .vldref _ _ d _ _ => regList d 2
  | .vatom ty _ nr _ _ d _ _ _ => if nr then [] else regList d (regsOf ty)
  | _ => []

/-- The MSEL field of a lane instruction (R43). -/
def laneSel : Instr → BitVec 4
  | .vadd _ _ m _ _ _ | .vsub _ _ m _ _ _ | .vmul _ _ m _ _ _ | .vmulhi _ m _ _ _ | .vmad _ _ m _ _ _ _ | .vmin _ m _ _ _
  | .vmax _ m _ _ _ | .vabs _ _ m _ _ | .vneg _ _ m _ _ | .vand _ m _ _ _ | .vor _ m _ _ _ | .vxor _ m _ _ _ | .vandn _ m _ _ _
  | .vnot _ m _ _ | .vshl _ m _ _ _ | .vshr _ m _ _ _ | .vsra _ m _ _ _ | .vrot _ m _ _ _ | .vclz _ m _ _ | .vpopc _ m _ _
  | .vbfx _ m _ _ _ _ | .vbfi _ m _ _ _ _ | .vcmp _ _ m _ _ _ | .vsel _ _ m _ _ _ | .vmov _ m _ _ | .viota _ m _ _ _
  | .vfadd _ m _ _ _ | .vfsub _ m _ _ _ | .vfmul _ m _ _ _ | .vfma _ m _ _ _ _ | .vfmin _ m _ _ _ | .vfmax _ m _ _ _
  | .vfabs _ m _ _ | .vfneg _ m _ _ | .vfcmp _ _ m _ _ _ | .vfdiv _ m _ _ _ | .vfsqrt _ m _ _ | .vfrcp _ m _ _ | .vfrsq _ m _ _
  | .vfexp2 _ m _ _ | .vflog2 _ m _ _ | .vfsinp _ m _ _ | .vfcosp _ m _ _ | .vftanh _ m _ _ | .vfrnd _ _ _ m _ _
  | .vcvt _ _ _ _ _ _ m _ _ | .vpack _ _ _ _ _ m _ _ _ | .vunpk _ _ _ _ _ m _ _ | .vq4n _ _ m _ _ _ _ | .vt3p _ _ _ m _ _ _
  | .vshuf _ _ m _ _ _ | .vbcst _ m _ _ _ | .vreds _ _ m _ _ | .vscan _ _ _ m _ _ | .vvote _ _ m _ _ | .vmatch _ m _ _
  | .vld _ m _ _ _ | .vst _ m _ _ _ | .vlds _ m _ _ _ _ | .vsts _ m _ _ _ | .vatom _ _ _ _ m _ _ _ _ | .vprf _ m _ _
  | .vnew _ _ m _ _ | .vstref m _ _ _ | .vldref _ m _ _ _ | .vtld _ _ m _ _ _ _ | .vtst _ _ _ m _ _ _ _ => m
  | _ => 0

/-- The AUX fields of a long-latency instruction (R65); VNEW uses FSEL only. -/
def laneCtl : Instr → Option LCtl
  | .vld _ _ _ _ c | .vst _ _ _ _ c | .vlds _ _ _ _ c _ | .vsts _ _ _ _ c | .vatom _ _ _ _ _ _ _ _ c | .vprf _ _ _ c
  | .vstref _ _ _ c | .vldref _ _ _ _ c | .vtld _ _ _ _ _ _ c | .vtst _ _ _ _ _ _ _ c => some c
  | .vnew _ fb _ _ _ => some { fb, scope := 0, order := .rlx, width := 0 }
  | _ => none

/-- Lane and scalar registers of the sources. -/
def laneSrcRegs (i : Instr) : List Nat := (laneSrcs i).flatMap fun p => match p.1 with | .v n => regList n p.2 | _ => []
def laneSrcScalars (i : Instr) : List Nat :=
  (laneSrcs i).flatMap fun p => match p.1 with | .s n => (List.range p.2).map fun k => n.toNat + k | _ => []

/-- The scalar registers that the words of a clause name as operands (R39). -/
def bodyScalars (ws : List LaneWord) : List Nat :=
  ws.flatMap fun w => match decodeLane w with | .ok i => laneSrcScalars i | .error _ => []

/-! ## Scalar destinations -/

/-- The scalar registers that a scalar instruction writes, now or when its data returns (R39, R95). -/
def scalarDsts : Instr → List Nat
  | .sadd d _ _ | .ssub d _ _ | .smul d _ _ | .smulhi d _ _ | .smulhn d _ _ | .sdivi d _ _ | .sdivn d _ _ | .sremi d _ _
  | .sremn d _ _ | .sand d _ _ | .sor d _ _ | .sxor d _ _ | .sandn d _ _ | .sshl d _ _ | .sshr d _ _ | .ssra d _ _ | .srot d _ _
  | .smini d _ _ | .sminn d _ _ | .smaxi d _ _ | .smaxn d _ _ | .sceq d _ _ | .scne d _ _ | .sclti d _ _ | .scltn d _ _
  | .sclei d _ _ | .sclen d _ _ | .sclz d _ | .spopc d _ | .sbrev d _ | .smov d _ | .smovi d _ | .smovhi d _ | .saddi d _
  | .sandi d _ | .sori d _ | .sxori d _ | .sshli d _ | .sshri d _ | .ssrai d _ | .sceqi d _ | .scltis d _ | .scltin d _
  | .smovx d _ | .mto d _ | .mpopc d _ | .mfirst d _ | .ftest d _ | .fragq d _ | .sld32 d _ _ | .saadd d _ _ | .samin d _ _
  | .samax d _ _ | .saand d _ _ | .saor d _ _ | .saxor d _ _ | .saxch d _ _ | .sacas d _ _ | .cpoll d _ | .qgetUse d _
  | .qgetLim d _ | .ispub d _ | .mbsend d _ _ | .mbsendTrap d _ _ | .mbpoll d _ | .launch d _ | .rdv d | .lwait d _ _ | .wrd d _ => [d.toNat]
  | .smulw d _ _ | .saddp d _ _ | .ssubp d _ _ | .sshlp d _ _ | .sshrp d _ _ | .call d _ | .sld64 d _ _ | .new d _
  | .newLong d _ | .mbrecv d _ | .ldref d _ _ _ | .sysrd d _ => [d.toNat, d.toNat + 1]
  | .wsplR d _ => regList d 4
  | .smovxW _ far => [far.toNat]
  | .sget d sel => if sel = 9 ∨ sel = 10 then [d.toNat, d.toNat + 1] else [d.toNat]
  | _ => []

end Sys2Proof.Machine
end

