-- ==== Sys2Proof/Machine/Ops.lean ====
section
/-! DEFINITION. Groups, fragments and registers; barriers; taking a trap and leaving the halt (R344-R352, R357, R364,
R365). -/

namespace Sys2Proof.Machine

/-! ## Groups and fragments -/

/-- The group in a slot of a core; a saved group is in no slot (R17, R359). -/
def Group.isAt (g : Group) (core slot : Nat) : Bool := g.core == core && g.slot == slot && !g.saved
def State.group (s : State) (core slot : Nat) : Option Group := s.groups.find? fun g => g.isAt core slot
def State.setGroup (s : State) (g : Group) : State :=
  { s with groups := s.groups.map fun h => if h.isAt g.core g.slot then g else h }

/-- The fragment in a split slot (R127). -/
def Group.frag (g : Group) (k : Nat) : Option Fragment := if k = 0 then g.slot0 else g.slot1
def Group.setFrag (g : Group) (k : Nat) (fr : Fragment) : Group :=
  if k = 0 then { g with slot0 := some fr } else { g with slot1 := some fr }
def Group.clearFrag (g : Group) (k : Nat) : Group := if k = 0 then { g with slot0 := none } else { g with slot1 := none }
def Group.editFrag (g : Group) (k : Nat) (f : Fragment → Fragment) : Group :=
  match g.frag k with | some fr => g.setFrag k (f fr) | none => g

/-- The fragment whose scalar instruction is executed. -/
def State.here (s : State) : Option (Group × Fragment × Nat) :=
  match s.cur with
  | .scalar core slot k =>
    match s.group core slot with
    | some g =>
      match g.frag k with
      | some fr => some (g, fr, k)
      | none => none
    | none => none
  | _ => none

/-- Store the group with its fragment. -/
def State.put (s : State) (g : Group) (k : Nat) (fr : Fragment) : State := s.setGroup (g.setFrag k fr)

/-- The fragment at the next word: past the word, or past the ORD and its word (R60). -/
def State.wordLen (s : State) : DWord := if s.ord.pair then 8 else 4
def Fragment.goto (fr : Fragment) (pc : DWord) : Fragment := { fr with pc := pc, wait := none }
def State.fall (s : State) (fr : Fragment) : Fragment := fr.goto (fr.pc + s.wordLen)

/-- Scalar registers (R36, R37). -/
def Group.s (g : Group) (r : Nat) : Word := getW g.sregs r
def Group.pair (g : Group) (r : Nat) : DWord := pairOf (g.s r) (g.s (r + 1))
def Group.setS (g : Group) (r : Nat) (v : Word) : Group := { g with sregs := g.sregs.set r v }
def Group.setPair (g : Group) (r : Nat) (v : DWord) : Group := (g.setS r (loOf v)).setS (r + 1) (hiOf v)

/-- Mask registers as a fragment sees them: m0 is its EXEC (R42). A write of m1-m15 changes only the bits of the
fragment mask. -/
def Group.mask (g : Group) (fr : Fragment) (n : Nat) : Mask := if n = 0 then fr.exec else g.masks.getD (n - 1) 0
def Group.setMask (g : Group) (fr : Fragment) (n : Nat) (v : Mask) : Group :=
  { g with masks := g.masks.set (n - 1) ((g.masks.getD (n - 1) 0 &&& ~~~fr.mask) ||| (v &&& fr.mask)) }

/-- The live fragments of a group (R133). -/
def Group.live (g : Group) : Nat := b2n g.slot0.isSome + b2n g.slot1.isSome

/-- A fragment's clauses have completed: none is in its queue, none has a long-latency instruction outstanding. -/
def Group.clausesDone (g : Group) (fr : Fragment) : Bool :=
  fr.queue.isEmpty && g.olog.all fun e => e.flag.isNone || e.frag &&& fr.mask == 0

/-- Every lane instruction enqueued earlier by the group has completed (R53, R118, R124). -/
def Group.lanesDone (g : Group) : Bool :=
  (g.olog.all fun e => e.flag.isNone) && (match g.slot0 with | some f => f.queue.isEmpty | none => true) &&
    (match g.slot1 with | some f => f.queue.isEmpty | none => true)

/-- A flag's count falls by one with the hold of a clause (R45, R121). -/
def Group.dropHold (g : Group) (uid n : Nat) : Group :=
  { g with flags := g.flags.set n (g.flags.getD n 0 - 1)
           holds := g.holds.filter fun h => !(h.uid == uid && h.flag == n) }
/-- A long-latency instruction attached to a flag completes. -/
def Group.llDone (g : Group) (uid : Nat) (flag : Option Nat) : Group :=
  match flag with
  | none => g
  | some n =>
    match g.holds.find? fun h => h.uid == uid && h.flag == n with
    | none => g
    | some h =>
      if h.left ≤ 1 then g.dropHold uid n
      else { g with holds := g.holds.map fun x => if x.uid == uid && x.flag == n then { x with left := x.left - 1 } else x }
/-- The clause of a fragment goes past its instruction; after the last it leaves the queue, and flags with nothing
attached fall (R119, R121). DESIGN CHOICE: until then it counts among the 8 entries of the queue (log 55). -/
def Group.stepClause (g : Group) (k : Nat) (fr : Fragment) : Group :=
  match fr.queue with
  | [] => g
  | c :: rest =>
    if c.idx + 1 < c.body.length then g.setFrag k { fr with queue := { c with idx := c.idx + 1 } :: rest }
    else
      let idle := g.holds.filter fun h => h.uid == c.uid && h.left == 0
      (idle.foldl (fun x h => x.dropHold c.uid h.flag) g).setFrag k { fr with queue := rest }
/-- Whether a word is a long-latency instruction (R120), and the flag of its clause that it is attached to (R65). -/
def isLongWord (w : LaneWord) : Bool := decide (0x180 ≤ (w.extractLsb' 86 10).toNat ∧ (w.extractLsb' 86 10).toNat ≤ 0x1FF)
def Clause.flagOf (c : Clause) (fb : Bool) : Option Nat := if fb then c.fb else c.fa
def Clause.attached (c : Clause) (w : LaneWord) : Option Nat := if isLongWord w then c.flagOf (w.getLsbD 41) else none

/-- A register of the list is the destination of a load that has not returned (R95). -/
def Load.writes (l : Load) (r : Nat) : Bool := r == l.dst || (l.pair && r == l.dst + 1)
def Group.loading (g : Group) (rs : List Nat) : Bool := g.loads.any fun l => rs.any l.writes

/-- The scalar registers that lane instructions enqueued earlier by the group, and not yet issued, read (R39). -/
def Clause.reads (c : Clause) : List Nat := bodyScalars (c.body.drop c.idx)
def Fragment.reads (o : Option Fragment) : List Nat := match o with | some f => f.queue.flatMap Clause.reads | none => []
def Group.reads (g : Group) : List Nat := Fragment.reads g.slot0 ++ Fragment.reads g.slot1

/-- The registers that an instruction which a fragment has begun has still to write (R95). -/
def Fragment.owes (o : Option Fragment) : List Nat :=
  match o with
  | some f => match f.wait with
    | some (.rdv _ d) | some (.lwait d) | some (.walk _ (some d)) | some (.done _ (some d)) => [d]
    | _ => []
  | none => []

/-- A scalar instruction of fragment k waits for its registers: for loads and the other fragment's begun instructions that write those
it names, for lane instructions that read those it writes (R39, R95). -/
def Group.busy (g : Group) (k : Nat) (i : Instr) (rs : List Nat) : Bool :=
  g.loading rs || (let p := g.reads; (scalarDsts i).any p.contains) || (let p := Fragment.owes (g.frag (1 - k)); rs.any p.contains)

/-- Every access of the group that has issued has performed (R114, R239). -/
def Group.quiet (g : Group) : Bool := g.sbuf.isEmpty && g.loads.isEmpty && g.olog.isEmpty
/-- A group that has ended has nothing left to do: it is quiet, and its arrivals have taken effect (R31, R247). -/
def Group.over (g : Group) : Bool := g.ended && g.quiet && (g.bars ++ g.cbars).all fun p => p.effect.isNone

/-- An acquire that has not returned holds back later accesses and clauses (R114). -/
def Group.acquiring (g : Group) : Bool := g.loads.any fun l => l.acq

/-- Who a group is to translation (R310). -/
def State.who (s : State) (g : Group) : Who :=
  match s.team g.team with
  | some t => { core := g.core, cid := t.cid, aid := (s.ctx t.cid).aid, owner := t.core * 128 + t.slot }
  | none => { core := g.core, cid := 0, aid := 0, owner := 0xFFFF }

def State.launch (s : State) (lid : Nat) : Option Launch := s.launches.find? fun l => l.lid == lid
def State.setLaunch (s : State) (l : Launch) : State :=
  { s with launches := s.launches.map fun m => if m.lid == l.lid then l else m }
def State.descOf (s : State) (t : Team) : Desc := match s.launch t.lid with | some l => l.desc | none => {}

/-! ## Rejoining: the stack and the stalled-join rule -/

/-- A slot that becomes free takes the top of the stack in the same step (R127). -/
def Group.refill (g : Group) : Group :=
  match g.slot0, g.slot1, g.stack with
  | none, _, f :: rest => { g with slot0 := some f, stack := rest }
  | _, none, f :: rest => { g with slot1 := some f, stack := rest }
  | _, _, _ => g

/-- The stalled-join rule (R132): with fragments waiting at joins and no other, the register that holds the lowest
waiting lane is released into slot 0. DESIGN CHOICE: the rule holds in slot 128 too (log 55). -/
def Group.releaseStalled (g : Group) : Group :=
  if g.slot0.isSome || g.slot1.isSome || !g.stack.isEmpty then g
  else
    let low := (g.rejoin.filter fun r => r.arrived != 0).foldl (fun m r => min m (lowestLane r.arrived)) 32
    match g.rejoin.findIdx? fun r => inMask r.arrived low with
    | none => g
    | some k =>
      let r := g.rejoin.getD k {}
      { g with slot0 := some { mask := r.arrived, exec := r.arrived, pc := r.jaddr + 4 }
               rejoin := g.rejoin.set k {}, jlost := true }

/-- The lanes of a group that have not exited (R127). -/
def Group.lanesLeft (g : Group) : Mask :=
  let f (o : Option Fragment) : Mask := match o with | some x => x.mask | none => 0
  let stacked : Mask := (g.stack.map fun (x : Fragment) => x.mask).foldl (fun (a b : Mask) => a ||| b) 0
  let waiting : Mask := (g.rejoin.map fun (r : Rejoin) => r.arrived).foldl (fun (a b : Mask) => a ||| b) 0
  f g.slot0 ||| f g.slot1 ||| stacked ||| waiting

/-! ## Performing -/

/-- One buffered store performs (R331, R338); STREF sets its word's tag with the value (R216). -/
def State.performStore (s : State) (b : BufStore) : State :=
  let s1 := s.writeLocs b.bytes
  if b.setTag then (match b.bytes with | (l, _) :: _ => s1.setTagLoc l | [] => s1) else s1

/-- A release at .sys or .pers writes dirty host-backed lines of the address space back; an acquire there drops clean
copies (R199, R238, R252). -/
def State.hostRelease (s : State) (aid : Nat) : State :=
  s.chipMeta.foldl (fun t c => if lineAid c.line == aid && isHostGpa (lineGpa c.line) then t.writeBack c.line else t) s
def State.hostAcquire (s : State) (aid : Nat) : State :=
  let s1 := s.hostRelease aid
  s1.chipMeta.foldl (fun t c => if lineAid c.line == aid && isHostGpa (lineGpa c.line) then t.dropLine c.line else t) s1
def sysScope (scope : BitVec 5) : Bool := scope == 5 || scope == 6
/-- A release at .pers completes only when what it releases has reached the host's persistence domain (R252). -/
def State.persist (s : State) (aid : Nat) : State := { s with undurable := s.undurable.filter fun p => lineAid p.1 != aid }
def State.releaseAt (s : State) (aid : Nat) (scope : BitVec 5) : State :=
  if sysScope scope then (if scope == 6 then (s.hostRelease aid).persist aid else s.hostRelease aid) else s
def State.acquireAt (s : State) (aid : Nat) (scope : BitVec 5) : State := if sysScope scope then s.hostAcquire aid else s

/-! ## Barriers -/

/-- An arrival takes effect (R247). -/
def Barrier.arrive (b : Barrier) : Barrier :=
  let n := b.arrived + 1
  if b.count != 0 && n == b.count then { count := 0, arrived := 0, phase := b.phase + 1 } else { b with arrived := n }

def State.cluster (s : State) (kid : Nat) : Option Cluster := s.clusters.find? fun c => c.kid == kid
def State.setCluster (s : State) (c : Cluster) : State :=
  { s with clusters := s.clusters.map fun d => if d.kid == c.kid then c else d }

/-- Barriers are numbered 0-15 in a team and 16-19 for the cluster's cbar0-cbar3 (R246). -/
def State.barrier (s : State) (t : Team) (n : Nat) : Barrier :=
  if n < 16 then t.bars.getD n {} else match s.cluster t.cluster with | some c => c.cbars.getD (n - 16) {} | none => {}
def State.setBarrier (s : State) (t : Team) (n : Nat) (b : Barrier) : State :=
  if n < 16 then s.setTeam { t with bars := t.bars.set n b }
  else match s.cluster t.cluster with | some c => s.setCluster { c with cbars := c.cbars.set (n - 16) b } | none => s
def Group.barPart (g : Group) (n : Nat) : BarPart := if n < 16 then g.bars.getD n {} else g.cbars.getD (n - 16) {}
def Group.setBarPart (g : Group) (n : Nat) (p : BarPart) : Group :=
  if n < 16 then { g with bars := g.bars.set n p } else { g with cbars := g.cbars.set (n - 16) p }

def State.arriveAt (s : State) (tid n : Nat) : State :=
  match s.team tid with
  | some t => s.setBarrier t n (s.barrier t n).arrive
  | none => s

/-- Arrivals of a group that have not taken effect take it (R247). -/
def State.settleArrivals (s : State) (g : Group) : State :=
  (List.range 20).foldl (fun t n =>
    match (g.barPart n).effect with
    | some _ => t.arriveAt g.team n
    | none => t) s

/-! ## The header page (R358) -/

def fragWords (o : Option Fragment) : List Word :=
  match o with
  | some f => [f.exec, f.mask, loOf f.pc, hiOf f.pc]
  | none => [0, 0, 0, 0]

/-- The image of a rejoin register (R44), 16 bytes as four words. -/
def Rejoin.image (r : Rejoin) : BitVec 128 :=
  0#7 ++ BitVec.ofBool r.armed ++ r.jaddr.extractLsb' 0 56 ++ r.arrived ++ r.expect
def Rejoin.words (r : Rejoin) : List Word := (List.range 4).map fun i => r.image.extractLsb' (32 * i) 32

/-- %gstat (R52). -/
def Group.gstat (g : Group) : Word :=
  BitVec.ofNat 32 (g.estat.toNat * 2 ^ 24 + b2n g.spilled * 2 ^ 10 + b2n g.jlost * 2 ^ 8 + g.live)

def BarPart.words (p : BarPart) : List Word := [p.phase, BitVec.ofNat 32 (b2n p.pending)]

/-- SLEEP clocks still to run (R109); a fragment that is saved or parked keeps their number. -/
def Fragment.sleepLeft (now : Nat) (o : Option Fragment) : Nat :=
  match o with
  | some f => match f.wait with | some (.sleep u) => u - now | _ => 0
  | none => 0

/-- The 128 words of the header (R358). -/
def Group.header (g : Group) (clock : Nat) : List Word :=
  let now := if g.saved || g.parkAt.isSome then 0 else clock
  fragWords g.slot0 ++ fragWords g.slot1 ++ g.masks ++ [g.fpctl, g.gstat, g.skid] ++ g.rejoin.flatMap Rejoin.words
    ++ g.sealed_.map (fun l => BitVec.ofNat 32 l.length) ++ [BitVec.ofNat 32 g.opened.length]
    ++ [BitVec.ofNat 32 (max (Fragment.sleepLeft now g.slot0) (Fragment.sleepLeft now g.slot1))]
    ++ g.bars.flatMap BarPart.words ++ g.cbars.flatMap BarPart.words ++ List.replicate 20 0

/-- The split stack of R127: 32 entries of 16 bytes. DESIGN CHOICE: the oldest first (log 55). -/
def Group.stackWords (g : Group) : List Word :=
  (g.stack.reverse.flatMap fun f => [f.mask, f.exec, loOf f.pc, hiOf f.pc]) ++ List.replicate (128 - 4 * g.stack.length) 0

/-- Save memory is usable (R358). -/
def saveNeed : Nat := 0x0D180000
def Context.pageOf (c : Context) (core slot : Nat) : Nat := c.saveBase.toNat + 4096 * (core * 129 + slot)

/-- Write words into the header page of a group's slot, from an offset on. -/
def State.writeSave (s : State) (g : Group) (off : Nat) (ws : List Word) : State :=
  match s.team g.team with
  | none => s
  | some t =>
    let c := s.ctx t.cid
    if c.saveSize.toNat < saveNeed || g.ended then s
    else s.writeBytes c.aid (c.pageOf g.core g.slot + off) (ws.flatMap fun w => leBytes 4 w.toNat)

/-- Write a group's header page (R358). -/
def State.writePage (s : State) (g : Group) : State := s.writeSave g 0 (g.header s.cycle ++ g.stackWords)

/-- Entry n of the split stack in save memory, where it lives (R127, R358): a pushed fragment, or none once it is popped. -/
def State.writeStack (s : State) (g : Group) (n : Nat) (f : Option Fragment) : State :=
  s.writeSave g (512 + 16 * n) (match f with | some f => [f.mask, f.exec, loOf f.pc, hiOf f.pc] | none => [0, 0, 0, 0])
/-- A slot has been refilled from the stack: the entry of the popped fragment is free. -/
def State.popped (s : State) (g h : Group) : State := if h.stack.length < g.stack.length then s.writeStack g h.stack.length none else s

/-! ## Fence windows (R251) -/

def State.snapOf (s : State) (core slot : Nat) : Option Group := s.snaps.find? fun g => g.isAt core slot
def State.dropSnap (s : State) (core slot : Nat) : State := { s with snaps := s.snaps.filter fun g => !g.isAt core slot }

/-- What a move changes in the registers of a group, changed in the group recorded at a FENCE too: the moves of accesses that the
fence marks stand when the window rolls back. -/
def carried (n : Nat) (x y z : BitVec n) : BitVec n := if y = z then x else z
def Group.mirror (o g h : Group) : Group :=
  { o with
    sregs := (List.range o.sregs.length).map fun r => carried 32 (o.s r) (g.s r) (h.s r)
    masks := (List.range o.masks.length).map fun n => carried 32 (o.masks.getD n 0) (g.masks.getD n 0) (h.masks.getD n 0)
    vregs := (List.range o.vregs.length).map fun r => (List.range 32).map fun l =>
      carried 32 ((o.vregs.getD r []).getD l 0) ((g.vregs.getD r []).getD l 0) ((h.vregs.getD r []).getD l 0)
    fpctl := carried 32 o.fpctl g.fpctl h.fpctl }
/-- A group goes from g to h by a move of an access or clause with the number `uid`. -/
def State.progress (s : State) (g h : Group) (uid : Nat) : State :=
  let s1 := s.setGroup h
  match s.snapOf h.core h.slot with
  | some o => if uid < o.seq then { s1 with snaps := s1.snaps.map fun x => if x.isAt h.core h.slot then x.mirror g h else x } else s1
  | none => s1

/-- The fragment whose window is open. -/
def Fragment.opens (o : Option Fragment) : Bool := match o with | some f => (match f.fence with | some x => x.spec | none => false) | none => false
def Group.windowOf (g : Group) : Option Nat := if Fragment.opens g.slot0 then some 0 else if Fragment.opens g.slot1 then some 1 else none

/-- The clauses of a window give back their flags. -/
def Group.dropClauses (g : Group) (mark : Nat) : Group :=
  let gone := g.holds.filter fun h => decide (mark ≤ h.uid)
  gone.foldl (fun (x : Group) (h : FlagHold) => x.dropHold h.uid h.flag) g

/-- Roll a window back: registers, masks, flag counts, clauses and pc as at the FENCE; window stores and loads are
dropped; the FENCE issues again without a window. -/
def State.rollback (s : State) (core slot : Nat) : State :=
  match s.group core slot, s.snapOf core slot with
  | some g, some o =>
    match g.windowOf with
    | none => s.dropSnap core slot
    | some k =>
      let mark := o.seq
      let was : Mask := match o.frag k with | some f => f.exec | none => 0
      let back (f : Fragment) : Fragment :=
        { f with exec := was, pc := (match f.fence with | some x => x.pc | none => f.pc), wait := none, fence := none, again := true
                 queue := f.queue.filter fun c => decide (c.uid < mark) }
      let h := { g.dropClauses mark with
        sregs := o.sregs, vregs := o.vregs, masks := o.masks, fpctl := o.fpctl, words := o.words
        loads := g.loads.filter fun l => decide (l.seq < mark)
        olog := g.olog.filter fun e => decide (e.uid < mark)
        sbuf := g.sbuf.filter fun b => decide (b.uid < mark) }
      (s.setGroup (h.editFrag k back)).dropSnap core slot
  | _, _ => s

/-! ## Ending groups, launches and contexts -/

/-- Change a group of a team, on its core or saved. -/
def State.editGroup (s : State) (team grp : Nat) (f : Group → Group) : State :=
  { s with groups := s.groups.map fun (g : Group) => if g.team == team && g.grp == grp && g.slot != 128 then f g else g }

/-- The groups of a team that have not ended, but for its handler. -/
def State.teamGroups (s : State) (tid : Nat) : List Group := s.groups.filter fun g => g.team == tid && g.slot != 128 && !g.ended

def State.removeGroup (s : State) (g : Group) : State :=
  { s with groups := s.groups.filter fun h => !(h.core == g.core && h.slot == g.slot && h.saved == g.saved && h.team == g.team) }

/-- What a group that ends has issued and not performed (R31, R108, R364): its stores, its atomics and reference stores, but for those
whose cause stands; its loads and clauses are discarded, and nothing is written to its registers. Its arrivals take effect once that has
performed (R247, R248). -/
def Load.orphan (l : Load) : Option Load :=
  if l.atom.isSome && l.value.isNone && !l.bad then some { l with dst := 1024, pair := false, tagTo := none, frag := 0 } else none
def performsLate : Instr → Bool
  | .vst .. | .vsts .. | .vatom .. | .vstref .. | .vtst .. => true
  | _ => false
def Group.remains (g : Group) (n : Nat) : Group :=
  { g with slot := 1024 + n, ended := true, slot0 := none, slot1 := none, stack := [], park := none, parkAt := none, saved := false, image := none
           rejoin := List.replicate 8 {}, loads := g.loads.filterMap Load.orphan, sbuf := g.sbuf.filter fun b => !b.bad
           olog := g.olog.filter fun e => performsLate e.instr }

/-- A group ends and leaves its slot (R19); with something left to perform it stays until that is done (R31), and its arrivals take
effect then. Slots from 1024 on number such groups. -/
def State.endGroup (s : State) (g : Group) : State :=
  let s1 := if g.saved then s else s.dropSnap g.core g.slot
  let h := g.remains s1.nextId
  if h.quiet then (s1.settleArrivals g).removeGroup g
  else
    { s1 with
      nextId := s1.nextId + 1
      groups := s1.groups.map fun x => if x.core == g.core && x.slot == g.slot && x.saved == g.saved && x.team == g.team then h else x }

def State.handler (s : State) (core : Nat) : Handler := (s.handlers.find? fun h => h.core == core).getD { core }
def State.setHandler (s : State) (h : Handler) : State := { s with handlers := upsert (fun x => x.core == h.core) h s.handlers }

/-- A handler run ends (R351, R352, R357); what it has issued performs. -/
def State.endHandler (s : State) (core : Nat) : State :=
  let s1 := s.rollback core 128
  let s2 := match s1.group core 128 with | some g => s1.endGroup { g with grp := 64 } | none => s1
  s2.setHandler { s.handler core with serving := none }

/-- The teams of a launch. -/
def State.launchTeams (s : State) (lid : Nat) : List Team := s.teams.filter fun t => t.lid == lid

/-- The stamp of an object's header is cleared: word 1 with its tag (R217, R231). -/
def State.clearStamp (s : State) (l : Loc) : State :=
  let h := l.plus 8
  (s.writeLocs (((List.range 8).map h.plus).zip (leBytes 8 (2 ^ 63)))).setTagLoc h
/-- The context's address space as a walk uses it: the issuing team's accesses without the private check. -/
def State.walkWho (s : State) (w : Walk) : Who :=
  match s.team w.team with
  | some t => { core := t.core, cid := t.cid, aid := (s.ctx t.cid).aid, owner := t.core * 128 + t.slot, noPriv := true }
  | none => { core := w.core, cid := w.cid, aid := (s.ctx w.cid).aid, owner := 0xFFFF, noPriv := true }
/-- The stamps of a walk are cleared, its chain is undone (R231, R236). -/
def State.clearStamps (s : State) (w : Walk) : State :=
  w.chain.foldl (fun (u : State) (va : Nat) =>
    match u.xlate (u.walkWho w) va .wr with
    | .ok l => u.clearStamp l
    | _ => u) s
/-- What the walker does to lines of an object from one on: `f` at each that translates. -/
def State.onLines (s : State) (w : Walk) (va first n : Nat) (f : State → Nat → Nat → State) : State :=
  (List.range (n - first)).foldl (fun (u : State) (i : Nat) =>
    match u.xlate (u.walkWho w) (va + 128 * (first + i)) .wr with
    | .ok (.glob aid gpa) => f u aid gpa
    | _ => u) s

/-- An object in hand whose header is marked stays published as a whole when its walk ends early: the lines that the walk has not come to
leave the L1 of their owner, and are published (R233, R236). -/
def State.sealObj (s : State) (w : Walk) : State :=
  match w.obj with
  | some (base, n, l) => s.onLines w base l n fun u aid gpa => (u.flushP (lineOf aid gpa)).setPub aid gpa true
  | none => s
/-- Walks end at once, their stamps cleared (R236). -/
def State.endWalks (s : State) (p : Walk → Bool) : State :=
  let s1 := (s.walks.filter p).foldl (fun (u : State) (w : Walk) => (u.sealObj w).clearStamps w) s
  { s1 with walks := s1.walks.filter fun w => !p w }

/-- Stop a team for good: EXIT injected into every group (a fence window rolls back first), the stream killed with its latch and
staging, walks ended, stopped copies retired at once, a handler that serves it abandoned (R183, R203, R251, R364, R365). -/
def State.killTeam (s00 : State) (t : Team) : State :=
  let s0 := (s00.teamGroups t.tid).foldl (fun (u : State) (g : Group) => u.rollback g.core g.slot) s00
  let s1 := ((s0.teamGroups t.tid).foldl (fun (u : State) (g : Group) => u.endGroup g) s0).endWalks fun w => w.team == t.tid
  let h := s1.handler t.core
  let s2 := if h.serving == some t.tid then s1.endHandler t.core else s1
  let h2 := s2.handler t.core
  let s3 := s2.setHandler { h2 with waiting := h2.waiting.filter fun x => x != t.tid }
  let s4 := { s3 with copies := s3.copies.filter fun c => !(c.team == t.tid && c.stuck) }
  match s4.team t.tid with
  | some u => s4.setTeam { u with dead := true, halt := none, queued := [],
                                  stream := { u.stream with running := false, latch := none, part := [], staged := [], held := none, adding := none } }
  | none => s4

/-- Abort a launch (R365). Faults of its teams stay until they are answered (R303). -/
def State.abortLaunch (s : State) (lid : Nat) : State :=
  let s1 := (s.launchTeams lid).foldl (fun u t => u.killTeam t) s
  match s1.launch lid with
  | some l => s1.setLaunch { l with ending := some (l.ending.getD .aborted), held := none }
  | none => s1

/-- Begin the removal of a context (R364 step 1). -/
def State.destroy (s : State) (cid : Nat) : State :=
  let c := s.ctx cid
  s.setCtx { c with st := .destroyed }

/-! ## The trap record (R348) as a number -/

def TrapRec.bits (r : TrapRec) : Nat :=
  r.pc.toNat + r.addr.toNat * 2 ^ 64 + r.detail.toNat * 2 ^ 128 + r.gov.toNat * 2 ^ 192 + r.done.toNat * 2 ^ 224 + r.lanes.toNat * 2 ^ 256
    + r.cause.code * 2 ^ 288 + r.clidx % 64 * 2 ^ 296 + b2n r.lanei * 2 ^ 302 + b2n r.stage * 2 ^ 303 + r.group % 32 * 2 ^ 304
    + b2n r.streamF * 2 ^ 309 + r.spc.toNat * 2 ^ 384 + r.reason.toNat * 2 ^ 488 + r.code.toNat * 2 ^ 496
def TrapRec.word (r : TrapRec) (w : Nat) : Word := BitVec.ofNat 32 (bitsOf r.bits (32 * w) 32)

/-! ## Images in save memory (R359; log 20) -/

def wordBytes (ws : List Word) : List Byte := ws.flatMap fun w => leBytes 4 w.toNat
/-- Bytes filled up with zeros to a length. -/
def padTo (n : Nat) (bs : List Byte) : List Byte := (bs ++ List.replicate (n - bs.length) 0).take n
def granules (n : Nat) : Nat := (n + 4095) / 4096

/-- The register image of a group: s0 onwards rounded up to 4 KiB, then the lane registers. -/
def Group.imageSize (g : Group) : Nat := granules (4 * g.sregs.length) + granules (128 * g.vregs.length)
def Group.imageBytes (g : Group) : List Byte :=
  padTo (4096 * granules (4 * g.sregs.length)) (wordBytes g.sregs) ++ g.vregs.flatMap wordBytes

/-- The team image: header, stash window, accumulator tiles, a0-a7, latch. Within the header, the stream's part from 0x140 on is laid
out in the order in which R359 names it (DESIGN CHOICE; log 20). -/
def Barrier.words (b : Barrier) : List Word := [BitVec.ofNat 32 b.count, BitVec.ofNat 32 b.arrived, b.phase, 0]
def Loop.words (l : Loop) : List Word := [BitVec.ofNat 32 l.reg, BitVec.ofNat 32 l.total, loOf l.start, hiOf l.start, loOf l.stop, hiOf l.stop]
def Stream.words (st : Stream) : List Word :=
  [loOf st.pc, hiOf st.pc] ++ st.k ++ ((st.loops.flatMap Loop.words) ++ List.replicate 24 0).take 24
    ++ [match st.latch with | some (r, as) => BitVec.ofNat 32 (2 ^ 31 + r + 256 * as.length) | none => 0, BitVec.ofNat 32 st.rdvCount]
def AReg.image (a : AReg) : List Byte := padTo 8192 a.bytes
/-- The latch: one A register with its tag, which follows its 8 KiB (DESIGN CHOICE, log 20), or the pair of R190. -/
def Stream.latchImage (st : Stream) : List Byte :=
  match st.latch with
  | some (_, [a]) => a.image ++ leBytes 4 a.tag
  | some (_, as) => as.flatMap AReg.image
  | none => []
def Team.imageSize (t : Team) : Nat := 1 + t.window / 4096 + 4 * t.acc.length + 16 + 4
def State.teamImage (s : State) (t : Team) : List Byte :=
  let record := leBytes 64 (match t.record with | some r => r.bits | none => 0)
  let cbars := if t.rank = 0 then match s.cluster t.cluster with | some c => c.cbars.flatMap Barrier.words | none => [] else []
  padTo 0x140 (record ++ wordBytes (t.bars.flatMap Barrier.words)) ++ padTo 0x2C0 (wordBytes t.stream.words) ++ padTo 0xC00 (wordBytes cbars)
    ++ t.stash.getAll 0 t.window ++ (t.acc.flatMap fun tile => padTo 16384 (wordBytes tile)) ++ (t.stream.a.flatMap AReg.image)
    ++ padTo 16384 t.stream.latchImage

/-- The granules of save memory that images of a context take, and the first that fits one of a size, above the header pages and
the walk areas. -/
def State.images (s : State) (cid : Nat) : List (Nat × Nat) :=
  let mine (tid : Nat) : Bool := match s.team tid with | some t => t.cid == cid | none => false
  ((s.groups.filter fun g => mine g.team).filterMap fun (g : Group) => g.image) ++
    ((s.teams.filter fun t => t.cid == cid).filterMap fun (t : Team) => t.image)
def firstFit (base top size : Nat) (used : List (Nat × Nat)) : Option Nat :=
  let fits (a : Nat) : Bool := decide (a + size ≤ top) && used.all fun p => decide (p.1 + p.2 ≤ a) || decide (a + size ≤ p.1)
  ((base :: used.map fun p => p.1 + p.2).filter fits).foldl (fun m a => match m with | some x => some (min x a) | none => some a) none
def State.imageRoom (s : State) (cid size : Nat) : Option Nat :=
  let c := s.ctx cid
  firstFit (saveNeed / 4096) (c.saveSize.toNat / 4096) size (s.images cid)

/-- The register image of a group is written; none when it finds no room. -/
def State.imageGroup (s : State) (g : Group) : Option State :=
  match s.team g.team with
  | none => none
  | some t =>
    let c := s.ctx t.cid
    match (match g.image with | some p => some p.1 | none => s.imageRoom t.cid g.imageSize) with
    | none => none
    | some n =>
      some ((s.writeBytes c.aid (c.saveBase.toNat + 4096 * n) g.imageBytes).editGroup g.team g.grp fun x =>
        { x with image := some (n, g.imageSize) })
/-- The image of a team all of whose groups are saved; none when it finds no room. -/
def State.imageTeam (s : State) (tid : Nat) : Option State :=
  match s.team tid with
  | none => some s
  | some t =>
    if (s.teamGroups tid).all (fun g => g.saved) then
      let c := s.ctx t.cid
      match s.imageRoom t.cid t.imageSize with
      | none => none
      | some n => some ((s.writeBytes c.aid (c.saveBase.toNat + 4096 * n) (s.teamImage t)).setTeam { t with image := some (n, t.imageSize) })
    else some s

/-! ## Saving (R359) -/

/-- A group can be saved: no incomplete clause, no logged fault, nothing of its own under way (R359). -/
def Group.savable (g : Group) : Bool := g.lanesDone && g.slot != 128 && g.quiet && !g.ended

/-- A sleeping fragment that is saved or parked keeps the clocks still to run, and sleeps them after its return (R109). -/
def Fragment.toLeft (now : Nat) (f : Fragment) : Fragment := { f with wait := match f.wait with | some (.sleep u) => some (.sleep (u - now)) | w => w }
def Fragment.toClock (now : Nat) (f : Fragment) : Fragment := { f with wait := match f.wait with | some (.sleep u) => some (.sleep (now + u)) | w => w }

/-- The sleeping fragments of a group that leaves its core, and of one that comes back to it; a parked group's are not on the core. -/
def Group.toLeft (now : Nat) (g : Group) : Group :=
  if g.parkAt.isSome then g else { g with slot0 := g.slot0.map (Fragment.toLeft now), slot1 := g.slot1.map (Fragment.toLeft now) }
def Group.toClock (now : Nat) (g : Group) : Group :=
  if g.parkAt.isSome then g else { g with slot0 := g.slot0.map (Fragment.toClock now), slot1 := g.slot1.map (Fragment.toClock now) }

/-- A group that is saved now ties its team to its core (R363): it is parked, or its team is halted. -/
def State.fixed (s : State) (g : Group) : Bool := g.park.isSome || (match s.team g.team with | some t => t.halt.isSome || !t.queued.isEmpty | none => false)

/-- A group leaves its slot with its whole state (R133, R359); its window rolls back first. Without room for its image, or for its
team's when it is the last, it stays. -/
def State.saveGroup (s : State) (g : Group) (urgent : Bool := false) (sliced : Bool := false) : State :=
  let s1 := s.rollback g.core g.slot
  match s1.group g.core g.slot with
  | none => s1
  | some h =>
    if !h.savable then s1
    else
      match (s1.writePage h).imageGroup h with
      | none => s1
      | some s2 =>
        let out (x : Group) : Group := { x.toLeft s.cycle with saved := true, savedAt := s2.nextId, urgent, sliced, stay := s.fixed h, leaving := false }
        let s3 := { s2 with nextId := s2.nextId + 1, groups := s2.groups.map fun (x : Group) => if x.isAt h.core h.slot then out x else x }
        (s3.imageTeam h.team).getD s1

/-- Suspension stops and saves every group of the context (R304). -/
def State.saveContext (s : State) (cid : Nat) : State :=
  let tids := (s.teams.filter fun t => t.cid == cid && !t.retired).map fun t => t.tid
  (s.groups.filter fun g => tids.contains g.team && !g.saved && g.park.isNone).foldl (fun t g => t.saveGroup g) s

def State.suspendIf (s : State) (cid : Nat) : State := if (s.ctx cid).st == .suspended then s.saveContext cid else s

/-! ## Traps -/

/-- The actions of R345. -/
inductive Action where
  | kill | replay | park | handle | forward
  deriving DecidableEq, Repr
def Action.ofCode : Nat → Action
  | 0 => .kill | 1 => .replay | 2 => .park | 3 => .handle | _ => .forward

/-- The action of a cause: TRAPS first, then the table's field (R345). -/
def State.action (s : State) (c : Context) (k : Cause) : Action :=
  if (s.ast c.aid).traps then .forward
  else
    let r := if k.code < 16 then c.actlo else c.acthi
    Action.ofCode ((r >>> (4 * (k.code % 16))).toNat % 16)


/-- The instruction of a record is TRAP or BRK, also when its handler ended in DOUBLE (R282, R352; DEDUCED, log 25). -/
def TrapRec.onPurpose (r : TrapRec) : Bool :=
  let c := if r.cause == .double then bitsOf r.detail.toNat 8 8 else r.cause.code
  c == Cause.trap.code || c == Cause.brk.code

/-- Resume a team's culprit (R346 REPLAY, R173, R203, R282): TRAP and BRK go on at the next word, faulting lanes are
taken again, a stopped copy or stream goes on. -/
def State.replayCulprit (s : State) (t : Team) (r : TrapRec) : State :=
  match r.culprit with
  | .scalar _ k =>
    if r.onPurpose then s.editGroup t.tid r.group fun g => g.editFrag k fun fr => fr.goto (r.pc + 4) else s
  | .lane slot _ =>
    s.editGroup t.tid r.group fun g => { g with olog := g.olog.map fun (e : LogEntry) =>
      if (t.queued.any fun q => q.culprit == .lane slot e.seq) then e
      else { e with retry := false
                    lanes := e.lanes.map fun (l : LaneEntry) => match l.stat with | .bad _ _ _ _ => { l with stat := .service } | _ => l } }
  | .load _ q =>
    s.editGroup t.tid r.group fun g => { g with loads := g.loads.map fun l => if l.seq == q then { l with bad := false } else l }
  | .store _ q =>
    s.editGroup t.tid r.group fun g => { g with sbuf := g.sbuf.map fun b => if b.seq == q then { b with bad := false } else b }
  | .copy id => { s with copies := s.copies.map fun c => if c.id == id then { c with stuck := false } else c }
  | .stream =>
    match s.team t.tid with
    | some u => s.setTeam { u with stream := { u.stream with stopped := false, pc := if r.reason == 9 then r.spc + 8 else u.stream.pc } }
    | none => s
  | .laneWord _ _ | .walk _ | .device => s

/-- A clause word that its fragment is at counts as complete: a long-latency one for its clause's flags too. -/
def Group.skipWord (g : Group) (k : Nat) : Group :=
  match g.frag k with
  | none => g
  | some fr =>
    match fr.queue with
    | c :: _ =>
      let h := match c.body[c.idx]? with
        | some w => g.llDone c.uid (c.attached w)
        | none => g
      h.stepClause k fr
    | [] => g

/-- A copy leaves its batch and its scoreboard entry (R204, R206). -/
def Group.dropCopy (g : Group) (id : Nat) : Group :=
  { g with opened := g.opened.filter fun x => x != id
           sealed_ := g.sealed_.map fun l => l.filter fun x => x != id }
def State.dropCopy (s : State) (id : Nat) : State :=
  { s with copies := s.copies.filter fun c => c.id != id
           groups := s.groups.map fun g => g.dropCopy id }

/-- The faulting instruction counts as complete (TRET.skip, R357). -/
def State.skipCulprit (s : State) (t : Team) (r : TrapRec) : State :=
  match r.culprit with
  | .scalar _ k => s.editGroup t.tid r.group fun g => g.editFrag k fun fr => fr.goto (r.pc + if r.pair then 8 else 4)
  | .laneWord _ k => s.editGroup t.tid r.group fun g => g.skipWord k
  | .lane _ q =>
    s.editGroup t.tid r.group fun g => { g with olog := g.olog.map fun (e : LogEntry) => if e.seq == q then
      { e with lanes := e.lanes.map fun (l : LaneEntry) => match l.stat with | .bad _ _ _ _ => { l with stat := .done } | _ => l } else e }
  | .load _ q => s.editGroup t.tid r.group fun g => { g with loads := g.loads.filter fun l => l.seq != q }
  | .store _ q => s.editGroup t.tid r.group fun g => { g with sbuf := g.sbuf.filter fun b => b.seq != q }
  | .copy id => s.dropCopy id
  | .walk _ => s
  | .stream =>
    match s.team t.tid with
    | some u => s.setTeam { u with stream := { u.stream with stopped := false, pc := r.spc + 8, part := [] } }
    | none => s
  | .device => s

/-- The team leaves its halt (R346, R349, R357): the stalled-join rule is applied again; a queued cause is delivered
before any group issues; a failed ATS translation is asked for again (R313). -/
def State.leaveHalt (s : State) (tid : Nat) (skip : Bool) : State :=
  match s.team tid with
  | none => s
  | some t =>
    let s1 := match t.record with
      | some r => if skip then s.skipCulprit t r else s.replayCulprit t r
      | none => s
    let s2 := match s1.team tid with
      | some u => s1.setTeam { u with halt := none, issued := s1.time }
      | none => s1
    { s2 with
      groups := s2.groups.map fun g => if g.team == tid && g.slot != 128 then { g with skid := 0 }.releaseStalled else g
      ats := s2.ats.filter fun q => !(q.1 == 0 && q.2.2.1 == t.cid) }

/-- Apply an action to a halted team (R346); an SVC under FORWARD issues again, to park its group (R279, R300). DESIGN CHOICE: the PC of
a FAULT event for a cause of the matrix stream is SPC, though its record's PC is 0 (R302; log 59). -/
def State.applyAction (s : State) (tid : Nat) (a : Action) : State :=
  match s.team tid with
  | none => s
  | some t =>
    let r := t.record.getD { cause := .illegal }
    let fault (park : Bool) : State :=
      match s.placeFault t.cid { fid := 0, team := some tid, lid := t.lid, target := none, park, cause := r.cause, addr := r.addr,
                                 pc := if r.streamF then r.spc else r.pc, lanes := r.lanes, backing := 15 } with
      | (s1, fid) =>
        match s1.team tid with
        | some u => (s1.setTeam { u with halt := some (.held fid) }).suspendIf t.cid
        | none => s1
    match a with
    | .kill => if r.cause == .double then s.destroy t.cid else s.abortLaunch t.lid
    | .replay => s.leaveHalt tid false
    | .park => fault true
    | .handle =>
      if (s.ctx t.cid).hentry == 0 then fault false
      else
        let h := s.handler t.core
        (s.setTeam { t with halt := some .handle }).setHandler { h with waiting := h.waiting ++ [tid] }
    | .forward =>
      match r.cause, r.culprit with
      | .svc, .scalar _ k =>
        (s.leaveHalt tid false).editGroup tid r.group fun g => g.editFrag k fun fr => { fr with wait := some .forward }
      | _, _ => fault false

/-- Whether a cause is decided before a later scalar word of its group issues (R112). -/
def Culprit.precise : Culprit → Bool
  | .scalar _ _ => true
  | _ => false
/-- The scalar words that a group has issued after a load or store whose data failed (R112); SKID has 5 bits (R358). -/
def Group.later (g : Group) : Culprit → Option Nat
  | .load _ q => (g.loads.find? fun l => l.seq == q).map fun l => min 31 (g.words - l.after)
  | .store _ q => (g.sbuf.find? fun b => b.seq == q).map fun b => min 31 (g.words - b.after)
  | _ => none
/-- SKID of a group when its team halts (R347): how many scalar words it issued after the halt reached it. DESIGN CHOICE: every group stops
at once, with SKID 0 (log 10); for the group whose scalar load or store raised the cause, it is the words that issued after that one
(R112). -/
def skidOf (g : Group) (r : TrapRec) : Nat :=
  if g.park.isSome || g.saved || g.grp != r.group || r.culprit.precise then 0 else (g.later r.culprit).getD 0

/-- Delivery of a cause halts the team (R347, R348): windows roll back, the record and the header pages are written, and
the action of the table is applied. -/
def State.deliver (s : State) (tid : Nat) (r : TrapRec) : State :=
  let s1 : State := (s.teamGroups tid).foldl (fun (u : State) (g : Group) => u.rollback g.core g.slot) s
  let s2 : State := { s1 with groups := s1.groups.map fun (g : Group) =>
    if g.team == tid && g.slot != 128 then { g with skid := BitVec.ofNat 32 (skidOf g r + b2n (g.grp == r.group) * 256) } else g }
  let s3 : State := (s2.teamGroups tid).foldl (fun (u : State) (g : Group) => if g.saved then u else u.writePage g) s2
  match s3.team tid with
  | none => s3
  | some t =>
    let s4 := s3.setTeam { t with record := some r }
    if r.cause == .watchdog then s4.destroy t.cid else s4.applyAction tid (s4.action (s4.ctx t.cid) r.cause)

/-- HBM_UE and INTEGRITY_FAIL are logged when a fill, or the read of a translation table, has raised their cause (R322, R389). -/
def State.logFill (s : State) (t : Team) (r : TrapRec) : State :=
  let aid := (s.ctx t.cid).aid
  if !(r.cause == .integrity || r.cause == .uncorr) then s
  else
    match s.walkVa aid r.addr.toNat with
    | .tableFault .uncorr _ gpa => s.rasFree (partOfId aid) 0x0002 (gpaHome gpa) (BitVec.ofNat 64 gpa)
    | .tableFault .integrity _ gpa => s.rasFree (partOfId aid) 0x0003 (gpaHome gpa) (BitVec.ofNat 64 gpa)
    | .leaf l =>
      let gpa := l.gpa + (r.addr.toNat - l.base)
      match s.fillFault aid gpa false with
      | some (.uncorr, _) => s.rasFree (partOfId aid) 0x0002 (gpaHome gpa) (BitVec.ofNat 64 gpa)
      | some (.integrity, _) => s.rasFree (partOfId aid) 0x0003 (gpaHome gpa) (BitVec.ofNat 64 gpa)
      | _ => s
    | _ => s

/-- A cause that arises while the team is halted waits; otherwise it is delivered (R349). -/
def State.trapTeam (s0 : State) (tid : Nat) (r : TrapRec) : State :=
  match s0.team tid with
  | none => s0
  | some t =>
    let s := (s0.logFill t r).atsSpent t.core t.cid
    if t.halt.isSome || !t.queued.isEmpty then s.setTeam { t with queued := t.queued ++ [r] } else s.deliver tid r

/-- A trap in the handler abandons it and raises DOUBLE on the halted team (R352). -/
def State.double (s : State) (g : Group) (r : TrapRec) (pc : DWord) : State :=
  let s1 := (s.endHandler g.core).atsSpent g.core (s.who g).cid
  match s1.team g.team with
  | none => s1
  | some t =>
    let o := t.record.getD { cause := .illegal }
    let d := { o with cause := .double, addr := pc, detail := BitVec.ofNat 64 (r.cause.code + o.cause.code * 256) }
    let s2 := s1.setTeam { t with record := some d, halt := none }
    s2.applyAction g.team (s2.action (s2.ctx t.cid) .double)

/-- TAKING AN EXCEPTION: a group raises a cause (R344-R352). -/
def State.raise (s : State) (g : Group) (r : TrapRec) : State :=
  if g.slot == 128 then s.double g r r.pc else s.trapTeam g.team { r with group := g.grp }

/-- A cause of the matrix stream stops it before the failing word takes effect, but for what an MST has written, and leaves nothing of
the word's tile; its team's record has PC 0 (R184, R348; log 52). It goes to the forking group, else to the lowest-numbered group present (R184). -/
def State.streamGroup (s : State) (t : Team) : Nat :=
  let gs := (s.teamGroups t.tid).map fun g => g.grp
  if gs.contains t.stream.forker then t.stream.forker else gs.foldl min 32
def State.raiseStream (s : State) (t : Team) (r : TrapRec) : State :=
  let s1 := s.setTeam { t with stream := { t.stream with stopped := true, part := [], held := none, adding := none } }
  let n := s.streamGroup t
  s1.trapTeam t.tid { r with group := if n = 32 then 0 else n, streamF := true, spc := t.stream.pc, culprit := .stream }

/-! ## Executing a scalar word -/

/-- What may issue in a fence window (R250). -/
def inWindow : Instr → Bool
  | .sadd .. | .ssub .. | .smul .. | .smulhi .. | .smulhn .. | .smulw .. | .sdivi .. | .sdivn .. | .sremi .. | .sremn ..
  | .sand .. | .sor .. | .sxor .. | .sandn .. | .sshl .. | .sshr .. | .ssra .. | .srot .. | .smini .. | .sminn ..
  | .smaxi .. | .smaxn .. | .sclz .. | .spopc .. | .sbrev .. | .sceq .. | .scne .. | .sclti .. | .scltn .. | .sclei ..
  | .sclen .. | .saddp .. | .ssubp .. | .sshlp .. | .sshrp .. | .smovi .. | .smovhi .. | .saddi .. | .sandi .. | .sori ..
  | .sxori .. | .sshli .. | .sshri .. | .ssrai .. | .sceqi .. | .scltis .. | .scltin .. | .smov .. | .smovx ..
  | .smovxW .. | .brz .. | .brnz .. | .brany .. | .brall .. | .brnone .. | .jmp .. | .call .. | .ret .. | .jmpr ..
  | .nop | .mfrom .. | .mto .. | .mand .. | .mor .. | .mxor .. | .mandn .. | .mnot .. | .mpopc .. | .mfirst ..
  | .exset .. | .exsetAll | .exsave .. | .lrun .. | .ftest .. | .sld32 .. | .sld64 .. | .sst32 .. | .sst64 .. => true
  | .sget _ sel => !(sel == 12 || sel == 13)
  | .vld _ _ _ _ ctl | .vst _ _ _ _ ctl => ctl.order == .rlx
  | .vprf .. => true
  | .vadd .. | .vsub .. | .vmul .. | .vmulhi .. | .vmad .. | .vmin .. | .vmax .. | .vabs .. | .vneg .. | .vand .. | .vor ..
  | .vxor .. | .vandn .. | .vnot .. | .vshl .. | .vshr .. | .vsra .. | .vrot .. | .vclz .. | .vpopc .. | .vbfx .. | .vbfi ..
  | .vcmp .. | .vsel .. | .vmov .. | .viota .. | .vfadd .. | .vfsub .. | .vfmul .. | .vfma .. | .vfmin .. | .vfmax ..
  | .vfabs .. | .vfneg .. | .vfcmp .. | .vfdiv .. | .vfsqrt .. | .vfrcp .. | .vfrsq .. | .vfexp2 .. | .vflog2 ..
  | .vfsinp .. | .vfcosp .. | .vftanh .. | .vfrnd .. | .vcvt .. | .vpack .. | .vunpk .. | .vq4n .. | .vt3p .. | .vshuf ..
  | .vbcst .. | .vreds .. | .vscan .. | .vvote .. | .vmatch .. => true
  | _ => false

/-- A fence lets the fragment issue the instruction: none is pending, or its window takes it (R250). -/
def Fragment.passes (fr : Fragment) (i : Instr) (pair : Bool) : Bool :=
  match fr.fence with
  | none => true
  | some f => f.spec && !f.hold && !pair && inWindow i && decide (f.issued < 256)
def Fragment.hold (fr : Fragment) : Fragment := { fr with fence := fr.fence.map fun f => { f with hold := true } }
def Fragment.count (fr : Fragment) : Fragment := { fr with fence := fr.fence.map fun f => { f with issued := f.issued + 1 } }

/-- A scalar instruction's own trap: precise, at its address or its ORD's (R62, R70); in a fence window it is held
until the fence completes (R251). -/
def State.trapAt (s : State) (g : Group) (fr : Fragment) (k : Nat) (c : Cause) (detail addr : DWord)
    (stage : Bool := false) : Out :=
  if fr.fence.isSome then .next (s.put g k fr.hold)
  else .next (s.raise g { cause := c, detail, addr, stage, pc := fr.pc, pair := s.ord.pair, culprit := .scalar g.slot k })

/-- A scalar instruction: the fence window, the checks of its encoding and allocation (R37, R56, R72), then the register
waits of R95, then its own effect. A wait leaves the state unchanged: the fragment is not ready and the word issues
again (R25). -/
def scalar (i : Instr) (rs : List Nat) (s : State) (body : Group → Fragment → Nat → Out) : Out :=
  match s.here with
  | none => .fault .noAgent
  | some (g, fr, k) =>
    if !fr.passes i s.ord.pair then .next (s.put g k fr.hold)
    else if !i.legal || rs.any (fun r => decide (g.sregs.length ≤ r)) then s.trapAt g fr k .illegal 0 0
    else if g.busy k i rs then .next s
    else body g fr.count k

/-- As `scalar`, for an instruction that the handler slot refuses (R352). -/
def scalarGroup (i : Instr) (rs : List Nat) (s : State) (body : Group → Fragment → Nat → Out) : Out :=
  scalar i rs s fun g fr k => if g.slot == 128 then s.trapAt g fr k .illegal 0 0 else body g fr k

/-- As `scalar`, for an instruction of the handler slot only: PRIV first (R59, R72). -/
def scalarHandler (i : Instr) (rs : List Nat) (s : State) (body : Group → Fragment → Nat → Out) : Out :=
  match s.here with
  | none => .fault .noAgent
  | some (g, fr, k) => if g.slot != 128 then s.trapAt g fr k .priv 0 0 else scalar i rs s body

end Sys2Proof.Machine
end

