-- ==== Sys2Proof/Machine/ScalarAlu.lean ====
section
/-! DEFINITION. Scalar arithmetic, immediates, moves and special registers (R95-R104). -/

namespace Sys2Proof.Machine

/-- The registers of a pair. -/
def pairRegs (r : BitVec 8) : List Nat := [r.toNat, r.toNat + 1]

/-- The bits of a word from bit 31 down, and its lowest one bit (R97, R125). -/
def clz32 (a : Word) : Nat := ((List.range 32).find? fun i => a.getLsbD (31 - i)).getD 32
def bool32 (b : Bool) : Word := if b then 1 else 0
def bitrev32 (a : Word) : Word := maskOf fun i => a.getLsbD (31 - i)

/-- Division (R98). -/
def quotI (a b : Word) : Word := if b = 0 then 0xFFFFFFFF else a.sdiv b
def quotN (a b : Word) : Word := if b = 0 then 0xFFFFFFFF else a / b
def remI (a b : Word) : Word := if b = 0 then a else a.srem b
def remN (a b : Word) : Word := if b = 0 then a else a % b

/-- Shifts by bits 4:0 (R99). -/
def shAmt (b : Word) : Nat := b.toNat % 32
def shl32 (a b : Word) : Word := a <<< shAmt b
def shr32 (a b : Word) : Word := a >>> shAmt b
def sra32 (a b : Word) : Word := a.sshiftRight (shAmt b)
def rol32 (a b : Word) : Word := a.rotateLeft (shAmt b)

/-- The upper halves of the products (R97). -/
def mulhiI (a b : Word) : Word := hiOf (a.signExtend 64 * b.signExtend 64)
def mulhiN (a b : Word) : Word := hiOf (a.zeroExtend 64 * b.zeroExtend 64)

def minI (a b : Word) : Word := if a.slt b then a else b
def minN (a b : Word) : Word := if a.ult b then a else b
def maxI (a b : Word) : Word := if a.slt b then b else a
def maxN (a b : Word) : Word := if a.ult b then b else a

/-! ## Shared shapes -/

/-- sd takes a function of sa and sb; of sa; of itself; the pair sd takes a function of the group. -/
def alu3 (i : Instr) (d a b : BitVec 8) (f : Word → Word → Word) (s : State) : Out :=
  scalar i [d.toNat, a.toNat, b.toNat] s fun g fr k =>
    .next (s.put (g.setS d.toNat (f (g.s a.toNat) (g.s b.toNat))) k (s.fall fr))
def alu2 (i : Instr) (d a : BitVec 8) (f : Word → Word) (s : State) : Out :=
  scalar i [d.toNat, a.toNat] s fun g fr k => .next (s.put (g.setS d.toNat (f (g.s a.toNat))) k (s.fall fr))
def aluImm (i : Instr) (d : BitVec 8) (f : Word → Word) (s : State) : Out :=
  scalar i [d.toNat] s fun g fr k => .next (s.put (g.setS d.toNat (f (g.s d.toNat))) k (s.fall fr))
def aluPair (i : Instr) (d : BitVec 8) (rs : List Nat) (f : Group → DWord) (s : State) : Out :=
  scalar i (pairRegs d ++ rs) s fun g fr k => .next (s.put (g.setPair d.toNat (f g)) k (s.fall fr))

/-! ## Register arithmetic (R96-R100) -/

def execSadd (d a b : BitVec 8) (s : State) : Out := alu3 (.sadd d a b) d a b (fun x y => x + y) s
def execSsub (d a b : BitVec 8) (s : State) : Out := alu3 (.ssub d a b) d a b (fun x y => x - y) s
def execSmul (d a b : BitVec 8) (s : State) : Out := alu3 (.smul d a b) d a b (fun x y => x * y) s
def execSmulhi (d a b : BitVec 8) (s : State) : Out := alu3 (.smulhi d a b) d a b mulhiI s
def execSmulhn (d a b : BitVec 8) (s : State) : Out := alu3 (.smulhn d a b) d a b mulhiN s
def execSmulw (d a b : BitVec 8) (s : State) : Out :=
  aluPair (.smulw d a b) d [a.toNat, b.toNat] (fun g => (g.s a.toNat).zeroExtend 64 * (g.s b.toNat).zeroExtend 64) s
def execSdivi (d a b : BitVec 8) (s : State) : Out := alu3 (.sdivi d a b) d a b quotI s
def execSdivn (d a b : BitVec 8) (s : State) : Out := alu3 (.sdivn d a b) d a b quotN s
def execSremi (d a b : BitVec 8) (s : State) : Out := alu3 (.sremi d a b) d a b remI s
def execSremn (d a b : BitVec 8) (s : State) : Out := alu3 (.sremn d a b) d a b remN s
def execSand (d a b : BitVec 8) (s : State) : Out := alu3 (.sand d a b) d a b (fun x y => x &&& y) s
def execSor (d a b : BitVec 8) (s : State) : Out := alu3 (.sor d a b) d a b (fun x y => x ||| y) s
def execSxor (d a b : BitVec 8) (s : State) : Out := alu3 (.sxor d a b) d a b (fun x y => x ^^^ y) s
def execSandn (d a b : BitVec 8) (s : State) : Out := alu3 (.sandn d a b) d a b (fun x y => x &&& ~~~y) s
def execSshl (d a b : BitVec 8) (s : State) : Out := alu3 (.sshl d a b) d a b shl32 s
def execSshr (d a b : BitVec 8) (s : State) : Out := alu3 (.sshr d a b) d a b shr32 s
def execSsra (d a b : BitVec 8) (s : State) : Out := alu3 (.ssra d a b) d a b sra32 s
def execSrot (d a b : BitVec 8) (s : State) : Out := alu3 (.srot d a b) d a b rol32 s
def execSmini (d a b : BitVec 8) (s : State) : Out := alu3 (.smini d a b) d a b minI s
def execSminn (d a b : BitVec 8) (s : State) : Out := alu3 (.sminn d a b) d a b minN s
def execSmaxi (d a b : BitVec 8) (s : State) : Out := alu3 (.smaxi d a b) d a b maxI s
def execSmaxn (d a b : BitVec 8) (s : State) : Out := alu3 (.smaxn d a b) d a b maxN s
def execSclz (d a : BitVec 8) (s : State) : Out := alu2 (.sclz d a) d a (fun x => BitVec.ofNat 32 (clz32 x)) s
def execSpopc (d a : BitVec 8) (s : State) : Out := alu2 (.spopc d a) d a (fun x => BitVec.ofNat 32 (popCount x)) s
def execSbrev (d a : BitVec 8) (s : State) : Out := alu2 (.sbrev d a) d a bitrev32 s
def execSceq (d a b : BitVec 8) (s : State) : Out := alu3 (.sceq d a b) d a b (fun x y => bool32 (x == y)) s
def execScne (d a b : BitVec 8) (s : State) : Out := alu3 (.scne d a b) d a b (fun x y => bool32 (x != y)) s
def execSclti (d a b : BitVec 8) (s : State) : Out := alu3 (.sclti d a b) d a b (fun x y => bool32 (x.slt y)) s
def execScltn (d a b : BitVec 8) (s : State) : Out := alu3 (.scltn d a b) d a b (fun x y => bool32 (x.ult y)) s
def execSclei (d a b : BitVec 8) (s : State) : Out := alu3 (.sclei d a b) d a b (fun x y => bool32 (x.sle y)) s
def execSclen (d a b : BitVec 8) (s : State) : Out := alu3 (.sclen d a b) d a b (fun x y => bool32 (x.ule y)) s
def execSaddp (d a b : BitVec 8) (s : State) : Out :=
  aluPair (.saddp d a b) d (pairRegs a ++ pairRegs b) (fun g => g.pair a.toNat + g.pair b.toNat) s
def execSsubp (d a b : BitVec 8) (s : State) : Out :=
  aluPair (.ssubp d a b) d (pairRegs a ++ pairRegs b) (fun g => g.pair a.toNat - g.pair b.toNat) s
def execSshlp (d a b : BitVec 8) (s : State) : Out :=
  aluPair (.sshlp d a b) d (pairRegs a ++ [b.toNat]) (fun g => g.pair a.toNat <<< ((g.s b.toNat).toNat % 64)) s
def execSshrp (d a b : BitVec 8) (s : State) : Out :=
  aluPair (.sshrp d a b) d (pairRegs a ++ [b.toNat]) (fun g => g.pair a.toNat >>> ((g.s b.toNat).toNat % 64)) s

/-! ## Immediates (R101) -/

def execSmovi (d : BitVec 8) (i : BitVec 16) (s : State) : Out := aluImm (.smovi d i) d (fun _ => i.signExtend 32) s
def execSmovhi (d : BitVec 8) (i : BitVec 16) (s : State) : Out :=
  aluImm (.smovhi d i) d (fun x => i ++ x.extractLsb' 0 16) s
def execSaddi (d : BitVec 8) (i : BitVec 16) (s : State) : Out := aluImm (.saddi d i) d (fun x => x + i.signExtend 32) s
def execSandi (d : BitVec 8) (i : BitVec 16) (s : State) : Out := aluImm (.sandi d i) d (fun x => x &&& i.zeroExtend 32) s
def execSori (d : BitVec 8) (i : BitVec 16) (s : State) : Out := aluImm (.sori d i) d (fun x => x ||| i.zeroExtend 32) s
def execSxori (d : BitVec 8) (i : BitVec 16) (s : State) : Out := aluImm (.sxori d i) d (fun x => x ^^^ i.zeroExtend 32) s
def execSshli (d : BitVec 8) (i : BitVec 5) (s : State) : Out := aluImm (.sshli d i) d (fun x => x <<< i.toNat) s
def execSshri (d : BitVec 8) (i : BitVec 5) (s : State) : Out := aluImm (.sshri d i) d (fun x => x >>> i.toNat) s
def execSsrai (d : BitVec 8) (i : BitVec 5) (s : State) : Out := aluImm (.ssrai d i) d (fun x => x.sshiftRight i.toNat) s
def execSceqi (d : BitVec 8) (i : BitVec 16) (s : State) : Out :=
  aluImm (.sceqi d i) d (fun x => bool32 (x == i.signExtend 32)) s
def execScltis (d : BitVec 8) (i : BitVec 16) (s : State) : Out :=
  aluImm (.scltis d i) d (fun x => bool32 (x.slt (i.signExtend 32))) s
def execScltin (d : BitVec 8) (i : BitVec 16) (s : State) : Out :=
  aluImm (.scltin d i) d (fun x => bool32 (x.ult (i.zeroExtend 32))) s

/-! ## Moves and special registers (R49-R53, R102-R104) -/

def execSmov (d a : BitVec 8) (s : State) : Out := alu2 (.smov d a) d a (fun x => x) s
def execSmovx (d : BitVec 8) (far : BitVec 10) (s : State) : Out :=
  scalar (.smovx d far) [d.toNat, far.toNat] s fun g fr k =>
    .next (s.put (g.setS d.toNat (g.s far.toNat)) k (s.fall fr))
def execSmovxW (d : BitVec 8) (far : BitVec 10) (s : State) : Out :=
  scalar (.smovxW d far) [d.toNat, far.toNat] s fun g fr k =>
    .next (s.put (g.setS far.toNat (g.s d.toNat)) k (s.fall fr))

/-- The special registers that SGET reads (R14, R49-R52). What %grp reads in a handler run is open: free (log 25). -/
def State.sreg (s : State) (g : Group) (sel : Nat) : DWord :=
  let t := s.team g.team
  let tv (f : Team → Nat) : DWord := BitVec.ofNat 64 (match t with | some u => f u | none => 0)
  match sel with
  | 0x00 => BitVec.ofNat 64 (if g.slot == 128 then Config.choice 4 s.free % 32 else g.grp)
  | 0x01 => tv fun u => u.x.toNat
  | 0x02 => tv fun u => u.y.toNat
  | 0x03 => tv fun u => u.z.toNat
  | 0x04 => tv fun u => u.rank
  | 0x05 => BitVec.ofNat 64 g.core
  | 0x06 => BitVec.ofNat 64 (dieOf g.core)
  | 0x07 => tv fun u => u.cid % 1024
  | 0x08 => tv fun u => (s.descOf u).domain
  | 0x09 => BitVec.ofNat 64 s.time
  | 0x0A => BitVec.ofNat 64 s.cycle
  | 0x0B => g.rung.zeroExtend 64
  | 0x0C => g.fpctl.zeroExtend 64
  | _ => g.gstat.zeroExtend 64

def execSget (d sel : BitVec 8) (s : State) : Out :=
  let wide := sel == 9 || sel == 10
  scalar (.sget d sel) (if wide then pairRegs d else [d.toNat]) s fun g fr k =>
    if (sel == 12 || sel == 13) && !g.lanesDone then .next s
    else
      let v := s.sreg g sel.toNat
      .next (s.put (if wide then g.setPair d.toNat v else g.setS d.toNat (loOf v)) k (s.fall fr))

/-- The writable bits of %fpctl (R51). -/
def fpctlBits : Word := 0x003F1F07

/-- SSET: %fpctl after the waits of R53; in %gstat a 1 clears JLOST or SPILLED (R52, R104). -/
def execSset (d sel : BitVec 8) (s : State) : Out :=
  scalar (.sset d sel) [d.toNat] s fun g fr k =>
    if sel == 12 then
      if !g.lanesDone then .next s
      else .next (s.put { g with fpctl := g.s d.toNat &&& fpctlBits } k (s.fall fr))
    else
      let v := g.s d.toNat
      .next (s.put { g with jlost := g.jlost && !v.getLsbD 8, spilled := g.spilled && !v.getLsbD 10 } k (s.fall fr))

end Sys2Proof.Machine
end

