-- ==== Sys2Proof/Machine/ScalarCtl.lean ====
section
/-! DEFINITION. Control flow, masks, fragments and rejoin registers (R105-R109, R124-R135). -/

namespace Sys2Proof.Machine

/-- A branch target: 4 x sext(disp16) from the word (R55). -/
def branchTo (pc : DWord) (disp : BitVec 16) : DWord := pc + 4 * disp.signExtend 64

/-- Branch on a condition of a scalar register or of masks (R105, R106). -/
def branch (i : Instr) (rs : List Nat) (disp : BitVec 16) (taken : Group → Fragment → Bool) (s : State) : Out :=
  scalar i rs s fun g fr k => .next (s.put g k (if taken g fr then fr.goto (branchTo fr.pc disp) else s.fall fr))

/-- The lane instructions that write a mask (R120, R124): VCMP, VFCMP, VVOTE, VLDREF. -/
def maskDest : Instr → Option Nat
  | .vcmp _ _ _ d _ _ | .vfcmp _ _ _ d _ _ | .vvote _ _ _ d _ => some d.toNat
  | .vldref t _ _ _ _ => some t.toNat
  | _ => none

/-- Mask registers that lane instructions enqueued earlier by the group write and have not completed (R124), and those
of LDREFs without their data (R228). The words of a clause that do not decode write none. -/
def laneMasks (i : Instr) : List Nat := match maskDest i with | some m => [m] | none => []
def Clause.pendingMasks (c : Clause) : List Nat :=
  (c.body.drop c.idx).flatMap fun w => match decodeLane w with | .ok i => laneMasks i | .error _ => []
def Fragment.pendingMasks (o : Option Fragment) : List Nat :=
  match o with
  | some f => f.queue.flatMap Clause.pendingMasks
  | none => []
def Group.pendingMasks (g : Group) : List Nat :=
  Fragment.pendingMasks g.slot0 ++ Fragment.pendingMasks g.slot1 ++ (g.olog.flatMap fun e => laneMasks e.instr)
    ++ g.loads.filterMap fun l => l.tagTo
def Group.maskWait (g : Group) (ms : List Nat) : Bool := let p := g.pendingMasks; ms.any fun m => p.contains m

def branchMask (i : Instr) (c : BitVec 4) (disp : BitVec 16) (taken : Mask → Mask → Bool) (s : State) : Out :=
  scalar i [] s fun g fr k =>
    if g.maskWait [c.toNat, 0] then .next s
    else .next (s.put g k (if taken (g.mask fr c.toNat) fr.exec then fr.goto (branchTo fr.pc disp) else s.fall fr))

def execBrz (c : BitVec 8) (disp : BitVec 16) (s : State) : Out :=
  branch (.brz c disp) [c.toNat] disp (fun g _ => g.s c.toNat == 0) s
def execBrnz (c : BitVec 8) (disp : BitVec 16) (s : State) : Out :=
  branch (.brnz c disp) [c.toNat] disp (fun g _ => g.s c.toNat != 0) s
def execBrany (c : BitVec 4) (disp : BitVec 16) (s : State) : Out :=
  branchMask (.brany c disp) c disp (fun m e => m &&& e != 0) s
def execBrall (c : BitVec 4) (disp : BitVec 16) (s : State) : Out :=
  branchMask (.brall c disp) c disp (fun m e => m &&& e == e) s
def execBrnone (c : BitVec 4) (disp : BitVec 16) (s : State) : Out :=
  branchMask (.brnone c disp) c disp (fun m e => m &&& e == 0) s

/-- JMP, CALL, RET, JMPR (R107). -/
def execJmp (disp : BitVec 16) (s : State) : Out := branch (.jmp disp) [] disp (fun _ _ => true) s
def execCall (c : BitVec 8) (disp : BitVec 16) (s : State) : Out :=
  scalar (.call c disp) (pairRegs c) s fun g fr k =>
    .next (s.put (g.setPair c.toNat (fr.pc + 4)) k (fr.goto (branchTo fr.pc disp)))

/-- What is wrong with a target (R107, R128): PAGE before ALIGN. -/
def targetFault (t : DWord) : Option Cause :=
  if t.extractLsb' 56 8 != 0 then some .page else if t.extractLsb' 0 2 != 0 then some .align else none
def jumpTo (i : Instr) (a : BitVec 8) (s : State) : Out :=
  scalar i (pairRegs a) s fun g fr k =>
    let t := g.pair a.toNat
    match targetFault t with
    | some c => s.trapAt g fr k c 0 t
    | none => .next (s.put g k (fr.goto t))
def execRet (a : BitVec 8) (s : State) : Out := jumpTo (.ret a) a s
def execJmpr (a : BitVec 8) (s : State) : Out := jumpTo (.jmpr a) a s

/-- A fragment has left its slot: the stack refills it; with no lane left the group ends; else the stalled-join rule
(R108, R127, R130-R132). -/
def State.afterLeave (s : State) (g : Group) : State :=
  let h := g.refill
  if h.lanesLeft == 0 then s.endGroup h else (s.popped g h).setGroup h.releaseStalled

/-- Scalar loads of lanes that exit are discarded; an atomic that has issued performs, and writes no register (R108, R31). -/
def Group.dropLoads (g : Group) (lanes : Mask) : Group :=
  { g with loads := g.loads.filterMap fun (l : Load) =>
      let left := l.frag &&& ~~~lanes
      if left != 0 then some { l with frag := left } else l.orphan }

/-- EXIT (R108); with an item held by a lane of the fragment it raises LADDER reason 3 (R262). -/
def execExit (s : State) : Out :=
  scalarGroup .exit [] s fun g fr k =>
    if !g.clausesDone fr then .next s
    else if g.rung.getLsbD 31 && (lanesOf fr.mask).any fun l => (g.items.getD l none).isSome then
      s.trapAt g fr k .ladder (BitVec.ofNat 64 (3 + bitsOf g.rung.toNat 8 4 * 2 ^ 8)) 0
    else .next (s.afterLeave ((g.dropLoads fr.mask).clearFrag k))

/-- NOP, SLEEP (R109). SLEEP 0 gives up the turn only. -/
def execNop (s : State) : Out := scalar .nop [] s fun g fr k => .next (s.put g k (s.fall fr))
def execSleep (i : BitVec 16) (s : State) : Out :=
  scalar (.sleep i) [] s fun g fr k =>
    let t := s.fall fr
    .next (s.put g k (if i = 0 then t else { t with wait := some (.sleep (s.cycle + i.toNat)) }))

/-! ## Masks (R124-R126) -/

def maskOp (i : Instr) (d : BitVec 4) (ms : List Nat) (rs : List Nat) (f : Group → Fragment → Mask) (s : State) : Out :=
  scalar i rs s fun g fr k =>
    if g.maskWait (d.toNat :: ms) then .next s else .next (s.put (g.setMask fr d.toNat (f g fr)) k (s.fall fr))
def maskTo (i : Instr) (d : BitVec 8) (a : BitVec 4) (f : Mask → Word) (s : State) : Out :=
  scalar i [d.toNat] s fun g fr k =>
    if g.maskWait [a.toNat] then .next s else .next (s.put (g.setS d.toNat (f (g.mask fr a.toNat))) k (s.fall fr))

def execMfrom (d : BitVec 4) (a : BitVec 8) (s : State) : Out :=
  maskOp (.mfrom d a) d [] [a.toNat] (fun g _ => g.s a.toNat) s
def execMto (d : BitVec 8) (a : BitVec 4) (s : State) : Out := maskTo (.mto d a) d a (fun m => m) s
def execMand (d a b : BitVec 4) (s : State) : Out :=
  maskOp (.mand d a b) d [a.toNat, b.toNat] [] (fun g fr => g.mask fr a.toNat &&& g.mask fr b.toNat) s
def execMor (d a b : BitVec 4) (s : State) : Out :=
  maskOp (.mor d a b) d [a.toNat, b.toNat] [] (fun g fr => g.mask fr a.toNat ||| g.mask fr b.toNat) s
def execMxor (d a b : BitVec 4) (s : State) : Out :=
  maskOp (.mxor d a b) d [a.toNat, b.toNat] [] (fun g fr => g.mask fr a.toNat ^^^ g.mask fr b.toNat) s
def execMandn (d a b : BitVec 4) (s : State) : Out :=
  maskOp (.mandn d a b) d [a.toNat, b.toNat] [] (fun g fr => g.mask fr a.toNat &&& ~~~g.mask fr b.toNat) s
def execMnot (d a : BitVec 4) (s : State) : Out := maskOp (.mnot d a) d [a.toNat] [] (fun g fr => ~~~g.mask fr a.toNat) s
def execMpopc (d : BitVec 8) (a : BitVec 4) (s : State) : Out :=
  maskTo (.mpopc d a) d a (fun m => BitVec.ofNat 32 (popCount m)) s
def execMfirst (d : BitVec 8) (a : BitVec 4) (s : State) : Out :=
  maskTo (.mfirst d a) d a (fun m => BitVec.ofNat 32 (lowestLane m)) s

/-- EXSET and EXSAVE write EXEC within the fragment mask (R42, R126). -/
def execExset (c : BitVec 4) (s : State) : Out :=
  scalar (.exset c) [] s fun g fr k =>
    if g.maskWait [c.toNat, 0] then .next s else .next (s.put g k { s.fall fr with exec := g.mask fr c.toNat &&& fr.mask })
def execExsetAll (s : State) : Out :=
  scalar .exsetAll [] s fun g fr k =>
    if g.maskWait [0] then .next s else .next (s.put g k { s.fall fr with exec := fr.mask })
def execExsave (d c : BitVec 4) (s : State) : Out :=
  scalar (.exsave d c) [] s fun g fr k =>
    if g.maskWait [d.toNat, c.toNat, 0] then .next s
    else
      let h := g.setMask fr d.toNat fr.exec
      .next (s.put h k { s.fall fr with exec := fr.exec &&& h.mask fr c.toNat })

/-! ## Fragments (R127-R133) -/

/-- SPLIT (R128). -/
def execSplit (c : BitVec 4) (a : BitVec 8) (s : State) : Out :=
  scalar (.split c a) (pairRegs a) s fun g fr k =>
    let t := g.pair a.toNat
    if !g.clausesDone fr || g.maskWait [c.toNat, 0] then .next s
    else
      match targetFault t with
      | some e => s.trapAt g fr k e 0 t
      | none =>
        let taken := fr.exec &&& g.mask fr c.toNat
        let stay := fr.exec &&& ~~~g.mask fr c.toNat
        if taken == 0 then .next (s.put g k (s.fall fr))
        else if stay == 0 then .next (s.put g k (fr.goto t))
        else
          let new : Fragment := { mask := taken, exec := taken, pc := t }
          let h := g.setFrag k { s.fall fr with mask := fr.mask &&& ~~~taken, exec := stay }
          if h.slot0.isNone then .next (s.setGroup { h with slot0 := some new })
          else if h.slot1.isNone then .next (s.setGroup { h with slot1 := some new })
          else .next ((s.writeStack g h.stack.length (some new)).setGroup { h with stack := new :: h.stack, spilled := true })

def Group.rj (g : Group) (n : Nat) : Rejoin := g.rejoin.getD n {}
def Group.setRj (g : Group) (n : Nat) (r : Rejoin) : Group := { g with rejoin := g.rejoin.set n r }

def joinmis (s : State) (g : Group) (fr : Fragment) (k : Nat) (reason : Nat) : Out :=
  s.trapAt g fr k .joinmis (BitVec.ofNat 64 reason) 0

/-- JSET (R129): c = 0 names the fragment mask. -/
def execJset (n : BitVec 3) (c : BitVec 4) (s : State) : Out :=
  scalar (.jset n c) [] s fun g fr k =>
    if c != 0 && g.maskWait [c.toNat] then .next s
    else if (g.rj n.toNat).arrived != 0 then joinmis s g fr k 2
    else
      let e := if c = 0 then fr.mask else g.mask fr c.toNat &&& fr.mask
      .next (s.put (g.setRj n.toNat { armed := true, jaddr := 0, arrived := 0, expect := e }) k (s.fall fr))

/-- What is wrong with a JOIN (R130, R131). -/
def joinReason (r : Rejoin) (fr : Fragment) : Option Nat :=
  if !r.armed then some 3
  else if fr.mask &&& ~~~r.expect != 0 || fr.mask &&& r.arrived != 0 then some 4
  else if r.arrived != 0 && r.jaddr != fr.pc then some 1
  else none

/-- JOIN (R130). -/
def execJoin (n : BitVec 3) (s : State) : Out :=
  scalar (.join n) [] s fun g fr k =>
    if !g.clausesDone fr then .next s
    else
      let r := g.rj n.toNat
      match joinReason r fr with
      | some e => joinmis s g fr k e
      | none =>
        let arrived := r.arrived ||| fr.mask
        if arrived == r.expect then
          .next (s.put (g.setRj n.toNat {}) k { s.fall fr with mask := r.expect, exec := r.expect })
        else
          let r1 := { r with jaddr := if r.arrived == 0 then fr.pc else r.jaddr, arrived }
          let h := ((g.setRj n.toNat r1).clearFrag k).refill
          .next ((s.popped g h).setGroup h.releaseStalled)

/-- FRAGQ (R135). -/
def execFragq (d : BitVec 8) (sel : BitVec 2) (s : State) : Out :=
  scalar (.fragq d sel) [d.toNat] s fun g fr k =>
    let other := match g.frag (1 - k) with | some f => f.mask | none => 0
    let v : Word := match sel.toNat with
      | 0 => fr.mask
      | 1 => other
      | 2 => BitVec.ofNat 32 g.stack.length
      | _ => maskOf fun b => if b < 8 then (g.rj b).arrived != 0 else decide (b < 16) && (g.rj (b - 8)).armed
    .next (s.put (g.setS d.toNat v) k (s.fall fr))

end Sys2Proof.Machine
end

