-- ==== Sys2Proof/Machine/ScalarMem.lean ====
section
/-! DEFINITION. Scalar memory: addresses, faults, the store buffer, loads that return, atomics, ORD, JSAVE, JLOAD, SCPSET
(R60-R62, R110-R117, R134, R218, R238-R245). -/

namespace Sys2Proof.Machine

/-! ## Ranges -/

/-- Two ranges share a 128-byte line, as the scoreboard compares them (R206). -/
def lineOverlap (a n b m : Nat) : Bool :=
  n != 0 && m != 0 && decide (a / 128 ≤ (b + m - 1) / 128) && decide (b / 128 ≤ (a + n - 1) / 128)

/-- A copy in flight holds back an access to a global range: its destination always, its source against a write (R115,
R174). -/
def Copy.blocks (c : Copy) (core cid va n : Nat) (write : Bool) : Bool :=
  c.core == core && c.cid == cid &&
    ((!c.dstS && c.remote != 2 && lineOverlap c.dst c.count va n) ||
     (write && !c.srcS && c.remote != 1 && lineOverlap c.src c.count va n))
def Copy.blocksStash (c : Copy) (tid off n : Nat) (write : Bool) : Bool :=
  c.team == tid && ((c.dstS && lineOverlap c.dst c.count off n) || (write && c.srcS && lineOverlap c.src c.count off n))
def State.copyBlocks (s : State) (w : Who) (va n : Nat) (write : Bool) : Bool :=
  s.copies.any fun c => c.blocks w.core w.cid va n write
def State.copyBlocksStash (s : State) (tid off n : Nat) (write : Bool) : Bool :=
  s.copies.any fun c => c.blocksStash tid off n write

/-- The word a place lies in is an object header (R217, R218), which no write may touch. -/
def State.isHeader (s : State) (l : Loc) : Bool :=
  match l with
  | .glob aid gpa => s.tagLoc l && (s.readByte aid (gpa / 8 * 8 + 7)).getLsbD 7
  | _ => false

/-- A write of a header word raises PROT at the word (R218). -/
def State.headerAt (s : State) (va : DWord) (ls : List Loc) : Option DWord :=
  match ls.findIdx? s.isHeader with
  | some n => some (BitVec.ofNat 64 ((va.toNat + n) / 8 * 8))
  | none => none

/-- The cause, with STAGE, that data of a line raises when it returns or is stored (R112, R315). -/
def State.lateFault (s : State) (ls : List Loc) (write : Bool) : Option (Cause × Bool) :=
  ls.findSome? fun l => match l with
    | .glob aid gpa => s.fillFault aid gpa write
    | _ => none

/-- What a write finds at its home: the address of a word that has become a header since it issued (R218), or what its line raises. -/
def State.writeFault (s : State) (va : DWord) (ls : List Loc) : Option (Cause × Bool × DWord) :=
  match s.headerAt va ls with
  | some x => some (.prot, false, x)
  | none => (s.lateFault ls true).map fun p => (p.1, p.2, va)

/-! ## The group's own stores -/

/-- The latest in order of the group's buffered stores to a place, older than a sequence number (R113, R243, R250). An access that an
open fence marks is numbered below every store of its window. -/
def BufStore.lastOf (r : Option BufStore) (b : BufStore) : Option BufStore :=
  match r with
  | some x => if x.seq ≤ b.seq then some b else r
  | none => some b
def Group.lastTo (g : Group) (seq : Nat) (p : BufStore → Bool) : Option BufStore :=
  (g.sbuf.filter fun b => decide (b.seq < seq) && p b).foldl BufStore.lastOf none
def BufStore.locs (b : BufStore) : List Loc := b.bytes.map fun p => p.1
def meet (xs ys : List Loc) : Bool := xs.any ys.contains
def Group.fwd (g : Group) (seq : Nat) (l : Loc) : Option Byte :=
  match g.lastTo seq fun b => b.locs.contains l with
  | some b => (b.bytes.find? fun p => p.1 == l).map fun p => p.2
  | none => none
/-- The tag of the word at some places, as the latest buffered store to any byte of it leaves it (R216). -/
def Group.fwdTag (g : Group) (seq : Nat) (word : List Loc) : Option Bool := (g.lastTo seq fun b => meet b.locs word).map fun b => b.setTag
def State.readOwn (s : State) (g : Group) (seq : Nat) (ls : List Loc) : List Byte :=
  ls.map fun l => (g.fwd seq l).getD (s.readLoc l)
/-- The tag that goes with a word's value. -/
def State.tagOwn (s : State) (g : Group) (seq : Nat) (word : List Loc) : Bool :=
  (g.fwdTag seq word).getD (match word with | l :: _ => s.tagLoc l | [] => false)

/-- Every access ordered before a mark has performed: scalar accesses issued earlier and lane accesses of clauses
enqueued earlier (R114, R169, R247, R249). -/
def Fragment.before (o : Option Fragment) (mark : Nat) : Bool :=
  match o with
  | some f => f.queue.all fun c => decide (mark ≤ c.uid)
  | none => true
def Group.doneBefore (g : Group) (mark : Nat) : Bool :=
  (g.loads.all fun l => decide (mark ≤ l.seq)) && (g.sbuf.all fun b => decide (mark ≤ b.uid)) &&
    (g.olog.all fun e => decide (mark ≤ e.uid)) && Fragment.before g.slot0 mark && Fragment.before g.slot1 mark

/-- A number lies in the window of a fence that has not completed (R250). -/
def Fragment.windowed (o : Option Fragment) (uid : Nat) : Bool :=
  match o with
  | some f => match f.fence with | some x => x.spec && decide (x.mark ≤ uid) | none => false
  | none => false
def Group.windowed (g : Group) (uid : Nat) : Bool := Fragment.windowed g.slot0 uid || Fragment.windowed g.slot1 uid

/-- A window read is recorded with its fence, but for bytes of the window's own stores (R251). -/
def Fragment.record (uid : Nat) (rs : List (Loc × Byte)) (o : Option Fragment) : Option Fragment :=
  o.map fun f => { f with fence := f.fence.map fun x => if x.spec && decide (x.mark ≤ uid) then { x with reads := x.reads ++ rs } else x }
def Group.recordReads (g : Group) (uid seq : Nat) (rs : List (Loc × Byte)) : Group :=
  if g.windowed uid then
    let own (l : Loc) : Bool := g.sbuf.any fun b => g.windowed b.uid && decide (b.seq < seq) && b.locs.contains l
    let keep := rs.filter fun p => !own p.1
    { g with slot0 := Fragment.record uid keep g.slot0, slot1 := Fragment.record uid keep g.slot1 }
  else g

/-! ## Order of the group's own accesses (R113, R169, R243) -/

def LaneEntry.open_ (l : LaneEntry) : Bool :=
  match l.stat with
  | .done => false
  | _ => true
/-- A range that a lane accesses may take in a place: pages are 4 KiB or more, and mapped stash lines are 128 bytes. -/
def spanMeets (sp : Bool × Nat × Nat) (l : Loc) : Bool :=
  let near (m gpa : Nat) : Bool := decide ((gpa % m + m - sp.2.1 % m) % m < sp.2.2)
  match l with
  | .glob _ gpa => near (if sp.1 then 128 else 4096) gpa
  | .stash _ off => sp.1 && decide (sp.2.1 ≤ off) && decide (off < sp.2.1 + sp.2.2)
  | .peer _ _ => false
/-- An open lane and some places may overlap; before its translation only its ranges are known. -/
def LaneEntry.touches (x : LaneEntry) (ls : List Loc) : Bool :=
  x.open_ && (match x.stat with
    | .ready => meet x.locs ls
    | _ => ls.any fun l => x.spans.any fun sp => spanMeets sp l)
/-- Open accesses of the group to a place, issued before a sequence number. -/
def Group.readsBefore (g : Group) (seq : Nat) (ls : List Loc) : Bool :=
  (g.loads.any fun l => decide (l.seq < seq) && l.value.isNone && meet l.locs ls) ||
  (g.olog.any fun e => decide (e.seq < seq) && e.lanes.any fun x => x.touches ls)
def Group.storesBefore (g : Group) (seq : Nat) (ls : List Loc) : Bool :=
  g.sbuf.any fun b => decide (b.seq < seq) && meet b.locs ls

/-- A long-latency lane instruction takes 128 sequence numbers, from a multiple of 128 on, one for each part of a lane. -/
def llBlock (seq : Nat) : Nat := (seq + 127) / 128 * 128
/-- A FENCE leaves numbers below those of its window for the long-latency words of the clauses that it marks, which may issue later
(R249, R250): where they start, and where the window's start. -/
def Fragment.longWords (o : Option Fragment) : Nat :=
  match o with
  | some f => f.queue.foldl (fun n c => n + ((c.body.drop c.idx).filter isLongWord).length) 0
  | none => 0
def Group.lowSeq (g : Group) : Nat := llBlock (g.seq + 1)
def Group.highSeq (g : Group) : Nat := g.lowSeq + 128 * (Fragment.longWords g.slot0 + Fragment.longWords g.slot1)

/-- A buffered store may perform: no older access of the group to its bytes is open, its release waits are met, no fence window
holds it, and stores of a window go in issue order (R113, R114, R250, R251). -/
def Group.canDrain (g : Group) (b : BufStore) : Bool :=
  !b.bad && !g.windowed b.uid && !g.readsBefore b.seq b.locs && !g.storesBefore b.seq b.locs &&
    (!b.inOrder || ((g.sbuf.all fun x => !x.inOrder || decide (b.seq ≤ x.seq)) &&
      g.olog.all fun e => !e.inOrder || decide (b.seq ≤ e.seq) || e.lanes.all fun x => x.stat == .done)) &&
    (b.rel.isNone || (g.doneBefore b.uid && (g.olog.all fun e => e.uid != b.uid || decide (b.seq / 128 ≤ e.seq / 128)) &&
      (g.sbuf.all fun x => x.uid != b.uid || decide (b.seq / 128 ≤ x.seq / 128))))

/-- What is left of a team that has been stopped for good, or of a handler run that has ended, raises nothing (R31, R365). -/
def State.silent (s : State) (g : Group) : Bool :=
  decide (64 ≤ g.grp) || (match s.team g.team with | some t => t.dead | none => true)

/-- The lanes of a store's instruction that have not stored (R173). -/
def Group.unstored (g : Group) (b : BufStore) : Mask :=
  ((g.sbuf.filter fun x => x.uid == b.uid && x.seq / 128 == b.seq / 128).map fun x => x.lanes).foldl (fun (m n : Mask) => m ||| n) 0

/-- The store of a group at an index of its buffer performs, once its core may write the line (R331); a store that fails at its
home raises its cause (R112). -/
def State.drain (s : State) (core slot idx : Nat) : Out :=
  match s.group core slot with
  | none => .refused (.notArisen "STORE")
  | some g =>
    match g.sbuf[idx]? with
    | none => .refused (.notArisen "STORE")
    | some b =>
      if !g.canDrain b then .refused (.notArisen "STORE")
      else
        let rest := { g with sbuf := g.sbuf.eraseIdx idx }
        match s.writeFault b.addr b.locs with
        | some (c, stage, a) =>
          if s.silent g then .next ((s.setGroup rest).atsSpent g.core (s.who g).cid)
          else
            let h := { g with sbuf := g.sbuf.map fun x => if x.seq == b.seq then { x with bad := true } else x }
            .next ((s.setGroup h).raise h { cause := c, stage, addr := a, pc := b.pc, lanei := b.lanes != 0, clidx := b.clidx, lanes := b.lanes,
                                            gov := b.gov, done := b.gov &&& ~~~g.unstored b, culprit := .store slot b.seq })
        | none =>
          match s.own (s.who g) b.addr.toNat (b.locs.head?) with
          | .error e => .next (s.post e)
          | .ok s0 =>
            let s1 := (s0.performStore b).setGroup rest
            .next (match b.rel with | some sc => s1.releaseAt (s.who g).aid sc | none => s1)

/-! ## Reaching memory -/

/-- The fragment without what its instruction has read: a fault of a later word leaves no effect, and replay reads all again (R134). -/
def Fragment.afresh (fr : Fragment) : Fragment := { fr with wait := none }
/-- Translate an access of a scalar instruction: a fault is its precise trap; a device service makes it wait (R110,
R112, R313, R327, R328). -/
def State.touch (s : State) (g : Group) (fr : Fragment) (k : Nat) (w : Who) (va n : Nat) (a : Acc) (ok : List Loc → Out) : Out :=
  match s.places w va n a with
  | .ok ls => ok ls
  | .error (.bad c st, x) =>
    match fr.wait with
    | some (.words _ _) => (s.put g k fr.afresh).trapAt (g.setFrag k fr.afresh) fr.afresh k c 0 (BitVec.ofNat 64 x) st
    | _ => s.trapAt g fr k c 0 (BitVec.ofNat 64 x) st
  | .error (.wait (some e), _) => .next (s.post e)
  | .error (_, _) => .next s

/-- The address of a scalar memory instruction (R110): 64-bit arithmetic, then the two address checks. -/
def smAddr (base : DWord) (off : BitVec 8) (size : Nat) : DWord := base + BitVec.ofNat 64 (off.toNat * size)
def addrFault (a : DWord) (size : Nat) : Option Cause :=
  if a.extractLsb' 56 8 != 0 then some .page else if a.toNat % size != 0 then some .align else none

/-- A core has 3,072 memory requests outstanding (R3): its scalar loads, buffered stores and open lanes. A word that would add more than
the room left waits. -/
def Group.requests (g : Group) : Nat :=
  g.loads.length + g.sbuf.length + (g.olog.map fun e => (e.lanes.filter LaneEntry.open_).length).foldl (fun a b => a + b) 0
def State.requestsFull (s : State) (core more : Nat) : Bool :=
  decide (3072 < more + (s.groups.filter fun g => g.core == core && !g.saved).foldl (fun n g => n + g.requests) 0)

/-- The requests of a scalar access: one, or one for each 8 bytes that it writes. -/
def requestsOf (size : Nat) (acc : Acc) : Nat := if acc.writes then max 1 (size / 8) else 1
/-- The address of a scalar memory instruction: as it began, when it has read words (R95, R134). -/
def Group.memAddr (g : Group) (fr : Fragment) (a off : BitVec 8) (size : Nat) : DWord :=
  match fr.wait with
  | some (.words va _) => va
  | _ => smAddr (g.pair a.toNat) off size

/-- A scalar memory instruction: the acquire and scoreboard waits (R114, R115), the address checks, translation. -/
def scalarMem (i : Instr) (rs : List Nat) (size : Nat) (a off : BitVec 8) (acc : Acc) (late : Bool) (s : State)
    (body : Group → Fragment → Nat → DWord → List Loc → Out) : Out :=
  scalar i rs s fun g fr k =>
    let va := g.memAddr fr a off size
    match addrFault va size with
    | some c => s.trapAt g fr k c 0 va
    | none =>
      let w := { s.who g with late }
      if g.acquiring || s.requestsFull g.core (requestsOf size acc) || s.copyBlocks w va.toNat size acc.writes then .next s
      else s.touch g fr k w va.toNat size acc fun ls => body g fr k va ls

/-! ## Loads and stores (R111-R114) -/

def issueLoad (s : State) (g : Group) (fr : Fragment) (k : Nat) (l : Load) : Out :=
  let l1 := { l with seq := g.seq, pc := fr.pc, scope := s.ord.scope, frag := fr.mask, after := g.words + 1 }
  .next (s.put { g with seq := g.seq + 1, loads := g.loads ++ [l1] } k (s.fall fr))
def acquires (o : Ord) : Bool := o == .acq || o == .ar
def releases (o : Ord) : Bool := o == .rel || o == .ar

def loadOp (i : Instr) (d a off : BitVec 8) (pair : Bool) (s : State) : Out :=
  scalarMem i ((if pair then pairRegs d else [d.toNat]) ++ pairRegs a) (if pair then 8 else 4) a off .rd true s
    fun g fr k va ls =>
      issueLoad s g fr k { seq := 0, dst := d.toNat, pair, locs := ls, acq := acquires s.ord.order, addr := va, pc := 0 }

def storeOp (i : Instr) (d a off : BitVec 8) (pair : Bool) (s : State) : Out :=
  scalarMem i ((if pair then pairRegs d else [d.toNat]) ++ pairRegs a) (if pair then 8 else 4) a off .wr true s
    fun g fr k va ls =>
      match s.headerAt va ls with
      | some x => s.trapAt g fr k .prot 0 x
      | none =>
        let v := if pair then (g.pair d.toNat).toNat else (g.s d.toNat).toNat
        let b : BufStore := { seq := g.seq, uid := g.seq, bytes := ls.zip (leBytes (if pair then 8 else 4) v), pc := fr.pc,
                              addr := va, rel := if releases s.ord.order then some s.ord.scope else none,
                              inOrder := g.windowed g.seq, after := g.words + 1 }
        .next (s.put { g with seq := g.seq + 1, sbuf := g.sbuf ++ [b] } k (s.fall fr))

def execSld32 (d a o : BitVec 8) (s : State) : Out := loadOp (.sld32 d a o) d a o false s
def execSld64 (d a o : BitVec 8) (s : State) : Out := loadOp (.sld64 d a o) d a o true s
def execSst32 (d a o : BitVec 8) (s : State) : Out := storeOp (.sst32 d a o) d a o false s
def execSst64 (d a o : BitVec 8) (s : State) : Out := storeOp (.sst64 d a o) d a o true s

/-- The data of a scalar load is written (R95): its registers, and the mask of LDREF with the tag that goes with the value. -/
def Group.deliver (g : Group) (l : Load) (v : DWord) (tag : Bool) : Group :=
  let g1 := if l.pair then g.setPair l.dst v else g.setS l.dst (loOf v)
  let g2 := match l.tagTo with
    | some t => g1.setMask { mask := l.frag, exec := 0, pc := 0 } t (if tag then 0xFFFFFFFF else 0)
    | none => g1
  { g2 with loads := g2.loads.filter fun m => m.seq != l.seq }

/-- A scalar load or atomic finds its line faulty when it performs (R112). -/
def State.loadFails (s : State) (g : Group) (l : Load) (c : Cause) (stage : Bool) (addr : DWord) : Out :=
  if g.windowed l.seq then .refused (.notArisen "SCALAR_LOAD_RETURN")
  else if s.silent g then .next ((s.setGroup { g with loads := g.loads.filter fun m => m.seq != l.seq }).atsSpent g.core (s.who g).cid)
  else
    let h := { g with loads := g.loads.map fun m => if m.seq == l.seq then { m with bad := true } else m }
    .next ((s.setGroup h).raise h { cause := c, stage, addr, pc := l.pc, culprit := .load g.slot l.seq })

/-- A reference store that has completed for its flag is seen by later loads as a buffered store is (R121, R123, R243). -/
def LogEntry.refPending (e : LogEntry) (seq : Nat) (ls : List Loc) : Bool :=
  (match e.instr with | .vstref .. => true | _ => false) && e.flag.isNone && decide (e.seq < seq) && e.lanes.any fun x => x.stat == .ready && meet x.locs ls
/-- An older access of the group to the bytes of a load comes first: an open load or atomic, a completed reference store (R113, R243). -/
def Group.loadWaits (g : Group) (l : Load) : Bool :=
  (g.loads.any fun m => decide (m.seq < l.seq) && m.value.isNone && meet m.locs l.locs) || g.olog.any fun e => e.refPending l.seq l.locs
/-- A load reads (R95, R112-R114, R331), once its line is in the core's L1: older buffered stores of the group are seen first. -/
def State.loadReads (s : State) (g : Group) (l : Load) : Out :=
  if g.loadWaits l then .refused (.notArisen "SCALAR_LOAD_RETURN")
  else
    match s.lateFault l.locs false with
    | some (c, stage) => s.loadFails g l c stage l.addr
    | none =>
      let s0 := s.want (s.who g) l.addr.toNat l.locs.head?
      if !(l.locs.all (s0.inCache (s.who g))) then .next s0
      else
      let s1 := if l.acq then s0.acquireAt (s.who g).aid l.scope else s0
      let bs := s1.readOwn g l.seq l.locs
      let h := (g.recordReads l.seq l.seq (l.locs.zip bs)).deliver l (BitVec.ofNat 64 (leVal bs)) (s1.tagOwn g l.seq l.locs)
      .next (s1.progress g h l.seq)

/-- An atomic of the group may perform: its older accesses to the bytes have, and when it is a release, every older access. -/
def Group.mayPerform (g : Group) (l : Load) (a : Atomic) : Bool :=
  !l.bad && !g.windowed l.seq && !g.readsBefore l.seq l.locs && !g.storesBefore l.seq l.locs && (!a.rel || g.doneBefore l.seq)

/-! ## Atomics (R116, R117) -/

/-- The new value of an atomic over `n` bits; none when it does not write. -/
def atomNew (op : AtomOp) (signed : Bool) (old x y : DWord) (n : Nat) (fadd : DWord → DWord → DWord) : Option DWord :=
  let lt : Bool := if signed then (BitVec.ofNat n old.toNat).slt (BitVec.ofNat n x.toNat) else decide (old.toNat < x.toNat)
  match op with
  | .add => some (BitVec.ofNat 64 ((old.toNat + x.toNat) % 2 ^ n))
  | .min => some (if lt then old else x)
  | .max => some (if lt then x else old)
  | .and => some (old &&& x)
  | .or => some (old ||| x)
  | .xor => some (old ^^^ x)
  | .xch => some x
  | .cas => if old == x then some y else none
  | .fadd => some (fadd old x)

/-- The indivisible step of an atomic on its bytes, with what its order adds (R114, R117): the state, and the old value. -/
def State.atomStep (s : State) (aid : Nat) (scope : BitVec 5) (acq rel : Bool) (ls : List Loc) (new : DWord → Option DWord) : State × DWord :=
  let s0 := if acq then s.acquireAt aid scope else s
  let old : DWord := BitVec.ofNat 64 (leVal (s0.readLocs ls))
  let s1 := match new old with
    | some v => s0.writeLocs (ls.zip (leBytes ls.length v.toNat))
    | none => s0
  (if rel then s1.releaseAt aid scope else s1, old)
def Atomic.new (a : Atomic) (old : DWord) : Option DWord := atomNew a.op true old a.x a.y 32 fun p _ => p

/-- The cores of a set (R240): bit c stands for core c. -/
def coreSet (v : BitVec 384) : List Nat := (List.range 384).filter fun c => v.getLsbD c
/-- The members of a programmable scope: the entry's set and the issuing core (R238). -/
def State.scopeCores (s : State) (cid core scope : Nat) : List Nat := core :: coreSet (assoc 0 scope (s.ctx cid).scopes)
/-- The fixed scope at whose level accesses at a scope are settled (R238): a programmable one counts by its members. -/
def State.levelScope (s : State) (cid core : Nat) (scope : BitVec 5) : BitVec 5 :=
  if scope.toNat < 8 then scope
  else
    let cs := s.scopeCores cid core scope.toNat
    if cs.all fun c => c == core then 1 else if cs.all fun c => dieOf c == dieOf core then 3 else 4

/-- Where an atomic performs (R117, R339): in the core's L1 at .grp and .team and on its private lines, at the slice or the home,
which ATOM asks for, otherwise. Places that are no coherent memory have no level. -/
def State.inL1 (s : State) (w : Who) (va : Nat) (scope : BitVec 5) (ls : List Loc) : Bool :=
  match ls with
  | .glob aid gpa :: _ => decide (scope.toNat < 2) || s.l1St w.core (lineOf aid gpa) == .P || s.privateAt w va gpa
  | _ => true
def atomEv (core : Nat) (ls : List Loc) (op : AtomOp) (ty : Ty) (x y : DWord) (scope : BitVec 5) : Option Ev :=
  match ls with
  | .glob aid gpa :: _ => some (.atom core (lineOf aid gpa) (gpa % 128) op ty x y scope)
  | _ => none

/-- A scalar atomic performs in the L1, or asks the slice (R117, R339). Its old value then returns as a load's data does. -/
def State.loadAtomic (s : State) (g : Group) (l : Load) (a : Atomic) : Out :=
  let w := s.who g
  if !g.mayPerform l a then .refused (.notArisen "SCALAR_LOAD_RETURN")
  else
    match s.writeFault l.addr l.locs with
    | some (c, stage, x) => s.loadFails g l c stage x
    | none =>
      if s.inL1 w l.addr.toNat a.scope l.locs then
        match s.own w l.addr.toNat l.locs.head? with
        | .error e => .next (s.post e)
        | .ok s0 =>
          match s0.atomStep w.aid l.scope l.acq a.rel l.locs a.new with
          | (s1, old) => .next (s1.setGroup { g with loads := g.loads.map fun m => if m.seq == l.seq then { m with value := some old } else m })
      else
        match atomEv g.core l.locs a.op .i32 a.x a.y a.scope with
        | some e => .next (s.post e)
        | none => .refused (.notArisen "SCALAR_LOAD_RETURN")

/-- The data of a scalar load or atomic returns; an atomic performs first. -/
def execScalarLoadReturn (core slot seq : Nat) (s : State) : Out :=
  let no : Out := .refused (.notArisen "SCALAR_LOAD_RETURN")
  match s.group core slot with
  | none => no
  | some g =>
    match g.loads.find? fun l => l.seq == seq with
    | none => no
    | some l =>
      if l.bad then no
      else
        match l.value, l.atom with
        | some v, _ => .next (s.progress g (g.deliver l v false) seq)
        | none, some a => s.loadAtomic g l a
        | none, none => s.loadReads g l

/-- A scalar atomic issues: its operands are read, it performs later (R116). -/
def atomOp (i : Instr) (op : AtomOp) (d a off : BitVec 8) (s : State) : Out :=
  scalarMem i ((if op == .cas then pairRegs d else [d.toNat]) ++ pairRegs a) 4 a off .at true s fun g fr k va ls =>
    match s.headerAt va ls with
    | some x => s.trapAt g fr k .prot 0 x
    | none =>
      issueLoad s g fr k
        { seq := 0, dst := d.toNat, pair := false, locs := ls, addr := va, pc := 0, acq := acquires s.ord.order
          atom := some { op, x := (g.s d.toNat).zeroExtend 64, y := (g.s (d.toNat + 1)).zeroExtend 64, rel := releases s.ord.order
                         scope := s.levelScope (s.who g).cid g.core s.ord.scope } }

def execSaadd (d a o : BitVec 8) (s : State) : Out := atomOp (.saadd d a o) .add d a o s
def execSamin (d a o : BitVec 8) (s : State) : Out := atomOp (.samin d a o) .min d a o s
def execSamax (d a o : BitVec 8) (s : State) : Out := atomOp (.samax d a o) .max d a o s
def execSaand (d a o : BitVec 8) (s : State) : Out := atomOp (.saand d a o) .and d a o s
def execSaor (d a o : BitVec 8) (s : State) : Out := atomOp (.saor d a o) .or d a o s
def execSaxor (d a o : BitVec 8) (s : State) : Out := atomOp (.saxor d a o) .xor d a o s
def execSaxch (d a o : BitVec 8) (s : State) : Out := atomOp (.saxch d a o) .xch d a o s
def execSacas (d a o : BitVec 8) (s : State) : Out := atomOp (.sacas d a o) .cas d a o s

/-! ## ORD (R60-R62) -/

/-- Fetch bytes of code (R57, R118). -/
def State.fetchCode (s : State) (w : Who) (va n : Nat) : Except (XRes × Nat) Nat :=
  match s.places w va n .ex with
  | .ok ls => .ok (leVal (s.readLocs ls))
  | .error e => .error e

/-- The orders ORD permits on an instruction, and the instruction's own meaning (R60). -/
def ordWord (o : Ord) : Instr → Option (State → Out)
  | .sld32 d a f => if o.forLoad then some (execSld32 d a f) else none
  | .sld64 d a f => if o.forLoad then some (execSld64 d a f) else none
  | .sst32 d a f => if o.forStore then some (execSst32 d a f) else none
  | .sst64 d a f => if o.forStore then some (execSst64 d a f) else none
  | .saadd d a f => some (execSaadd d a f)
  | .samin d a f => some (execSamin d a f)
  | .samax d a f => some (execSamax d a f)
  | .saand d a f => some (execSaand d a f)
  | .saor d a f => some (execSaor d a f)
  | .saxor d a f => some (execSaxor d a f)
  | .saxch d a f => some (execSaxch d a f)
  | .sacas d a f => some (execSacas d a f)
  | _ => none

/-- The pair: its traps are recorded at the ORD, and skip both words (R62, R357). -/
def ordPair (o : Ord) (scope : BitVec 5) (s : State) : Out :=
  scalar (.ord o scope) [] s fun g fr k =>
    let va := (fr.pc + 4).toNat
    match s.fetchCode (s.who g) va 4 with
    | .error (.bad c st, x) => s.trapAt g fr k c 0 (BitVec.ofNat 64 x) st
    | .error (.wait (some e), _) => .next (s.post e)
    | .error (_, _) => .next s
    | .ok w =>
      match decodeScalar (BitVec.ofNat 32 w) with
      | .error _ => s.trapAt g fr k .illegal 0 0
      | .ok i => match ordWord o i with | none => s.trapAt g fr k .illegal 0 0 | some run => run s
def execOrd (o : Ord) (scope : BitVec 5) (s : State) : Out :=
  match ordPair o scope { s with ord := { order := o, scope, pair := true } } with
  | .next t => .next { t with ord := {} }
  | r => r

/-! ## JSAVE, JLOAD, SCPSET (R134, R240) -/

/-- JSAVE, JLOAD: the checks in the order of R134. -/
def rejoinMem (i : Instr) (n : BitVec 3) (a off : BitVec 8) (acc : Acc) (s : State)
    (body : Group → Fragment → Nat → DWord → List Loc → Out) : Out :=
  scalar i (pairRegs a) s fun g fr k =>
    let va := g.memAddr fr a off 16
    match addrFault va 16 with
    | some c => s.trapAt g fr k c 0 va
    | none =>
      if (g.rj n.toNat).arrived != 0 then joinmis s g fr k 2
      else
        let w := s.who g
        if g.acquiring || s.requestsFull g.core (requestsOf 16 acc) || s.copyBlocks w va.toNat 16 acc.writes then .next s
        else s.touch g fr k w va.toNat 16 acc fun ls => body g fr k va ls

def execJsave (n : BitVec 3) (a o : BitVec 8) (s : State) : Out :=
  rejoinMem (.jsave n a o) n a o .wr s fun g fr k va ls =>
    match s.headerAt va ls with
    | some x => s.trapAt g fr k .prot 0 x
    | none =>
      let bs := leBytes 16 (g.rj n.toNat).image.toNat
      let b (q : Nat) : BufStore := { seq := g.seq + q, uid := g.seq + q, bytes := ((ls.zip bs).drop (8 * q)).take 8, inOrder := true,
                                      after := g.words + 1, pc := fr.pc, addr := va + BitVec.ofNat 64 (8 * q) }
      .next (s.put { g.setRj n.toNat {} with seq := g.seq + 2, sbuf := g.sbuf ++ [b 0, b 1] } k (s.fall fr))

/-- An operand of n 8-byte words is read word by word, the low one first, each in a move of its own (R134, R178, R240): from the core's
L1, and after older atomics of the group to its bytes (R113). -/
def Fragment.words (fr : Fragment) : List DWord := match fr.wait with | some (.words _ ws) => ws | _ => []
def dwordsVal (ws : List DWord) : Nat := ws.foldr (fun w acc => w.toNat + 2 ^ 64 * acc) 0
def wordLocs (fr : Fragment) (ls : List Loc) : List Loc := (ls.drop (8 * fr.words.length)).take 8
def State.nextWord (s : State) (g : Group) (fr : Fragment) (ls : List Loc) : DWord :=
  BitVec.ofNat 64 (leVal (s.readOwn g g.seq (wordLocs fr ls)))
def Group.pendingAtoms (g : Group) (ls : List Loc) : Bool := g.loads.any fun l => l.atom.isSome && l.value.isNone && meet l.locs ls
def State.readWords (s : State) (g : Group) (fr : Fragment) (k : Nat) (va : DWord) (n : Nat) (ls : List Loc) (fin : List DWord → Out) : Out :=
  let now := wordLocs fr ls
  let w := s.who g
  if g.pendingAtoms now then .next s
  else if !(now.all (s.inCache w)) then .next (s.wantAll w ((now.take 1).map fun l => (va.toNat + 8 * fr.words.length, l)))
  else
    let ws := fr.words ++ [s.nextWord g fr ls]
    if ws.length < n then .next (s.put g k { fr with wait := some (.words va ws) }) else fin ws

def execJload (n : BitVec 3) (a o : BitVec 8) (s : State) : Out :=
  rejoinMem (.jload n a o) n a o .rd s fun g fr k va ls =>
    s.readWords g fr k va 2 ls fun ws =>
      let v : BitVec 128 := BitVec.ofNat 128 (dwordsVal ws)
      let out := { fr with wait := none }
      if v.extractLsb' 121 7 != 0 || v.extractLsb' 32 88 != 0 then joinmis (s.put g k out) (g.setFrag k out) out k 5
      else .next (s.put (g.setRj n.toNat { armed := v.getLsbD 120, expect := v.extractLsb' 0 32 }) k (s.fall fr))

def execScpset (n a o : BitVec 8) (s : State) : Out :=
  scalarMem (.scpset n a o) (pairRegs a) 64 a o .rd false s fun g fr k va ls =>
    s.readWords g fr k va 6 ls fun ws =>
      let v : BitVec 384 := BitVec.ofNat 384 (dwordsVal ws)
      let w := s.who g
      let out := { fr with wait := none }
      if (coreSet v).any fun c => !(s.part (partOfId w.cid)).dies.contains (dieOf c) then
        (s.put g k out).trapAt (g.setFrag k out) out k .illegal 0 0
      else
        let c := s.ctx w.cid
        .next ((s.setCtx { c with scopes := assocSet n.toNat v c.scopes }).put g k (s.fall fr))

end Sys2Proof.Machine
end

