-- ==== Sys2Proof/Machine/Barrier.lean ====
section
/-! DEFINITION. Flags, barriers and fences in the scalar stream, with their events (R45, R109, R122, R123, R246-R251). -/

namespace Sys2Proof.Machine

/-! ## Completion flags (R45, R123) -/

def Group.flag (g : Group) (n : Nat) : Nat := g.flags.getD n 0

def execFwait (f : BitVec 12) (s : State) : Out :=
  scalar (.fwait f) [] s fun g fr k =>
    if (List.range 12).any fun n => f.getLsbD n && g.flag n != 0 then .next s else .next (s.put g k (s.fall fr))
def execFtest (d : BitVec 8) (f : BitVec 12) (s : State) : Out :=
  scalar (.ftest d f) [d.toNat] s fun g fr k =>
    .next (s.put (g.setS d.toNat (maskOf fun n => decide (n < 12) && f.getLsbD n && g.flag n != 0)) k (s.fall fr))

/-! ## Barriers (R246-R248) -/

/-- Groups of the team or of the cluster, the meaning of a count of 0 (R247). -/
def State.barGroups (s : State) (t : Team) (n : Nat) : Nat :=
  if n < 16 then t.size else match s.cluster t.cluster with | some c => c.size * t.size | none => t.size

/-- What an arrival does: wait, trap, or the state with the arrival made (R247). A part whose last arrival has not
taken effect waits for it. -/
inductive Arrival where
  | wait
  | bad
  | made (s : State) (g : Group)

def State.arrive (s : State) (g : Group) (n count : Nat) : Arrival :=
  match s.team g.team with
  | none => .bad
  | some t =>
    let b := s.barrier t n
    let p := g.barPart n
    let all := s.barGroups t n
    if (p.pending && b.phase == p.phase) || p.effect.isSome then .wait
    else if (n < 16 && all + 1 < count) || (16 ≤ n && all < count) then .bad
    else
      let want := if count = 0 then all else count
      let g1 := { g.setBarPart n { pending := true, phase := b.phase, effect := some g.seq } with seq := g.seq + 1 }
      if b.count = 0 then (if want ≤ b.arrived then .bad else .made (s.setBarrier t n { b with count := want }) g1)
      else if b.count ≠ want then .bad
      else .made s g1

def State.phaseOf (s : State) (g : Group) (n : Nat) : Word :=
  match s.team g.team with
  | some t => (s.barrier t n).phase
  | none => 0

/-- The wait of R247; its target is fixed when the wait begins. -/
def State.waitBar (s : State) (g : Group) (fr : Fragment) (k n : Nat) (target : Word) : Out :=
  if s.phaseOf g n == target then .next (s.put g k { fr with wait := some (.bar (decide (16 ≤ n)) n target) })
  else .next (s.put (g.setBarPart n { g.barPart n with pending := false }) k (s.fall fr))

def bara (i : Instr) (n count : Nat) (s : State) : Out :=
  scalarGroup i [] s fun g fr k =>
    match s.arrive g n count with
    | .wait => .next (s.put g k { fr with wait := some .arrive })
    | .bad => s.trapAt g fr k .illegal 0 0
    | .made t h => .next (t.put h k (s.fall fr))
def barw (i : Instr) (n : Nat) (s : State) : Out :=
  scalarGroup i [] s fun g fr k =>
    match fr.wait with
    | some (.bar _ _ target) => s.waitBar g fr k n target
    | _ =>
      let p := g.barPart n
      s.waitBar g fr k n (if p.pending then p.phase else s.phaseOf g n)

def execBara (n : BitVec 4) (count : BitVec 6) (s : State) : Out := bara (.bara n count) n.toNat count.toNat s
def execBarw (n : BitVec 4) (s : State) : Out := barw (.barw n) n.toNat s
def execBaraw (n : BitVec 4) (count : BitVec 6) (s : State) : Out :=
  scalarGroup (.baraw n count) [] s fun g fr k =>
    match fr.wait with
    | some (.bar _ _ target) => s.waitBar g fr k n.toNat target
    | _ =>
      match s.arrive g n.toNat count.toNat with
      | .wait => .next (s.put g k { fr with wait := some .arrive })
      | .bad => s.trapAt g fr k .illegal 0 0
      | .made t h => t.waitBar h fr k n.toNat (h.barPart n.toNat).phase
def execCbara (n : BitVec 2) (count : BitVec 9) (s : State) : Out := bara (.cbara n count) (16 + n.toNat) count.toNat s
def execCbarw (n : BitVec 2) (s : State) : Out := barw (.cbarw n) (16 + n.toNat) s

/-- An arrival takes effect once every access ordered before it has performed (R247); `who` is the group, or none for the
matrix stream. -/
def execBarrierArrivalEffect (team : Nat) (who : Option Nat) (bar : Nat) (s : State) : Out :=
  let no : Out := .refused (.notArisen "BARRIER_ARRIVAL_EFFECT")
  match s.team team with
  | none => no
  | some t =>
    match who with
    | none =>
      match (t.stream.bars.getD bar {}).effect with
      | none => no
      | some _ =>
        let p := { t.stream.bars.getD bar {} with effect := none }
        .next ((s.setTeam { t with stream := { t.stream with bars := t.stream.bars.set bar p } }).arriveAt team bar)
    | some n =>
      match s.groups.find? fun g => g.team == team && g.grp == n && g.slot != 128 && !g.saved with
      | none => no
      | some g =>
        match (g.barPart bar).effect with
        | none => no
        | some mark =>
          if g.doneBefore mark then .next ((s.setGroup (g.setBarPart bar { g.barPart bar with effect := none })).arriveAt team bar)
          else no

/-! ## SLEEP (R109) -/

def execSleepExpire (core slot frag : Nat) (s : State) : Out :=
  let no : Out := .refused (.notArisen "SLEEP_EXPIRE")
  match s.group core slot with
  | none => no
  | some g =>
    match g.frag frag with
    | some fr =>
      match fr.wait with
      | some (.sleep until_) => if until_ ≤ s.cycle && g.parkAt.isNone then .next (s.put g frag { fr with wait := none }) else no
      | _ => no
    | none => no

/-! ## FENCE (R249-R251) -/

/-- FENCE: the marks, and a window on first execution, with the group as it stands recorded (log 27). What the marked clauses have
still to issue is numbered below what follows the FENCE. -/
def execFence (scope : BitVec 5) (s : State) : Out :=
  scalar (.fence scope) [] s fun g fr k =>
    let spec := !fr.again
    let f : Fence := { scope, mark := g.seq, spec, pc := fr.pc }
    let s1 := if spec then { s with snaps := g :: (s.dropSnap g.core g.slot).snaps } else s
    .next (s1.put { g with seq := g.highSeq, low := g.lowSeq } k { s.fall fr with fence := some f, again := false })

/-- Every byte that the window read still stands, so no invalidation has come in between. -/
def State.readsStand (s : State) (f : Fence) : Bool := f.reads.all fun p => s.readLoc p.1 == p.2

def State.fenceOf (s : State) (core slot frag : Nat) : Option (Group × Fragment × Fence) :=
  match s.group core slot with
  | none => none
  | some g =>
    match g.frag frag with
    | none => none
    | some fr => match fr.fence with | some f => some (g, fr, f) | none => none

/-- Every marked access has performed at the scope: the window ends, its stores may leave (R251). -/
def execFenceComplete (core slot frag : Nat) (s : State) : Out :=
  match s.fenceOf core slot frag with
  | none => .refused (.notArisen "FENCE_COMPLETE")
  | some (g, fr, f) =>
    if g.doneBefore f.mark && s.readsStand f then
      let s1 := s.put g frag { fr with fence := none }
      .next (((if f.spec then s1.dropSnap core slot else s1).releaseAt (s.who g).aid f.scope).acquireAt (s.who g).aid f.scope)
    else .refused (.notArisen "FENCE_COMPLETE")

/-- A line that a window load read is invalidated, or leaves L1: roll back (R251). -/
def execFenceRollback (core slot frag : Nat) (s : State) : Out :=
  match s.fenceOf core slot frag with
  | none => .refused (.notArisen "FENCE_ROLLBACK")
  | some (_, _, f) =>
    if f.spec && !f.reads.isEmpty then .next (s.rollback core slot) else .refused (.notArisen "FENCE_ROLLBACK")

end Sys2Proof.Machine
end

