-- ==== Sys2Proof/Machine/Fp.lean ====
section
/-! DEFINITION. Floating-point values and arithmetic, exact and then rounded once (R73-R94). -/

namespace Sys2Proof.Machine

/-- A format of R75: exponent and fraction widths, bias, and whether the top exponent code holds infinities. -/
structure Fmt where
  ebits : Nat
  mbits : Nat
  bias  : Nat
  inf   : Bool
  deriving DecidableEq, Repr

def fp32 : Fmt := { ebits := 8, mbits := 23, bias := 127, inf := true }
def fp16 : Fmt := { ebits := 5, mbits := 10, bias := 15, inf := true }
def bf16 : Fmt := { ebits := 8, mbits := 7, bias := 127, inf := true }
def e4m3 : Fmt := { ebits := 4, mbits := 3, bias := 7, inf := false }
def e5m2 : Fmt := { ebits := 5, mbits := 2, bias := 15, inf := true }

/-- The format of a TY code's elements (R75); FP32 for types that have none. -/
def Ty.fmt : Ty → Fmt
  | .f16x2 => fp16 | .bf16x2 => bf16 | .e4m3x4 => e4m3 | .e5m2x4 => e5m2 | _ => fp32

def Fmt.width (f : Fmt) : Nat := 1 + f.ebits + f.mbits
def Fmt.top (f : Fmt) : Nat := 2 ^ f.ebits - 1
def Fmt.signBit (f : Fmt) (s : Bool) : Nat := b2n s * 2 ^ (f.ebits + f.mbits)
/-- The special values of R76. -/
def Fmt.maxFinite (f : Fmt) : Nat := if f.inf then (f.top - 1) * 2 ^ f.mbits + (2 ^ f.mbits - 1) else f.top * 2 ^ f.mbits + (2 ^ f.mbits - 2)
def Fmt.infinity (f : Fmt) : Nat := f.top * 2 ^ f.mbits
def Fmt.nan (f : Fmt) : Nat := if f.inf then f.top * 2 ^ f.mbits + 2 ^ (f.mbits - 1) else f.top * 2 ^ f.mbits + (2 ^ f.mbits - 1)

/-- A value: a NaN (signalling or quiet), an infinity, a zero, or m x 2^e with m above 0. -/
inductive FVal where
  | nan (sig : Bool)
  | inf (neg : Bool)
  | zero (neg : Bool)
  | fin (neg : Bool) (m : Nat) (e : Int)
  deriving DecidableEq, Repr

/-- The value of an encoding (R75, R76); `ftz` reads a subnormal as a zero of its sign (R79). -/
def Fmt.value (f : Fmt) (ftz : Bool) (bits : Nat) : FVal :=
  let s := bitsOf bits (f.ebits + f.mbits) 1 == 1
  let e := bitsOf bits f.mbits f.ebits
  let m := bitsOf bits 0 f.mbits
  if e = f.top ∧ f.inf then (if m = 0 then .inf s else .nan (m < 2 ^ (f.mbits - 1)))
  else if e = f.top ∧ m = 2 ^ f.mbits - 1 then .nan false
  else if e = 0 then (if m = 0 || ftz then .zero s else .fin s m (1 - (f.bias : Int) - f.mbits))
  else .fin s (m + 2 ^ f.mbits) ((e : Int) - f.bias - f.mbits)

/-- Exceptions, in the order of the sticky bits and of the FPE record (R51, R344). -/
abbrev Exc := BitVec 5
def excNV : Exc := 1
def excDZ : Exc := 2
def excOF : Exc := 4
def excUF : Exc := 8
def excNX : Exc := 16
def excIf (b : Bool) (e : Exc) : Exc := if b then e else 0

def FVal.isNan : FVal → Bool
  | .nan _ => true
  | _ => false
def FVal.isSig : FVal → Bool
  | .nan s => s
  | _ => false
def FVal.neg : FVal → FVal
  | .inf s => .inf !s
  | .zero s => .zero !s
  | .fin s m e => .fin (!s) m e
  | x => x

/-- The number of bits of a positive number. -/
def bitLen (m : Nat) : Nat := if m = 0 then 0 else Nat.log2 m + 1

/-- Whether a magnitude with this remainder goes up: RM 0 RNE, 1 RTZ, 2 RUP, 3 RDN (R78). -/
def roundsUp (rm : Nat) (s odd : Bool) (rem half : Nat) : Bool :=
  match rm with
  | 0 => decide (half < rem) || (rem == half && odd)
  | 1 => false
  | 2 => !s && rem != 0
  | _ => s && rem != 0

/-- m x 2^e at a quantum 2^q: the rounded multiple, and whether it is inexact. -/
def quantize (rm : Nat) (s : Bool) (m : Nat) (e q : Int) : Nat × Bool :=
  if q ≤ e then (m * 2 ^ (e - q).toNat, false)
  else
    let sh := (q - e).toNat
    let lo := m % 2 ^ sh
    let hi := m / 2 ^ sh
    (hi + b2n (roundsUp rm s (hi % 2 == 1) (2 * lo) (2 ^ sh)), lo != 0)

/-- What an overflow gives (R78, R82): E4M3 and saturating conversions give the largest finite value. -/
def Fmt.overflow (f : Fmt) (rm : Nat) (sat s : Bool) : Nat :=
  let big := match rm with
    | 0 => true
    | 1 => false
    | 2 => !s
    | _ => s
  if sat || !f.inf || !big then f.maxFinite else f.infinity

/-- Round a value once to a format: bits and exceptions (R78-R82). -/
def Fmt.round (f : Fmt) (rm : Nat) (ftz sat : Bool) (v : FVal) : Nat × Exc :=
  match v with
  | .nan sig => (f.nan, excIf sig excNV)
  | .inf s => if sat then (f.signBit s + f.maxFinite, excNV) else if f.inf then (f.signBit s + f.infinity, 0) else (f.nan, excNV)
  | .zero s => (f.signBit s, 0)
  | .fin s m e =>
    let emin : Int := 1 - f.bias
    let top : Int := e + bitLen m - 1
    let q := max (top - f.mbits) (emin - f.mbits)
    match quantize rm s m e q with
    | (mag, nx) =>
      let enc := if mag < 2 ^ f.mbits then mag else ((q + f.mbits + f.bias).toNat - 1) * 2 ^ f.mbits + mag
      if f.maxFinite < enc then (f.signBit s + f.overflow rm sat s, excOF ||| excNX)
      else
        let tiny := decide (top < emin) &&
          (decide (top < emin - 1) || decide ((quantize rm s m e (top - f.mbits)).1 < 2 ^ (f.mbits + 1)))
        if ftz && decide (enc < 2 ^ f.mbits) && (mag != 0 || nx) then (f.signBit s, excUF ||| excNX)
        else (f.signBit s + enc, excIf nx excNX ||| excIf (tiny && nx) excUF)

/-! ## Arithmetic on values -/

/-- A product, and whether it is invalid (R80, R92). -/
def FVal.mul : FVal → FVal → FVal × Bool
  | .nan _, _ | _, .nan _ => (.nan false, false)
  | .inf _, .zero _ | .zero _, .inf _ => (.nan false, true)
  | .inf s, .inf t | .inf s, .fin t _ _ | .fin s _ _, .inf t => (.inf (s != t), false)
  | .zero s, .zero t | .zero s, .fin t _ _ | .fin s _ _, .zero t => (.zero (s != t), false)
  | .fin s m e, .fin t n f => (.fin (s != t) (m * n) (e + f), false)

/-- The sum of two finite values as a signed multiple of a power of two. -/
def signedMul (s : Bool) (m : Nat) : Int := if s then -(m : Int) else m
def FVal.ofInt (z : Int) (e : Int) (negZero : Bool) : FVal :=
  if z = 0 then .zero negZero else .fin (z < 0) z.natAbs e

/-- A sum, and whether it is invalid (R78, R80). DESIGN CHOICE: an exact zero sum of opposite values is +0, but -0 under RDN; the spec
gives that sign for the matrix accumulator only (R92; log 53). -/
def FVal.add (rm : Nat) : FVal → FVal → FVal × Bool
  | .nan _, _ | _, .nan _ => (.nan false, false)
  | .inf s, .inf t => if s = t then (.inf s, false) else (.nan false, true)
  | .inf s, _ | _, .inf s => (.inf s, false)
  | .zero s, .zero t => (.zero (if s = t then s else rm == 3), false)
  | .zero _, x | x, .zero _ => (x, false)
  | .fin s m e, .fin t n f =>
    let q := min e f
    (FVal.ofInt (signedMul s (m * 2 ^ (e - q).toNat) + signedMul t (n * 2 ^ (f - q).toNat)) q (rm == 3), false)

/-- The three-operand forms: sNaN operands and invalid sums and products raise invalid operation (R80). -/
def Fmt.addOp (f : Fmt) (rm : Nat) (ftz : Bool) (a b : FVal) : Nat × Exc :=
  match a.add rm b with
  | (v, bad) => match f.round rm ftz false v with
    | (r, e) => (r, e ||| excIf (bad || a.isSig || b.isSig) excNV)
def Fmt.mulOp (f : Fmt) (rm : Nat) (ftz : Bool) (a b : FVal) : Nat × Exc :=
  match a.mul b with
  | (v, bad) => match f.round rm ftz false v with
    | (r, e) => (r, e ||| excIf (bad || a.isSig || b.isSig) excNV)
def Fmt.fmaOp (f : Fmt) (rm : Nat) (ftz : Bool) (a b c : FVal) : Nat × Exc :=
  match a.mul b with
  | (p, bad) => match p.add rm c with
    | (v, bad2) => match f.round rm ftz false v with
      | (r, e) => (r, e ||| excIf (bad || bad2 || a.isSig || b.isSig || c.isSig) excNV)

/-- A quotient of finite values to at least 2 bits beyond every format, the last bit sticky. -/
def quotient (s : Bool) (m : Nat) (e : Int) (n : Nat) (g : Int) : FVal :=
  let k := bitLen n + 32
  let x := m * 2 ^ k
  .fin s (2 * (x / n) + b2n (x % n != 0)) (e - g - k - 1)

/-- Division (R80, R93). -/
def Fmt.divOp (f : Fmt) (rm : Nat) (ftz : Bool) (a b : FVal) : Nat × Exc :=
  let sig := excIf (a.isSig || b.isSig) excNV
  let out (v : FVal) (x : Exc) : Nat × Exc := match f.round rm ftz false v with | (r, e) => (r, e ||| x ||| sig)
  match a, b with
  | .nan _, _ | _, .nan _ => out (.nan false) 0
  | .inf _, .inf _ | .zero _, .zero _ => out (.nan false) excNV
  | .inf s, .zero t | .inf s, .fin t _ _ => out (.inf (s != t)) 0
  | .zero s, .inf t | .zero s, .fin t _ _ | .fin s _ _, .inf t => out (.zero (s != t)) 0
  | .fin s _ _, .zero t => out (.inf (s != t)) excDZ
  | .fin s m e, .fin t n g => out (quotient (s != t) m e n g) 0

/-- The integer square root, bit by bit from the given bit down. -/
def isqrtFrom (n : Nat) : Nat → Nat → Nat
  | 0, r => r
  | i + 1, r => isqrtFrom n i (if (r + 2 ^ i) * (r + 2 ^ i) ≤ n then r + 2 ^ i else r)
def isqrt (n : Nat) : Nat := isqrtFrom n (bitLen n / 2 + 1) 0

/-- The root of m x 2^e to at least 128 bits, the last bit sticky. -/
def rootOf (m : Nat) (e : Int) : FVal :=
  let k : Nat := 256 + (if e % 2 = 0 then 0 else 1)
  let x := m * 2 ^ k
  let r := isqrt x
  .fin false (2 * r + b2n (r * r != x)) ((e - k) / 2 - 1)

def Fmt.sqrtOp (f : Fmt) (rm : Nat) (ftz : Bool) (a : FVal) : Nat × Exc :=
  match a with
  | .nan s => (f.nan, excIf s excNV)
  | .zero s => (f.signBit s, 0)
  | .inf false => (f.infinity, 0)
  | .inf true | .fin true _ _ => (f.nan, excNV)
  | .fin false m e => f.round rm ftz false (rootOf m e)

/-- Comparison of numbers: -1, 0 or 1; none when unordered. -/
def FVal.signed (v : FVal) (q : Int) : Int :=
  match v with
  | .fin s m e => signedMul s (m * 2 ^ (e - q).toNat)
  | _ => 0
def FVal.cmp : FVal → FVal → Option Int
  | .nan _, _ | _, .nan _ => none
  | .inf s, .inf t => some (if s = t then 0 else if s then -1 else 1)
  | .inf s, _ => some (if s then -1 else 1)
  | _, .inf s => some (if s then 1 else -1)
  | a, b =>
    let ex (v : FVal) : Int := match v with | .fin _ _ e => e | _ => 0
    let q := min (ex a) (ex b)
    some ((a.signed q - b.signed q).sign)

/-- VFMIN and VFMAX (R147): never rounded. -/
def FVal.negative : FVal → Bool
  | .zero s | .inf s | .fin s _ _ => s
  | .nan _ => false
def Fmt.minMax (f : Fmt) (isMax : Bool) (a b : FVal) : Nat × Exc :=
  let sig := excIf (a.isSig || b.isSig) excNV
  let out (v : FVal) : Nat × Exc := ((f.round 0 false false v).1, sig)
  match a, b with
  | .nan _, .nan _ => out (.nan false)
  | .nan _, x | x, .nan _ => out x
  | x, y =>
    let less := match x.cmp y with
      | some c => decide (c < 0) || (c == 0 && x.negative && !y.negative)
      | none => false
    out (if less != isMax then x else y)

/-- Round to an integer: the magnitude and whether it changed (R83, R149). -/
def integral (rm : Nat) (s : Bool) (m : Nat) (e : Int) : Nat × Bool := quantize rm s m e 0

/-- VFRND (R149). -/
def Fmt.rndOp (f : Fmt) (rm : Nat) (exact : Bool) (a : FVal) : Nat × Exc :=
  match a with
  | .fin s m e =>
    match integral rm s m e with
    | (n, nx) => ((f.round rm false false (if n = 0 then .zero s else .fin s n 0)).1, excIf (nx && exact) excNX)
  | v => f.round rm false false v

/-- To an integer type of w bits (R83). -/
def intRange (signed : Bool) (w : Nat) : Int × Int := if signed then (-(2 : Int) ^ (w - 1), 2 ^ (w - 1) - 1) else (0, 2 ^ w - 1)
def toInt (rm : Nat) (signed : Bool) (w : Nat) (a : FVal) : Nat × Exc :=
  let r := intRange signed w
  let enc (z : Int) : Nat := (z % 2 ^ w).toNat
  match a with
  | .nan _ => (0, excNV)
  | .inf s => (enc (if s then r.1 else r.2), excNV)
  | .zero _ => (0, 0)
  | .fin s m e =>
    match integral rm s m e with
    | (n, nx) =>
      let z := signedMul s n
      if z < r.1 then (enc r.1, excNV) else if r.2 < z then (enc r.2, excNV) else (enc z, excIf nx excNX)

/-! ## Q4N and T3P (R85-R90) -/

def q4nLevel (code : Nat) : Int :=
  [-1024, -712, -538, -404, -292, -190, -93, 0, 81, 164, 252, 346, 454, 576, 740, 1024].getD code 0

/-- The exact value of a Q4N element (R87). -/
def q4nValue (code scale superBits : Nat) : FVal :=
  let k := q4nLevel code
  if k = 0 ∨ scale = 0 then .zero false
  else
    match fp32.value false superBits with
    | .zero _ => .zero false
    | .inf s => .inf (s != decide (k < 0))
    | .nan s => .nan s
    | .fin s m e => .fin (s != decide (k < 0)) (m * k.natAbs * scale) (e - 28)

/-- The trits of a byte, and of a reserved byte (R88, R89). -/
def t3pReserved (b : Nat) : Bool := decide (243 ≤ b)
def trit (b i : Nat) : Int := if t3pReserved b then 0 else ((b / 3 ^ i % 3 : Nat) : Int) - 1
def tritVal (t : Int) : FVal := if t = 0 then .zero false else .fin (t < 0) 1 0

/-! ## Transcendentals (R93): the exact value to many bits, then any result within the bound (log 12) -/

/-- pi and ln 2 times 2^320, rounded down. -/
def piFix : Nat := 0x3243f6a8885a308d313198a2e03707344a4093822299f31d0082efa98ec4e6c89452821e638d01377
def ln2Fix : Nat := 0xb17217f7d1cf79abc9e3b39803f2f6af40f343267298b62d8a0d175b8baafa2be7b876206debac98
def fixBits : Nat := 320
def fixOne : Nat := 2 ^ 320

/-- The sum of a series with alternating or equal signs: term(k+1) = term(k) x z / d(k). -/
def series (z : Nat) (alt : Bool) (d : Nat → Nat) : Nat → Nat → Nat → Int
  | 0, _, _ => 0
  | n + 1, k, t => (t : Int) + (if alt then -1 else 1) * series z alt d n (k + 1) (t * z / fixOne / d k)

/-- e^z and e^-z for 0 <= z < 1, and sin, cos of an angle below 2, in fixed point. -/
def expFix (z : Nat) (neg : Bool) : Nat := (series z neg (fun k => k + 1) 80 0 fixOne).toNat
def sinFix (z : Nat) : Nat := (series (z * z / fixOne) true (fun k => (2 * k + 2) * (2 * k + 3)) 60 0 z).toNat

/-- A value in fixed point: x = m x 2^e as a multiple of 2^-320. -/
def toFix (m : Nat) (e : Int) : Nat := if 0 ≤ e + 320 then m * 2 ^ (e + 320).toNat else m / 2 ^ (-(e + 320)).toNat

/-- The binary logarithm of a mantissa in [1, 2), bit by bit. -/
def log2Frac : Nat → Nat → Nat → Nat
  | 0, _, acc => acc
  | n + 1, x, acc =>
    let y := x * x / fixOne
    if 2 * fixOne ≤ y then log2Frac n (y / 2) (2 * acc + 1) else log2Frac n y (2 * acc)

/-- The transcendental instructions. -/
inductive Trans where
  | rsq | exp2 | log2 | sinp | cosp | tanh
  deriving DecidableEq, Repr
def Trans.code : Trans → Nat
  | .rsq => 0 | .exp2 => 1 | .log2 => 2 | .sinp => 3 | .cosp => 4 | .tanh => 5
/-- The bound in ulp (R93). -/
def Trans.bound : Trans → Nat
  | .rsq | .exp2 | .log2 => 1
  | _ => 2

/-- The square of a fixed-point number, n times. -/
def squares : Nat → Nat → Nat
  | 0, x => x
  | n + 1, x => squares n (x * x / fixOne)

/-- sin(pi r) for a fraction r of a turn's half, 0 <= r < 1, in fixed point. -/
def sinPi (r : Nat) : Nat :=
  let q := if r ≤ fixOne / 2 then r else fixOne - r
  sinFix (q * piFix / fixOne)

/-- An exact result of R93, or the value to at least 64 bits beyond the result's last. -/
inductive TRes where
  | exact (v : FVal) (x : Exc)
  | approx (v : FVal)
  deriving DecidableEq, Repr

/-- A value that is 2^n: its n. -/
def powerOf (m : Nat) (e : Int) : Option Int := if m = 2 ^ Nat.log2 m then some (e + Nat.log2 m) else none

def Trans.eval (t : Trans) (a : FVal) : TRes :=
  match t, a with
  | _, .nan s => .exact (.nan false) (excIf s excNV)
  | .exp2, .zero _ => .exact (.fin false 1 0) 0
  | .exp2, .inf s => .exact (if s then .zero false else .inf false) 0
  | .exp2, .fin s m e =>
    if 0 ≤ e ∨ m % 2 ^ (-e).toNat = 0 then
      let n := signedMul s (integral 1 s m e).1
      if -149 ≤ n ∧ n ≤ 127 then .exact (.fin false 1 n) 0
      else if 127 < n then .exact (.inf false) (excOF ||| excNX) else .approx (.fin false 1 (max n (-400)))
    else
      let n : Int := (integral 1 s m e).1
      let fl : Int := if s then -n - 1 else n
      let fr := toFix m e % fixOne
      let f := if s then fixOne - fr else fr
      if 128 ≤ fl then .exact (.inf false) (excOF ||| excNX)
      else .approx (.fin false (expFix (f * ln2Fix / fixOne) false) (max fl (-400) - fixBits))
  | .log2, .zero _ => .exact (.inf true) excDZ
  | .log2, .inf s => if s then .exact (.nan false) excNV else .exact (.inf false) 0
  | .log2, .fin true _ _ => .exact (.nan false) excNV
  | .log2, .fin false m e =>
    match powerOf m e with
    | some n => .exact (FVal.ofInt n 0 false) 0
    | none =>
      let l := Nat.log2 m
      let z : Int := (e + l) * 2 ^ 200 + log2Frac 200 (m * fixOne / 2 ^ l) 0
      .approx (FVal.ofInt z (-200) false)
  | .rsq, .zero s => .exact (.inf s) excDZ
  | .rsq, .inf s => if s then .exact (.nan false) excNV else .exact (.zero false) 0
  | .rsq, .fin true _ _ => .exact (.nan false) excNV
  | .rsq, .fin false m e =>
    match powerOf m e with
    | some n => if n % 2 = 0 then .exact (.fin false 1 (-(n / 2))) 0
                else .approx (rootOf 1 (-n))
    | none => .approx (match rootOf m e with | .fin _ r g => quotient false (2 ^ 200) (-200) r g | v => v)
  | .sinp, .zero s => .exact (.zero s) 0
  | .sinp, .inf _ => .exact (.nan false) excNV
  | .sinp, .fin s m e =>
    let n := (integral 1 false m e).1
    let fr := toFix m e % fixOne
    if fr = 0 && (0 ≤ e || m % 2 ^ (-e).toNat == 0) then .exact (.zero s) 0
    else if fr = fixOne / 2 then .exact (.fin (s != (n % 2 == 1)) 1 0) 0
    else .approx (.fin (s != (n % 2 == 1)) (sinPi fr) (-fixBits))
  | .cosp, .zero _ => .exact (.fin false 1 0) 0
  | .cosp, .inf _ => .exact (.nan false) excNV
  | .cosp, .fin _ m e =>
    if e + bitLen m < -60 then .approx (.fin false (2 ^ 130 - 1) (-130))
    else
    let n := (integral 1 false m e).1
    let fr := toFix m e % fixOne
    if fr = 0 && (0 ≤ e || m % 2 ^ (-e).toNat == 0) then .exact (.fin (n % 2 == 1) 1 0) 0
    else if fr = fixOne / 2 then .exact (.zero false) 0
    else if fr < fixOne / 2 then .approx (.fin (n % 2 == 1) (sinPi (fixOne / 2 - fr)) (-fixBits))
    else .approx (.fin (n % 2 == 0) (sinPi (fr - fixOne / 2)) (-fixBits))
  | .tanh, .zero s => .exact (.zero s) 0
  | .tanh, .inf s => .exact (.fin s 1 0) 0
  | .tanh, .fin s m e =>
    if e + bitLen m < -60 then .approx (.fin s (m * 2 ^ 130 - 1) (e - 130))
    else
    let z := min (toFix m e) (16 * fixOne)
    let q := squares 6 (expFix (2 * z / 64) true)
    .approx (quotient s ((fixOne - q) * 2 ^ 64) (-64) (fixOne + q) 0)

/-- The FP32 encodings within the bound of a value m x 2^e (R93), numbered through from its sign: n below 0 is the magnitude -n
of the other sign. Near the rounding toward zero the encodings are tried one by one; the value is known to 160 bits, and
no exact result lies at the bound itself. -/
def within (bound : Nat) (m : Nat) (e : Int) : List Int :=
  let top : Int := e + bitLen m - 1
  let base : Int := (fp32.round 1 false false (.fin false m e)).1
  let ulp : Int := max top (-126) - 23
  let value (c : Int) : Int × Int := match fp32.value false c.natAbs with | .fin _ n g => (if c < 0 then -(n : Int) else n, g) | _ => (0, ulp)
  ((List.range 7).map fun (i : Nat) => base + (i : Int) - 3).filter fun (c : Int) =>
    let v := value c
    let q := min (min e v.2) (min top ulp - 170)
    let d := ((m : Int) * 2 ^ (e - q).toNat - v.1 * 2 ^ (v.2 - q).toNat).natAbs
    decide (c.natAbs ≤ fp32.maxFinite) && decide (d + 2 ^ (top - 160 - q).toNat ≤ bound * 2 ^ (ulp - q).toNat)

/-- A transcendental in FP32: one of the values within the bound, the same for the same operand (R93); inexact on every
result that is not exact, and R79. -/
def Trans.fp32 (t : Trans) (ftz : Bool) (opBits : Nat) (a : FVal) : Nat × Exc :=
  match t.eval a with
  | .exact v x => match Machine.fp32.round 0 ftz false v with | (r, e) => (r, e ||| x)
  | .approx v =>
    match v with
    | .fin s m e =>
      let cs := within t.bound m e
      let n : Int := cs.getD (Config.transcend t.code opBits % max 1 cs.length) ((Machine.fp32.round 0 false false v).1 % 2 ^ 31 : Nat)
      let sign := if n < 0 then !s else s
      let tiny := decide (n.natAbs < 2 ^ 23)
      if tiny && ftz then (Machine.fp32.signBit sign, excUF ||| excNX)
      else (Machine.fp32.signBit sign + n.natAbs, excNX ||| excIf tiny excUF)
    | w => Machine.fp32.round 0 ftz false w

/-- A transcendental on an element: widened, computed in FP32, rounded to the element format (R93). -/
def Fmt.transOp (f : Fmt) (t : Trans) (rm : Nat) (ftz : Bool) (bits : Nat) : Nat × Exc :=
  let a := f.value ftz bits
  let wide := (Machine.fp32.round 0 false false a).1
  match t.fp32 ftz wide a with
  | (r, e) =>
    if f = Machine.fp32 then (r, e)
    else match f.round rm ftz false (Machine.fp32.value false r) with | (q, e2) => (q, e ||| e2)

end Sys2Proof.Machine
end

