-- ==== Sys2Proof/Machine/Operands.lean ====
section
/-! DEFINITION. Lane operands: what each lane instruction reads and writes, the values of its sources per lane, writes
under the governing mask, and executing a lane word (R39-R43, R63-R66, R70-R74, R119-R121, R136, R137). -/

namespace Sys2Proof.Machine

/-! ## Values -/

def Group.v (g : Group) (r l : Nat) : Word := (g.vregs.getD r []).getD l 0
/-- Write a register in the lanes of a mask (R41). -/
def Group.setV (g : Group) (r : Nat) (m : Mask) (f : Nat → Word) : Group :=
  { g with vregs := g.vregs.set r ((List.range 32).map fun l => if inMask m l then f l else g.v r l) }

/-- A 32-bit source in a lane (R39, R64): scalars as the LRUN took them. -/
def srcW (g : Group) (c : Clause) (a : Src) (l : Nat) : Word :=
  match a with
  | .v n => g.v n.toNat l
  | .s n => getW c.scal n.toNat
  | .laneid => BitVec.ofNat 32 l
  | .item => getW g.itemIdx l
  | .imm w => w
/-- A source of a type in a lane, as a number of 32 or 64 bits; %laneid and %item are zero-extended to 64 bits (log 29). -/
def srcN (g : Group) (c : Clause) (ty : Ty) (a : Src) (l : Nat) : Nat :=
  if ty.is64 then
    match a with
    | .v n => (pairOf (g.v n.toNat l) (g.v (n.toNat + 1) l)).toNat
    | .s n => (pairOf (getW c.scal n.toNat) (getW c.scal (n.toNat + 1))).toNat
    | .imm w => if ty.signed then (w.signExtend 64).toNat else w.toNat
    | x => (srcW g c x l).toNat
  else (srcW g c a l).toNat

/-- Elements (R73). -/
def elemOf (ty : Ty) (v i : Nat) : Nat := bitsOf v (ty.width * i) ty.width
def asInt (signed : Bool) (w v : Nat) : Int := if signed && decide (2 ^ (w - 1) ≤ v) then (v : Int) - 2 ^ w else v
def elemInt (ty : Ty) (v i : Nat) : Int := asInt ty.signed ty.width (elemOf ty v i)
/-- Put elements together. -/
def packElems (ty : Ty) (f : Nat → Nat) : Nat :=
  (List.range ty.elems).foldl (fun acc i => acc + f i % 2 ^ ty.width * 2 ^ (ty.width * i)) 0
/-- An exact integer result reduced or clamped (R74). -/
def narrow (ty : Ty) (sat : Bool) (z : Int) : Nat :=
  let r := intRange ty.signed ty.width
  let y := if sat then max r.1 (min r.2 z) else z
  (y % 2 ^ ty.width).toNat

/-- Write results of a type to a register or pair. -/
def Group.setN (g : Group) (ty : Ty) (d : Nat) (m : Mask) (f : Nat → Nat) : Group :=
  if ty.is64 then
    (g.setV d m fun l => BitVec.ofNat 32 (f l)).setV (d + 1) m fun l => BitVec.ofNat 32 (f l / 2 ^ 32)
  else g.setV d m fun l => BitVec.ofNat 32 (f l)

/-- Write a mask as VCMP does (R42, R143): nothing when the governing mask is zero. -/
def Group.setLaneMask (g : Group) (fr : Fragment) (n : Nat) (gov v : Mask) : Group :=
  if gov == 0 then g else g.setMask fr n (v &&& gov)

/-! ## Executing a lane word -/

def State.hereLane (s : State) : Option (Group × Fragment × Nat × Clause) :=
  match s.cur with
  | .lane core slot k =>
    match s.group core slot with
    | some g =>
      match g.frag k with
      | some fr =>
        match fr.queue with
        | c :: _ => if c.started && decide (c.idx < c.body.length) then some (g, fr, k, c) else none
        | [] => none
      | none => none
    | none => none
  | _ => none

def Fragment.inFence (fr : Fragment) (uid : Nat) : Bool := match fr.fence with | some f => decide (f.mark ≤ uid) | none => false
/-- The fence window of the fragment takes a lane instruction of a clause (R250). -/
def Fragment.passesLane (fr : Fragment) (i : Instr) (uid : Nat) : Bool :=
  match fr.fence with
  | none => true
  | some f => decide (uid < f.mark) || (f.spec && !f.hold && inWindow i && decide (f.lanes < 64))
def Fragment.countLane (fr : Fragment) (uid : Nat) : Fragment :=
  { fr with fence := fr.fence.map fun f => if f.mark ≤ uid then { f with lanes := f.lanes + 1 } else f }

/-- The governing mask (R43). -/
def Clause.gov (c : Clause) (sel : Nat) : Mask :=
  let e := c.masks.getD 0 0
  if sel = 0 then e else e &&& c.masks.getD sel 0

/-- A long-latency instruction of a clause has not completed. -/
def Group.longOpen (g : Group) (uid : Nat) : Bool := g.olog.any fun e => e.uid == uid && e.flag.isSome

/-- A precise trap of a lane instruction (R70, R81): the instructions before it in the clause complete first; held in a fence
window (R251). -/
def State.laneTrap (s : State) (g : Group) (fr : Fragment) (k : Nat) (c : Clause) (gov : Mask) (cause : Cause) (detail : DWord)
    (lanes : Mask) : Out :=
  if fr.inFence c.uid then .next (s.put g k fr.hold)
  else if g.longOpen c.uid then .next s
  else .next (s.raise g { cause, detail, lanes, gov, lanei := true, clidx := c.idx, pc := c.lrunPc, culprit := .laneWord g.slot k })

/-- An acquire that orders the accesses of a clause after itself is open (R114, R169): an earlier instruction of the
clause, an instruction of a clause enqueued earlier, issued or not. -/
def llAcquires (i : Instr) : Bool := match laneCtl i with | some c => acquires c.order | none => false
def Clause.willAcquire (c : Clause) : Bool :=
  (c.body.drop c.idx).any fun w => match decodeLane w with | .ok i => llAcquires i | .error _ => false
def Fragment.acquiresBefore (o : Option Fragment) (uid : Nat) : Bool :=
  match o with
  | some f => f.queue.any fun c => decide (c.uid < uid) && c.willAcquire
  | none => false
def Group.heldByAcquire (g : Group) (uid : Nat) : Bool :=
  (g.olog.any fun e => decide (e.uid ≤ uid) && llAcquires e.instr) ||
    Fragment.acquiresBefore g.slot0 uid || Fragment.acquiresBefore g.slot1 uid

/-- Registers and masks of open long-latency instructions of the same clause that the instruction touches (R120). -/
def Group.interlocked (g : Group) (uid : Nat) (i : Instr) : Bool :=
  let mine := laneSrcRegs i ++ laneDsts i
  g.olog.any fun e => e.uid == uid && ((laneDsts e.instr).any mine.contains || (laneMasks e.instr).any (laneMasks i).contains)

/-- The encoding and allocation checks of a lane instruction (R37, R40, R65, R72). -/
def Group.laneOk (g : Group) (c : Clause) (i : Instr) : Bool :=
  i.legal && (laneSrcRegs i ++ laneDsts i).all (fun r => decide (r < g.vregs.length)) &&
    (laneSrcScalars i).all (fun r => decide (r < g.sregs.length)) &&
    (match laneCtl i with | some ctl => (c.flagOf ctl.fb).isSome | none => true)

/-- A lane instruction: the fence window, the checks of R72, the interlock of R120, then its own effect under the
governing mask. A wait leaves the state unchanged. -/
def laneExec (i : Instr) (s : State) (body : Group → Fragment → Nat → Clause → Mask → Out) : Out :=
  match s.hereLane with
  | none => .fault .noAgent
  | some (g, fr, k, c) =>
    if !fr.passesLane i c.uid then .next (s.put g k fr.hold)
    else
      let gov := c.gov (laneSel i).toNat
      if !g.laneOk c i then s.laneTrap g fr k c gov .illegal 0 0
      else if g.interlocked c.uid i then .next s
      else body g (fr.countLane c.uid) k c gov

/-- The group after the instruction, its clause one further (R119). -/
def State.laneNext (s : State) (g : Group) (fr : Fragment) (k : Nat) : State :=
  let h := g.stepClause k fr
  s.progress ((s.group g.core g.slot).getD h) h (match fr.queue with | c :: _ => c.uid | [] => 0)

/-! ## Shared shapes -/

/-- vd takes a function of the lane. -/
def laneWrite (i : Instr) (ty : Ty) (d : BitVec 8) (s : State) (f : Group → Clause → Mask → Nat → Nat) : Out :=
  laneExec i s fun g fr k c gov => .next (s.laneNext (g.setN ty d.toNat gov (f g c gov)) fr k)
/-- The mask d takes a predicate of the lane (R143). -/
def laneToMask (i : Instr) (d : BitVec 4) (s : State) (f : Group → Clause → Mask → Mask) : Out :=
  laneExec i s fun g fr k c gov => .next (s.laneNext (g.setLaneMask fr d.toNat gov (f g c gov)) fr k)

end Sys2Proof.Machine
end

