-- ==== Sys2Proof/Machine/Clauses.lean ====
section
/-! DEFINITION. LRUN and the start of a clause (R118-R122). -/

namespace Sys2Proof.Machine

/-- The lane code base: the launch's, or HLANE in the handler (R118, R351). -/
def State.laneBase (s : State) (g : Group) : DWord :=
  match s.team g.team with
  | some t => if g.slot == 128 then (s.ctx t.cid).hlane else (s.descOf t).laneBase
  | none => 0

/-- The body of a clause, word by word; a fault carries the address of the lowest faulting byte. -/
def State.fetchBody (s : State) (w : Who) (va : Nat) : Nat → Except (XRes × Nat) (List LaneWord)
  | 0 => .ok []
  | n + 1 =>
    match s.fetchCode w (va % 2 ^ 64) 12 with
    | .error e => .error e
    | .ok v =>
      match s.fetchBody w (va + 12) n with
      | .error e => .error e
      | .ok rest => .ok (BitVec.ofNat 96 v :: rest)

def flagsOf (fa fb : Option Nat) : List Nat := fa.toList ++ fb.toList

/-- A clause holds its flags: how many long-latency words are attached to each (R121). -/
def Clause.holdsOf (c : Clause) : List FlagHold :=
  (flagsOf c.fa c.fb).map fun f => { uid := c.uid, flag := f, left := (c.body.filter fun w => c.attached w == some f).length }
def Group.raiseFlags (g : Group) (fs : List Nat) : Group :=
  { g with flags := fs.foldl (fun l f => l.set f (l.getD f 0 + 1)) g.flags }

/-- LRUN (R118). It also waits for the data of loads to the scalar registers that the clause names, and for an open
acquire (R95, R114). -/
def execLrun (x : BitVec 16) (s : State) : Out :=
  scalar (.lrun x) [] s fun g fr k =>
    let w := s.who g
    let va := ((s.laneBase g).toNat + 16 * x.toNat) % 2 ^ 64
    let fault (r : XRes) (a : Nat) : Out :=
      match r with
      | .bad c st => s.trapAt g fr k c 0 (BitVec.ofNat 64 a) st
      | .wait (some e) => .next (s.post e)
      | _ => .next s
    match s.fetchCode w va 12 with
    | .error (r, a) => fault r a
    | .ok v =>
      match decodeHeader (BitVec.ofNat 96 v) with
      | none => s.trapAt g fr k .illegal 0 0
      | some h =>
        match s.fetchBody w (va + 12) h.len with
        | .error (r, a) => fault r a
        | .ok body =>
          let fa := h.fa.map BitVec.toNat
          let fb := h.fb.map BitVec.toNat
          if 8 ≤ fr.queue.length ∨ !g.pendingMasks.isEmpty ∨ (flagsOf fa fb).any (fun f => decide (63 ≤ g.flags.getD f 0)) ∨
              g.loading (bodyScalars body) ∨ g.acquiring then .next s
          else
            let c : Clause := { uid := g.seq, lrunPc := fr.pc, body, fa, fb, wait := h.wait,
                                masks := fr.exec :: g.masks, scal := g.sregs, fpctl := g.fpctl }
            let g1 := g.raiseFlags (flagsOf fa fb)
            let fr1 := { fr with queue := fr.queue ++ [c] }
            .next (s.put { g1 with seq := g.seq + 1, holds := g1.holds ++ c.holdsOf } k (s.fall fr1))

/-- A group's lane instructions may issue: its team is not halted and holds no cause that waits for the end of a halt
(R28, R347, R349, R364). The handler issues while its team is halted (R351). -/
def State.laneIssuing (s : State) (g : Group) : Bool :=
  match s.team g.team with
  | some t => g.slot == 128 || (t.halt.isNone && t.queued.isEmpty && !g.saved && (s.ctx t.cid).st != .destroyed)
  | none => false
/-- Its scalar instructions may issue: a suspended context's groups stop, and their clauses complete (R304, R359); so do
those of a parking group (R273), and of one that urgent pre-emption has chosen (R359, R361). -/
def State.issuing (s : State) (g : Group) : Bool :=
  s.laneIssuing g && g.park.isNone && !g.leaving && (match s.team g.team with | some t => g.slot == 128 || (s.ctx t.cid).st != .suspended | none => false)

/-- The head clause of a fragment starts (R119). -/
def execClauseStart (core slot frag : Nat) (s : State) : Out :=
  let no : Out := .refused (.notArisen "CLAUSE_START")
  match s.group core slot with
  | none => no
  | some g =>
    match g.frag frag with
    | none => no
    | some fr =>
      match fr.queue with
      | [] => no
      | c :: rest =>
        if c.started || !s.laneIssuing g || (List.range 12).any (fun f => c.wait.getLsbD f && g.flags.getD f 0 != 0) then no
        else .next (s.put g frag { fr with queue := { c with started := true } :: rest })

end Sys2Proof.Machine
end

