-- ==== Sys2Proof/Machine/Stash.lean ====
section
/-! DEFINITION. The stash window of a team and its mapped lines (R165, R200, R207-R210). -/

namespace Sys2Proof.Machine

/-- The mapping that holds an offset of the window, and the place that a mapped line is filled from (R207, R208). -/
def Team.mapAt (t : Team) (off : Nat) : Option SMap := t.maps.find? fun m => decide (m.off ≤ off) && decide (off < m.off + m.len)
def SMap.lineAt (m : SMap) (off : Nat) : Option (Nat × Nat) :=
  (m.filled.find? fun f => f.1 == off / 128).map fun f => f.2

/-- The team as translation sees it. -/
def State.teamWho (s : State) (t : Team) : Who :=
  { core := t.core, cid := t.cid, aid := (s.ctx t.cid).aid, owner := t.core * 128 + t.slot }

/-- The global address that an offset of a mapped line stands for (R207, R208); the offset itself of a plain one. -/
def Team.globalAt (t : Team) (off : Nat) : Nat := match t.mapAt off with | some m => m.addr.toNat + (off - m.off) | none => off

/-- One byte of a window (R165, R208): the bound first; a mapped line is filled by its first access and is coherent
memory from then on; a write to it needs the global line exclusive. The answer carries the fault address. -/
def State.stashPlace (s : State) (t : Team) (off : Nat) (a : Acc) : Except (XRes × Nat) Loc :=
  if t.window ≤ off then .error (.bad .stashbound false, off)
  else
    match t.mapAt off with
    | none => .ok (.stash t.tid off)
    | some m =>
      let va := m.addr.toNat + (off - m.off)
      match m.lineAt off with
      | some (aid, gpa) =>
        if a.writes then
          match s.xlate (s.teamWho t) va a with
          | .ok _ => .ok (.glob aid (gpa + off % 128))
          | r => .error (r, va)
        else .ok (.glob aid (gpa + off % 128))
      | none =>
        match s.xlate (s.teamWho t) va a with
        | .ok _ => .error (.wait (some (.mappedStashFill t.tid (off / 128) a.writes)), va)
        | r => .error (r, va)

/-- The bytes at a list of offsets. -/
def State.stashPlaces (s : State) (t : Team) (a : Acc) : List Nat → Except (XRes × Nat) (List Loc)
  | [] => .ok []
  | o :: os =>
    match s.stashPlace t o a with
    | .error e => .error e
    | .ok l =>
      match s.stashPlaces t a os with
      | .error e => .error e
      | .ok ls => .ok (l :: ls)

/-- The fill of a mapped line (R208): its core's L1 holds it, shared for a read, exclusive for a write, before it is filled. -/
def execMappedStashFill (team line : Nat) (excl : Bool) (s : State) : Out :=
  let no : Out := .refused (.notArisen "MAPPED_STASH_FILL")
  match s.team team with
  | none => no
  | some t =>
    match t.mapAt (128 * line) with
    | none => no
    | some m =>
      let va := m.addr.toNat + (128 * line - m.off)
      match m.lineAt (128 * line), s.xlate (s.teamWho t) va (if excl then .wr else .rd) with
      | none, .ok (.glob aid gpa) =>
        let put (u : State) : Out :=
          let add (x : SMap) : SMap := if x.off == m.off then { x with filled := (line, aid, gpa) :: x.filled } else x
          match u.team team with
          | some v => .next ((u.fill aid gpa).setTeam { v with maps := v.maps.map add })
          | none => no
        if excl then (match s.own (s.teamWho t) va (some (.glob aid gpa)) with | .ok u => put u | .error e => .next (s.post e))
        else
          let u := s.want (s.teamWho t) va (some (.glob aid gpa))
          if u.l1St t.core (lineOf aid gpa) == .I then .next u else put u
      | _, _ => no

/-- The end of a mapping (R209, R210): its lines are written back and leave the directory; a filled line keeps its last mapped
value as plain stash; a line never filled keeps what the window held. -/
def State.endMap (s : State) (tid : Nat) (m : SMap) : State :=
  let s1 := match s.team tid with
    | some t => m.filled.foldl (fun (u : State) (f : Nat × Nat × Nat) => u.leaveL1 t.core (lineOf f.2.1 f.2.2)) s
    | none => s
  match s1.team tid with
  | some t => s1.setTeam { t with maps := t.maps.filter fun x => x.off != m.off }
  | none => s1
def State.endMaps (s : State) (tid : Nat) : State :=
  match s.team tid with
  | some t => t.maps.foldl (fun u m => u.endMap tid m) s
  | none => s

/-- SMAP (R207): the checks of its operands, then the wait of R206 for its stash range. -/
def execSmap (d a b : BitVec 8) (s : State) : Out :=
  scalar (.smap d a b) ([d.toNat, b.toNat] ++ pairRegs a) s fun g fr k =>
    match s.team g.team with
    | none => .fault .noAgent
    | some t =>
      let o := (g.s d.toNat).toNat
      let p := g.pair a.toNat
      let n := (g.s b.toNat).toNat
      if o % 128 ≠ 0 ∨ p.toNat % 128 ≠ 0 ∨ n % 128 ≠ 0 ∨ n = 0 ∨ 8 ≤ t.maps.length ∨
          t.maps.any (fun m => decide (m.off < o + n) && decide (o < m.off + m.len)) then s.trapAt g fr k .illegal 0 0
      else if 2 ^ 56 ≤ (p.toNat + n - 1) % 2 ^ 64 ∨ 2 ^ 64 ≤ p.toNat + n - 1 then
        s.trapAt g fr k .page 0 (p + BitVec.ofNat 64 (n - 1))
      else if t.window < o + n then s.trapAt g fr k .stashbound 0 (BitVec.ofNat 64 o)
      else if g.acquiring || s.copyBlocksStash t.tid o n true then .next s
      else
        .next ((s.setTeam { t with maps := t.maps ++ [{ off := o, addr := p, len := n }] }).put g k (s.fall fr))

/-- A stash place of the team's window, or one of its mapped lines. -/
def Team.ownsLoc (t : Team) (l : Loc) : Bool :=
  match l with
  | .stash tid _ => tid == t.tid
  | .glob aid gpa => t.maps.any fun m => m.filled.any fun f => f.2.1 == aid && f.2.2 / 128 == gpa / 128
  | .peer _ _ => false

/-- SUNMAP (R209): earlier stash accesses of the group perform first. -/
def stashForm : Instr → Bool
  | .vlds .. | .vsts .. | .vatom _ _ _ true _ _ _ _ _ | .vtld .. | .vtst .. => true
  | _ => false
def Clause.stashes (c : Clause) : Bool :=
  (c.body.drop c.idx).any fun w => match decodeLane w with | .ok i => stashForm i | .error _ => false
def Group.stashQuiet (g : Group) (t : Team) : Bool :=
  (g.sbuf.all fun b => !b.stash && !(b.locs.any t.ownsLoc)) && (g.olog.all fun e => !stashForm e.instr) &&
    (match g.slot0 with | some f => !f.queue.any Clause.stashes | none => true) &&
    (match g.slot1 with | some f => !f.queue.any Clause.stashes | none => true)
def execSunmap (d : BitVec 8) (s : State) : Out :=
  scalar (.sunmap d) [d.toNat] s fun g fr k =>
    match s.team g.team with
    | none => .fault .noAgent
    | some t =>
      match t.maps.find? fun m => m.off == (g.s d.toNat).toNat with
      | none => s.trapAt g fr k .illegal 0 0
      | some m =>
        if g.acquiring || !g.stashQuiet t || s.copyBlocksStash t.tid m.off m.len true then .next s
        else .next ((s.endMap t.tid m).put g k (s.fall fr))

end Sys2Proof.Machine
end

