-- ==== Sys2Proof/Machine/Copies.lean ====
section
/-! DEFINITION. The copy engine: CPY, RGET, RPUT, batches, retirement and faults of copies (R46, R201-R206, R211-R214;
log 11). -/

namespace Sys2Proof.Machine

/-! ## Issue -/

/-- The operands of a copy as it checks them at issue (R202, R203, R211): destination and source sides, count. -/
structure CopyArgs where
  dstS   : Bool
  srcS   : Bool
  dst    : Nat
  src    : Nat
  count  : Nat
  remote : Nat
  rsvd   : Bool

/-- The last byte of a global range lies in the address space (R203 item 3). -/
def rangePage (stash : Bool) (a n : Nat) : Bool := !stash && n != 0 && decide (2 ^ 56 ≤ a + n - 1)
def rangeStash (stash : Bool) (a n window : Nat) : Bool := stash && decide (window < a + n)
def copyOverlap (c : CopyArgs) : Bool :=
  c.remote == 0 && c.dstS == c.srcS && decide (c.dst < c.src + c.count) && decide (c.src < c.dst + c.count)

/-- A copy issues (R202, R206): the scoreboard of the core has 64 entries. The group's own buffered stores and open
scalar loads end first (R113, R114). DESIGN CHOICE: of two ranges that fail one check the destination counts; ADDR is the last byte of
the range for PAGE, its start for STASHBOUND (log 58). -/
def copyOp (i : Instr) (d a b : BitVec 8) (args : Group → CopyArgs) (s : State) : Out :=
  scalarGroup i (pairRegs d ++ pairRegs a ++ pairRegs b) s fun g fr k =>
    let c := args g
    let window := match s.team g.team with | some t => t.window | none => 0
    if c.rsvd || decide (16777216 < c.count) || copyOverlap c then s.trapAt g fr k .illegal 0 0
    else if c.count = 0 then .next (s.put g k (s.fall fr))
    else if rangePage c.dstS c.dst c.count then s.trapAt g fr k .page 0 (BitVec.ofNat 64 (c.dst + c.count - 1))
    else if rangePage c.srcS c.src c.count then s.trapAt g fr k .page 0 (BitVec.ofNat 64 (c.src + c.count - 1))
    else if rangeStash c.dstS c.dst c.count window then s.trapAt g fr k .stashbound 0 (BitVec.ofNat 64 c.dst)
    else if rangeStash c.srcS c.src c.count window then s.trapAt g fr k .stashbound 0 (BitVec.ofNat 64 c.src)
    else if decide (64 ≤ (s.copies.filter fun x => x.core == g.core).length) || g.acquiring || !g.loads.isEmpty || !g.sbuf.isEmpty then
      .next s
    else
      let x : Copy :=
        { id := s.nextId, core := g.core, team := g.team, grp := g.grp, cid := (s.who g).cid, dstS := c.dstS, srcS := c.srcS,
          dst := c.dst, src := c.src, count := c.count, remote := c.remote, pc := fr.pc }
      let s1 := { s with copies := s.copies ++ [x], nextId := s.nextId + 1 }
      .next (s1.put { g with opened := s.nextId :: g.opened } k (s.fall fr))

def execCpy (d a b : BitVec 8) (s : State) : Out :=
  copyOp (.cpy d a b) d a b (fun g =>
    let w := g.s (b.toNat + 1)
    { dstS := w.getLsbD 0, srcS := w.getLsbD 1, dst := (g.pair d.toNat).toNat, src := (g.pair a.toNat).toNat,
      count := (g.s b.toNat).toNat, remote := 0, rsvd := w.extractLsb' 2 30 != 0 }) s
def execRget (d a b : BitVec 8) (s : State) : Out :=
  copyOp (.rget d a b) d a b (fun g =>
    let w := g.s (b.toNat + 1)
    { dstS := w.getLsbD 0, srcS := false, dst := (g.pair d.toNat).toNat, src := (g.pair a.toNat).toNat,
      count := (g.s b.toNat).toNat, remote := 1, rsvd := w.extractLsb' 1 31 != 0 }) s
def execRput (d a b : BitVec 8) (s : State) : Out :=
  copyOp (.rput d a b) d a b (fun g =>
    let w := g.s (b.toNat + 1)
    { dstS := false, srcS := w.getLsbD 0, dst := (g.pair a.toNat).toNat, src := (g.pair d.toNat).toNat,
      count := (g.s b.toNat).toNat, remote := 2, rsvd := w.extractLsb' 1 31 != 0 }) s

/-! ## Batches (R204, R205) -/

def execCseal (j : BitVec 3) (s : State) : Out :=
  scalar (.cseal j) [] s fun g fr k =>
    let b := g.sealed_.getD j.toNat []
    .next (s.put { g with opened := [], sealed_ := g.sealed_.set j.toNat (b ++ g.opened) } k (s.fall fr))
def execCwait (j : BitVec 3) (s : State) : Out :=
  scalar (.cwait j) [] s fun g fr k =>
    if (g.sealed_.getD j.toNat []).isEmpty then .next (s.put g k (s.fall fr)) else .next s
def execCpoll (d : BitVec 8) (j : BitVec 3) (s : State) : Out :=
  scalar (.cpoll d j) [d.toNat] s fun g fr k =>
    .next (s.put (g.setS d.toNat (BitVec.ofNat 32 ((g.sealed_.getD j.toNat []).length % 4096))) k (s.fall fr))

/-! ## Retirement and faults -/

/-- What the engine finds: every byte's move, the first fault (offset, cause, STAGE, address), or a service it waits for. -/
inductive CopyRes where
  | ready (moves : List (Loc × Loc))
  | bad (off : Nat) (c : Cause) (stage : Bool) (addr : Nat)
  | wait (e : Option Ev)

/-- Resolve a range from offset `done` on, line by line; a failure carries its offset in the range. -/
def resolve (f : Nat → Nat → Except (XRes × Nat) (List Loc)) (start : Nat) : Nat → Nat → Nat → Except (Nat × XRes × Nat) (List Loc)
  | 0, _, _ => .ok []
  | fuel + 1, done, n =>
    if n ≤ done then .ok []
    else
      let m := min (n - done) (128 - (start + done) % 128)
      match f (start + done) m with
      | .error (r, a) => .error (done, r, a)
      | .ok ls =>
        match resolve f start fuel (done + m) n with
        | .error e => .error e
        | .ok rest => .ok (ls ++ rest)

def Copy.who (c : Copy) (s : State) (remoteSide : Bool) : Who :=
  match s.team c.team with
  | some t => { s.teamWho t with remote := remoteSide }
  | none => { core := c.core, cid := c.cid, aid := (s.ctx c.cid).aid, owner := 0xFFFF, remote := remoteSide }

def Copy.side (c : Copy) (s : State) (dest : Bool) : Nat → Nat → Except (XRes × Nat) (List Loc) :=
  let a : Acc := if dest then .wr else .rd
  if (if dest then c.dstS else c.srcS) then
    match s.team c.team with
    | some t => fun off n => s.stashPlaces t a ((List.range n).map fun i => off + i)
    | none => fun off _ => .error (.bad .stashbound false, off)
  else fun va n => s.places (c.who s (c.remote == if dest then 2 else 1)) va n a

def isPeer : Loc → Bool
  | .peer _ _ => true
  | _ => false

/-- The peer of a place has failed for a launch that runs on without it (R381). -/
def State.peerLost (s : State) (lid : Option Nat) : Loc → Bool
  | .peer id _ => s.dev.lostPeers.any fun p => some p.1 == lid && p.2 == id
  | _ => false

/-- What stops a byte that translation lets through: a header word (R218), or a link that cannot carry it (R203). -/
def State.stops (s : State) (c : Copy) (p : Loc × Loc) : Option Cause :=
  if s.isHeader p.1 then some .prot
  else if (isPeer p.1 || isPeer p.2) && (!s.peerLink (partOfId c.cid) || s.peerLost ((s.team c.team).map fun t => t.lid) p.1 ||
      s.peerLost ((s.team c.team).map fun t => t.lid) p.2) then some .uncorr
  else none

/-- The global address of a destination byte, also behind a mapped stash line (R208, R218). -/
def State.copyVa (s : State) (c : Copy) (off : Nat) : Nat :=
  match (if c.dstS then s.team c.team else none) with
  | some t => t.globalAt (c.dst + off)
  | none => c.dst + off

/-- The engine examines a copy from its start on: the lowest offset at which it meets a fault or a service decides (R203). At one offset
the destination's fault counts, a DESIGN CHOICE (log 58). -/
def State.examine (s : State) (c : Copy) : CopyRes :=
  let fuel := c.count / 64 + 4
  let dst (n : Nat) := resolve (c.side s true) c.dst fuel c.skip n
  let src (n : Nat) := resolve (c.side s false) c.src fuel c.skip n
  let below (n : Nat) : CopyRes :=
    match dst n, src n with
    | .ok ds, .ok ss =>
      match (ds.zip ss).findIdx? fun p => (s.stops c p).isSome with
      | some k =>
        let off := c.skip + k
        match ((ds.zip ss)[k]?).bind (s.stops c) with
        | some .prot => .bad off .prot false (s.copyVa c off / 8 * 8)
        | _ => .bad off .uncorr false (if c.remote == 2 then c.dst + off else c.src + off)
      | none => .ready (ds.zip ss)
    | _, _ => .wait none
  let fail (o : Nat) (r : XRes) (a : Nat) : CopyRes :=
    match below o with
    | .ready _ => (match r with | .bad k st => .bad o k st a | .wait e => .wait e | .ok _ => .wait none)
    | x => x
  match dst c.count, src c.count with
  | .error (o, r, a), .error (o2, r2, a2) => if o2 < o then fail o2 r2 a2 else fail o r a
  | .error (o, r, a), .ok _ => fail o r a
  | .ok _, .error (o, r, a) => fail o r a
  | .ok _, .ok _ => below c.count

/-- The copy with an id that its engine works on. -/
def State.copyAt (s : State) (id : Nat) : Option Copy := s.copies.find? fun c => c.id == id && !c.stuck

/-- The bytes of a copy that are still to be written, by place: each as it was read, or as it stands now (R201). -/
def State.copyRest (s : State) (c : Copy) (moves : List (Loc × Loc)) : List (Loc × Byte) :=
  moves.zipIdx.filterMap fun p =>
    let off := c.skip + p.2
    if c.moved.contains off then none
    else some (p.1.1, match c.got.find? (fun x => x.1 == off) with | some x => x.2 | none => s.readLoc p.1.2)

/-- Some of a copy's bytes move on: those not read are read, those read are written; which ones is not fixed, as a copy is atomic
per byte only (R201; log 11). -/
def State.copyStep (s : State) (id : Nat) : Out :=
  match s.copyAt id with
  | none => .next s
  | some c =>
    match s.examine c with
    | .ready moves =>
      let mine := moves.zipIdx.filter fun p => Config.choice 10 (s.free * 2 ^ 24 + c.skip + p.2) % 2 == 1 && !c.moved.contains (c.skip + p.2)
      let isRead (p : (Loc × Loc) × Nat) : Bool := c.got.any fun x => x.1 == c.skip + p.2
      let writes := mine.filter isRead
      let reads := mine.filter fun p => !isRead p
      let c1 := { c with moved := writes.map (fun p => c.skip + p.2) ++ c.moved
                         got := reads.map (fun p => (c.skip + p.2, s.readLoc p.1.2)) ++ c.got.filter fun x => !writes.any fun p => c.skip + p.2 == x.1 }
      let s1 := s.storeAway (writes.map fun p => (p.1.1, ((c.got.find? fun x => x.1 == c.skip + p.2).map fun x => x.2).getD 0))
      .next { s1 with copies := s1.copies.map fun x => if x.id == id then c1 else x }
    | .wait (some e) => .next (s.post e)
    | _ => .next s

def execCopyRetire (id : Nat) (s : State) : Out :=
  match s.copyAt id with
  | none => .refused (.notArisen "COPY_RETIRE")
  | some c =>
    match s.examine c with
    | .ready moves => .next ((s.storeAway (s.copyRest c moves)).dropCopy id)
    | .wait (some e) => .next (s.post e)
    | .wait none => .next s
    | .bad _ _ _ _ => .refused (.notArisen "COPY_RETIRE")

/-- The group that receives a copy's fault: the issuing one, else the lowest-numbered of the team still present (R203); with none
present GROUP is 0, a DESIGN CHOICE (log 58). -/
def State.copyGroup (s : State) (c : Copy) : Nat :=
  let gs := (s.teamGroups c.team).map fun g => g.grp
  if gs.contains c.grp then c.grp else let m := gs.foldl min 32; if m = 32 then 0 else m

/-- The bytes below the recorded offset are written, then the fault is raised (R203); a copy of a dead team retires there. -/
def execCopyFault (id : Nat) (s : State) : Out :=
  match s.copyAt id with
  | none => .refused (.notArisen "COPY_FAULT")
  | some c =>
    match s.examine c with
    | .bad off k stage addr =>
      let part := max c.skip (off / 128 * 128)
      let stop (u : State) : Out :=
        if (u.team c.team).all fun t => t.dead then .next ((u.dropCopy id).atsSpent c.core c.cid)
        else
          let u1 := { u with copies := u.copies.map fun (x : Copy) =>
            if x.id == id then { x with stuck := true, skip := part, got := [], moved := [] } else x }
          .next (u1.trapTeam c.team { cause := k, group := u.copyGroup c, stage, detail := BitVec.ofNat 64 part,
                                      addr := BitVec.ofNat 64 addr, pc := c.pc, culprit := .copy id })
      match s.examine { c with count := part } with
      | .ready moves => stop (s.storeAway (s.copyRest c moves))
      | .wait (some e) => .next (s.post e)
      | .wait none => .next s
      | .bad _ _ _ _ => stop s
    | _ => .refused (.notArisen "COPY_FAULT")

end Sys2Proof.Machine
end

