-- ==== Sys2Proof/Machine/Objects.lean ====
section
/-! DEFINITION. Objects: allocation, quotas, references, publication and the Gauze walkers (R215-R237). -/

namespace Sys2Proof.Machine

/-! ## Headers (R217) and scopes (R220) -/

def headerWord0 (domain owner lines : Nat) : Nat := 2 ^ 63 + domain % 256 * 2 ^ 55 + owner % 65536 * 2 ^ 39 + lines
def headerWord1 (stamp link : Nat) : Nat := 2 ^ 63 + stamp * 2 ^ 56 + link % 2 ^ 56
def State.word64 (s : State) (l : Loc) : Nat := leVal ((List.range 8).map fun n => s.readLoc (l.plus n))
/-- Write a word with its tag. -/
def State.putTagged (s : State) (l : Loc) (v : Nat) : State :=
  (s.writeLocs (((List.range 8).map l.plus).zip (leBytes 8 v))).setTagLoc l

/-- The rank of a publication scope of a context, as a core uses it. DESIGN CHOICE: a programmable scope in a header counts by the set that
the scope table holds when it is ranked, and by the core that ranks it as its issuing core (log 57). -/
def State.scopeRank (s : State) (cid core scope : Nat) : Nat :=
  if scope < 8 then scope
  else if (s.scopeCores cid core scope).all fun c => dieOf c == dieOf core then 3 else 4

/-- An object settled at a rank: PUB 1, STAMP 0, and a SCOPE of that rank or more. -/
def State.settled (s : State) (cid core : Nat) (h : Loc) (rank : Nat) : Bool :=
  let w0 := s.word64 h
  bitsOf w0 20 1 == 1 && bitsOf (s.word64 (h.plus 8)) 56 7 == 0 && decide (rank ≤ s.scopeRank cid core (bitsOf w0 21 5))

/-! ## Reaching an object (R225, R220) -/

/-- What a check gives: a place, a cause with STAGE, or a service to wait for. -/
inductive Reach where
  | at (l : Loc)
  | bad (c : Cause) (stage : Bool)
  | wait (e : Option Ev)

/-- The checks of R225 on a non-null reference; ISPUB and the walkers do without the private check. -/
def State.target (s : State) (w : Who) (va : Nat) (priv : Bool) : Reach :=
  if va / 2 ^ 56 ≠ 0 ∨ va % 128 ≠ 0 then .bad .prot false
  else
    match s.xlate { w with noPriv := !priv } va .rd with
    | .ok l => if s.isHeader l then .at l else .bad .prot false
    | .bad c st => .bad c st
    | .wait e => .wait e

/-- The leaf that maps an address. -/
def State.leafAt (s : State) (w : Who) (va : Nat) : Option Leaf :=
  match s.tlbFind w.core w.aid va with
  | some e => some e.leaf
  | none => match s.walkVa w.aid va with | .leaf l => some l | _ => none

/-- Look back line by line for the header of the object that holds a line, no further than `fuel` lines. -/
def State.lookBack (s : State) (w : Who) (va : Nat) : Nat → Option Loc
  | 0 => none
  | fuel + 1 =>
    match s.xlate { w with noPriv := true } va .rd with
    | .ok l => if s.isHeader l then some l else if va < 128 then none else s.lookBack w (va - 128) fuel
    | _ => none

/-- Where the look-back ends: the start of the long-lived arena of the context in which the line has been allocated, or of the
line's chunk. -/
def State.arenaStart (s : State) (cid va : Nat) : Nat :=
  match (s.ctx cid).longNext.find? fun p => decide (p.1 ≤ va) && decide (va < p.1 + p.2) with
  | some p => p.1
  | none => va / 65536 * 65536

/-- The container rank of a word, and the scope that publishes at it (R220, R227). -/
def State.container (s : State) (w : Who) (va : Nat) (l : Loc) : Nat × Nat :=
  match l with
  | .glob aid gpa =>
    if isHostGpa gpa then (5, 5)
    else
      match s.leafAt w va with
      | some f =>
        if f.kind = 2 && s.linePub aid gpa then
          let line := va / 128 * 128
          match s.lookBack w line ((line - s.arenaStart w.cid va) / 128 + 1) with
          | some h => let sc := bitsOf (s.word64 h) 21 5; (s.scopeRank w.cid w.core sc, sc)
          | none => (4, 4)
        else (4, 4)
      | none => (4, 4)
  | _ => (4, 4)

/-- A private line of the team itself: a store there never escapes (R226). -/
def State.ownPrivate (s : State) (w : Who) (va : Nat) (l : Loc) : Bool :=
  match l with
  | .glob aid gpa => (match s.leafAt w va with | some f => f.kind == 2 && f.own == w.owner | none => false) && !s.linePub aid gpa
  | _ => false

/-! ## Allocation (R215, R221, R223) -/

/-- Set a whole line of a new object: bytes, tags, published bit 0. -/
def State.newLine (s : State) (aid gpa : Nat) (bs : List Byte) (tags : BitVec 16) : State :=
  { s with
    chip := s.chip.setAll (byteOf aid (gpa / 128 * 128)) bs
    chipMeta := upsert (fun c => c.line == lineOf aid gpa) { line := lineOf aid gpa, tags, pub := false, dirty := true } s.chipMeta }

inductive Alloc where
  | got (s : State) (ref : Nat)
  | full (s : State)
  | quota (domain lines : Nat)
  | bad (c : Cause) (stage : Bool) (addr : Nat)
  | wait (e : Option Ev)

/-- Pages of an arena that a draw or a long-lived allocation takes: each is mapped to writable device memory in the device's own tables
(R312, R313). -/
def State.arenaPages (s : State) (w : Who) : List Nat → Option Alloc
  | [] => none
  | va :: rest =>
    match s.xlate { w with noPriv := true, hw := true } va .wr with
    | .ok (.glob _ gpa) => if isHostGpa gpa then some (.bad .prot false va) else s.arenaPages w rest
    | .ok _ => some (.bad .prot false va)
    | .bad .remote _ => some (.bad .prot false va)
    | .wait (some (.migration _ _)) => some (.bad .prot false va)
    | .bad .hostlost _ => some (.bad .prot false va)
    | .bad c st => some (.bad c st va)
    | .wait e => some (.wait e)
def State.isArena (s : State) (aid va : Nat) : Bool :=
  match s.leafSlot aid va with
  | some (_, _, e) => eKind e == 2
  | none => false
def State.ownerOf (s : State) (aid va : Nat) : Nat :=
  match s.leafSlot aid va with
  | some (_, _, e) => if eKind e = 2 then bitsOf e 52 12 * 16 + bitsOf e 8 4 else 0xFFFF
  | none => 0xFFFF

/-- The leaves of a range take an owner (R312); none when a larger leaf cannot be split for want of a table. -/
def State.claim (s : State) (aid owner va len : Nat) : Option State :=
  let s1 := (s.editRange aid (asArena owner) (2 * (len / 4096) + 8) va len).tlbDrop aid va len
  if (List.range (len / 4096)).all fun i => s1.isArena aid (va + 4096 * i) then some s1 else none

/-- Build one line of an object at an address: line 0 has the header and its tags, every other byte is zero (R217, R221). -/
def State.buildLine (s : State) (w : Who) (va domain lines n : Nat) : State :=
  match s.xlate { w with noPriv := true } (va + 128 * n) .wr with
  | .ok (.glob aid gpa) =>
    if n = 0 then
      s.newLine aid gpa (leBytes 8 (headerWord0 domain w.owner lines) ++ leBytes 8 (headerWord1 0 0) ++ List.replicate 112 0) 3
    else s.newLine aid gpa (List.replicate 128 0) 0
  | _ => s
/-- Build the object's lines at an address. -/
def State.build (s : State) (w : Who) (va domain lines : Nat) : State :=
  (List.range lines).foldl (fun (u : State) (n : Nat) => u.buildLine w va domain lines n) s

def Context.use (c : Context) (d : Nat) : Nat := (c.usage.getD d 0).toNat
def Context.limit (c : Context) (d : Nat) : Nat := (c.limits.getD d 0).toNat

/-- A charge of lines, with the launch's account of its team arenas, or the context's of its long-lived arena (R223). -/
def State.charge (s : State) (cid lid d n : Nat) (long : Bool) : State :=
  let c := s.ctx cid
  let c1 := { c with usage := c.usage.set d (BitVec.ofNat 32 (c.use d + n)) }
  match s.launch lid with
  | some l =>
    if long then s.setCtx { c1 with longUse := (l.desc.longBase, d, n) :: c.longUse }
    else (s.setCtx c1).setLaunch { l with charges := assocSet d (assoc 0 d l.charges + n) l.charges }
  | none => s.setCtx c1

/-- The host has released the long-lived arenas that lay in mappings now removed, and of which no mapping holds a part (R223; log 38):
what was charged in them is given back, and allocation there starts anew. -/
def State.releaseLong (s : State) (cid : Nat) (removed : List Mapping) : State :=
  let c := s.ctx cid
  let meets (p : Nat × Nat) (m : Mapping) : Bool := decide (m.base < p.1 + p.2) && decide (p.1 < m.base + m.len)
  let gone := (c.longNext.filter fun p => removed.any (meets p) && !c.maps.any (meets p)).map fun p => p.1
  let back := c.longUse.filter fun p => gone.contains p.1
  s.setCtx { c with
    usage := back.foldl (fun (u : List Word) p => u.set p.2.1 (u.getD p.2.1 0 - BitVec.ofNat 32 p.2.2)) c.usage
    longUse := c.longUse.filter fun p => !gone.contains p.1
    longNext := c.longNext.filter fun p => !gone.contains p.1 }

/-- Place lines in the team arena: in the current chunk, or in a new one (R215). -/
def State.placeTeam (s : State) (w : Who) (t : Team) (l : Launch) (lines : Nat) : Alloc :=
  let draw : Alloc :=
    if l.desc.rung ∨ l.desc.arenaSize < l.cursor + 65536 then .full s
    else
      let base := l.desc.arenaBase + l.cursor
      match s.arenaPages w ((List.range 16).map fun n => base + 4096 * n) with
      | some a => a
      | none =>
        match s.claim w.aid w.owner base 65536 with
        | none => .full (s.poolFailed w.aid)
        | some s1 => .got ((s1.setLaunch { l with cursor := l.cursor + 65536 }).setTeam { t with chunk := some (base, 128 * lines) }) base
  match t.chunk with
  | some (base, used) =>
    if used + 128 * lines ≤ 65536 then .got (s.setTeam { t with chunk := some (base, used + 128 * lines) }) (base + used) else draw
  | none => draw

/-- Place lines in the long-lived arena (R215, R312). -/
def State.placeLong (s : State) (w : Who) (l : Launch) (lines : Nat) : Alloc :=
  let c := s.ctx w.cid
  let p := l.desc.longBase + assoc 0 l.desc.longBase c.longNext
  let p := if p % 4096 != 0 && s.ownerOf w.aid p != w.owner then (p + 4095) / 4096 * 4096 else p
  let stop := p + 128 * lines
  if l.desc.longBase + l.desc.longSize < stop then .full s
  else
    let first := (p + 4095) / 4096 * 4096
    let len := (stop + 4095) / 4096 * 4096 - first
    match s.arenaPages w ((List.range (len / 4096)).map fun n => first + 4096 * n) with
    | some a => a
    | none =>
      match s.claim w.aid w.owner first len with
      | none => .full (s.poolFailed w.aid)
      | some s1 => .got (s1.setCtx { s1.ctx w.cid with longNext := assocSet l.desc.longBase (stop - l.desc.longBase) (s1.ctx w.cid).longNext }) p

/-- Lines of an object with a payload of a size (R217). -/
def objLines (size : Nat) : Nat := (size + 143) / 128

/-- NEW and each lane of VNEW: charge, place, write the header, zero the payload (R221). -/
def State.alloc (s : State) (w : Who) (t : Team) (size : Nat) (long : Bool) : Alloc :=
  match s.launch t.lid with
  | none => .full s
  | some l =>
    let lines := objLines size
    let d := l.desc.domain
    let c := s.ctx w.cid
    if c.limit d < c.use d + lines then .quota d lines
    else
      match (if long then s.placeLong w l lines else s.placeTeam w t l lines) with
      | .got s1 p => .got ((s1.charge w.cid t.lid d lines long).build w p d lines) p
      | a => a

/-- The size limits, and LONG without an arena (R221). -/
def State.sizeOk (s : State) (t : Team) (size : Nat) (long : Bool) : Bool :=
  if long then decide (size ≤ 134217584) && (s.descOf t).longSize != 0 else decide (size ≤ 65520)

/-- Accesses of the group that issued before, and lie on lines that an object is placed over, perform first (R221, R222). -/
def State.overPlaced (s : State) (g : Group) (w : Who) (seq va lines : Nat) : Bool :=
  let ls := (List.range lines).filterMap fun n => match s.xlate { w with noPriv := true } (va + 128 * n) .wr with
    | .ok (.glob aid gpa) => some (lineOf aid gpa)
    | _ => none
  let hit (l : Loc) : Bool := match l with | .glob aid gpa => ls.contains (lineOf aid gpa) | _ => false
  (g.sbuf.any fun b => decide (b.seq < seq) && b.locs.any hit) || (g.loads.any fun l => decide (l.seq < seq) && l.value.isNone && l.locs.any hit) ||
    (g.olog.any fun e => decide (e.seq < seq) && e.lanes.any fun x => x.open_ && (match x.stat with | .ready => x.locs.any hit | _ => !x.spans.isEmpty))

def newOp (i : Instr) (d a : BitVec 8) (long : Bool) (s : State) : Out :=
  scalarGroup i (pairRegs d ++ pairRegs a) s fun g fr k =>
    match s.team g.team with
    | none => .fault .noAgent
    | some t =>
      let size := (g.pair a.toNat).toNat
      if !s.sizeOk t size long then s.trapAt g fr k .illegal 0 0
      else if g.acquiring then .next s
      else
        match s.alloc (s.who g) t size long with
        | .got s1 p =>
          if s1.overPlaced g (s.who g) g.seq p (objLines size) then .next s
          else .next (s1.put (g.setPair d.toNat (BitVec.ofNat 64 p)) k (s.fall fr))
        | .full s1 => .next (s1.put (g.setPair d.toNat 0) k (s.fall fr))
        | .quota dom n => s.trapAt g fr k .quota (BitVec.ofNat 64 (dom + n * 2 ^ 32)) 0
        | .bad c st x => s.trapAt g fr k c 0 (BitVec.ofNat 64 x) st
        | .wait (some e) => .next (s.post e)
        | .wait none => .next s

def execNew (d a : BitVec 8) (s : State) : Out := newOp (.new d a) d a false s
def execNewLong (d a : BitVec 8) (s : State) : Out := newOp (.newLong d a) d a true s

def execQgetUse (d dom : BitVec 8) (s : State) : Out :=
  scalar (.qgetUse d dom) [d.toNat] s fun g fr k =>
    .next (s.put (g.setS d.toNat (BitVec.ofNat 32 ((s.ctx (s.who g).cid).use dom.toNat))) k (s.fall fr))
def execQgetLim (d dom : BitVec 8) (s : State) : Out :=
  scalar (.qgetLim d dom) [d.toNat] s fun g fr k =>
    .next (s.put (g.setS d.toNat (BitVec.ofNat 32 ((s.ctx (s.who g).cid).limit dom.toNat))) k (s.fall fr))

/-! ## Storing and loading references (R226-R228) -/

inductive RefStore where
  | stored (s : State)
  | bad (c : Cause) (stage : Bool) (detail addr : Nat)
  | wait (s : State)

/-- What the checks of a reference store find (R225-R227): it may store; the target escapes and the device publishes it at a scope;
a cause, with DETAIL and ADDR; a service to wait for. -/
inductive RefCheck where
  | ok
  | publish (scope : Nat)
  | bad (c : Cause) (stage : Bool) (detail addr : Nat)
  | wait (e : Option Ev)
def State.refCheck (s : State) (w : Who) (va value : Nat) (ls : List Loc) : RefCheck :=
  if value = 0 then .ok
  else
    match s.target w value true, ls with
    | .bad c st, _ => .bad c st 0 value
    | .wait e, _ => .wait e
    | .at h, l :: _ =>
      if s.ownPrivate w va l || s.settled w.cid w.core h (s.container w va l).1 then .ok
      else if (s.ast w.aid).esc then .bad .escape false value va
      else .publish (s.container w va l).2
    | .at _, [] => .wait none

/-- A reference store performs: null clears the tag, another value sets it (R226); an escaping target is published first, once what
the group ordered before the store has performed (`ready`; R227, R235). `escape` is the event that publishes for the instruction. -/
def State.storeRef (s : State) (w : Who) (team grp va value : Nat) (ls : List Loc) (ready : Bool) (escape : Nat → Ev) : RefStore :=
  match s.refCheck w va value ls with
  | .bad c st de a => .bad c st de a
  | .wait (some e) => .wait (s.post e)
  | .wait none => .wait s
  | .publish scope =>
    if !ready || s.walks.any (fun x => x.team == team && x.grp == grp && x.root == value) then .wait s else .wait (s.post (escape scope))
  | .ok =>
    match s.own w va ls.head? with
    | .error e => .wait (s.post e)
    | .ok s1 => .stored (if value = 0 then s1.writeLocs (ls.zip (leBytes 8 0)) else match ls with | l :: _ => s1.putTagged l value | [] => s1)

def execStref (d a o : BitVec 8) (s : State) : Out :=
  scalarGroup (.stref d a o) (pairRegs d ++ pairRegs a) s fun _ _ _ =>
    scalarMem (.stref d a o) (pairRegs d ++ pairRegs a) 8 a o .wr false s fun g fr k va ls =>
      if g.readsBefore g.seq ls || g.storesBefore g.seq ls then .next s
      else
        match s.headerAt va ls with
        | some x => s.trapAt g fr k .prot 0 x
        | none =>
          let value := g.pair d.toNat
          match s.storeRef (s.who g) g.team g.grp va.toNat value.toNat ls (g.doneBefore g.seq)
              (fun sc => .escapeHwPublish g.core g.slot k value (BitVec.ofNat 5 sc)) with
          | .stored s1 => .next (s1.put g k (s.fall fr))
          | .bad c st de ad => s.trapAt g fr k c (BitVec.ofNat 64 de) (BitVec.ofNat 64 ad) st
          | .wait s1 => .next s1

def execLdref (d a : BitVec 8) (t o : BitVec 4) (s : State) : Out :=
  scalarMem (.ldref d a t o) (pairRegs d ++ pairRegs a) 8 a (o.zeroExtend 8) .rd true s fun g fr k va ls =>
    if g.maskWait [t.toNat] then .next s
    else issueLoad s g fr k { seq := 0, dst := d.toNat, pair := true, locs := ls, tagTo := some t.toNat, frag := fr.mask,
                              addr := va, pc := 0 }

/-! ## Publication (R230-R237) -/

/-- A free walker of the die of a core. -/
def State.freeWalker (s : State) (core : Nat) : Option Nat :=
  ((List.range 4).map fun n => 4 * dieOf core + n).find? fun n => !s.walks.any fun w => w.walker == n

def State.startWalk (s : State) (g : Group) (frag : Mask) (entry : Option Nat) (pc : DWord) (root : Nat) (scope : BitVec 5) (walker : Nat) : State :=
  let w := s.who g
  { s with
    walks := s.walks ++ [{ id := s.nextId, walker, core := g.core, team := g.team, grp := g.grp, frag, cid := w.cid, pc, root, aid := w.aid,
                           entry, scope, rank := s.scopeRank w.cid g.core scope.toNat, pending := [root] }]
    nextId := s.nextId + 1 }

/-- Publish a graph (R230, R231): the checks of its root, its release (R235), a walker, the walk; then `fin` on the root that was
published. `dst` is the register that the instruction writes in the end. -/
def State.publish (s : State) (g : Group) (fr : Fragment) (k : Nat) (scope : BitVec 5) (root : Nat) (fin : State → Nat → Out)
    (dst : Option Nat := none) : Out :=
  let w := s.who g
  match fr.wait with
  | some (.walk _ _) => .next s
  | some (.done r _) => fin (s.releaseAt w.aid scope) r
  | _ =>
    if root = 0 then (if g.doneBefore g.seq then fin (s.releaseAt w.aid scope) 0 else .next s)
    else
      match s.target w root true with
      | .bad c st => s.trapAt g fr k c 0 (BitVec.ofNat 64 root) st
      | .wait (some e) => .next (s.post e)
      | .wait none => .next s
      | .at _ =>
        if !g.doneBefore g.seq then .next s
        else
          match s.freeWalker g.core with
          | none => .next s
          | some n => .next ((s.startWalk g fr.mask none fr.pc root scope n).put g k { fr with wait := some (.walk s.nextId dst) })

def execPubl (scope : BitVec 5) (a : BitVec 8) (s : State) : Out :=
  scalarGroup (.publ scope a) (pairRegs a) s fun g fr k =>
    s.publish g fr k scope (g.pair a.toNat).toNat fun u _ => .next (u.put g k (u.fall fr))

/-- Everything that the group ordered before an access has performed (R114, R169). -/
def Group.ordered (g : Group) (uid seq : Nat) : Bool :=
  g.doneBefore uid && (g.olog.all fun y => y.uid != uid || decide (seq ≤ y.seq)) && g.sbuf.all fun b => b.uid != uid || decide (seq ≤ b.seq)

/-- The log entry of a VSTREF with a lane that waits to store a reference. -/
def LogEntry.storesRef (e : LogEntry) (target : DWord) : Bool :=
  (match e.instr with | .vstref .. => true | _ => false) && e.lanes.any fun x => x.stat == .ready && pairOf (x.data.getD 0 0) (x.data.getD 1 0) == target

/-- Publication by the device for an escaping store, as PUBL by the group would do it (R227): for the fragment of STREF, or for a
lane of the group; what the group ordered before has performed. -/
def execEscapeHwPublish (core slot frag : Nat) (target : DWord) (scope : BitVec 5) (s : State) : Out :=
  let no : Out := .refused (.notArisen "ESCAPE_HW_PUBLISH")
  match s.group core slot, s.freeWalker core with
  | some g, some n =>
    if frag < 2 then
      match g.frag frag with
      | some fr =>
        if g.doneBefore g.seq then
          .next ((s.startWalk g fr.mask none fr.pc target.toNat scope n).put g frag { fr with wait := some (.walk s.nextId) })
        else no
      | none => no
    else
      match g.olog.find? fun e => e.storesRef target with
      | some e => if g.ordered e.uid e.seq then .next (s.startWalk g 0 (some e.seq) e.lrunPc target.toNat scope n) else no
      | none => no
  | _, _ => no

def State.setWalk (s : State) (w : Walk) : State := { s with walks := s.walks.map fun x => if x.id == w.id then w else x }

/-- The references in a line (R231): every tagged word that is no header word. -/
def State.refsIn (s : State) (l : Loc) : List Nat :=
  ((List.range 16).filter fun n => s.tagLoc (l.plus (8 * n)) && decide (s.word64 (l.plus (8 * n)) < 2 ^ 63)).map fun n => s.word64 (l.plus (8 * n))

/-- The walk area of a walk in the save memory of its context (R232, R358). -/
def State.walkArea (s : State) (w : Walk) : Option Nat :=
  let c := s.ctx w.cid
  if c.saveSize.toNat < saveNeed then none else some (c.saveBase.toNat + 0x0C180000 + 0x00100000 * w.walker)
/-- A reference becomes pending: in the list, else in the walk area, else the walk overflows (R232). -/
def State.addRef (p : State × Walk) (ref : Nat) : State × Walk :=
  let s := p.1
  let w := p.2
  if w.pending.length < Config.walkList then (s, { w with pending := w.pending ++ [ref] })
  else
    match s.walkArea w with
    | some a =>
      if w.spilled < 131072 then (s.writeBytes w.aid (a + 8 * w.spilled) (leBytes 8 ref), { w with spilled := w.spilled + 1 })
      else (s, { w with overflow := true })
    | none => (s, { w with overflow := true })
/-- The next pending reference, and the walk without it. -/
def State.nextRef (s : State) (w : Walk) : Option (Nat × Walk) :=
  match w.pending, s.walkArea w with
  | ref :: rest, _ => some (ref, { w with pending := rest })
  | [], some a => if w.spilled = 0 then none else some (s.read64 w.aid (a + 8 * (w.spilled - 1)), { w with spilled := w.spilled - 1 })
  | [], none => none

/-- The header as the step for line 0 leaves it (R231): words 0 and 1, and whether this walk stamps the object. -/
def State.markHeader (s : State) (w : Walk) (h : Loc) : State × Bool :=
  let w0 := s.word64 h
  let w1 := s.word64 (h.plus 8)
  let old := if bitsOf w0 20 1 = 1 then s.scopeRank w.cid w.core (bitsOf w0 21 5) else 0
  let sc := if old < w.rank then w.scope.toNat else bitsOf w0 21 5
  let n0 := w0 / 2 ^ 26 * 2 ^ 26 + sc * 2 ^ 21 + 2 ^ 20 + w0 % 2 ^ 20
  let stamp := bitsOf w1 56 7 == 0
  let n1 := if stamp then headerWord1 (1 + w.walker) (w.chain.headD 0) else w1
  ((s.putTagged h n0).putTagged (h.plus 8) n1, stamp)

/-- One line of an object (R231, R233): it is registered with the directories, published and traced. After the last line the
object's dirty lines are written back. -/
def State.walkLine (s : State) (w : Walk) (va n l : Nat) : Out :=
  let who := s.walkWho w
  match s.xlate who (va + 128 * l) .wr with
  | .bad c st => .next (s.setWalk { w with fault := some (c, st, va + 128 * l) })
  | .wait (some e) => .next (s.post e)
  | .wait none => .next s
  | .ok p =>
    match p with
    | .glob aid gpa =>
      match s.registerP (lineOf aid gpa) with
      | .error (.rdx die line) => .next (if s.asking die line then s else s.post (.rdx die line))
      | .error e => .next (s.post e)
      | .ok s0 =>
        let s1 := s0.setPub aid gpa true
        let m := if l = 0 then s1.markHeader w p else (s1, false)
        let w1 := { w with obj := if l + 1 < n then some (va, n, l + 1) else none
                           chain := if m.2 then va :: w.chain else w.chain }
        match (s.refsIn p).foldl State.addRef (m.1, w1) with
        | (s2, w2) =>
          let s3 := if l + 1 < n then s2 else s2.onLines w va 0 n fun u aid gpa => u.cleanL1 (lineOf aid gpa) w.rank
          .next (s3.setWalk w2)
    | _ => .next (s.setWalk { w with fault := some (.prot, false, va + 128 * l) })

def State.walkOf (s : State) (walker : Nat) : Option Walk := s.walks.find? fun w => w.walker == walker

/-- A reference whose object is neither settled nor on the chain of the walk (R232). -/
def State.unsettledRef (s : State) (w : Walk) (ref : Nat) : Bool :=
  !w.chain.contains ref && (match s.target (s.walkWho w) ref false with | .at h => !s.settled w.cid w.core h w.rank | _ => true)
/-- A rescan reads an object of the chain (R232). -/
def State.rescanObj (s : State) (w : Walk) (obj : Nat) (rest : List Nat) : State :=
  let who := s.walkWho w
  let lines := match s.target who obj false with | .at h => bitsOf (s.word64 h) 0 20 | _ => 0
  let refs := (List.range lines).flatMap fun l => match s.xlate who (obj + 128 * l) .rd with | .ok p => s.refsIn p | _ => []
  let new := refs.filter (s.unsettledRef w)
  match new.foldl State.addRef (s, { w with rescan := rest, found := w.found || !new.isEmpty }) with
  | (s1, w1) => s1.setWalk w1

/-- One line, or the next pending object: one that is settled, or that this walk has stamped, is not walked again (R231,
R232; DEDUCED, log 35). After an overflow the objects of the chain are rescanned, until a rescan adds nothing. -/
def execWalkLineStep (walker : Nat) (s : State) : Out :=
  let no : Out := .refused (.notArisen "WALK_LINE_STEP")
  match s.walkOf walker with
  | none => no
  | some w =>
    if w.fault.isSome then no
    else
      match w.obj with
      | some (va, n, l) => s.walkLine w va n l
      | none =>
        match s.nextRef w with
        | some (ref, w1) =>
          (match s.target (s.walkWho w) ref false with
          | .bad c st => .next (s.setWalk { w with fault := some (c, st, ref) })
          | .wait (some e) => .next (s.post e)
          | .wait none => .next s
          | .at h =>
            if s.settled w.cid w.core h w.rank || w.chain.contains ref then .next (s.setWalk w1)
            else s.walkLine w1 ref (bitsOf (s.word64 h) 0 20) 0)
        | none =>
          match w.rescan with
          | obj :: rest => .next (s.rescanObj w obj rest)
          | [] => if w.overflow || w.found then .next (s.setWalk { w with overflow := false, found := false, rescan := w.chain }) else no

/-- The group of a walk, resident, parked or saved, and its fragment. -/
def State.walkGroup (s : State) (w : Walk) : Option Group := s.groups.find? fun g => g.team == w.team && g.grp == w.grp && g.slot != 128
def Group.walkDone (g : Group) (w : Walk) (done : Bool) : Group :=
  let f (o : Option Fragment) : Option Fragment :=
    o.map fun x => match x.wait with
      | some (.walk id dst) => if x.mask == w.frag && id == w.id then { x with wait := if done then some (.done w.root dst) else none } else x
      | _ => x
  { g with slot0 := f g.slot0, slot1 := f g.slot1 }
/-- A fault of a walk that the device runs for a lane is the lane's (R173, R227). -/
def Group.walkFault (g : Group) (w : Walk) (c : Cause) (stage : Bool) (va : Nat) : Group :=
  { g with olog := g.olog.map fun (e : LogEntry) =>
      if some e.seq == w.entry then
        { e with lanes := e.lanes.map fun (x : LaneEntry) =>
            if x.stat == .ready && (pairOf (x.data.getD 0 0) (x.data.getD 1 0)).toNat == w.root then { x with stat := .bad c stage 0 (BitVec.ofNat 64 va) } else x }
      else e }

/-- Nothing is left for a walk to do. -/
def Walk.exhausted (w : Walk) : Bool := w.obj.isNone && w.pending.isEmpty && w.spilled == 0 && w.rescan.isEmpty && !w.overflow && !w.found

/-- A walk ends: its stamps are cleared, and its group goes on. With a fault the cause is raised; an object in hand whose header is
marked stays published as a whole (R233, R236). -/
def execWalkComplete (walker : Nat) (s : State) : Out :=
  let no : Out := .refused (.notArisen "WALK_COMPLETE")
  match s.walkOf walker with
  | none => no
  | some w =>
    let close (u : State) : State := let u1 := u.clearStamps w; { u1 with walks := u1.walks.filter fun x => x.id != w.id }
    let tell (u : State) (done : Bool) : State :=
      { u with groups := u.groups.map fun g => if g.team == w.team && g.grp == w.grp then g.walkDone w done else g }
    match w.fault with
    | some (c, st, va) =>
      let s1 := tell (close (s.sealObj w)) false
      if w.frag == 0 then .next (s1.editGroup w.team w.grp fun g => g.walkFault w c st va)
      else
        match s1.walkGroup w with
        | some g => .next (s1.trapTeam w.team { cause := c, stage := st, group := w.grp, addr := BitVec.ofNat 64 va, pc := w.pc,
                                                culprit := .scalar g.slot (if (match g.slot0 with | some f => f.mask == w.frag | none => false) then 0 else 1) })
        | none => .next s1
    | none =>
      if !w.exhausted then no
      else .next (tell ((close s).releaseAt w.aid w.scope) true)

def execIspub (d a : BitVec 8) (s : State) : Out :=
  scalar (.ispub d a) (d.toNat :: pairRegs a) s fun g fr k =>
    let ref := (g.pair a.toNat).toNat
    let put (v : Nat) : Out := .next (s.put (g.setS d.toNat (BitVec.ofNat 32 v)) k (s.fall fr))
    if g.acquiring then .next s
    else if ref = 0 then put 0
    else
      match s.target (s.who g) ref false with
      | .bad c st => s.trapAt g fr k c 0 (BitVec.ofNat 64 ref) st
      | .wait (some e) => .next (s.post e)
      | .wait none => .next s
      | .at h =>
        let w0 := s.word64 h
        if bitsOf w0 20 1 = 0 then put 0
        else put (256 + (if bitsOf (s.word64 (h.plus 8)) 56 7 = 0 then 0 else 512) + bitsOf w0 21 5)

end Sys2Proof.Machine
end

