-- ==== Sys2Proof/Machine/Flags.lean ====
section
/-! DEFINITION. %fpctl in lane instructions: rounding, flushing, sticky bits, enabled exceptions (R51, R53, R78-R81). -/

namespace Sys2Proof.Machine

def rmOf (fpctl : Word) : Nat := fpctl.toNat % 4
def ftzOf (fpctl : Word) : Bool := fpctl.getLsbD 2
def enables (fpctl : Word) : Exc := fpctl.extractLsb' 8 5
/-- OR exceptions, and SFMT, into the sticky bits (R51, R89). -/
def stick (fpctl : Word) (x : Exc) : Word := fpctl ||| (x.zeroExtend 32 <<< 16)
def stickFmt (fpctl : Word) : Word := fpctl ||| (1#32 <<< 21)

/-- The rounding of a conversion or of VFRND: RM of %fpctl, or its own (R149, R151). -/
def Rnd.mode (r : Rnd) (fpctl : Word) : Nat :=
  match r with
  | .rm => rmOf fpctl
  | .rne => 0
  | .rtz => 1
  | .rup => 2
  | .rdn => 3

/-- The exceptions of an instruction over its lanes: the union, the lanes with an enabled one, and the enabled union. -/
def excUnion (gov : Mask) (f : Nat → Exc) : Exc := (lanesOf gov).foldl (fun a l => a ||| f l) 0
def excLanes (gov : Mask) (en : Exc) (f : Nat → Exc) : Mask := maskOf fun l => inMask gov l && f l &&& en != 0

/-- A floating-point instruction ends: FPE when a lane raises an enabled exception, and then nothing is written; else the
write and the sticky bits (R51, R81). -/
def State.fpDone (s : State) (g : Group) (fr : Fragment) (k : Nat) (c : Clause) (gov : Mask) (exc : Nat → Exc) (write : Group → Group) : Out :=
  let u := excUnion gov exc
  let en := enables c.fpctl
  if u &&& en != 0 then s.laneTrap g fr k c gov .fpe ((u &&& en).zeroExtend 64) (excLanes gov en exc)
  else
    let h := write g
    .next (s.laneNext { h with fpctl := stick h.fpctl u } fr k)

/-- An elementwise floating-point result (R145). -/
def packExc (ty : Ty) (f : Nat → Nat × Exc) : Nat × Exc :=
  (packElems ty fun i => (f i).1, (List.range ty.elems).foldl (fun a i => a ||| (f i).2) 0)
def fpWrite (i : Instr) (ty : Ty) (d : BitVec 8) (s : State) (f : Group → Clause → Nat → Nat → Nat × Exc) : Out :=
  laneExec i s fun g fr k c gov =>
    let r (l : Nat) : Nat × Exc := packExc ty (f g c l)
    s.fpDone g fr k c gov (fun l => (r l).2) fun h => h.setN ty d.toNat gov fun l => (r l).1

/-- The value of an element of a source (R75, R79). -/
def srcF (g : Group) (c : Clause) (ty : Ty) (a : Src) (l i : Nat) : FVal :=
  (Ty.fmt ty).value (ftzOf c.fpctl) (elemOf ty (srcN g c ty a l) i)

end Sys2Proof.Machine
end

