-- ==== Sys2Proof/Machine/LaneInt.lean ====
section
/-! DEFINITION. Lane integer instructions (R139-R144). -/

namespace Sys2Proof.Machine

/-- Elementwise on two sources, and on one: exact integers, then reduced or clamped (R74, R140). -/
def intBin (i : Instr) (ty : Ty) (sat : Bool) (d : BitVec 8) (a b : Src) (f : Int → Int → Int) (s : State) : Out :=
  laneWrite i ty d s fun g c _ l =>
    let x := srcN g c ty a l
    let y := srcN g c ty b l
    packElems ty fun e => narrow ty sat (f (elemInt ty x e) (elemInt ty y e))
def intUn (i : Instr) (ty : Ty) (sat : Bool) (d : BitVec 8) (a : Src) (f : Int → Int) (s : State) : Out :=
  laneWrite i ty d s fun g c _ l => packElems ty fun e => narrow ty sat (f (elemInt ty (srcN g c ty a l) e))
/-- Bitwise on whole operands (R140). -/
def bitBin (i : Instr) (ty : Ty) (d : BitVec 8) (a b : Src) (f : DWord → DWord → DWord) (s : State) : Out :=
  laneWrite i ty d s fun g c _ l => (f (BitVec.ofNat 64 (srcN g c ty a l)) (BitVec.ofNat 64 (srcN g c ty b l))).toNat

def execVadd (ty : Ty) (sat : Bool) (m : BitVec 4) (d : BitVec 8) (a b : Src) (s : State) : Out :=
  intBin (.vadd ty sat m d a b) ty sat d a b (fun x y => x + y) s
def execVsub (ty : Ty) (sat : Bool) (m : BitVec 4) (d : BitVec 8) (a b : Src) (s : State) : Out :=
  intBin (.vsub ty sat m d a b) ty sat d a b (fun x y => x - y) s
def execVmul (ty : Ty) (sat : Bool) (m : BitVec 4) (d : BitVec 8) (a b : Src) (s : State) : Out :=
  intBin (.vmul ty sat m d a b) ty sat d a b (fun x y => x * y) s
def execVmulhi (ty : Ty) (m : BitVec 4) (d : BitVec 8) (a b : Src) (s : State) : Out :=
  intBin (.vmulhi ty m d a b) ty false d a b (fun x y => x * y / 2 ^ 32) s
def execVmad (ty : Ty) (sat : Bool) (m : BitVec 4) (d : BitVec 8) (a b c : Src) (s : State) : Out :=
  laneWrite (.vmad ty sat m d a b c) ty d s fun g cl _ l =>
    narrow ty sat (elemInt ty (srcN g cl ty a l) 0 * elemInt ty (srcN g cl ty b l) 0 + elemInt ty (srcN g cl ty c l) 0)
def execVmin (ty : Ty) (m : BitVec 4) (d : BitVec 8) (a b : Src) (s : State) : Out :=
  intBin (.vmin ty m d a b) ty false d a b min s
def execVmax (ty : Ty) (m : BitVec 4) (d : BitVec 8) (a b : Src) (s : State) : Out :=
  intBin (.vmax ty m d a b) ty false d a b max s
def execVabs (ty : Ty) (sat : Bool) (m : BitVec 4) (d : BitVec 8) (a : Src) (s : State) : Out :=
  intUn (.vabs ty sat m d a) ty sat d a (fun x => x.natAbs) s
def execVneg (ty : Ty) (sat : Bool) (m : BitVec 4) (d : BitVec 8) (a : Src) (s : State) : Out :=
  intUn (.vneg ty sat m d a) ty sat d a (fun x => -x) s
def execVand (ty : Ty) (m : BitVec 4) (d : BitVec 8) (a b : Src) (s : State) : Out :=
  bitBin (.vand ty m d a b) ty d a b (fun x y => x &&& y) s
def execVor (ty : Ty) (m : BitVec 4) (d : BitVec 8) (a b : Src) (s : State) : Out :=
  bitBin (.vor ty m d a b) ty d a b (fun x y => x ||| y) s
def execVxor (ty : Ty) (m : BitVec 4) (d : BitVec 8) (a b : Src) (s : State) : Out :=
  bitBin (.vxor ty m d a b) ty d a b (fun x y => x ^^^ y) s
def execVandn (ty : Ty) (m : BitVec 4) (d : BitVec 8) (a b : Src) (s : State) : Out :=
  bitBin (.vandn ty m d a b) ty d a b (fun x y => x &&& ~~~y) s
def execVnot (ty : Ty) (m : BitVec 4) (d : BitVec 8) (a : Src) (s : State) : Out :=
  laneWrite (.vnot ty m d a) ty d s fun g c _ l => (~~~(BitVec.ofNat 64 (srcN g c ty a l))).toNat

/-! ## Shifts (R141) -/

/-- Elementwise shift; the amount is the low bits of the matching element of b, a single 32-bit operand for 64-bit types. -/
def shiftOp (i : Instr) (ty : Ty) (d : BitVec 8) (a b : Src) (f : Nat → Nat → Nat) (s : State) : Out :=
  laneWrite i ty d s fun g c _ l =>
    let x := srcN g c ty a l
    let y := (srcW g c b l).toNat
    packElems ty fun e => f (elemOf ty x e) ((if ty.is64 then y else elemOf ty y e) % ty.width)

def execVshl (ty : Ty) (m : BitVec 4) (d : BitVec 8) (a b : Src) (s : State) : Out :=
  shiftOp (.vshl ty m d a b) ty d a b (fun x n => x * 2 ^ n) s
def execVshr (ty : Ty) (m : BitVec 4) (d : BitVec 8) (a b : Src) (s : State) : Out :=
  shiftOp (.vshr ty m d a b) ty d a b (fun x n => x / 2 ^ n) s
def execVsra (ty : Ty) (m : BitVec 4) (d : BitVec 8) (a b : Src) (s : State) : Out :=
  shiftOp (.vsra ty m d a b) ty d a b (fun x n => ((asInt true ty.width x / 2 ^ n) % 2 ^ ty.width).toNat) s
def execVrot (ty : Ty) (m : BitVec 4) (d : BitVec 8) (a b : Src) (s : State) : Out :=
  shiftOp (.vrot ty m d a b) ty d a b (fun x n => ((BitVec.ofNat 32 x).rotateLeft n).toNat) s
def execVclz (ty : Ty) (m : BitVec 4) (d : BitVec 8) (a : Src) (s : State) : Out :=
  laneWrite (.vclz ty m d a) ty d s fun g c _ l => clz32 (srcW g c a l)
def execVpopc (ty : Ty) (m : BitVec 4) (d : BitVec 8) (a : Src) (s : State) : Out :=
  laneWrite (.vpopc ty m d a) ty d s fun g c _ l => popCount (srcW g c a l)

/-! ## Bit fields (R142) -/

def fieldMask (pos len : Nat) : Nat := (2 ^ len - 1) * 2 ^ pos % 2 ^ 32
def bfx (signed : Bool) (a pos len : Nat) : Nat :=
  let width := min len (32 - pos)
  let field := (a &&& fieldMask pos len) / 2 ^ pos
  if width = 0 then 0 else (asInt signed width field % 2 ^ 32).toNat
def bfi (vd a pos len : Nat) : Nat :=
  let fm := fieldMask pos len
  (vd &&& (2 ^ 32 - 1 - fm)) ||| (a * 2 ^ pos &&& fm)
def execVbfx (ty : Ty) (m : BitVec 4) (d : BitVec 8) (a b c : Src) (s : State) : Out :=
  laneWrite (.vbfx ty m d a b c) ty d s fun g cl _ l =>
    bfx ty.signed (srcW g cl a l).toNat ((srcW g cl b l).toNat % 32) (min ((srcW g cl c l).toNat % 64) 32)
def execVbfi (ty : Ty) (m : BitVec 4) (d : BitVec 8) (a b c : Src) (s : State) : Out :=
  laneWrite (.vbfi ty m d a b c) ty d s fun g cl _ l =>
    bfi (g.v d.toNat l).toNat (srcW g cl a l).toNat ((srcW g cl b l).toNat % 32) (min ((srcW g cl c l).toNat % 64) 32)

/-! ## Compare, select, move, iota (R143, R144) -/

def Cond.holds (c : Cond) (x y : Int) : Bool :=
  match c with
  | .eq => x == y
  | .ne => x != y
  | .lt => decide (x < y)
  | .le => decide (x ≤ y)
  | .gt => decide (y < x)
  | .ge => decide (y ≤ x)
def execVcmp (ty : Ty) (cond : Cond) (m : BitVec 4) (d : BitVec 4) (a b : Src) (s : State) : Out :=
  laneToMask (.vcmp ty cond m d a b) d s fun g c _ =>
    maskOf fun l => Cond.holds cond (elemInt ty (srcN g c ty a l) 0) (elemInt ty (srcN g c ty b l) 0)
/-- VSEL takes its mask as it stood at the LRUN. -/
def execVsel (ty : Ty) (sel : BitVec 4) (m : BitVec 4) (d : BitVec 8) (a b : Src) (s : State) : Out :=
  laneWrite (.vsel ty sel m d a b) ty d s fun g c _ l =>
    if inMask (c.masks.getD sel.toNat 0) l then srcN g c ty a l else srcN g c ty b l
def execVmov (ty : Ty) (m : BitVec 4) (d : BitVec 8) (a : Src) (s : State) : Out :=
  laneWrite (.vmov ty m d a) ty d s fun g c _ l => srcN g c ty a l
def execViota (ty : Ty) (m : BitVec 4) (d : BitVec 8) (a b : Src) (s : State) : Out :=
  laneWrite (.viota ty m d a b) ty d s fun g c gov l =>
    let rank := ((lanesOf gov).filter fun x => decide (x < l)).length
    (srcW g c a l).toNat + rank * (srcW g c b l).toNat

end Sys2Proof.Machine
end

