-- ==== Sys2Proof/Machine/LaneFp.lean ====
section
/-! DEFINITION. Lane floating point (R145-R150). -/

namespace Sys2Proof.Machine

/-- Elementwise on two sources. -/
def fpBin (i : Instr) (ty : Ty) (d : BitVec 8) (a b : Src) (f : Fmt → Nat → Bool → FVal → FVal → Nat × Exc) (s : State) : Out :=
  fpWrite i ty d s fun g c l e =>
    f (Ty.fmt ty) (rmOf c.fpctl) (ftzOf c.fpctl) (srcF g c ty a l e) (srcF g c ty b l e)
def fpUn (i : Instr) (ty : Ty) (d : BitVec 8) (a : Src) (f : Fmt → Nat → Bool → FVal → Nat × Exc) (s : State) : Out :=
  fpWrite i ty d s fun g c l e => f (Ty.fmt ty) (rmOf c.fpctl) (ftzOf c.fpctl) (srcF g c ty a l e)
def fpTrans (i : Instr) (ty : Ty) (d : BitVec 8) (a : Src) (t : Trans) (s : State) : Out :=
  fpWrite i ty d s fun g c l e =>
    (Ty.fmt ty).transOp t (rmOf c.fpctl) (ftzOf c.fpctl) (elemOf ty (srcN g c ty a l) e)

def execVfadd (ty : Ty) (m : BitVec 4) (d : BitVec 8) (a b : Src) (s : State) : Out :=
  fpBin (.vfadd ty m d a b) ty d a b (fun f rm z x y => f.addOp rm z x y) s
def execVfsub (ty : Ty) (m : BitVec 4) (d : BitVec 8) (a b : Src) (s : State) : Out :=
  fpBin (.vfsub ty m d a b) ty d a b (fun f rm z x y => f.addOp rm z x y.neg) s
def execVfmul (ty : Ty) (m : BitVec 4) (d : BitVec 8) (a b : Src) (s : State) : Out :=
  fpBin (.vfmul ty m d a b) ty d a b (fun f rm z x y => f.mulOp rm z x y) s
def execVfma (ty : Ty) (m : BitVec 4) (d : BitVec 8) (a b c : Src) (s : State) : Out :=
  fpWrite (.vfma ty m d a b c) ty d s fun g cl l e =>
    (Ty.fmt ty).fmaOp (rmOf cl.fpctl) (ftzOf cl.fpctl) (srcF g cl ty a l e) (srcF g cl ty b l e) (srcF g cl ty c l e)
def execVfmin (ty : Ty) (m : BitVec 4) (d : BitVec 8) (a b : Src) (s : State) : Out :=
  fpBin (.vfmin ty m d a b) ty d a b (fun f _ _ x y => f.minMax false x y) s
def execVfmax (ty : Ty) (m : BitVec 4) (d : BitVec 8) (a b : Src) (s : State) : Out :=
  fpBin (.vfmax ty m d a b) ty d a b (fun f _ _ x y => f.minMax true x y) s
def execVfdiv (ty : Ty) (m : BitVec 4) (d : BitVec 8) (a b : Src) (s : State) : Out :=
  fpBin (.vfdiv ty m d a b) ty d a b (fun f rm z x y => f.divOp rm z x y) s
def execVfsqrt (ty : Ty) (m : BitVec 4) (d : BitVec 8) (a : Src) (s : State) : Out :=
  fpUn (.vfsqrt ty m d a) ty d a (fun f rm z x => f.sqrtOp rm z x) s
def execVfrcp (ty : Ty) (m : BitVec 4) (d : BitVec 8) (a : Src) (s : State) : Out :=
  fpUn (.vfrcp ty m d a) ty d a (fun f rm z x => f.divOp rm z (.fin false 1 0) x) s
def execVfrsq (ty : Ty) (m : BitVec 4) (d : BitVec 8) (a : Src) (s : State) : Out := fpTrans (.vfrsq ty m d a) ty d a .rsq s
def execVfexp2 (ty : Ty) (m : BitVec 4) (d : BitVec 8) (a : Src) (s : State) : Out := fpTrans (.vfexp2 ty m d a) ty d a .exp2 s
def execVflog2 (ty : Ty) (m : BitVec 4) (d : BitVec 8) (a : Src) (s : State) : Out := fpTrans (.vflog2 ty m d a) ty d a .log2 s
def execVfsinp (ty : Ty) (m : BitVec 4) (d : BitVec 8) (a : Src) (s : State) : Out := fpTrans (.vfsinp ty m d a) ty d a .sinp s
def execVfcosp (ty : Ty) (m : BitVec 4) (d : BitVec 8) (a : Src) (s : State) : Out := fpTrans (.vfcosp ty m d a) ty d a .cosp s
def execVftanh (ty : Ty) (m : BitVec 4) (d : BitVec 8) (a : Src) (s : State) : Out := fpTrans (.vftanh ty m d a) ty d a .tanh s
def execVfrnd (ty : Ty) (rnd : Rnd) (exact : Bool) (m : BitVec 4) (d : BitVec 8) (a : Src) (s : State) : Out :=
  fpWrite (.vfrnd ty rnd exact m d a) ty d s fun g c l e =>
    (Ty.fmt ty).rndOp (Rnd.mode rnd c.fpctl) exact (srcF g c ty a l e)

/-- The sign bits of the elements (R150): bits only, no exception. -/
def signMask (ty : Ty) : Nat := packElems ty fun _ => 2 ^ (ty.width - 1)
def execVfabs (ty : Ty) (m : BitVec 4) (d : BitVec 8) (a : Src) (s : State) : Out :=
  laneWrite (.vfabs ty m d a) ty d s fun g c _ l => srcN g c ty a l &&& (2 ^ 32 - 1 - signMask ty)
def execVfneg (ty : Ty) (m : BitVec 4) (d : BitVec 8) (a : Src) (s : State) : Out :=
  laneWrite (.vfneg ty m d a) ty d s fun g c _ l => srcN g c ty a l ^^^ signMask ty

/-- VFCMP (R148): the truth of a condition, and invalid operation. -/
def FCond.holds (c : FCond) (x y : FVal) : Bool :=
  match x.cmp y with
  | none => match c with
    | .ne | .un => true
    | _ => false
  | some r => match c with
    | .eq => r == 0
    | .ne => r != 0
    | .lt => decide (r < 0)
    | .le => decide (r ≤ 0)
    | .gt => decide (0 < r)
    | .ge => decide (0 ≤ r)
    | .un => false
    | .or => true
def FCond.quiet : FCond → Bool
  | .eq | .ne | .un | .or => true
  | _ => false
def execVfcmp (ty : Ty) (cond : FCond) (m : BitVec 4) (d : BitVec 4) (a b : Src) (s : State) : Out :=
  laneExec (.vfcmp ty cond m d a b) s fun g fr k c gov =>
    let x (l : Nat) : FVal := srcF g c ty a l 0
    let y (l : Nat) : FVal := srcF g c ty b l 0
    let exc (l : Nat) : Exc :=
      excIf (if FCond.quiet cond then (x l).isSig || (y l).isSig else (x l).isNan || (y l).isNan) excNV
    s.fpDone g fr k c gov exc fun h => h.setLaneMask fr d.toNat gov (maskOf fun l => FCond.holds cond (x l) (y l))

end Sys2Proof.Machine
end

