-- ==== Sys2Proof/Machine/LaneCvt.lean ====
section
/-! DEFINITION. Conversion and packing (R151-R155). -/

namespace Sys2Proof.Machine

/-- One element converted (R82-R84, R151): bits of the target element and exceptions. -/
def convert (src dst : Ty) (rm : Nat) (ftz sat : Bool) (v : Nat) : Nat × Exc :=
  if src = dst then (v, 0)
  else if src.isInt && dst.isInt then (narrow dst sat (asInt src.signed src.width v), 0)
  else if src.isFloat && dst.isInt then toInt rm dst.signed dst.width ((Ty.fmt src).value ftz v)
  else if src.isInt then
    (Ty.fmt dst).round rm ftz sat (FVal.ofInt (asInt src.signed src.width v) 0 false)
  else (Ty.fmt dst).round rm ftz sat ((Ty.fmt src).value ftz v)

/-- Put element i into a register value. -/
def putElem (ty : Ty) (old i v : Nat) : Nat :=
  packElems ty fun e => if e = i then v else elemOf ty old e

def execVcvt (ty dty : Ty) (rnd : Rnd) (sat : Bool) (sel del : BitVec 2) (m : BitVec 4) (d : BitVec 8) (a : Src) (s : State) : Out :=
  laneExec (.vcvt ty dty rnd sat sel del m d a) s fun g fr k c gov =>
    let r (l : Nat) : Nat × Exc :=
      convert ty dty (Rnd.mode rnd c.fpctl) (ftzOf c.fpctl) sat (elemOf ty (srcN g c ty a l) sel.toNat)
    s.fpDone g fr k c gov (fun l => (r l).2) fun h => h.setN dty d.toNat gov fun l =>
      if 1 < dty.elems then putElem dty (g.v d.toNat l).toNat del.toNat (r l).1 else (r l).1

def execVpack (ty sty : Ty) (rnd : Rnd) (sat : Bool) (half : Bool) (m : BitVec 4) (d : BitVec 8) (a b : Src) (s : State) : Out :=
  laneExec (.vpack ty sty rnd sat half m d a b) s fun g fr k c gov =>
    let conv (x : Src) (l : Nat) : Nat × Exc :=
      convert sty ty (Rnd.mode rnd c.fpctl) (ftzOf c.fpctl) sat (srcW g c x l).toNat
    s.fpDone g fr k c gov (fun l => (conv a l).2 ||| (conv b l).2) fun h => h.setN ty d.toNat gov fun l =>
      putElem ty (putElem ty (g.v d.toNat l).toNat (2 * b2n half) (conv a l).1) (2 * b2n half + 1) (conv b l).1

def execVunpk (ty dty : Ty) (rnd : Rnd) (sat : Bool) (half : Bool) (m : BitVec 4) (d : BitVec 8) (a : Src) (s : State) : Out :=
  laneExec (.vunpk ty dty rnd sat half m d a) s fun g fr k c gov =>
    let conv (e l : Nat) : Nat × Exc :=
      convert ty dty (Rnd.mode rnd c.fpctl) (ftzOf c.fpctl) sat (elemOf ty (srcW g c a l).toNat (2 * b2n half + e))
    s.fpDone g fr k c gov (fun l => (conv 0 l).2 ||| (conv 1 l).2) fun h =>
      (h.setV d.toNat gov fun l => BitVec.ofNat 32 (conv 0 l).1).setV (d.toNat + 1) gov fun l => BitVec.ofNat 32 (conv 1 l).1

/-- VQ4N (R154): the super-scale is read as it stands; FTZ acts on the result. -/
def execVq4n (dty : Ty) (idx : BitVec 3) (m : BitVec 4) (d : BitVec 8) (a b c : Src) (s : State) : Out :=
  fpWrite (.vq4n dty idx m d a b c) dty d s fun g cl l e =>
    let code := bitsOf (srcW g cl a l).toNat (4 * (idx.toNat + e)) 4
    (Ty.fmt dty).round (rmOf cl.fpctl) (ftzOf cl.fpctl) false
      (q4nValue code ((srcW g cl b l).toNat % 256) (srcW g cl c l).toNat)

/-- VT3P (R155): element n of the register is trit n mod 5 of byte n / 5. DESIGN CHOICE: only a byte that holds a decoded element counts
as reserved, and FMT comes before FPE (log 54). -/
def regByte (v n : Nat) : Nat := bitsOf v (8 * (n / 5)) 8
def execVt3p (dty : Ty) (idx : BitVec 5) (trapr : Bool) (m : BitVec 4) (d : BitVec 8) (a b : Src) (s : State) : Out :=
  laneExec (.vt3p dty idx trapr m d a b) s fun g fr k c gov =>
    let byte (l e : Nat) : Nat := regByte (srcW g c a l).toNat (idx.toNat + e)
    let bad (l : Nat) : Bool := (List.range dty.elems).any fun e => t3pReserved (byte l e)
    if trapr && (lanesOf gov).any bad then s.laneTrap g fr k c gov .fmt 0 0
    else
      let elem (l e : Nat) : Nat × Exc :=
        let t := trit (byte l e) ((idx.toNat + e) % 5)
        if dty = .i8x4 then ((t % 256).toNat, 0)
        else
          let sc := fp16.value false ((srcW g c b l).toNat % 65536)
          match (tritVal t).mul sc with
          | (v, inv) => match (Ty.fmt dty).round (rmOf c.fpctl) (ftzOf c.fpctl) false v with
            | (r, x) => (r, x ||| excIf (inv || sc.isSig) excNV)
      let r (l : Nat) : Nat × Exc := packExc dty (elem l)
      s.fpDone g fr k c gov (fun l => (r l).2) fun h =>
        let h1 := h.setN dty d.toNat gov fun l => (r l).1
        if (lanesOf gov).any bad then { h1 with fpctl := stickFmt h1.fpctl } else h1

end Sys2Proof.Machine
end

