-- ==== Sys2Proof/Machine/Tensor.lean ====
section
/-! DEFINITION. Tensor descriptors and their elements; TDSET and TDGET (R86-R90, R175-R181). -/

namespace Sys2Proof.Machine

/-! ## The descriptor (R175) -/

abbrev Tensor := BitVec 512

def tBase (d : Tensor) : Nat := bitsOf d.toNat 0 56
def tScale (d : Tensor) : Nat := bitsOf d.toNat 64 56
def tDim (d : Tensor) (n : Nat) : Nat := bitsOf d.toNat (128 + 32 * n) 32
def tStride (d : Tensor) (n : Nat) : Nat := bitsOf d.toNat (192 + 64 * n) 48
def tFormat (d : Tensor) : Nat := bitsOf d.toNat 448 4
def tStash (d : Tensor) : Bool := d.getLsbD 452
def tSwz (d : Tensor) : Nat := bitsOf d.toNat 453 2
def tTrapr (d : Tensor) : Bool := d.getLsbD 455

/-- The element type of a format; Q4N is 8 and T3P 9. -/
def fmtTy : Nat → Ty
  | 1 => .f32
  | 2 => .f16x2
  | 3 => .bf16x2
  | 4 => .e4m3x4
  | 5 => .e5m2x4
  | 6 => .i8x4
  | 7 => .i32
  | 8 => .q4n
  | _ => .t3p
/-- Bytes of an element, 1 for the packed formats. -/
def fmtSize (f : Nat) : Nat := if f = 1 ∨ f = 7 then 4 else if f = 2 ∨ f = 3 then 2 else 1

/-- The reserved bits of R175. -/
def tReserved (d : Tensor) : Bool :=
  bitsOf d.toNat 56 8 != 0 || bitsOf d.toNat 120 8 != 0 || bitsOf d.toNat 304 16 != 0 || bitsOf d.toNat 368 16 != 0 ||
    bitsOf d.toNat 432 16 != 0 || bitsOf d.toNat 456 56 != 0

/-- The image check of R178 (log 16). -/
def tOk (d : Tensor) : Bool :=
  let f := tFormat d
  !tReserved d && decide (f < 10) && decide (tSwz d < 2) && !(tSwz d != 0 && !tStash d) &&
    !(tStash d && (decide (524288 ≤ tBase d) || decide (524288 ≤ tScale d))) &&
    (tStash d || tBase d % fmtSize f == 0) &&
    (tStash d || !(f == 8 && tScale d % 4 != 0) && !(f == 9 && tScale d % 2 != 0)) &&
    (f == 8 || f == 9 || tScale d == 0) && !((f == 8 || f == 9) && tDim d 0 % 64 != 0) &&
    (f == 0 || (List.range 4).all fun n => tDim d n != 0)

/-- The entry of a context; one never written is zero. -/
def State.tensor (s : State) (cid n : Nat) : Tensor := assoc 0 n (s.ctx cid).tensors

/-! ## Elements (R176, R177, R86, R88) -/

/-- The byte of an element, none when it is out of range. -/
def tByte (d : Tensor) (d0 row : Nat) : Option Nat :=
  let i1 := row % tDim d 1
  let i2 := row / tDim d 1 % tDim d 2
  let i3 := row / (tDim d 1 * tDim d 2)
  if tDim d 0 ≤ d0 ∨ tDim d 3 ≤ i3 then none
  else
    let start := tBase d + i1 * tStride d 1 + i2 * tStride d 2 + i3 * tStride d 3
    let f := tFormat d
    some (if f = 8 then start + d0 / 2 else if f = 9 then start + 13 * (d0 / 64) + d0 % 64 / 5 else start + fmtSize f * d0)

/-- The block of an element, the number of blocks, and where the super-scales begin (R86). -/
def tBlock (d : Tensor) (d0 row : Nat) : Nat := row * (tDim d 0 / 64) + d0 / 64
def tBlocks (d : Tensor) : Nat := tDim d 1 * tDim d 2 * tDim d 3 * (tDim d 0 / 64)
def tSuper (d : Tensor) : Nat := tScale d + (tBlocks d + 127) / 128 * 128

/-- The pieces of an element: address, bytes, and whether the swizzle acts (R177; log 15). The matrix engine does not
read the scales of T3P (R90). -/
def tPieces (d : Tensor) (d0 row : Nat) (t3pScale : Bool) : Option (List (Nat × Nat × Bool)) :=
  match tByte d d0 row with
  | none => none
  | some b =>
    let f := tFormat d
    let data := (b, fmtSize f, true)
    let blk := tBlock d d0 row
    some (if f = 8 then [data, (tScale d + blk, 1, false), (tSuper d + 4 * (blk / 256), 4, false)]
      else if f = 9 && t3pScale then [data, (tScale d + 2 * blk, 2, false)] else [data])

def swizzle (d : Tensor) (o : Nat) : Nat := if tSwz d = 1 then o ^^^ (o / 128 % 8 * 16) else o

/-- Where the bytes of a piece begin. -/
def pieceAt (d : Tensor) (p : Nat × Nat × Bool) : Nat := if tStash d && p.2.2 then swizzle d p.1 else p.1

/-- The places of a piece. A global address beyond 56 bits raises PAGE; a stash offset is swizzled, then the whole piece is bounded
before a mapped line of it is filled (R177, R208). -/
def State.piecePlaces (s : State) (w : Who) (t : Team) (d : Tensor) (a : Acc) (p : Nat × Nat × Bool) : Except (XRes × Nat) (List Loc) :=
  if tStash d then
    let offs := (List.range p.2.1).map fun n => if p.2.2 then swizzle d (p.1 + n) else p.1 + n
    match offs.find? fun o => decide (t.window ≤ o) with
    | some _ => .error (.bad .stashbound false, pieceAt d p)
    | none => s.stashPlaces t a offs
  else if 2 ^ 56 ≤ p.1 then .error (.bad .page false, p.1)
  else s.places w p.1 p.2.1 a
def State.piecesPlaces (s : State) (w : Who) (t : Team) (d : Tensor) (a : Acc) : List (Nat × Nat × Bool) → Except (XRes × Nat) (List Loc)
  | [] => .ok []
  | p :: ps =>
    match s.piecePlaces w t d a p with
    | .error e => .error e
    | .ok ls =>
      match s.piecesPlaces w t d a ps with
      | .error e => .error e
      | .ok rest => .ok (ls ++ rest)

/-- The exact value of an element from the bytes of its pieces, and whether a signalling input was read (R87, R90). -/
def q4nElem (d0 : Nat) (bs : List Byte) : FVal :=
  q4nValue (bitsOf (bs.getD 0 0).toNat (4 * (d0 % 2)) 4) (bs.getD 1 0).toNat (leVal (bs.drop 2))
def t3pTrit (d0 : Nat) (bs : List Byte) : Int := trit (bs.getD 0 0).toNat (d0 % 64 % 5)
def t3pBad (bs : List Byte) : Bool := t3pReserved (bs.getD 0 0).toNat

/-- An element as VTLD delivers it in `dst` (R181): bits and exceptions; widening to FP32 is exact, so FTZ has no part in it (R82). -/
def tLoad (d : Tensor) (dst : Ty) (fpctl : Word) (d0 : Nat) (bs : List Byte) : Nat × Exc :=
  let rm := rmOf fpctl
  let ftz := ftzOf fpctl
  let put (v : FVal) : Nat × Exc := if dst.isInt then toInt rm true 32 v else fp32.round rm ftz false v
  let f := tFormat d
  if f = 8 then put (q4nElem d0 bs)
  else if f = 9 then
    let sc := fp16.value false (leVal (bs.drop 1))
    match (tritVal (t3pTrit d0 bs)).mul sc with
    | (v, inv) => match put v with | (r, x) => (r, x ||| excIf (inv || sc.isSig) excNV)
  else convert (fmtTy f) dst rm (ftz && dst.isInt) false (leVal bs)

/-- A lane value as VTST stores it (R181). -/
def tStore (d : Tensor) (src : Ty) (sat : Bool) (fpctl : Word) (v : Nat) : Nat × Exc :=
  convert src (fmtTy (tFormat d)) (rmOf fpctl) (ftzOf fpctl) sat v

/-! ## TDSET and TDGET (R178-R180) -/

def execTdset (t a o : BitVec 8) (s : State) : Out :=
  scalarMem (.tdset t a o) (pairRegs a) 64 a o .rd false s fun g fr k va ls =>
    s.readWords g fr k va 8 ls fun ws =>
      let v : Tensor := BitVec.ofNat 512 (dwordsVal ws)
      let out := { fr with wait := none }
      if !tOk v then (s.put g k out).trapAt (g.setFrag k out) out k .illegal 0 0
      else
        let c := s.ctx (s.who g).cid
        let v := if tFormat v = 0 then 0 else v
        .next ((s.setCtx { c with tensors := assocSet t.toNat v c.tensors }).put g k (s.fall fr))

def execTdget (t a o : BitVec 8) (s : State) : Out :=
  scalarMem (.tdget t a o) (pairRegs a) 64 a o .wr true s fun g fr k va ls =>
    match s.headerAt va ls with
    | some x => s.trapAt g fr k .prot 0 x
    | none =>
      let bs := leBytes 64 (s.tensor (s.who g).cid t.toNat).toNat
      let b (q : Nat) : BufStore := { seq := g.seq + q, uid := g.seq + q, bytes := ((ls.zip bs).drop (8 * q)).take 8,
                                      after := g.words + 1, pc := fr.pc, addr := va + BitVec.ofNat 64 (8 * q) }
      .next (s.put { g with seq := g.seq + 8, sbuf := g.sbuf ++ (List.range 8).map b } k (s.fall fr))

end Sys2Proof.Machine
end

