-- ==== Sys2Proof/Machine/LaneMem.lean ====
section
/-! DEFINITION. Long-latency lane instructions: lane memory, atomics, references, allocation, tensor elements, their
issue, their completion lane by lane, their faults (R121, R162-R174, R181, R222, R229, R326; log 23). -/

namespace Sys2Proof.Machine

/-! ## Addresses (R163) -/

def laneIndex (g : Group) (c : Clause) (m : LAddr) (l : Nat) : Int :=
  match m.index with
  | none => 0
  | some x => (if m.sidx then (srcW g c x l).toInt else ((srcW g c x l).toNat : Int)) * 2 ^ m.scale.toNat
def laneAddr (g : Group) (c : Clause) (stash : Bool) (m : LAddr) (l : Nat) : DWord :=
  let base : Int := if stash then (srcW g c m.base l).toNat else srcN g c .n64 m.base l
  BitVec.ofInt 64 (base + laneIndex g c m l + m.off.toInt)

/-! ## Shapes -/

/-- How an instruction reaches memory: the stash, the size, the kind of access, and whether it must be aligned. -/
structure LShape where
  stash : Bool
  size  : Nat
  acc   : Acc
  align : Bool
def llShape : Instr → LShape
  | .vld _ _ _ _ c => { stash := false, size := 2 ^ c.width.toNat, acc := .rd, align := false }
  | .vst _ _ _ _ c => { stash := false, size := 2 ^ c.width.toNat, acc := .wr, align := false }
  | .vlds _ _ _ _ c _ => { stash := true, size := 2 ^ c.width.toNat, acc := .rd, align := true }
  | .vsts _ _ _ _ c => { stash := true, size := 2 ^ c.width.toNat, acc := .wr, align := true }
  | .vatom ty _ _ stash _ _ _ _ _ => { stash, size := if ty.is64 then 8 else 4, acc := .at, align := true }
  | .vstref .. => { stash := false, size := 8, acc := .wr, align := true }
  | _ => { stash := false, size := 8, acc := .rd, align := true }

/-- Loads land later; stores go to the group's buffer; the others perform lane by lane. -/
inductive LKind where
  | load | store | act | alloc | tensorIn | tensorOut
  deriving DecidableEq
def llKind : Instr → LKind
  | .vst .. | .vsts .. => .store
  | .vatom .. | .vstref .. => .act
  | .vnew .. => .alloc
  | .vtld .. => .tensorIn
  | .vtst .. => .tensorOut
  | _ => .load

/-- What a lane finds when it is translated. -/
inductive LaneRes where
  | ok (ls : List Loc)
  | bad (c : Cause) (stage : Bool) (addr : Nat)
  | wait (e : Option Ev)
def LaneRes.of : Except (XRes × Nat) (List Loc) → LaneRes
  | .ok ls => .ok ls
  | .error (.bad c st, a) => .bad c st a
  | .error (.wait e, _) => .wait e
  | .error (_, _) => .wait none

/-- A stash access of a lane: the bound, the alignment, then the mapped lines (R165, R208). -/
def State.stashLane (s : State) (t : Team) (a : Acc) (off : DWord) (size : Nat) : LaneRes :=
  if t.window < off.toNat + size then .bad .stashbound false off.toNat
  else if off.toNat % size ≠ 0 then .bad .align false off.toNat
  else .of (s.stashPlaces t a ((List.range size).map fun n => off.toNat + n))

/-- The team whose window a stash form reads: its own, or with .peer the one of that rank in its cluster (R165). -/
def State.windowTeam (s : State) (g : Group) (i : Instr) (data : List Word) : Option Team :=
  match i with
  | .vlds _ _ _ _ _ (some _) =>
    match s.team g.team with
    | some t => s.teams.find? fun u => u.cluster == t.cluster && u.rank == (data.getD 0 0).toNat
    | none => none
  | _ => s.team g.team

/-- The pieces of a lane's tensor element, none when it is out of range: data holds d0 and row (R181). -/
def lanePieces (e : LogEntry) (data : List Word) : Option (List (Nat × Nat × Bool)) :=
  tPieces e.tn (data.getD 0 0).toNat (data.getD 1 0).toNat true

/-- The ranges that a lane accesses, in the stash or not. -/
def laneSpans (e : LogEntry) (addr : DWord) (data : List Word) : List (Bool × Nat × Nat) :=
  match llKind e.instr with
  | .alloc => []
  | .tensorIn | .tensorOut => ((lanePieces e data).getD []).map fun p => (tStash e.tn, pieceAt e.tn p, p.2.1)
  | _ => [((llShape e.instr).stash, addr.toNat, (llShape e.instr).size)]

/-- The global address of a lane's access: that of its mapped line, when it has one (R208). -/
def State.laneVa (s : State) (g : Group) (e : LogEntry) (x : LaneEntry) : Nat :=
  match x.spans with
  | (true, off, _) :: _ =>
    (match s.windowTeam g e.instr x.data with
     | some t => t.globalAt off
     | none => off)
  | (false, va, _) :: _ => va
  | [] => x.addr.toNat

/-- A lane as translation sees it: INTEGRITY and UNCORR come when its data is read at the home (R172). -/
def State.laneWho (s : State) (g : Group) : Who := { s.who g with late := true }

/-- The checks of a tensor element: in the stash the bound, then the alignment (R165, R177); in global memory PAGE first (R176), then
ALIGN, which is a DESIGN CHOICE there (log 47). -/
def State.elemReach (s : State) (g : Group) (t : Team) (e : LogEntry) (ps : List (Nat × Nat × Bool)) : LaneRes :=
  let beyond (p : Nat × Nat × Bool) : Bool := tStash e.tn && decide (t.window < pieceAt e.tn p + p.2.1)
  let askew (p : Nat × Nat × Bool) : Bool := p.1 % p.2.1 != 0 && (tStash e.tn || decide (p.1 < 2 ^ 56))
  match ps.find? beyond, ps.find? askew with
  | some p, _ => .bad .stashbound false (pieceAt e.tn p)
  | none, some p => .bad .align false (pieceAt e.tn p)
  | none, none => .of (s.piecesPlaces (s.laneWho g) t e.tn (if llKind e.instr == .tensorIn then .rd else .wr) ps)

/-- The checks of a lane in the order of R172 (R165 for the stash). -/
def State.laneReach (s : State) (g : Group) (e : LogEntry) (addr : DWord) (data : List Word) : LaneRes :=
  match s.team g.team with
  | none => .wait none
  | some t =>
    match llKind e.instr with
    | .alloc => .ok []
    | .tensorIn | .tensorOut => s.elemReach g t e ((lanePieces e data).getD [])
    | _ =>
      let h := llShape e.instr
      if h.stash then
        match s.windowTeam g e.instr data with
        | none => .bad .stashbound false addr.toNat
        | some u => s.stashLane u h.acc addr h.size
      else if addr.toNat / 2 ^ 56 ≠ 0 then .bad .page false addr.toNat
      else if h.align && addr.toNat % h.size != 0 then .bad .align false addr.toNat
      else .of (s.places (s.laneWho g) addr.toNat h.size h.acc)

/-- A write that would touch a header word raises PROT at the word, by its global address also in a mapped stash line (R208, R218). -/
def State.laneHeader (s : State) (e : LogEntry) (va : Nat) (ls : List Loc) : Option Nat :=
  if (match llKind e.instr with | .store | .act | .tensorOut => true | _ => false) then (s.headerAt (BitVec.ofNat 64 va) ls).map BitVec.toNat else none

/-! ## Copies in flight (R174, R206) -/

/-- A copy in flight of a group of the same core holds a lane back. -/
def State.laneHeld (s : State) (g : Group) (e : LogEntry) (x : LaneEntry) : Bool :=
  let w := s.who g
  let wr := match llKind e.instr with | .load | .tensorIn => false | _ => true
  x.spans.any fun sp =>
    if sp.1 then (match s.windowTeam g e.instr x.data with | some u => u.core == g.core && s.copyBlocksStash u.tid sp.2.1 sp.2.2 wr | none => false)
    else s.copyBlocks w sp.2.1 sp.2.2 wr
def State.laneBlocked (s : State) (g : Group) (e : LogEntry) : Bool := e.lanes.any (s.laneHeld g e)

/-! ## Translating the lanes of an entry -/

/-- The condition of R167 over the lanes of an entry. -/
def indivisible (e : LogEntry) (xs : List LaneEntry) : Bool :=
  (match e.instr with | .vld .. | .vst .. => true | _ => false) &&
  (llShape e.instr).size == 4 && e.gov == 0xFFFFFFFF && xs.length == 32 &&
    (xs.all fun x => x.addr.toNat % 4 == 0) &&
    (match xs with
     | x :: _ => xs.all fun y => match x.locs, y.locs with
       | .glob a p :: _, .glob b q :: _ => lineOf a p == lineOf b q && !isHostGpa p
       | _, _ => false
     | [] => false)

/-- Bytes to write, each place once: of several the last counts (R168). -/
def lastWins (bs : List (Loc × Byte)) : List (Loc × Byte) :=
  bs.foldr (fun p acc => if acc.any fun q => q.1 == p.1 then acc else p :: acc) []

/-- A higher lane of the entry has written a place (R168). -/
def LogEntry.passedBy (e : LogEntry) (x : LaneEntry) (l : Loc) : Bool :=
  e.lanes.any fun y => y.stat == .done && decide (x.lane < y.lane) && y.locs.contains l

/-- The bytes that a store's lane writes: not those that a higher lane has written before (R168, R173). -/
def laneBytes (e : LogEntry) (x : LaneEntry) : List (Loc × Byte) :=
  let v : Nat := match llKind e.instr with
    | .tensorOut => (x.data.getD 2 0).toNat
    | _ => (pairOf (x.data.getD 0 0) (x.data.getD 1 0)).toNat
  x.locs.zip (leBytes x.locs.length v)
def LogEntry.keeps (e : LogEntry) (x : LaneEntry) (bs : List (Loc × Byte)) : List (Loc × Byte) := bs.filter fun p => !e.passedBy x p.1

/-- Buffer the stores of lanes that have just passed: one event when R167 holds, else one for each lane and line. -/
def State.bufferLanes (s : State) (g : Group) (e : LogEntry) (xs : List LaneEntry) : Group :=
  let rel := match laneCtl e.instr with
    | some c => if releases c.order then some (c.scope.zeroExtend 5) else none
    | none => none
  let mk (n va : Nat) (lanes : Mask) (bs : List (Loc × Byte)) : List BufStore :=
    if bs.isEmpty then []
    else [{ seq := e.seq + n, uid := e.uid, bytes := bs, rel, pc := e.lrunPc, addr := BitVec.ofNat 64 va, inOrder := e.inOrder, after := g.words
            lanes, gov := e.gov, clidx := e.idx, stash := stashForm e.instr }]
  let new := match xs with
    | x :: _ =>
      if indivisible e xs then mk 1 (s.laneVa g e x) e.gov (lastWins (xs.flatMap (laneBytes e)))
      else xs.flatMap fun (y : LaneEntry) =>
        let va := s.laneVa g e y
        let n := if llKind e.instr == .tensorOut then 128 else 128 - va % 128
        let one := 1#32 <<< y.lane
        mk (1 + 2 * y.lane) va one (e.keeps y ((laneBytes e y).take n)) ++ mk (2 + 2 * y.lane) (va + n) one (e.keeps y ((laneBytes e y).drop n))
    | [] => []
  { g with sbuf := g.sbuf ++ new }

/-- A lane that is translated: what its other checks say (R172, R218, R229). -/
def State.laneCheck (s : State) (g : Group) (e : LogEntry) (x : LaneEntry) (ls : List Loc) : LaneRes × DWord :=
  match s.laneHeader e (s.laneVa g e x) ls with
  | some a => (.bad .prot false a, 0)
  | none =>
    match e.instr with
    | .vstref .. =>
      (match s.refCheck (s.who g) x.addr.toNat (pairOf (x.data.getD 0 0) (x.data.getD 1 0)).toNat ls with
       | .ok | .publish _ => (.ok ls, 0)
       | .bad c st de a => (.bad c st a, BitVec.ofNat 64 de)
       | .wait ev => (.wait ev, 0))
    | _ => (.ok ls, 0)

/-- One lane that waits for its translation is tried (R172); a copy in flight holds it back (R174). -/
def State.tryLane (s : State) (g : Group) (e : LogEntry) (x : LaneEntry) : State × LaneEntry :=
  if x.stat != .service || s.laneHeld g e x then (s, x)
  else
    match (match s.laneReach g e x.addr x.data with | .ok ls => s.laneCheck g e x ls | r => (r, 0)) with
    | (.ok ls, _) => (s, { x with locs := ls, stat := .ready })
    | (.bad c st a, de) => (s, { x with stat := .bad c st de (BitVec.ofNat 64 a) })
    | (.wait (some ev), _) => (s.post ev, x)
    | (.wait none, _) => (s, x)
def State.tryLanes (s : State) (g : Group) (e : LogEntry) : List LaneEntry → State × List LaneEntry
  | [] => (s, [])
  | x :: xs =>
    match s.tryLane g e x with
    | (s1, y) => match s1.tryLanes g e xs with | (s2, ys) => (s2, y :: ys)

/-- Translate the lanes that wait for it. A load's lane becomes ready, a store's is buffered and done. -/
def State.attempt (s : State) (g : Group) (e : LogEntry) : State × Group × LogEntry :=
  match s.tryLanes g e e.lanes with
  | (s1, xs) =>
    match llKind e.instr with
    | .store | .tensorOut =>
      (s1, s1.bufferLanes g e (xs.filter fun x => x.stat == .ready),
       { e with lanes := xs.map fun (x : LaneEntry) => if x.stat == .ready then { x with stat := .done } else x })
    | _ => (s1, g, { e with lanes := xs })

/-! ## Completion, and raising a cause (R121, R173) -/

def LaneEntry.isBad (x : LaneEntry) : Bool := match x.stat with | .bad _ _ _ _ => true | _ => false
def LogEntry.lanesThat (e : LogEntry) (p : LaneEntry → Bool) : Mask := maskOf fun l => e.lanes.any fun x => x.lane == l && p x

/-- VLDREF's mask is zero outside the governing mask (R143, R229); the sticky bits of a tensor instruction are set as it completes
(R51). -/
def stickies : Word := 0x003F0000
def Group.finishMask (g : Group) (e : LogEntry) : Group :=
  match e.instr with
  | .vldref t _ _ _ _ => if e.gov == 0 then g else g.setMask { mask := e.frag, exec := 0, pc := 0 } t.toNat (g.masks.getD (t.toNat - 1) 0 &&& e.gov)
  | .vtld .. | .vtst .. => { g with fpctl := g.fpctl ||| (e.fpctl &&& stickies) }
  | _ => g

/-- VSTREF completes, for its flag, once its lanes are translated; the entry stays until its references are stored (R121). -/
def LogEntry.translated (e : LogEntry) : Bool := e.lanes.all fun x => x.stat == .ready || x.stat == .done
def Group.early (g : Group) (e : LogEntry) : Group × LogEntry :=
  match e.instr with
  | .vstref .. => if e.translated then (g.llDone e.uid e.flag, { e with flag := none }) else (g, e)
  | _ => (g, e)

/-- What the faulting lanes of an entry record (R81, R173, R348): the cause of the lowest; for FPE its lanes are those with enabled
exceptions, and DETAIL is the union of these. -/
def LogEntry.record (e : LogEntry) (slot : Nat) : Option TrapRec :=
  match e.lanes.find? LaneEntry.isBad with
  | some x =>
    match x.stat with
    | .bad c st de a =>
      let excs := e.lanes.filterMap fun y => match y.stat with | .bad .fpe _ d _ => some d | _ => none
      let raised (y : LaneEntry) : Bool := match y.stat with | .bad .fpe _ d _ => d != 0 | _ => false
      some { cause := c, stage := st, addr := a, lanei := true, clidx := e.idx, gov := e.gov, pc := e.lrunPc, culprit := .lane slot e.seq
             detail := if c == .fpe then excs.foldl (fun (u d : DWord) => u ||| d) 0 else de
             lanes := if c == .fpe then e.lanesThat raised else e.lanesThat LaneEntry.isBad
             done := e.lanesThat fun y => !y.isBad }
    | _ => none
  | none => none

/-- Put an entry back, or complete it; when every other lane has completed, the cause of the lowest faulting lane is
raised. A fence window holds the cause (R251); what is left of a team stopped for good raises none (R31). -/
def State.settle (s : State) (g : Group) (e0 : LogEntry) : State :=
  let e1 := if s.silent g then { e0 with lanes := e0.lanes.map fun (x : LaneEntry) => if x.isBad then { x with stat := .done } else x } else e0
  let was := (s.group g.core g.slot).getD g
  match g.early e1 with
  | (h, e) =>
    let others := h.olog.filter fun x => x.seq != e.seq
    if e.lanes.all fun x => x.stat == .done then s.progress was (({ h with olog := others }.finishMask e).llDone e.uid e.flag) e.uid
    else
      let raiseNow := !e.retry && (e.lanes.any LaneEntry.isBad) && (e.lanes.all fun x => x.stat == .done || x.isBad) && !h.windowed e.uid
      let e2 := { e with retry := e.retry || raiseNow }
      let at_ := h.olog.takeWhile fun x => decide (x.seq < e.seq)
      let h1 := { h with olog := at_ ++ [e2] ++ others.drop at_.length }
      let s1 := s.progress was h1 e.uid
      match (if raiseNow then e.record g.slot else none) with
      | some r => s1.raise h1 r
      | none => if s.silent g && e0.lanes.any LaneEntry.isBad then s1.atsSpent g.core (s.who g).cid else s1

/-! ## Issue (R326) -/

/-- The operand log of a core has 512 entries; an entry is free once each of its lanes has passed translation and protection. -/
def LogEntry.logged (e : LogEntry) : Bool := e.lanes.any fun x => x.stat == .service || x.isBad
def State.logFull (s : State) (core : Nat) : Bool :=
  decide (512 ≤ (s.groups.filter fun g => g.core == core && !g.saved).foldl (fun n g => n + (g.olog.filter LogEntry.logged).length) 0)

/-- A clause that an open fence marks: its lane accesses come before those of the window (R249, R250). -/
def Group.marked (g : Group) (uid : Nat) : Bool := g.windowOf.isSome && !g.windowed uid
/-- The log entry of an instruction that issues: each lane's addresses and data. The sticky bits of its %fpctl gather its own
exceptions. -/
def State.newEntry (s : State) (i : Instr) (g : Group) (fr : Fragment) (c : Clause) (gov : Mask) (tn : Tensor) (ops : Nat → DWord × List Word) : LogEntry :=
  let e : LogEntry :=
    { seq := if g.marked c.uid then g.low else llBlock g.seq, inOrder := g.windowed c.uid && performsLate i, uid := c.uid, flag := (match laneCtl i with | some ctl => c.flagOf ctl.fb | none => none), frag := fr.mask, instr := i,
      lrunPc := c.lrunPc, idx := c.idx, gov, fpctl := c.fpctl &&& ~~~stickies, tn, issued := s.cycle, lanes := [] }
  { e with lanes := (lanesOf gov).map fun l =>
      { lane := l, addr := (ops l).1, data := (ops l).2, spans := laneSpans e (ops l).1 (ops l).2, locs := [], stat := .service } }
/-- An instruction waits before it issues: an acquire before it, the log, the requests of the core, a copy in flight (R3, R114, R174,
R326). -/
def State.llWaits (s : State) (g : Group) (e : LogEntry) : Bool :=
  g.heldByAcquire e.uid || s.logFull g.core || s.requestsFull g.core (e.lanes.length * if (llShape e.instr).acc.writes then 2 else 1) || s.laneBlocked g e
/-- The group with the sequence numbers of an entry taken. -/
def Group.taken (g : Group) (e : LogEntry) : Group := if g.marked e.uid then { g with low := e.seq + 128 } else { g with seq := e.seq + 128 }

/-- A long-latency instruction issues: its lanes' addresses and data are read, its registers are free at once, its
clause goes on. In a fence window an instruction with a faulting lane waits for the fence (R251). -/
def llIssue (i : Instr) (s : State) (tn : Group → Tensor) (ops : Group → Clause → Nat → DWord × List Word)
    (check : Group → Clause → Mask → Option Cause) : Out :=
  laneExec i s fun g fr k c gov =>
    match check g c gov with
    | some cause => s.laneTrap g fr k c gov cause 0 0
    | none =>
      let e := s.newEntry i g fr c gov (tn g) (ops g c)
      if s.llWaits g e then .next s
      else
        match s.attempt g e with
        | (s1, g1, e1) =>
          if g.windowed c.uid && e1.lanes.any LaneEntry.isBad then .next (s.put g k fr.hold)
          else .next (s1.settle ((g1.taken e).stepClause k fr) e1)

def noCheck (_ : Group) (_ : Clause) (_ : Mask) : Option Cause := none
/-- VNEW and VSTREF have no place in the handler slot (R352): ILLEGAL there also with a governing mask of zero, a DESIGN CHOICE between
R352 and R43 (log 57). -/
def groupOnly (g : Group) (_ : Clause) (_ : Mask) : Option Cause := if g.slot == 128 then some .illegal else none
def noTensor (_ : Group) : Tensor := 0
def regData (g : Group) (d : BitVec 8) (l : Nat) (is64 : Bool) : List Word :=
  g.v d.toNat l :: (if is64 then [g.v (d.toNat + 1) l] else [])

def execVld (ty : Ty) (m : BitVec 4) (d : BitVec 8) (addr : LAddr) (ctl : LCtl) (s : State) : Out :=
  llIssue (.vld ty m d addr ctl) s noTensor (fun g c l => (laneAddr g c false addr l, [])) noCheck
def execVst (ty : Ty) (m : BitVec 4) (d : BitVec 8) (addr : LAddr) (ctl : LCtl) (s : State) : Out :=
  llIssue (.vst ty m d addr ctl) s noTensor (fun g c l => (laneAddr g c false addr l, regData g d l ty.is64)) noCheck
def execVlds (ty : Ty) (m : BitVec 4) (d : BitVec 8) (addr : LAddr) (ctl : LCtl) (peer : Option Src) (s : State) : Out :=
  llIssue (.vlds ty m d addr ctl peer) s noTensor
    (fun g c l => (laneAddr g c true addr l, match peer with | some x => [srcW g c x l] | none => [])) noCheck
def execVsts (ty : Ty) (m : BitVec 4) (d : BitVec 8) (addr : LAddr) (ctl : LCtl) (s : State) : Out :=
  llIssue (.vsts ty m d addr ctl) s noTensor (fun g c l => (laneAddr g c true addr l, regData g d l ty.is64)) noCheck

/-- The operand of an atomic in a lane: two words a value, and for .cas the new value after the compared one (R170). -/
def atomData (g : Group) (c : Clause) (ty : Ty) (op : AtomOp) (a : Src) (l : Nat) : List Word :=
  let n := if ty.is64 then 2 else 1
  let word (k : Nat) : Word := match a with
    | .v r => g.v (r.toNat + k) l
    | .s r => getW c.scal (r.toNat + k)
    | x => srcW g c x l
  let value (k : Nat) : List Word := [word (n * k), if ty.is64 then word (n * k + 1) else 0]
  value 0 ++ (if op == .cas then value 1 else [0, 0])
def execVatom (ty : Ty) (op : AtomOp) (nr stash : Bool) (m : BitVec 4) (d : BitVec 8) (addr : LAddr) (a : Src) (ctl : LCtl) (s : State) : Out :=
  llIssue (.vatom ty op nr stash m d addr a ctl) s noTensor (fun g c l => (laneAddr g c stash addr l, atomData g c ty op a l)) noCheck

def execVnew (long fb : Bool) (m : BitVec 4) (d : BitVec 8) (a : Src) (s : State) : Out :=
  llIssue (.vnew long fb m d a) s noTensor (fun g c l => (0, [srcW g c a l])) fun g c gov =>
    match s.team g.team with
    | none => some .illegal
    | some t =>
      if g.slot == 128 || (lanesOf gov).any fun l => !s.sizeOk t (srcW g c a l).toNat long then some .illegal else none

def execVstref (m : BitVec 4) (d : BitVec 8) (addr : LAddr) (ctl : LCtl) (s : State) : Out :=
  llIssue (.vstref m d addr ctl) s noTensor (fun g c l => (laneAddr g c false addr l, regData g d l true)) groupOnly
def execVldref (t : BitVec 4) (m : BitVec 4) (d : BitVec 8) (addr : LAddr) (ctl : LCtl) (s : State) : Out :=
  llIssue (.vldref t m d addr ctl) s noTensor (fun g c l => (laneAddr g c false addr l, [])) noCheck

/-- VPRF (R171): a hint. It completes when it issues; a line that translates is asked for at the core's L1, untracked when it is the
team's own private line (R219, R341). -/
def execVprf (l2 : Bool) (m : BitVec 4) (addr : LAddr) (ctl : LCtl) (s : State) : Out :=
  laneExec (.vprf l2 m addr ctl) s fun g fr k c gov =>
    let w := s.who g
    let s1 := (lanesOf gov).foldl (fun (u : State) (l : Nat) =>
        let va := (laneAddr g c false addr l).toNat
        match s.xlate w va .rd with
        | .ok (.glob aid gpa) => if l2 then u.post (.hbmFill (lineOf aid gpa) false) else u.want w va (some (.glob aid gpa))
        | _ => u) s
    .next (s1.laneNext (g.llDone c.uid (c.flagOf ctl.fb)) fr k)

/-! ## Tensor elements (R181) -/

/-- The checks of VTLD and VTST from the entry they read; a governing mask of zero raises none of them (R43, R72). -/
def tensorCheck (d : Tensor) (store : Bool) (ctl : LCtl) (gov : Mask) : Bool :=
  gov != 0 && (tFormat d == 0 || (store && (tFormat d == 8 || tFormat d == 9)) || (tStash d && decide (3 ≤ ctl.scope.toNat)))

/-- A lane's result waits to be written: n bytes of a value. -/
def LaneEntry.image (x : LaneEntry) (n v : Nat) : LaneEntry := { x with locs := [], got := (List.range n).zip (leBytes n v) }

/-- The element of a lane from the bytes at its places, and whether it holds a reserved byte. -/
def State.elemVal (s : State) (g : Group) (e : LogEntry) (ty : Ty) (x : LaneEntry) : Nat × Exc :=
  if (lanePieces e x.data).isNone then (0, 0) else tLoad e.tn ty e.fpctl (x.data.getD 0 0).toNat (s.readOwn g e.seq x.locs)
def State.elemBad (s : State) (g : Group) (e : LogEntry) (x : LaneEntry) : Bool :=
  tFormat e.tn == 9 && (lanePieces e x.data).isSome && t3pBad (s.readOwn g e.seq x.locs)
/-- Lanes whose line is faulty say so when their data is read (R172). -/
def State.lateLane (s : State) (g : Group) (e : LogEntry) (x : LaneEntry) : LaneEntry :=
  match (if x.stat == .ready then s.lateFault x.locs (llShape e.instr).acc.writes else none) with
  | some (c, st) => { x with stat := .bad c st 0 (BitVec.ofNat 64 (s.laneVa g e x)) }
  | none => x

/-- The lanes of VTLD that are ready with places are read and converted; out-of-range ones give 0. Each result waits to be written, and
its exceptions gather in the entry. -/
def State.convertLanes (s : State) (g : Group) (e : LogEntry) (ty : Ty) : LogEntry :=
  let now (x : LaneEntry) : Bool := x.stat == .ready && x.got.isEmpty
  let fmt := e.lanes.any fun x => now x && s.elemBad g e x
  let exc : Exc := (e.lanes.filter now).foldl (fun u x => u ||| (s.elemVal g e ty x).2) 0
  { e with fpctl := stick (if fmt then stickFmt e.fpctl else e.fpctl) exc
           lanes := e.lanes.map fun (x : LaneEntry) => if now x then x.image 4 (s.elemVal g e ty x).1 else x }

/-- A lane asks for the lines it reads (R331). -/
def State.wantLane (s0 : State) (g : Group) (e : LogEntry) (u : State) (x : LaneEntry) : State :=
  u.wantAll (s0.who g) (x.locs.zipIdx.map fun p => (s0.laneVa g e x + p.2, p.1))

/-- The operands of VTLD and VTST: d0 and row, and the address of the element. -/
def elemOps (t : Tensor) (a b : Word) (data : List Word) : DWord × List Word :=
  (BitVec.ofNat 64 (match tPieces t a.toNat b.toNat true with | some (p :: _) => pieceAt t p | _ => 0), a :: b :: data)

/-- VTLD reads its elements and converts them as it issues, since FPE and FMT are decided for the whole instruction (FMT before FPE is a
DESIGN CHOICE; log 54);
lanes that fault do nothing. The results land later. -/
def execVtld (ty : Ty) (tn : BitVec 8) (m : BitVec 4) (d : BitVec 8) (a b : Src) (ctl : LCtl) (s : State) : Out :=
  let i : Instr := .vtld ty tn m d a b ctl
  laneExec i s fun g fr k c gov =>
    let t := s.tensor (s.who g).cid tn.toNat
    if tensorCheck t false ctl gov then s.laneTrap g fr k c gov .illegal 0 0
    else
      let e := s.newEntry i g fr c gov t fun l => elemOps t (srcW g c a l) (srcW g c b l) []
      if s.llWaits g e then .next s
      else
        match s.attempt g e with
        | (s1, _, e0) =>
          let e1 := { e0 with lanes := e0.lanes.map (s1.lateLane g e0) }
          let ready := e1.lanes.filter fun x => x.stat == .ready
          if e1.lanes.any (fun x => x.stat == .service) then .next s1
          else if ready.any fun x => g.readsBefore e.seq x.locs then .next s
          else if ready.any fun x => !(x.locs.all (s1.inCache (s.who g))) then .next (ready.foldl (s1.wantLane g e) s1)
          else
            let s2 := if acquires ctl.order then s1.acquireAt (s.who g).aid (ctl.scope.zeroExtend 5) else s1
            let exc : Exc := ready.foldl (fun u x => u ||| (s2.elemVal g e ty x).2) 0
            let en := enables c.fpctl
            if tTrapr t && ready.any (s2.elemBad g e) then s.laneTrap g fr k c gov .fmt 0 0
            else if exc &&& en != 0 then
              s.laneTrap g fr k c gov .fpe ((exc &&& en).zeroExtend 64) (maskOf fun l => ready.any fun x => x.lane == l && (s2.elemVal g e ty x).2 &&& en != 0)
            else .next (s2.settle ((g.taken e).stepClause k fr) (s2.convertLanes g e1 ty))

/-- VTST converts its values as it issues. -/
def execVtst (ty : Ty) (sat : Bool) (tn : BitVec 8) (m : BitVec 4) (d : BitVec 8) (a b : Src) (ctl : LCtl) (s : State) : Out :=
  let i : Instr := .vtst ty sat tn m d a b ctl
  laneExec i s fun g fr k c gov =>
    let t := s.tensor (s.who g).cid tn.toNat
    if tensorCheck t true ctl gov then s.laneTrap g fr k c gov .illegal 0 0
    else
      let val (l : Nat) : Nat × Exc :=
        if (tByte t (srcW g c a l).toNat (srcW g c b l).toNat).isNone then (0, 0) else tStore t ty sat c.fpctl (g.v d.toNat l).toNat
      let u := excUnion gov fun l => (val l).2
      let en := enables c.fpctl
      let e := s.newEntry i g fr c gov t fun l => elemOps t (srcW g c a l) (srcW g c b l) [BitVec.ofNat 32 (val l).1]
      if s.llWaits g e then .next s
      else if u &&& en != 0 then
        s.laneTrap g fr k c gov .fpe ((u &&& en).zeroExtend 64) (excLanes gov en fun l => (val l).2)
      else
        match s.attempt g { e with fpctl := stick e.fpctl u } with
        | (s1, g1, e1) => .next (s1.settle ((g1.taken e).stepClause k fr) e1)

/-! ## LANE_LL_COMPLETE: reading, writing registers, performing -/

/-- A lane reads, lands its result in registers, or performs: what it is at. -/
def LaneEntry.toRead (x : LaneEntry) : Bool := x.stat == .ready && !x.locs.isEmpty
def LaneEntry.toWrite (x : LaneEntry) : Bool := x.stat == .ready && x.locs.isEmpty && !x.got.isEmpty

/-- The registers that a lane's result has still to be written to: 0 and 1 of its destination, 2 for VLDREF's mask. -/
def LaneEntry.parts (x : LaneEntry) : List Nat := (List.range 3).filter fun r => x.got.any fun p => p.1 / 4 == r
def LaneEntry.partWord (x : LaneEntry) (r : Nat) : Word :=
  BitVec.ofNat 32 (leVal ((List.range 4).map fun n => assoc 0 (4 * r + n) x.got))
/-- A part is written (R120, R164, R170, R222, R228, R229). -/
def Group.landPart (g : Group) (e : LogEntry) (x : LaneEntry) (r : Nat) : Group :=
  let one := 1#32 <<< x.lane
  match e.instr, r with
  | .vldref t _ _ _ _, 2 =>
    let cur := g.masks.getD (t.toNat - 1) 0
    g.setMask { mask := e.frag, exec := 0, pc := 0 } t.toNat (if x.partWord 2 != 0 then cur ||| one else cur &&& ~~~one)
  | _, _ => match (laneDsts e.instr)[r]? with | some d => g.setV d one fun _ => x.partWord r | none => g
def LaneEntry.written (x : LaneEntry) (r : Nat) : LaneEntry :=
  let got := x.got.filter fun p => p.1 / 4 != r
  { x with got, stat := if got.isEmpty then .done else x.stat }

/-- A free non-empty choice among the parts to be written (R120, log 23). -/
def State.someOf {α : Type} (s : State) (bit : α → Nat) (l : List α) : List α :=
  match l.filter fun x => (Config.choice 1 s.free).testBit (bit x) with
  | [] => l.take 1
  | ys => ys
def State.writeParts (s : State) (g : Group) (e : LogEntry) : State :=
  let all := (e.lanes.filter LaneEntry.toWrite).flatMap fun x => x.parts.map fun r => (x, r)
  let now := s.someOf (fun p => 3 * p.1.lane + p.2) all
  let g1 := now.foldl (fun (h : Group) (p : LaneEntry × Nat) => h.landPart e p.1 p.2) g
  let after (x : LaneEntry) : LaneEntry := now.foldl (fun (y : LaneEntry) (p : LaneEntry × Nat) => if p.1.lane == y.lane then y.written p.2 else y) x
  s.settle g1 { e with lanes := e.lanes.map after }

/-- A value of a load, extended (R164). -/
def extendTo (ty : Ty) (size v : Nat) : Nat :=
  if ty.signed && decide (2 ^ (8 * size - 1) ≤ v) then v + 2 ^ 64 - 2 ^ (8 * size) else v
/-- A lane that has all its bytes: its result waits to be written, VLDREF's tag with it. -/
def State.gotAll (s : State) (g : Group) (e : LogEntry) (x : LaneEntry) : LaneEntry :=
  let v := leVal ((List.range x.locs.length).map fun p => assoc 0 p x.got)
  match e.instr with
  | .vld ty _ _ _ _ | .vlds ty _ _ _ _ _ => x.image (if ty.is64 then 8 else 4) (extendTo ty x.locs.length v)
  | .vldref .. =>
    let y := x.image 8 v
    { y with got := y.got ++ [(8, if s.tagOwn g e.seq x.locs then 1 else 0)] }
  | _ => x
/-- The bytes of a lane that one access takes: those of one line, when a misaligned access crosses a line, else all (R166). -/
def State.takes (s : State) (e : LogEntry) (x : LaneEntry) (p : Nat) : Bool :=
  let cut := 128 - x.addr.toNat % 128
  let c := Config.choice 1 s.free
  (llShape e.instr).stash || decide (x.locs.length ≤ cut) || c.testBit (32 + x.lane) || (if c.testBit (64 + x.lane) then decide (p < cut) else decide (cut ≤ p))
def State.nowTakes (s : State) (e : LogEntry) (x : LaneEntry) : List (Nat × Loc) :=
  ((List.range x.locs.length).zip x.locs).filter fun p => !(x.got.any fun q => q.1 == p.1) && s.takes e x p.1
/-- A lane of a load reads: the lane after it, and the bytes it took from places. -/
def State.readLane (s : State) (g : Group) (e : LogEntry) (x : LaneEntry) : LaneEntry × List (Loc × Byte) :=
  let ps := s.nowTakes e x
  let ls := ps.map fun p => p.2
  match s.lateFault ls false with
  | some (c, st) => ({ x with stat := .bad c st 0 (BitVec.ofNat 64 (s.laneVa g e x)) }, [])
  | none =>
    let bs := s.readOwn g e.seq ls
    let y := { x with got := x.got ++ (ps.map fun p => p.1).zip bs }
    (if y.got.length = x.locs.length then s.gotAll g e y else y, ls.zip bs)

/-- A lane of a load may read: older accesses of the group to the same bytes have ended (R169). -/
def Group.mayLand (g : Group) (e : LogEntry) (x : LaneEntry) : Bool := x.toRead && !g.readsBefore e.seq x.locs

/-- The lanes that read now: all when R167 holds, once all may; else a free non-empty choice (R120, R167, log 23). -/
def State.chosen (s : State) (g : Group) (e : LogEntry) : List LaneEntry :=
  let free := e.lanes.filter (g.mayLand e)
  if indivisible e e.lanes then (if free.length = 32 then free else [])
  else s.someOf (fun x => x.lane) free

/-- Lanes of a load read, those whose lines are in the core's L1; the others ask for them (R331). -/
def State.readLanes (s : State) (g : Group) (e : LogEntry) (all : List LaneEntry) : State :=
  let w := s.who g
  let s0 := all.foldl (fun (u : State) (x : LaneEntry) => u.wantAll w ((s.nowTakes e x).map fun p => (s.laneVa g e x + p.1, p.2))) s
  let now := all.filter fun x => (s.nowTakes e x).all fun p => s0.inCache w p.2
  if now.isEmpty then s0
  else
  let s1 := match laneCtl e.instr with
    | some c => if acquires c.order then s0.acquireAt w.aid (c.scope.zeroExtend 5) else s0
    | none => s0
  let g1 := now.foldl (fun (h : Group) (x : LaneEntry) => h.recordReads e.uid e.seq (s1.readLane g e x).2) g
  s1.settle g1 { e with lanes := e.lanes.map fun (x : LaneEntry) => if now.any (fun y => y.lane == x.lane) then (s1.readLane g e x).1 else x }

/-- The faulting lanes of VTLD that were replayed are read and converted together (R51, R81): with an enabled exception, or a reserved
byte that traps, none of them goes on. -/
def State.readElems1 (s : State) (g : Group) (e : LogEntry) (ty : Ty) : State :=
  let e1 := { e with lanes := e.lanes.map fun (x : LaneEntry) => if x.toRead then s.lateLane g e x else x }
  let now := e1.lanes.filter LaneEntry.toRead
  let en := enables e.fpctl
  let exc (x : LaneEntry) : Exc := (s.elemVal g e ty x).2 &&& en
  if tTrapr e.tn && now.any (s.elemBad g e) then
    s.settle g { e1 with lanes := e1.lanes.map fun (x : LaneEntry) => if x.toRead then { x with stat := .bad .fmt false 0 0 } else x }
  else if now.any fun x => exc x != 0 then
    s.settle g { e1 with lanes := e1.lanes.map fun (x : LaneEntry) => if x.toRead then { x with stat := .bad .fpe false ((exc x).zeroExtend 64) 0 } else x }
  else s.settle g (s.convertLanes g e1 ty)

/-! ## Lanes that perform: atomics, reference stores, allocations -/

/-- What a lane that performs answers: the state and the lane after it, a cause, or a wait. -/
inductive Act where
  | did (s : State) (x : LaneEntry)
  | bad (c : Cause) (stage : Bool) (detail addr : DWord)
  | wait (s : State)

/-- The new word of a VATOM in a lane (R170). -/
def faddBits (a b : DWord) : DWord := BitVec.ofNat 64 (fp32.addOp 0 false (fp32.value false a.toNat) (fp32.value false b.toNat)).1
def atomWord (op : AtomOp) (ty : Ty) (x y old : DWord) : Option DWord := atomNew op ty.signed old x y (if ty.is64 then 64 else 32) faddBits
def LaneEntry.opA (x : LaneEntry) : DWord := pairOf (x.data.getD 0 0) (x.data.getD 1 0)
def LaneEntry.opB (x : LaneEntry) : DWord := pairOf (x.data.getD 2 0) (x.data.getD 3 0)
/-- An atomic lane has performed: the old value waits to be written, unless none is wanted. -/
def LaneEntry.atomDone (x : LaneEntry) (nr : Bool) (ty : Ty) (old : DWord) : LaneEntry :=
  if nr then { x with locs := [], stat := .done } else x.image (if ty.is64 then 8 else 4) old.toNat

/-- A lane of VATOM performs in the L1, or asks the slice (R117, R170, R339). -/
def State.actAtom (s : State) (g : Group) (e : LogEntry) (x : LaneEntry) (ty : Ty) (op : AtomOp) (nr : Bool) (ctl : LCtl) : Act :=
  let w := s.who g
  let va := s.laneVa g e x
  let sc : BitVec 5 := ctl.scope.zeroExtend 5
  match s.writeFault (BitVec.ofNat 64 va) x.locs with
  | some (c, st, a) => .bad c st 0 a
  | none =>
    if s.inL1 w va sc x.locs then
      match s.own w va x.locs.head? with
      | .error ev => .wait (s.post ev)
      | .ok s0 =>
        match s0.atomStep w.aid sc (acquires ctl.order) (releases ctl.order) x.locs (atomWord op ty x.opA x.opB) with
        | (s1, old) => .did s1 (x.atomDone nr ty old)
    else .wait (match atomEv g.core x.locs op ty x.opA x.opB sc with | some ev => s.post ev | none => s)

/-- A lane of VSTREF stores (R226, R229). Of lanes that write the same word the highest counts (R168). -/
def State.actRef (s : State) (g : Group) (e : LogEntry) (x : LaneEntry) (ctl : LCtl) : Act :=
  let w := s.who g
  match s.writeFault x.addr x.locs with
  | some (c, st, a) => .bad c st 0 a
  | none =>
    if x.locs.any (e.passedBy x) then .did s { x with stat := .done }
    else
      match s.storeRef w g.team g.grp x.addr.toNat x.opA.toNat x.locs (g.ordered e.uid e.seq)
          (fun sc => .escapeHwPublish g.core g.slot 2 x.opA (BitVec.ofNat 5 sc)) with
      | .stored s1 => .did (if releases ctl.order then s1.releaseAt w.aid (ctl.scope.zeroExtend 5) else s1) { x with stat := .done }
      | .bad c st de a => .bad c st (BitVec.ofNat 64 de) (BitVec.ofNat 64 a)
      | .wait s1 => .wait s1

/-- A lane of VNEW allocates (R222). -/
def State.actNew (s : State) (g : Group) (e : LogEntry) (x : LaneEntry) (long : Bool) : Act :=
  match s.team g.team with
  | none => .did s { x with stat := .done }
  | some t =>
    let size := (x.data.getD 0 0).toNat
    match s.alloc (s.who g) t size long with
    | .got s1 p => if s1.overPlaced g (s.who g) e.seq p (objLines size) then .wait s else .did s1 (x.image 8 p)
    | .full s1 => .did s1 (x.image 8 0)
    | .quota dom n => .bad .quota false (BitVec.ofNat 64 (dom + n * 2 ^ 32)) 0
    | .bad c st a => .bad c st 0 (BitVec.ofNat 64 a)
    | .wait (some ev) => .wait (s.post ev)
    | .wait none => .wait s

def State.actLane (s : State) (g : Group) (e : LogEntry) (x : LaneEntry) : Act :=
  match e.instr with
  | .vatom ty op nr _ _ _ _ _ ctl => s.actAtom g e x ty op nr ctl
  | .vstref _ _ _ ctl => s.actRef g e x ctl
  | .vnew long _ _ _ _ => s.actNew g e x long
  | _ => .did s { x with stat := .done }

/-- The ordering waits of a lane that performs: older accesses of the group to its bytes, the fence window, a release's earlier
accesses (R169), lower lanes of the same word (R168, R170), and for VNEW every lower lane (R222). -/
def Group.mayAct (g : Group) (e : LogEntry) (x : LaneEntry) : Bool :=
  let rel := match laneCtl e.instr with | some c => releases c.order | none => false
  let first (y : LaneEntry) : Bool := match llKind e.instr with
    | .alloc => y.stat == .ready && y.got.isEmpty
    | _ => !y.isBad && y.touches x.locs
  x.stat == .ready && x.got.isEmpty && !g.windowed e.uid && !g.readsBefore e.seq x.locs && !g.storesBefore e.seq x.locs &&
    (!rel || g.ordered e.uid e.seq) && e.lanes.all fun y => decide (x.lane ≤ y.lane) || !first y

/-- One lane performs; a quota that is breached stops every higher lane (R222). -/
def State.act (s : State) (g : Group) (e : LogEntry) (x : LaneEntry) : State :=
  match s.actLane g e x with
  | .did s1 y => s1.settle g { e with lanes := e.lanes.map fun (z : LaneEntry) => if z.lane == x.lane then y else z }
  | .bad c st de a =>
    s.settle g { e with lanes := e.lanes.map fun (z : LaneEntry) =>
      if z.lane == x.lane || (c == .quota && decide (x.lane < z.lane) && z.stat == .ready) then { z with stat := .bad c st de a } else z }
  | .wait s1 => s1

/-- What lanes of an entry do now, other than writing registers: none when none may. -/
def State.advance (s : State) (g : Group) (e : LogEntry) : Option State :=
  match llKind e.instr with
  | .act | .alloc => (s.pickOf 2 (e.lanes.filter (g.mayAct e))).map (s.act g e)
  | .tensorIn =>
    let fresh := e.lanes.filter LaneEntry.toRead
    if fresh.isEmpty || !fresh.all (g.mayLand e) || e.lanes.any (fun x => x.stat == .service) then none
    else if fresh.any fun x => !(x.locs.all (s.inCache (s.who g))) then some (fresh.foldl (s.wantLane g e) s)
    else match e.instr with | .vtld ty _ _ _ _ _ _ => some (s.readElems1 g e ty) | _ => none
  | _ => match s.chosen g e with | [] => none | now => some (s.readLanes g e now)

/-- Lanes that wait for translation are tried again, the oldest entry of the group with a lane that waits or has faulted first: logged
instructions replay in issue order (R173). -/
def Group.mayRetry (g : Group) (e : LogEntry) : Bool :=
  (e.lanes.any fun x => x.stat == .service) &&
    g.olog.all fun y => decide (e.seq ≤ y.seq) || y.lanes.all fun x => x.stat != .service && !x.isBad
def State.retry (s : State) (g : Group) (e : LogEntry) : State := match s.attempt g e with | (s1, g1, e1) => s1.settle g1 e1

/-- One move of an outstanding long-latency instruction: lanes that wait for translation are tried again, results are written, lanes
read or perform; which of these comes first is free. With every lane done it completes. -/
def execLaneLlComplete (core slot seq : Nat) (s : State) : Out :=
  let no : Out := .refused (.notArisen "LANE_LL_COMPLETE")
  match s.group core slot with
  | none => no
  | some g =>
    match g.olog.find? fun e => e.seq == seq with
    | none => no
    | some e =>
      let moves := (if g.mayRetry e then [s.retry g e] else []) ++ (if e.lanes.any LaneEntry.toWrite then [s.writeParts g e] else []) ++
        (s.advance g e).toList
      match s.pickOf 7 moves with
      | some t => .next t
      | none =>
        if e.lanes.all (fun x => x.stat == .done) || (e.lanes.all (fun x => x.stat == .done || x.isBad) && (!e.retry || s.silent g) && !g.windowed e.uid) then
          .next (s.settle g e)
        else no

end Sys2Proof.Machine
end

