-- ==== Sys2Proof/Machine/Matrix.lean ====
section
/-! DEFINITION. The matrix stream: MFORK, RDV, tiles, products, index registers, loops, synchronisation (R47, R69,
R91, R92, R182-R197). -/

namespace Sys2Proof.Machine

/-! ## MFORK and RDV (R182, R195) -/

def freshStream (entry : DWord) (k0 : Word) (forker : Nat) (old : Stream) : Stream :=
  { running := true, pc := entry, k := k0 :: List.replicate 15 0, forker, bars := old.bars }

def execMfork (d a o : BitVec 8) (s : State) : Out :=
  scalarGroup (.mfork d a o) (d.toNat :: pairRegs a) s fun g fr k =>
    match s.team g.team with
    | none => .fault .noAgent
    | some t =>
      let entry := smAddr (g.pair a.toNat) o 8
      match addrFault entry 8 with
      | some c => s.trapAt g fr k c 0 entry
      | none =>
        if t.stream.running then
          if fr.fence.isSome then .next (s.put g k fr.hold)
          else .next (s.raise g { cause := .mstream, reason := 1, spc := entry, pc := fr.pc, culprit := .scalar g.slot k })
        else if g.acquiring || !g.doneBefore g.seq then .next s
        else
          let s1 := (s.put g k (s.fall fr)).setTeam { t with stream := freshStream entry (g.s d.toNat) g.grp t.stream }
          .next { s1 with groups := s1.groups.map fun (h : Group) => if h.team == g.team && h.slot != 128 then { h with rdvCount := 0 } else h }

/-- RDV: the count rises once; the fragment waits for the stream's count, or for the stream's end. -/
def execRdv (d : BitVec 8) (s : State) : Out :=
  scalarGroup (.rdv d) [d.toNat] s fun g fr k =>
    match s.team g.team with
    | none => .fault .noAgent
    | some t =>
      let n := match fr.wait with | some (.rdv n _) => n | _ => g.rdvCount + 1
      let g1 := match fr.wait with | some (.rdv _ _) => g | _ => { g with rdvCount := n }
      if n ≤ t.stream.rdvCount then .next (s.put (g1.setS d.toNat 0) k (s.fall fr))
      else if !t.stream.running then .next (s.put (g1.setS d.toNat 1) k (s.fall fr))
      else .next (s.put g1 k { fr with wait := some (.rdv n d.toNat) })

/-! ## Executing a matrix word -/

def State.onStream (s : State) (tid : Nat) (f : Stream → Stream) : State :=
  match s.team tid with
  | some t => s.setTeam { t with stream := f t.stream }
  | none => s
/-- The stream goes to a word; what it held of the one before goes. -/
def Stream.goto (st : Stream) (pc : DWord) : Stream :=
  { st with pc, wait := none, part := [], held := none, adding := none, added := false }
def Stream.next (st : Stream) : Stream := st.goto (st.pc + 8)
/-- The same after a word that no staged tile outlives (R188). -/
def Stream.sync (st : Stream) : Stream := { st with staged := [] }.next
def State.stop (s : State) (t : Team) (reason : BitVec 8) (code : BitVec 16) : Out :=
  .next (s.raiseStream t { cause := .mstream, reason, code })

/-- The accumulator tile of an instruction. -/
def accOf : Instr → Option Nat
  | .mst a _ | .mldc a _ | .mzero a | .mma a _ _ _ | .mmaz a _ _ _ => some a.toNat
  | _ => none
/-- The reasons that the word itself gives (R184): a field that must be zero, then a register or value beyond its limit. -/
def mReason (t : Team) (i : Instr) : Option (BitVec 8) :=
  let used := match i with
    | .mloop _ b _ count => count != 0 && b != 0
    | .mrel noadd tn ka kb _ value => noadd && !(tn == 0 && ka == 0 && kb == 0 && value == 0)
    | _ => false
  let beyond := match i with
    | .mlda a _ | .mma _ a _ _ | .mmaz _ a _ _ => decide (7 < a.toNat)
    | .mloop _ _ disp _ => disp == 0
    | .mrel _ _ _ _ scope _ => scope == 7
    | _ => false
  if used then some 3
  else if beyond || (match accOf i with | some a => decide (t.acc.length ≤ a) | none => false) then some 4 else none

/-- A word of the stream that moves: its own checks, then its effect. -/
def streamExec (i : Instr) (s : State) (body : Team → Out) : Out :=
  match s.cur with
  | .stream tid =>
    match s.team tid with
    | none => .fault .noAgent
    | some t =>
      if !t.stream.running then .fault .noAgent
      else match mReason t i with | some r => s.stop t r 0 | none => body t
  | _ => .fault .noAgent

/-! ## Tiles (R185-R189) -/

/-- The entry of a word's tensor, as it was read when the word started (R180). -/
def State.entryOf (s : State) (t : Team) (tn : BitVec 8) : Tensor := match t.stream.held with | some p => p.2 | none => s.tensor t.cid tn.toNat
/-- The tensor that a word names. -/
def tileOf : Instr → Option (BitVec 8)
  | .mlda _ x | .mldb x | .mst _ x | .mldc _ x | .mma _ _ _ x | .mmaz _ _ _ x => some x.tn
  | .mrel _ tn _ _ _ _ => some tn
  | _ => none
/-- A word starts: the stream keeps it with the entry of its tensor until it has completed (R180, R183). -/
def State.holdWord (s : State) (t : Team) (v : DWord) (i : Instr) : State :=
  if t.stream.held.isSome then s
  else
    let e : Tensor := match tileOf i with | some tn => s.tensor t.cid tn.toNat | none => 0
    s.setTeam { t with stream := { t.stream with held := some (v, e) } }

def Stream.reg (st : Stream) (k : BitVec 4) : Word := getW st.k k.toNat
/-- The origin of a tile: both coordinates exact. -/
def originOf (st : Stream) (x : Tile) : Nat × Nat :=
  ((st.reg x.ka).toNat + 64 * x.off0.toNat, (st.reg x.kb).toNat + 64 * x.off1.toNat)

/-- The addresses of an element's bytes, and those that its places stand for in global memory. -/
def tileAddrs (d : Tensor) (ps : List (Nat × Nat × Bool)) : List Nat :=
  ps.flatMap fun p => (List.range p.2.1).map fun n => if tStash d && p.2.2 then swizzle d (p.1 + n) else p.1 + n
def Team.tileVas (t : Team) (d : Tensor) (ps : List (Nat × Nat × Bool)) : List Nat :=
  (tileAddrs d ps).map fun a => if tStash d then t.globalAt a else a
/-- What a tile access asks the directories for: its lines are in the core's L1, for MST so that they may be written; a private line
of the team needs none (R198, R331, R341). -/
def State.tileLine (s : State) (w : Who) (wr : Bool) (va : Nat) (l : Loc) : Option Ev :=
  match l with
  | .glob aid gpa =>
    let line := lineOf aid gpa
    match s.l1St w.core line with
    | .M | .E | .P => none
    | st =>
      if (!wr && st != .I) || s.privateAt w va gpa then none
      else some (if !wr then .gets w.core line else if st == .I then .getx w.core line else .upgr w.core line)
  | _ => none
def State.tileWants (s : State) (w : Who) (t : Team) (d : Tensor) (wr : Bool) (ps : List (Nat × Nat × Bool)) (ls : List Loc) : Option Ev :=
  ((t.tileVas d ps).zip ls).findSome? fun p => s.tileLine w wr p.1 p.2
/-- MST writes bytes in the core's L1, in state M, or P for a private line (R331, R341). -/
def State.writeTile (s : State) (w : Who) (ms : List (Loc × Byte)) : State :=
  (linesOf (ms.map fun p => p.1)).foldl (fun (u : State) (line : Nat) =>
    match u.l1St w.core line with
    | .E => u.setL1 w.core line .M
    | .I => (match u.takeP w.core line with | .ok v => v | .error _ => u)
    | _ => u) (s.writeLocs ms)

/-- The bytes of an element: as they are held in `src` by its number, else as memory has them; none out of range. -/
def State.readElem (s : State) (w : Who) (t : Team) (d : Tensor) (src : List (Nat × List Byte)) (n : Nat) (p : Nat × Nat) :
    Except (XRes × Nat) (Option (List Byte)) :=
  match src.find? (fun x => x.1 == n), tPieces d p.1 p.2 false with
  | some x, _ => .ok (some x.2)
  | none, none => .ok none
  | none, some ps =>
    match s.piecesPlaces w t d .rd ps with
    | .error e => .error e
    | .ok ls => match s.tileWants w t d false ps ls with | some e => .error (.wait (some e), 0) | none => .ok (some (s.readLocs ls))

/-- The bytes of a tile's elements, numbered from n on in row-major order. The first that faults or waits ends the reading, and gives
the cause and the address (R184; log 52). -/
def State.readElems (s : State) (w : Who) (t : Team) (d : Tensor) (src : List (Nat × List Byte)) :
    Nat → List (Nat × Nat) → Except (XRes × Nat) (List (Option (List Byte)))
  | _, [] => .ok []
  | n, p :: rest =>
    match s.readElem w t d src n p with
    | .error e => .error e
    | .ok b =>
      match s.readElems w t d src (n + 1) rest with
      | .error e => .error e
      | .ok bs => .ok (b :: bs)

/-- A fault in a tile access stops the stream; a device service makes the word wait (R184). -/
def State.tileFault (s : State) (t : Team) (r : XRes) (addr : Nat) : Out :=
  match r with
  | .bad c st => .next (s.raiseStream t { cause := c, stage := st, addr := BitVec.ofNat 64 addr })
  | .wait (some e) => .next (s.post e)
  | _ => .next s

/-- Row-major coordinates of a tile of `rows` by `cols` elements: column index along dimension 0. -/
def tileCoords (origin : Nat × Nat) (rows cols : Nat) : List (Nat × Nat) :=
  (List.range rows).flatMap fun m => (List.range cols).map fun k => (origin.1 + k, origin.2 + m)

/-- Kt of an A register's format (R186). -/
def aCols (fmt : Nat) : Nat := if fmt = 2 ∨ fmt = 3 then 64 else 128

def execMlda (a : BitVec 4) (x : Tile) (s : State) : Out :=
  streamExec (.mlda a x) s fun t =>
    let d := s.entryOf t x.tn
    let f := tFormat d
    if !tStash d || f < 2 || 6 < f then s.stop t 6 0
    else
      match s.readElems (s.teamWho t) t d t.stream.part 0 (tileCoords (originOf t.stream x) 64 (aCols f)) with
      | .error (r, ad) => s.tileFault t r ad
      | .ok es =>
        let bytes := es.flatMap fun e => e.getD (List.replicate (fmtSize f) 0)
        .next (s.setTeam { t with stream := { t.stream with a := t.stream.a.set a.toNat { tag := f, bytes } }.next })

/-- K of a B format (R186): what the A tags that go with it share. -/
def bCols (f : Nat) : Nat := if f = 9 then 256 else if f = 2 ∨ f = 3 then 64 else 128

/-- The elements of a tile that can be read now, by number, of those that `pick` takes. -/
def State.readable (s : State) (w : Who) (t : Team) (d : Tensor) (src : List (Nat × List Byte)) (pick : Nat → Bool) (coords : List (Nat × Nat)) :
    List (Nat × List Byte) :=
  coords.zipIdx.filterMap fun p =>
    if !pick p.2 then none
    else match s.readElem w t d src p.2 p.1 with | .ok (some bs) => some (p.2, bs) | _ => none

/-- MLDB stages the elements that do not fault (R188). -/
def execMldb (x : Tile) (s : State) : Out :=
  streamExec (.mldb x) s fun t =>
    let d := s.entryOf t x.tn
    let f := tFormat d
    if f < 2 || f = 7 || 9 < f then s.stop t 6 0
    else
      let o := originOf t.stream x
      let tile : Staged := { tn := x.tn.toNat, entry := d, d0 := o.1, row := o.2
                             elems := s.readable (s.teamWho t) t d t.stream.part (fun _ => true) (tileCoords o 64 (bCols f)) }
      .next (s.setTeam { t with stream := { t.stream with staged := tile :: t.stream.staged }.next })

/-- The elements that an MMA has besides memory: those it has read, and those of a staged copy of its tile, if it takes one; whether it
does is not defined (R188; log 21). -/
def State.bSource (s : State) (t : Team) (x : Tile) : List (Nat × List Byte) :=
  let o := originOf t.stream x
  let mine := t.stream.staged.filter fun e => e.tn == x.tn.toNat && e.entry == s.entryOf t x.tn && e.d0 == o.1 && e.row == o.2
  match mine[Config.choice 12 s.free % (mine.length + 1)]? with
  | some e => t.stream.part ++ e.elems
  | none => t.stream.part

/-- An accumulator tile: 4,096 elements row by row; an empty list stands for zeros. -/
def Team.tile (t : Team) (a : Nat) : List Word :=
  match t.acc.getD a [] with
  | [] => List.replicate 4096 0
  | l => l

/-- An accumulator element as MST stores it, and an element as MLDC loads it (R189). -/
def fromAcc (f : Nat) (v : Word) : Nat :=
  if f = 1 ∨ f = 7 then v.toNat
  else if f = 6 then narrow .i8x4 true v.toInt
  else (convert .f32 (fmtTy f) 0 false false v.toNat).1
def toAcc (f : Nat) (bs : Option (List Byte)) : Word :=
  match bs with
  | none => 0
  | some b =>
    if f = 1 ∨ f = 7 then BitVec.ofNat 32 (leVal b)
    else if f = 6 then (BitVec.ofNat 8 (leVal b)).signExtend 32
    else BitVec.ofNat 32 (convert (fmtTy f) .f32 0 false false (leVal b)).1

/-- The bytes that MST writes for an element: none out of range, a cause where its place is a header word (R218), a wait for its lines. -/
def State.placeElem (s : State) (w : Who) (t : Team) (d : Tensor) (p : (Nat × Nat) × Word) : Except (XRes × Nat) (List (Loc × Byte)) :=
  match tPieces d p.1.1 p.1.2 false with
  | none => .ok []
  | some ps =>
    match s.piecesPlaces w t d .wr ps with
    | .error e => .error e
    | .ok ls =>
      match ls.findIdx? s.isHeader with
      | some n => .error (.bad .prot false, (t.tileVas d ps).getD n 0 / 8 * 8)
      | none =>
        match s.tileWants w t d true ps ls with
        | some e => .error (.wait (some e), 0)
        | none => .ok (ls.zip (leBytes ls.length (fromAcc (tFormat d) p.2)))

/-- The moves of MST, of the elements numbered from n on that it has not written yet. -/
def State.placeElems (s : State) (w : Who) (t : Team) (d : Tensor) (src : List (Nat × List Byte)) :
    Nat → List ((Nat × Nat) × Word) → Except (XRes × Nat) (List (Loc × Byte))
  | _, [] => .ok []
  | n, p :: rest =>
    match (if src.any fun x => x.1 == n then .ok [] else s.placeElem w t d p) with
    | .error e => .error e
    | .ok ms =>
      match s.placeElems w t d src (n + 1) rest with
      | .error e => .error e
      | .ok more => .ok (ms ++ more)

/-- The formats of C tiles. -/
def cFormat (f : Nat) : Bool := decide (1 ≤ f ∧ f ≤ 7)

/-- MST (R189). DESIGN CHOICE: one that faults has written the elements that earlier steps of it moved (R184, R197; log 52). -/
def execMst (acc : BitVec 4) (x : Tile) (s : State) : Out :=
  streamExec (.mst acc x) s fun t =>
    let d := s.entryOf t x.tn
    if !cFormat (tFormat d) then s.stop t 6 0
    else
      match s.placeElems (s.teamWho t) t d t.stream.part 0 ((tileCoords (originOf t.stream x) 64 64).zip (t.tile acc.toNat)) with
      | .error (r, ad) => s.tileFault t r ad
      | .ok ms => .next ((s.writeTile (s.teamWho t) ms).onStream t.tid Stream.sync)

def execMldc (acc : BitVec 4) (x : Tile) (s : State) : Out :=
  streamExec (.mldc acc x) s fun t =>
    let d := s.entryOf t x.tn
    if !cFormat (tFormat d) then s.stop t 6 0
    else
      match s.readElems (s.teamWho t) t d t.stream.part 0 (tileCoords (originOf t.stream x) 64 64) with
      | .error (r, ad) => s.tileFault t r ad
      | .ok es => .next (s.setTeam { t with acc := t.acc.set acc.toNat (es.map (toAcc (tFormat d))), stream := t.stream.next })

def execMzero (acc : BitVec 4) (s : State) : Out :=
  streamExec (.mzero acc) s fun t => .next (s.setTeam { t with acc := t.acc.set acc.toNat [], stream := t.stream.next })

/-! ## Products (R91, R92, R186, R190, R191) -/

/-- K of an allowed pair of A tag and B format, and whether the kind is INT32 (R186). -/
def mmaKind (tag f : Nat) : Option (Nat × Bool) :=
  let fp8 (n : Nat) : Bool := n == 4 || n == 5
  if tag = 3 ∧ f = 3 ∨ tag = 2 ∧ f = 2 then some (64, false)
  else if fp8 tag && (fp8 f || f == 8) then some (128, false)
  else if tag = 6 ∧ f = 6 then some (128, true)
  else if tag = 6 ∧ f = 9 then some (256, true)
  else none

/-- Row m of an A operand, K elements as raw bits; the pair of T3P joins the halves of the row. -/
def AReg.row (r : AReg) (m : Nat) : List Nat :=
  let bs := (r.bytes.drop (128 * m)).take 128
  if r.tag = 2 ∨ r.tag = 3 then (List.range 64).map fun k => leVal ((bs.drop (2 * k)).take 2)
  else bs.map fun b => b.toNat
def aRow (rs : List AReg) (m : Nat) : List Nat := rs.flatMap fun r => r.row m

/-- The exact sum of the products of a step (R92). -/
def exactSum (ps : List FVal) : FVal :=
  if ps.any FVal.isNan || (ps.contains (.inf true) && ps.contains (.inf false)) then .nan false
  else if ps.contains (.inf false) then .inf false
  else if ps.contains (.inf true) then .inf true
  else
    let q : Int := ps.foldl (fun m v => match v with | .fin _ _ e => min m e | _ => m) 0
    FVal.ofInt (ps.foldl (fun z v => z + v.signed q) 0) q (ps.all fun v => v == .zero true)

/-- The steps of R91 in increasing K order. -/
def fpSteps : Nat → Nat → List FVal → Nat
  | 0, acc, _ => acc
  | n + 1, acc, ps =>
    let step := (fp32.round 0 false false (exactSum (ps.take 32))).1
    fpSteps n (fp32.addOp 0 false (fp32.value false acc) (fp32.value false step)).1 (ps.drop 32)
def fpDot (start : Word) (as bs : List FVal) : Word :=
  BitVec.ofNat 32 (fpSteps (as.length / 32) start.toNat ((as.zip bs).map fun p => (p.1.mul p.2).1))
def intDot (start : Word) (as bs : List Int) : Word :=
  BitVec.ofInt 32 ((as.zip bs).foldl (fun z p => z + p.1 * p.2) start.toInt)

/-- A value of a B element: Q4N by R87, the others by their format; out of range reads zero. -/
def bValue (f d0 : Nat) (e : Option (List Byte)) : FVal :=
  match e with
  | none => .zero false
  | some bs => if f = 8 then q4nElem d0 bs else (Ty.fmt (fmtTy f)).value false (leVal bs)
def bInt (f d0 : Nat) (e : Option (List Byte)) : Int :=
  match e with
  | none => 0
  | some bs => if f = 9 then t3pTrit d0 bs else (BitVec.ofNat 8 (leVal bs)).toInt

/-- Rows of n elements. -/
def chunksOf {α : Type} (n : Nat) : Nat → List α → List (List α)
  | 0, _ => []
  | k + 1, l => l.take n :: chunksOf n k (l.drop n)

/-- SFMT of the group that R89 names; a window that rolls back keeps it (R251). -/
def State.streamSfmt (s : State) (t : Team) : State :=
  let n := s.streamGroup t
  let set (g : Group) : Group := if g.team == t.tid && g.grp == n && g.slot != 128 then { g with fpctl := stickFmt g.fpctl } else g
  { s with groups := s.groups.map set, snaps := s.snaps.map set }

/-- The A operand: the latch, which must match, or the register, a pair for T3P (R190, R191). -/
def Stream.operand (st : Stream) (a : Nat) (t3p : Bool) : Option (List AReg) :=
  match st.latch with
  | some (r, regs) => if r == a && (regs.length == 2) == t3p then some regs else none
  | none => some (if t3p then [st.a.getD a {}, st.a.getD (a + 1) {}] else [st.a.getD a {}])

/-- MMA and MMAZ. An odd A register for T3P counts first, before a latch that does not match and a tag of NONE, a DESIGN CHOICE (log 59). -/
def mmaOp (i : Instr) (acc a : BitVec 4) (keep zero : Bool) (x : Tile) (s : State) : Out :=
  streamExec i s fun t =>
    let d := s.entryOf t x.tn
    let f := tFormat d
    let t3p := f == 9
    if t3p && a.getLsbD 0 then s.stop t 4 0
    else
      match t.stream.operand a.toNat t3p with
      | none => s.stop t 7 0
      | some regs =>
        if regs.any fun r => r.tag == 0 then s.stop t 10 0
        else
          match (if regs.all fun r => r.tag == (regs.headD {}).tag then mmaKind (regs.headD {}).tag f else none) with
          | none => s.stop t 6 0
          | some (kk, int) =>
            let origin := originOf t.stream x
            match s.readElems (s.teamWho t) t d (s.bSource t x) 0 (tileCoords origin 64 kk) with
            | .error (r, ad) => s.tileFault t r ad
            | .ok es =>
              let bad := t3p && es.any fun e => match e with | some bs => t3pBad bs | none => false
              if bad && tTrapr d then .next (s.raiseStream t { cause := .fmt })
              else
                let cols := chunksOf kk 64 es
                let start (n : Nat) : Word := if zero then 0 else (t.tile acc.toNat).getD n 0
                let tile : List Word :=
                  if int then
                    let bcols := cols.map fun c => c.mapIdx fun k e => bInt f (origin.1 + k) e
                    (List.range 64).flatMap fun m =>
                      let row := (aRow regs m).map fun v => (BitVec.ofNat 8 v).toInt
                      bcols.mapIdx fun n c => intDot (start (64 * m + n)) row c
                  else
                    let fa := Ty.fmt (fmtTy (regs.headD {}).tag)
                    let bcols := cols.map fun c => c.mapIdx fun k e => bValue f (origin.1 + k) e
                    (List.range 64).flatMap fun m =>
                      let row := (aRow regs m).map (fa.value false)
                      bcols.mapIdx fun n c => fpDot (start (64 * m + n)) row c
                let st := { t.stream with latch := if keep then some (a.toNat, regs) else none }
                let s1 := s.setTeam { t with acc := t.acc.set acc.toNat tile, stream := st.next }
                .next (if bad then s1.streamSfmt t else s1)

def execMma (acc a : BitVec 4) (keep : Bool) (x : Tile) (s : State) : Out := mmaOp (.mma acc a keep x) acc a keep false x s
def execMmaz (acc a : BitVec 4) (keep : Bool) (x : Tile) (s : State) : Out := mmaOp (.mmaz acc a keep x) acc a keep true x s

/-! ## Tiles in parts (R197) -/

/-- The elements that a tile word reads. -/
def State.tileReads (s : State) (t : Team) : Instr → Option (Tensor × List (Nat × Nat))
  | .mlda _ x =>
    let d := s.entryOf t x.tn
    if !tStash d || tFormat d < 2 || 6 < tFormat d then none else some (d, tileCoords (originOf t.stream x) 64 (aCols (tFormat d)))
  | .mldc _ x =>
    let d := s.entryOf t x.tn
    if cFormat (tFormat d) then some (d, tileCoords (originOf t.stream x) 64 64) else none
  | .mldb x | .mma _ _ _ x | .mmaz _ _ _ x =>
    let d := s.entryOf t x.tn
    if tFormat d < 2 || tFormat d = 7 || 9 < tFormat d then none else some (d, tileCoords (originOf t.stream x) 64 (bCols (tFormat d)))
  | _ => none

/-- Some elements of the tile of the word in progress are read, or by MST written, before the others: a tile as a whole is not
atomic, and which elements these are is not fixed (R197; log 11). -/
def State.tileStep (s : State) (t : Team) (i : Instr) : State :=
  let part := t.stream.part
  let pick (n : Nat) : Bool := Config.choice 11 (s.free * 2 ^ 14 + n) % 2 == 1 && !part.any fun x => x.1 == n
  let keep (u : State) (es : List (Nat × List Byte)) : State := u.onStream t.tid fun st => { st with part := es ++ part }
  if (mReason t i).isSome then s
  else
    match i with
    | .mst acc x =>
      let d := s.entryOf t x.tn
      if !cFormat (tFormat d) then s
      else
        let some_ := ((tileCoords (originOf t.stream x) 64 64).zip (t.tile acc.toNat)).zipIdx.filterMap fun p =>
          if !pick p.2 then none else match s.placeElem (s.teamWho t) t d p.1 with | .ok ms => some (p.2, ms) | .error _ => none
        keep (s.writeTile (s.teamWho t) (some_.flatMap fun p => p.2)) (some_.map fun p => (p.1, []))
    | _ =>
      match s.tileReads t i with
      | some (d, coords) => keep s (s.readable (s.teamWho t) t d [] pick coords)
      | none => s

/-! ## Index registers and loops (R192, R193) -/

def Stream.setReg (st : Stream) (k : BitVec 4) (v : Word) : Stream := { st with k := st.k.set k.toNat v }
def streamReg (i : Instr) (k : BitVec 4) (f : Stream → Word) (s : State) : Out :=
  streamExec i s fun t => .next (s.setTeam { t with stream := (t.stream.setReg k (f t.stream)).next })

def execMkset (k : BitVec 4) (i : BitVec 24) (s : State) : Out := streamReg (.mkset k i) k (fun _ => i.signExtend 32) s
def execMksetH (k : BitVec 4) (i : BitVec 8) (s : State) : Out := streamReg (.mksetH k i) k (fun st => i ++ (st.reg k).extractLsb' 0 24) s
def execMkadd (k : BitVec 4) (i : BitVec 24) (s : State) : Out := streamReg (.mkadd k i) k (fun st => st.reg k + i.signExtend 32) s
def execMkaddReg (k b : BitVec 4) (i : BitVec 24) (s : State) : Out :=
  streamReg (.mkaddReg k b i) k (fun st => st.reg k + st.reg b + i.signExtend 32) s

def execMloop (k b : BitVec 4) (disp count : BitVec 12) (s : State) : Out :=
  streamExec (.mloop k b disp count) s fun t =>
    let st := t.stream
    let total := if count = 0 then (st.reg b).toNat else count.toNat
    let stop := st.pc + BitVec.ofNat 64 (8 * disp.toNat)
    if total = 0 then .next (s.setTeam { t with stream := st.goto (stop + 8) })
    else if 4 ≤ st.loops.length then s.stop t 8 0
    else .next (s.setTeam { t with stream := { st.setReg k 0 with loops := { reg := k.toNat, total, start := st.pc + 8, stop } :: st.loops }.next })

/-- The stream has ended: a fragment that waits in RDV goes on, with 0 when its MRDV has come, 1 otherwise (R195). -/
def Group.endRdv (count : Nat) (g : Group) (k : Nat) : Group :=
  match g.frag k with
  | some f => match f.wait with
    | some (.rdv n d) => (g.setS d (if n ≤ count then 0 else 1)).setFrag k (f.goto (f.pc + 4))
    | _ => g
  | none => g
def State.endRdvs (s : State) (t : Team) : State :=
  let go (g : Group) : Group := if g.team == t.tid && g.slot != 128 then (g.endRdv t.stream.rdvCount 0).endRdv t.stream.rdvCount 1 else g
  { s with groups := s.groups.map go, snaps := s.snaps.map go }

def execMend (s : State) : Out :=
  streamExec .mend s fun t =>
    let st := t.stream
    match st.loops with
    | [] => .next ((s.setTeam { t with stream := { st with running := false, latch := none, staged := [], held := none } }).endRdvs t)
    | l :: rest =>
      if l.stop ≠ st.pc then s.stop t 8 0
      else
        let v := getW st.k l.reg + 1
        let st1 := { st with k := st.k.set l.reg v }
        if v.toNat < l.total then .next (s.setTeam { t with stream := st1.goto l.start })
        else .next (s.setTeam { t with stream := { st1 with loops := rest }.next })

/-! ## Synchronisation (R194-R196). The stream's accesses perform as its words do, so they have all performed. -/

def execMbara (n : BitVec 4) (s : State) : Out :=
  streamExec (.mbara n) s fun t =>
    let p := t.stream.bars.getD n.toNat {}
    let b := s.barrier t n.toNat
    if (p.pending && b.phase == p.phase) || p.effect.isSome then .next s
    else
      let p1 : BarPart := { pending := true, phase := b.phase, effect := some 0 }
      .next (s.setTeam { t with stream := { t.stream with bars := t.stream.bars.set n.toNat p1 }.sync })

def execMbarw (n : BitVec 4) (s : State) : Out :=
  streamExec (.mbarw n) s fun t =>
    let p := t.stream.bars.getD n.toNat {}
    let phase := (s.barrier t n.toNat).phase
    let target := match t.stream.wait with | some (_, w) => w | none => if p.pending then p.phase else phase
    if phase == target then .next (s.setTeam { t with stream := { t.stream with wait := some (n.toNat, target) } })
    else .next (s.setTeam { t with stream := { t.stream with bars := t.stream.bars.set n.toNat { p with pending := false } }.sync })

/-- The level of MREL's scope, by its members when it is a programmable one (R238). -/
def State.mrelLevel (s : State) (t : Team) (scope : BitVec 5) : BitVec 5 := s.levelScope t.cid t.core scope

/-- MREL (R196). Its add performs where an atomic of its scope does (R339): in the core's L1, or at the slice or the home, which ATOM asks
for. -/
def execMrel (noadd : Bool) (tn : BitVec 8) (ka kb : BitVec 4) (scope : BitVec 5) (value : BitVec 16) (s : State) : Out :=
  streamExec (.mrel noadd tn ka kb scope value) s fun t =>
    let w := s.teamWho t
    let done (u : State) : Out := .next ((u.releaseAt w.aid scope).onStream t.tid Stream.sync)
    if noadd || t.stream.added then done s
    else
      let d := s.entryOf t tn
      if tFormat d ≠ 7 || tStash d then s.stop t 6 0
      else
        match tPieces d (t.stream.reg ka).toNat (t.stream.reg kb).toNat false with
        | none => done s
        | some ps =>
          match s.piecesPlaces w t d .at ps with
          | .error (r, ad) => s.tileFault t r ad
          | .ok ls =>
            match ls.findIdx? s.isHeader with
            | some n => .next (s.raiseStream t { cause := .prot, addr := BitVec.ofNat 64 ((t.tileVas d ps).getD n 0 / 8 * 8) })
            | none =>
              let level := s.mrelLevel t scope
              if s.inL1 w ((t.tileVas d ps).headD 0) level ls then
                match s.own w ((t.tileVas d ps).headD 0) ls.head? with
                | .error e => .next (s.post e)
                | .ok u => done (u.writeLocs (ls.zip (leBytes 4 (leVal (u.readLocs ls) + value.toNat))))
              else
                match atomEv t.core ls .add .i32 (value.zeroExtend 64) 0 level with
                | some e => .next ((s.onStream t.tid fun st => { st with adding := some (ls, value.zeroExtend 32, level) }).post e)
                | none => done s

def execMrdv (s : State) : Out :=
  streamExec .mrdv s fun t => .next (s.setTeam { t with stream := { t.stream with rdvCount := t.stream.rdvCount + 1 }.sync })
def execMnop (s : State) : Out := streamExec .mnop s fun t => .next (s.setTeam { t with stream := t.stream.next })
def execMtrap (code : BitVec 16) (s : State) : Out := streamExec (.mtrap code) s fun t => s.stop t 9 code

end Sys2Proof.Machine
end

