-- ==== Sys2Proof/Machine/Launch.lean ====
section
/-! DEFINITION. Launches: descriptors, acceptance, placement, the start and retirement of teams, the end of a launch (R13-R26,
R31-R35, R54, R200, R210, R274-R278, R376). -/

namespace Sys2Proof.Machine

/-! ## Descriptors (R274, R15, R277) -/

def parseDesc (v : Nat) : Desc where
  entry := BitVec.ofNat 64 v
  laneBase := BitVec.ofNat 64 (bitsOf v 64 64)
  gx := bitsOf v 128 32
  gy := bitsOf v 160 32
  gz := bitsOf v 192 32
  groups := bitsOf v 224 8
  lregs := bitsOf v 232 8
  sregs := bitsOf v 240 8
  acc := bitsOf v 248 8
  stash := bitsOf v 256 16
  cw := bitsOf v 272 8
  ch := bitsOf v 280 8
  tx := bitsOf v 288 32
  ty := bitsOf v 320 32
  tz := bitsOf v 352 32
  cores := bitsOf v 384 1 == 1
  tile := bitsOf v 385 1 == 1
  rung := bitsOf v 386 1 == 1
  prio := bitsOf v 392 3
  domain := bitsOf v 400 8
  policy := bitsOf v 408 2
  arenaBase := bitsOf v 512 64
  arenaSize := bitsOf v 576 64
  longBase := bitsOf v 640 64
  longSize := bitsOf v 704 64
  depctr := bitsOf v 768 64
  signal := bitsOf v 832 64
  notBefore := bitsOf v 896 64
  window := bitsOf v 960 64
  init := (List.range 16).map fun n => BitVec.ofNat 32 (bitsOf v (1024 + 32 * n) 32)
  succ := (List.range 8).map fun n => bitsOf v (1536 + 64 * n) 64

def okAddr (a n : Nat) : Bool := decide (a < 2 ^ 56) && a % n == 0

/-- The shape limits of R15 and the fields of R274, but for RUNG. -/
def descOk (v : Nat) : Bool :=
  let d := parseDesc v
  bitsOf v 410 102 == 0 && bitsOf v 395 5 == 0 && bitsOf v 387 5 == 0 && d.policy != 3 &&
    okAddr d.entry.toNat 4 && okAddr d.laneBase.toNat 16 && okAddr d.arenaBase 65536 && d.arenaSize % 65536 == 0 &&
    (d.longSize == 0 || okAddr d.longBase 65536) && d.longSize % 65536 == 0 && okAddr d.depctr 4 && okAddr d.signal 8 && d.succ.all (fun a => okAddr a 4) &&
    decide (1 ≤ d.gx ∧ 1 ≤ d.gy ∧ 1 ≤ d.gz ∧ d.gx * d.gy * d.gz ≤ 2 ^ 31) && decide (1 ≤ d.groups ∧ d.groups ≤ 32) &&
    decide (1 ≤ d.lregs ∧ d.lregs ≤ 32) && decide (1 ≤ d.sregs ∧ d.sregs ≤ 32) && decide (d.stash ≤ 128) && decide (d.acc ≤ 16) &&
    decide (1 ≤ d.cw ∧ d.cw ≤ 12 ∧ 1 ≤ d.ch ∧ d.ch ≤ 8 ∧ d.cw * d.ch ≤ 12) && d.gx % d.cw == 0 && d.gy % d.ch == 0 &&
    (if d.tile then decide (1 ≤ d.tx ∧ 1 ≤ d.ty ∧ 1 ≤ d.tz) else d.tx == 0 && d.ty == 0 && d.tz == 0)

/-- A rung's launch descriptor (R277). DESIGN CHOICE: one that breaks R274 or R15 is malformed for R256 as well, with LADDER reason 7
(log 59). -/
def rungDescOk (v : Nat) : Bool :=
  let d := parseDesc v
  descOk v && d.rung && d.gx == 1 && d.gy == 1 && d.gz == 1 && d.groups == 1 && d.cw == 1 && d.ch == 1 && !d.cores && !d.tile &&
    d.arenaBase == 0 && d.arenaSize == 0 && d.depctr == 0 && d.signal == 0 && d.notBefore == 0 && d.window == 0 && d.succ.all fun a => a == 0

/-! ## Resources of a core (R17, R19) -/

/-- What is taken on a core: group slots (a parked group keeps its slot and registers, R273), those of resident groups (R19, R25: a parked group is
not resident, and a gang's reservation holds none yet), team slots, lane registers in bytes, scalar registers in bytes, stash, tiles. -/
structure Usage where
  slots  : List Nat := []
  here   : List Nat := []
  teams  : List Nat := []
  lane   : Nat := 0
  scalar : Nat := 0
  stash  : Nat := 0
  acc    : Nat := 0

def Usage.add (u : Usage) (d : Desc) (slots : List Nat) : Usage :=
  { slots := slots ++ u.slots, here := slots ++ u.here, teams := slots.take 1 ++ u.teams, lane := u.lane + d.groups * d.lregs * 1024,
    scalar := u.scalar + d.groups * d.sregs * 128, stash := u.stash + d.stash * 4096, acc := u.acc + d.acc }

/-- The teams that hold resources of a core: not evicted whole. -/
def State.holds (s : State) (t : Team) : Bool :=
  t.retired || (s.groups.any fun g => g.team == t.tid && !g.saved && decide (g.slot < 128)) || !(s.groups.any fun g => g.team == t.tid && !g.ended)

def State.usage (s : State) (core : Nat) : Usage :=
  let gs := s.groups.filter fun g => g.core == core && (!g.saved || g.parkAt.isSome) && decide (g.slot < 128)
  let ts := s.teams.filter fun t => t.core == core && s.holds t
  let descs := gs.filterMap fun g => (s.team g.team).map s.descOf
  let u : Usage :=
    { slots := gs.map fun (g : Group) => g.slot
      here := (gs.filter fun g => g.parkAt.isNone).map fun (g : Group) => g.slot
      teams := (ts.filter fun t => !t.retired).map fun (t : Team) => t.slot
      lane := descs.foldl (fun n d => n + d.lregs * 1024) 0
      scalar := descs.foldl (fun n d => n + d.sregs * 128) 0
      stash := ts.foldl (fun n t => n + t.window) 0
      acc := (ts.filter fun t => !t.retired).foldl (fun n t => n + t.acc.length) 0 }
  s.launches.foldl (fun (v : Usage) (l : Launch) => match l.gang with
    | some g => (g.places.filter fun p => p.1 == core).foldl (fun w p => { w.add l.desc p.2 with here := w.here }) v
    | none => v) u

/-- The scheduler and slot of the next group (R19). -/
def Usage.pick (u : Usage) (first : Bool) : Option Nat :=
  let free (n : Nat) : Bool := !u.slots.contains n && !(first && u.teams.contains n)
  let slotOf (q : Nat) : Option Nat := ((List.range 32).map fun n => 32 * q + n).find? free
  let load (q : Nat) : Nat := (u.here.filter fun n => n / 32 == q).length
  let cands := (List.range 4).filter fun q => (slotOf q).isSome
  match cands with
  | [] => none
  | q :: qs => slotOf (qs.foldl (fun best x => if load x < load best then x else best) q)
def Usage.assign (u : Usage) (first : Bool) : Nat → Option (List Nat)
  | 0 => some []
  | n + 1 =>
    match u.pick first with
    | none => none
    | some slot =>
      match { u with slots := slot :: u.slots, here := slot :: u.here }.assign false n with
      | none => none
      | some rest => some (slot :: rest)

/-- The slots of a team that fits (R17). -/
def Usage.fits (u : Usage) (d : Desc) : Option (List Nat) :=
  if u.lane + d.groups * d.lregs * 1024 ≤ 786432 ∧ u.scalar + d.groups * d.sregs * 128 ≤ 262144 ∧ u.stash + d.stash * 4096 ≤ 524288 ∧
      u.acc + d.acc ≤ 16 then u.assign true d.groups
  else none

/-! ## Placement (R20-R24) -/

def fold16 (v : Nat) : Nat := v % 65536 ^^^ v / 65536 % 65536
/-- The placement target (R22). -/
def targetCore (d : Desc) (dies : List Nat) (ast x y z : Nat) : Nat :=
  let h := fold16 (x / d.tx) ^^^ rotl16 (fold16 (y / d.ty)) 5 ^^^ rotl16 (fold16 (z / d.tz)) 10 ^^^ ast % 1024 * 64 % 65536
  let n := h % (192 * dies.length)
  dies.getD (n / 192) 0 * 96 + n % 192 / 2

def meshX (core : Nat) : Nat := core % 96 % 12
def meshY (core : Nat) : Nat := core % 96 / 12
def gap (a b : Nat) : Nat := if a ≤ b then b - a else a - b
def manhattan (a b : Nat) : Nat := gap (meshX a) (meshX b) + gap (meshY a) (meshY b)

/-- The first of a list with the least measure. -/
def leastBy {α : Type} (f : α → Nat) : List α → Option α
  | [] => none
  | x :: xs => match leastBy f xs with | some y => if f y < f x then some y else some x | none => some x

/-- The dies of the partition from the target die on, in increasing number and around (R21). -/
def dieOrder (dies : List Nat) (d : Nat) : List Nat := (dies.filter fun e => d ≤ e) ++ dies.filter fun e => e < d

/-- One team's core and slots (R23, R24). `use` gives the usage of each core, `open_` whether teams may start there. -/
def placeOne (use : Nat → Usage) (open_ : Nat → Bool) (dies : List Nat) (d : Desc) (target : Option Nat) : Option (Nat × List Nat) :=
  let fit (c : Nat) : Option (Nat × List Nat) := if open_ c then ((use c).fits d).map fun sl => (c, sl) else none
  let cores (e : Nat) : List (Nat × List Nat) := ((List.range 96).map fun n => 96 * e + n).filterMap fit
  match target with
  | none => leastBy (fun (p : Nat × List Nat) => (use p.1).here.length) (dies.flatMap cores)
  | some t => (dieOrder dies (t / 96)).findSome? fun e => leastBy (fun (p : Nat × List Nat) => manhattan p.1 t) (cores e)

/-- A cluster's cores and slots, by rank (R20, R21). -/
def placeRect (use : Nat → Usage) (open_ : Nat → Bool) (dies : List Nat) (d : Desc) (target : Nat) : Option (List (Nat × List Nat)) :=
  let rect (e o : Nat) : Option (Nat × List (Nat × List Nat)) :=
    if meshX o + d.cw ≤ 12 ∧ meshY o + d.ch ≤ 8 then
      let cs := (List.range (d.cw * d.ch)).map fun r => 96 * e + (meshY o + r / d.cw) * 12 + meshX o + r % d.cw
      let fits := cs.filterMap fun c => if open_ c then ((use c).fits d).map fun sl => (c, sl) else none
      if fits.length = cs.length then some (96 * e + o, fits) else none
    else none
  (dieOrder dies (target / 96)).findSome? fun e =>
    (leastBy (fun (p : Nat × List (Nat × List Nat)) => manhattan p.1 target) ((List.range 96).filterMap (rect e))).map fun p => p.2

/-- The unit that starts at once: a team, or the teams of a cluster; the coordinates of its rank-0 team. -/
def Desc.units (d : Desc) : Nat := d.gx * d.gy * d.gz / (d.cw * d.ch)
def Desc.clustered (d : Desc) : Bool := d.cw * d.ch != 1
def Desc.unitXyz (d : Desc) (n : Nat) : Nat × Nat × Nat :=
  let ux := d.gx / d.cw
  let uy := d.gy / d.ch
  (n % ux * d.cw, n / ux % uy * d.ch, n / (ux * uy))

/-- The place of unit n against a usage. -/
def placeUnit (use : Nat → Usage) (open_ : Nat → Bool) (dies : List Nat) (ast : Nat) (d : Desc) (n : Nat) : Option (List (Nat × List Nat)) :=
  match d.unitXyz n with
  | (x, y, z) =>
    let target := if d.tile then some (targetCore d dies ast x y z) else none
    if d.clustered then
      match target with
      | some t => placeRect use open_ dies d t
      | none =>
        match placeOne use open_ dies d none with
        | some (c, _) => placeRect use open_ dies d c
        | none => none
    else (placeOne use open_ dies d target).map fun p => [p]

/-- Every unit from n on, each against what the units before leave (R24, R26). -/
def placeAll (ovr : List (Nat × Usage)) (base : Nat → Usage) (open_ : Nat → Bool) (dies : List Nat) (ast : Nat) (d : Desc) :
    Nat → Nat → Option (List (List (Nat × List Nat)))
  | 0, _ => some []
  | k + 1, n =>
    let use (c : Nat) : Usage := match ovr.find? fun p => p.1 == c with | some p => p.2 | none => base c
    match placeUnit use open_ dies ast d n with
    | none => none
    | some ps =>
      let over1 := ps.foldl (fun o p => assocSet p.1 ((use p.1).add d p.2) o) ovr
      match placeAll over1 base open_ dies ast d k (n + 1) with
      | none => none
      | some rest => some (ps :: rest)

/-! ## Acceptance (R16, R275, R276, R376) -/

/-- Read bytes under a context's translation, line by line. -/
def State.getBytes (s : State) (w : Who) (va n : Nat) : Except (Nat × XRes × Nat) (List Byte) :=
  match resolve (fun a m => s.places w a m .rd) va (n / 64 + 2) 0 n with
  | .ok ls => .ok (s.readLocs ls)
  | .error e => .error e

/-- A LAUNCHFAULT event to PRIMARY (R302). -/
def State.launchFault (s : State) (cid : Nat) (desc : DWord) (c : Cause) (addr : Nat) : State :=
  s.eventPrimary cid { kind := 9, cause := c.code, pc := desc, addr := BitVec.ofNat 64 addr,
                       backing := (s.ctx cid).backingAt addr }

/-- A CORES launch can be placed on the empty partition (R16); no partition holds more than 49,152 teams. -/
def coresFit (dies : List Nat) (ast : Nat) (d : Desc) : Bool :=
  decide (d.units ≤ 49152) && (placeAll [] (fun _ => {}) (fun _ => true) dies ast d d.units 0).isSome

inductive Accept where
  | malformed
  | busy
  | taken (s : State) (lid : Nat)

/-- Accept a launch of a context from the 2048 bits of its descriptor (R275, R376). DESIGN CHOICE: launches of rung groups count toward the
partition's 65,536, and not toward the context's 4,096 (log 59). -/
def State.accept (s : State) (cid : Nat) (addr : DWord) (v : Nat) : Accept :=
  let d := parseDesc v
  let c := s.ctx cid
  if !descOk v || d.rung || (d.cores && !coresFit (s.part (cid / 1024)).dies c.ast d) then .malformed
  else if 4096 ≤ (s.launches.filter fun l => l.cid == cid && l.ladder.isNone).length ∨ 65536 ≤ (s.launches.filter fun l => l.cid / 1024 == cid / 1024).length then .busy
  else
    let rec_ (ready : Bool) : Accept :=
      .taken { s with launches := s.launches ++ [{ lid := s.nextId, cid, addr, desc := d, acceptAt := s.time, ready, timeOk := d.notBefore == 0 }]
                      nextId := s.nextId + 1 } s.nextId
    if d.depctr = 0 then rec_ true
    else
      match s.getVa c.device d.depctr 4 with
      | .error _ => .malformed
      | .ok bs => rec_ (leVal bs == 0)

/-- The dispatcher's read of DEPCTR at acceptance, of the 2048 bits of a descriptor. -/
def depRead (v : Nat) : List (Nat × Acc) :=
  if descOk v && (parseDesc v).depctr != 0 then [((parseDesc v).depctr, .rd)] else []

/-- LAUNCH (R275). -/
def execLaunch (d a : BitVec 8) (s : State) : Out :=
  scalarGroup (.launch d a) (d.toNat :: pairRegs a) s fun g fr k =>
    let p := g.pair a.toNat
    match addrFault p 64 with
    | some c => s.trapAt g fr k c 0 p
    | none =>
      if g.acquiring || !g.doneBefore g.seq then .next s
      else
        match s.getBytes (s.who g) p.toNat 256 with
        | .error (_, .bad c st, x) => s.trapAt g fr k c 0 (BitVec.ofNat 64 x) st
        | .error (_, .wait (some e), _) => .next (s.post e)
        | .error _ => .next s
        | .ok bs =>
          let done (t : State) (st : Word) : Out := .next (t.put (g.setS d.toNat st) k (s.fall fr))
          s.serveFirst (s.ctx (s.who g).cid) (depRead (leVal bs)) (fun t => t) fun s =>
            match s.accept (s.who g).cid p (leVal bs) with
            | .malformed => done s 1
            | .busy => done s 2
            | .taken t _ => done t 0

/-! ## Which launch starts (R276, R376) -/

/-- R278: no team has started by NOTBEFORE + WINDOW. -/
def State.missed (s : State) (l : Launch) : Bool :=
  l.desc.notBefore != 0 && l.desc.window != 0 && !l.started && decide (l.desc.notBefore + l.desc.window < s.time)

/-- Eligible launches of contexts that run, with save memory (R276, R358, R376, R380). -/
def State.eligible (s : State) (l : Launch) : Bool :=
  let c := s.ctx l.cid
  l.ready && l.timeOk && decide (l.desc.notBefore ≤ s.time) && l.held.isNone && l.ending.isNone && decide (l.next < l.desc.units) &&
    (match l.gang with | some g => g.committed | none => true) && !(s.missed l && l.desc.policy != 0) &&
    (c.st == .guarded || c.st == .offered || c.st == .orphaned) && decide (saveNeed ≤ c.saveSize.toNat)

/-- The order of the dispatcher. -/
def ahead (a b : Launch) : Bool :=
  decide (b.desc.prio < a.desc.prio) ||
    (a.desc.prio == b.desc.prio && (decide (a.acceptAt < b.acceptAt) || (a.acceptAt == b.acceptAt && decide (a.lid < b.lid))))

/-- The holder of the block, and whether a launch is held by it. -/
def State.holder (s : State) (part : Nat) : Option Launch :=
  let bs := s.launches.filter fun l => l.blocking && s.eligible l && l.cid / 1024 == part
  bs.find? fun l => bs.all fun m => m.lid == l.lid || ahead l m
def State.heldBack (s : State) (l : Launch) : Bool :=
  match s.holder (l.cid / 1024) with
  | some h => h.lid != l.lid && decide (l.desc.prio ≤ h.desc.prio)
  | none => false

/-- A launch waits for a core against a context that drains there: another context's, eligible, of its PRIO or higher. -/
def State.drainsAt (s : State) (core cid : Nat) : Bool := s.slices.any fun x => x.core == core && x.cid == cid && x.draining
def State.waitedFor (s : State) (core cid prio : Nat) : Bool :=
  s.launches.any fun m => m.cid != cid && m.cid / 1024 == cid / 1024 && decide (prio ≤ m.desc.prio) && s.eligible m && !s.drainsAt core m.cid

/-- Saved groups of a core come back before a team of lower PRIO starts there (R362); a context that drains there starts
none while a launch waits (R360). -/
def State.coreOpen (s : State) (l : Launch) (core : Nat) : Bool :=
  !(s.drainsAt core l.cid && s.waitedFor core l.cid l.desc.prio) &&
    !(s.groups.any fun g => g.saved && g.core == core &&
      (match s.team g.team with | some t => (g.urgent || t.halt.isNone) && decide (l.desc.prio < (s.descOf t).prio) | none => false))

/-- Where the next unit of a launch goes; all units of a CORES grid at once; a gang launch keeps its reservation. -/
def State.placement (s : State) (l : Launch) : Option (List (List (Nat × List Nat))) :=
  let dies := (s.part (l.cid / 1024)).dies
  let ast := (s.ctx l.cid).ast
  let s0 := { s with launches := s.launches.map fun (m : Launch) =>
    if m.lid == l.lid then { m with gang := m.gang.map fun (g : GangLaunch) => { g with places := [] } } else m }
  if l.desc.cores then placeAll [] s0.usage (s.coreOpen l) dies ast l.desc (l.desc.units - l.next) l.next
  else (placeUnit s0.usage (s.coreOpen l) dies ast l.desc l.next).map fun u => [u]

/-- The dependence counter reads 0 as the first team starts (R276): both of its conditions hold at once. -/
def State.depClear (s : State) (l : Launch) : Bool :=
  l.started || l.desc.depctr == 0 || (match s.getVa (s.ctx l.cid).device l.desc.depctr 4 with | .ok bs => leVal bs == 0 | .error _ => false)

/-- The launch whose units start now: the first in order that fits and that nothing holds back. -/
def State.canStart (s : State) (l : Launch) : Bool := s.eligible l && s.depClear l && !s.heldBack l && (s.placement l).isSome
def State.mayStart (s : State) (l : Launch) : Bool :=
  s.canStart l && !(s.launches.any fun m => m.lid != l.lid && m.cid / 1024 == l.cid / 1024 && ahead m l && s.canStart m)

/-! ## The start of teams (R13, R19, R20, R54, R259) -/

def freshGroup (d : Desc) (core slot tid n : Nat) : Group where
  core := core
  slot := slot
  team := tid
  grp := n
  sregs := (d.init ++ List.replicate (32 * d.sregs) 0).take (32 * d.sregs)
  vregs := List.replicate (min (8 * d.lregs) 255) (List.replicate 32 0)
  masks := List.replicate 15 0
  rejoin := List.replicate 8 {}
  flags := List.replicate 12 0
  sealed_ := List.replicate 8 []
  slot0 := some { mask := 0xFFFFFFFF, exec := 0xFFFFFFFF, pc := d.entry }
  bars := List.replicate 16 {}
  cbars := List.replicate 4 {}

def freshTeam (l : Launch) (tid kid core slot rank index x y z now : Nat) : Team where
  tid := tid
  lid := l.lid
  cid := l.cid
  index := index
  x := BitVec.ofNat 32 x
  y := BitVec.ofNat 32 y
  z := BitVec.ofNat 32 z
  rank := rank
  cluster := kid
  core := core
  slot := slot
  size := l.desc.groups
  window := 4096 * l.desc.stash
  acc := List.replicate l.desc.acc []
  issued := now

/-- Start the teams of one unit at its places. -/
def State.startUnit (s : State) (l : Launch) (n : Nat) (places : List (Nat × List Nat)) : State :=
  let d := l.desc
  match d.unitXyz n with
  | (x0, y0, z) =>
    let kid := s.nextId
    let mk (r : Nat) (p : Nat × List Nat) : Team × List Group :=
      let x := x0 + r % d.cw
      let y := y0 + r / d.cw
      let tid := s.nextId + 1 + r
      (freshTeam l tid kid p.1 (p.2.headD 0) r (x + d.gx * (y + d.gy * z)) x y z s.time, p.2.mapIdx fun m slot => freshGroup d p.1 slot tid m)
    let made := places.mapIdx mk
    { s with
      clusters := s.clusters ++ [{ kid, lid := l.lid, size := places.length }]
      teams := s.teams ++ made.map fun p => p.1
      groups := s.groups ++ made.flatMap fun p => p.2
      nextId := s.nextId + 1 + places.length }

def State.startUnits (s : State) (l : Launch) : Nat → List (List (Nat × List Nat)) → State
  | _, [] => s
  | n, u :: us => (s.startUnit l n u).startUnits l (n + 1) us

/-- A core's slices begin for a context with its first team there; a context that has drained for it may start again
(R360). -/
def State.touchSlice (s : State) (core cid : Nat) : State :=
  let free := s.slices.map fun (x : Slice) => if x.core == core && x.cid != cid then { x with draining := false } else x
  { s with slices := if free.any fun x => x.core == core && x.cid == cid then free else free ++ [{ core, cid, since := s.time, length := (s.ctx cid).slice.toNat }] }

def State.startLaunch (s : State) (l : Launch) (us : List (List (Nat × List Nat))) : State :=
  let s1 := s.startUnits l l.next us
  let s2 := s1.setLaunch { l with next := l.next + us.length, started := true, blocking := false, passedAt := none,
                                  gang := l.gang.map fun (g : GangLaunch) => { g with places := [], started := true } }
  us.flatten.foldl (fun (u : State) (p : Nat × List Nat) => u.touchSlice p.1 l.cid) s2

def startOf (launch : Nat) (clustered : Bool) (name : String) (s : State) : Out :=
  match s.launch launch with
  | none => .refused (.notArisen name)
  | some l =>
    if l.ladder.isSome || l.desc.clustered != clustered || !s.mayStart l then .refused (.notArisen name)
    else
      match s.placement l with
      | some us => .next (s.startLaunch l us)
      | none => .refused (.notArisen name)

def execTeamStart (launch : Nat) (s : State) : Out := startOf launch false "TEAM_START" s
def execClusterStart (launch : Nat) (s : State) : Out := startOf launch true "CLUSTER_START" s

/-! ## Retirement (R31, R32, R200, R210) -/

def State.teamDone (s : State) (t : Team) : Bool :=
  !t.retired && !(s.groups.any fun g => g.team == t.tid && !g.over) && !t.stream.running && !(s.copies.any fun c => c.team == t.tid) &&
    t.halt.isNone && t.queued.isEmpty

/-- The windows of a cluster are released when every team of it has retired. -/
def State.dropTeams (s : State) (kid : Nat) : State :=
  match s.cluster kid with
  | none => s
  | some c =>
    let ts := s.teams.filter fun t => t.cluster == kid
    if ts.length = c.size ∧ ts.all (fun t => t.retired) then
      { s with teams := s.teams.filter fun t => t.cluster != kid, clusters := s.clusters.filter fun k => k.kid != kid }
    else s

/-- A slice ends with its context's last team on the core. -/
def State.dropSlices (s : State) : State :=
  { s with slices := s.slices.filter fun p => p.draining || s.teams.any fun t => t.core == p.core && t.cid == p.cid && !t.retired }

def execTeamRetire (team : Nat) (s : State) : Out :=
  match s.team team with
  | none => .refused (.notArisen "TEAM_RETIRE")
  | some t =>
    if !s.teamDone t then .refused (.notArisen "TEAM_RETIRE")
    else
      let s1 := { s.endMaps team with groups := s.groups.filter fun g => g.team != team }
      let s2 := s1.setTeam { (s1.team team).getD t with retired := true }
      let s3 := match s2.launch t.lid with
        | some l =>
          let n := l.retired + 1
          s2.setLaunch { l with retired := n, ending := if n = l.desc.gx * l.desc.gy * l.desc.gz && l.ending.isNone then some .complete else l.ending }
        | none => s2
      .next ((s3.dropTeams t.cluster).dropSlices)

/-! ## The end of a launch (R33, R34, R276, R375) -/

/-- The line of an arena page at an address. -/
def State.arenaLine (s : State) (aid va : Nat) : Option Nat :=
  match s.walkVa aid va with
  | .leaf l => if l.kind = 2 then some (lineOf aid (l.gpa + (va - l.base))) else none
  | _ => none
/-- Every copy of a line is written back and dropped, a private one too (R340). -/
def State.recall (s : State) (line : Nat) : State := (s.untrack fun x => x == line).evict line

/-- The team arenas of a grid are reset (R33 step 2, R312, R340): their copies are written back and dropped, and the region entries that
hold nothing else are free, before the owner changes; no line is published; the charges fall (R223). -/
def State.resetArenas (s : State) (l : Launch) : State :=
  let aid := (s.ctx l.cid).aid
  let len := (l.cursor + 4095) / 4096 * 4096
  let lines := (List.range (len / 128)).filterMap fun n => s.arenaLine aid (l.desc.arenaBase + 128 * n)
  let s0 := lines.foldl State.recall s
  let s1 := { s0 with regions := s0.regions.filter fun r => lines.isEmpty || !(List.range r.lines).all fun i => lines.contains (r.base + i) }
  let s2 := if len = 0 then s1
    else (s1.editRange aid (fun e => if eKind e = 2 then asArena 0xFFFF e else e) (2 * (len / 4096) + 8) l.desc.arenaBase len).tlbDrop aid l.desc.arenaBase len
  let s3 := lines.foldl (fun (u : State) (x : Nat) => if u.linePub aid (lineGpa x) then u.setPub aid (lineGpa x) false else u) s2
  l.charges.foldl (fun (u : State) (p : Nat × Nat) =>
    let c := u.ctx l.cid
    u.setCtx { c with usage := c.usage.set p.1 (BitVec.ofNat 32 (c.use p.1 - p.2)) }) s3

def EndStatus.code : EndStatus → Nat
  | .complete => 0
  | .aborted => 1
  | .skipped => 2

/-- A successor's counter falls by 1, an atomic, and its launches whose counter is now 0 become ready (R276). -/
def State.decrement (s : State) (l : Launch) (va : Nat) : State :=
  let c := s.ctx l.cid
  match s.places c.device va 4 .at with
  | .error (.bad k _, a) => s.launchFault l.cid l.addr k a
  | .error (_, a) => s.launchFault l.cid l.addr .page a
  | .ok ls =>
    let v := leVal (s.readLocs ls)
    let s1 := if v = 0 then s else s.storeAway (ls.zip (leBytes 4 (v - 1)))
    if v ≤ 1 then
      { s1 with launches := s1.launches.map fun (m : Launch) => if m.cid == l.cid && m.desc.depctr == va then { m with ready := true } else m }
    else s1

/-- A vector of a port's MSI-X table; one that no host has written is masked, as PCIe has it after reset (PRESUMED, log 60). -/
def Dev.vector (d : Dev) (port vec : Nat) : MsixVec := (d.vectors.find? fun v => v.port == port && v.vec == vec).getD { port, vec }
def Dev.setVector (d : Dev) (v : MsixVec) : Dev := { d with vectors := upsert (fun x => x.port == v.port && x.vec == v.vec) v d.vectors }
/-- The MSI-X message of a submission; a port without link drops it, a masked vector keeps it pending (R375). -/
def State.msixSend (s : State) (p : Nat × Nat) : State :=
  let v := s.dev.vector p.1 p.2
  if !s.dev.portUp.getD p.1 false then s
  else if v.masked then { s with dev := s.dev.setVector { v with pending := true } }
  else { s with dev := { s.dev with msix := s.dev.msix ++ [p] } }

def State.finishLaunch (s : State) (l : Launch) (st : EndStatus) : State :=
  let c := s.ctx l.cid
  let s1 := (s.hostRelease c.aid).resetArenas l
  let s2 := if l.desc.signal = 0 then s1
    else
      match s1.putVa c.device l.desc.signal (leBytes 8 (st.code * 2 ^ 56 + s1.time % 2 ^ 56)) with
      | .ok t => t
      | .error (k, a) => s1.launchFault l.cid l.addr k a
  let s3 := (l.desc.succ.filter fun a => a != 0).foldl (fun (u : State) (a : Nat) => u.decrement l a) s2
  let s4 := match l.msix with | some p => s3.msixSend p | none => s3
  { s4 with launches := s4.launches.filter (fun m => m.lid != l.lid), dev := { s4.dev with lostPeers := s4.dev.lostPeers.filter fun p => p.1 != l.lid } }

/-- The signal word and the successors' counters (R33 steps 3 and 4). -/
def Desc.endAccesses (d : Desc) : List (Nat × Acc) :=
  (if d.signal = 0 then [] else [(d.signal, Acc.wr)]) ++ (d.succ.filter fun a => a != 0).map fun a => (a, Acc.at)

def execLaunchEnd (launch : Nat) (s : State) : Out :=
  match s.launch launch with
  | none => .refused (.notArisen "LAUNCH_END")
  | some l =>
    match l.ending with
    | some st =>
      if (s.launchTeams launch).isEmpty then
        s.serveFirst (s.ctx l.cid) l.desc.endAccesses (fun t => t) fun t => .next (t.finishLaunch l st)
      else .refused (.notArisen "LAUNCH_END")
    | none => .refused (.notArisen "LAUNCH_END")

/-! ## Waiting launches (R276, R278, R376, R379) -/

/-- The first read of a launch's counter that faults after acceptance sends PRIMARY an event. -/
def State.depEvent (s : State) (l : Launch) (c : Cause) (addr : Nat) : State := if l.depFault then s else s.launchFault l.cid l.addr c addr
/-- The counter of a launch that has not started is read again: it is ready while the counter reads 0; a read that faults counts as
another value (R276). -/
def execDepctrPoll (launch : Nat) (s : State) : Out :=
  let no : Out := .refused (.notArisen "DEPCTR_POLL")
  match s.launch launch with
  | none => no
  | some l =>
    if l.desc.depctr = 0 || l.started || l.ending.isSome then no
    else
      s.serveFirst (s.ctx l.cid) [(l.desc.depctr, .rd)] (fun t => t) fun s =>
        match s.getVa (s.ctx l.cid).device l.desc.depctr 4 with
        | .ok bs => if (leVal bs == 0) != l.ready then .next (s.setLaunch { l with ready := leVal bs == 0 }) else no
        | .error (k, a) => if l.ready then .next ((s.setLaunch { l with ready := false, depFault := true }).depEvent l k a)
          else if l.depFault then (if s.ats.any fun q => q.1 == 0 && q.2.1 == 384 && q.2.2.1 == l.cid then .next s else no)
          else .next ((s.setLaunch { l with depFault := true }).launchFault l.cid l.addr k a)

def execNotbeforeReached (launch : Nat) (s : State) : Out :=
  match s.launch launch with
  | none => .refused (.notArisen "NOTBEFORE_REACHED")
  | some l =>
    if !l.timeOk && decide (l.desc.notBefore ≤ s.time) && l.ending.isNone then .next (s.setLaunch { l with timeOk := true })
    else .refused (.notArisen "NOTBEFORE_REACHED")

/-- A missed slot under SKIP and FAULT; RUN_LATE starts as usual. -/
def execMissedSlot (launch : Nat) (s : State) : Out :=
  match s.launch launch with
  | none => .refused (.notArisen "MISSED_SLOT")
  | some l =>
    let committed := match l.gang with | some g => g.committed | none => true
    if !s.missed l || l.ending.isSome || l.held.isSome || l.desc.policy == 0 || !committed then .refused (.notArisen "MISSED_SLOT")
    else if l.desc.policy = 1 then .next (s.setLaunch { l with ending := some .skipped })
    else
      match s.placeFault l.cid { fid := 0, team := none, lid := l.lid, target := none, park := false, cause := .gang, kind := 4, addr := l.addr,
                                 pc := 0, lanes := 0, backing := 15 } with
      | (s1, fid) => .next ((s1.setLaunch { l with held := some fid }).suspendIf l.cid)

/-- A launch is passed over from the moment its next team does not fit; after 10 ms in a row it is BLOCKING. -/
def execLaunchBlocking (launch : Nat) (s : State) : Out :=
  let no : Out := .refused (.notArisen "LAUNCH_BLOCKING")
  match s.launch launch with
  | none => no
  | some l =>
    if l.blocking || !s.eligible l || (s.placement l).isSome then no
    else
      match l.passedAt with
      | none => .next (s.setLaunch { l with passedAt := some s.time })
      | some t => if t + 10000000 ≤ s.time then .next (s.setLaunch { l with blocking := true }) else no

end Sys2Proof.Machine
end

