-- ==== Sys2Proof/Machine/Ladders.lean ====
section
/-! DEFINITION. Ladders: LADR, LFEED, LCLOSE, ESC, LRET, LWAIT, and the packing of rung groups (R253-R268). -/

namespace Sys2Proof.Machine

def Context.ladder (c : Context) (n : Nat) : Ladder := c.ladders.getD n {}
def State.setLadder (s : State) (cid n : Nat) (x : Ladder) : State :=
  let c := s.ctx cid
  s.setCtx { c with ladders := c.ladders.set n x }

/-- DETAIL of LADDER (R344): reason, slot, array position. -/
def ladderDetail (reason slot pos : Nat) : DWord := BitVec.ofNat 64 (reason + slot * 2 ^ 8 + pos * 2 ^ 32)

/-! ## Items (R255, R265) -/

def Ladder.item (x : Ladder) (i : Nat) : Option ItemState := (x.items.find? fun p => p.1 == i).map fun p => p.2
def Ladder.setItem (x : Ladder) (i : Nat) (v : ItemState) : Ladder := { x with items := assocSet i v x.items }
def ItemState.liveAt (r : Nat) : ItemState → Bool
  | .pending n => n == r
  | .running n => n == r
  | .retired => false
def ItemState.live : ItemState → Bool
  | .retired => false
  | _ => true
def Ladder.anyLive (x : Ladder) : Bool := x.items.any fun p => p.2.live
/-- A live item stands at a rung below r. -/
def Ladder.liveBelow (x : Ladder) (r : Nat) : Bool := x.items.any fun p => (List.range r).any fun n => p.2.liveAt n
def Ladder.retiredItem (x : Ladder) (i : Nat) : Bool := x.item i == some .retired
/-- The done-prefix: the first item that is not RETIRED. -/
def Ladder.prefixDone (x : Ladder) : Nat := ((List.range x.capacity).find? fun i => !x.retiredItem i).getD x.capacity
/-- CLOSED becomes DONE when no item is live. -/
def Ladder.settle (x : Ladder) : Ladder := if x.st == .closed && !x.anyLive then { x with st := .done } else x

def Ladder.rung (x : Ladder) (r : Nat) : Option Rung := x.rungs[r]?
/-- Arrivals of one device time from several instructions stand in increasing core id (R264). -/
def arrivalIn (a : Nat × Nat × Nat) : List (Nat × Nat × Nat) → List (Nat × Nat × Nat)
  | [] => [a]
  | b :: bs => if b.2.1 = a.2.1 ∧ a.2.2 < b.2.2 then a :: b :: bs else b :: arrivalIn a bs
/-- An item arrives at a rung at a device time, from a core (R263). -/
def Ladder.arrive (x : Ladder) (i r now core : Nat) : Ladder :=
  match x.rung r with
  | some u => { x.setItem i (.pending r) with rungs := x.rungs.set r { u with pend := arrivalIn (i, now, core) u.pend } }
  | none => x

/-! ## LADR (R253, R254, R256) -/

/-- A rung entry and its malformed cases. -/
def rungEntry (v r : Nat) : Nat := bitsOf v (512 + 128 * r) 128
def rungEntryOk (r e : Nat) : Bool :=
  bitsOf e 110 18 == 0 && bitsOf e 102 2 == 0 && bitsOf e 56 8 == 0 && decide (1 ≤ bitsOf e 96 6 ∧ bitsOf e 96 6 ≤ 32) &&
    decide (bitsOf e 104 5 ≤ 16) && (r != 0 || bitsOf e 104 5 == 0) && bitsOf e 0 56 % 64 == 0

/-- The first five malformed cases, on the 2048 bits of the descriptor. -/
def ladderOk (v : Nat) : Bool :=
  let top := bitsOf v 160 3
  bitsOf v 173 339 == 0 && bitsOf v 164 4 == 0 && bitsOf v 149 11 == 0 && bitsOf v 120 8 == 0 && bitsOf v 56 8 == 0 && bitsOf v 1536 512 == 0 &&
    decide (4 ≤ bitsOf v 168 5 ∧ bitsOf v 168 5 ≤ 6) && decide (1 ≤ bitsOf v 128 21 ∧ bitsOf v 128 21 ≤ 1048576) &&
    bitsOf v 0 56 % (if bitsOf v 163 1 = 1 then 8 else 4) == 0 && bitsOf v 64 56 % 128 == 0 &&
    (List.range 8).all fun r => if r ≤ top then rungEntryOk r (rungEntry v r) else rungEntry v r == 0

def rungOf (e : Nat) (d : Nat) : Rung where
  nostore := bitsOf e 109 1 == 1
  frame := bitsOf e 104 5
  fill := bitsOf e 96 6
  limit := bitsOf e 64 32
  desc := parseDesc d
  addr := BitVec.ofNat 64 (bitsOf e 0 56)

/-- The launch descriptors of rungs from r on, in rung order. -/
def State.rungDescs (s : State) (w : Who) (v : Nat) : Nat → Nat → Except (Nat × XRes × Nat) (List Nat)
  | 0, _ => .ok []
  | n + 1, r =>
    match s.getBytes w (bitsOf (rungEntry v r) 0 56) 256 with
    | .error e => .error e
    | .ok bs =>
      match s.rungDescs w v n (r + 1) with
      | .error e => .error e
      | .ok rest => .ok (leVal bs :: rest)

def execLadr (n : BitVec 4) (a : BitVec 8) (s : State) : Out :=
  scalarGroup (.ladr n a) (pairRegs a) s fun g fr k =>
    let p := g.pair a.toNat
    let w := s.who g
    let c := s.ctx w.cid
    let x := c.ladder n.toNat
    let bad (reason : Nat) : Out := s.trapAt g fr k .ladder (ladderDetail reason n.toNat 0) 0
    let fault (e : Nat × XRes × Nat) : Out :=
      match e with
      | (_, .bad c st, y) => s.trapAt g fr k c 0 (BitVec.ofNat 64 y) st
      | (_, .wait (some e), _) => .next (s.post e)
      | _ => .next s
    match addrFault p 256 with
    | some e => s.trapAt g fr k e 0 p
    | none =>
      if x.st == .open_ || x.st == .closed then bad 4
      else if g.acquiring || !g.doneBefore g.seq then .next s
      else
        match s.getBytes w p.toNat 256 with
        | .error e => fault e
        | .ok bs =>
          let v := leVal bs
          let top := bitsOf v 160 3
          if !ladderOk v then bad 7
          else
            match s.rungDescs w v (top + 1) 0 with
            | .error e => fault e
            | .ok ds =>
              let rungs := ds.mapIdx fun r d => rungOf (rungEntry v r) d
              if ds.all rungDescOk && (rungs.mapIdx fun r (u : Rung) => r == 0 || decide (u.frame ≤ 8 * u.desc.lregs)).all id then
                let y : Ladder := { st := .open_, scope := BitVec.ofNat 5 (bitsOf v 168 5), rsz8 := bitsOf v 163 1 == 1,
                                    capacity := bitsOf v 128 21, frames := bitsOf v 64 56, results := bitsOf v 0 56, rungs }
                .next ((s.setLadder w.cid n.toNat y).put g k (s.fall fr))
              else bad 7

/-! ## LFEED, LCLOSE (R257, R258) -/

/-- Feed from a position on; a fault keeps what has been fed, the position, and the array that was begun. -/
def State.feed (s : State) (g : Group) (fr : Fragment) (k : Nat) (slot base count : Nat) : Nat → Nat → Out
  | 0, _ => .next (s.put g k (s.fall fr))
  | fuel + 1, pos =>
    if count ≤ pos then .next (s.put g k (s.fall fr))
    else
      let w := s.who g
      let va := (base + 4 * pos) % 2 ^ 64
      let at_ := { fr with wait := some (.feed pos (BitVec.ofNat 64 base) count) }
      let stop (u : State) : State := u.put g k at_
      let trap (c : Cause) (d : DWord) (x : Nat) (st : Bool) : Out := (stop s).trapAt g at_ k c d (BitVec.ofNat 64 x) st
      if 2 ^ 56 ≤ va then trap .page (BitVec.ofNat 64 (pos * 2 ^ 32)) va false
      else if va % 4 ≠ 0 then trap .align 0 va false
      else
        match s.places w va 4 .rd with
        | .error (.bad c st, x) => trap c (BitVec.ofNat 64 (pos * 2 ^ 32)) x st
        | .error (.wait (some e), _) => .next (stop (s.post e))
        | .error (_, _) => .next (stop s)
        | .ok ls =>
          let i := leVal (s.readLocs ls)
          let x := (s.ctx w.cid).ladder slot
          if x.capacity ≤ i ∨ (x.item i).isSome then trap .ladder (ladderDetail 6 slot pos) 0 false
          else (s.setLadder w.cid slot (x.arrive i 0 s.time g.core)).feed g fr k slot base count fuel (pos + 1)

/-- The slot is checked, and the registers are read, once: a word that goes on, after a wait or a replay, goes on in its array. -/
def execLfeed (n : BitVec 4) (a b : BitVec 8) (s : State) : Out :=
  scalarGroup (.lfeed n a b) (pairRegs a ++ [b.toNat]) s fun g fr k =>
    let w := s.who g
    let x := (s.ctx w.cid).ladder n.toNat
    match fr.wait with
    | some (.feed pos base count) => s.feed g fr k n.toNat base.toNat count (count + 1) pos
    | _ =>
      let count := (g.s b.toNat).toNat
      let base := (g.pair a.toNat).toNat
      if 65536 < count then s.trapAt g fr k .illegal 0 0
      else if x.st != .open_ then s.trapAt g fr k .ladder (ladderDetail 5 n.toNat 0) 0
      else if g.acquiring || !g.doneBefore g.seq || s.copyBlocks w base (4 * count) false then .next s
      else (s.releaseAt w.aid x.scope).feed g fr k n.toNat base count (count + 1) 0

def execLclose (n : BitVec 4) (s : State) : Out :=
  scalarGroup (.lclose n) [] s fun g fr k =>
    let cid := (s.who g).cid
    let x := (s.ctx cid).ladder n.toNat
    if x.st != .open_ then s.trapAt g fr k .ladder (ladderDetail 5 n.toNat 0) 0
    else .next ((s.setLadder cid n.toNat { x with st := .closed }.settle).put g k (s.fall fr))

/-! ## Rung bodies: ESC, LRET (R259-R262) -/

/-- %rung: VALID, slot and rung. -/
def Group.rungValid (g : Group) : Bool := g.rung.getLsbD 31
def Group.rungSlot (g : Group) : Nat := bitsOf g.rung.toNat 8 4
def Group.rungNo (g : Group) : Nat := bitsOf g.rung.toNat 0 3
def Group.holds_ (g : Group) (l : Nat) : Option Nat := g.items.getD l none
/-- The lanes lose their items, and their bits of m0. -/
def Group.handOver (g : Group) (lanes : Mask) : Group :=
  { g with items := g.items.mapIdx fun l o => if inMask lanes l then none else o }
def laneReg (g : Group) (v l : Nat) : Word := (g.vregs.getD v []).getD l 0

/-- What ESC and LRET check and wait for in common; `body` takes the lanes with their items. -/
def rungBody (i : Instr) (c : BitVec 4) (regs : Ladder → Nat → Option Nat) (top : Bool) (s : State)
    (body : Group → Fragment → Nat → Ladder → Mask → List (Nat × Nat) → Out) : Out :=
  scalarGroup i [] s fun g fr k =>
    let x := (s.ctx (s.who g).cid).ladder g.rungSlot
    match regs (if g.rungValid then x else {}) g.rungNo with
    | none => s.trapAt g fr k .illegal 0 0
    | some past =>
      let bad (reason : Nat) : Out := s.trapAt g fr k .ladder (ladderDetail reason (if g.rungValid then g.rungSlot else 0) 0) 0
      if g.vregs.length < past then s.trapAt g fr k .illegal 0 0
      else if !g.clausesDone fr || g.maskWait [c.toNat, 0] then .next s
      else if !g.rungValid then bad 5
      else
        let lanes := fr.exec &&& (if c = 0 then 0xFFFFFFFF else g.mask fr c.toNat)
        if lanes == 0 then .next (s.put g k (s.fall fr))
        else if top && g.rungNo + 1 == x.rungs.length then bad 1
        else if (lanesOf lanes).any fun l => (g.holds_ l).isNone then bad 2
        else if g.acquiring || !g.doneBefore g.seq then .next s
        else body g fr k x lanes ((lanesOf lanes).filterMap fun l => (g.holds_ l).map fun n => (l, n))

/-- The registers up to which ESC reads: va + F, F the FRAME of the next rung, no check at the top or outside a rung group. -/
def escRegs (va : Nat) (x : Ladder) (r : Nat) : Option Nat :=
  match x.rung (r + 1) with
  | some u => some (va + u.frame)
  | none => some 0

/-- The 128 bytes of a frame. -/
def frameWords (t : Team) (scope : BitVec 5) : List Nat :=
  [headerWord0 0 (t.core * 128 + t.slot) 1 + scope.toNat * 2 ^ 21 + 2 ^ 20, headerWord1 0 0]
def framePayload (g : Group) (va n l : Nat) : List Byte :=
  (List.range 28).flatMap fun j => leBytes 4 (if j < n then (laneReg g (va + j) l).toNat else 0)

/-- Write the frames, lane by lane; then the arrivals. -/
def State.escFrames (s : State) (g : Group) (fr : Fragment) (k : Nat) (t : Team) (x : Ladder) (va n : Nat) (done : State → Out) :
    List (Nat × Nat) → Out
  | [] => done s
  | (l, i) :: rest =>
    let a := x.frames + 128 * i
    if 2 ^ 56 ≤ a then s.trapAt g fr k .page 0 (BitVec.ofNat 64 a)
    else
      match s.places (s.who g) a 128 .wr with
      | .error (.bad c st, y) => s.trapAt g fr k c 0 (BitVec.ofNat 64 y) st
      | .error (.wait (some e), _) => .next (s.post e)
      | .error (_, _) => .next s
      | .ok ls =>
        match ls, frameWords t x.scope with
        | h :: _, [w0, w1] =>
          let s1 := (s.storeAway ((ls.drop 16).zip (framePayload g va n l))).putTagged h w0
          (s1.putTagged (h.plus 8) w1).escFrames g fr k t x va n done rest
        | _, _ => done s

def execEsc (c : BitVec 4) (v : BitVec 8) (s : State) : Out :=
  rungBody (.esc c v) c (escRegs v.toNat) true s fun g fr k x lanes its =>
    match s.team g.team with
    | none => .fault .noAgent
    | some t =>
      let n := match x.rung (g.rungNo + 1) with | some u => u.frame | none => 0
      s.escFrames g fr k t x v.toNat n (fun u =>
        let u1 := u.releaseAt (u.who g).aid x.scope
        let y := its.foldl (fun (y : Ladder) p => y.arrive p.2 (g.rungNo + 1) u.time g.core) ((u1.ctx t.cid).ladder g.rungSlot)
        .next ((u1.setLadder t.cid g.rungSlot y).put (g.handOver lanes) k { u1.fall fr with exec := fr.exec &&& ~~~lanes })) its

/-- The result slots of the lanes: places and bytes (R261). -/
def State.results (s : State) (g : Group) (x : Ladder) (va : Nat) : List (Nat × Nat) → Except (XRes × Nat) (List (List (Loc × Byte)))
  | [] => .ok []
  | (l, i) :: rest =>
    let n := if x.rsz8 then 8 else 4
    let a := x.results + n * i
    if 2 ^ 56 ≤ a then .error (.bad .page false, a)
    else
      match s.places (s.who g) a n .wr with
      | .error e => .error e
      | .ok ls =>
        match s.headerAt (BitVec.ofNat 64 a) ls with
        | some h => .error (.bad .prot false, h.toNat)
        | none =>
          match s.results g x va rest with
          | .error e => .error e
          | .ok more =>
            .ok (ls.zip (leBytes 4 (laneReg g va l).toNat ++ if x.rsz8 then leBytes 4 (laneReg g (va + 1) l).toNat else []) :: more)

/-- The registers up to which LRET reads, or ILLEGAL for an odd register of an 8-byte result. -/
def lretRegs (va : Nat) (x : Ladder) (_ : Nat) : Option Nat :=
  if x.rsz8 then (if va % 2 = 1 then none else some (va + 2)) else some (va + 1)

def execLret (c : BitVec 4) (v : BitVec 8) (s : State) : Out :=
  rungBody (.lret c v) c (lretRegs v.toNat) false s fun g fr k x lanes its =>
    let w := s.who g
    let store := match x.rung g.rungNo with | some u => !u.nostore | none => false
    match (if store then s.results g x v.toNat its else .ok []) with
    | .error (.bad c st, y) => s.trapAt g fr k c 0 (BitVec.ofNat 64 y) st
    | .error (.wait (some e), _) => .next (s.post e)
    | .error (_, _) => .next s
    | .ok rs =>
      if store && its.any fun p => s.copyBlocks w (x.results + (if x.rsz8 then 8 else 4) * p.2) (if x.rsz8 then 8 else 4) true then .next s
      else
        let s1 := (rs.foldl State.storeAway s).releaseAt w.aid x.scope
        let y := (its.foldl (fun (y : Ladder) p => y.setItem p.2 .retired) ((s1.ctx w.cid).ladder g.rungSlot)).settle
        .next ((s1.setLadder w.cid g.rungSlot y).put (g.handOver lanes) k { s1.fall fr with exec := fr.exec &&& ~~~lanes })

/-! ## LWAIT (R266) -/

def execLwait (d : BitVec 8) (n : BitVec 4) (b : BitVec 8) (s : State) : Out :=
  scalarGroup (.lwait d n b) [d.toNat, b.toNat] s fun g fr k =>
    let w := s.who g
    let x := (s.ctx w.cid).ladder n.toNat
    let target := (g.s b.toNat).toNat
    if x.st == .free then s.trapAt g fr k .ladder (ladderDetail 5 n.toNat 0) 0
    else if x.capacity < target then s.trapAt g fr k .ladder (ladderDetail 8 n.toNat 0) 0
    else if x.prefixDone < target then .next (s.put g k { fr with wait := some (.lwait d.toNat) })
    else .next ((s.acquireAt w.aid x.scope).put (g.setS d.toNat (BitVec.ofNat 32 x.prefixDone)) k (s.fall fr))

/-! ## Packing (R263, R264) -/

/-- How many of the oldest arrivals launch now: the arrivals are taken one at a time, the rows are tried after each, and an
expiry before the next arrival comes between. The Bool says that the expiry of L launches them. -/
def packing (fill limit now : Nat) (closing : Bool) (first : Nat) : Nat → List Nat → Option (Bool × Nat)
  | k, [] =>
    if k = 0 then none
    else if fill ≤ k ∧ first + limit ≤ now then some (true, k)
    else if closing then some (false, k)
    else none
  | k, t :: ts =>
    if k ≠ 0 ∧ fill ≤ k ∧ first + limit < t then some (true, k)
    else if k + 1 = 32 then some (false, 32)
    else if fill ≤ k + 1 ∧ first + limit ≤ t then some (false, k + 1)
    else packing fill limit now closing first (k + 1) ts

/-- What a rung launches now: the events of the current device time may not all have been gathered, so those before it count, and the
closing row is tried once no arrival of it is left (R263). -/
def Rung.packs (r : Rung) (now : Nat) (closing : Bool) : Option (Bool × Nat) :=
  let times := (r.pend.map fun p => p.2.1).filter fun t => decide (t < now)
  if now = 0 then none else packing r.fill r.limit (now - 1) closing (times.headD 0) 0 times

/-- Launch a group of a rung with its k oldest arrivals. -/
def State.rungLaunch (s : State) (cid slot r : Nat) (u : Rung) (k : Nat) : State :=
  let x := (s.ctx cid).ladder slot
  let its := (u.pend.take k).map fun p => p.1
  let y := its.foldl (fun (y : Ladder) i => y.setItem i (.running r)) { x with rungs := x.rungs.set r { u with pend := u.pend.drop k, launched := u.launched + 1 } }
  let s1 := s.setLadder cid slot y
  { s1 with
    launches := s1.launches ++ [{ lid := s1.nextId, cid, addr := u.addr, desc := u.desc, acceptAt := s1.time, ready := true,
                                  timeOk := true, ladder := some (slot, r, its, u.launched) }]
    nextId := s1.nextId + 1 }

def rungFires (expiry : Bool) (name : String) (cid slot r : Nat) (s : State) : Out :=
  let x := (s.ctx cid).ladder slot
  match x.rung r with
  | none => .refused (.notArisen name)
  | some u =>
    match u.packs s.time (x.st == .closed && !x.liveBelow r && u.pend.all fun p => decide (p.2.1 < s.time)) with
    | none => .refused (.notArisen name)
    | some (e, k) => if e == expiry then .next (s.rungLaunch cid slot r u k) else .refused (.notArisen name)

def execRungLimitExpiry (cid slot rung : Nat) (s : State) : Out := rungFires true "RUNG_LIMIT_EXPIRY" cid slot rung s
def execRungGroupLaunch (cid slot rung : Nat) (s : State) : Out := rungFires false "RUNG_GROUP_LAUNCH" cid slot rung s

/-! ## The start of a rung group (R259, R267) -/

/-- The dispatcher reads payload word j of an item's frame; none while a service of the device is due. A frame that cannot be
read gives a free value (log 33). -/
def State.frameWord (s : State) (w : Who) (x : Ladder) (i j : Nat) : Option Word :=
  match s.places w (x.frames + 128 * i + 16 + 4 * j) 4 .rd with
  | .ok ls => some (BitVec.ofNat 32 (leVal (s.readLocs ls)))
  | .error (.wait _, _) => none
  | .error _ => some (BitVec.ofNat 32 (Config.choice (64 + 32 * i + j) s.free))
def State.frameWait (s : State) (w : Who) (x : Ladder) (its : List Nat) : Option (Option Ev) :=
  its.findSome? fun i => match s.places w (x.frames + 128 * i) 128 .rd with | .error (.wait e, _) => some e | _ => none

/-- The group takes its items, masks and payload. -/
def Group.load (s : State) (g : Group) (w : Who) (x : Ladder) (slot r : Nat) (its : List Nat) : Group :=
  let n := its.length
  let m : Mask := BitVec.ofNat 32 (2 ^ n - 1)
  let f := match x.rung r with | some u => u.frame | none => 0
  { g with
    slot0 := g.slot0.map fun (fr : Fragment) => { fr with exec := m }
    rung := BitVec.ofNat 32 (2 ^ 31 + slot * 2 ^ 8 + r)
    items := (List.range 32).map fun l => its[l]?
    itemIdx := (List.range 32).map fun l => BitVec.ofNat 32 (its.getD l 0)
    vregs := g.vregs.mapIdx fun j v =>
      if j < f then v.mapIdx fun l y => match its[l]? with | some i => (s.frameWord w x i j).getD y | none => y else v }

def execRungGroupStart (launch : Nat) (s : State) : Out :=
  let no : Out := .refused (.notArisen "RUNG_GROUP_START")
  match s.launch launch with
  | none => no
  | some l =>
    match l.ladder, s.mayStart l, s.placement l with
    | some (slot, r, its, count), true, some us =>
      let c := s.ctx l.cid
      let x := c.ladder slot
      let frames := match x.rung r with | some u => u.frame != 0 | none => false
      match (if frames then s.frameWait c.device x its else none) with
      | some (some e) => .next (s.post e)
      | some none => no
      | none =>
        let s1 := (s.acquireAt c.aid x.scope).startLaunch l us
        let tids := (s1.launchTeams launch).map fun t => t.tid
        .next { s1 with
          teams := s1.teams.map fun (t : Team) => if t.lid == launch then { t with x := BitVec.ofNat 32 count } else t
          groups := s1.groups.map fun (g : Group) => if tids.contains g.team then Group.load s1 g c.device x slot r its else g }
    | _, _, _ => no

end Sys2Proof.Machine
end

