-- ==== Sys2Proof/Machine/Mail.lean ====
section
/-! DEFINITION. Mailboxes, parking, service calls, TRAP and BRK (R269-R273, R279-R282). -/

namespace Sys2Proof.Machine

/-! ## Parking (R273) -/

/-- A group leaves its park (R273); on its core, its sleeping fragments sleep on from now (R109). -/
def Group.unpark (now : Nat) (g : Group) : Group :=
  let h := { g with park := none, parkAt := none, token := none, image := none }
  if g.saved || g.parkAt.isNone then h else h.toClock now

/-- The mailbox of a context. -/
def Context.box (c : Context) (mb : Nat) : List DWord := c.mail.getD mb []
def State.setBox (s : State) (cid mb : Nat) (q : List DWord) : State :=
  let c := s.ctx cid
  s.setCtx { c with mail := c.mail.set mb q }

/-- The parked receivers of a mailbox, and the one that parked first. -/
def Group.waitsOn (g : Group) (mb : Nat) : Bool :=
  match g.park with
  | some (.mbrecv n _) => n == mb && g.parkAt.isSome
  | _ => false
def State.receivers (s : State) (cid mb : Nat) : List Group :=
  s.groups.filter fun g => g.waitsOn mb && (match s.team g.team with | some t => t.cid == cid | none => false)
def firstParked : List Group → Option Group
  | [] => none
  | g :: gs =>
    match firstParked gs with
    | some h => if h.parkAt.getD 0 < g.parkAt.getD 0 then some h else some g
    | none => some g

/-- The oldest message goes to the receiver that parked first (R271). -/
def State.serve (s : State) (cid mb : Nat) : State :=
  match (s.ctx cid).box mb, firstParked (s.receivers cid mb) with
  | ref :: rest, some g =>
    (s.setBox cid mb rest).editGroup g.team g.grp fun x =>
      match x.park with | some (.mbrecv _ d) => (x.setPair d ref).unpark s.cycle | _ => x
  | _, _ => s

/-- A group is off-core (R273): its header page is current, and its image is written when it finds room (R359). -/
def State.parked (s : State) (h : Group) : State :=
  let s1 := ({ s with nextId := s.nextId + 1 }.setGroup h).writePage h
  (s1.imageGroup h).getD s1

/-- A parking group is off-core once its clauses have completed and its loads have returned. -/
def execGroupPark (core slot : Nat) (s : State) : Out :=
  let no : Out := .refused (.notArisen "GROUP_PARK")
  match s.group core slot with
  | none => no
  | some g0 =>
    if g0.park.isNone || g0.parkAt.isSome || slot == 128 then no
    else
      let s1 := s.rollback core slot
      match s1.group core slot with
      | none => no
      | some g =>
        if !g.lanesDone || !g.loads.isEmpty then no
        else
          let h := { g.toLeft s1.cycle with parkAt := some s1.nextId }
          let s2 := s1.parked h
          match g.park with
          | some (.mbrecv mb _) => .next (s2.serve (s.who g).cid mb)
          | _ => .next s2

/-! ## Mailboxes (R270-R272) -/

/-- MBSEND: the reference that was checked and published is the one that is enqueued, whatever has been written to its registers
since; a trap leaves the word to be executed anew. -/
def mbsendOp (i : Instr) (d a : BitVec 8) (mb : Nat) (trapf : Bool) (s : State) : Out :=
  scalarGroup i (d.toNat :: pairRegs a) s fun g fr k =>
    let cid := (s.who g).cid
    let ref := g.pair a.toNat
    let out := { fr with wait := none }
    let send (u : State) (r : Nat) : Out :=
      let q := (u.ctx cid).box mb
      if q.length < 256 then .next (((u.setBox cid mb (q ++ [BitVec.ofNat 64 r])).put (g.setS d.toNat 0) k (u.fall fr)).serve cid mb)
      else if trapf then (u.put g k out).trapAt (g.setFrag k out) out k .mailbox (BitVec.ofNat 64 mb) 0
      else .next (u.put (g.setS d.toNat 1) k (u.fall fr))
    if ref = 0 && !(match fr.wait with | some (.walk _ _) | some (.done _ _) => true | _ => false) then send s 0
    else s.publish g fr k 4 ref.toNat send (some d.toNat)

def execMbsend (d a : BitVec 8) (mb : BitVec 6) (s : State) : Out := mbsendOp (.mbsend d a mb) d a mb.toNat false s
def execMbsendTrap (d a : BitVec 8) (mb : BitVec 6) (s : State) : Out := mbsendOp (.mbsendTrap d a mb) d a mb.toNat true s

def execMbrecv (d : BitVec 8) (mb : BitVec 6) (s : State) : Out :=
  scalarGroup (.mbrecv d mb) (pairRegs d) s fun g fr k =>
    let cid := (s.who g).cid
    match (s.ctx cid).box mb.toNat with
    | ref :: rest => .next ((s.setBox cid mb.toNat rest).put (g.setPair d.toNat ref) k (s.fall fr))
    | [] => .next (s.put { g with park := some (.mbrecv mb.toNat d.toNat) } k (s.fall fr))

def execMbpoll (d : BitVec 8) (mb : BitVec 6) (s : State) : Out :=
  scalarGroup (.mbpoll d mb) [d.toNat] s fun g fr k =>
    .next (s.put (g.setS d.toNat (BitVec.ofNat 32 ((s.ctx (s.who g).cid).box mb.toNat).length)) k (s.fall fr))

/-! ## SVC (R279, R280) -/

/-- The action that SVC meets: HANDLE without a handler is FORWARD (R346). -/
def State.svcForward (s : State) (c : Context) : Bool :=
  match s.action c .svc with
  | .forward => true
  | .handle => c.hentry == 0
  | _ => false

def execSvc (v : BitVec 8) (code : BitVec 16) (s : State) : Out :=
  scalarGroup (.svc v code) [] s fun g fr k =>
    let c := s.ctx (s.who g).cid
    let detail : DWord := code.zeroExtend 64
    if g.vregs.length < v.toNat + 4 then s.trapAt g fr k .illegal 0 0
    else if !g.clausesDone fr || g.maskWait [0] then .next s
    else if fr.exec == 0 then .next (s.put g k (s.fall fr))
    else if !(fr.wait == some .forward || s.svcForward c) then s.trapAt g fr k .svc detail 0
    else if c.rq.log2 = 0 ∨ c.rq.error then s.trapAt g fr k .ringerr 0 0
    else if !g.doneBefore g.seq then .next s
    else .next ((s.releaseAt c.aid 5).put { g with park := some (.svc v.toNat code fr.exec fr.pc) } k (s.fall fr))

/-- The request entries: the header, then one for each lane. -/
def svcEntries (g : Group) (ctx : Nat) (seq : Word) (va : Nat) (code : BitVec 16) (lanes : Mask) : List (List Byte) :=
  leBytes 16 (seq.toNat * 2 ^ 8 + 2 ^ 40 + (g.core * 129 + g.slot) * 2 ^ 48 + ctx % 1024 * 2 ^ 64 + popCount lanes * 2 ^ 74 + lanes.toNat * 2 ^ 80
      + code.toNat * 2 ^ 112)
    :: (lanesOf lanes).map fun l => (List.range 4).flatMap fun j => leBytes 4 (laneReg g (va + j) l).toNat

/-- Write entries of a ring of the context from an index on; none when a write faults. -/
def State.putEntries (s : State) (c : Context) (r : Ring) (n : Word) : List (List Byte) → State × Bool
  | [] => (s, true)
  | e :: es =>
    match s.putVa c.device (r.base + 16 * (n.toNat % r.capacity 16)) e with
    | .ok s1 => s1.putEntries c r (n + 1) es
    | .error _ => (s, false)

/-- A ring error of the request ring: ERROR, and a RINGERR event to PRIMARY (R281, R302). -/
def State.ringError (s : State) (cid : Nat) : State :=
  let c := s.ctx cid
  (s.setCtx { c with rq := { c.rq with error := true } }).eventPrimary cid { kind := 3 }

/-- The fragment whose SVC has parked its group. -/
def Group.svcFrag (g : Group) (lanes : Mask) : Nat :=
  match g.slot0 with
  | some f => if f.mask &&& lanes != 0 then 0 else 1
  | none => 1

/-- The request is posted when the ring has room; the first in ORPHANED suspends the context (R304, R394). -/
def execSvcRequestPost (core slot : Nat) (s : State) : Out :=
  let no : Out := .refused (.notArisen "SVC_REQUEST_POST")
  match s.groups.find? fun g => g.core == core && g.slot == slot && g.parkAt.isSome with
  | none => no
  | some g =>
    match g.park, s.team g.team with
    | some (.svc va code lanes pc), some t =>
      let c := s.ctx t.cid
      let n := 1 + popCount lanes
      if g.token.isSome ∨ c.rq.log2 = 0 ∨ c.rq.error ∨ c.rq.capacity 16 < (c.rq.write - c.rq.read).toNat + n then no
      else
        let accs := (List.range n).map fun i => (c.rq.base + 16 * ((c.rq.write + BitVec.ofNat 32 i).toNat % c.rq.capacity 16), Acc.wr)
        s.serveFirst c accs (fun t => t) fun s =>
        match s.putEntries c c.rq c.rq.write (svcEntries g t.cid c.seq va code lanes) with
        | (s1, false) =>
          let k := g.svcFrag lanes
          let back (x : Group) : Group := match x.frag k with | some fr => (x.unpark s.cycle).setFrag k (fr.goto pc) | none => x.unpark s.cycle
          let s2 := (s1.ringError t.cid).editGroup g.team g.grp back
          .next (s2.trapTeam g.team { cause := .ringerr, group := g.grp, pc, culprit := .scalar slot k })
        | (s1, true) =>
          let c1 := s1.ctx t.cid
          let s2 := (s1.setCtx { c1 with rq := { c1.rq with write := c1.rq.write + BitVec.ofNat 32 n }, seq := c1.seq + 1 }).editGroup g.team g.grp
            fun x => { x with token := some (core * 129 + slot) }
          let s3 := s2.eventPrimary t.cid { kind := 2, id := c.seq, pc, lanes }
          if (s3.ctx t.cid).st == .orphaned then
            .next ((s3.markSuspended t.cid (BitVec.ofNat 64 (c.seq.toNat + 8 * 2 ^ 32 + 2 ^ 36))).saveContext t.cid)
          else .next s3
    | _, _ => no

/-! ## TRAP, BRK (R282) -/

def execTrap (code : BitVec 16) (s : State) : Out :=
  scalar (.trap code) [] s fun g fr k => s.trapAt g fr k .trap (code.zeroExtend 64) 0
def execBrk (code : BitVec 16) (s : State) : Out :=
  scalar (.brk code) [] s fun g fr k => s.trapAt g fr k .brk (code.zeroExtend 64) 0

end Sys2Proof.Machine
end

