-- ==== Sys2Proof/Machine/Window.lean ====
section
/-! DEFINITION. The handler: window words, fragment entries, system registers, TRET; its start and its limit (R348-R357,
R366). -/

namespace Sys2Proof.Machine

/-! ## The operand log (R353) as words -/

def LogEntry.laneAt (e : LogEntry) (l : Nat) : Option LaneEntry := e.lanes.find? fun x => x.lane == l
def LogEntry.maskBy (e : LogEntry) (p : LaneStat → Bool) : Mask :=
  maskOf fun l => match e.laneAt l with | some x => p x.stat | none => false
/-- Where the data words of a lane begin in what its entry holds: after the coordinates of a tensor form. -/
def LogEntry.dataAt (e : LogEntry) : Nat := match e.instr with | .vtld .. | .vtst .. => 2 | _ => 0
def LogEntry.word (e : LogEntry) (grp w : Nat) : Word :=
  if w = 0 then loOf e.lrunPc
  else if w = 1 then hiOf e.lrunPc
  else if w = 2 then BitVec.ofNat 32 (e.idx % 64 + grp * 256)
  else if w = 3 then e.gov
  else if w = 4 then e.maskBy fun x => x == .done
  else if w = 5 then e.maskBy fun x => match x with | .bad _ _ _ _ => true | _ => false
  else if w < 8 then 0
  else
    match e.laneAt ((w - 8) / 8) with
    | none => 0
    | some x =>
      match (w - 8) % 8 with
      | 0 => loOf x.addr
      | 1 => hiOf x.addr
      | 6 => 0
      | 7 => match x.stat with | .bad c _ _ _ => BitVec.ofNat 32 c.code | _ => 0
      | n => x.data.getD (n - 2 + e.dataAt) 0

/-- The team's log entries in issue order, each with its group and number. -/
def insertLog (p : Nat × LogEntry) : List (Nat × LogEntry) → List (Nat × LogEntry)
  | [] => [p]
  | q :: qs => if p.2.issued < q.2.issued then p :: q :: qs else q :: insertLog p qs
def State.teamLog (s : State) (tid : Nat) : List (Nat × LogEntry) :=
  ((s.teamGroups tid).flatMap fun g => g.olog.map fun e => (g.grp, e)).foldl (fun l p => insertLog p l) []

/-! ## Window addresses (R353) -/

/-- A window word: what it reads, and the machine after a write; none for an invalid address. -/
structure WinWord where
  value : Word
  write : Word → State

def State.teamGroup (s : State) (tid n : Nat) : Option Group := (s.teamGroups tid).find? fun g => g.grp == n

/-- The rejoin image with one of its words replaced. DESIGN CHOICE: bits 1:0 of JADDR keep what is written (log 57). -/
def Rejoin.setWord (r : Rejoin) (n : Nat) (v : Word) : Rejoin :=
  match n with
  | 0 => { r with expect := v }
  | 1 => { r with arrived := v }
  | 2 => { r with jaddr := pairOf v (hiOf r.jaddr) }
  | _ => { r with jaddr := pairOf (loOf r.jaddr) (v &&& 0x00FFFFFF), armed := v.getLsbD 24 }

/-- The handler's note of a group whose fragments or rejoin registers it changes: its lanes before the change. -/
def Group.note (h : Group) (g : Group) (wspl : Bool) : Group :=
  if h.wspl.any fun p => p.1 == g.grp then
    { h with wspl := h.wspl.map fun (p : Nat × Mask × Bool) => if p.1 == g.grp then (p.1, p.2.1, p.2.2 || wspl) else p }
  else { h with wspl := h.wspl ++ [(g.grp, g.lanesLeft, wspl)] }

/-- A write of a header word (R353). -/
def Group.setHeader (g : Group) (n : Nat) (v : Word) : Group :=
  if 8 ≤ n ∧ n ≤ 22 then { g with masks := g.masks.set (n - 8) v }
  else if n = 23 then { g with fpctl := v &&& fpctlBits }
  else if n = 24 then { g with jlost := g.jlost && !v.getLsbD 8, spilled := g.spilled && !v.getLsbD 10 }
  else if 26 ≤ n ∧ n ≤ 57 then { g with rejoin := g.rejoin.set ((n - 26) / 4) (((g.rejoin.getD ((n - 26) / 4) {})).setWord ((n - 26) % 4) v) }
  else g

def LogEntry.setData (e : LogEntry) (w : Nat) (v : Word) : LogEntry :=
  { e with lanes := e.lanes.map fun (x : LaneEntry) =>
      let n := (w - 8) % 8 - 2 + e.dataAt
      if 8 ≤ w ∧ x.lane = (w - 8) / 8 ∧ 2 ≤ (w - 8) % 8 ∧ (w - 8) % 8 ≤ 5 then { x with data := (x.data ++ List.replicate (n + 1 - x.data.length) 0).set n v }
      else x }

def State.window (s : State) (h : Group) (t : Team) (a : Word) : Option WinWord :=
  let n := bitsOf a.toNat 24 5
  let i := bitsOf a.toNat 0 24
  let edit (g : Group) (f : Word → Group → Group) (v : Word) : State := s.editGroup t.tid g.grp (f v)
  match bitsOf a.toNat 29 3 with
  | 0 => if n ≠ 0 ∨ 16 ≤ i then none else some { value := (t.record.getD { cause := .illegal }).word i, write := fun _ => s }
  | 1 =>
    match s.teamGroup t.tid n with
    | none => none
    | some g => if g.sregs.length ≤ i then none else some { value := g.s i, write := edit g fun v x => x.setS i v }
  | 2 =>
    match s.teamGroup t.tid n with
    | none => none
    | some g =>
      let r := i % 256
      let l := i / 256
      if 32 ≤ l ∨ g.vregs.length ≤ r ∨ r = 255 then none
      else some { value := laneReg g r l, write := edit g fun v x => { x with vregs := x.vregs.set r ((x.vregs.getD r []).set l v) } }
  | 3 =>
    match s.teamGroup t.tid n with
    | none => none
    | some g =>
      if 128 ≤ i then none
      else some { value := (g.header s.cycle).getD i 0
                  write := fun v =>
                    let s1 := edit g (fun v x => x.setHeader i v) v
                    if 26 ≤ i ∧ i ≤ 57 then s1.setGroup (h.note g false) else s1 }
  | 4 =>
    let w := i % 512
    if (s.teamGroup t.tid n).isNone ∨ 264 ≤ w ∨ 2 ^ 18 ≤ i then none
    else
      match (s.teamLog t.tid)[i / 512]? with
      | none => some { value := 0, write := fun _ => s }
      | some (m, e) =>
        some { value := e.word m w
               write := fun v => s.editGroup t.tid m fun x =>
                 { x with olog := x.olog.map fun (y : LogEntry) => if y.seq == e.seq then y.setData w v else y } }
  | 5 =>
    if n ≠ 0 ∨ 18 ≤ i then none
    else some { value := if i = 0 then loOf t.stream.pc else if i = 1 then hiOf t.stream.pc else getW t.stream.k (i - 2)
                write := fun v => if 2 ≤ i then s.setTeam { t with stream := { t.stream with k := t.stream.k.set (i - 2) v } } else s }
  | _ => none

/-! ## WRD, WWR (R354) -/

def execWrd (d a : BitVec 8) (s : State) : Out :=
  scalarHandler (.wrd d a) [d.toNat, a.toNat] s fun g fr k =>
    match s.team g.team with
    | none => .fault .noAgent
    | some t =>
      match s.window g t (g.s a.toNat) with
      | none => s.trapAt g fr k .illegal 0 0
      | some w => .next (s.put (g.setS d.toNat w.value) k (s.fall fr))

def execWwr (a b : BitVec 8) (s : State) : Out :=
  scalarHandler (.wwr a b) [a.toNat, b.toNat] s fun g fr k =>
    match s.team g.team with
    | none => .fault .noAgent
    | some t =>
      match s.window g t (g.s a.toNat) with
      | none => s.trapAt g fr k .illegal 0 0
      | some w =>
        let s1 := w.write (g.s b.toNat)
        match s1.group g.core g.slot with
        | some h => .next (s1.put h k (s.fall fr))
        | none => .next s1

/-! ## WSPL (R355) -/

/-- The entry at a position: 0 slot 0, 1 slot 1, then the stack from its top. -/
def Group.entry (g : Group) (p : Nat) : Option Fragment :=
  if p = 0 then g.slot0 else if p = 1 then g.slot1
  else match g.stack[p - 2]? with | some f => if f.mask == 0 then none else some f | none => none
def emptyFrag : Fragment := { mask := 0, exec := 0, pc := 0 }
/-- Write an entry; an entry with mask 0 in the stack is an empty position until TRET. What a fragment has begun stays
with an entry whose program counter does not change. DESIGN CHOICE: a fragment that is placed in the stack does not set SPILLED (log 57). -/
def Group.setEntry (g : Group) (p : Nat) (mask exec : Mask) (pc : DWord) : Group :=
  let old := (g.entry p).getD emptyFrag
  let new := { old with mask, exec, pc, wait := if old.pc == pc then old.wait else none }
  let o : Option Fragment := if mask = 0 then none else some new
  if p = 0 then { g with slot0 := o } else if p = 1 then { g with slot1 := o }
  else
    let room := if mask = 0 then g.stack else g.stack ++ List.replicate (p - 1 - g.stack.length) emptyFrag
    { g with stack := room.set (p - 2) (o.getD emptyFrag) }

/-- The group and position that an address names; none for a reserved bit or an invalid group. -/
def State.wsplAt (s : State) (tid : Nat) (a : Word) : Option (Group × Nat) :=
  if bitsOf a.toNat 5 19 ≠ 0 ∨ bitsOf a.toNat 29 3 ≠ 0 then none
  else (s.teamGroup tid (bitsOf a.toNat 24 5)).map fun g => (g, bitsOf a.toNat 0 5)
def quad (d : BitVec 8) : List Nat := [d.toNat, d.toNat + 1, d.toNat + 2, d.toNat + 3]

def execWsplR (d a : BitVec 8) (s : State) : Out :=
  scalarHandler (.wsplR d a) (quad d ++ [a.toNat]) s fun g fr k =>
    match s.wsplAt g.team (g.s a.toNat) with
    | none => s.trapAt g fr k .illegal 0 0
    | some (x, p) =>
      let e := (x.entry p).getD emptyFrag
      .next (s.put (((g.setS d.toNat e.mask).setS (d.toNat + 1) e.exec).setPair (d.toNat + 2) e.pc) k (s.fall fr))

def execWsplW (d a : BitVec 8) (s : State) : Out :=
  scalarHandler (.wsplW d a) (quad d ++ [a.toNat]) s fun g fr k =>
    match s.wsplAt g.team (g.s a.toNat) with
    | none => s.trapAt g fr k .illegal 0 0
    | some (x, p) =>
      let s1 := s.editGroup g.team x.grp fun y => y.setEntry p (g.s d.toNat) (g.s (d.toNat + 1)) (g.pair (d.toNat + 2))
      .next (s1.put (g.note x true) k (s.fall fr))

/-! ## System registers (R350, R356) -/

/-- One field of the action table after a write (R345). -/
def actField (c old new : Nat) : Nat :=
  if c = 0 ∨ c = 0x17 ∨ 0x1B ≤ c then 0
  else if c = 0x18 then (if new = 0 ∨ new = 4 then new else old)
  else if new ≤ 4 then new else old
def actMerge (base : Nat) (old new : DWord) : DWord :=
  BitVec.ofNat 64 ((List.range 16).foldl (fun n i => n + actField (base + i) (bitsOf old.toNat (4 * i) 4) (bitsOf new.toNat (4 * i) 4) * 2 ^ (4 * i)) 0)

/-- The registers of the trap control block (a write of the action table comes after the deliveries of its device time, R345), and the writes that host and handler share; reserved bits are dropped. -/
def Context.trapReg (c : Context) (sel : Nat) : DWord :=
  match sel with
  | 0 => c.hentry
  | 1 => c.hlane
  | 2 => c.actlo
  | 3 => c.acthi
  | 4 => c.wdog
  | 5 => c.saveBase
  | 6 => c.saveSize
  | _ => c.slice
def Context.setTrapReg (c : Context) (sel : Nat) (v : DWord) : Context :=
  match sel with
  | 0 => { c with hentry := v &&& 0x00FFFFFFFFFFFFFC }
  | 1 => { c with hlane := v &&& 0x00FFFFFFFFFFFFF0 }
  | 2 => { c with actlo := actMerge 0 c.actlo v }
  | 3 => { c with acthi := actMerge 16 c.acthi v }
  | 4 => { c with wdog := v }
  | _ => c

/-- MODE bits of an AST record (R318). -/
def Ast.mode (a : Ast) : Nat := b2n a.walk + b2n a.fserv * 2 + b2n a.esc * 4 + b2n a.frel * 8 + b2n a.traps * 16

def State.sysReg (s : State) (g : Group) (sel : Nat) : DWord :=
  let c := s.ctx (s.who g).cid
  match sel with
  | 8 => g.qsel.zeroExtend 64
  | 9 => BitVec.ofNat 64 (c.limit g.qsel.toNat)
  | 10 => BitVec.ofNat 64 (c.use g.qsel.toNat)
  | 11 => BitVec.ofNat 64 (s.ast c.aid).mode
  | n => c.trapReg n

def execSysrd (d sel : BitVec 8) (s : State) : Out :=
  scalarHandler (.sysrd d sel) (pairRegs d) s fun g fr k =>
    .next (s.put (g.setPair d.toNat (s.sysReg g sel.toNat)) k (s.fall fr))

def execSyswr (d sel : BitVec 8) (s : State) : Out :=
  scalarHandler (.syswr d sel) (pairRegs d) s fun g fr k =>
    let v := g.pair d.toNat
    let c := s.ctx (s.who g).cid
    if sel == 8 then .next (s.put { g with qsel := v.extractLsb' 0 8 } k (s.fall fr))
    else if sel == 9 then .next ((s.setCtx { c with limits := c.limits.set g.qsel.toNat (loOf v) }).put g k (s.fall fr))
    else if (sel == 2 || sel == 3) && !s.lastOfNs then .next s
    else if sel.toNat ≤ 4 then .next ((s.setCtx (c.setTrapReg sel.toNat v)).put g k (s.fall fr))
    else .next (s.put g k (s.fall fr))

/-! ## TRET (R357) -/

/-- The conditions on the fragment entries of a group that WSPL wrote; `lanes` are the lanes that have not exited. -/
def Group.entriesOk (g : Group) (lanes : Mask) : Bool :=
  let st := g.stack.filter fun f => f.mask != 0
  let frs := g.slot0.toList ++ g.slot1.toList ++ st
  let ms := (frs.map fun (f : Fragment) => f.mask) ++ g.rejoin.map fun (r : Rejoin) => r.arrived
  let slots := g.slot0.isSome || g.slot1.isSome
  (List.range 32).all (fun l => (ms.filter fun m => inMask m l).length == b2n (inMask lanes l)) &&
    frs.all (fun f => f.exec &&& ~~~f.mask == 0) && (st.isEmpty || (g.slot0.isSome && g.slot1.isSome)) &&
    (lanes == 0 || slots || g.rejoin.any fun r => r.arrived != 0)

/-- Stacked entries that the handler has emptied leave the stack, which is written to save memory again (R127, R355, R358). -/
def State.restack (s : State) (tid : Nat) : State :=
  let full (x : Group) : Bool := x.stack.all fun f => f.mask != 0
  let touched := (s.teamGroups tid).filter fun g => !full g && !g.saved
  let s1 := { s with groups := s.groups.map fun (x : Group) =>
    if x.team == tid && !full x then { x with stack := x.stack.filter fun f => f.mask != 0 } else x }
  touched.foldl (fun (u : State) (g : Group) => match u.group g.core g.slot with | some x => u.writePage x | none => u) s1

def execTret (mode : BitVec 8) (s : State) : Out :=
  scalarHandler (.tret mode) [] s fun g fr k =>
    let bad := g.wspl.any fun p => p.2.2 && (match s.teamGroup g.team p.1 with | some x => !x.entriesOk p.2.1 | none => false)
    if bad then s.trapAt g fr k .illegal 0 0
    else if !g.doneBefore g.seq then .next s
    else
      let s1 := s.endHandler g.core
      let s2 := s1.restack g.team
      if mode == 0 then .next (s2.leaveHalt g.team false)
      else if mode == 1 then .next (s2.leaveHalt g.team true)
      else .next (s2.applyAction g.team (if mode == 2 then .kill else .forward))

/-! ## The handler's start and its limit (R351, R366) -/

def handlerGroup (c : Context) (core : Nat) (t : Team) : Group where
  core := core
  slot := 128
  team := t.tid
  grp := 0
  sregs := match t.record with
    | some r => BitVec.ofNat 32 r.cause.code :: BitVec.ofNat 32 r.group :: List.replicate 126 0
    | none => List.replicate 128 0
  vregs := List.replicate 32 (List.replicate 32 0)
  masks := List.replicate 15 0
  rejoin := List.replicate 8 {}
  flags := List.replicate 12 0
  sealed_ := List.replicate 8 []
  slot0 := some { mask := 0xFFFFFFFF, exec := 0xFFFFFFFF, pc := c.hentry }
  bars := List.replicate 16 {}
  cbars := List.replicate 4 {}

/-- A handler run starts for the team that was halted first; with HENTRY 0 by then, HANDLE is FORWARD (R346). -/
def execHandlerStart (core : Nat) (s : State) : Out :=
  let no : Out := .refused (.notArisen "HANDLER_START")
  let h := s.handler core
  match h.serving, h.waiting with
  | none, tid :: rest =>
    match s.team tid with
    | none => no
    | some t =>
      let c := s.ctx t.cid
      let s1 := s.setHandler { h with waiting := rest }
      if c.hentry == 0 then .next (s1.applyAction tid .forward)
      else
        .next { s1.setHandler { h with serving := some tid, since := s.time, waiting := rest } with groups := s1.groups ++ [handlerGroup c core t] }
  | _, _ => no

/-- A handler run lasts HLIMIT (R366): removal. -/
def execWatchdogHandler (core : Nat) (s : State) : Out :=
  let no : Out := .refused (.notArisen "WATCHDOG_HANDLER")
  let h := s.handler core
  match h.serving with
  | none => no
  | some tid =>
    match s.team tid with
    | none => no
    | some t =>
      let limit := bitsOf (s.ctx t.cid).wdog.toNat 0 32
      if limit ≠ 0 ∧ h.since + limit * 1000 ≤ s.time then .next ((s.endHandler core).deliver tid { cause := .watchdog, detail := 1 }) else no

/-- A team makes no progress for RLIMIT (R366): removal. -/
def execWatchdogProgress (team : Nat) (s : State) : Out :=
  let no : Out := .refused (.notArisen "WATCHDOG_PROGRESS")
  match s.team team with
  | none => no
  | some t =>
    let gs := s.teamGroups team
    let limit := bitsOf (s.ctx t.cid).wdog.toNat 32 32
    if limit ≠ 0 ∧ t.issued + limit * 1000000 ≤ s.time ∧ t.halt.isNone ∧ !gs.isEmpty ∧ !(gs.any fun g => g.park.isSome || g.saved) ∧
        (s.ctx t.cid).st ≠ .destroyed then
      .next (s.deliver team { cause := .watchdog, detail := 2 })
    else no

/-- A cause that has waited for the end of a halt is delivered before any group issues (R349). -/
def execTrapDeliver (team : Nat) (s : State) : Out :=
  let no : Out := .refused (.notArisen "TRAP_DELIVER")
  match s.team team with
  | none => no
  | some t =>
    match t.queued with
    | [] => no
    | r :: rest => if t.halt.isSome then no else .next ((s.setTeam { t with queued := rest }).deliver team r)

end Sys2Proof.Machine
end

