-- ==== Sys2Proof/Machine/Preempt.lean ====
section
/-! DEFINITION. Slices, saving and restoring, urgent pre-emption, and the removal of a context (R35, R304, R358-R365). -/

namespace Sys2Proof.Machine

/-! ## Slices and saves (R360, R363) -/

/-- A slice ends: the context drains when a launch of another waits for the core, else the slice renews. -/
def execSliceEnd (core cid : Nat) (s : State) : Out :=
  let no : Out := .refused (.notArisen "SLICE_END")
  match s.slices.find? fun x => x.core == core && x.cid == cid with
  | none => no
  | some x =>
    if s.time < x.since + x.length * 1000 then no
    else
      let ts := s.teams.filter fun t => t.core == core && t.cid == cid && !t.retired
      let top := ts.foldl (fun n t => max n (s.descOf t).prio) 0
      let full := s.launches.any fun m => m.cid != cid && s.eligible m && decide (top ≤ m.desc.prio) && ((s.usage core).fits m.desc).isNone
      .next { s with slices := s.slices.map fun (y : Slice) =>
        if y.core == core && y.cid == cid then { y with since := s.time, length := (s.ctx cid).slice.toNat, draining := y.draining || (full && s.waitedFor core cid top) } else y }

/-- A team that stands still: halted, or with every group parked. -/
def State.stands (s : State) (t : Team) : Bool :=
  t.halt.isSome || (let gs := s.teamGroups t.tid; !gs.isEmpty && gs.all fun g => g.parkAt.isSome)

/-- A group that urgent pre-emption has chosen, while nothing has halted its team (R361). -/
def Group.leaves (g : Group) (t : Team) : Bool := g.leaving && t.halt.isNone && t.queued.isEmpty

/-- A group is to be saved: its context is suspended and it is not parked, or its context drains on the core and the team
stands still (with its whole cluster), or its CORES grid drains, or urgent pre-emption has chosen it; a word of its stream in progress
completes first (R184), and the CORES grid, the context and the chosen group issue no more LRUN (R359). -/
def State.mustSave (s : State) (g : Group) : Bool :=
  match s.team g.team with
  | none => false
  | some t =>
    let d := s.descOf t
    let slice := if d.cores then (s.launchTeams t.lid).any fun u => s.drainsAt u.core t.cid
      else s.drainsAt g.core t.cid && (s.teams.filter fun u => u.cluster == t.cluster && !u.retired).all s.stands
    !g.saved && g.slot != 128 && t.stream.part.isEmpty &&
      (((s.ctx t.cid).st == .suspended && g.park.isNone) || g.leaves t || (slice && (g.park.isNone || g.parkAt.isSome)))

/-- The guest-physical pages of a team's arenas: those whose OWNER names it, in its launch's grid arena and the context's
long-lived arenas. -/
def State.ownPages (s : State) (t : Team) : List Nat :=
  let c := s.ctx t.cid
  let grid := match s.launch t.lid with | some l => [(l.desc.arenaBase, l.cursor)] | none => []
  (grid ++ c.longNext).flatMap fun p => (List.range ((p.2 + 4095) / 4096)).filterMap fun i =>
    match s.walkVa c.aid (p.1 + 4096 * i) with
    | .leaf f => if f.kind = 2 ∧ f.own = t.core * 128 + t.slot then some ((f.gpa + (p.1 + 4096 * i - f.base)) / 4096) else none
    | _ => none

/-- A whole team has been saved at the end of a slice: its mapped stash lines are written back and unregistered, its P lines
leave the core's L1. -/
def State.sliceSaved (s : State) (t : Team) : State :=
  let s1 := t.maps.foldl (fun (u : State) (m : SMap) =>
    match (u.endMap t.tid m).team t.tid with
    | some x => (u.endMap t.tid m).setTeam { x with maps := { m with filled := [] } :: x.maps }
    | none => u) s
  let pages := s1.ownPages t
  { s1 with l1 := s1.l1.filter fun x => !(x.core == t.core && x.st == .P && lineAid x.line == (s1.ctx t.cid).aid &&
      pages.contains (lineGpa x.line / 4096)) }

/-- The move of the device that saves a group; one that finds no room is not evicted after all (R359, R361). -/
def State.saveMove (s : State) (core slot : Nat) : Out :=
  match s.group core slot with
  | none => .refused (.notArisen "SAVE")
  | some g =>
    if !s.mustSave g || !g.savable then .refused (.notArisen "SAVE")
    else
      let held := match s.team g.team with | some t => (s.ctx t.cid).st == .suspended | none => false
      let s0 := s.saveGroup g (g.leaving && !held) (!g.leaving && !held)
      let s1 := { s0 with groups := s0.groups.map fun (x : Group) => if x.isAt core slot then { x with leaving := false } else x }
      match s1.team g.team with
      | some t =>
        if (s.ctx t.cid).st != .suspended && !g.leaving && (s1.teamGroups t.tid).all fun x => x.saved then .next (s1.sliceSaved t) else .next s1
      | none => .next s1

/-! ## Urgent pre-emption (R361) -/

/-- A logged fault of a group. -/
def LaneStat.isBad : LaneStat → Bool
  | .bad _ _ _ _ => true
  | _ => false
def Group.faulted (g : Group) : Bool := g.olog.any fun e => e.lanes.any fun x => x.stat.isBad

/-- Groups that may be evicted: resident ones (a parked group keeps its slot and registers, R273) that can be saved once their clauses
have completed (R359). -/
def State.evictable (s : State) (g : Group) : Bool :=
  !g.saved && g.slot != 128 && !g.ended && !g.faulted && g.park.isNone &&
    (match s.team g.team with
     | some t => let d := s.descOf t; d.prio != 7 && !d.cores && t.halt.isNone && t.queued.isEmpty && (s.imageRoom t.cid g.imageSize).isSome
     | none => false)

/-- The order of eviction: lowest PRIO, latest started, highest slot. -/
def State.evictBefore (s : State) (a b : Group) : Bool :=
  let pa := match s.team a.team with | some t => (s.descOf t).prio | none => 0
  let pb := match s.team b.team with | some t => (s.descOf t).prio | none => 0
  decide (pa < pb) || (pa == pb && (decide (b.team < a.team) || (a.team == b.team && decide (b.slot < a.slot))))
def State.insertEvict (s : State) (g : Group) : List Group → List Group
  | [] => [g]
  | h :: hs => if s.evictBefore g h then g :: h :: hs else h :: s.insertEvict g hs

/-- The machine as it would place a launch with some groups gone, those that urgent pre-emption has evicted or chosen already, and the
teams that hold nothing else. -/
def State.emptied (s : State) (p : Group → Bool) : State :=
  let gone := { s with groups := s.groups.filter fun g => !(p g || g.leaving || (g.saved && g.urgent)) }
  { gone with teams := gone.teams.filter fun t => t.retired || (s.teamGroups t.tid).isEmpty || (gone.teamGroups t.tid).any fun g => !g.saved }

/-- The groups of an order that are chosen: one after the other, until the launch's next team fits (R361). -/
def State.victims (s : State) (l : Launch) (taken : List Group) : List Group → List Group
  | [] => taken
  | g :: gs =>
    if ((s.emptied fun x => taken.contains x).placement l).isSome then taken else s.victims l (taken ++ [g]) gs

/-- The groups that are chosen stop, complete their clauses, and are saved (R359, R361). -/
def execUrgentPreempt (launch : Nat) (s : State) : Out :=
  let no : Out := .refused (.notArisen "URGENT_PREEMPT")
  match s.launch launch with
  | none => no
  | some l =>
    if l.desc.prio ≠ 7 || !s.eligible l || s.heldBack l || ((s.emptied fun _ => false).placement l).isSome then no
    else
      match (s.emptied s.evictable).placement l with
      | none => no
      | some us =>
        let cores := us.flatten.map fun (p : Nat × List Nat) => p.1
        let order := (s.groups.filter fun g => s.evictable g && cores.contains g.core).foldl (fun gs g => s.insertEvict g gs) []
        let out := s.victims l [] order
        .next { s with groups := s.groups.map fun (g : Group) => if out.contains g then { g with leaving := true } else g }

/-! ## Restoring (R304, R362, R363) -/

/-- Slots for groups that come back, each its own when it is kept, else by R19; `lead` is the group with the team's slot. -/
def Usage.backSlots (u : Usage) (kept : List Nat) (lead : Nat) : List Group → Option (List Nat)
  | [] => some []
  | g :: gs =>
    match (if kept.contains g.slot then some g.slot else u.pick (g.grp == lead)) with
    | none => none
    | some n => (({ u with slots := n :: u.slots, here := n :: u.here } : Usage).backSlots kept lead gs).map fun ns => n :: ns

/-- Slots for groups that come back to a core: each its own when it is free, as those of parked groups are (R273), else by R19. -/
def State.comeback (s : State) (t : Team) (core : Nat) (gs : List Group) : Option (List Nat) :=
  let u := { s with groups := s.groups.map fun (g : Group) =>
    if g.team == t.tid && gs.any (fun x => x.grp == g.grp) then { g with saved := true, parkAt := none } else g }.usage core
  let held := s.holds t && core == t.core
  let d := { s.descOf t with groups := gs.length, stash := if held then 0 else t.window / 4096, acc := if held then 0 else t.acc.length }
  let kept := if core == t.core then (gs.filter fun (g : Group) => !u.slots.contains g.slot && (held || g.grp != 0 || !u.teams.contains g.slot)).map fun (g : Group) => g.slot
    else []
  if (u.fits d).isSome then { u with slots := kept ++ u.slots, here := kept ++ u.here }.backSlots kept (if held then 32 else 0) gs else none

def Culprit.move (m : List (Nat × Nat)) : Culprit → Culprit
  | .scalar n k => .scalar (assoc n n m) k
  | .laneWord n k => .laneWord (assoc n n m) k
  | .lane n q => .lane (assoc n n m) q
  | .load n q => .load (assoc n n m) q
  | .store n q => .store (assoc n n m) q
  | c => c
def TrapRec.move (m : List (Nat × Nat)) (r : TrapRec) : TrapRec := { r with culprit := r.culprit.move m }

/-- OWNER in the pages of a team that has moved (R363, R312): its launch's grid arena and the context's long-lived arenas. -/
def State.moveOwner (s : State) (t : Team) (old new : Nat) : State :=
  if old = new then s
  else
    let aid := (s.ctx t.cid).aid
    let edit (u : State) (base len : Nat) : State :=
      (u.editRange aid (fun e => if eKind e = 2 ∧ bitsOf e 52 12 * 16 + bitsOf e 8 4 = old then asArena new e else e) (2 * (len / 4096) + 8)
        base len).tlbDrop aid base len
    let s1 := match s.launch t.lid with
      | some l => edit s l.desc.arenaBase l.cursor
      | none => s
    (s.ctx t.cid).longNext.foldl (fun (u : State) (p : Nat × Nat) => edit u p.1 p.2) s1

/-- Groups of a team come back into slots of a core; a group of a halt or a join goes on by R132. The page of each slot holds its group's
split stack again (R127, R358). -/
def State.bringBack (s : State) (t : Team) (core : Nat) (gs : List Group) (slots : List Nat) : State :=
  let m := (gs.map fun (g : Group) => g.slot).zip slots
  let back (g : Group) : Group :=
    ({ g.toClock s.cycle with
        core, slot := assoc g.slot g.slot m, saved := false, savedAt := 0, urgent := false, sliced := false, stay := false
        image := if g.parkAt.isSome then g.image else none } : Group).releaseStalled
  let taken := (s.usage core).teams.contains t.slot
  let slot := if s.holds t then t.slot
    else match gs.findIdx? fun (g : Group) => g.grp == 0 with
      | some n => slots.getD n t.slot
      | none => if core == t.core && !taken then t.slot else slots.headD t.slot
  let s1 := { s with
    groups := s.groups.map fun (g : Group) => if g.team == t.tid && g.saved && gs.any (fun x => x.grp == g.grp) then back g else g
    copies := s.copies.map fun (c : Copy) => if c.team == t.tid then { c with core } else c }
  let s2 := s1.setTeam { t with core, slot, image := none, issued := s.time, record := t.record.map (TrapRec.move m), queued := t.queued.map (TrapRec.move m) }
  let s3 := s2.moveOwner t (t.core * 128 + t.slot) (core * 128 + slot)
  (s3.groups.filter fun g => g.team == t.tid && !g.saved && g.slot != 128 && gs.any fun x => x.grp == g.grp).foldl (fun (u : State) g => u.writePage g) s3

/-- The teams that come back with a team: after a slice its CORES grid or its cluster (R26, R360), after a suspension itself (R304). -/
def State.restoreUnit (s : State) (t : Team) : List Team :=
  let has (u : Team) : Bool := s.groups.any fun g => g.team == u.tid && g.saved && !g.urgent
  if !(s.groups.any fun g => g.team == t.tid && g.saved && g.sliced) then [t].filter has
  else if (s.descOf t).cores then s.teams.filter fun u => u.lid == t.lid && has u else s.teams.filter fun u => u.cluster == t.cluster && has u

def State.savedOf (s : State) (tid : Nat) : List Group := s.groups.filter fun g => g.team == tid && g.saved && !g.urgent

/-- The core of a team that comes back whole: its own, or after a slice save another by R23 or R24 when nothing ties it (R363). -/
def State.restoreAt (s : State) (t : Team) : Option (Nat × List Nat) :=
  let gs := s.savedOf t.tid
  let d := s.descOf t
  match s.comeback t t.core gs with
  | some slots => some (t.core, slots)
  | none =>
    if s.holds t || d.clustered || gs.any (fun g => !g.sliced || g.stay || g.park.isSome) || t.halt.isSome then none
    else
      let dies := (s.part (t.cid / 1024)).dies
      let need := { d with groups := gs.length, stash := t.window / 4096, acc := t.acc.length }
      let target := if d.tile then some (targetCore d dies (s.ctx t.cid).ast t.x.toNat t.y.toNat t.z.toNat) else none
      placeOne s.usage (fun _ => true) dies need target

/-- Restore teams one after the other, all or none. -/
def State.restoreAll (s : State) : List Team → Option State
  | [] => some s
  | t :: ts =>
    match s.restoreAt t with
    | none => none
    | some (core, slots) => (s.bringBack t core (s.savedOf t.tid) slots).restoreAll ts

def State.runs (s : State) (cid : Nat) : Bool :=
  let c := s.ctx cid
  c.st == .guarded || c.st == .offered || c.st == .orphaned

/-- Saved groups come back: an urgently evicted group when it is the latest evicted on its core; else the saved groups of
the team, with its cluster or CORES grid, once none of them is held by a halt. -/
def execGroupRestore (team : Nat) (s : State) : Out :=
  let no : Out := .refused (.notArisen "GROUP_RESTORE")
  match s.team team with
  | none => no
  | some t =>
    if !s.runs t.cid then no
    else
      let late := (s.groups.filter fun g => g.saved && g.urgent && g.core == t.core).foldl (fun n g => max n g.savedAt) 0
      match s.groups.find? fun g => g.team == team && g.saved && g.urgent && g.savedAt == late with
      | some g =>
        match s.comeback t t.core [g] with
        | some slots => .next (s.bringBack t t.core [g] slots)
        | none => no
      | none =>
        let us := s.restoreUnit t
        let ready (u : Team) : Bool := u.halt.isNone && !(s.drainsAt u.core u.cid && s.waitedFor u.core u.cid (s.descOf u).prio)
        if us.isEmpty || !us.all ready || !(us.any fun u => (s.savedOf u.tid).any fun g => g.park.isNone) then no
        else
          match s.restoreAll us with
          | some s1 => .next s1
          | none => no

/-! ## The removal of a context (R364) -/

def Wait.blocked : Option Wait → Bool
  | some (.bar _ _ _) | some .arrive | some (.rdv _ _) | some (.lwait _) => true
  | _ => false
def Fragment.blocked (o : Option Fragment) : Bool := match o with | some f => Wait.blocked f.wait | none => false
def Group.blocked (g : Group) : Bool := g.park.isSome || g.saved || Fragment.blocked g.slot0 || Fragment.blocked g.slot1

/-- A waiting fragment is released: RDV gives 1, LWAIT 0, a barrier nothing; ESTAT reads REMOVED (R52, R195, R266). -/
def Group.releaseFrag (g : Group) (k : Nat) : Group :=
  match g.frag k with
  | none => g
  | some f =>
    let go (h : Group) : Group := { h.setFrag k (f.goto (f.pc + 4)) with estat := 1 }
    match f.wait with
    | some (.bar _ n _) => go (g.setBarPart n { g.barPart n with pending := false })
    | some .arrive => go g
    | some (.rdv _ d) => go (g.setS d 1)
    | some (.lwait d) => go (g.setS d 0)
    | _ => g
/-- Steps 2 and 3: handlers, walks, ladders and mailboxes go; saved groups are discarded with their images, and blocked and parked
ones are released. -/
def State.releaseContext (s : State) (cid : Nat) : State :=
  let mine (tid : Nat) : Bool := match s.team tid with | some t => t.cid == cid | none => false
  let s1 := (s.handlers.filter fun h => match h.serving with | some tid => mine tid | none => false).foldl (fun (u : State) h => u.endHandler h.core) s
  let s2 := s1.endWalks fun w => w.cid == cid
  let c := s2.ctx cid
  let s3 := (s2.groups.filter fun g => mine g.team && g.saved && !g.ended).foldl (fun (u : State) (g : Group) => u.endGroup g)
    (s2.setCtx { c with ladders := List.replicate 16 {}, mail := List.replicate 64 [] })
  { s3 with
    handlers := s3.handlers.map fun (h : Handler) => { h with waiting := h.waiting.filter fun t => !mine t }
    groups := s3.groups.map fun (g : Group) =>
      if !mine g.team || g.slot == 128 || g.ended then g
      else
        let g1 := match g.park with
          | some (.mbrecv _ d) => { (g.setPair d 0).unpark s.cycle with estat := 1 }
          | some _ => g.unpark s.cycle
          | none => g
        { (g1.releaseFrag 0).releaseFrag 1 with image := none } }

def execContextRemove (cid : Nat) (s : State) : Out :=
  let c := s.ctx cid
  let mine (tid : Nat) : Bool := match s.team tid with | some t => t.cid == cid | none => false
  if c.st != .destroyed then .refused (.notArisen "CONTEXT_REMOVE")
  else if c.ladders != List.replicate 16 {} || c.mail != List.replicate 64 [] || s.walks.any (fun w => w.cid == cid) ||
      s.handlers.any (fun h => (match h.serving with | some t => mine t | none => false) || h.waiting.any mine) ||
      s.groups.any (fun g => mine g.team && g.slot != 128 && !g.ended && g.blocked) then .next (s.releaseContext cid)
  else if s.launches.any fun l => l.cid == cid && l.ending.isNone || s.groups.any fun g => mine g.team && !g.ended then
    .next ((s.launches.filter fun l => l.cid == cid).foldl (fun (u : State) l => u.abortLaunch l.lid) s)
  else if s.launches.any fun l => l.cid == cid then .refused (.notArisen "CONTEXT_REMOVE")
  else .next { s with contexts := s.contexts.filter fun x => x.cid != cid }

end Sys2Proof.Machine
end

