-- ==== Sys2Proof/Machine/Sha.lean ====
section
/-! DEFINITION. SHA-384, by which the journal names a command block (R305). The spec names the function; its constants
and rounds are those of FIPS 180-4 (PRESUMED, log 7). -/

namespace Sys2Proof.Machine

abbrev W64 : Type := BitVec 64

/-- The largest r below 2^b over `r` with r^k ≤ n, bit by bit. -/
def rootBits (k n : Nat) : Nat → Nat → Nat
  | 0, r => r
  | b + 1, r => rootBits k n b (if (r + 2 ^ b) ^ k ≤ n then r + 2 ^ b else r)

/-- The first 80 primes. -/
def shaPrimes : List Nat :=
  [2, 3, 5, 7, 11, 13, 17, 19, 23, 29, 31, 37, 41, 43, 47, 53, 59, 61, 67, 71, 73, 79, 83, 89, 97, 101, 103, 107, 109, 113] ++
  [127, 131, 137, 139, 149, 151, 157, 163, 167, 173, 179, 181, 191, 193, 197, 199, 211, 223, 227, 229, 233, 239, 241, 251, 257] ++
  [263, 269, 271, 277, 281, 283, 293, 307, 311, 313, 317, 331, 337, 347, 349, 353, 359, 367, 373, 379, 383, 389, 397, 401, 409]
/-- The first 64 bits of the fractions of their cube roots, and of the square roots of the ninth to the sixteenth. -/
def shaRounds : List W64 := shaPrimes.map fun p => BitVec.ofNat 64 (rootBits 3 (p * 2 ^ 192) 67 0)
def shaStart : List W64 := ((shaPrimes.drop 8).take 8).map fun p => BitVec.ofNat 64 (rootBits 2 (p * 2 ^ 128) 68 0)

/-- The message schedule of a block, newest word first. -/
def shaSchedule : Nat → List W64 → List W64
  | 0, ws => ws
  | n + 1, ws =>
    let a := ws.getD 1 0
    let b := ws.getD 14 0
    let s1 := a.rotateRight 19 ^^^ a.rotateRight 61 ^^^ (a >>> 6)
    let s0 := b.rotateRight 1 ^^^ b.rotateRight 8 ^^^ (b >>> 7)
    shaSchedule n ((s1 + ws.getD 6 0 + s0 + ws.getD 15 0) :: ws)

/-- One round, over the eight working words a to h. -/
def shaRound (v : List W64) (kw : W64 × W64) : List W64 :=
  match v with
  | [a, b, c, d, e, f, g, h] =>
    let t1 := h + (e.rotateRight 14 ^^^ e.rotateRight 18 ^^^ e.rotateRight 41) + ((e &&& f) ^^^ (~~~e &&& g)) + kw.1 + kw.2
    let t2 := (a.rotateRight 28 ^^^ a.rotateRight 34 ^^^ a.rotateRight 39) + ((a &&& b) ^^^ (a &&& c) ^^^ (b &&& c))
    [t1 + t2, a, b, c, d + t1, e, f, g]
  | _ => v
def shaBlock (h : List W64) (m : List W64) : List W64 :=
  List.zipWith (fun x y => x + y) h ((shaRounds.zip (shaSchedule 64 m.reverse).reverse).foldl shaRound h)

/-- Bytes 0 to 7 of the digest of a 128-byte block given as 16 little-endian words, byte 0 lowest (R305). -/
def blockHash (ws : List W64) : W64 :=
  let swap (w : W64) : W64 := (List.range 8).foldl (fun (r : W64) i => r ||| ((w >>> (8 * i) &&& 0xFF) <<< (56 - 8 * i))) 0
  let tail : List W64 := (0x8000000000000000 : W64) :: List.replicate 14 0 ++ [1024]
  swap ((shaBlock (shaBlock shaStart (ws.map swap)) tail).headD 0)

end Sys2Proof.Machine
end

