-- ==== Sys2Proof/Machine/Guard.lean ====
section
/-! DEFINITION. Host commands, submissions, leases and host loss (R288-R306, R368-R375, R390, R391). -/

namespace Sys2Proof.Machine

/-! ## Acceptance, journal and completion (R291-R294, R305, R306, R370, R371) -/

/-- The partition of a host port's die, and whether a host's port is live. -/
def State.portPart (s : State) (port : Nat) : Nat := match s.parts.find? fun p => p.dies.contains (port / 2) with | some p => p.id | none => 0
def State.portOf (s : State) (host port : Nat) : Bool :=
  s.dev.boot.ports.getD port none == some host && s.dev.portUp.getD port false
/-- The partition of a host (R368). -/
def State.hostPart (s : State) (h : Nat) : Nat := s.portPart (((List.range 8).find? fun p => s.dev.boot.ports.getD p none == some h).getD 0)

/-- Write in a host's memory by its port (R291). -/
def State.hostWrite (s : State) (host bus : Nat) (bs : List Byte) : State := { s with hostMem := s.hostMem.setAll (host * 2 ^ 64 + bus) bs }

/-- The completion record, written after the journal entry. -/
def State.complete (s : State) (host : Nat) (compl : DWord) (tag : Word) (status : Nat) (seq : Nat) : State :=
  if compl = 0 then s else s.hostWrite host compl.toNat (leBytes 4 tag.toNat ++ leBytes 4 status ++ leBytes 8 seq)

/-- A journal entry is rewritten whole at completion, with the context as it was before the effect and as it is after it. -/
def State.closeEntry (s : State) (cid seq : Nat) (status : Nat) (old : Context) : State :=
  let p := s.part (cid / 1024)
  let c := s.ctx cid
  s.setPart { p with journal := p.journal.map fun (e : Journal) => if e.seq == seq then
    { e with status := BitVec.ofNat 8 status, complete := s.time, oldSt := old.st, oldPrim := old.primary, oldCog := old.coguard
             newSt := c.st, newPrim := c.primary, newCog := c.coguard } else e }

/-- The journal entry of a block: made now, or the one that it has had since its acceptance (R305, R371). -/
def State.opened (s : State) (cid host : Nat) (code : Byte) (tag : Word) (arg : DWord) (words : List DWord) : State × Nat :=
  match s.dev.taking with
  | some q => ({ s with dev := { s.dev with taking := none } }, q.seq)
  | none => (s.journal cid host code tag arg (blockHash words) 0xFF (s.ctx cid) (s.ctx cid), (s.part (cid / 1024)).jhead)
/-- A block takes effect: its entry, its effect, the entry's completion image, the completion record, and what the change of
the context's standing brings at once (R304). `run` gives the status and the machine after the effect. -/
def State.block (s : State) (cid host : Nat) (code : Byte) (tag : Word) (arg compl : DWord) (words : List DWord)
    (run : State → Nat × State) : State :=
  let s1 := (s.opened cid host code tag arg words).1
  let seq := (s.opened cid host code tag arg words).2
  let r := run s1
  let s2 := (if r.1 = 0 then r.2 else s1).closeEntry cid seq r.1 (s.ctx cid)
  (((s2.complete host compl tag r.1 seq).checkSuspend cid)).suspendIf cid

def cmdWords (c : Cmd) (code : Byte) : List DWord :=
  BitVec.ofNat 64 (code.toNat + c.res1.toNat * 2 ^ 8 + c.ctx.toNat * 2 ^ 16 + c.res2.toNat * 2 ^ 26 + c.tag.toNat * 2 ^ 32) :: c.compl :: c.args
def cmdArg (c : Cmd) (n : Nat) : Nat := (c.args.getD n 0).toNat
/-- The reserved bits: those of HEAD, those of ARGn above what `used` lists, all of the others, and a misplaced COMPL. -/
def cmdShaped (c : Cmd) (used : List Nat) : Bool :=
  c.res1 == 0 && c.res2 == 0 && c.compl.toNat % 16 == 0 && c.args.length == 14 &&
    (List.range 14).all fun n => (c.args.getD n 0).toNat &&& (2 ^ 64 - 1 - used.getD n 0) == 0

/-! ## Leases and host loss (R298, R299, R368) -/

/-- Host loss for one context, and what ORPHANED brings (R304). -/
def State.loseHost (s : State) (cid h : Nat) : State := ((s.leave cid h true).checkSuspend cid).suspendIf cid

/-- The guardian whose lease ran out before now, the earliest first (R298). -/
def Context.overdue (c : Context) (now : Nat) : Option Nat :=
  let out := c.clocks.filter fun x => c.guardian x.1 && c.st != .free && c.st != .destroyed && decide (x.2 + 2 * c.lease * 1000000 < now)
  (out.foldl (fun (m : Option (Nat × Nat)) x => match m with | some y => if x.2 < y.2 then some x else m | none => some x) none).map fun x => x.1
/-- A lease that has run out takes effect before a command that the device accepts later (R294, R298). -/
def State.lapse (s : State) (cid : Nat) : Nat → State
  | 0 => s
  | n + 1 => match (s.ctx cid).overdue s.time with | some h => (s.loseHost cid h).lapse cid n | none => s
def State.lapsed (s : State) (cid : Nat) : State := s.lapse cid 8

/-- A management command: the checks of R293 in order, then the effect, which may itself refuse. -/
def command (code : Byte) (name : String) (c : Cmd) (shape : State → Context → Bool) (issuer : State → Context → Bool) (deny : Nat)
    (state : Context → Nat) (effect : State → Nat → Context → Nat × State) (s0 : State) : Out :=
  if s0.dev.taking.isNone && !s0.portOf c.host c.port then .refused (.notArisen name)
  else if s0.dev.st != .running then .next s0
  else
    let cid := s0.portPart c.port * 1024 + c.ctx.toNat
    let s := s0.lapsed cid
    let x := s.ctx cid
    let busy := match s0.dev.taking with | some q => q.busy | none => false
    .next (s.block cid c.host code c.tag (c.args.getD 0 0) (if c.compl.toNat % 16 = 0 then c.compl else 0) (cmdWords c code) fun u =>
      if (x.st == .free) != (code == 1) || !shape s x then (3, u)
      else if busy then (5, u)
      else if !issuer s x then (deny, u)
      else if state x ≠ 0 then (state x, u)
      else effect u cid x)

/-- States as check 4 wants them. -/
def among (l : List CtxState) (x : Context) : Nat := if l.contains x.st then 0 else 3

def State.startLease (s : State) (cid h : Nat) : State :=
  let c := s.ctx cid
  s.setCtx { c with clocks := assocSet h s.time c.clocks }

/-! ## The commands (R292) -/

def execCreate (c : Cmd) (s : State) : Out :=
  let ast := bitsOf (cmdArg c 0) 0 10
  let lease := bitsOf (cmdArg c 0) 32 14
  command 0x01 "CREATE" c
    (fun u x => cmdShaped c [0x3FFF00FF03FF] && decide (lease ≤ 10000) &&
      (let aid := x.cid / 1024 * 1024 + ast
       (u.ast aid).valid && !(u.contexts.any fun y => y.cid / 1024 == x.cid / 1024 && y.cid != x.cid && y.st != .free && y.ast == ast)))
    (fun _ _ => true) 1 (fun _ => 0)
    (fun u cid _ =>
      let aid := cid / 1024 * 1024 + ast
      let n : Context := { cid, st := .guarded, primary := c.host, permit := BitVec.ofNat 8 (bitsOf (cmdArg c 0) 16 8),
                           lease := if lease = 0 then 250 else lease, ast, colour := (u.ast aid).colour.toNat,
                           limits := List.replicate 256 0xFFFFFFFF }
      (0, (u.setCtx n).startLease cid c.host)) s

def execGuardOffer (c : Cmd) (s : State) : Out :=
  let t := bitsOf (cmdArg c 0) 0 4
  command 0x02 "GUARD_OFFER" c (fun _ x => cmdShaped c [0xF] && (t == 8 || (decide (t < 8) && x.permitted t)))
    (fun _ x => x.primary == c.host) 1 (fun x => if t = 8 then among [.offered] x else among [.guarded] x)
    (fun u cid x =>
      if t = 8 then (0, u.setCtx { x with st := .guarded, offerTo := 8 })
      else (0, (u.setCtx { x with st := .offered, offerTo := t }).event cid t { kind := 5 })) s

def execGuardAccept (c : Cmd) (s : State) : Out :=
  command 0x03 "GUARD_ACCEPT" c (fun _ _ => cmdShaped c []) (fun _ x => x.offerTo == c.host) 1 (among [.offered])
    (fun u cid x =>
      let y := { x with primary := c.host, coguard := x.coguard &&& ~~~(1#8 <<< c.host), offerTo := 8, st := .guarded,
                        clocks := x.clocks.filter fun p => p.1 != x.primary }
      let u1 := (u.setCtx y).startLease cid c.host
      (0, ((u1.ctx cid).faults.filter fun f => f.target == some x.primary).foldl (fun (v : State) f => v.placeAgain cid f (some c.host)) u1)) s

def execGuardShare (c : Cmd) (s : State) : Out :=
  let m := BitVec.ofNat 8 (cmdArg c 0)
  command 0x04 "GUARD_SHARE" c (fun _ x => cmdShaped c [0xFF] && (hostsOf m).all fun h => x.permitted h && x.primary != h)
    (fun _ x => x.primary == c.host) 1 (among [.guarded])
    (fun u cid x =>
      (0, ((hostsOf m).filter fun h => !x.coguard.getLsbD h).foldl (fun (v : State) h => (v.startLease cid h).event cid h { kind := 7 })
        (u.setCtx { x with coguard := x.coguard ||| m }))) s

def execGuardDrop (c : Cmd) (s : State) : Out :=
  command 0x05 "GUARD_DROP" c (fun _ _ => cmdShaped c []) (fun _ x => x.guardian c.host) 1
    (fun x => if x.primary == c.host then among [.guarded] x else among [.guarded, .offered] x)
    (fun u cid _ => (0, u.leave cid c.host false)) s

def execAdopt (c : Cmd) (s : State) : Out :=
  let lease := bitsOf (cmdArg c 0) 0 14
  command 0x06 "ADOPT" c (fun _ _ => cmdShaped c [0x3FFF] && decide (lease ≤ 10000)) (fun _ x => x.permitted c.host) 1
    (fun x => if x.st == .orphaned || x.st == .suspended then 0 else 2)
    (fun u cid x =>
      let y := { x with primary := c.host, coguard := 0, offerTo := 8, st := .guarded, lease := if lease = 0 then x.lease else lease, clocks := [] }
      let u1 := (u.setCtx y).startLease cid c.host
      (0, ((u1.ctx cid).faults.filter fun f => f.target.isNone).foldl (fun (v : State) f => v.placeAgain cid f (some c.host)) u1)) s

def execLease (c : Cmd) (s : State) : Out :=
  let n := bitsOf (cmdArg c 0) 0 14
  command 0x07 "LEASE" c (fun _ _ => cmdShaped c [0x3FFF] && decide (n ≤ 10000))
    (fun _ x => x.guardian c.host && (n == 0 || x.primary == c.host)) 1 (among [.guarded, .offered])
    (fun u cid x => (0, (u.setCtx { x with lease := if n = 0 then x.lease else n }).startLease cid c.host)) s

/-- MAP and UNMAP: the range, and the mappings in it. -/
def rangeOk (base len : Nat) : Bool := base % 4096 == 0 && len % 4096 == 0 && decide (4096 ≤ len ∧ base + len ≤ 2 ^ 56)
def Context.mapsIn (x : Context) (base len : Nat) : List Mapping := x.maps.filter fun m => decide (m.base < base + len) && decide (base < m.base + m.len)
def Mapping.within (m : Mapping) (base len : Nat) : Bool := decide (base ≤ m.base ∧ m.base + m.len ≤ base + len)

def execMap (c : Cmd) (s : State) : Out :=
  let base := cmdArg c 0
  let len := cmdArg c 1
  let b := bitsOf (cmdArg c 2) 0 4
  let target := cmdArg c 3
  let r := bitsOf (cmdArg c 2) 4 1 == 1
  let w := bitsOf (cmdArg c 2) 5 1 == 1
  let x_ := bitsOf (cmdArg c 2) 6 1 == 1
  command 0x08 "MAP" c
    (fun _ _ => cmdShaped c [2 ^ 64 - 1, 2 ^ 64 - 1, 0x7F, 2 ^ 64 - 1] && rangeOk base len && decide (b ≤ 8) && target % 4096 == 0 &&
      decide (target + len ≤ if b = 8 then 2 ^ 52 else 2 ^ 48))
    (fun _ x => x.primary == c.host || (x.coguard.getLsbD c.host && b == c.host)) 1 (among [.guarded, .offered])
    (fun u cid x =>
      let ovr := x.mapsIn base len
      if (b < 8 && !u.hostLive b) || ovr.any (fun m => !m.lost || !m.within base len) then (3, u)
      else
        let u1 := ovr.foldl (fun (v : State) m => v.unmapRange x.aid m.base m.len) u
        let gpa := if b = 8 then target else 2 ^ 51 + b * 2 ^ 48 + target
        match u1.mapRange x.aid r w x_ (len / 4096 + 1) base gpa len with
        | none => (3, u)
        | some u2 =>
          let y := u2.ctx cid
          let m : Mapping := { base, len, backing := b, r, w, x := x_, target }
          (0, (u2.setCtx { y with maps := (y.maps.filter fun n => !ovr.contains n) ++ [m] }).tlbDrop x.aid base len)) s

/-- UNMAP. DESIGN CHOICE: any host of the partition may name a range that holds no mapping (log 59). -/
def execUnmap (c : Cmd) (s : State) : Out :=
  let base := cmdArg c 0
  let len := cmdArg c 1
  command 0x09 "UNMAP" c (fun _ _ => cmdShaped c [2 ^ 64 - 1, 2 ^ 64 - 1] && rangeOk base len)
    (fun _ x => x.primary == c.host || (x.mapsIn base len).all fun m => m.backing == c.host) 1
    (among [.guarded, .offered, .orphaned, .suspended])
    (fun u cid x =>
      let ovr := x.mapsIn base len
      if ovr.any fun m => !m.within base len then (3, u)
      else
        let u1 := ovr.foldl (fun (v : State) m => v.unmapRange x.aid m.base m.len) u
        let y := u1.ctx cid
        (0, (u1.setCtx { y with maps := y.maps.filter fun n => !ovr.contains n }).releaseLong cid ovr)) s

/-! ## RESUME (R303, R390) -/

def resumeShape (c : Cmd) : Bool :=
  cmdShaped c [0xFFFFFFFF00000003, 0x3] && decide (bitsOf (cmdArg c 0) 0 2 ≤ 1 ∧ cmdArg c 1 ≤ 1 ∧ (bitsOf (cmdArg c 0) 0 2 = 0 ∨ cmdArg c 1 = 0))

/-- The answer to a fault: REPLAY or KILL. A fault of a team or launch that another answer has aborted is answered without effect. -/
def State.answer (s : State) (cid : Nat) (f : FwdFault) (kill : Bool) : State :=
  let c := s.ctx cid
  let s1 := s.setCtx { c with faults := c.faults.filter fun g => g.fid != f.fid }
  match f.team with
  | some tid =>
    if kill then s1.abortLaunch f.lid
    else if (s1.team tid).any fun t => t.halt == some (.held f.fid) then (s1.acquireAt c.aid 5).leaveHalt tid false
    else s1
  | none =>
    match s1.launch f.lid with
    | some l =>
      if l.held != some f.fid then s1
      else if kill then s1.setLaunch { l with held := none, ending := some .aborted }
      else s1.setLaunch { l with held := none, desc := { l.desc with window := 0 } }
    | none => s1

def execResumeFault (c : Cmd) (s : State) : Out :=
  if bitsOf (cmdArg c 0) 0 2 = 1 then .refused (.notArisen "RESUME_FAULT")
  else
    let fid := bitsOf (cmdArg c 0) 32 32
    let mine (x : Context) : Option FwdFault := x.faults.find? fun f => f.fid == fid && f.target == some c.host
    command 0x0A "RESUME_FAULT" c (fun _ _ => resumeShape c) (fun _ x => (mine x).isSome) 4 (among [.guarded, .offered])
      (fun u cid x => match mine x with | some f => (0, u.answer cid f (cmdArg c 1 == 1)) | none => (4, u)) s

/-- The four words of each lane's response slot; none when a read faults. -/
def State.slots (s : State) (c : Context) (token : Nat) : List Nat → Option (List (Nat × Nat))
  | [] => some []
  | l :: ls =>
    match s.getVa c.device (c.respBase + 512 * token + 16 * l) 16 with
    | .error _ => none
    | .ok bs =>
      match s.slots c token ls with
      | none => none
      | some rest => some ((l, leVal bs) :: rest)
def Group.answer (g : Group) (va : Nat) (p : Nat × Nat) : Group :=
  (List.range 4).foldl (fun (h : Group) j => { h with vregs := h.vregs.set (va + j) ((h.vregs.getD (va + j) []).set p.1 (BitVec.ofNat 32 (bitsOf p.2 (32 * j) 32))) }) g

/-- A block that waits for the device or the host is tried again: from its queue (R371), or by itself. -/
def State.again (s : State) (e : Ev) : State := if s.dev.taking.isSome then s else s.post e

/-- The group of a context that waits on a token, and the response slots that its RESUME reads. -/
def State.tokenHolder (u : State) (x : Context) (token : Nat) : Option Group :=
  u.groups.find? fun g => g.token == some token && (match u.team g.team with | some t => t.cid == x.cid | none => false)
def State.slotReads (u : State) (x : Context) (token : Nat) : List (Nat × Acc) :=
  match u.tokenHolder x token with
  | some g =>
    match g.park with
    | some (.svc _ _ lanes _) => (lanesOf lanes).map fun l => (x.respBase + 512 * token + 16 * l, .rd)
    | _ => []
  | none => []

def execResumeSvc (c : Cmd) (s0 : State) : Out :=
  if bitsOf (cmdArg c 0) 0 2 ≠ 1 || (s0.dev.taking.isNone && !s0.portOf c.host c.port) then .refused (.notArisen "RESUME_SVC")
  else
    let token := bitsOf (cmdArg c 0) 32 32
    let waits (u : State) (x : Context) : Option Group := u.tokenHolder x token
    let x := s0.ctx (s0.portPart c.port * 1024 + c.ctx.toNat)
    s0.serveFirst x (if x.primary == c.host then s0.slotReads x token else []) (fun t => t.again (.resumeSvc c)) fun s =>
    command 0x0A "RESUME_SVC" c (fun _ _ => resumeShape c) (fun u x => x.primary == c.host && (waits u x).isSome) 4 (among [.guarded, .offered])
      (fun u cid x =>
        match waits u x with
        | none => (4, u)
        | some g =>
          match g.park with
          | some (.svc va _ lanes _) =>
            let u1 := u.acquireAt x.aid 5
            match u1.slots (u1.ctx cid) token (lanesOf lanes) with
            | none => (3, u)
            | some ws => (0, u1.editGroup g.team g.grp fun h => (ws.foldl (fun (k : Group) p => k.answer va p) h).unpark u.cycle)
          | _ => (4, u)) s

def execKill (c : Cmd) (s : State) : Out :=
  command 0x0B "KILL" c (fun _ _ => cmdShaped c [])
    (fun _ x => x.primary == c.host || (x.permitted c.host && (x.st == .orphaned || x.st == .suspended))) 1
    (among [.guarded, .offered, .orphaned, .suspended]) (fun u cid _ => (0, u.destroy cid)) s

/-! ## SETCTL (R297, R281) -/

def setctl (sel : Nat) (name : String) (c : Cmd) (args : List Nat) (ok : Context → Bool) (any : Bool) (effect : State → Nat → Context → State)
    (s : State) : Out :=
  if cmdArg c 0 % 256 ≠ sel then .refused (.notArisen name)
  else
    command 0x0C name c (fun _ x => cmdShaped c (0xFF :: args) && ok x)
      (fun _ x => x.primary == c.host || (any && (x.guardian c.host || x.permitted c.host))) 1 (among [.guarded, .offered])
      (fun u cid x => (0, effect u cid x)) s

def execSetctlPermit (c : Cmd) (s : State) : Out :=
  setctl 1 "SETCTL_PERMIT" c [0xFF] (fun _ => true) false (fun u _ x => u.setCtx { x with permit := BitVec.ofNat 8 (cmdArg c 1) }) s
def execSetctlLease (c : Cmd) (s : State) : Out :=
  setctl 2 "SETCTL_LEASE" c [2 ^ 64 - 1] (fun _ => decide (1 ≤ cmdArg c 1 ∧ cmdArg c 1 ≤ 10000)) false (fun u _ x => u.setCtx { x with lease := cmdArg c 1 }) s

/-- The first rule of R281; 0 removes the ring. -/
def ringOk (base log2 : Nat) : Bool := decide (base < 2 ^ 56) && (log2 == 0 || (decide (12 ≤ log2 ∧ log2 ≤ 26) && base % 2 ^ log2 == 0))

def execSetctlRequestRing (c : Cmd) (s : State) : Out :=
  setctl 3 "SETCTL_REQUEST_RING" c [2 ^ 64 - 1, 2 ^ 64 - 1] (fun _ => ringOk (cmdArg c 1) (cmdArg c 2)) false
    (fun u _ x => u.setCtx { x with rq := { base := cmdArg c 1, log2 := cmdArg c 2 } }) s
def execSetctlEventRing (c : Cmd) (s : State) : Out :=
  setctl 4 "SETCTL_EVENT_RING" c [2 ^ 64 - 1, 2 ^ 64 - 1] (fun _ => ringOk (cmdArg c 1) (cmdArg c 2)) true
    (fun u cid x => (u.setCtx { x with rings := assocSet c.host { base := cmdArg c 1, log2 := cmdArg c 2 } x.rings }).flushEvents cid c.host (x.heldEv.length + 1)) s
def execSetctlRespbase (c : Cmd) (s : State) : Out :=
  setctl 5 "SETCTL_RESPBASE" c [2 ^ 64 - 1] (fun _ => cmdArg c 1 % 4096 == 0 && decide (cmdArg c 1 < 2 ^ 56)) false
    (fun u _ x => u.setCtx { x with respBase := cmdArg c 1 }) s
def execSetctlQuotaLimit (c : Cmd) (s : State) : Out :=
  setctl 6 "SETCTL_QUOTA_LIMIT" c [2 ^ 64 - 1, 2 ^ 64 - 1] (fun _ => decide (cmdArg c 1 ≤ 255 ∧ cmdArg c 2 ≤ 0xFFFFFFFF)) false
    (fun u _ x => u.setCtx { x with limits := x.limits.set (cmdArg c 1) (BitVec.ofNat 32 (cmdArg c 2)) }) s

/-- A command that no row lists, or SETCTL with a selector that none does: DENIED_STATE (R292). -/
def execUnlistedCommand (c : Cmd) (code : Byte) (s : State) : Out :=
  if (decide (1 ≤ code.toNat ∧ code.toNat ≤ 0x0B)) || (code == 0x0C && decide (1 ≤ cmdArg c 0 % 256 ∧ cmdArg c 0 % 256 ≤ 6)) then
    .refused (.notArisen "UNLISTED_COMMAND")
  else if s.dev.taking.isNone && !s.portOf c.host c.port then .refused (.notArisen "UNLISTED_COMMAND")
  else if s.dev.st != .running then .next s
  else .next ((s.lapsed (s.portPart c.port * 1024 + c.ctx.toNat)).block (s.portPart c.port * 1024 + c.ctx.toNat) c.host code c.tag (c.args.getD 0 0) (if c.compl.toNat % 16 = 0 then c.compl else 0) (cmdWords c code) fun u => (3, u))

/-! ## Submissions (R370, R373-R375, R380) -/

def subWords (b : Sub) : List DWord := b.head :: b.compl :: b.desc :: b.gang :: b.start :: b.deadline :: b.members :: b.rest
def subHeadOk (b : Sub) (kind : Nat) : Bool :=
  let h := b.head.toNat
  bitsOf h 0 8 == kind && bitsOf h 8 8 == 0 && bitsOf h 27 1 == 0 && bitsOf h 29 3 == 0 && b.compl.toNat % 16 == 0 && b.rest.length == 9 &&
    b.rest.all (fun w => w == 0) && decide (b.desc.toNat < 2 ^ 56) && b.desc.toNat % 64 == 0

/-- The member ids of a coordinator's block. -/
def State.members (s : State) (w : Who) (va : Nat) : Nat → Option (List (BitVec 12))
  | 0 => some []
  | n + 1 =>
    match s.getVa w va 8 with
    | .error _ => none
    | .ok bs =>
      match s.members w (va + 8) n with
      | none => none
      | some rest => if 4096 ≤ leVal bs then none else some (BitVec.ofNat 12 (leVal bs) :: rest)

/-- The gang part of a KIND 2 block; MCOUNT, DEADLINE and MEMBERS are a coordinator's (R373). -/
def State.gangOf (s : State) (w : Who) (b : Sub) : Option GangLaunch :=
  let coord := bitsOf b.gang.toNat 32 1 == 1
  let n := bitsOf b.gang.toNat 33 4
  let base : GangLaunch := { gid := loOf b.gang, start := b.start.toNat, coord, members := [], deadline := b.deadline.toNat }
  if bitsOf b.gang.toNat 37 27 ≠ 0 then none
  else if coord then
    if n = 0 ∨ b.start.toNat ≤ b.deadline.toNat ∨ b.members.toNat % 8 ≠ 0 ∨ 2 ^ 56 ≤ b.members.toNat then none
    else (s.members w b.members.toNat n).map fun ms => { base with members := ms }
  else some base

/-- The coordinator sends PREPARE, with T, to every member (R380 step 1). -/
def State.send (s : State) (kind : Nat) (dests : List (BitVec 12)) (gid : Word) (start : Nat := 0) : State :=
  { s with dev := { s.dev with sent := s.dev.sent ++ dests.map fun m => (kind, m, gid, start) } }
def State.prepare (s : State) (gang : Option GangLaunch) : State :=
  match gang with
  | some g => if g.coord then s.send 1 g.members g.gid g.start else s
  | none => s

/-- The reads that a submission makes: its descriptor, the member ids, then the dependence counter. -/
def State.subReads (s : State) (w : Who) (b : Sub) (kind : Nat) : List (Nat × Acc) :=
  ((List.range 4).map fun i => (b.desc.toNat + 64 * i, Acc.rd)) ++
    (if kind = 2 ∧ bitsOf b.gang.toNat 32 1 = 1 then (List.range (bitsOf b.gang.toNat 33 4)).map fun i => (b.members.toNat + 8 * i, Acc.rd) else []) ++
    (match s.getBytes w b.desc.toNat 256 with | .ok bs => depRead (leVal bs) | .error _ => [])

/-- The binding of a block's page: as it was at the acceptance, or as it is now. -/
def State.pageBind (s : State) (b : Sub) : Option Bind :=
  match s.dev.taking with
  | some q => q.bind
  | none => s.dev.binds.find? fun x => x.host == b.host && x.page == b.page

/-- A submission (R374). Its reads come after an acquire at .sys. -/
def submit (kind : Nat) (name : String) (again : Ev) (b : Sub) (s0 : State) : Out :=
  if (bitsOf b.head.toNat 0 8 == 2) != (kind == 2) || (s0.dev.taking.isNone && !s0.portOf b.host b.port) then .refused (.notArisen name)
  else if s0.dev.st != .running then .next s0
  else
    match s0.pageBind b with
    | none => .next s0
    | some bind =>
      let cid := s0.portPart b.port * 1024 + bind.ctx.toNat
      let h := b.head.toNat
      let c := s0.ctx cid
      let reads := c.guardian b.host && subHeadOk b kind
      let sa := if reads then s0.acquireAt c.aid 5 else s0
      sa.serveFirst c (if reads then sa.subReads c.device b kind else []) (fun t => t.again again) fun s1 =>
      let s := s1.lapsed cid
      .next (s.block cid b.host (if kind = 2 then 0x21 else 0x20) (BitVec.ofNat 32 (bitsOf h 32 32)) b.desc (if b.compl.toNat % 16 = 0 then b.compl else 0) (subWords b) fun u =>
        let x := u.ctx cid
        if !x.guardian b.host || !(x.st == .guarded || x.st == .offered) then (1, u)
        else if !subHeadOk b kind || (kind == 1 && !(b.gang == 0 && b.start == 0 && b.deadline == 0 && b.members == 0)) then (3, u)
        else
          let u1 := u.acquireAt x.aid 5
          match u1.getBytes x.device b.desc.toNat 256, (if kind = 2 then (u1.gangOf x.device b).map some else some none) with
          | .ok bs, some gang =>
            if bind.prioMax.toNat < (parseDesc (leVal bs)).prio then (3, u)
            else
              match u1.accept cid b.desc (leVal bs) with
              | .malformed => (3, u)
              | .busy => (5, u)
              | .taken v lid =>
                match v.launch lid with
                | some l => (0, (v.prepare gang).setLaunch { l with gang, msix := if bitsOf h 28 1 = 1 then some (b.port, bitsOf h 16 11) else none })
                | none => (0, v)
          | _, _ => (3, u))

def execSubmitLaunch (b : Sub) (s : State) : Out := submit 1 "SUBMIT_LAUNCH" (.submitLaunch b) b s
def execSubmitGang (b : Sub) (s : State) : Out := submit 2 "SUBMIT_GANG" (.submitGang b) b s

/-- A posted write or a read at CMDWIN or a page (R370). -/
def execCmdwinPostedAccess (host : Nat) (s : State) : Out :=
  if (List.range 8).any fun p => s.portOf host p then .next (s.rasFree (s.hostPart host) 0x0030 15 0)
  else .refused (.notArisen "CMDWIN_POSTED_ACCESS")

/-- A DMWr of another length or alignment, or to an unbound page: Unsupported Request, no effect (R370). -/
def execUnsupportedRequest (host : Nat) (s : State) : Out :=
  if (List.range 8).any fun p => s.portOf host p then .next s else .refused (.notArisen "UNSUPPORTED_REQUEST")

/-! ## The queue of a host (R293, R370, R371) -/

/-- The code of a command's event, and the kind of a submission's. -/
def blockCmd : Ev → Option (Cmd × Byte)
  | .create c => some (c, 0x01) | .guardOffer c => some (c, 0x02) | .guardAccept c => some (c, 0x03) | .guardShare c => some (c, 0x04)
  | .guardDrop c => some (c, 0x05) | .adopt c => some (c, 0x06) | .lease c => some (c, 0x07) | .map c => some (c, 0x08)
  | .unmap c => some (c, 0x09) | .resumeFault c | .resumeSvc c => some (c, 0x0A) | .kill c => some (c, 0x0B)
  | .setctlPermit c | .setctlLease c | .setctlRequestRing c | .setctlEventRing c | .setctlRespbase c | .setctlQuotaLimit c => some (c, 0x0C)
  | .unlistedCommand c code => some (c, code)
  | _ => none
def blockSub : Ev → Option (Sub × Byte)
  | .submitLaunch b => some (b, 0x20)
  | .submitGang b => some (b, 0x21)
  | _ => none

/-- A block is put into the queue of its host, journalled, or turned away with Request Retry Status (R370). -/
def State.enqueue (s : State) (e : Ev) (host cid : Nat) (code : Byte) (tag : Word) (arg : DWord) (words : List DWord) (bind : Option Bind) : State :=
  if s.dev.st != .running || decide (64 ≤ (s.dev.queue.filter fun q => q.host == host).length) then s
  else
    let q : Queued :=
      { host, cid, ev := e, seq := (s.part (cid / 1024)).jhead, bind
        busy := bind.isNone && decide (16 ≤ (s.dev.queue.filter fun q => q.cid == cid && q.bind.isNone).length) }
    let s1 := s.journal cid host code tag arg (blockHash words) 0xFF (s.ctx cid) (s.ctx cid)
    { s1 with dev := { s1.dev with queue := s1.dev.queue ++ [q] } }
/-- A block arrives at a port (R370); one for a page without a binding is no request of ours. -/
def State.arrives (s : State) (e : Ev) : Option State :=
  match blockCmd e, blockSub e with
  | some (c, code), _ =>
    some (if s.portOf c.host c.port then s.enqueue e c.host (s.portPart c.port * 1024 + c.ctx.toNat) code c.tag (c.args.getD 0 0) (cmdWords c code) none else s)
  | none, some (b, code) =>
    some (match s.dev.binds.find? fun x => x.host == b.host && x.page == b.page with
      | some bind =>
        if s.portOf b.host b.port then
          s.enqueue e b.host (s.portPart b.port * 1024 + bind.ctx.toNat) code (BitVec.ofNat 32 (bitsOf b.head.toNat 32 32)) b.desc (subWords b) (some bind)
        else s
      | none => s)
  | none, none => none
/-- The blocks that may take effect: the oldest of their host, and of their context (R294, R371). -/
def State.ready (s : State) (n : Nat) : Bool :=
  match s.dev.queue[n]? with
  | some q => (s.dev.queue.take n).all fun p => p.host != q.host && p.cid != q.cid
  | none => false

/-! ## The loss of a host -/

/-- A lease runs out when 2 x LEASE ms have passed; what comes at that very time comes first (R294). -/
def execLeaseExpiry (cid host : Nat) (s : State) : Out :=
  let c := s.ctx cid
  match c.clocks.find? fun x => x.1 == host with
  | some (_, t) =>
    if c.guardian host && c.st != .free && c.st != .destroyed && (decide (t + 2 * c.lease * 1000000 < s.time) || (t + 2 * c.lease * 1000000 == s.time && s.lastOfNs)) then .next (s.loseHost cid host)
    else .refused (.notArisen "LEASE_EXPIRY")
  | none => .refused (.notArisen "LEASE_EXPIRY")

def execHostPortDown (port : Nat) (s : State) : Out :=
  if !s.dev.portUp.getD port false then .refused (.notArisen "HOST_PORT_DOWN")
  else
    let s1 := ({ s with dev := { s.dev with portUp := s.dev.portUp.set port false } }).ras (s.portPart port) 0x0021 (port / 2) (BitVec.ofNat 32 port) 0
    match s.dev.boot.ports.getD port none with
    | none => .next s1
    | some h =>
      if s1.hostLive h then .next s1
      else
        let hit := (s1.contexts.filter fun c => c.cid / 1024 == s1.portPart port && c.st != .free && c.st != .destroyed &&
          (c.guardian h || c.maps.any fun m => m.backing == h)).map fun (c : Context) => c.cid
        .next (hit.foldl (fun (u : State) cid => u.loseHost cid h) s1)

end Sys2Proof.Machine
end

