-- ==== Sys2Proof/Machine/Regs.lean ====
section
/-! DEFINITION. Writes of host registers: rings, AST records, the second stage and frame release, keys, page bindings, trap
control, time control, attestation (R10, R281, R289, R316-R325, R345, R350, R372, R377, R378, R388). -/

namespace Sys2Proof.Machine

/-- A host reaches its management page through a live port; the device answers there when it runs. -/
def State.hostSees (s : State) (host : Nat) : Bool := s.dev.st == .running && s.hostLive host
/-- The administration grant (R383). -/
def State.admin (s : State) (host : Nat) : Bool := (s.part (s.hostPart host)).admin == host
def hostReg (name : String) (host : Nat) (s : State) (body : Nat → Out) : Out :=
  if s.hostSees host then body (s.hostPart host) else .refused (.notArisen name)
/-- A register that only the administering host writes; a write by another is ignored. -/
def adminReg (name : String) (host : Nat) (s : State) (body : Nat → Out) : Out :=
  hostReg name host s fun p => if s.admin host then body p else .next s

/-! ## Rings (R281, R289, R302) -/

def Ring.fits (r : Ring) (entry : Nat) : Bool := decide ((r.write - r.read).toNat ≤ r.capacity entry)

def execRqreadWrite (host : Nat) (ctx : BitVec 10) (v : Word) (s : State) : Out :=
  hostReg "RQREAD_WRITE" host s fun p =>
    let cid := p * 1024 + ctx.toNat
    let c := s.ctx cid
    if c.primary != host || c.st == .free then .next s
    else
      let r := { c.rq with read := v }
      let s1 := s.setCtx { c with rq := r }
      .next (if r.fits 16 then s1 else s1.ringError cid)

def execEvreadWrite (host : Nat) (ctx : BitVec 10) (v : Word) (s : State) : Out :=
  hostReg "EVREAD_WRITE" host s fun p =>
    let cid := p * 1024 + ctx.toNat
    let c := s.ctx cid
    match c.rings.find? fun x => x.1 == host with
    | none => .next s
    | some (_, r0) =>
      if r0.log2 = 0 then .next s
      else
        let r := { r0 with read := v }
        let r := if r.fits 32 then r else { r with error := true }
        .next ((s.setCtx { c with rings := assocSet host r c.rings }).flushEvents cid host (c.heldEv.length + 1))

/-! ## AST records and the frame pool (R318, R319) -/

/-- The context bound to an AST. -/
def State.boundTo (s : State) (part ast : Nat) : Option Context :=
  s.contexts.find? fun c => c.cid / 1024 == part && c.ast == ast && c.st != .free

def State.setPoolwr (s : State) (aid : Nat) (v : Word) : State :=
  let a := { s.ast aid with poolWr := v }
  let ok := decide ((a.poolWr - a.poolRd).toNat ≤ 2 ^ a.poolLog2 / 8)
  let s1 := s.setAst { a with poolErr := a.poolErr || !ok }
  if ok then s1
  else
    match s1.boundTo (partOfId aid) (aid % 1024) with
    | some c => s1.eventPrimary c.cid { kind := 3 }
    | none => s1

def execPoolwrWrite (host : Nat) (ast : BitVec 10) (v : Word) (s : State) : Out :=
  adminReg "POOLWR_WRITE" host s fun p => .next (s.setPoolwr (p * 1024 + ast.toNat) v)

def Ast.setMode (a : Ast) (v : DWord) : Ast :=
  { a with walk := v.getLsbD 0, fserv := v.getLsbD 1, esc := v.getLsbD 2, frel := v.getLsbD 3, traps := v.getLsbD 4 }

/-- One 64-bit word of the record. -/
def execAstRecordWrite (host : Nat) (ast : BitVec 10) (word : BitVec 3) (v : DWord) (s : State) : Out :=
  adminReg "AST_RECORD_WRITE" host s fun p =>
    let aid := p * 1024 + ast.toNat
    let a := s.ast aid
    let bound := (s.boundTo p ast.toNat).isSome
    match word.toNat with
    | 0 =>
      if v.getLsbD 31 && v.extractLsb' 16 8 == 0 && !bound then .next s
      else
        let b := a.setMode v
        .next (s.setAst (if bound then b else { b with valid := v.getLsbD 31, keyid := v.extractLsb' 16 8, colour := v.extractLsb' 12 4 }))
    | 3 => .next (if bound then s else s.setAst { a with ttroot := bitsOf v.toNat 24 40 })
    | 6 =>
      let base := bitsOf v.toNat 0 36
      let log2 := bitsOf v.toNat 43 5
      let ok := log2 = 0 ∨ (12 ≤ log2 ∧ log2 ≤ 26 ∧ base * 65536 % 2 ^ log2 = 0)
      .next (if bound ∨ ¬ok ∨ !okDeviceGpa (base * 65536) then s else s.setAst { a with poolBase := base, poolLog2 := log2 })
    | 7 => .next (s.setPoolwr aid (v.extractLsb' 16 32))
    | _ => .next s

/-! ## The second stage, frame release, keys (R314-R316, R320, R324, R325) -/

/-- The GPA of a granule field. -/
def granGpa (g : Nat) : Nat := g * 65536
/-- Tables of a die's second-stage region: 65,536 of 16 KiB; those that its entries use. -/
def distinct : List Nat → Nat
  | [] => 0
  | x :: xs => (if xs.contains x then 0 else 1) + distinct xs
def State.s2Tables (s : State) (die : Nat) : Nat :=
  let es := s.s2.filter fun e => e.die == die
  distinct (es.map fun e => e.aid * 2 ^ 11 + e.gran / 2 ^ 11) + distinct (es.map fun e => e.aid)

def execS2dataWrite (host : Nat) (v : DWord) (s : State) : Out :=
  adminReg "S2DATA_WRITE" host s fun p =>
    let pt := s.part p
    if pt.s2busy.isSome then .next s
    else
      let gran := bitsOf pt.s2sel.toNat 16 24
      let aid := p * 1024 + bitsOf pt.s2sel.toNat 0 10
      let gpa := granGpa gran
      let frame := bitsOf v.toNat 16 22
      let valid := v.getLsbD 0
      let old := s.s2find aid gpa
      let peers := s.s2.filter fun e => e.die == gpaHome gpa && e.aid == aid
      let need := (if peers.isEmpty then 1 else 0) + (if peers.any fun e => e.gran / 2 ^ 11 == gpaGran gpa / 2 ^ 11 then 0 else 1)
      let result (n : Byte) : Out := .next (s.setPart { pt with s2res := n })
      if bitsOf v.toNat 38 26 ≠ 0 ∨ bitsOf v.toNat 2 14 ≠ 0 ∨ frame / 2 ^ 16 % 16 = 15 ∨ !pt.dies.contains (gpaHome gpa) then result 2
      else if valid ∧ 65536 < s.s2Tables (gpaHome gpa) + need then result 1
      else
        let drops := !(s.ast aid).frel && (match old with | some e => !valid || e.frame != frame | none => false)
        let q := if drops then pt.releases ++ [({ aid := aid, gran := gran } : Release)] else pt.releases
        .next (s.setPart { pt with releases := q, s2busy := some { aid, gran, left := q.length, entry := if valid then some (frame, v.getLsbD 1) else none } })

/-- The old entry has left every translation cache, after the releases before it. -/
def execS2WriteComplete (part : Nat) (s : State) : Out :=
  let pt := s.part part
  match pt.s2busy with
  | none => .refused (.notArisen "S2_WRITE_COMPLETE")
  | some w =>
    if w.left ≠ 0 then .refused (.notArisen "S2_WRITE_COMPLETE")
    else
      let gpa := granGpa w.gran
      let first := !(s.s2.any fun e => e.aid == w.aid && e.die == gpaHome gpa)
      let rest := s.s2.filter fun e => !(e.aid == w.aid && e.die == gpaHome gpa && e.gran == gpaGran gpa)
      let s1 := { s.setPart { pt with s2busy := none, s2res := 0 } with
        s2 := match w.entry with | some (frame, wr) => { aid := w.aid, die := gpaHome gpa, gran := gpaGran gpa, frame, w := wr } :: rest | none => rest }
      if first && w.entry.isSome then
        let a := s1.ast w.aid
        .next (s1.setAst { a with s2root := a.s2root.set (gpaHome gpa) (BitVec.ofNat 24 (Config.choice 3 s.free)) })
      else .next s1

def execFreleaseWrite (host : Nat) (v : DWord) (s : State) : Out :=
  adminReg "FRELEASE_WRITE" host s fun p =>
    let pt := s.part p
    if 64 ≤ pt.releases.length then .next (s.setPart { pt with relOvf := true })
    else .next (s.setPart { pt with releases := pt.releases ++ [{ aid := p * 1024 + bitsOf v.toNat 0 10, gran := bitsOf v.toNat 16 24 }] })

/-- Discard every cached line of an address space in a granule, in L1, L2 and mapped stash, with its directory state. -/
def State.discard (s : State) (aid gpa : Nat) : State :=
  let inGran (line : Nat) : Bool := lineAid line == aid && lineGpa line / 65536 == gpa / 65536
  let s1 := (s.chipMeta.filter fun c => inGran c.line).foldl (fun (u : State) c => u.dropLine c.line) s
  { s1 with
    l1 := s1.l1.filter fun x => !inGran x.line
    dir := s1.dir.filter fun d => !inGran d.line
    teams := s1.teams.map fun (t : Team) =>
      { t with maps := t.maps.map fun (m : SMap) => { m with filled := m.filled.filter fun f => !(f.2.1 == aid && f.2.2 / 65536 == gpa / 65536) } } }

def execFrameReleaseComplete (part : Nat) (s : State) : Out :=
  let pt := s.part part
  match pt.releases with
  | [] => .refused (.notArisen "FRAME_RELEASE_COMPLETE")
  | r :: rest =>
    if (match pt.s2busy with | some w => w.left == 0 | none => false) then .refused (.notArisen "FRAME_RELEASE_COMPLETE")
    else
      let gpa := granGpa r.gran
      let s1 := (s.discard r.aid gpa).zeroGranule r.aid gpa
      let s2 := { s1 with s2 := s1.s2.filter fun e => !(e.aid == r.aid && e.die == gpaHome gpa && e.gran == gpaGran gpa) }
      let q := s2.part part
      .next (s2.setPart { q with releases := rest, relDone := q.relDone + 1,
                                 s2busy := q.s2busy.map fun (w : S2Write) => { w with left := w.left - 1 } })

def execKeyarmWrite (host : Nat) (v : DWord) (s : State) : Out :=
  adminReg "KEYARM_WRITE" host s fun p =>
    let pt := s.part p
    if v = 0 ∨ 255 < v.toNat then .next s
    else .next (s.setPart { pt with keygen := assocSet v.toNat (assoc 0 v.toNat pt.keygen + 1) pt.keygen })

/-! ## SPBIND (R372) -/

def State.spPage (s : State) (host : Nat) (page : BitVec 12) (denied : Bool) : State :=
  { s with dev := { s.dev with lastPage := upsert (fun (x : Nat × BitVec 12 × Bool) => x.1 == host) (host, page, denied) s.dev.lastPage } }
def execSpbindWrite (host : Nat) (v : DWord) (s : State) : Out :=
  hostReg "SPBIND_WRITE" host s fun p =>
    let page := v.extractLsb' 0 12
    let ctx := v.extractLsb' 12 10
    let c := s.ctx (p * 1024 + ctx.toNat)
    let same (b : Bind) : Bool := b.host == host && b.page == page
    if !v.getLsbD 63 then .next ({ s with dev := { s.dev with binds := s.dev.binds.filter fun b => !same b } }.spPage host page false)
    else if c.st != .free && c.guardian host then
      .next ({ s with dev := { s.dev with binds := upsert same { host, page, ctx, prioMax := v.extractLsb' 32 3 } s.dev.binds } }.spPage host page false)
    else .next (s.spPage host page true)

/-! ## Trap control (R345, R350, R358) -/

/-- A write of PRIMARY to a context's trap control block; others are ignored. -/
def primaryReg (name : String) (host : Nat) (ctx : BitVec 10) (s : State) (body : Nat → Context → Out) : Out :=
  hostReg name host s fun p =>
    let cid := p * 1024 + ctx.toNat
    let c := s.ctx cid
    if c.st == .free || c.primary != host then .next s else body cid c

def execActionTableWrite (host : Nat) (ctx : BitVec 10) (hi : Bool) (v : DWord) (s : State) : Out :=
  primaryReg "ACTION_TABLE_WRITE" host ctx s fun _ c => .next (s.setCtx (c.setTrapReg (if hi then 3 else 2) v))

def execSaveMemoryWrite (host : Nat) (ctx : BitVec 10) (size : Bool) (v : DWord) (s : State) : Out :=
  primaryReg "SAVE_MEMORY_WRITE" host ctx s fun cid c =>
    let used := s.launches.any (fun l => l.cid == cid) ||
      s.groups.any fun g => g.saved && (match s.team g.team with | some t => t.cid == cid | none => false)
    if used then .next s
    else if size then .next (s.setCtx { c with saveSize := v &&& 0x000000FFFFFF0000 })
    else
      let b := v &&& 0x000FFFFFFFFF0000
      .next (if okDeviceGpa b.toNat then s.setCtx { c with saveBase := b } else s)

def execSliceWrite (host : Nat) (ctx : BitVec 10) (v : DWord) (s : State) : Out :=
  primaryReg "SLICE_WRITE" host ctx s fun _ c =>
    let n := bitsOf v.toNat 0 17
    .next (if 100 ≤ n ∧ n ≤ 100000 then s.setCtx { c with slice := BitVec.ofNat 64 n } else s)

/-! ## Time (R377, R378) -/

/-- TIME_STEP in the log of every partition. -/
def State.rasAll (s : State) (code : BitVec 16) (info : Word) : State :=
  (s.parts.map fun (p : Part) => p.id).foldl (fun (u : State) id => u.ras id code 15 info 0) s

/-- The correction of a measured offset e, in ns: a step, or what State.tick works off. -/
def State.correct (s : State) (e : Int) : State :=
  if e < -1000000 then
    let step := (-e).toNat
    { s with time := s.time + step, dev := { s.dev with offset := 0 } }.rasAll 0x0031 (BitVec.ofNat 32 (step / 1000))
  else { s with dev := { s.dev with offset := 50000 * e } }

def execTimeadjWrite (host : Nat) (v : DWord) (s : State) : Out :=
  adminReg "TIMEADJ_WRITE" host s fun _ => .next (if s.dev.timeSrc.getLsbD 3 then s.correct (-v.toInt) else s)

/-- In hardware mode the device measures its offset. -/
def execTimeOffsetMeasure (ofs : Int) (s : State) : Out :=
  if s.dev.st != .running || s.dev.timeSrc.getLsbD 3 || s.dev.timeSrc.extractLsb' 0 3 == 0 then .refused (.notArisen "TIME_OFFSET_MEASURE")
  else .next ({ s with dev := { s.dev with timeOfs := BitVec.ofInt 64 ofs } }.correct ofs)

/-! ## Attestation (R388) -/

def execAttreqWrite (host : Nat) (v : DWord) (s : State) : Out :=
  hostReg "ATTREQ_WRITE" host s fun _ =>
    .next (if v = 1 then { s with dev := { s.dev with attest := upsert (fun (x : Nat × Bool × List Byte) => x.1 == host) (host, false, []) s.dev.attest } } else s)

/-- Bytes 0x000 to 0x0FF of a report. -/
def State.reportBody (s : State) (host : Nat) : List Byte :=
  let p := s.part (s.hostPart host)
  (assoc [] host s.dev.nonces ++ List.replicate 32 0).take 32 ++ (List.range 96).map Config.digest ++ leBytes 8 s.dev.svn.toNat ++ leBytes 8 s.time
    ++ leBytes 8 (p.id + p.admin * 16) ++ List.replicate 104 0
/-- The whole report: the body, RSA-3072 and SLH-DSA signatures over it. -/
def State.report (s : State) (host : Nat) : List Byte :=
  let b := s.reportBody host
  b ++ (List.range (384 + 16224)).map (Config.signature s.free b)

def execAttestationReportReady (host : Nat) (s : State) : Out :=
  match s.dev.attest.find? fun x => x.1 == host with
  | some (_, false, _) =>
    .next { s with dev := { s.dev with attest := upsert (fun (x : Nat × Bool × List Byte) => x.1 == host) (host, true, s.report host) s.dev.attest } }
  | _ => .refused (.notArisen "ATTESTATION_REPORT_READY")

/-! ## Registers without a behaviour of their own (R10, R316, R350, R369, R377, R388) -/

/-- TIMESRC: reserved bits and reserved values of SRC and DOMAIN are dropped. -/
def timeSrcMerge (old v : DWord) : DWord :=
  let src := if bitsOf v.toNat 0 3 ≤ 2 then bitsOf v.toNat 0 3 else bitsOf old.toNat 0 3
  let dom := if bitsOf v.toNat 8 8 ≤ 127 then bitsOf v.toNat 8 8 else bitsOf old.toNat 8 8
  BitVec.ofNat 64 (src + bitsOf v.toNat 3 1 * 8 + bitsOf v.toNat 4 3 * 16 + dom * 256)

/-- The offsets of registers whose writes are instructions of their own. -/
def ownWrite (off : Nat) : Bool :=
  off == 0x1008 || off == 0x2000 || off == 0x10020 || off == 0x300000 || off == 0x300018 || off == 0x300028 ||
    (decide (0x200000 ≤ off ∧ off < 0x210000)) ||
    (decide (0x100000 ≤ off ∧ off < 0x120000) && (off % 128 == 0x44 || off % 128 == 0x4C)) ||
    (decide (0x340000 ≤ off ∧ off < 0x350000) && (off % 64 == 0x10 || off % 64 == 0x18 || off % 64 == 0x28 || off % 64 == 0x30 || off % 64 == 0x38))

/-- BAR4 of a port (R369), in the form of PCIe: vectors of 16 bytes, then at 0x8000 the pending bits, which are read only. An offset of a write
names BAR4 by 2^40, with the port from bit 20 on (PRESUMED, log 60). A vector that is unmasked sends what is pending (R375). -/
def State.msixWrite (s : State) (port off : Nat) (v : DWord) : State :=
  let x := s.dev.vector port (off / 16)
  if 0x8000 ≤ off then s
  else if off % 16 = 0 then { s with dev := s.dev.setVector { x with addr := v } }
  else if off % 16 = 8 then
    let y := { x with data := loOf v, masked := v.getLsbD 32 }
    if x.pending && !y.masked then ({ s with dev := s.dev.setVector { y with pending := false } } : State).msixSend (port, off / 16)
    else { s with dev := s.dev.setVector y }
  else s

def execRegisterWrite (host : Nat) (off : Nat) (v : DWord) (s : State) : Out :=
  if ownWrite off then .refused (.notArisen "REGISTER_WRITE")
  else
    hostReg "REGISTER_WRITE" host s fun p =>
      if 2 ^ 40 ≤ off then
        let port := off / 2 ^ 20 % 8
        .next (if s.portOf host port then s.msixWrite port (off % 2 ^ 20) v else s)
      else if 0x340000 ≤ off ∧ off < 0x350000 then
        let cid := p * 1024 + (off - 0x340000) / 64
        let c := s.ctx cid
        let sel := off % 64 / 8
        .next (if c.st != .free && c.primary == host && off % 8 == 0 && sel ≤ 4 then s.setCtx (c.setTrapReg sel v) else s)
      else if 0x10000 ≤ off ∧ off < 0x10020 ∧ off % 8 = 0 then
        let old := (assoc [] host s.dev.nonces ++ List.replicate 32 0).take 32
        let new := old.take (off - 0x10000) ++ leBytes 8 v.toNat ++ old.drop (off - 0x10000 + 8)
        .next { s with dev := { s.dev with nonces := assocSet host new s.dev.nonces } }
      else if !s.admin host then .next s
      else if off = 0x300010 then .next (s.setPart { s.part p with s2sel := v &&& 0x000000FFFFFF03FF })
      else if off = 0x300008 then .next (s.setPart { s.part p with relOvf := (s.part p).relOvf && !v.getLsbD 31 })
      else if off = 0x1000 then .next { s with dev := { s.dev with timeSrc := timeSrcMerge s.dev.timeSrc v } }
      else .next s

end Sys2Proof.Machine
end

