-- ==== Sys2Proof/Machine/Service.lean ====
section
/-! DEFINITION. Translation served and lines filled: page walks, address translation by the host, demand fills, migration,
HBM fills, transfers with peers and over CXL.mem (R199, R211-R213, R311-R313, R322, R327, R328). -/

namespace Sys2Proof.Machine

/-! ## Walks and the TLB (R311, R313) -/

/-- A core's TLB takes an entry; it holds 2,048, and the oldest leave (R311). -/
def State.tlbFill (s : State) (e : TlbEntry) : State :=
  let mine := (s.tlb.filter fun x => x.core == e.core && !(x.aid == e.aid && x.va == e.va && x.size == e.size)).take 2047
  { s with tlb := e :: mine ++ s.tlb.filter fun x => x.core != e.core }

def Leaf.entry (l : Leaf) (core aid : Nat) : TlbEntry :=
  { core, aid, va := l.base, size := l.size, gpa := l.gpa, r := l.r, w := l.w, x := l.x, kind := l.kind, high := l.own, lost := l.lost }

/-- The walker that serves a miss (R311): a valid leaf fills the TLB. An invalid entry under WALK is asked of the primary
guardian (R313). A walk that faults fills nothing; the access takes the fault at its own check (R310). -/
def execPageWalk (core cid : Nat) (va : DWord) (s : State) : Out :=
  let c := s.ctx cid
  let a := va.toNat
  if decide (384 < core) || c.st == .free || decide (2 ^ 56 ≤ a) || (s.tlbFind core c.aid a).isSome then .refused (.notArisen "PAGE_WALK")
  else
    match s.walkVa c.aid a with
    | .leaf l => .next (s.tlbFill (l.entry core c.aid))
    | .invalid =>
      if (s.ast c.aid).walk && c.primary != 8 && !(s.ats.any fun q => q.2.1 == core && q.2.2.1 == cid && q.2.2.2.toNat / 4096 == a / 4096) then
        .next { s with ats := s.ats ++ [(s.nextId + 1, core, cid, va)], nextId := s.nextId + 1 }
      else .next s
    | _ => .next s

/-- The answer of the primary guardian (R313): it fills the TLB with a KIND 0 entry, or the request fails. -/
def execAtsTranslationCompletion (id : Nat) (answer : Option AtsAnswer) (s : State) : Out :=
  match s.ats.find? fun q => q.1 == id && id != 0 with
  | none => .refused (.notArisen "ATS_TRANSLATION_COMPLETION")
  | some q =>
    let rest := s.ats.filter fun p => p.1 != id
    match answer with
    | none => .next { s with ats := (0, q.2) :: rest }
    | some x =>
      if x.size = 4096 ∨ x.size = 65536 ∨ x.size = 2097152 ∨ x.size = 1073741824 then
        .next ({ s with ats := rest }.tlbFill
          { core := q.2.1, aid := (s.ctx q.2.2.1).aid, va := q.2.2.2.toNat / x.size * x.size, size := x.size, gpa := x.gpa / x.size * x.size,
            r := x.r, w := x.w, x := x.x, kind := 0, high := 0 })
      else .refused (.notArisen "ATS_TRANSLATION_COMPLETION")

/-- The primary guardian drops the entries it names (R313). -/
def execAtsInvalidationRequest (host : Nat) (ctx : BitVec 10) (va : DWord) (len : Nat) (s : State) : Out :=
  let cid := s.hostPart host * 1024 + ctx.toNat
  let c := s.ctx cid
  if c.st == .free || c.primary != host || decide (8 ≤ host) then .refused (.notArisen "ATS_INVALIDATION_REQUEST")
  else .next (s.tlbDrop c.aid va.toNat len)

/-! ## Fault service (R327, R328) -/

/-- The 16 leaves of a CONT run become KIND 0 over a granule, keeping R, W and X (R312). -/
def State.backRun (s : State) (aid : Nat) (l : Leaf) (g : Nat) : State :=
  ((List.range 16).foldl (fun (u : State) (i : Nat) =>
    (u.setLeaf aid (l.base + 4096 * i) 0 (leafBits l.r l.w l.x true false (g + 4096 * i))).getD u) s).tlbDrop aid l.base 65536

/-- A fault that the device serves: the leaf is of the kind, in a CONT run, with FSERV 0 and an entry in the pool. -/
def State.servable (s : State) (aid va kind : Nat) : Option Leaf :=
  match s.walkVa aid va with
  | .leaf l => if l.kind == kind && l.cont && !(s.ast aid).fserv && (s.ast aid).poolHas then some l else none
  | _ => none

/-- A demand page is backed (R327). When the pool's last entries prove unusable, the access raises its fault. -/
def execDemandFill (cid : Nat) (va : DWord) (s : State) : Out :=
  let aid := (s.ctx cid).aid
  match s.servable aid va.toNat 3 with
  | none => .refused (.notArisen "DEMAND_FILL")
  | some l =>
    match s.poolTake aid (s.poolFuel aid) with
    | (s1, none) => .next s1
    | (s1, some g) => .next (s1.backRun aid l g)

/-- A peer page is copied to this device and mapped (R328). -/
def execMigration (cid : Nat) (va : DWord) (s : State) : Out :=
  let aid := (s.ctx cid).aid
  match s.servable aid va.toNat 1 with
  | none => .refused (.notArisen "MIGRATION")
  | some l =>
    if !s.peerLink (partOfId aid) then .refused (.notArisen "MIGRATION")
    else
      match s.poolTake aid (s.poolFuel aid) with
      | (s1, none) => .next s1
      | (s1, some g) => .next ((s1.writeBytes aid g (s1.peerMem.getAll (l.own * 2 ^ 52 + l.gpa) 65536)).backRun aid l g)

/-! ## Fills (R322), and the other side of a link -/

/-- A fault of a fill is logged (R389). -/
def State.fillRas (s : State) (line : Nat) (c : Cause) : State :=
  let part := partOfId (lineAid line)
  let gpa := lineGpa line
  match c with
  | .uncorr => s.rasFree part 0x0002 (gpaHome gpa) (BitVec.ofNat 64 gpa)
  | .integrity => s.rasFree part 0x0003 (gpaHome gpa) (BitVec.ofNat 64 gpa)
  | _ => s

/-- A line of device memory is read from HBM, decrypted and checked (R314, R315, R322, R323); a line that fails a check is
not cached, and its cause reaches the access that misses. -/
def execHbmFill (line : Nat) (write : Bool) (s : State) : Out :=
  let aid := lineAid line
  let gpa := lineGpa line
  if (s.chipLine line).isSome || isHostGpa gpa || !okDeviceGpa gpa then .refused (.notArisen "HBM_FILL")
  else
    match s.fillFault aid gpa write with
    | some (c, _) => .next (s.fillRas line c)
    | none => .next (s.fill aid gpa)

/-- A peer's RGET or RPUT is performed at its home on this device; a peer writes its own memory (R212, R213). -/
def execPeerTransferRequest (r : PeerReq) (s : State) : Out :=
  let no : Out := .refused (.notArisen "PEER_TRANSFER_REQUEST")
  let ok (gpa n : Nat) : Option Nat :=
    match s.parts.find? fun p => p.dies.contains (gpaHome gpa) with
    | some p => if okDeviceGpa gpa && okDeviceGpa (gpa + n - 1) && s.peerLink p.id then some p.id else none
    | none => none
  match r with
  | .read ast gpa count =>
    match ok gpa count with
    | some p =>
      let aid := p * 1024 + ast.toNat
      if (List.range (count / 128 + 2)).any fun n => (s.fillFault aid (min (gpa + 128 * n) (gpa + count - 1)) false).isSome then no
      else .next { s with dev := { s.dev with answers := s.dev.answers ++ [(gpa, (List.range count).map fun n => s.readByte aid (gpa + n))] } }
    | none => no
  | .home peer addr bytes =>
    if addr + bytes.length ≤ 2 ^ 52 then .next { s with peerMem := s.peerMem.setAll (peer.toNat * 2 ^ 52 + addr) bytes } else no
  | .write ast gpa bytes =>
    match ok gpa bytes.length with
    | some p =>
      let aid := p * 1024 + ast.toNat
      if (List.range (bytes.length / 128 + 2)).any fun n => (s.fillFault aid (min (gpa + 128 * n) (gpa + bytes.length - 1)) true).isSome then no
      else .next (s.storeAway ((List.range bytes.length).zip bytes |>.map fun p => (Loc.glob aid (gpa + p.1), p.2)))
    | none => no

/-- A host's side of its link (R199): its processors write their memory, which ends the poison of the lines they write (R342); a host writes
device memory through its port (R303); a read answers with a line; a write-back is acknowledged. -/
def execCxlMemCompletion (r : CxlReq) (s : State) : Out :=
  let no : Out := .refused (.notArisen "CXL_MEM_COMPLETION")
  match r with
  | .hostWrite host addr bytes =>
    if host < 8 ∧ addr + bytes.length ≤ 2 ^ 64 then
      let base := 2 ^ 51 + host * 2 ^ 48 + addr
      .next { s with
        hostMem := s.hostMem.setAll (host * 2 ^ 64 + addr) bytes
        dev := { s.dev with poisoned := s.dev.poisoned.filter fun x => decide (128 * x + 128 ≤ base) || decide (base + bytes.length ≤ 128 * x) } }
    else no
  | .deviceWrite host ast gpa bytes =>
    let p := s.part (s.hostPart host)
    let aid := p.id * 1024 + ast.toNat
    let ls := (List.range bytes.length).map fun n => Loc.glob aid (gpa + n)
    if !s.hostSees host || !okDeviceGpa gpa || !okDeviceGpa (gpa + bytes.length - 1) || !p.dies.contains (gpaHome gpa) ||
        ((List.range (bytes.length / 128 + 2)).any fun n => (s.fillFault aid (min (gpa + 128 * n) (gpa + bytes.length - 1)) true).isSome) then no
    else .next (s.storeAway (ls.zip bytes))
  | .readDone line =>
    let gpa := lineGpa line
    if isHostGpa gpa && s.hostLive (gpaHost gpa) && (s.chipLine line).isNone then .next (s.fill (lineAid line) gpa) else no
  | .writeDone line =>
    let gpa := lineGpa line
    if isHostGpa gpa && s.hostLive (gpaHost gpa) && (s.chipLine line).isSome then .next (s.writeBack line) else no

end Sys2Proof.Machine
end

