-- ==== Sys2Proof/Machine/Coherence.lean ====
section
/-! DEFINITION. The messages of the die and region directories (R332-R343). The messages move states; the value of a line
is one for the whole device (log 8). A request that must wait raises itself again (R337). -/

namespace Sys2Proof.Machine

/-! ## The firewall (R343), and requests in order (R337) -/

/-- A die takes no message of another over a closed link: it is dropped, counted and logged, and never acted on. -/
def State.barred (s : State) (src dst : Nat) : Bool := src != dst && s.dev.fwclosed.contains (dst, src)
def State.fwDrop (s : State) (dst : Nat) : State :=
  let d := s.dev
  let s1 := { s with dev := { d with fwdrops := d.fwdrops.set dst (min 65535 (d.fwdrops.getD dst 0 + 1)) } }
  match s1.parts.find? fun p => p.dies.contains dst with
  | some p => s1.rasFree p.id 0x0020 dst 0
  | none => s1
/-- A message from a die to another. -/
def overLink (src dst : Nat) (s : State) (ok : Out) : Out := if s.barred src dst then .next (s.fwDrop dst) else ok

/-- The line that a request to a home asks for, and the die and line of a request to a slice. -/
def homeLine : Ev → Option Nat
  | .rds _ l | .rdx _ l | .rda _ l _ _ _ _ _ => some l
  | _ => none
def sliceLine : Ev → Option (Nat × Nat)
  | .gets c l | .getx c l | .upgr c l | .atom c l _ _ _ _ _ _ => some (dieOf c, l)
  | _ => none
/-- Requests to one home, or one slice, for a line are taken in the order of their arrival; no two arrive in one clock (R337; log 3). -/
def State.inTurn (s : State) (n : Nat) : Bool :=
  match s.work[n]? with
  | none => false
  | some e =>
    ((homeLine e).isNone || (s.work.take n).all fun x => homeLine x != homeLine e) &&
      ((sliceLine e).isNone || (s.work.take n).all fun x => sliceLine x != sliceLine e)

/-! ## At the slice (R332) -/

/-- Room for a line at a core and its die; until there is, the request raises itself again. -/
def State.roomFor (s : State) (core line : Nat) (self : Ev) (ok : State → Out) : Out :=
  match s.l1Room core line with
  | .error e => .next ((s.post e).repost self)
  | .ok s1 =>
    match s1.dieRoom (dieOf core) line with
    | .error e => .next ((s1.post e).repost self)
    | .ok s2 => ok s2

/-- GETS at the slice (R332). -/
def State.serveGets (s : State) (core line : Nat) : Out :=
  let die := dieOf core
  let e := s.dirOf die line
  if (e.st == .E || e.st == .M) && e.owner != localOf core then
    .next ((s.post (.qfwdS die line (coreOf die e.owner))).repost (.gets core line))
  else if e.st == .O && e.owner != localOf core then
    .next (((s.hold line).setL1 core line .S).setDir (e.share core) |>.post (.qfwdS die line (coreOf die e.owner)))
  else if e.gst != .I then
    if e.st == .I && (e.gst == .E || e.gst == .M) then
      .next (((s.hold line).setL1 core line .E).setDir { e with st := .E, owner := localOf core, l2 := true })
    else .next (((s.hold line).setL1 core line .S).setDir { (e.share core) with st := .S, owner := 127, l2 := true })
  else .next ((if s.asking die line then s else s.post (.rds die line)).repost (.gets core line))
def execGets (core line : Nat) (s : State) : Out :=
  if decide (384 ≤ core) || s.l1St core line != .I then .refused (.notArisen "GETS")
  else s.roomFor core line (.gets core line) fun u => u.serveGets core line

/-- GETX and UPGR at the slice (R332): the grant of the home, then every other copy of the die, then M. -/
def takeLine (self : Ev) (core line : Nat) (s : State) : Out :=
  let die := dieOf core
  let e := s.dirOf die line
  if e.gst != .E && e.gst != .M then .next ((if s.asking die line then s else s.post (.rdx die line)).repost self)
  else
    let ask := ((quadsOf e.shares).map fun q => Ev.qinv die line q) ++
      (if e.owner != 127 && e.owner != localOf core then [.qfwdX die line (coreOf die e.owner)] else [])
    if !ask.isEmpty then .next ((s.posts ask).repost self)
    else .next (((s.hold line).setL1 core line .M).setDir { e with st := .M, owner := localOf core, gst := .M, shares := 0, l2 := true })

/-- A core asks for a line it may write: its L1 does not hold it so already. -/
def State.wants (s : State) (core line : Nat) : Bool :=
  decide (core < 384) && (let st := s.l1St core line; st == .I || st == .S || st == .O)
def execGetx (core line : Nat) (s : State) : Out :=
  if s.wants core line then s.roomFor core line (.getx core line) (takeLine (.getx core line) core line) else .refused (.notArisen "GETX")
def execUpgr (core line : Nat) (s : State) : Out :=
  if s.wants core line then s.roomFor core line (.upgr core line) (takeLine (.upgr core line) core line) else .refused (.notArisen "UPGR")

/-- An O or M line leaves its L1 (R332): L2 takes the data; GSTATE is kept. -/
def execPutd (core line : Nat) (s : State) : Out :=
  if ownsDirty (s.l1St core line) then
    match s.dieRoom (dieOf core) line with
    | .error e => .next ((s.post e).post (.putd core line))
    | .ok s1 => .next (s1.leaveL1 core line)
  else .refused (.notArisen "PUTD")

/-- A dirty private line is written to HBM, and no directory records it (R341). -/
def execWbp (core line : Nat) (s : State) : Out :=
  if s.l1St core line == .P && (match s.chipLine line with | some c => c.dirty | none => false) then
    .next ((s.setL1 core line .I).retireLine line)
  else .refused (.notArisen "WBP")

def execQinv (die line quad : Nat) (s : State) : Out :=
  if die < 4 ∧ quad < 24 then .next (s.invalidate die line quad) else .refused (.notArisen "QINV")
def execQfwdS (die line core : Nat) (s : State) : Out :=
  if dieOf core = die then .next (s.forwardS die line core).1 else .refused (.notArisen "QFWD_S")
def execQfwdX (die line core : Nat) (s : State) : Out :=
  if dieOf core = die then .next (s.forwardX die line core).1 else .refused (.notArisen "QFWD_X")

/-! ## Atomics away from the L1 (R339) -/

/-- An atomic that waits to perform away from the L1: a scalar one, a lane of a VATOM, or the add of an MREL, with its place. -/
inductive Waiter where
  | load (g : Group) (l : Load) (a : Atomic)
  | lane (g : Group) (e : LogEntry) (x : LaneEntry) (nr : Bool) (ctl : LCtl)
  | mrel (t : Team) (ls : List Loc) (v : Word)

/-- The places of a waiting atomic begin at a byte of a line. -/
def startsAt (line off : Nat) : List Loc → Bool
  | .glob aid gpa :: _ => lineOf aid gpa == line && gpa % 128 == off
  | _ => false
/-- A scope whose atomics perform at the slice, or (`home`) at the home (R117, R339). -/
def atLevel (home : Bool) (scope : Nat) : Bool := if home then decide (4 ≤ scope) else decide (2 ≤ scope) && decide (scope < 4)
/-- The atomics of a group that wait for a level with an operation and operands at a place; the lanes of a VATOM in rising order
(R170). -/
def Group.waiters (g : Group) (home : Bool) (line off : Nat) (op : AtomOp) (ty : Ty) (x y : DWord) : List Waiter :=
  (g.loads.filterMap fun l => match l.atom with
    | some a => if l.value.isNone && g.mayPerform l a && atLevel home a.scope.toNat && startsAt line off l.locs && a.op == op && ty == .i32 &&
        a.x == x && a.y == y then
        some (.load g l a) else none
    | none => none) ++
  g.olog.flatMap fun e => match e.instr with
    | .vatom t o nr _ _ _ _ _ ctl =>
      if t == ty && o == op && atLevel home ctl.scope.toNat then
        (e.lanes.filter fun z => g.mayAct e z && startsAt line off z.locs && z.opA == x && z.opB == y).map fun z => .lane g e z nr ctl
      else []
    | _ => []
/-- The add of a team's MREL that waits for a level (R196). -/
def Team.waiters (t : Team) (home : Bool) (line off : Nat) (op : AtomOp) (ty : Ty) (x y : DWord) : List Waiter :=
  match t.stream.adding with
  | some (ls, v, level) =>
    if t.stream.running && atLevel home level.toNat && startsAt line off ls && op == .add && ty == .i32 && x == v.zeroExtend 64 && y == 0 then [.mrel t ls v] else []
  | none => []
/-- The atomic performs on its bytes and holds its old value for its registers (R117, R339). -/
def State.performWaiter (s : State) (w : Waiter) (ty : Ty) : State × DWord :=
  match w with
  | .load g l a =>
    match s.atomStep (s.who g).aid l.scope l.acq a.rel l.locs a.new with
    | (s1, old) => (s1.setGroup { g with loads := g.loads.map fun m => if m.seq == l.seq then { m with value := some old } else m }, old)
  | .lane g e x nr ctl =>
    let op := match e.instr with | .vatom _ o _ _ _ _ _ _ _ => o | _ => .add
    match s.atomStep (s.who g).aid (ctl.scope.zeroExtend 5) (acquires ctl.order) (releases ctl.order) x.locs (atomWord op ty x.opA x.opB) with
    | (s1, old) =>
      (s1.settle g { e with lanes := e.lanes.map fun (z : LaneEntry) => if z.lane == x.lane then x.atomDone nr ty old else z }, old)
  | .mrel t ls v =>
    match s.atomStep (s.teamWho t).aid 0 false false ls (atomWord .add ty (v.zeroExtend 64) 0) with
    | (s1, old) => (s1.onStream t.tid fun st => { st with adding := none, added := true }, old)

/-- An atomic of the cores that `from_` names performs away from the L1: one that waits for that level with this operation at this
place; none is left when it has performed already (log 8). -/
def State.atomicAt (s : State) (from_ : Nat → Bool) (home : Bool) (line off : Nat) (op : AtomOp) (ty : Ty) (x y : DWord) : State × DWord :=
  match ((s.groups.filter fun g => from_ g.core && !g.saved).flatMap fun g => g.waiters home line off op ty x y) ++
      (s.teams.filter fun t => from_ t.core).flatMap fun t => t.waiters home line off op ty x y with
  | w :: _ => s.performWaiter w ty
  | [] => (s, 0)

/-- An atomic at .clu or wider reaches its slice: performed there at .clu and .die, by the home at .part and wider. The scopes of
SCPSET come as the level that their members give (R238). -/
def execAtom (core line off : Nat) (op : AtomOp) (ty : Ty) (x y : DWord) (scope : BitVec 5) (s : State) : Out :=
  let die := dieOf core
  let e := s.dirOf die line
  let self : Ev := .atom core line off op ty x y scope
  if decide (384 ≤ core) || decide (scope.toNat < 2) || decide (7 ≤ scope.toNat) || off % (if ty.is64 then 8 else 4) != 0 || decide (128 ≤ off) then
    .refused (.notArisen "ATOM")
  else if decide (4 ≤ scope.toNat) then .next (s.post (.rda die line off op ty x y))
  else if e.gst != .M then .next ((if s.asking die line then s else s.post (.rdx die line)).repost self)
  else
    let ask := ((quadsOf e.shares).map fun q => Ev.qinv die line q) ++ (if e.owner != 127 then [.qfwdX die line (coreOf die e.owner)] else [])
    if !ask.isEmpty then .next ((s.posts ask).repost self)
    else
      match s.fillFault (lineAid line) (lineGpa line) true with
      | some (c, _) => .next (s.fillRas line c)
      | none => .next ((s.atomicAt (fun c => c == core) false line off op ty x y).1.setDir { e with st := .I, owner := 127, gst := .M, l2 := true })

/-! ## The region directory (R333, R334, R336, R340) -/

/-- Entries of one set: GPA bits 28:16 of the region (R333). -/
def RegionEntry.row (r : RegionEntry) : Nat := lineGpa r.base / 65536 % 8192
/-- QUIET (R333): clocks since the last transaction, saturating. -/
def State.quietOf (s : State) (r : RegionEntry) : Nat := min 65535 (s.cycle - r.since)

/-- Back-invalidation or a transaction is under way in a range of lines (R337, R340). -/
def inRange (base n line : Nat) : Bool := decide (base ≤ line) && decide (line < base + n)
def State.rangeBusy (s : State) (base n : Nat) : Bool :=
  (s.txns.any fun t => inRange base n t.line) ||
  s.work.any fun e => match e with
    | .rginv _ b m | .rgack _ b m => decide (b < base + n) && decide (base < b + m)
    | .rgdat _ l => inRange base n l
    | _ => false

/-- Room for one more entry in a set (R333, R334): 16 ways; else the entry longest without a transaction is back-invalidated, once no
transaction is running in its range (R337). -/
def State.regionRoom (s : State) (home row : Nat) : State × Bool :=
  let set := s.regions.filter fun r => r.home == home && r.row == row
  if set.length < 16 then (s, true)
  else
    match set with
    | [] => (s, false)
    | x :: xs =>
      let v := xs.foldl (fun (a b : RegionEntry) => if b.since < a.since then b else a) x
      let dies := (List.range 4).filter fun d => v.sta d != 0
      if s.rangeBusy v.base v.lines then (s, false)
      else if dies.isEmpty then (s.dropRegion v, true)
      else (s.posts (dies.map fun d => Ev.rginv d v.base v.lines), false)

/-- An entry splits into two of half its size (R334). -/
def State.splitRegion (s : State) (r : RegionEntry) : State :=
  let lo := { r with k := r.k + 1 }
  let hi := { r with k := r.k + 1, base := r.base + r.lines / 2 }
  { s with regions := s.regions.flatMap fun q => if q.same r then [lo, hi] else [q] }

/-- The dies to snoop (R336 step 2; every marked die for RDA, R339). -/
def snoopTargets (r : RegionEntry) (asker : Nat) (excl atomic : Bool) : List Nat :=
  (List.range 4).filter fun d =>
    if d = r.home then asker != r.home || atomic
    else (atomic || d != asker) && (r.sta d == 2 || (excl && r.sta d == 1))

/-- A request at the home ends (R336 steps 4 and 5, R339); in an entry of several lines no die's mark falls (R333). The requests of a die whose fill
fails are dropped. -/
def State.finishTxn (s : State) (t : Txn) : State :=
  let fault := if t.dirty.isEmpty then s.fillFault (lineAid t.line) (lineGpa t.line) t.atomic.isSome else none
  let rest := s.txns.filter fun u => !(u.home == t.home && u.line == t.line)
  match fault with
  | some (c, _) =>
    { s with
      txns := rest
      work := s.work.filter fun e => match e with
        | .gets c l | .getx c l | .upgr c l | .atom c l .. => !(dieOf c == t.asker && l == t.line)
        | _ => true }.fillRas t.line c
  | none =>
    let mark (v : Nat) (u : State) : State :=
      match u.regionOf t.home t.line with
      | some r => u.setRegion { (r.mark t.asker (if r.k = 9 then v else max v (r.sta t.asker))) with since := u.cycle }
      | none => u
    match t.atomic with
    | some (off, op, ty, x, y) =>
      let a := { s with txns := rest }.atomicAt (fun c => dieOf c == t.asker) true t.line off op ty x y
      let u := a.1.clearWay t.home t.line 3
      ((mark 0 u).setDir { u.dirOf t.home t.line with st := .I, owner := 127, gst := .M, l2 := true }).post (.adone t.asker t.line a.2)
    | none =>
      let g : Grant := if t.excl then .m else if t.dirty.isEmpty && !t.clean then .e else .s
      (mark (if g == .s then 1 else 2) { s with txns := t :: rest }).post (.gnt t.asker t.line g)

/-- The entry for a line that none covers (R336): 64 KiB, or the largest block around the line that meets no entry in place, since a
die's mark is never below its standing (R333; log 8). -/
def State.newRegion (s : State) (home line : Nat) : RegionEntry :=
  let at_ (k : Nat) : RegionEntry := { home, k, sts := [0, 0, 0, 0], aid := lineAid line, since := s.cycle, base := line / 2 ^ (9 - k) * 2 ^ (9 - k) }
  let meets (k : Nat) : Bool := s.regions.any fun r => r.home == home && decide (r.base < (at_ k).base + (at_ k).lines) && decide ((at_ k).base < r.base + r.lines)
  at_ (((List.range 10).find? fun k => !meets k).getD 9)

/-- A request of a die at the home of the line (R336). -/
def atHome (self : Ev) (die line : Nat) (excl : Bool) (atomic : Option (Nat × AtomOp × Ty × DWord × DWord)) (s : State) : Out :=
  let home := s.lineHome line
  if s.rangeBusy line 1 then .next (s.repost self)
  else
    match s.regionOf home line with
    | none =>
      match s.regionRoom home (lineGpa line / 65536 % 8192) with
      | (s1, false) => .next (s1.repost self)
      | (s1, true) => .next ({ s1 with regions := s1.newRegion home line :: s1.regions }.repost self)
    | some r =>
      let targets := snoopTargets r die excl atomic.isSome
      if (targets.any fun d => d != home && d != die) && decide (r.k < 9) then
        if s.rangeBusy r.base r.lines then .next (s.repost self)
        else
        match s.regionRoom home r.row with
        | (s1, false) => .next (s1.repost self)
        | (s1, true) =>
          let s2 := s1.splitRegion r
          let t : Txn := { home, line, asker := die, excl, atomic, waiting := targets }
          .next ({ s2 with txns := t :: s2.txns }.posts (targets.map fun d => if excl then Ev.snpx d line else Ev.snps d line))
      else
        let t : Txn := { home, line, asker := die, excl, atomic, waiting := targets }
        if targets.isEmpty then .next ({ s with txns := t :: s.txns }.finishTxn t)
        else .next ({ s with txns := t :: s.txns }.posts (targets.map fun d => if excl then Ev.snpx d line else Ev.snps d line))

def execRds (die line : Nat) (s : State) : Out :=
  if die < 4 then overLink die (s.lineHome line) s (atHome (.rds die line) die line false none s) else .refused (.notArisen "RDS")
def execRdx (die line : Nat) (s : State) : Out :=
  if die < 4 then overLink die (s.lineHome line) s (atHome (.rdx die line) die line true none s) else .refused (.notArisen "RDX")
def execRda (die line off : Nat) (op : AtomOp) (ty : Ty) (x y : DWord) (s : State) : Out :=
  if die < 4 ∧ off < 128 then
    overLink die (s.lineHome line) s (atHome (.rda die line off op ty x y) die line true (some (off, op, ty, x, y)) s)
  else .refused (.notArisen "RDA")

/-- The mark of a snooped die in a 128-byte entry (R336 step 5). -/
def snoopedMark (excl : Bool) (r : Resp) : Nat :=
  if excl then 0 else match r with | .dirty => 2 | .clean => 1 | .miss => 0
/-- The answer of a die to the snoop of a transaction; after the last one the transaction ends. -/
def State.answered (s : State) (t : Txn) (die : Nat) (r : Resp) : State :=
  let left := t.waiting.filter fun d => d != die
  let u : Txn := { t with waiting := left, dirty := (if r == Resp.dirty then die :: t.dirty else t.dirty), clean := t.clean || r == Resp.clean }
  let s1 := match s.regionOf t.home t.line with
    | some q => if q.k = 9 then s.setRegion (q.mark die (snoopedMark t.excl r)) else s
    | none => s
  let s2 := { s1 with txns := s1.txns.map fun (x : Txn) => (if x.home == t.home && x.line == t.line then u else x) }
  if left.isEmpty then s2.finishTxn u else s2

/-- A die gives up a dirty line (R332, R335, R336). A home that waits for the die's answer to a snoop takes the WB as that answer, DIRTY
(R337); another transaction on the line ends first. -/
def execWb (die line : Nat) (s : State) : Out :=
  let e := s.dirOf die line
  if e.gst == .M || e.gst == .O then
    overLink die (s.lineHome line) s
      (match s.txns.find? fun t => t.line == line && t.waiting.contains die with
       | some t =>
         let s1 := { s with work := s.work.filter fun x => x != Ev.srsp die line t.excl .miss && x != Ev.snps die line && x != Ev.snpx die line }
         .next (((s1.giveUp die line).answered t die .dirty).post (.wback die line))
       | none =>
         if s.txns.any fun t => t.line == line then .next (s.repost (.wb die line)) else .next ((s.giveUp die line).post (.wback die line)))
  else .refused (.notArisen "WB")
def execWback (die line : Nat) (s : State) : Out :=
  if die < 4 then overLink (s.lineHome line) die s (.next s) else .refused (.notArisen "WBACK")

/-- A snoop at a die; one that finds the die's WB of the line in flight is answered MISS (R337). -/
def snoopMove (die line : Nat) (excl : Bool) (s : State) : Out :=
  overLink (s.lineHome line) die s
    (if s.work.contains (.wb die line) then .next (s.post (.srsp die line excl .miss))
     else match s.snoop die line excl with | (s1, r) => .next (s1.post (.srsp die line excl r)))
def execSnps (die line : Nat) (s : State) : Out := if die < 4 then snoopMove die line false s else .refused (.notArisen "SNPS")
def execSnpx (die line : Nat) (s : State) : Out := if die < 4 then snoopMove die line true s else .refused (.notArisen "SNPX")

/-- An answer reaches the home; a MISS of a die whose WB is in flight waits for it (R337). -/
def execSrsp (die line : Nat) (excl : Bool) (r : Resp) (s : State) : Out :=
  match s.txns.find? fun t => t.line == line && t.excl == excl && t.waiting.contains die with
  | none => .refused (.notArisen "SRSP")
  | some t =>
    overLink die t.home s
      (if r == .miss && s.work.contains (.wb die line) then .next (s.repost (.srsp die line excl r)) else .next (s.answered t die r))

/-- A grant reaches the die (R336): GSTATE is what it grants, and L2 holds the line. -/
def execGnt (die line : Nat) (g : Grant) (s : State) : Out :=
  if s.txns.any fun t => t.line == line && t.asker == die && t.waiting.isEmpty then
    overLink (s.lineHome line) die s <|
    let st : LState := match g with | .s => .S | .e => .E | .m => .M
    match s.dieRoom die line with
    | .error e => .next ((s.post e).post (.gnt die line g))
    | .ok s0 =>
      let s1 := { s0 with txns := s0.txns.filter fun t => !(t.line == line && t.asker == die) }
      .next ((s1.hold line).setDir { s1.dirOf die line with gst := st, l2 := true })
  else .refused (.notArisen "GNT")

/-- Back-invalidation at a die (R340): every line of the range it holds, as under SNPX. -/
def execRginv (die base size : Nat) (s : State) : Out :=
  if die < 4 then
    overLink (s.lineHome base) die s <|
    let ls := (s.dir.filter fun e => e.die == die && inRange base size e.line).map fun e => e.line
    let s1 := ls.foldl (fun (u : State) (l : Nat) =>
      match u.snoop die l true with
      | (v, .dirty) => v.post (.rgdat die l)
      | (v, _) => v) s
    .next (s1.post (.rgack die base size))
  else .refused (.notArisen "RGINV")
def execRgdat (die line : Nat) (s : State) : Out :=
  if die < 4 then overLink die (s.lineHome line) s (.next ((s.writeBack line).retireLine line)) else .refused (.notArisen "RGDAT")
/-- RGACK follows the die's lines; after the last one the entry is free (R340). -/
def execRgack (die base size : Nat) (s : State) : Out :=
  match s.regions.find? fun r => r.base == base && r.lines == size && r.home == s.lineHome base with
  | none => .refused (.notArisen "RGACK")
  | some r =>
    overLink die r.home s <|
    if s.work.any fun e => match e with | .rgdat d l => d == die && inRange base size l | _ => false then .next (s.post (.rgack die base size))
    else
      let r1 := r.mark die 0
      .next (if r1.sts.all (fun v => v == 0) then s.dropRegion r else s.setRegion r1)

/-- The old value of RDA reaches the die (R339): its instruction took the value when it performed (log 8). -/
def execAdone (die line : Nat) (_old : DWord) (s : State) : Out :=
  if die < 4 then overLink (s.lineHome line) die s (.next s) else .refused (.notArisen "ADONE")

/-- Two quiet halves merge (R334). -/
def execRegionMerge (home base size : Nat) (s : State) : Out :=
  let half := size / 2
  let at_ (b : Nat) : Option RegionEntry := s.regions.find? fun r => r.home == home && r.base == b && r.lines == half
  match at_ base, at_ (base + half) with
  | some a, some b =>
    if decide (1 ≤ a.k) && base % size == 0 && s.quietOf a == 65535 && s.quietOf b == 65535 && !s.rangeBusy base size then
      let m : RegionEntry := { a with k := a.k - 1, sts := (List.range 4).map fun d => max (a.sta d) (b.sta d), since := max a.since b.since }
      .next { (s.dropRegion a).dropRegion b with regions := m :: ((s.dropRegion a).dropRegion b).regions }
    else .refused (.notArisen "REGION_MERGE")
  | _, _ => .refused (.notArisen "REGION_MERGE")

/-! ## Directory errors (R342) and the firewall (R343) -/

/-- A line is poisoned: every later fill raises UNCORR until its frame is released; a host-backed one, until its host writes it. -/
def State.poison (s : State) (line : Nat) : State :=
  let aid := lineAid line
  let gpa := lineGpa line
  if isHostGpa gpa then { s with dev := { s.dev with poisoned := gpa / 128 :: s.dev.poisoned } }.dropLine line
  else
    match s.s2find aid gpa with
    | some e =>
      let hl := e.hpa gpa / 128
      (s.setMeta { s.metaOf hl with keyid := (s.ast aid).keyid, keygen := s.keyGen (partOfId aid) (s.ast aid).keyid, uncorr := true }).dropLine line
    | none => s.dropLine line
/-- No copy was dirty: HBM is current, and what the chip holds of the line goes, unless another directory still has it. -/
def State.forget (s : State) (line : Nat) : State :=
  if s.dir.any (fun e => e.line == line) || s.l1.any (fun x => x.line == line) then s else s.dropLine line

/-- What the number of dirty answers decides for a line (R342). -/
def State.recallLine (s : State) (die line dirty : Nat) : State :=
  let log (u : State) (code : BitVec 16) : State := u.rasFree (partOfId (lineAid line)) code die (BitVec.ofNat 64 (lineGpa line))
  match dirty with
  | 0 => log (s.forget line) 0x0012
  | 1 => log ((s.writeBack line).retireLine line) 0x0010
  | _ => log (s.poison line) 0x0011

def execDirEccRecall (die : Nat) (region : Bool) (line : Nat) (s : State) : Out :=
  if region then
    match s.regionOf die line with
    | none => .refused (.notArisen "DIR_ECC_RECALL")
    | some r =>
      if s.rangeBusy r.base r.lines then .refused (.notArisen "DIR_ECC_RECALL")
      else
        .next (((List.range r.lines).foldl (fun (u : State) (n : Nat) =>
          let l := r.base + n
          let acc := (List.range 4).foldl (fun (a : State × Nat) (d : Nat) =>
            match a.1.snoop d l true with
            | (v, .dirty) => (v, a.2 + 1)
            | (v, _) => (v, a.2)) (u, 0)
          acc.1.recallLine die l acc.2) s).dropRegion r)
  else
    if s.dir.any (fun e => e.die == die && e.line == line) && !s.rangeBusy line 1 then
      let mine (x : L1Line) : Bool := x.line == line && dieOf x.core == die && x.st != .P
      let dirty := (s.l1.filter fun x => mine x && ownsDirty x.st).length
      .next (((s.dropL1 mine).setDir { die, line }).recallLine die line dirty)
    else .refused (.notArisen "DIR_ECC_RECALL")

/-- A message from a die arrives at another over a closed link (R343). -/
def execFirewallDrop (src dst : Nat) (s : State) : Out :=
  if s.dev.fwclosed.contains (dst, src) && decide (dst < 4) then .next (s.fwDrop dst) else .refused (.notArisen "FIREWALL_DROP")

end Sys2Proof.Machine
end

