-- ==== Sys2Proof/Machine/Device.lean ====
section
/-! DEFINITION. Gang launches, links, the main clock, reset and bring-up (R8, R368, R380-R389). -/

namespace Sys2Proof.Machine

/-! ## Gang launches (R380, R381) -/

def State.gangLaunch (s : State) (gid : Word) (p : Launch → GangLaunch → Bool) : Option (Launch × GangLaunch) :=
  s.launches.findSome? fun l => match l.gang with
    | some g => if g.gid == gid && l.ending.isNone && p l g then some (l, g) else none
    | none => none
def State.setGang (s : State) (l : Launch) (g : GangLaunch) : State := s.setLaunch { l with gang := some g }

/-- The cores and slots that a gang launch reserves (R380 step 2): every team for CORES, the first otherwise. -/
def State.reservation (s : State) (l : Launch) : Option (List (Nat × List Nat)) :=
  if l.ready then (s.placement l).map List.flatten else none

/-- An abort before the start frees the reservation (R380 step 4). -/
def State.abortGang (s : State) (l : Launch) (g : GangLaunch) : State :=
  s.setLaunch { l with gang := some { g with places := [], reserved := false }, ending := some .aborted }
/-- COMMIT: eligible with NOTBEFORE = T. -/
def State.commitGang (s : State) (l : Launch) (g : GangLaunch) : State :=
  s.setLaunch { l with gang := some { g with committed := true }, desc := { l.desc with notBefore := g.start }, timeOk := false }

/-- PREPARE at a member (R380 step 2). Without a launch that can acknowledge, it waits for one, until ABORT or T. -/
def execGangPrepare (gid : Word) (start : DWord) (s : State) : Out :=
  let keep (u : State) (ps : List (Word × Nat)) : State := { u with dev := { u.dev with prepares := ps } }
  let rest := s.dev.prepares.filter fun p => p != (gid, start.toNat) && decide (s.time < p.2)
  if start.toNat ≤ s.time then .next (keep s rest)
  else
  match s.gangLaunch gid fun _ g => !g.coord && !g.prepared && g.start == start.toNat with
  | none => .next (keep s (rest ++ [(gid, start.toNat)]))
  | some (l, g) =>
    match s.reservation l with
    | none => .next (keep s (rest ++ [(gid, start.toNat)]))
    | some ps => .next (((keep s rest).setGang l { g with prepared := true, reserved := true, places := ps }).send 2 [0] gid)

/-- An ACK counts until D (R380 step 3). -/
def execGangAck (gid : Word) (dev : BitVec 12) (s : State) : Out :=
  match s.gangLaunch gid fun _ g => g.coord && !g.committed && g.members.contains dev && !g.acked.contains dev && decide (s.time ≤ g.deadline) with
  | some (l, g) => .next (s.setGang l { g with acked := g.acked ++ [dev] })
  | none => .refused (.notArisen "GANG_ACK")

/-- Device time D at the coordinator (R380 step 3). -/
def execGangDeadline (gid : Word) (s : State) : Out :=
  match s.gangLaunch gid fun _ g => g.coord && !g.committed && decide (g.deadline ≤ s.time) with
  | none => .refused (.notArisen "GANG_DEADLINE")
  | some (l, g) =>
    match (if g.members.all g.acked.contains then s.reservation l else none) with
    | some ps => .next ((s.commitGang l { g with reserved := true, places := ps }).send 3 g.members gid)
    | none => .next ((s.abortGang l g).send 4 g.members gid)

def execGangCommit (gid : Word) (s : State) : Out :=
  match s.gangLaunch gid fun _ g => !g.coord && g.prepared && !g.committed && decide (s.time ≤ g.start) with
  | some (l, g) => .next (s.commitGang l g)
  | none => .refused (.notArisen "GANG_COMMIT")
/-- ABORT ends the member's launch, and a PREPARE that waits (R380 step 4). -/
def execGangAbort (gid : Word) (s : State) : Out :=
  let u := { s with dev := { s.dev with prepares := s.dev.prepares.filter fun p => p.1 != gid } }
  match s.gangLaunch gid fun _ g => !g.coord && !g.committed with
  | some (l, g) => .next (u.abortGang l g)
  | none => .next u
def execGangStartTimeout (gid : Word) (s : State) : Out :=
  match s.gangLaunch gid fun _ g => !g.committed && decide (g.start ≤ s.time) with
  | some (l, g) => .next (s.abortGang l g)
  | none => .refused (.notArisen "GANG_START_TIMEOUT")

/-- The members a device knows: the coordinator's list, and those it has heard. -/
def GangLaunch.known (g : GangLaunch) : List (BitVec 12) :=
  g.members ++ (g.heard.map fun p => p.1).filter fun d => !g.members.contains d

def execGangHeartbeat (gid : Word) (s : State) : Out :=
  match s.gangLaunch gid fun _ g => g.started && decide (g.beat + 100000 ≤ s.time) with
  | some (l, g) => .next ((s.setGang l { g with beat := s.time }).send 5 g.known gid)
  | none => .refused (.notArisen "GANG_HEARTBEAT")
def execGangHeartbeatReceive (gid : Word) (dev : BitVec 12) (s : State) : Out :=
  match s.gangLaunch gid fun _ g => g.committed with
  | some (l, g) =>
    .next (s.setGang l { g with heard := (dev, s.time) :: g.heard.filter fun p => p.1 != dev })
  | none => .refused (.notArisen "GANG_HEARTBEAT_RECEIVE")

/-- When a member was last heard: its last heartbeat, or the start. -/
def GangLaunch.lastHeard (g : GangLaunch) (dev : BitVec 12) : Nat :=
  match g.heard.find? fun p => p.1 == dev with
  | some p => p.2
  | none => g.start

/-- A member fails (R381): the launch's POLICY decides. -/
def execGangMemberLost (gid : Word) (dev : BitVec 12) (s : State) : Out :=
  match s.gangLaunch gid fun l g => g.started && g.known.contains dev &&
      (decide (g.lastHeard dev + 1000000 ≤ s.time) || !s.peerLink (l.cid / 1024)) with
  | none => .refused (.notArisen "GANG_MEMBER_LOST")
  | some (l, g) =>
    let s1 := (s.setGang l { g with members := g.members.filter (fun m => m != dev), heard := g.heard.filter fun p => p.1 != dev }).ras
      (l.cid / 1024) 0x0032 15 gid 0
    match l.desc.policy with
    | 0 => .next { s1 with dev := { s1.dev with lostPeers := (l.lid, dev.toNat) :: s1.dev.lostPeers } }
    | 1 => .next (s1.abortLaunch l.lid)
    | _ =>
      .next ((s1.launchTeams l.lid).foldl (fun (u : State) (t : Team) =>
        if t.retired || t.dead then u
        else u.trapTeam t.tid { cause := .gang, group := ((u.teamGroups t.tid).map fun x => x.grp).foldl min 31, detail := gid.zeroExtend 64 }) s1)

/-! ## Links and the main clock (R8, R368, R389) -/

/-- The partition of a die. -/
def State.diePart (s : State) (die : Nat) : Nat :=
  match s.parts.find? fun p => p.dies.contains die with
  | some p => p.id
  | none => 0
/-- An event of the whole device, in the log of every partition. -/
def State.rasEach (s : State) (code : BitVec 16) : State := s.parts.foldl (fun (u : State) (p : Part) => u.rasFree p.id code 15 0) s

def execNirusLinkDown (port : Nat) (s : State) : Out :=
  if s.dev.nirusUp.getD port false then
    .next ({ s with dev := { s.dev with nirusUp := s.dev.nirusUp.set port false } }.rasFree (s.diePart (port / 3)) 0x0022 (port / 3) 0)
  else .refused (.notArisen "NIRUS_LINK_DOWN")
def execD2dDegraded (a b : Nat) (s : State) : Out :=
  if a < 4 ∧ b < 4 ∧ a ≠ b then
    let s1 := s.rasFree (s.diePart a) 0x0023 a 0
    .next (if s.diePart a = s.diePart b then s1 else s1.rasFree (s.diePart b) 0x0023 b 0)
  else .refused (.notArisen "D2D_DEGRADED")
def State.slow (s : State) (b : Bool) : State := { s with dev := { s.dev with slowed := b } }
def execThermalThrottle (s : State) : Out := .next ((s.slow true).rasEach 0x0041)
def execPowerCap (s : State) : Out := .next ((s.slow true).rasEach 0x0042)
def execMainClockRestored (s : State) : Out := if s.dev.slowed then .next (s.slow false) else .refused (.notArisen "MAIN_CLOCK_RESTORED")

/-- A port regains link (R296, R368): mappings that are not LOST work again. -/
def execHostPortLinkUp (port : Nat) (s : State) : Out :=
  if port < 8 ∧ s.dev.portUp.getD port false = false then .next { s with dev := { s.dev with portUp := s.dev.portUp.set port true } }
  else .refused (.notArisen "HOST_PORT_LINK_UP")

/-! ## Reset and bring-up (R382, R383, R385-R387) -/

def Boot.partList (b : Boot) : List Part :=
  b.parts.map fun p =>
    let dies := (List.range 4).filter p.1.contains
    { id := dies.headD 0, dies, admin := p.2, keygen := [(0, 1)] }
/-- The dies of a die's partition. -/
def Boot.mates (b : Boot) (die : Nat) : List Nat := match b.parts.find? fun p => p.1.contains die with | some p => p.1 | none => [die]

/-- Everything the device holds but for its bring-up facts, what lies outside it, and the bits of HBM, starts again. -/
def State.powerUp (s : State) : State :=
  { State.reset with
    cur := s.cur, ord := s.ord, inputs := s.inputs, free := s.free, hostMem := s.hostMem, undurable := s.undurable, peerMem := s.peerMem, hbm := s.hbm
    dev := { boot := s.dev.boot } }

/-- The image that a reset boots: in RECOVERY the next one that is supplied, if any (R387). -/
def Boot.next (b : Boot) (recovery : Bool) : Boot :=
  match b.images with
  | (ok, svn) :: rest => if recovery then { b with verifies := ok, svn, images := rest } else b
  | [] => b

/-- DEVICE_RESET (R385), a state of DEVSTATE at a time: power good; SECURE_BOOT; MEMORY_INIT with the partitions, or RECOVERY when the
signatures or the version fail (R387); RUNNING, with the ports trained. -/
def execDeviceReset (s : State) : Out :=
  let b := s.dev.boot
  let at_ (u : State) (st : DevState) : State := { u with dev := { u.dev with st } }
  match s.dev.st with
  | .running | .recovery => let u := s.powerUp; .next { u with dev := { u.dev with boot := b.next (s.dev.st == .recovery) } }
  | .reset => .next (at_ s .secureBoot)
  | .secureBoot =>
    if !b.verifies || decide (b.svn.toNat < b.minSvn.toNat) then .next ((at_ s .recovery).rasFree 0 0x0040 15 0)
    else
      let closed := (List.range 4).flatMap fun d => ((List.range 4).filter fun e => d != e && !(b.mates d).contains e).map fun e => (d, e)
      .next { s with
        parts := b.partList
        dev := { s.dev with
          st := .memoryInit, svn := b.svn, fwclosed := closed, fwparts := (List.range 4).map fun d => (b.mates d).foldl (fun n e => n + 2 ^ e) 0 } }
  | .memoryInit => .next { s with dev := { s.dev with st := .running, portUp := List.replicate 8 true, nirusUp := List.replicate 12 true } }

end Sys2Proof.Machine
end

