-- ==== Sys2Proof/Machine/LaneX.lean ====
section
/-! DEFINITION. Cross-lane instructions (R156-R161). -/

namespace Sys2Proof.Machine

/-- The value of a in a source lane, the reading lane's own when the source lane is not governed (R156). -/
def crossLane (gov : Mask) (a : Nat → Nat) (l : Nat) (src : Int) : Nat :=
  if 0 ≤ src ∧ src < 32 ∧ inMask gov src.toNat then a src.toNat else a l

def execVshuf (ty : Ty) (mode : ShufMode) (m : BitVec 4) (d : BitVec 8) (a b : Src) (s : State) : Out :=
  laneWrite (.vshuf ty mode m d a b) ty d s fun g c gov l =>
    let n := (srcW g c b l).toNat % 32
    let src : Int := match mode with
      | .idx => n
      | .up => (l : Int) - n
      | .down => (l : Int) + n
      | .xor => ((l ^^^ n : Nat) : Int)
    crossLane gov (srcN g c ty a) l src
def execVbcst (ty : Ty) (m : BitVec 4) (d : BitVec 8) (a b : Src) (s : State) : Out :=
  laneWrite (.vbcst ty m d a b) ty d s fun g c gov l =>
    crossLane gov (srcN g c ty a) l (((srcW g c b l).toNat % 32 : Nat) : Int)

/-- One combining step of VREDS or VSCAN (R159): value and exceptions. -/
def RedOp.step (op : RedOp) (ty : Ty) (rm : Nat) (ftz : Bool) (x y : Nat) : Nat × Exc :=
  let f := fp32.value ftz
  match op with
  | .add => (narrow ty false (elemInt ty x 0 + elemInt ty y 0), 0)
  | .min => (if elemInt ty y 0 < elemInt ty x 0 then y else x, 0)
  | .max => (if elemInt ty x 0 < elemInt ty y 0 then y else x, 0)
  | .and => (x &&& y, 0)
  | .or => (x ||| y, 0)
  | .xor => (x ^^^ y, 0)
  | .fadd => fp32.addOp rm ftz (f x) (f y)
  | .fmin => fp32.minMax false (f x) (f y)
  | .fmax => fp32.minMax true (f x) (f y)

/-- The identities of R160. -/
def RedOp.identity (op : RedOp) (ty : Ty) : Nat :=
  match op with
  | .add | .or | .xor => 0
  | .and => 2 ^ ty.width - 1
  | .min => narrow ty false (intRange ty.signed ty.width).2
  | .max => narrow ty false (intRange ty.signed ty.width).1
  | .fadd => 0x80000000
  | .fmin => 0x7F800000
  | .fmax => 0xFF800000

/-- Values, presence and the exceptions met, by lane. -/
structure Tree where
  val  : List (Option Nat)
  exc  : List Exc

/-- One span of the reduction tree (R159). -/
def Tree.span (op : Nat → Nat → Nat × Exc) (t : Tree) (span : Nat) : Tree :=
  let at_ (l : Nat) : Option Nat × Exc :=
    let e := t.exc.getD l 0
    if l % (2 * span) = 0 then
      match t.val.getD l none, t.val.getD (l + span) none with
      | some x, some y => match op x y with | (v, e2) => (some v, e ||| e2)
      | none, y => (y, e)
      | x, none => (x, e)
    else (t.val.getD l none, e)
  { val := (List.range 32).map fun l => (at_ l).1, exc := (List.range 32).map fun l => (at_ l).2 }

def execVreds (ty : Ty) (op : RedOp) (m : BitVec 4) (d : BitVec 8) (a : Src) (s : State) : Out :=
  laneExec (.vreds ty op m d a) s fun g fr k c gov =>
    let t0 : Tree := { val := (List.range 32).map fun l => if inMask gov l then some (srcN g c ty a l) else none
                       exc := List.replicate 32 0 }
    let t := [1, 2, 4, 8, 16].foldl (fun t n => t.span (RedOp.step op ty (rmOf c.fpctl) (ftzOf c.fpctl)) n) t0
    let v := (t.val.getD 0 none).getD 0
    let lanes : Mask := maskOf fun l => t.exc.getD l 0 &&& enables c.fpctl != 0
    let u : Exc := t.exc.foldl (fun x y => x ||| y) 0
    if u &&& enables c.fpctl != 0 then s.laneTrap g fr k c gov .fpe ((u &&& enables c.fpctl).zeroExtend 64) lanes
    else
      let h := g.setN ty d.toNat gov fun _ => v
      .next (s.laneNext { h with fpctl := stick h.fpctl u } fr k)

/-- The prefix of R160: results by lane, the running value and exceptions, lane by lane. -/
structure Scan where
  out : List (Nat × Nat)
  run : Option Nat
  exc : List (Nat × Exc)
def Scan.visit (op : Nat → Nat → Nat × Exc) (ident : Nat) (excl : Bool) (a : Nat → Nat) (t : Scan) (l : Nat) : Scan :=
  let r : Nat × Exc := match t.run with | none => (a l, 0) | some x => op x (a l)
  { out := (l, if excl then t.run.getD ident else r.1) :: t.out, run := some r.1, exc := (l, r.2) :: t.exc }

def execVscan (ty : Ty) (op : RedOp) (excl : Bool) (m : BitVec 4) (d : BitVec 8) (a : Src) (s : State) : Out :=
  laneExec (.vscan ty op excl m d a) s fun g fr k c gov =>
    let t : Scan := (lanesOf gov).foldl (fun (t : Scan) (l : Nat) =>
      t.visit (RedOp.step op ty (rmOf c.fpctl) (ftzOf c.fpctl)) (RedOp.identity op ty) excl (srcN g c ty a) l)
      { out := [], run := none, exc := [] }
    s.fpDone g fr k c gov (fun l => assoc 0 l t.exc) fun h => h.setN ty d.toNat gov fun l => assoc 0 l t.out

def execVvote (ty : Ty) (mode : VoteMode) (m : BitVec 4) (d : BitVec 4) (a : Src) (s : State) : Out :=
  laneToMask (.vvote ty mode m d a) d s fun g c gov =>
    let hit : Mask := maskOf fun l => inMask gov l && srcN g c ty a l != 0
    match mode with
    | .ballot => hit
    | .any => if hit != 0 then gov else 0
    | .all => if hit == gov then gov else 0
def execVmatch (ty : Ty) (m : BitVec 4) (d : BitVec 8) (a : Src) (s : State) : Out :=
  laneWrite (.vmatch ty m d a) .b32 d s fun g c gov l =>
    (maskOf fun x => inMask gov x && srcN g c ty a x == srcN g c ty a l).toNat

end Sys2Proof.Machine
end

