-- ==== Sys2Proof/Machine/Dispatch.lean ====
section
/-! DEFINITION. One arm per instruction: the meaning of each constructor of Instr. -/

namespace Sys2Proof.Machine

def exec (i : Instr) (s : State) : Host.Outcome State Fault Refusal :=
  match i with
  | .sadd d a b => Sys2Proof.Machine.execSadd d a b s
  | .ssub d a b => Sys2Proof.Machine.execSsub d a b s
  | .smul d a b => Sys2Proof.Machine.execSmul d a b s
  | .smulhi d a b => Sys2Proof.Machine.execSmulhi d a b s
  | .smulhn d a b => Sys2Proof.Machine.execSmulhn d a b s
  | .smulw d a b => Sys2Proof.Machine.execSmulw d a b s
  | .sdivi d a b => Sys2Proof.Machine.execSdivi d a b s
  | .sdivn d a b => Sys2Proof.Machine.execSdivn d a b s
  | .sremi d a b => Sys2Proof.Machine.execSremi d a b s
  | .sremn d a b => Sys2Proof.Machine.execSremn d a b s
  | .sand d a b => Sys2Proof.Machine.execSand d a b s
  | .sor d a b => Sys2Proof.Machine.execSor d a b s
  | .sxor d a b => Sys2Proof.Machine.execSxor d a b s
  | .sandn d a b => Sys2Proof.Machine.execSandn d a b s
  | .sshl d a b => Sys2Proof.Machine.execSshl d a b s
  | .sshr d a b => Sys2Proof.Machine.execSshr d a b s
  | .ssra d a b => Sys2Proof.Machine.execSsra d a b s
  | .srot d a b => Sys2Proof.Machine.execSrot d a b s
  | .smini d a b => Sys2Proof.Machine.execSmini d a b s
  | .sminn d a b => Sys2Proof.Machine.execSminn d a b s
  | .smaxi d a b => Sys2Proof.Machine.execSmaxi d a b s
  | .smaxn d a b => Sys2Proof.Machine.execSmaxn d a b s
  | .sclz d a => Sys2Proof.Machine.execSclz d a s
  | .spopc d a => Sys2Proof.Machine.execSpopc d a s
  | .sbrev d a => Sys2Proof.Machine.execSbrev d a s
  | .sceq d a b => Sys2Proof.Machine.execSceq d a b s
  | .scne d a b => Sys2Proof.Machine.execScne d a b s
  | .sclti d a b => Sys2Proof.Machine.execSclti d a b s
  | .scltn d a b => Sys2Proof.Machine.execScltn d a b s
  | .sclei d a b => Sys2Proof.Machine.execSclei d a b s
  | .sclen d a b => Sys2Proof.Machine.execSclen d a b s
  | .saddp d a b => Sys2Proof.Machine.execSaddp d a b s
  | .ssubp d a b => Sys2Proof.Machine.execSsubp d a b s
  | .sshlp d a b => Sys2Proof.Machine.execSshlp d a b s
  | .sshrp d a b => Sys2Proof.Machine.execSshrp d a b s
  | .smovi d i_ => Sys2Proof.Machine.execSmovi d i_ s
  | .smovhi d i_ => Sys2Proof.Machine.execSmovhi d i_ s
  | .saddi d i_ => Sys2Proof.Machine.execSaddi d i_ s
  | .sandi d i_ => Sys2Proof.Machine.execSandi d i_ s
  | .sori d i_ => Sys2Proof.Machine.execSori d i_ s
  | .sxori d i_ => Sys2Proof.Machine.execSxori d i_ s
  | .sshli d i_ => Sys2Proof.Machine.execSshli d i_ s
  | .sshri d i_ => Sys2Proof.Machine.execSshri d i_ s
  | .ssrai d i_ => Sys2Proof.Machine.execSsrai d i_ s
  | .sceqi d i_ => Sys2Proof.Machine.execSceqi d i_ s
  | .scltis d i_ => Sys2Proof.Machine.execScltis d i_ s
  | .scltin d i_ => Sys2Proof.Machine.execScltin d i_ s
  | .smov d a => Sys2Proof.Machine.execSmov d a s
  | .smovx d far => Sys2Proof.Machine.execSmovx d far s
  | .smovxW d far => Sys2Proof.Machine.execSmovxW d far s
  | .sget d sel => Sys2Proof.Machine.execSget d sel s
  | .sset d sel => Sys2Proof.Machine.execSset d sel s
  | .brz c disp => Sys2Proof.Machine.execBrz c disp s
  | .brnz c disp => Sys2Proof.Machine.execBrnz c disp s
  | .brany c disp => Sys2Proof.Machine.execBrany c disp s
  | .brall c disp => Sys2Proof.Machine.execBrall c disp s
  | .brnone c disp => Sys2Proof.Machine.execBrnone c disp s
  | .jmp disp => Sys2Proof.Machine.execJmp disp s
  | .call c disp => Sys2Proof.Machine.execCall c disp s
  | .ret a => Sys2Proof.Machine.execRet a s
  | .jmpr a => Sys2Proof.Machine.execJmpr a s
  | .exit => Sys2Proof.Machine.execExit s
  | .nop => Sys2Proof.Machine.execNop s
  | .sleep i_ => Sys2Proof.Machine.execSleep i_ s
  | .mfrom d a => Sys2Proof.Machine.execMfrom d a s
  | .mto d a => Sys2Proof.Machine.execMto d a s
  | .mand d a b => Sys2Proof.Machine.execMand d a b s
  | .mor d a b => Sys2Proof.Machine.execMor d a b s
  | .mxor d a b => Sys2Proof.Machine.execMxor d a b s
  | .mandn d a b => Sys2Proof.Machine.execMandn d a b s
  | .mnot d a => Sys2Proof.Machine.execMnot d a s
  | .mpopc d a => Sys2Proof.Machine.execMpopc d a s
  | .mfirst d a => Sys2Proof.Machine.execMfirst d a s
  | .exset c => Sys2Proof.Machine.execExset c s
  | .exsetAll => Sys2Proof.Machine.execExsetAll s
  | .exsave d c => Sys2Proof.Machine.execExsave d c s
  | .lrun x => Sys2Proof.Machine.execLrun x s
  | .fwait f => Sys2Proof.Machine.execFwait f s
  | .ftest d f => Sys2Proof.Machine.execFtest d f s
  | .split c a => Sys2Proof.Machine.execSplit c a s
  | .jset k c => Sys2Proof.Machine.execJset k c s
  | .join k => Sys2Proof.Machine.execJoin k s
  | .jsave k a o => Sys2Proof.Machine.execJsave k a o s
  | .jload k a o => Sys2Proof.Machine.execJload k a o s
  | .fragq d sel => Sys2Proof.Machine.execFragq d sel s
  | .bara n count => Sys2Proof.Machine.execBara n count s
  | .barw n => Sys2Proof.Machine.execBarw n s
  | .baraw n count => Sys2Proof.Machine.execBaraw n count s
  | .cbara n count => Sys2Proof.Machine.execCbara n count s
  | .cbarw n => Sys2Proof.Machine.execCbarw n s
  | .fence scope => Sys2Proof.Machine.execFence scope s
  | .rdv d => Sys2Proof.Machine.execRdv d s
  | .scpset n a o => Sys2Proof.Machine.execScpset n a o s
  | .sld32 d a o => Sys2Proof.Machine.execSld32 d a o s
  | .sld64 d a o => Sys2Proof.Machine.execSld64 d a o s
  | .sst32 d a o => Sys2Proof.Machine.execSst32 d a o s
  | .sst64 d a o => Sys2Proof.Machine.execSst64 d a o s
  | .saadd d a o => Sys2Proof.Machine.execSaadd d a o s
  | .samin d a o => Sys2Proof.Machine.execSamin d a o s
  | .samax d a o => Sys2Proof.Machine.execSamax d a o s
  | .saand d a o => Sys2Proof.Machine.execSaand d a o s
  | .saor d a o => Sys2Proof.Machine.execSaor d a o s
  | .saxor d a o => Sys2Proof.Machine.execSaxor d a o s
  | .saxch d a o => Sys2Proof.Machine.execSaxch d a o s
  | .sacas d a o => Sys2Proof.Machine.execSacas d a o s
  | .ord order scope => Sys2Proof.Machine.execOrd order scope s
  | .cpy d a b => Sys2Proof.Machine.execCpy d a b s
  | .cseal k => Sys2Proof.Machine.execCseal k s
  | .cwait k => Sys2Proof.Machine.execCwait k s
  | .cpoll d k => Sys2Proof.Machine.execCpoll d k s
  | .smap d a b => Sys2Proof.Machine.execSmap d a b s
  | .sunmap d => Sys2Proof.Machine.execSunmap d s
  | .rget d a b => Sys2Proof.Machine.execRget d a b s
  | .rput d a b => Sys2Proof.Machine.execRput d a b s
  | .tdset t a o => Sys2Proof.Machine.execTdset t a o s
  | .tdget t a o => Sys2Proof.Machine.execTdget t a o s
  | .mfork d a o => Sys2Proof.Machine.execMfork d a o s
  | .new d a => Sys2Proof.Machine.execNew d a s
  | .newLong d a => Sys2Proof.Machine.execNewLong d a s
  | .stref d a o => Sys2Proof.Machine.execStref d a o s
  | .ldref d a t o => Sys2Proof.Machine.execLdref d a t o s
  | .publ scope a => Sys2Proof.Machine.execPubl scope a s
  | .ispub d a => Sys2Proof.Machine.execIspub d a s
  | .qgetUse d dom => Sys2Proof.Machine.execQgetUse d dom s
  | .qgetLim d dom => Sys2Proof.Machine.execQgetLim d dom s
  | .ladr n a => Sys2Proof.Machine.execLadr n a s
  | .lfeed n a b => Sys2Proof.Machine.execLfeed n a b s
  | .lclose n => Sys2Proof.Machine.execLclose n s
  | .esc c v => Sys2Proof.Machine.execEsc c v s
  | .lret c v => Sys2Proof.Machine.execLret c v s
  | .lwait d n b => Sys2Proof.Machine.execLwait d n b s
  | .mbsend d a mb => Sys2Proof.Machine.execMbsend d a mb s
  | .mbsendTrap d a mb => Sys2Proof.Machine.execMbsendTrap d a mb s
  | .mbrecv d mb => Sys2Proof.Machine.execMbrecv d mb s
  | .mbpoll d mb => Sys2Proof.Machine.execMbpoll d mb s
  | .launch d a => Sys2Proof.Machine.execLaunch d a s
  | .svc v code => Sys2Proof.Machine.execSvc v code s
  | .trap code => Sys2Proof.Machine.execTrap code s
  | .brk code => Sys2Proof.Machine.execBrk code s
  | .tret mode => Sys2Proof.Machine.execTret mode s
  | .wrd d a => Sys2Proof.Machine.execWrd d a s
  | .wwr a b => Sys2Proof.Machine.execWwr a b s
  | .wsplR d a => Sys2Proof.Machine.execWsplR d a s
  | .wsplW d a => Sys2Proof.Machine.execWsplW d a s
  | .sysrd d sel => Sys2Proof.Machine.execSysrd d sel s
  | .syswr d sel => Sys2Proof.Machine.execSyswr d sel s
  | .vadd ty sat m d a b => Sys2Proof.Machine.execVadd ty sat m d a b s
  | .vsub ty sat m d a b => Sys2Proof.Machine.execVsub ty sat m d a b s
  | .vmul ty sat m d a b => Sys2Proof.Machine.execVmul ty sat m d a b s
  | .vmulhi ty m d a b => Sys2Proof.Machine.execVmulhi ty m d a b s
  | .vmad ty sat m d a b c => Sys2Proof.Machine.execVmad ty sat m d a b c s
  | .vmin ty m d a b => Sys2Proof.Machine.execVmin ty m d a b s
  | .vmax ty m d a b => Sys2Proof.Machine.execVmax ty m d a b s
  | .vabs ty sat m d a => Sys2Proof.Machine.execVabs ty sat m d a s
  | .vneg ty sat m d a => Sys2Proof.Machine.execVneg ty sat m d a s
  | .vand ty m d a b => Sys2Proof.Machine.execVand ty m d a b s
  | .vor ty m d a b => Sys2Proof.Machine.execVor ty m d a b s
  | .vxor ty m d a b => Sys2Proof.Machine.execVxor ty m d a b s
  | .vandn ty m d a b => Sys2Proof.Machine.execVandn ty m d a b s
  | .vnot ty m d a => Sys2Proof.Machine.execVnot ty m d a s
  | .vshl ty m d a b => Sys2Proof.Machine.execVshl ty m d a b s
  | .vshr ty m d a b => Sys2Proof.Machine.execVshr ty m d a b s
  | .vsra ty m d a b => Sys2Proof.Machine.execVsra ty m d a b s
  | .vrot ty m d a b => Sys2Proof.Machine.execVrot ty m d a b s
  | .vclz ty m d a => Sys2Proof.Machine.execVclz ty m d a s
  | .vpopc ty m d a => Sys2Proof.Machine.execVpopc ty m d a s
  | .vbfx ty m d a b c => Sys2Proof.Machine.execVbfx ty m d a b c s
  | .vbfi ty m d a b c => Sys2Proof.Machine.execVbfi ty m d a b c s
  | .vcmp ty cond m d a b => Sys2Proof.Machine.execVcmp ty cond m d a b s
  | .vsel ty c m d a b => Sys2Proof.Machine.execVsel ty c m d a b s
  | .vmov ty m d a => Sys2Proof.Machine.execVmov ty m d a s
  | .viota ty m d a b => Sys2Proof.Machine.execViota ty m d a b s
  | .vfadd ty m d a b => Sys2Proof.Machine.execVfadd ty m d a b s
  | .vfsub ty m d a b => Sys2Proof.Machine.execVfsub ty m d a b s
  | .vfmul ty m d a b => Sys2Proof.Machine.execVfmul ty m d a b s
  | .vfma ty m d a b c => Sys2Proof.Machine.execVfma ty m d a b c s
  | .vfmin ty m d a b => Sys2Proof.Machine.execVfmin ty m d a b s
  | .vfmax ty m d a b => Sys2Proof.Machine.execVfmax ty m d a b s
  | .vfabs ty m d a => Sys2Proof.Machine.execVfabs ty m d a s
  | .vfneg ty m d a => Sys2Proof.Machine.execVfneg ty m d a s
  | .vfcmp ty cond m d a b => Sys2Proof.Machine.execVfcmp ty cond m d a b s
  | .vfdiv ty m d a b => Sys2Proof.Machine.execVfdiv ty m d a b s
  | .vfsqrt ty m d a => Sys2Proof.Machine.execVfsqrt ty m d a s
  | .vfrcp ty m d a => Sys2Proof.Machine.execVfrcp ty m d a s
  | .vfrsq ty m d a => Sys2Proof.Machine.execVfrsq ty m d a s
  | .vfexp2 ty m d a => Sys2Proof.Machine.execVfexp2 ty m d a s
  | .vflog2 ty m d a => Sys2Proof.Machine.execVflog2 ty m d a s
  | .vfsinp ty m d a => Sys2Proof.Machine.execVfsinp ty m d a s
  | .vfcosp ty m d a => Sys2Proof.Machine.execVfcosp ty m d a s
  | .vftanh ty m d a => Sys2Proof.Machine.execVftanh ty m d a s
  | .vfrnd ty rnd exact m d a => Sys2Proof.Machine.execVfrnd ty rnd exact m d a s
  | .vcvt ty dty rnd sat sel del m d a => Sys2Proof.Machine.execVcvt ty dty rnd sat sel del m d a s
  | .vpack ty sty rnd sat half m d a b => Sys2Proof.Machine.execVpack ty sty rnd sat half m d a b s
  | .vunpk ty dty rnd sat half m d a => Sys2Proof.Machine.execVunpk ty dty rnd sat half m d a s
  | .vq4n dty idx m d a b c => Sys2Proof.Machine.execVq4n dty idx m d a b c s
  | .vt3p dty idx trapr m d a b => Sys2Proof.Machine.execVt3p dty idx trapr m d a b s
  | .vshuf ty mode m d a b => Sys2Proof.Machine.execVshuf ty mode m d a b s
  | .vbcst ty m d a b => Sys2Proof.Machine.execVbcst ty m d a b s
  | .vreds ty op m d a => Sys2Proof.Machine.execVreds ty op m d a s
  | .vscan ty op excl m d a => Sys2Proof.Machine.execVscan ty op excl m d a s
  | .vvote ty mode m d a => Sys2Proof.Machine.execVvote ty mode m d a s
  | .vmatch ty m d a => Sys2Proof.Machine.execVmatch ty m d a s
  | .vld ty m d addr ctl => Sys2Proof.Machine.execVld ty m d addr ctl s
  | .vst ty m d addr ctl => Sys2Proof.Machine.execVst ty m d addr ctl s
  | .vlds ty m d addr ctl peer => Sys2Proof.Machine.execVlds ty m d addr ctl peer s
  | .vsts ty m d addr ctl => Sys2Proof.Machine.execVsts ty m d addr ctl s
  | .vatom ty op nr stash m d addr c ctl => Sys2Proof.Machine.execVatom ty op nr stash m d addr c ctl s
  | .vprf l2 m addr ctl => Sys2Proof.Machine.execVprf l2 m addr ctl s
  | .vnew long fb m d a => Sys2Proof.Machine.execVnew long fb m d a s
  | .vstref m d addr ctl => Sys2Proof.Machine.execVstref m d addr ctl s
  | .vldref t m d addr ctl => Sys2Proof.Machine.execVldref t m d addr ctl s
  | .vtld ty tn m d a b ctl => Sys2Proof.Machine.execVtld ty tn m d a b ctl s
  | .vtst ty sat tn m d a b ctl => Sys2Proof.Machine.execVtst ty sat tn m d a b ctl s
  | .mlda a t => Sys2Proof.Machine.execMlda a t s
  | .mldb t => Sys2Proof.Machine.execMldb t s
  | .mst acc t => Sys2Proof.Machine.execMst acc t s
  | .mldc acc t => Sys2Proof.Machine.execMldc acc t s
  | .mzero acc => Sys2Proof.Machine.execMzero acc s
  | .mma acc a keep t => Sys2Proof.Machine.execMma acc a keep t s
  | .mmaz acc a keep t => Sys2Proof.Machine.execMmaz acc a keep t s
  | .mkset k i_ => Sys2Proof.Machine.execMkset k i_ s
  | .mksetH k i_ => Sys2Proof.Machine.execMksetH k i_ s
  | .mkadd k i_ => Sys2Proof.Machine.execMkadd k i_ s
  | .mkaddReg k b i_ => Sys2Proof.Machine.execMkaddReg k b i_ s
  | .mloop k b disp count => Sys2Proof.Machine.execMloop k b disp count s
  | .mend => Sys2Proof.Machine.execMend s
  | .mbara n => Sys2Proof.Machine.execMbara n s
  | .mbarw n => Sys2Proof.Machine.execMbarw n s
  | .mrel noadd tn ka kb scope value => Sys2Proof.Machine.execMrel noadd tn ka kb scope value s
  | .mrdv => Sys2Proof.Machine.execMrdv s
  | .mnop => Sys2Proof.Machine.execMnop s
  | .mtrap code => Sys2Proof.Machine.execMtrap code s
  | .clauseStart core slot frag => Sys2Proof.Machine.execClauseStart core slot frag s
  | .laneLlComplete core slot seq => Sys2Proof.Machine.execLaneLlComplete core slot seq s
  | .scalarLoadReturn core slot seq => Sys2Proof.Machine.execScalarLoadReturn core slot seq s
  | .sleepExpire core slot frag => Sys2Proof.Machine.execSleepExpire core slot frag s
  | .barrierArrivalEffect team who bar => Sys2Proof.Machine.execBarrierArrivalEffect team who bar s
  | .fenceComplete core slot frag => Sys2Proof.Machine.execFenceComplete core slot frag s
  | .fenceRollback core slot frag => Sys2Proof.Machine.execFenceRollback core slot frag s
  | .copyRetire id => Sys2Proof.Machine.execCopyRetire id s
  | .copyFault id => Sys2Proof.Machine.execCopyFault id s
  | .mappedStashFill team line excl => Sys2Proof.Machine.execMappedStashFill team line excl s
  | .walkLineStep walker => Sys2Proof.Machine.execWalkLineStep walker s
  | .walkComplete walker => Sys2Proof.Machine.execWalkComplete walker s
  | .escapeHwPublish core slot frag target scope => Sys2Proof.Machine.execEscapeHwPublish core slot frag target scope s
  | .teamStart launch => Sys2Proof.Machine.execTeamStart launch s
  | .clusterStart launch => Sys2Proof.Machine.execClusterStart launch s
  | .teamRetire team => Sys2Proof.Machine.execTeamRetire team s
  | .launchEnd launch => Sys2Proof.Machine.execLaunchEnd launch s
  | .depctrPoll launch => Sys2Proof.Machine.execDepctrPoll launch s
  | .notbeforeReached launch => Sys2Proof.Machine.execNotbeforeReached launch s
  | .missedSlot launch => Sys2Proof.Machine.execMissedSlot launch s
  | .launchBlocking launch => Sys2Proof.Machine.execLaunchBlocking launch s
  | .rungLimitExpiry cid slot rung => Sys2Proof.Machine.execRungLimitExpiry cid slot rung s
  | .rungGroupLaunch cid slot rung => Sys2Proof.Machine.execRungGroupLaunch cid slot rung s
  | .rungGroupStart launch => Sys2Proof.Machine.execRungGroupStart launch s
  | .groupPark core slot => Sys2Proof.Machine.execGroupPark core slot s
  | .svcRequestPost core slot => Sys2Proof.Machine.execSvcRequestPost core slot s
  | .trapDeliver team => Sys2Proof.Machine.execTrapDeliver team s
  | .handlerStart core => Sys2Proof.Machine.execHandlerStart core s
  | .sliceEnd core cid => Sys2Proof.Machine.execSliceEnd core cid s
  | .urgentPreempt launch => Sys2Proof.Machine.execUrgentPreempt launch s
  | .groupRestore team => Sys2Proof.Machine.execGroupRestore team s
  | .contextRemove cid => Sys2Proof.Machine.execContextRemove cid s
  | .watchdogHandler core => Sys2Proof.Machine.execWatchdogHandler core s
  | .watchdogProgress team => Sys2Proof.Machine.execWatchdogProgress team s
  | .create c => Sys2Proof.Machine.execCreate c s
  | .guardOffer c => Sys2Proof.Machine.execGuardOffer c s
  | .guardAccept c => Sys2Proof.Machine.execGuardAccept c s
  | .guardShare c => Sys2Proof.Machine.execGuardShare c s
  | .guardDrop c => Sys2Proof.Machine.execGuardDrop c s
  | .adopt c => Sys2Proof.Machine.execAdopt c s
  | .lease c => Sys2Proof.Machine.execLease c s
  | .map c => Sys2Proof.Machine.execMap c s
  | .unmap c => Sys2Proof.Machine.execUnmap c s
  | .resumeFault c => Sys2Proof.Machine.execResumeFault c s
  | .resumeSvc c => Sys2Proof.Machine.execResumeSvc c s
  | .kill c => Sys2Proof.Machine.execKill c s
  | .setctlPermit c => Sys2Proof.Machine.execSetctlPermit c s
  | .setctlLease c => Sys2Proof.Machine.execSetctlLease c s
  | .setctlRequestRing c => Sys2Proof.Machine.execSetctlRequestRing c s
  | .setctlEventRing c => Sys2Proof.Machine.execSetctlEventRing c s
  | .setctlRespbase c => Sys2Proof.Machine.execSetctlRespbase c s
  | .setctlQuotaLimit c => Sys2Proof.Machine.execSetctlQuotaLimit c s
  | .submitLaunch b => Sys2Proof.Machine.execSubmitLaunch b s
  | .submitGang b => Sys2Proof.Machine.execSubmitGang b s
  | .cmdwinPostedAccess host => Sys2Proof.Machine.execCmdwinPostedAccess host s
  | .leaseExpiry cid host => Sys2Proof.Machine.execLeaseExpiry cid host s
  | .hostPortDown port => Sys2Proof.Machine.execHostPortDown port s
  | .rqreadWrite host ctx v => Sys2Proof.Machine.execRqreadWrite host ctx v s
  | .evreadWrite host ctx v => Sys2Proof.Machine.execEvreadWrite host ctx v s
  | .poolwrWrite host ast v => Sys2Proof.Machine.execPoolwrWrite host ast v s
  | .astRecordWrite host ast word v => Sys2Proof.Machine.execAstRecordWrite host ast word v s
  | .s2dataWrite host v => Sys2Proof.Machine.execS2dataWrite host v s
  | .s2WriteComplete part => Sys2Proof.Machine.execS2WriteComplete part s
  | .freleaseWrite host v => Sys2Proof.Machine.execFreleaseWrite host v s
  | .frameReleaseComplete part => Sys2Proof.Machine.execFrameReleaseComplete part s
  | .keyarmWrite host v => Sys2Proof.Machine.execKeyarmWrite host v s
  | .spbindWrite host v => Sys2Proof.Machine.execSpbindWrite host v s
  | .actionTableWrite host ctx hi v => Sys2Proof.Machine.execActionTableWrite host ctx hi v s
  | .saveMemoryWrite host ctx size v => Sys2Proof.Machine.execSaveMemoryWrite host ctx size v s
  | .sliceWrite host ctx v => Sys2Proof.Machine.execSliceWrite host ctx v s
  | .timeadjWrite host v => Sys2Proof.Machine.execTimeadjWrite host v s
  | .attreqWrite host v => Sys2Proof.Machine.execAttreqWrite host v s
  | .attestationReportReady host => Sys2Proof.Machine.execAttestationReportReady host s
  | .registerWrite host off v => Sys2Proof.Machine.execRegisterWrite host off v s
  | .pageWalk core cid va => Sys2Proof.Machine.execPageWalk core cid va s
  | .atsTranslationCompletion id answer => Sys2Proof.Machine.execAtsTranslationCompletion id answer s
  | .atsInvalidationRequest host ctx va len => Sys2Proof.Machine.execAtsInvalidationRequest host ctx va len s
  | .demandFill cid va => Sys2Proof.Machine.execDemandFill cid va s
  | .migration cid va => Sys2Proof.Machine.execMigration cid va s
  | .hbmFill line write => Sys2Proof.Machine.execHbmFill line write s
  | .gets core line => Sys2Proof.Machine.execGets core line s
  | .getx core line => Sys2Proof.Machine.execGetx core line s
  | .upgr core line => Sys2Proof.Machine.execUpgr core line s
  | .putd core line => Sys2Proof.Machine.execPutd core line s
  | .atom core line off op ty x y scope => Sys2Proof.Machine.execAtom core line off op ty x y scope s
  | .wbp core line => Sys2Proof.Machine.execWbp core line s
  | .qinv die line quad => Sys2Proof.Machine.execQinv die line quad s
  | .qfwdS die line core => Sys2Proof.Machine.execQfwdS die line core s
  | .qfwdX die line core => Sys2Proof.Machine.execQfwdX die line core s
  | .rds die line => Sys2Proof.Machine.execRds die line s
  | .rdx die line => Sys2Proof.Machine.execRdx die line s
  | .rda die line off op ty x y => Sys2Proof.Machine.execRda die line off op ty x y s
  | .wb die line => Sys2Proof.Machine.execWb die line s
  | .snps die line => Sys2Proof.Machine.execSnps die line s
  | .snpx die line => Sys2Proof.Machine.execSnpx die line s
  | .srsp die line excl r => Sys2Proof.Machine.execSrsp die line excl r s
  | .gnt die line g => Sys2Proof.Machine.execGnt die line g s
  | .wback die line => Sys2Proof.Machine.execWback die line s
  | .rginv die base size => Sys2Proof.Machine.execRginv die base size s
  | .rgdat die line => Sys2Proof.Machine.execRgdat die line s
  | .rgack die base size => Sys2Proof.Machine.execRgack die base size s
  | .adone die line old => Sys2Proof.Machine.execAdone die line old s
  | .regionMerge home base size => Sys2Proof.Machine.execRegionMerge home base size s
  | .dirEccRecall die region line => Sys2Proof.Machine.execDirEccRecall die region line s
  | .firewallDrop src dst => Sys2Proof.Machine.execFirewallDrop src dst s
  | .timeOffsetMeasure ofs => Sys2Proof.Machine.execTimeOffsetMeasure ofs s
  | .gangPrepare gid start => Sys2Proof.Machine.execGangPrepare gid start s
  | .gangAck gid dev => Sys2Proof.Machine.execGangAck gid dev s
  | .gangDeadline gid => Sys2Proof.Machine.execGangDeadline gid s
  | .gangCommit gid => Sys2Proof.Machine.execGangCommit gid s
  | .gangAbort gid => Sys2Proof.Machine.execGangAbort gid s
  | .gangStartTimeout gid => Sys2Proof.Machine.execGangStartTimeout gid s
  | .gangHeartbeat gid => Sys2Proof.Machine.execGangHeartbeat gid s
  | .gangHeartbeatReceive gid dev => Sys2Proof.Machine.execGangHeartbeatReceive gid dev s
  | .gangMemberLost gid dev => Sys2Proof.Machine.execGangMemberLost gid dev s
  | .nirusLinkDown port => Sys2Proof.Machine.execNirusLinkDown port s
  | .d2dDegraded a b => Sys2Proof.Machine.execD2dDegraded a b s
  | .thermalThrottle => Sys2Proof.Machine.execThermalThrottle s
  | .powerCap => Sys2Proof.Machine.execPowerCap s
  | .deviceReset => Sys2Proof.Machine.execDeviceReset s
  | .hostPortLinkUp port => Sys2Proof.Machine.execHostPortLinkUp port s
  | .peerTransferRequest r => Sys2Proof.Machine.execPeerTransferRequest r s
  | .cxlMemCompletion r => Sys2Proof.Machine.execCxlMemCompletion r s
  | .unsupportedRequest host => Sys2Proof.Machine.execUnsupportedRequest host s
  | .unlistedCommand c code => Sys2Proof.Machine.execUnlistedCommand c code s
  | .mainClockRestored => Sys2Proof.Machine.execMainClockRestored s

end Sys2Proof.Machine
end

