-- ==== Sys2Proof/Machine/Run.lean ====
section
/-! DEFINITION. An event that has been raised takes place: the same meanings as the instructions of the same names. -/

namespace Sys2Proof.Machine

def runEv (e : Ev) (s : State) : Out :=
  match e with
  | .clauseStart core slot frag => execClauseStart core slot frag s
  | .laneLlComplete core slot seq => execLaneLlComplete core slot seq s
  | .scalarLoadReturn core slot seq => execScalarLoadReturn core slot seq s
  | .sleepExpire core slot frag => execSleepExpire core slot frag s
  | .barrierArrivalEffect team who bar => execBarrierArrivalEffect team who bar s
  | .fenceComplete core slot frag => execFenceComplete core slot frag s
  | .fenceRollback core slot frag => execFenceRollback core slot frag s
  | .copyRetire id => execCopyRetire id s
  | .copyFault id => execCopyFault id s
  | .mappedStashFill team line excl => execMappedStashFill team line excl s
  | .walkLineStep walker => execWalkLineStep walker s
  | .walkComplete walker => execWalkComplete walker s
  | .escapeHwPublish core slot frag target scope => execEscapeHwPublish core slot frag target scope s
  | .teamStart launch => execTeamStart launch s
  | .clusterStart launch => execClusterStart launch s
  | .teamRetire team => execTeamRetire team s
  | .launchEnd launch => execLaunchEnd launch s
  | .depctrPoll launch => execDepctrPoll launch s
  | .notbeforeReached launch => execNotbeforeReached launch s
  | .missedSlot launch => execMissedSlot launch s
  | .launchBlocking launch => execLaunchBlocking launch s
  | .rungLimitExpiry cid slot rung => execRungLimitExpiry cid slot rung s
  | .rungGroupLaunch cid slot rung => execRungGroupLaunch cid slot rung s
  | .rungGroupStart launch => execRungGroupStart launch s
  | .groupPark core slot => execGroupPark core slot s
  | .svcRequestPost core slot => execSvcRequestPost core slot s
  | .trapDeliver team => execTrapDeliver team s
  | .handlerStart core => execHandlerStart core s
  | .sliceEnd core cid => execSliceEnd core cid s
  | .urgentPreempt launch => execUrgentPreempt launch s
  | .groupRestore team => execGroupRestore team s
  | .contextRemove cid => execContextRemove cid s
  | .watchdogHandler core => execWatchdogHandler core s
  | .watchdogProgress team => execWatchdogProgress team s
  | .create c => execCreate c s
  | .guardOffer c => execGuardOffer c s
  | .guardAccept c => execGuardAccept c s
  | .guardShare c => execGuardShare c s
  | .guardDrop c => execGuardDrop c s
  | .adopt c => execAdopt c s
  | .lease c => execLease c s
  | .map c => execMap c s
  | .unmap c => execUnmap c s
  | .resumeFault c => execResumeFault c s
  | .resumeSvc c => execResumeSvc c s
  | .kill c => execKill c s
  | .setctlPermit c => execSetctlPermit c s
  | .setctlLease c => execSetctlLease c s
  | .setctlRequestRing c => execSetctlRequestRing c s
  | .setctlEventRing c => execSetctlEventRing c s
  | .setctlRespbase c => execSetctlRespbase c s
  | .setctlQuotaLimit c => execSetctlQuotaLimit c s
  | .submitLaunch b => execSubmitLaunch b s
  | .submitGang b => execSubmitGang b s
  | .cmdwinPostedAccess host => execCmdwinPostedAccess host s
  | .leaseExpiry cid host => execLeaseExpiry cid host s
  | .hostPortDown port => execHostPortDown port s
  | .rqreadWrite host ctx v => execRqreadWrite host ctx v s
  | .evreadWrite host ctx v => execEvreadWrite host ctx v s
  | .poolwrWrite host ast v => execPoolwrWrite host ast v s
  | .astRecordWrite host ast word v => execAstRecordWrite host ast word v s
  | .s2dataWrite host v => execS2dataWrite host v s
  | .s2WriteComplete part => execS2WriteComplete part s
  | .freleaseWrite host v => execFreleaseWrite host v s
  | .frameReleaseComplete part => execFrameReleaseComplete part s
  | .keyarmWrite host v => execKeyarmWrite host v s
  | .spbindWrite host v => execSpbindWrite host v s
  | .actionTableWrite host ctx hi v => execActionTableWrite host ctx hi v s
  | .saveMemoryWrite host ctx size v => execSaveMemoryWrite host ctx size v s
  | .sliceWrite host ctx v => execSliceWrite host ctx v s
  | .timeadjWrite host v => execTimeadjWrite host v s
  | .attreqWrite host v => execAttreqWrite host v s
  | .attestationReportReady host => execAttestationReportReady host s
  | .registerWrite host off v => execRegisterWrite host off v s
  | .pageWalk core cid va => execPageWalk core cid va s
  | .atsTranslationCompletion id answer => execAtsTranslationCompletion id answer s
  | .atsInvalidationRequest host ctx va len => execAtsInvalidationRequest host ctx va len s
  | .demandFill cid va => execDemandFill cid va s
  | .migration cid va => execMigration cid va s
  | .hbmFill line write => execHbmFill line write s
  | .gets core line => execGets core line s
  | .getx core line => execGetx core line s
  | .upgr core line => execUpgr core line s
  | .putd core line => execPutd core line s
  | .atom core line off op ty x y scope => execAtom core line off op ty x y scope s
  | .wbp core line => execWbp core line s
  | .qinv die line quad => execQinv die line quad s
  | .qfwdS die line core => execQfwdS die line core s
  | .qfwdX die line core => execQfwdX die line core s
  | .rds die line => execRds die line s
  | .rdx die line => execRdx die line s
  | .rda die line off op ty x y => execRda die line off op ty x y s
  | .wb die line => execWb die line s
  | .snps die line => execSnps die line s
  | .snpx die line => execSnpx die line s
  | .srsp die line excl r => execSrsp die line excl r s
  | .gnt die line g => execGnt die line g s
  | .wback die line => execWback die line s
  | .rginv die base size => execRginv die base size s
  | .rgdat die line => execRgdat die line s
  | .rgack die base size => execRgack die base size s
  | .adone die line old => execAdone die line old s
  | .regionMerge home base size => execRegionMerge home base size s
  | .dirEccRecall die region line => execDirEccRecall die region line s
  | .firewallDrop src dst => execFirewallDrop src dst s
  | .timeOffsetMeasure ofs => execTimeOffsetMeasure ofs s
  | .gangPrepare gid start => execGangPrepare gid start s
  | .gangAck gid dev => execGangAck gid dev s
  | .gangDeadline gid => execGangDeadline gid s
  | .gangCommit gid => execGangCommit gid s
  | .gangAbort gid => execGangAbort gid s
  | .gangStartTimeout gid => execGangStartTimeout gid s
  | .gangHeartbeat gid => execGangHeartbeat gid s
  | .gangHeartbeatReceive gid dev => execGangHeartbeatReceive gid dev s
  | .gangMemberLost gid dev => execGangMemberLost gid dev s
  | .nirusLinkDown port => execNirusLinkDown port s
  | .d2dDegraded a b => execD2dDegraded a b s
  | .thermalThrottle => execThermalThrottle s
  | .powerCap => execPowerCap s
  | .deviceReset => execDeviceReset s
  | .hostPortLinkUp port => execHostPortLinkUp port s
  | .peerTransferRequest r => execPeerTransferRequest r s
  | .cxlMemCompletion r => execCxlMemCompletion r s
  | .unsupportedRequest host => execUnsupportedRequest host s
  | .unlistedCommand c code => execUnlistedCommand c code s
  | .mainClockRestored => execMainClockRestored s

end Sys2Proof.Machine
end

