-- ==== Sys2Proof/Machine/Sched.lean ====
section
/-! DEFINITION. Whose move comes next, and what the move is: fetching and executing the word of a fragment, clause or
stream, draining a store, an event (R25, R28, R57, R119, R183, R184; log 2, log 3). -/

namespace Sys2Proof.Machine

/-! ## Time -/

/-- A step takes at least one clock; how many more is not fixed (R8; log 3). A clock is 0.8 ns, or longer by a free amount while the main
clock is lowered. Device time works off its offset: it is slewed towards 0 by at most 200 ppm, or takes half of the time while it is more than
1 ms ahead (R378). Fractions of a nanosecond are kept in units of 1/50,000, in which a clock is 40,000 and 200 ppm of it is 8. -/
def State.tick (s : State) : State :=
  let n := 1 + Config.clocks s.free
  let t := 40000 * n + if s.dev.slowed then n * (1 + Config.extra s.free) else 0
  let c := Config.choice 5 s.free % (min (8 * n) s.dev.offset.natAbs + 1)
  let u := if s.dev.half then t / 2 else if 0 < s.dev.offset then t - c else t + c
  { s with free := s.free + 1, cycle := s.cycle + n, time := s.time + (s.frac + u) / 50000, frac := (s.frac + u) % 50000
           dev := { s.dev with offset := s.dev.offset - t + u } }

/-- A group whose header page is kept current: its team is halted, or it is parked or saved (R358). -/
def State.paged (s : State) (g : Group) : Bool :=
  g.slot != 128 && !g.ended && (g.saved || g.parkAt.isSome || (match s.team g.team with | some t => t.halt.isSome | none => false))
/-- The header page of a group that stood so before and stands so now follows what has changed in it. -/
def State.keepPage (old : State) (s : State) (g : Group) : State :=
  match old.groups.find? fun x => x.team == g.team && x.grp == g.grp && x.slot == g.slot && x.core == g.core with
  | none => s
  | some x =>
    if s.paged g && old.paged x && (x.header old.cycle != g.header s.cycle || x.stackWords != g.stackWords) then s.writePage g else s
def State.keepPages (s old : State) : State := s.groups.foldl old.keepPage s
/-- A launch that is no longer passed over has not been so for 10 ms in a row (R376). -/
def State.keepPassed (s : State) : State :=
  { s with launches := s.launches.map fun (l : Launch) =>
      if l.passedAt.isSome && !(s.eligible l && (s.placement l).isNone) then { l with passedAt := none } else l }
/-- What follows a move: time passes, and what must be kept current follows. -/
def State.after (s old : State) : State := (s.tick.keepPages old).keepPassed

/-! ## Executing a word -/

/-- A branch or jump issues, also one to itself: it does not wait for its registers, masks or fence (R95, R124). -/
def Group.jumps (g : Group) (fr : Fragment) (k : Nat) (i : Instr) : Bool :=
  let free (rs : List Nat) : Bool := fr.passes i false && !g.busy k i rs
  match i with
  | .brz a _ | .brnz a _ => free [a.toNat]
  | .brany c _ | .brall c _ | .brnone c _ => free [] && !g.maskWait [c.toNat, 0]
  | .jmp _ => free []
  | .jmpr a | .ret a => free (pairRegs a) && (targetFault (g.pair a.toNat)).isNone
  | .call d _ => free (pairRegs d)
  | _ => false

/-- The group of a team has issued an instruction (R366). -/
def State.hasIssued (s : State) (tid : Nat) : State :=
  match s.team tid with
  | some t => s.setTeam { t with issued := s.time }
  | none => s

/-- Whether the word of a fragment issued: a word that waits leaves its fragment where it is. -/
def Group.moved (g : Group) (k : Nat) (h : Option Group) : Bool :=
  match h with
  | none => true
  | some h => ((g.frag k).map fun f => (f.pc, f.queue.length)) != (h.frag k).map fun f => (f.pc, f.queue.length)

/-- Its count of issued words rises (R112). -/
def State.countWord (s : State) (g : Group) : State := (s.hasIssued g.team).editGroup g.team g.grp fun h => { h with words := h.words + 1 }

def noteIssue (g : Group) (k : Nat) (always : Bool) (o : Out) : Out :=
  match o with
  | .next t => .next (if always || g.moved k (t.group g.core g.slot) then t.countWord g else t)
  | r => r

/-- A fetch that does not deliver its word: a precise trap, or a wait (R57, R110). -/
def State.fetchFails (s : State) (g : Group) (fr : Fragment) (k : Nat) (r : XRes) (a : Nat) : Out :=
  match r with
  | .bad c st => s.trapAt g fr k c 0 (BitVec.ofNat 64 a) st
  | .wait (some e) => .next (s.post e)
  | _ => .next s

/-- Opcodes of the handler slot: PRIV comes before ILLEGAL elsewhere (R59, R72). -/
def privOpcode (w : Word) : Bool := let o := (w.extractLsb' 24 8).toNat; decide (0xD3 ≤ o) && decide (o ≤ 0xD8)

/-- A scalar word that decodes to no instruction (R56, R59, R72). A skip of an ORD word passes its pair (R62, R357). -/
def State.badScalar (s : State) (g : Group) (fr : Fragment) (k : Nat) (w : Word) : Out :=
  if fr.fence.isSome then .next (s.put g k fr.hold)
  else
    match ({ s with ord := { pair := w.extractLsb' 24 8 == 0x9F } } : State).trapAt g fr k
        (if privOpcode w && g.slot != 128 then .priv else .illegal) 0 0 with
    | .next t => .next { t with ord := {} }
    | r => r

/-- The word of a fragment (R57): aligned to 4 bytes, with execute permission. -/
def State.scalarMove (s : State) : Out :=
  match s.here with
  | none => .fault .noAgent
  | some (g, fr, k) =>
    if fr.pc.toNat % 4 ≠ 0 then s.trapAt g fr k .align 0 fr.pc
    else
      match s.fetchCode (s.who g) fr.pc.toNat 4 with
      | .error (r, a) => s.fetchFails g fr k r a
      | .ok v =>
        match decodeScalar (BitVec.ofNat 32 v) with
        | .error _ => s.badScalar g fr k (BitVec.ofNat 32 v)
        | .ok i => noteIssue g k (g.jumps fr k i) (exec i s)

/-- The word of a started clause (R118, R119): it was fetched with the clause. MSEL stands in the same bits of every word
(R63), so a word that decodes to no instruction has a governing mask too (R70). -/
def State.laneMove (s : State) : Out :=
  match s.hereLane with
  | none => .fault .noAgent
  | some (g, fr, k, c) =>
    match c.body[c.idx]? with
    | none => .fault .noAgent
    | some w =>
      match decodeLane w with
      | .error _ => s.laneTrap g fr k c (c.gov (w.extractLsb' 77 4).toNat) .illegal 0 0
      | .ok i =>
        match exec i s with
        | .next t => .next (match t.group g.core g.slot with
          | some h => if (h.frag k).map (fun f => f.queue.map fun (x : Clause) => (x.uid, x.idx)) != some (fr.queue.map fun (x : Clause) => (x.uid, x.idx)) then t.hasIssued g.team else t
          | none => t)
        | r => r

/-- The word of a stream: the one in progress, else the one at its program counter (R183). -/
def State.streamWord (s : State) (t : Team) : Except (XRes × Nat) DWord :=
  match t.stream.held with
  | some p => .ok p.1
  | none =>
    match s.fetchCode (s.teamWho t) t.stream.pc.toNat 8 with
    | .error e => .error e
    | .ok v => .ok (BitVec.ofNat 64 v)

/-- The word of a matrix stream (R68, R183, R184): reason 2 for an unassigned opcode, 3 for a reserved field. -/
def State.streamMove (s : State) (tid : Nat) : Out :=
  match s.team tid with
  | none => .fault .noAgent
  | some t =>
    match s.streamWord t with
    | .error (r, a) => s.tileFault t r a
    | .ok v =>
      match decodeMatrix v with
      | .error .unassigned => s.stop t 2 0
      | .error _ => s.stop t 3 0
      | .ok i => exec i (s.holdWord t v i)

/-- A part of the tile of the stream's word (R197). -/
def State.prefetchMove (s : State) (tid : Nat) : Out :=
  match s.team tid with
  | none => .next s
  | some t =>
    match s.streamWord t with
    | .error _ => .next s
    | .ok v =>
      match decodeMatrix v with
      | .error _ => .next s
      | .ok i =>
        let u := s.holdWord t v i
        .next (match u.team tid with | some x => u.tileStep x i | none => u)

/-- An event that was raised and whose condition no longer holds has no effect. -/
def eventMove (e : Ev) (s : State) : Out :=
  match runEv e s with
  | .next t => .next t
  | _ => .next s

/-- An error that ECC corrects may meet any fill and any use of a directory: it is logged and has no other effect (R389; log 34). -/
def State.corrected (s : State) (e : Ev) : State :=
  let log (code : BitVec 16) (die line : Nat) : State := s.rasFree (partOfId (lineAid line)) code die (BitVec.ofNat 64 (lineGpa line))
  if Config.choice 13 s.free % 2 == 0 then s
  else
    match e with
    | .hbmFill line _ => log 0x0001 (gpaHome (lineGpa line)) line
    | .gets core line | .getx core line | .upgr core line | .putd core line | .atom core line .. => log 0x0013 (dieOf core) line
    | .rds _ line | .rdx _ line | .rda _ line .. => log 0x0013 (s.lineHome line) line
    | .snps die line | .snpx die line | .qinv die line _ => log 0x0013 die line
    | _ => s

/-- A block of a queue is decided, and leaves its place (R371); one that waits for a page stays. -/
def State.decideMove (s : State) (n : Nat) : Out :=
  match s.dev.queue[n]? with
  | none => .next s
  | some q =>
    let gone (u : State) : State := { u with dev := { u.dev with queue := u.dev.queue.eraseIdx n, taking := none } }
    match runEv q.ev { s with dev := { s.dev with taking := some q } } with
    | .next t => .next (if t.dev.taking.isSome then { t with dev := { t.dev with taking := none } } else gone t)
    | _ => .next (gone s)

/-- The move of an agent. A block of a host goes into its queue. -/
def State.move (s : State) : Out :=
  match s.cur with
  | .idle => .next s
  | .scalar _ _ _ => s.scalarMove
  | .lane _ _ _ => s.laneMove
  | .stream tid => s.streamMove tid
  | .drain core slot idx => s.drain core slot idx
  | .save core slot => s.saveMove core slot
  | .work idx =>
    match s.work[idx]? with
    | some e =>
      match eventMove e { s with work := s.work.eraseIdx idx } with
      | .next t => .next (t.corrected e)
      | r => r
    | none => .next s
  | .input =>
    match s.inputs with
    | e :: rest =>
      match ({ s with inputs := rest } : State).arrives e with
      | some t => .next t
      | none => eventMove e { s with inputs := rest }
    | [] => .next s
  | .event e => runEv e s
  | .flush cid host => .next (s.flushEvents cid host ((s.ctx cid).heldEv.length + 1))
  | .copyStep id => s.copyStep id
  | .prefetch tid => s.prefetchMove tid
  | .decide n => s.decideMove n

/-! ## Whose move it can be -/

/-- A fragment whose next word may be tried: not asleep, not waiting for a walk, not held by its fence (R25, R109, R250). -/
def Fragment.mayTry (o : Option Fragment) : Bool :=
  match o with
  | none => false
  | some f =>
    (match f.wait with | some (.sleep _) | some (.walk _ _) => false | _ => true) &&
      (match f.fence with | some x => x.spec && !x.hold | none => true)

/-- While a fragment's fence window is open, the other fragment issues no scalar word (log 27). -/
def Group.scalarAgents (g : Group) : List Agent :=
  ((List.range 2).filter fun k => Fragment.mayTry (g.frag k) && !Fragment.opens (g.frag (1 - k))).map fun k => .scalar g.core g.slot k

/-- A clause that has started and not completed issues its words (R119). -/
def Fragment.issuesLane (o : Option Fragment) : Bool :=
  match o with
  | some f => match f.queue with | c :: _ => c.started && decide (c.idx < c.body.length) | [] => false
  | none => false
def Group.laneAgents (g : Group) : List Agent :=
  ((List.range 2).filter fun k => Fragment.issuesLane (g.frag k)).map fun k => .lane g.core g.slot k

/-- What else can happen at a group (R45, R109, R112, R119, R247, R251, R273, R279). -/
def Group.eventList (g : Group) : List Ev :=
  let c := g.core
  let n := g.slot
  ((List.range 2).flatMap fun k => [Ev.clauseStart c n k, .sleepExpire c n k, .fenceComplete c n k, .fenceRollback c n k]) ++
    (g.olog.map fun e => Ev.laneLlComplete c n e.seq) ++ (g.loads.map fun l => Ev.scalarLoadReturn c n l.seq) ++
    (((List.range 20).filter fun b => (g.barPart b).effect.isSome).map fun b => Ev.barrierArrivalEffect g.team (some g.grp) b) ++
    [.groupPark c n, .svcRequestPost c n]

/-- A stream runs while its team is on a core, unhalted, and its context is neither suspended nor destroyed (R183, R304, R347); a word
in progress completes (R184). -/
def State.streamRuns (s : State) (t : Team) : Bool :=
  let st := (s.ctx t.cid).st
  t.stream.running && !t.stream.stopped && !t.dead && s.holds t &&
    (!t.stream.part.isEmpty || (t.halt.isNone && t.queued.isEmpty && st != .suspended && st != .destroyed))

def Team.eventList (t : Team) : List Ev :=
  (((List.range 16).filter fun b => (t.stream.bars.getD b {}).effect.isSome).map fun b => Ev.barrierArrivalEffect t.tid none b) ++
    [.teamRetire t.tid, .trapDeliver t.tid, .watchdogProgress t.tid, .groupRestore t.tid]

def Launch.eventList (l : Launch) : List Ev :=
  [.teamStart l.lid, .clusterStart l.lid, .launchEnd l.lid, .depctrPoll l.lid, .notbeforeReached l.lid, .missedSlot l.lid,
   .launchBlocking l.lid, .rungGroupStart l.lid, .urgentPreempt l.lid] ++
  (match l.gang with
   | some g => [Ev.gangDeadline g.gid, .gangStartTimeout g.gid, .gangHeartbeat g.gid] ++ g.known.map fun d => Ev.gangMemberLost g.gid d
   | none => [])

def Context.eventList (c : Context) : List Ev :=
  (if c.st == .destroyed then [Ev.contextRemove c.cid] else []) ++ (c.clocks.map fun p => Ev.leaseExpiry c.cid p.1) ++
    ((List.range 16).flatMap fun n =>
      (List.range ((c.ladders.getD n {}).rungs.length)).flatMap fun r => [Ev.rungLimitExpiry c.cid n r, .rungGroupLaunch c.cid n r])

/-- A PREPARE that waits finds its launch and a reservation (R380). -/
def State.prepareReady (s : State) (p : Word × Nat) : Bool :=
  match s.gangLaunch p.1 fun _ g => !g.coord && !g.prepared && g.start == p.2 with
  | some (l, _) => (s.reservation l).isSome
  | none => false

/-- The addresses that a group's words and open accesses are at. -/
def Group.addrs (g : Group) : List DWord :=
  ([g.slot0, g.slot1].filterMap fun o => o.map fun (f : Fragment) => f.pc) ++ (g.loads.map fun l => l.addr) ++ (g.sbuf.map fun b => b.addr) ++
    (g.olog.filter fun e => !(llShape e.instr).stash).flatMap fun e => (e.lanes.filter fun x => x.stat != .done).map fun x => x.addr
/-- Page walks of those that the TLB has no entry for (R311). -/
def State.walkEvents (s : State) (g : Group) : List Ev :=
  let w := s.who g
  (g.addrs.filter fun a => (s.tlbFind w.core w.aid a.toNat).isNone && (match s.walkVa w.aid a.toNat with | .leaf _ => true | _ => false)).map
    fun a => Ev.pageWalk w.core w.cid a

/-- Every event that could take place without an outside cause. -/
def State.eventsNow (s : State) : List Ev :=
  let live := s.groups.filter fun g => !g.saved
  (live.flatMap fun g => g.eventList ++ s.walkEvents g) ++ s.teams.flatMap Team.eventList ++ s.launches.flatMap Launch.eventList ++
    s.contexts.flatMap Context.eventList ++
    (s.copies.flatMap fun c => [Ev.copyRetire c.id, .copyFault c.id]) ++
    ((s.groups.filter fun g => g.saved && g.parkAt.isSome).map fun g => Ev.svcRequestPost g.core g.slot) ++
    (s.walks.flatMap fun w => [Ev.walkLineStep w.walker, .walkComplete w.walker]) ++
    (s.handlers.flatMap fun h => [Ev.handlerStart h.core, .watchdogHandler h.core]) ++
    (s.slices.map fun x => Ev.sliceEnd x.core x.cid) ++
    (s.parts.flatMap fun p => [Ev.s2WriteComplete p.id, .frameReleaseComplete p.id]) ++
    (s.dev.attest.map fun a => Ev.attestationReportReady a.1) ++
    ((s.dev.prepares.filter s.prepareReady).map fun p => Ev.gangPrepare p.1 (BitVec.ofNat 64 p.2)) ++
    (s.dir.map fun e => Ev.wb e.die e.line) ++ (s.l1.flatMap fun x => [Ev.putd x.core x.line, .wbp x.core x.line]) ++
    (s.regions.map fun r => Ev.regionMerge r.home r.base (2 * r.lines)) ++
    (if s.dev.st == .reset || s.dev.st == .secureBoot || s.dev.st == .memoryInit then [Ev.deviceReset] else [])

def arises (e : Ev) (s : State) : Bool := match runEv e s with | .next _ => true | _ => false

/-- What comes after the deliveries and traps of its device time waits for the last step of that time (R294, R345). -/
def State.mayNow (s : State) : Ev → Bool
  | .adopt _ | .actionTableWrite .. => s.lastOfNs
  | _ => true
/-- A lease that has run out takes effect before anything else (R294, R298). -/
def State.forced (s : State) : Option Agent := s.contexts.findSome? fun c => (c.overdue s.time).map fun h => Agent.event (.leaseExpiry c.cid h)

/-- Every move the machine can make (log 2). -/
def State.candidates (s : State) : List Agent :=
  let live := s.groups.filter fun g => !g.saved
  ((live.filter s.issuing).flatMap Group.scalarAgents) ++ ((live.filter s.laneIssuing).flatMap Group.laneAgents) ++
    ((s.teams.filter s.streamRuns).flatMap fun t => [Agent.stream t.tid, .prefetch t.tid]) ++
    (s.copies.filter fun c => !c.stuck).map (fun c => Agent.copyStep c.id) ++
    (s.contexts.flatMap fun c => (c.rings.filter fun r => c.flushable r.1).map fun r => Agent.flush c.cid r.1) ++
    (live.flatMap fun g => ((List.range g.sbuf.length).filter fun n => (g.sbuf[n]?).any g.canDrain).map fun n => Agent.drain g.core g.slot n) ++
    ((live.filter s.mustSave).filter Group.savable).map (fun g => Agent.save g.core g.slot) ++
    ((List.range s.work.length).filter s.inTurn).map Agent.work ++ (if !s.inputs.isEmpty && s.mayNow (s.inputs.headD .powerCap) then [.input] else []) ++
    (((List.range s.dev.queue.length).filter fun n => s.ready n && (s.dev.queue[n]?).any fun q => s.mayNow q.ev).map Agent.decide) ++
    (s.eventsNow.filter fun e => arises e s).map Agent.event

/-- The next agent: the one the machine was told of, else one of the candidates, by a free choice (R25; log 2). -/
def State.choose (s : State) : State :=
  match s.agenda with
  | a :: rest => { s with agenda := rest, cur := a, ord := {} }
  | [] =>
    match (match s.forced with | some a => [a] | none => s.candidates) with
    | [] => { s with cur := .idle, ord := {} }
    | [a] => { s with cur := a, ord := {} }
    | as => { s with cur := as.getD (Config.choice 0 s.free % as.length) .idle, ord := {} }

/-! ## A word placed where the next step takes it (log 1) -/

/-- Core 0, slot 0, virtual and guest-physical page 0x10000 of address space 0. -/
def wordVa : Nat := 0x10000

def wordTeam (stream : Stream) : Team :=
  { tid := 0, lid := 0, cid := 0, index := 0, x := 0, y := 0, z := 0, cluster := 0, core := 0, slot := 0, size := 1, window := 524288
    acc := List.replicate 16 (List.replicate 4096 0), stream }
def wordDesc : Desc := { entry := 0x10000, groups := 1, lregs := 32, sregs := 32, acc := 16, stash := 128 }
def wordGroup (queue : List Clause) : Group :=
  { core := 0, slot := 0, team := 0, grp := 0, sregs := List.replicate 1024 0, vregs := List.replicate 256 (List.replicate 32 0)
    masks := List.replicate 15 0, rejoin := List.replicate 8 {}, flags := List.replicate 12 0, sealed_ := List.replicate 8 []
    slot0 := some { mask := 0xFFFFFFFF, exec := 0xFFFFFFFF, pc := BitVec.ofNat 64 wordVa, queue }
    bars := List.replicate 16 {}, cbars := List.replicate 4 {} }
def wordClause (w : LaneWord) : Clause :=
  { uid := 0, lrunPc := BitVec.ofNat 64 wordVa, body := [w], fa := some 0, masks := 0xFFFFFFFF :: List.replicate 15 0
    scal := List.replicate 1024 0, fpctl := 0, started := true }

/-- The page is mapped executable, and its first line is on the chip with the word's bytes. -/
def State.placeBytes (s : State) (bs : List Byte) : State :=
  { s with
    parts := if s.parts.any (fun p => p.id == 0) then s.parts else { id := 0, dies := [0, 1, 2, 3], admin := 0 } :: s.parts
    contexts := upsert (fun (c : Context) => c.cid == 0) { s.ctx 0 with st := .guarded, ast := 0 } s.contexts
    tlb := { core := 0, aid := 0, va := wordVa, size := 4096, gpa := wordVa, r := true, w := true, x := true, kind := 0, high := 0 } ::
      s.tlb.filter fun e => !(e.core == 0 && e.aid == 0 && decide (e.va ≤ wordVa) && decide (wordVa < e.va + e.size))
    chipMeta := { line := lineOf 0 wordVa } :: s.chipMeta.filter fun c => c.line != lineOf 0 wordVa
    chip := s.chip.setAll wordVa bs }

/-- The team, the group and the launch that hold the word, and the agent that moves next. -/
def State.placeRun (s : State) (stream : Stream) (queue : List Clause) (a : Agent) : State :=
  { s with
    groups := wordGroup queue :: s.groups.filter fun g => !(g.team == 0 || g.isAt 0 0)
    snaps := s.snaps.filter fun g => !g.isAt 0 0
    teams := wordTeam stream :: s.teams.filter fun t => t.tid != 0
    launches := { lid := 0, cid := 0, addr := 0, desc := wordDesc, acceptAt := 0, ready := true, timeOk := true, next := 1, started := true } ::
      s.launches.filter fun l => l.lid != 0
    clusters := { kid := 0, lid := 0, size := 1 } :: s.clusters.filter fun c => c.kid != 0
    agenda := [a] }

def State.placeWord (s : State) (nbits w : Nat) : State :=
  if nbits ≤ 32 then (s.placeBytes (bytesOf 4 w)).placeRun {} [] (.scalar 0 0 0)
  else if nbits ≤ 64 then (s.placeBytes (bytesOf 8 w)).placeRun { running := true, pc := BitVec.ofNat 64 wordVa } [] (.stream 0)
  else (s.placeBytes []).placeRun {} [wordClause (BitVec.ofNat 96 w)] (.lane 0 0 0)

end Sys2Proof.Machine
end

