-- ==== Sys2Proof/Machine/Step.lean ====
section
/-! DEFINITION. One step of the device, and the state in which the next step runs a given instruction word. -/

namespace Sys2Proof.Machine

/-- A step: one agent moves, then time passes (log 2, log 3), and header pages follow their groups (R358). -/
def step (s : State) : Host.Outcome State Fault Refusal :=
  match s.choose.move with
  | .next t => .next (t.after s)
  | .fault f => .fault f
  | .refused r => .refused r

/-- The state in which the next step runs the instruction with the given bits (log 1). -/
def State.withFetchWord (s : State) (nbits w : Nat) : State := s.placeWord nbits w

end Sys2Proof.Machine
end

