-- ==== Sys2Proof/Machine/View.lean ====
section
/-! DEFINITION. What a host reads in its management page (R289, R290, R305, R306, R316, R318, R343, R350, R369, R370,
R372, R377, R386, R388, R389). A read changes nothing. -/

namespace Sys2Proof.Machine

/-- Fields laid side by side, the lowest first: width and value. -/
def fields : List (Nat × Nat) → Nat
  | [] => 0
  | (n, v) :: rest => v % 2 ^ n + 2 ^ n * fields rest
def DevState.code : DevState → Nat
  | .reset => 0 | .secureBoot => 1 | .memoryInit => 2 | .running => 3 | .recovery => 4

/-- A host that is neither a guardian nor in PERMIT has no standing with a context (R289, R306). -/
def Context.standing (c : Context) (h : Nat) : Bool := c.st != .free && (c.guardian h || c.permitted h)

/-- The context record that a host reads (R290). -/
def Context.record (c : Context) (h : Nat) : Nat :=
  let r := assoc {} h c.rings
  fields [(14, c.lease), (2, 0), (8, c.permit.toNat), (8, c.coguard.toNat), (4, c.primary), (4, c.offerTo), (3, c.st.code), (10, c.ast),
    (4, c.colour), (7, 0), (32, c.faults.length), (24, 0), (8, c.losth.toNat), (56, c.rq.base), (3, 0), (5, c.rq.log2),
    (56, c.respBase), (8, 0), (56, r.base), (3, 0), (5, r.log2)]
/-- A context window, word by word (R289). -/
def Context.window (c : Context) (h i : Nat) : Nat :=
  if !c.standing h then (if i = 0 then fields [(40, 0), (3, c.st.code)] else 0)
  else if i < 8 then bitsOf (c.record h) (64 * i) 64
  else if i = 8 then fields [(32, c.rq.write.toNat), (32, c.rq.read.toNat)]
  else if i = 9 then (let r := assoc {} h c.rings; fields [(32, r.write.toNat), (32, r.read.toNat)])
  else 0

/-- An AST record (R318). -/
def Ast.record (a : Ast) : Nat :=
  fields [(5, a.mode), (7, 0), (4, a.colour.toNat), (8, a.keyid.toNat), (7, 0), (1, b2n a.valid), (184, 0), (40, a.ttroot), (32, 0),
    (24, (a.s2root.getD 0 0).toNat), (24, (a.s2root.getD 1 0).toNat), (24, (a.s2root.getD 2 0).toNat), (24, (a.s2root.getD 3 0).toNat),
    (36, a.poolBase), (7, 0), (5, a.poolLog2), (32, a.poolRd.toNat), (32, a.poolWr.toNat)]

/-- A journal entry, to a host with standing in its context; to another only SEQ (R305, R306). -/
def Journal.image (j : Journal) (full : Bool) : Nat :=
  if !full then j.seq
  else
    fields [(64, j.seq), (4, 0), (8, j.newCog.toNat), (8, j.oldCog.toNat), (4, j.newPrim), (4, j.oldPrim), (3, j.newSt.code), (3, j.oldSt.code),
      (8, j.status.toNat), (10, j.ctx), (4, j.host), (8, j.cmd.toNat), (32, 0), (32, j.tag.toNat), (64, j.accept), (64, j.complete),
      (64, j.hash.toNat), (64, 0), (64, j.arg.toNat)]

/-- A RAS log entry (R389). -/
def Ras.image (r : Ras) : Nat :=
  fields [(16, r.code.toNat), (8, 0), (4, r.die), (4, 0), (32, r.info.toNat), (64, r.seq), (64, r.time), (64, r.addr.toNat)]

/-- The block of R316, word by word. The fields of FRELEASE, S2DATA and KEYARM are not read back. -/
def Part.secondStage (p : Part) (i : Nat) : Nat :=
  match i with
  | 1 => fields [(7, p.releases.length), (24, 0), (1, b2n p.relOvf), (32, p.relDone.toNat)]
  | 2 => p.s2sel.toNat
  | 4 => fields [(1, b2n p.s2busy.isSome), (7, 0), (8, p.s2res.toNat)]
  | _ => 0

/-- FWCTL of a die (R343). -/
def Dev.fwctl (d : Dev) (die : Nat) : Nat :=
  fields [(4, ((List.range 4).filter fun e => e != die && !d.fwclosed.contains (die, e)).foldl (fun n e => n + 2 ^ e) 0), (4, d.fwparts.getD die 0),
    (40, 0), (16, d.fwdrops.getD die 0)]

/-- SPBIND: the binding of the page most recently written (R372). -/
def Dev.spbind (d : Dev) (host : Nat) : Nat :=
  match d.lastPage.find? fun x => x.1 == host with
  | none => 0
  | some (_, page, denied) =>
    match d.binds.find? fun b => b.host == host && b.page == page with
    | some b => fields [(12, page.toNat), (10, b.ctx.toNat), (10, 0), (3, b.prioMax.toNat), (27, 0), (1, b2n denied), (1, 1)]
    | none => fields [(12, page.toNat), (50, 0), (1, b2n denied)]

/-- DEVSTATE (R386). -/
def State.devstate (s : State) (host : Nat) : Nat :=
  let p := s.part (s.hostPart host)
  fields [(3, s.dev.st.code), (1, 0), (4, p.id), (4, p.dies.foldl (fun n d => n + 2 ^ d) 0), (1, b2n (s.admin host)), (19, 0), (32, s.dev.svn.toNat)]

/-- The attestation block (R388): nonce, ATTSTAT, report and certificate chains, as bytes. -/
def State.attestByte (s : State) (host i : Nat) : Byte :=
  if i < 0x20 then (assoc [] host s.dev.nonces).getD i 0
  else
    match s.dev.attest.find? fun x => x.1 == host with
    | some (_, ready, bytes) =>
      if i = 0x28 then BitVec.ofNat 8 (b2n ready)
      else if 0x1000 ≤ i ∧ i < 0x6000 then (if ready then bytes.getD (i - 0x1000) 0 else 0)
      else if 0x6000 ≤ i then Config.certificate (i - 0x6000)
      else 0
    | none => if 0x6000 ≤ i then Config.certificate (i - 0x6000) else 0

/-- The 64-bit word that a host reads in BAR4 of one of its ports (R369, R375). -/
def State.msixRead (s : State) (host port off : Nat) : Option Nat :=
  if !s.portOf host port then none
  else if 0x8000 ≤ off then
    some ((List.range 64).foldl (fun n i => n + b2n (s.dev.vector port (8 * (off - 0x8000) + i)).pending * 2 ^ i) 0)
  else
    let v := s.dev.vector port (off / 16)
    some (if off % 16 = 0 then v.addr.toNat else v.data.toNat + b2n v.masked * 2 ^ 32)

/-- The 64-bit word that a host reads at an offset of its management page, a multiple of 8 (R369); none where the device
does not answer: before RUNNING it answers at DEVSTATE only, in RECOVERY at every port (R370, R387). -/
def State.mgmtRead (s : State) (host off : Nat) : Option Nat :=
  let p := s.part (s.hostPart host)
  let dev := s.dev
  let ctx (i : Nat) : Context := s.ctx (p.id * 1024 + i)
  if !s.hostLive host && dev.st != .recovery then none
  else if off = 0x4000 then some (s.devstate host)
  else if dev.st != .running then none
  else if off = 0x1000 then some dev.timeSrc.toNat
  else if off = 0x1010 then some (s.time % 2 ^ 64)
  else if off = 0x1018 then some dev.timeOfs.toNat
  else if off = 0x2000 then some (dev.spbind host)
  else if 0x10000 ≤ off ∧ off < 0x20000 then some (leVal ((List.range 8).map fun i => s.attestByte host (off - 0x10000 + i)))
  else if off = 0x80000 then some p.jhead
  else if off = 0x80008 then some p.rashead
  else if 0x100000 ≤ off ∧ off < 0x120000 then some ((ctx ((off - 0x100000) / 128)).window host (off % 128 / 8))
  else if 0x200000 ≤ off ∧ off < 0x210000 then some (if s.admin host then bitsOf (s.ast (p.id * 1024 + (off - 0x200000) / 64)).record (off % 64 * 8) 64 else 0)
  else if 0x300000 ≤ off ∧ off < 0x300030 then some (if s.admin host then p.secondStage ((off - 0x300000) / 8) else 0)
  else if 0x320000 ≤ off ∧ off < 0x320020 then some (dev.fwctl ((off - 0x320000) / 8))
  else if 0x340000 ≤ off ∧ off < 0x350000 then
    let c := ctx ((off - 0x340000) / 64)
    some (if c.standing host then (c.trapReg (off % 64 / 8)).toNat else 0)
  else if 0x400000 ≤ off ∧ off < 0x800000 then
    match p.journal.find? fun j => j.seq % 65536 == (off - 0x400000) / 64 && decide (p.jhead ≤ j.seq + 65536) with
    | some j => some (bitsOf (j.image ((ctx j.ctx).standing host)) (off % 64 * 8) 64)
    | none => some 0
  else if 0x900000 ≤ off ∧ off < 0x920000 then
    match p.ras.find? fun r => r.seq % 4096 == (off - 0x900000) / 32 && decide (p.rashead ≤ r.seq + 4096) with
    | some r => some (if s.admin host then bitsOf r.image (off % 32 * 8) 64 else 0)
    | none => some 0
  else some 0

end Sys2Proof.Machine
end

