-- ==== Sys2Proof/Safety.lean ====
section
/-! DEFINITION. What the statements are about: the canonical form of every memory, when the word of each stream is ready to
execute, and what "only this changes" means. -/

namespace Sys2Proof.Machine

/-! ## The invariant -/

/-- Every memory of the machine is in canonical form (R200, R321, R323; log 5). -/
def State.MemWf (s : State) : Prop :=
  s.chip.wf = true ∧ s.hbm.wf = true ∧ s.hostMem.wf = true ∧ s.peerMem.wf = true ∧ ∀ t ∈ s.teams, t.stash.wf = true

/-- What tells two places apart: of a guest-physical address 52 bits count, and a peer's memory is numbered through. -/
def Loc.key : Loc → Nat × Nat × Nat
  | .glob aid gpa => (0, aid, gpa % 2 ^ 52)
  | .stash tid off => (1, tid, off)
  | .peer id addr => (2, id * 2 ^ 52 + addr, 0)

/-! ## Ready words -/

/-- A scalar word has issued and is past the waits of registers: the fragment `fr` in split slot `k` of group `g` is the one
that moves, its fence (if any) lets the word pass (R250), the encoding breaks no check of R72, every register `rs` that the
word names lies in the allocation (R37), none is the destination of an unfinished load or of a word that the other fragment has begun
(R95), and no lane word that waits reads one that the word writes (R39). -/
structure Ready (i : Instr) (rs : List Nat) (s : State) (g : Group) (fr : Fragment) (k : Nat) : Prop where
  here   : s.here = some (g, fr, k)
  passes : fr.passes i s.ord.pair = true
  legal  : i.legal = true
  held   : ∀ r ∈ rs, r < g.sregs.length
  idle   : g.busy k i rs = false

/-- A ready word at its memory access: the 56-bit aligned address `va` (R110), no open acquire (R114), room for a request (R3), no copy in flight in
the way (R115), and the places `ls` that translation gives (R310). -/
structure AtMem (i : Instr) (rs : List Nat) (size : Nat) (a off : BitVec 8) (acc : Acc) (late : Bool) (s : State) (g : Group)
    (fr : Fragment) (k : Nat) (va : DWord) (ls : List Loc) : Prop where
  ready   : Ready i rs s g fr k
  addr    : va = g.memAddr fr a off size
  inSpace : va.extractLsb' 56 8 = 0
  aligned : va.toNat % size = 0
  open_   : g.acquiring = false
  room    : s.requestsFull g.core (requestsOf size acc) = false
  copies  : s.copyBlocks { s.who g with late } va.toNat size acc.writes = false
  places  : s.places { s.who g with late } va.toNat size acc = .ok ls

/-- A lane word has issued: the started clause `c` of the fragment that moves is at it, the fence window takes it (R250), its
encoding and its registers pass R72, and no long-latency word of the clause holds its registers (R120). -/
structure LaneReady (i : Instr) (s : State) (g : Group) (fr : Fragment) (k : Nat) (c : Clause) : Prop where
  here   : s.hereLane = some (g, fr, k, c)
  passes : fr.passesLane i c.uid = true
  ok     : g.laneOk c i = true
  idle   : g.interlocked c.uid i = false

/-- The governing mask of the word (R43). -/
def Clause.govOf (c : Clause) (i : Instr) : Mask := c.gov (laneSel i).toNat

/-- A matrix word has issued: the stream of team `t` moves, and the word gives no reason of R184 by itself. -/
structure StreamReady (i : Instr) (s : State) (t : Team) : Prop where
  cur    : s.cur = .stream t.tid
  here   : s.team t.tid = some t
  runs   : t.stream.running = true
  reason : mReason t i = none

/-! ## Results -/

/-- The ready word has its own effect: the machine goes to `t`. `p` is what its rule asks beyond readiness. -/
def YieldsIf (i : Instr) (rs : List Nat) (p : State → Group → Fragment → Prop) (t : State → Group → Fragment → Nat → State) : Prop :=
  ∀ s g fr k, Ready i rs s g fr k → p s g fr → exec i s = .next (t s g fr.count k)
def Yields (i : Instr) (rs : List Nat) (t : State → Group → Fragment → Nat → State) : Prop :=
  ∀ s g fr k, Ready i rs s g fr k → exec i s = .next (t s g fr.count k)

/-- The register `d` takes a value, and so does a pair; the fragment goes past the word. -/
def SetsReg (i : Instr) (rs : List Nat) (d : Nat) (v : Group → Word) : Prop :=
  Yields i rs fun s g fr k => s.put (g.setS d (v g)) k (s.fall fr)
def SetsPair (i : Instr) (rs : List Nat) (d : Nat) (v : Group → DWord) : Prop :=
  Yields i rs fun s g fr k => s.put (g.setPair d (v g)) k (s.fall fr)

/-- A ready scalar word raises a cause, precise at its own address (R70, R348). -/
def Traps (i : Instr) (rs : List Nat) (p : State → Group → Fragment → Prop) (c : Cause) (detail addr : Group → DWord) : Prop :=
  ∀ s g fr k, Ready i rs s g fr k → fr.fence = none → p s g fr →
    exec i s = .next (s.raise g { cause := c, detail := detail g, addr := addr g, pc := fr.pc, pair := s.ord.pair,
                                  culprit := .scalar g.slot k })

/-- The register `d` (a pair for 64-bit types) takes a value in every governed lane. -/
def LaneSets (i : Instr) (ty : Ty) (d : BitVec 8) (f : Group → Clause → Mask → Nat → Nat) : Prop :=
  ∀ s g fr k c, LaneReady i s g fr k c →
    exec i s = .next (s.laneNext (g.setN ty d.toNat (c.govOf i) (f g c (c.govOf i))) (fr.countLane c.uid) k)
/-- The mask `d` takes a value within the governing mask. -/
def LaneSetsMask (i : Instr) (d : BitVec 4) (f : Group → Clause → Mask → Mask) : Prop :=
  ∀ s g fr k c, LaneReady i s g fr k c →
    exec i s = .next (s.laneNext (g.setLaneMask (fr.countLane c.uid) d.toNat (c.govOf i) (f g c (c.govOf i))) (fr.countLane c.uid) k)

/-- The record of a lane word's own trap: its clause, place in it and governing mask (R70, R348). -/
def laneRec (g : Group) (k : Nat) (c : Clause) (i : Instr) (cause : Cause) (detail : DWord) (lanes : Mask) : TrapRec :=
  { cause, detail, lanes, gov := c.govOf i, lanei := true, clidx := c.idx, pc := c.lrunPc, culprit := .laneWord g.slot k }

/-- A floating-point word with per-lane exceptions `exc`: with none of them enabled it writes and the sticky bits take their
union; with one enabled it raises FPE once the earlier words of its clause have completed (R70), names the lanes that raise one, and writes nothing (R51, R81). -/
def FpYields (i : Instr) (exc : Group → Clause → Nat → Exc) (write : Group → Fragment → Clause → Mask → Group) : Prop :=
  ∀ s g fr k c, LaneReady i s g fr k c →
    let gov := c.govOf i
    let u := excUnion gov (exc g c)
    let en := enables c.fpctl
    let h := write g (fr.countLane c.uid) c gov
    (u &&& en = 0 → exec i s = .next (s.laneNext { h with fpctl := stick h.fpctl u } (fr.countLane c.uid) k)) ∧
    (u &&& en ≠ 0 → fr.inFence c.uid = false → g.longOpen c.uid = false →
      exec i s = .next (s.raise g (laneRec g k c i .fpe ((u &&& en).zeroExtend 64) (excLanes gov en (exc g c)))))

/-- A floating-point word that writes each element of `d` with a function of the lane and the element. -/
def FpSets (i : Instr) (ty : Ty) (d : BitVec 8) (f : Group → Clause → Nat → Nat → Nat × Exc) : Prop :=
  FpYields i (fun g c l => (packExc ty (f g c l)).2) fun g _ c gov => g.setN ty d.toNat gov fun l => (packExc ty (f g c l)).1

/-- The value of a reduction tree over the 2^n lanes from l on: a pair of subtrees combines, a missing one leaves the other (R159). -/
def redTree (op : Nat → Nat → Nat) (p : Nat → Option Nat) : Nat → Nat → Option Nat
  | 0, l => p l
  | n + 1, l =>
    match redTree op p n l, redTree op p n (l + 2 ^ n) with
    | some x, some y => some (op x y)
    | none, y => y
    | x, none => x

/-- A ready matrix word has its own effect. -/
def StreamYields (i : Instr) (p : State → Team → Prop) (t : State → Team → State) : Prop :=
  ∀ s u, StreamReady i s u → p s u → exec i s = .next (t s u)

/-- A scalar memory word at its access. -/
def YieldsAt (i : Instr) (rs : List Nat) (size : Nat) (a off : BitVec 8) (acc : Acc) (late : Bool)
    (p : State → Group → Fragment → List Loc → Prop) (t : State → Group → Fragment → Nat → DWord → List Loc → State) : Prop :=
  ∀ s g fr k va ls, AtMem i rs size a off acc late s g fr k va ls → p s g fr ls → exec i s = .next (t s g fr.count k va ls)

/-! ## Only this changes -/

/-- Nothing outside the groups changes, and of the groups only the one in its slot; every byte of memory reads as before. -/
structure OnlyGroup (s t : State) (core slot : Nat) : Prop where
  rest   : t = { s with groups := t.groups }
  len    : t.groups.length = s.groups.length
  others : ∀ (n : Nat) (x y : Group), s.groups[n]? = some x → t.groups[n]? = some y → x.isAt core slot = false → y = x
  bytes  : ∀ l : Loc, t.readLoc l = s.readLoc l

/-- Of a group, only the registers `ds`, the masks `ms` (0 is EXEC) and the program counter of the fragment in slot `k` (with its
wait and the window's count of issued words, R250) change. -/
structure OnlyRegs (g h : Group) (ds ms : List Nat) (k : Nat) : Prop where
  rest  : h = { g with sregs := h.sregs, masks := h.masks, slot0 := h.slot0, slot1 := h.slot1 }
  regs  : ∀ r, r ∉ ds → h.s r = g.s r
  len   : h.sregs.length = g.sregs.length
  masks : ∀ n, n + 1 ∉ ms → h.masks.getD n 0 = g.masks.getD n 0
  other : ∀ j, (j = 0) ≠ (k = 0) → h.frag j = g.frag j
  frag  : ∀ fr x, g.frag k = some fr → h.frag k = some x →
    x.mask = fr.mask ∧ (0 ∉ ms → x.exec = fr.exec) ∧ x.queue = fr.queue ∧ x.again = fr.again

/-- The words that only write registers: the registers each names, those it writes, and the masks it writes. -/
def frameRegs : Instr → Option (List Nat × List Nat × List Nat)
  | .sadd d a b | .ssub d a b | .smul d a b | .smulhi d a b | .smulhn d a b | .sdivi d a b | .sdivn d a b | .sremi d a b
  | .sremn d a b | .sand d a b | .sor d a b | .sxor d a b | .sandn d a b | .sshl d a b | .sshr d a b | .ssra d a b | .srot d a b
  | .smini d a b | .sminn d a b | .smaxi d a b | .smaxn d a b | .sceq d a b | .scne d a b | .sclti d a b | .scltn d a b
  | .sclei d a b | .sclen d a b => some ([d.toNat, a.toNat, b.toNat], [d.toNat], [])
  | .smulw d a b => some ([d.toNat, d.toNat + 1, a.toNat, b.toNat], [d.toNat, d.toNat + 1], [])
  | .sclz d a | .spopc d a | .sbrev d a | .smov d a => some ([d.toNat, a.toNat], [d.toNat], [])
  | .saddp d a b | .ssubp d a b =>
    some ([d.toNat, d.toNat + 1, a.toNat, a.toNat + 1, b.toNat, b.toNat + 1], [d.toNat, d.toNat + 1], [])
  | .sshlp d a b | .sshrp d a b => some ([d.toNat, d.toNat + 1, a.toNat, a.toNat + 1, b.toNat], [d.toNat, d.toNat + 1], [])
  | .smovi d _ | .smovhi d _ | .saddi d _ | .sandi d _ | .sori d _ | .sxori d _ | .sshli d _ | .sshri d _ | .ssrai d _ | .sceqi d _
  | .scltis d _ | .scltin d _ => some ([d.toNat], [d.toNat], [])
  | .smovx d far => some ([d.toNat, far.toNat], [d.toNat], [])
  | .smovxW d far => some ([d.toNat, far.toNat], [far.toNat], [])
  | .sget d sel => some (if sel = 9 ∨ sel = 10 then ([d.toNat, d.toNat + 1], [d.toNat, d.toNat + 1], []) else ([d.toNat], [d.toNat], []))
  | .brz c _ | .brnz c _ => some ([c.toNat], [], [])
  | .brany .. | .brall .. | .brnone .. | .jmp .. | .nop | .sleep .. | .fwait .. => some ([], [], [])
  | .call c _ => some ([c.toNat, c.toNat + 1], [c.toNat, c.toNat + 1], [])
  | .mfrom d a => some ([a.toNat], [], [d.toNat])
  | .mand d _ _ | .mor d _ _ | .mxor d _ _ | .mandn d _ _ | .mnot d _ => some ([], [], [d.toNat])
  | .mto d _ | .mpopc d _ | .mfirst d _ | .ftest d _ | .fragq d _ | .qgetUse d _ | .qgetLim d _ => some ([d.toNat], [d.toNat], [])
  | .exset _ | .exsetAll => some ([], [], [0])
  | .exsave d _ => some ([], [], [d.toNat, 0])
  | _ => none

end Sys2Proof.Machine
end

