-- ==== Sys2Proof/Certificates/Slice0/Obligations.lean ====
section
/-! DEFINITION. The statements for the provers. A statement's docstring says which rule of spec/ it formalises, and what in it is
the model's own choice. -/

open Sys2Proof Sys2Proof.Machine

/-! ## Scalar words -/

/-- R97-R99: the 32-bit register arithmetic. `x` is sa, `y` is sb; each word writes sd and goes on; none saturates; division never
traps. -/
def Obligations.ScalarArithmetic : Prop :=
  ∀ d a b : BitVec 8,
    let rs := [d.toNat, a.toNat, b.toNat]
    let f3 (i : Instr) (f : Word → Word → Word) : Prop := SetsReg i rs d.toNat fun g => f (g.s a.toNat) (g.s b.toNat)
    let f2 (i : Instr) (f : Word → Word) : Prop := SetsReg i [d.toNat, a.toNat] d.toNat fun g => f (g.s a.toNat)
    let amount (y : Word) : Nat := y.toNat % 32
    f3 (.sadd d a b) (fun x y => BitVec.ofNat 32 (x.toNat + y.toNat)) ∧
    f3 (.ssub d a b) (fun x y => BitVec.ofInt 32 ((x.toNat : Int) - y.toNat)) ∧
    f3 (.smul d a b) (fun x y => BitVec.ofNat 32 (x.toNat * y.toNat)) ∧
    f3 (.smulhi d a b) (fun x y => BitVec.ofInt 32 (x.toInt * y.toInt / 2 ^ 32)) ∧
    f3 (.smulhn d a b) (fun x y => BitVec.ofNat 32 (x.toNat * y.toNat / 2 ^ 32)) ∧
    SetsPair (.smulw d a b) [d.toNat, d.toNat + 1, a.toNat, b.toNat] d.toNat
      (fun g => BitVec.ofNat 64 ((g.s a.toNat).toNat * (g.s b.toNat).toNat)) ∧
    f3 (.sdivi d a b) (fun x y => if y = 0 then 0xFFFFFFFF else BitVec.ofInt 32 (x.toInt.tdiv y.toInt)) ∧
    f3 (.sdivn d a b) (fun x y => if y = 0 then 0xFFFFFFFF else BitVec.ofNat 32 (x.toNat / y.toNat)) ∧
    f3 (.sremi d a b) (fun x y => if y = 0 then x else BitVec.ofInt 32 (x.toInt - x.toInt.tdiv y.toInt * y.toInt)) ∧
    f3 (.sremn d a b) (fun x y => if y = 0 then x else BitVec.ofNat 32 (x.toNat % y.toNat)) ∧
    f3 (.sand d a b) (fun x y => x &&& y) ∧
    f3 (.sor d a b) (fun x y => x ||| y) ∧
    f3 (.sxor d a b) (fun x y => x ^^^ y) ∧
    f3 (.sandn d a b) (fun x y => x &&& ~~~y) ∧
    f3 (.sshl d a b) (fun x y => BitVec.ofNat 32 (x.toNat * 2 ^ amount y)) ∧
    f3 (.sshr d a b) (fun x y => BitVec.ofNat 32 (x.toNat / 2 ^ amount y)) ∧
    f3 (.ssra d a b) (fun x y => BitVec.ofInt 32 (x.toInt / 2 ^ amount y)) ∧
    f3 (.srot d a b) (fun x y => BitVec.ofNat 32 (x.toNat * 2 ^ amount y) ||| BitVec.ofNat 32 (x.toNat / 2 ^ (32 - amount y))) ∧
    f3 (.smini d a b) (fun x y => BitVec.ofInt 32 (min x.toInt y.toInt)) ∧
    f3 (.sminn d a b) (fun x y => BitVec.ofNat 32 (min x.toNat y.toNat)) ∧
    f3 (.smaxi d a b) (fun x y => BitVec.ofInt 32 (max x.toInt y.toInt)) ∧
    f3 (.smaxn d a b) (fun x y => BitVec.ofNat 32 (max x.toNat y.toNat)) ∧
    f3 (.sceq d a b) (fun x y => if x = y then 1 else 0) ∧
    f3 (.scne d a b) (fun x y => if x ≠ y then 1 else 0) ∧
    f3 (.sclti d a b) (fun x y => if x.toInt < y.toInt then 1 else 0) ∧
    f3 (.scltn d a b) (fun x y => if x.toNat < y.toNat then 1 else 0) ∧
    f3 (.sclei d a b) (fun x y => if x.toInt ≤ y.toInt then 1 else 0) ∧
    f3 (.sclen d a b) (fun x y => if x.toNat ≤ y.toNat then 1 else 0) ∧
    f2 (.sclz d a) (fun x => BitVec.ofNat 32 (if x = 0 then 32 else 31 - Nat.log2 x.toNat)) ∧
    f2 (.spopc d a) (fun x => BitVec.ofNat 32 ((List.range 32).filter fun n => x.getLsbD n).length) ∧
    f2 (.sbrev d a) (fun x => x.reverse)

/-- R100: 64-bit values in pairs; the sources are read before either half of sd is written. -/
def Obligations.ScalarPairs : Prop :=
  ∀ d a b : BitVec 8,
    let d2 := [d.toNat, d.toNat + 1]
    let a2 := [a.toNat, a.toNat + 1]
    let b2 := [b.toNat, b.toNat + 1]
    SetsPair (.saddp d a b) (d2 ++ (a2 ++ b2)) d.toNat (fun g => BitVec.ofNat 64 ((g.pair a.toNat).toNat + (g.pair b.toNat).toNat)) ∧
    SetsPair (.ssubp d a b) (d2 ++ (a2 ++ b2)) d.toNat
      (fun g => BitVec.ofInt 64 (((g.pair a.toNat).toNat : Int) - (g.pair b.toNat).toNat)) ∧
    SetsPair (.sshlp d a b) (d2 ++ (a2 ++ [b.toNat])) d.toNat
      (fun g => BitVec.ofNat 64 ((g.pair a.toNat).toNat * 2 ^ ((g.s b.toNat).toNat % 64))) ∧
    SetsPair (.sshrp d a b) (d2 ++ (a2 ++ [b.toNat])) d.toNat
      (fun g => BitVec.ofNat 64 ((g.pair a.toNat).toNat / 2 ^ ((g.s b.toNat).toNat % 64))) ∧
    ∀ (g : Group) (r : Nat) (v : DWord), r + 1 < g.sregs.length →
      (g.pair r).toNat = (g.s r).toNat + 2 ^ 32 * (g.s (r + 1)).toNat ∧ (g.setPair r v).pair r = v

/-- R101: the immediate forms; sd is both source and destination, but for SMOVI. -/
def Obligations.ScalarImmediates : Prop :=
  ∀ (d : BitVec 8) (i : BitVec 16) (n : BitVec 5),
    let f (x : Instr) (v : Word → Word) : Prop := SetsReg x [d.toNat] d.toNat fun g => v (g.s d.toNat)
    let ext : Word := BitVec.ofInt 32 i.toInt
    let nat : Word := BitVec.ofNat 32 i.toNat
    f (.smovi d i) (fun _ => ext) ∧
    f (.smovhi d i) (fun x => BitVec.ofNat 32 (i.toNat * 65536 + x.toNat % 65536)) ∧
    f (.saddi d i) (fun x => x + ext) ∧
    f (.sandi d i) (fun x => x &&& nat) ∧
    f (.sori d i) (fun x => x ||| nat) ∧
    f (.sxori d i) (fun x => x ^^^ nat) ∧
    f (.sshli d n) (fun x => BitVec.ofNat 32 (x.toNat * 2 ^ n.toNat)) ∧
    f (.sshri d n) (fun x => BitVec.ofNat 32 (x.toNat / 2 ^ n.toNat)) ∧
    f (.ssrai d n) (fun x => BitVec.ofInt 32 (x.toInt / 2 ^ n.toNat)) ∧
    f (.sceqi d i) (fun x => if x = ext then 1 else 0) ∧
    f (.scltis d i) (fun x => if x.toInt < i.toInt then 1 else 0) ∧
    f (.scltin d i) (fun x => if x.toNat < i.toNat then 1 else 0)

/-- R49-R53, R102-R104: moves, and the special registers. SGET of %time and %cycle writes a pair; SGET and SSET of %fpctl, and SGET
of %gstat, wait for the group's lane instructions; SSET keeps the writable bits of %fpctl (RM, FTZ, the enables, the sticky bits)
and clears JLOST or SPILLED of %gstat where it writes 1. -/
def Obligations.ScalarMoves : Prop :=
  (∀ d a : BitVec 8, SetsReg (.smov d a) [d.toNat, a.toNat] d.toNat fun g => g.s a.toNat) ∧
  (∀ (d : BitVec 8) (far : BitVec 10), SetsReg (.smovx d far) [d.toNat, far.toNat] d.toNat fun g => g.s far.toNat) ∧
  (∀ (d : BitVec 8) (far : BitVec 10), SetsReg (.smovxW d far) [d.toNat, far.toNat] far.toNat fun g => g.s d.toNat) ∧
  (∀ d sel : BitVec 8, sel ≠ 9 → sel ≠ 10 → sel ≠ 12 → sel ≠ 13 →
    Yields (.sget d sel) [d.toNat] fun s g fr k => s.put (g.setS d.toNat (loOf (s.sreg g sel.toNat))) k (s.fall fr)) ∧
  (∀ d sel : BitVec 8, sel = 12 ∨ sel = 13 → YieldsIf (.sget d sel) [d.toNat] (fun _ g _ => g.lanesDone = true)
    fun s g fr k => s.put (g.setS d.toNat (if sel = 12 then g.fpctl else g.gstat)) k (s.fall fr)) ∧
  (∀ d : BitVec 8, Yields (.sget d 9) [d.toNat, d.toNat + 1] fun s g fr k =>
    s.put (g.setPair d.toNat (BitVec.ofNat 64 s.time)) k (s.fall fr)) ∧
  (∀ d : BitVec 8, Yields (.sget d 10) [d.toNat, d.toNat + 1] fun s g fr k =>
    s.put (g.setPair d.toNat (BitVec.ofNat 64 s.cycle)) k (s.fall fr)) ∧
  (∀ d : BitVec 8, YieldsIf (.sset d 12) [d.toNat] (fun _ g _ => g.lanesDone = true) fun s g fr k =>
    s.put { g with fpctl := g.s d.toNat &&& 0x003F1F07 } k (s.fall fr)) ∧
  (∀ d : BitVec 8, Yields (.sset d 13) [d.toNat] fun s g fr k =>
    s.put { g with jlost := g.jlost && !(g.s d.toNat).getLsbD 8, spilled := g.spilled && !(g.s d.toNat).getLsbD 10 } k (s.fall fr)) ∧
  (∀ (s : State) (g : Group) (t : Team), g.slot ≠ 128 → s.team g.team = some t →
    (s.sreg g 0 = BitVec.ofNat 64 g.grp) ∧ (s.sreg g 1 = t.x.zeroExtend 64) ∧ (s.sreg g 2 = t.y.zeroExtend 64) ∧
    (s.sreg g 3 = t.z.zeroExtend 64) ∧ (s.sreg g 4 = BitVec.ofNat 64 t.rank) ∧ (s.sreg g 5 = BitVec.ofNat 64 g.core) ∧
    (s.sreg g 6 = BitVec.ofNat 64 (g.core / 96)) ∧ (s.sreg g 7 = BitVec.ofNat 64 (t.cid % 1024)) ∧
    (s.sreg g 8 = BitVec.ofNat 64 (s.descOf t).domain) ∧ (s.sreg g 11 = g.rung.zeroExtend 64))

/-- R105-R107, R109: branches, jumps, NOP and SLEEP. A taken branch goes 4 x sext(disp16) from the word; BRANY, BRALL and BRNONE
compare the mask with m0 after the waits of R124; CALL writes the address after the word; RET and JMPR check bits 63:56 (PAGE) and
then bits 1:0 (ALIGN) of the target at their own address. SLEEP n waits until %cycle reaches the issue clock plus n. -/
def Obligations.ControlFlow : Prop :=
  ∀ (c a : BitVec 8) (m : BitVec 4) (disp n : BitVec 16),
    let target (fr : Fragment) : DWord := fr.pc + BitVec.ofInt 64 (4 * disp.toInt)
    let step (s : State) (fr : Fragment) (b : Bool) : Fragment := { fr with pc := if b then target fr else fr.pc + s.wordLen, wait := none }
    let free (_ : State) (g : Group) (_ : Fragment) : Prop := g.maskWait [m.toNat, 0] = false
    let jump : DWord → Prop := fun t => t.extractLsb' 56 8 = 0 ∧ t.extractLsb' 0 2 = 0
    let far (i : Instr) : Prop :=
      YieldsIf i [a.toNat, a.toNat + 1] (fun _ g _ => jump (g.pair a.toNat))
        (fun s g fr k => s.put g k { fr with pc := g.pair a.toNat, wait := none }) ∧
      Traps i [a.toNat, a.toNat + 1] (fun _ g _ => (g.pair a.toNat).extractLsb' 56 8 ≠ 0) .page (fun _ => 0) (fun g => g.pair a.toNat) ∧
      Traps i [a.toNat, a.toNat + 1] (fun _ g _ => (g.pair a.toNat).extractLsb' 56 8 = 0 ∧ (g.pair a.toNat).extractLsb' 0 2 ≠ 0) .align
        (fun _ => 0) (fun g => g.pair a.toNat)
    Yields (.brz c disp) [c.toNat] (fun s g fr k => s.put g k (step s fr (g.s c.toNat == 0))) ∧
    Yields (.brnz c disp) [c.toNat] (fun s g fr k => s.put g k (step s fr (g.s c.toNat != 0))) ∧
    YieldsIf (.brany m disp) [] free (fun s g fr k => s.put g k (step s fr (g.mask fr m.toNat &&& fr.exec != 0))) ∧
    YieldsIf (.brall m disp) [] free (fun s g fr k => s.put g k (step s fr (g.mask fr m.toNat &&& fr.exec == fr.exec))) ∧
    YieldsIf (.brnone m disp) [] free (fun s g fr k => s.put g k (step s fr (g.mask fr m.toNat &&& fr.exec == 0))) ∧
    Yields (.jmp disp) [] (fun s g fr k => s.put g k (step s fr true)) ∧
    Yields (.call c disp) [c.toNat, c.toNat + 1] (fun s g fr k => s.put (g.setPair c.toNat (fr.pc + 4)) k (step s fr true)) ∧
    far (.ret a) ∧ far (.jmpr a) ∧
    Yields .nop [] (fun s g fr k => s.put g k (s.fall fr)) ∧
    Yields (.sleep n) [] (fun s g fr k =>
      s.put g k { s.fall fr with wait := if n = 0 then none else some (.sleep (s.cycle + n.toNat)) }) ∧
    ∀ (s : State) (g : Group) (core slot k : Nat) (fr : Fragment) (u : Nat),
      s.group core slot = some g → g.frag k = some fr → fr.wait = some (.sleep u) → u ≤ s.cycle → g.parkAt = none →
      exec (.sleepExpire core slot k) s = .next (s.put g k { fr with wait := none })

/-- R42, R124-R126: the mask words. A write of m1-m15 changes the bits of the fragment mask only; EXSET and EXSAVE keep m0 a subset of
the fragment mask. Each waits for the lane words and LDREFs that write the masks it names. -/
def Obligations.MaskWords : Prop :=
  ∀ (d a b : BitVec 4) (r : BitVec 8),
    let free (ms : List Nat) (_ : State) (g : Group) (_ : Fragment) : Prop := g.maskWait ms = false
    let toMask (i : Instr) (rs : List Nat) (ms : List Nat) (v : Group → Fragment → Mask) : Prop :=
      YieldsIf i rs (free ms) fun s g fr k =>
        s.put { g with masks := g.masks.set (d.toNat - 1) ((g.masks.getD (d.toNat - 1) 0 &&& ~~~fr.mask) ||| (v g fr &&& fr.mask)) } k (s.fall fr)
    let toReg (i : Instr) (v : Mask → Word) : Prop :=
      YieldsIf i [r.toNat] (free [a.toNat]) fun s g fr k => s.put (g.setS r.toNat (v (g.mask fr a.toNat))) k (s.fall fr)
    let A (g : Group) (fr : Fragment) : Mask := g.mask fr a.toNat
    let B (g : Group) (fr : Fragment) : Mask := g.mask fr b.toNat
    toMask (.mfrom d r) [r.toNat] [d.toNat] (fun g _ => g.s r.toNat) ∧
    toMask (.mand d a b) [] [d.toNat, a.toNat, b.toNat] (fun g fr => A g fr &&& B g fr) ∧
    toMask (.mor d a b) [] [d.toNat, a.toNat, b.toNat] (fun g fr => A g fr ||| B g fr) ∧
    toMask (.mxor d a b) [] [d.toNat, a.toNat, b.toNat] (fun g fr => A g fr ^^^ B g fr) ∧
    toMask (.mandn d a b) [] [d.toNat, a.toNat, b.toNat] (fun g fr => A g fr &&& ~~~B g fr) ∧
    toMask (.mnot d a) [] [d.toNat, a.toNat] (fun g fr => ~~~A g fr) ∧
    toReg (.mto r a) (fun m => m) ∧
    toReg (.mpopc r a) (fun m => BitVec.ofNat 32 ((List.range 32).filter fun l => m.getLsbD l).length) ∧
    toReg (.mfirst r a) (fun m => BitVec.ofNat 32 (((List.range 32).find? fun l => m.getLsbD l).getD 32)) ∧
    YieldsIf (.exset a) [] (free [a.toNat, 0]) (fun s g fr k => s.put g k { s.fall fr with exec := A g fr &&& fr.mask }) ∧
    YieldsIf .exsetAll [] (free [0]) (fun s g fr k => s.put g k { s.fall fr with exec := fr.mask }) ∧
    YieldsIf (.exsave d a) [] (free [d.toNat, a.toNat, 0]) (fun s g fr k =>
      s.put (g.setMask fr d.toNat fr.exec) k { s.fall fr with exec := fr.exec &&& (g.setMask fr d.toNat fr.exec).mask fr a.toNat }) ∧
    (∀ (g : Group) (fr : Fragment), g.mask fr 0 = fr.exec) ∧
    (∀ (g : Group) (fr : Fragment) (n l : Nat) (v : Mask), 1 ≤ n → n ≤ g.masks.length → fr.mask.getLsbD l = false →
      ((g.setMask fr n v).mask fr n).getLsbD l = (g.mask fr n).getLsbD l)

/-- R127-R131, R135: SPLIT, JSET, JOIN and FRAGQ. SPLIT gives the taken lanes to a new fragment at the target, in a free split slot or
on the stack with SPILLED set; JOIN records the arrival or, when the expected mask is complete, fuses; the reasons of JOINMIS. The stack stands
in the context's save memory: a push writes the next entry of the group's header page, and a pop frees the entry it takes; that entry 0 is
the oldest is the model's choice (log 55). -/
def Obligations.Fragments : Prop :=
  ∀ (c : BitVec 4) (a d : BitVec 8) (j : BitVec 3),
    let target (g : Group) : DWord := g.pair a.toNat
    let taken (g : Group) (fr : Fragment) : Mask := fr.exec &&& g.mask fr c.toNat
    let stay (g : Group) (fr : Fragment) : Mask := fr.exec &&& ~~~g.mask fr c.toNat
    let calm (g : Group) (fr : Fragment) : Prop := g.clausesDone fr = true ∧ g.maskWait [c.toNat, 0] = false ∧
      (target g).extractLsb' 56 8 = 0 ∧ (target g).extractLsb' 0 2 = 0
    let rs := [a.toNat, a.toNat + 1]
    let new (g : Group) (fr : Fragment) : Fragment := { mask := taken g fr, exec := taken g fr, pc := target g }
    let left (s : State) (g : Group) (fr : Fragment) : Fragment := { s.fall fr with mask := fr.mask &&& ~~~taken g fr, exec := stay g fr }
    YieldsIf (.split c a) rs (fun _ g fr => calm g fr ∧ taken g fr = 0) (fun s g fr k => s.put g k (s.fall fr)) ∧
    YieldsIf (.split c a) rs (fun _ g fr => calm g fr ∧ taken g fr ≠ 0 ∧ stay g fr = 0)
      (fun s g fr k => s.put g k { fr with pc := target g, wait := none }) ∧
    (∀ s g fr k, Ready (.split c a) rs s g fr k → calm g fr → taken g fr ≠ 0 → stay g fr ≠ 0 → g.frag (1 - k) = none → k < 2 →
      exec (.split c a) s = .next (s.setGroup ((g.setFrag k (left s g fr)).setFrag (1 - k) (new g fr)))) ∧
    (∀ s g fr k, Ready (.split c a) rs s g fr k → calm g fr → taken g fr ≠ 0 → stay g fr ≠ 0 → (g.frag (1 - k)).isSome → k < 2 →
      exec (.split c a) s = .next ((s.writeStack (g.setFrag k (left s g fr)) g.stack.length (some (new g fr))).setGroup
        { g.setFrag k (left s g fr) with stack := new g fr :: g.stack, spilled := true })) ∧
    YieldsIf (.jset j c) [] (fun _ g _ => (c = 0 ∨ g.maskWait [c.toNat] = false) ∧ (g.rj j.toNat).arrived = 0) (fun s g fr k =>
      s.put (g.setRj j.toNat { armed := true, jaddr := 0, arrived := 0, expect := if c = 0 then fr.mask else g.mask fr c.toNat &&& fr.mask }) k (s.fall fr)) ∧
    Traps (.jset j c) [] (fun _ g _ => (c = 0 ∨ g.maskWait [c.toNat] = false) ∧ (g.rj j.toNat).arrived ≠ 0) .joinmis (fun _ => 2) (fun _ => 0) ∧
    YieldsIf (.join j) [] (fun _ g fr => g.clausesDone fr = true ∧ joinReason (g.rj j.toNat) fr = none ∧
        (g.rj j.toNat).arrived ||| fr.mask = (g.rj j.toNat).expect)
      (fun s g fr k => s.put (g.setRj j.toNat {}) k { s.fall fr with mask := (g.rj j.toNat).expect, exec := (g.rj j.toNat).expect }) ∧
    YieldsIf (.join j) [] (fun _ g fr => g.clausesDone fr = true ∧ joinReason (g.rj j.toNat) fr = none ∧
        (g.rj j.toNat).arrived ||| fr.mask ≠ (g.rj j.toNat).expect)
      (fun s g fr k =>
        let h := ((g.setRj j.toNat { g.rj j.toNat with
          jaddr := if (g.rj j.toNat).arrived = 0 then fr.pc else (g.rj j.toNat).jaddr
          arrived := (g.rj j.toNat).arrived ||| fr.mask }).clearFrag k).refill
        (s.popped g h).setGroup h.releaseStalled) ∧
    (∀ (s : State) (g h : Group) (t : Team) (n : Nat) (o : Option Fragment), s.team g.team = some t →
      let C := s.ctx t.cid
      let words : List Word := match o with | some f => [f.mask, f.exec, loOf f.pc, hiOf f.pc] | none => [0, 0, 0, 0]
      (g.ended = false → 0x0D180000 ≤ C.saveSize.toNat → s.writeStack g n o =
        s.writeBytes C.aid (C.saveBase.toNat + 4096 * (g.core * 129 + g.slot) + (512 + 16 * n)) (words.flatMap fun w => leBytes 4 w.toNat)) ∧
      (C.saveSize.toNat < 0x0D180000 → s.writeStack g n o = s) ∧
      s.popped g h = if h.stack.length < g.stack.length then s.writeStack g h.stack.length none else s) ∧
    (∀ (r : Rejoin) (fr : Fragment), joinReason r fr =
      if r.armed = false then some 3
      else if fr.mask &&& ~~~r.expect ≠ 0 ∨ fr.mask &&& r.arrived ≠ 0 then some 4
      else if r.arrived ≠ 0 ∧ r.jaddr ≠ fr.pc then some 1 else none) ∧
    (∀ e : Nat, Traps (.join j) [] (fun _ g fr => g.clausesDone fr = true ∧ joinReason (g.rj j.toNat) fr = some e) .joinmis
      (fun _ => BitVec.ofNat 64 e) (fun _ => 0)) ∧
    Yields (.fragq d 0) [d.toNat] (fun s g fr k => s.put (g.setS d.toNat fr.mask) k (s.fall fr)) ∧
    Yields (.fragq d 1) [d.toNat] (fun s g fr k => s.put (g.setS d.toNat (((g.frag (1 - k)).map fun f => f.mask).getD 0)) k (s.fall fr)) ∧
    Yields (.fragq d 2) [d.toNat] (fun s g fr k => s.put (g.setS d.toNat (BitVec.ofNat 32 g.stack.length)) k (s.fall fr)) ∧
    Yields (.fragq d 3) [d.toNat] (fun s g fr k => s.put (g.setS d.toNat (maskOf fun n =>
      if n < 8 then (g.rj n).arrived != 0 else decide (n < 16) && (g.rj (n - 8)).armed)) k (s.fall fr))

/-- R108, R127, R132: EXIT removes the fragment and its lanes; the top of the stack takes its slot; with no lane left the group ends,
and with only waiting fragments left the register with the lowest waiting lane is released into slot 0 and JLOST is set. In a rung
group an EXIT whose fragment has a lane with an item in hand, whatever its EXEC bit, raises LADDER reason 3 and has no other effect (R262).
Loads that wait for lanes of the fragment alone are discarded; an atomic that has not performed stays, to perform and write nothing (log 31).
A pop frees its entry of the stack in save memory. -/
def Obligations.ExitWord : Prop :=
  let idle (g : Group) (fr : Fragment) : Prop :=
    g.slot ≠ 128 ∧ g.clausesDone fr = true ∧ (g.rung.getLsbD 31 = false ∨ ∀ l ∈ lanesOf fr.mask, g.items.getD l none = none)
  (∀ s g fr k, Ready .exit [] s g fr k → idle g fr →
    let h := ((g.dropLoads fr.mask).clearFrag k).refill
    exec .exit s = .next (if h.lanesLeft = 0 then s.endGroup h else
      (if h.stack.length < g.stack.length then s.writeStack ((g.dropLoads fr.mask).clearFrag k) h.stack.length none else s).setGroup h.releaseStalled)) ∧
  (∀ (g : Group) (m : Mask), (g.dropLoads m).loads = g.loads.filterMap fun (l : Load) =>
    if l.frag &&& ~~~m ≠ 0 then some { l with frag := l.frag &&& ~~~m }
    else if l.atom.isSome && l.value.isNone && !l.bad then some { l with dst := 1024, pair := false, tagTo := none, frag := 0 } else none) ∧
  (∀ (g : Group) (f : Fragment) (rest : List Fragment), g.stack = f :: rest →
    (g.slot0 = none → g.refill.slot0 = some f ∧ g.refill.slot1 = g.slot1 ∧ g.refill.stack = rest) ∧
    (g.slot0.isSome → g.slot1 = none → g.refill.slot1 = some f ∧ g.refill.slot0 = g.slot0 ∧ g.refill.stack = rest)) ∧
  (∀ (g : Group) (n : Nat) (r : Rejoin), g.slot0 = none → g.slot1 = none → g.stack = [] → g.rejoin[n]? = some r → r.arrived ≠ 0 →
    (∀ m q, g.rejoin[m]? = some q → q.arrived ≠ 0 → m ≠ n → lowestLane r.arrived < lowestLane q.arrived) →
    g.releaseStalled = { g with slot0 := some { mask := r.arrived, exec := r.arrived, pc := r.jaddr + 4 }
                                rejoin := g.rejoin.set n {}, jlost := true }) ∧
  Traps .exit [] (fun _ g fr => g.slot ≠ 128 ∧ g.clausesDone fr = true ∧ g.rung.getLsbD 31 = true ∧
      ∃ l ∈ lanesOf fr.mask, (g.items.getD l none).isSome) .ladder
    (fun g => BitVec.ofNat 64 (3 + bitsOf g.rung.toNat 8 4 * 2 ^ 8)) (fun _ => 0)

/-- R246-R248: the barriers. An arrival waits, in the fragment's own wait, while its earlier phase is unfinished or its earlier effect
is open, which is the model's reading (log 42); otherwise it fixes COUNT when it is 0, raises ILLEGAL when the
counts do not agree, and takes effect when every access ordered before it has performed; a wait goes on when PHASE differs from the
phase arrived at. Barriers 16-19 are those of the cluster. -/
def Obligations.BarrierWords : Prop :=
  let at_ (s : State) (g : Group) (n : Nat) (t : Team) : Prop := s.team g.team = some t ∧ g.slot ≠ 128 ∧
    (g.barPart n).effect = none ∧ ((g.barPart n).pending = true → (s.barrier t n).phase ≠ (g.barPart n).phase)
  let want (s : State) (t : Team) (n c : Nat) : Nat := if c = 0 then s.barGroups t n else c
  let fits (s : State) (t : Team) (n c : Nat) : Prop := c ≤ s.barGroups t n + (if n < 16 then 1 else 0)
  let came (s : State) (g : Group) (t : Team) (n : Nat) : Group :=
    { g.setBarPart n { pending := true, phase := (s.barrier t n).phase, effect := some g.seq } with seq := g.seq + 1 }
  let arrives (i : Instr) (n c : Nat) : Prop := ∀ s g fr k t, Ready i [] s g fr k → at_ s g n t →
    (fits s t n c → (s.barrier t n).count = 0 → (s.barrier t n).arrived < want s t n c →
      exec i s = .next ((s.setBarrier t n { s.barrier t n with count := want s t n c }).put (came s g t n) k (s.fall fr))) ∧
    (fits s t n c → (s.barrier t n).count ≠ 0 → (s.barrier t n).count = want s t n c →
      exec i s = .next (s.put (came s g t n) k (s.fall fr))) ∧
    (¬ fits s t n c ∨ ((s.barrier t n).count = 0 ∧ want s t n c ≤ (s.barrier t n).arrived) ∨
        ((s.barrier t n).count ≠ 0 ∧ (s.barrier t n).count ≠ want s t n c) →
      exec i s = .next (s.raise g { cause := .illegal, pc := fr.pc, pair := s.ord.pair, culprit := .scalar g.slot k }))
  let early (s : State) (g : Group) (t : Team) (n : Nat) : Prop := s.team g.team = some t ∧ g.slot ≠ 128 ∧
    ((g.barPart n).effect.isSome ∨ ((g.barPart n).pending = true ∧ (s.barrier t n).phase = (g.barPart n).phase))
  let held (i : Instr) (n : Nat) : Prop := ∀ s g fr k t, Ready i [] s g fr k → early s g t n → (∀ m x y, fr.wait ≠ some (.bar m x y)) →
    exec i s = .next (s.put g k { fr with wait := some .arrive })
  let waits (i : Instr) (n : Nat) : Prop := ∀ s g fr k t target, Ready i [] s g fr k → s.team g.team = some t → g.slot ≠ 128 →
    ((∃ c m, fr.wait = some (.bar c m target)) ∨
      (fr.wait = none ∧ target = if (g.barPart n).pending then (g.barPart n).phase else (s.barrier t n).phase)) →
    ((s.barrier t n).phase = target → exec i s = .next (s.put g k { fr with wait := some (.bar (decide (16 ≤ n)) n target) })) ∧
    ((s.barrier t n).phase ≠ target →
      exec i s = .next (s.put (g.setBarPart n { g.barPart n with pending := false }) k (s.fall fr)))
  (∀ (n : BitVec 4) (c : BitVec 6), arrives (.bara n c) n.toNat c.toNat ∧ held (.bara n c) n.toNat ∧ held (.baraw n c) n.toNat) ∧
  (∀ (n : BitVec 2) (c : BitVec 9), arrives (.cbara n c) (16 + n.toNat) c.toNat ∧ held (.cbara n c) (16 + n.toNat)) ∧
  (∀ n : BitVec 4, waits (.barw n) n.toNat) ∧
  (∀ n : BitVec 2, waits (.cbarw n) (16 + n.toNat)) ∧
  (∀ (n : BitVec 4) (c : BitVec 6) (s : State) (g : Group) (fr : Fragment) (k : Nat) (t : Team),
    Ready (.baraw n c) [] s g fr k → at_ s g n.toNat t → fits s t n.toNat c.toNat → n.toNat < g.bars.length →
    (∀ m x y, fr.wait ≠ some (.bar m x y)) → (s.barrier t n.toNat).count ≠ 0 → (s.barrier t n.toNat).count = want s t n.toNat c.toNat →
    exec (.baraw n c) s = .next (s.put (came s g t n.toNat) k { fr with wait := some (.bar false n.toNat (s.barrier t n.toNat).phase) })) ∧
  (∀ (n : BitVec 4) (c : BitVec 6) (s : State) (g : Group) (fr : Fragment) (k : Nat) (t : Team) (m : Bool) (x : Nat) (y : Word),
    Ready (.baraw n c) [] s g fr k → s.team g.team = some t → g.slot ≠ 128 → fr.wait = some (.bar m x y) → (s.barrier t n.toNat).phase ≠ y →
    exec (.baraw n c) s = .next (s.put (g.setBarPart n.toNat { g.barPart n.toNat with pending := false }) k (s.fall fr))) ∧
  (∀ (s : State) (t : Team) (g : Group) (n bar mark : Nat), s.team t.tid = some t →
    (s.groups.find? fun x => x.team == t.tid && x.grp == n && x.slot != 128 && !x.saved) = some g → g.team = t.tid →
    (g.barPart bar).effect = some mark → g.doneBefore mark = true →
    exec (.barrierArrivalEffect t.tid (some n) bar) s =
      .next ((s.setGroup (g.setBarPart bar { g.barPart bar with effect := none })).setBarrier t bar (s.barrier t bar).arrive)) ∧
  (∀ (s : State) (t : Team) (bar mark : Nat), s.team t.tid = some t → (t.stream.bars.getD bar {}).effect = some mark →
    let p := { t.stream.bars.getD bar {} with effect := none }
    exec (.barrierArrivalEffect t.tid none bar) s =
      .next ((s.setTeam { t with stream := { t.stream with bars := t.stream.bars.set bar p } }).arriveAt t.tid bar)) ∧
  (∀ b : Barrier, b.arrive = if b.count ≠ 0 ∧ b.arrived + 1 = b.count then { count := 0, arrived := 0, phase := b.phase + 1 }
    else { b with arrived := b.arrived + 1 })

/-- R45, R123, R249-R251: FWAIT and FTEST; FENCE marks every access with a lower number and opens a window on its first execution; it
completes when every marked access has performed and every byte that the window read still stands (log 27), and acts on its level as a
release and an acquire; numbers between its mark and its window's stay free for the long-latency words that the marked clauses have still to issue; a rollback restores the registers and masks, drops what the window has issued, and the FENCE issues again without
a window. -/
def Obligations.Fences : Prop :=
  (∀ f : BitVec 12, YieldsIf (.fwait f) [] (fun _ g _ => ∀ n : Nat, n < 12 → f.getLsbD n = true → g.flag n = 0)
    fun s g fr k => s.put g k (s.fall fr)) ∧
  (∀ (d : BitVec 8) (f : BitVec 12), Yields (.ftest d f) [d.toNat] fun s g fr k =>
    s.put (g.setS d.toNat (maskOf fun n => decide (n < 12) && f.getLsbD n && g.flag n != 0)) k (s.fall fr)) ∧
  (∀ scope : BitVec 5, YieldsIf (.fence scope) [] (fun _ _ fr => fr.again = true)
    fun s g fr k => s.put { g with seq := g.highSeq, low := g.lowSeq } k
      { s.fall fr with fence := some { scope, mark := g.seq, spec := false, pc := fr.pc }, again := false }) ∧
  (∀ scope : BitVec 5, YieldsIf (.fence scope) [] (fun _ _ fr => fr.again = false)
    fun s g fr k => { s with snaps := g :: (s.dropSnap g.core g.slot).snaps }.put { g with seq := g.highSeq, low := g.lowSeq } k
      { s.fall fr with fence := some { scope, mark := g.seq, spec := true, pc := fr.pc }, again := false }) ∧
  (∀ g : Group, g.seq < g.lowSeq ∧ g.lowSeq % 128 = 0 ∧ g.highSeq = g.lowSeq + 128 * (Fragment.longWords g.slot0 + Fragment.longWords g.slot1)) ∧
  (∀ (s : State) (core slot k : Nat) (g : Group) (fr : Fragment) (f : Fence), s.fenceOf core slot k = some (g, fr, f) →
    (g.doneBefore f.mark = true → (∀ p ∈ f.reads, s.readLoc p.1 = p.2) → exec (.fenceComplete core slot k) s =
      let s1 := s.put g k { fr with fence := none }
      .next (((if f.spec then s1.dropSnap core slot else s1).releaseAt (s.who g).aid f.scope).acquireAt (s.who g).aid f.scope)) ∧
    (f.spec = true → f.reads ≠ [] → exec (.fenceRollback core slot k) s = .next (s.rollback core slot))) ∧
  (∀ (s : State) (core slot k : Nat) (g o h : Group) (fr : Fragment) (f : Fence), s.group core slot = some g → s.snapOf core slot = some o →
    g.windowOf = some k → k < 2 → g.frag k = some fr → fr.fence = some f → (s.rollback core slot).group core slot = some h →
    h.sregs = o.sregs ∧ h.vregs = o.vregs ∧ h.masks = o.masks ∧ h.fpctl = o.fpctl ∧ h.loads = g.loads.filter (fun l => l.seq < o.seq) ∧
    h.sbuf = g.sbuf.filter (fun b => b.uid < o.seq) ∧ h.olog = g.olog.filter (fun e => e.uid < o.seq) ∧
    ∃ x, h.frag k = some x ∧ x.pc = f.pc ∧ x.again = true ∧ x.fence = none ∧ x.queue = fr.queue.filter (fun c => c.uid < o.seq)) ∧
  (∀ (s : State) (g : Group) (fr : Fragment) (k : Nat) (f : Fence), s.here = some (g, fr, k) → fr.fence = some f →
    (f.spec = false → exec .nop s = .next (s.put g k fr.hold)) ∧ exec .exit s = .next (s.put g k fr.hold) ∧
    (256 ≤ f.issued → exec .nop s = .next (s.put g k fr.hold)))

/-- R118, R119: LRUN enqueues a clause at its lane code base plus 16 times its operand, with the masks and scalar registers as they
stand, and raises its flags; CLAUSE_START starts the head of a queue when the flags of its wait mask are 0. -/
def Obligations.LrunAndClauses : Prop :=
  (∀ (x : BitVec 16) (s : State) (g : Group) (fr : Fragment) (k v : Nat) (h : Header) (body : List LaneWord),
    let va := ((s.laneBase g).toNat + 16 * x.toNat) % 2 ^ 64
    let flags := (h.fa.map BitVec.toNat).toList ++ (h.fb.map BitVec.toNat).toList
    let c : Clause := { uid := g.seq, lrunPc := fr.pc, body, fa := h.fa.map BitVec.toNat, fb := h.fb.map BitVec.toNat, wait := h.wait,
                        masks := fr.exec :: g.masks, scal := g.sregs, fpctl := g.fpctl }
    Ready (.lrun x) [] s g fr k → s.fetchCode (s.who g) va 12 = .ok v → decodeHeader (BitVec.ofNat 96 v) = some h →
    s.fetchBody (s.who g) (va + 12) h.len = .ok body → fr.queue.length < 8 → g.pendingMasks = [] →
    (∀ f ∈ flags, g.flags.getD f 0 < 63) → g.loading (bodyScalars body) = false → g.acquiring = false →
    exec (.lrun x) s = .next (s.put { g.raiseFlags flags with seq := g.seq + 1, holds := (g.raiseFlags flags).holds ++ c.holdsOf } k
      (s.fall { fr.count with queue := fr.queue ++ [c] }))) ∧
  (∀ (x : BitVec 16) (s : State) (g : Group) (fr : Fragment) (k v : Nat), Ready (.lrun x) [] s g fr k → fr.fence = none →
    s.fetchCode (s.who g) (((s.laneBase g).toNat + 16 * x.toNat) % 2 ^ 64) 12 = .ok v → decodeHeader (BitVec.ofNat 96 v) = none →
    exec (.lrun x) s = .next (s.raise g { cause := .illegal, pc := fr.pc, pair := s.ord.pair, culprit := .scalar g.slot k })) ∧
  (∀ (s : State) (core slot k : Nat) (g : Group) (fr : Fragment) (c : Clause) (rest : List Clause),
    s.group core slot = some g → g.frag k = some fr → fr.queue = c :: rest → c.started = false → s.laneIssuing g = true →
    (∀ f : Nat, f < 12 → c.wait.getLsbD f = true → g.flags.getD f 0 = 0) →
    exec (.clauseStart core slot k) s = .next (s.put g k { fr with queue := { c with started := true } :: rest }))

/-! ## Scalar memory -/

/-- R110: every scalar memory word checks its address as 64-bit arithmetic, before anything else of the access: bits 63:56 raise PAGE,
then a remainder by its size raises ALIGN, each with the address in ADDR. The sizes are 4, 8, 16 (JSAVE, JLOAD) and 64 (SCPSET, TDSET,
TDGET). A word that has read a part of its operand goes on at the address it began with. -/
def Obligations.ScalarAddressChecks : Prop :=
  ∀ (d a o : BitVec 8) (t q : BitVec 4) (n : BitVec 3),
    let a2 := [a.toNat, a.toNat + 1]
    let d1 := d.toNat :: a2
    let d2 := d.toNat :: (d.toNat + 1) :: a2
    let chk (i : Instr) (rs : List Nat) (size : Nat) (off : Nat) (grp : Bool := false) : Prop :=
      let va (g : Group) : DWord := g.pair a.toNat + BitVec.ofNat 64 (off * size)
      let fresh (g : Group) (fr : Fragment) : Prop := (grp = true → g.slot ≠ 128) ∧ ∀ x ws, fr.wait ≠ some (.words x ws)
      Traps i rs (fun _ g fr => fresh g fr ∧ (va g).extractLsb' 56 8 ≠ 0) .page (fun _ => 0) va ∧
      Traps i rs (fun _ g fr => fresh g fr ∧ (va g).extractLsb' 56 8 = 0 ∧ (va g).toNat % size ≠ 0) .align (fun _ => 0) va
    chk (.sld32 d a o) d1 4 o.toNat ∧ chk (.sld64 d a o) d2 8 o.toNat ∧ chk (.sst32 d a o) d1 4 o.toNat ∧ chk (.sst64 d a o) d2 8 o.toNat ∧
    chk (.saadd d a o) d1 4 o.toNat ∧ chk (.samin d a o) d1 4 o.toNat ∧ chk (.samax d a o) d1 4 o.toNat ∧ chk (.saand d a o) d1 4 o.toNat ∧
    chk (.saor d a o) d1 4 o.toNat ∧ chk (.saxor d a o) d1 4 o.toNat ∧ chk (.saxch d a o) d1 4 o.toNat ∧ chk (.sacas d a o) d2 4 o.toNat ∧
    chk (.stref d a o) d2 8 o.toNat true ∧ chk (.ldref d a t q) d2 8 q.toNat ∧ chk (.scpset d a o) a2 64 o.toNat ∧ chk (.tdset d a o) a2 64 o.toNat ∧
    chk (.tdget d a o) a2 64 o.toNat ∧ chk (.jsave n a o) a2 16 o.toNat ∧ chk (.jload n a o) a2 16 o.toNat

/-- R95, R111-R114, R228, R239: a scalar load takes the next sequence number and goes on; its destination is busy until
SCALAR_LOAD_RETURN writes it with the bytes at its address, the group's own older stores first, little-endian, once no older access of the
group to them is open and its core's L1 holds the line, which it asks for first (R331); LDREF also writes its mask with the tag of the word. -/
def Obligations.ScalarLoads : Prop :=
  let issued (s : State) (g : Group) (fr : Fragment) (k : Nat) (l : Load) : State :=
    s.put { g with seq := g.seq + 1, loads := g.loads ++ [{ l with seq := g.seq, pc := fr.pc, scope := s.ord.scope, frag := fr.mask, after := g.words + 1 }] }
      k (s.fall fr)
  let acq (s : State) : Bool := s.ord.order == .acq || s.ord.order == .ar
  (∀ d a o : BitVec 8, YieldsAt (.sld32 d a o) ([d.toNat] ++ [a.toNat, a.toNat + 1]) 4 a o .rd true (fun _ _ _ _ => True) fun s g fr k va ls =>
    issued s g fr k { seq := 0, dst := d.toNat, pair := false, locs := ls, acq := acq s, addr := va, pc := 0 }) ∧
  (∀ d a o : BitVec 8, YieldsAt (.sld64 d a o) ([d.toNat, d.toNat + 1] ++ [a.toNat, a.toNat + 1]) 8 a o .rd true (fun _ _ _ _ => True)
    fun s g fr k va ls => issued s g fr k { seq := 0, dst := d.toNat, pair := true, locs := ls, acq := acq s, addr := va, pc := 0 }) ∧
  (∀ (d a : BitVec 8) (t o : BitVec 4), YieldsAt (.ldref d a t o) ([d.toNat, d.toNat + 1] ++ [a.toNat, a.toNat + 1]) 8 a (o.zeroExtend 8) .rd true
    (fun _ g _ _ => g.maskWait [t.toNat] = false) fun s g fr k va ls =>
      issued s g fr k { seq := 0, dst := d.toNat, pair := true, locs := ls, tagTo := some t.toNat, frag := fr.mask, addr := va, pc := 0 }) ∧
  (∀ (s : State) (core slot q : Nat) (g : Group) (l : Load), s.group core slot = some g → g.loads.find? (fun x => x.seq == q) = some l →
    l.bad = false → l.tagTo = none → l.acq = false → g.windowed q = false → (l.value = none → l.atom = none) →
    (l.value = none → g.loadWaits l = false ∧ s.lateFault l.locs false = none ∧ ∀ p ∈ l.locs, s.inCache (s.who g) p = true) →
    ∃ t h, exec (.scalarLoadReturn core slot q) s = .next t ∧ t.group core slot = some h ∧
      let v : DWord := l.value.getD (BitVec.ofNat 64 (leVal (l.locs.map fun p => (g.fwd q p).getD (s.readLoc p))))
      h.sregs = (if l.pair then g.setPair l.dst v else g.setS l.dst (loOf v)).sregs ∧ h.masks = g.masks ∧
      h.loads = g.loads.filter (fun m => m.seq != q) ∧ ∀ p : Loc, t.readLoc p = s.readLoc p) ∧
  (∀ (s : State) (core slot q aid gpa : Nat) (g : Group) (l : Load) (rest : List Loc), s.group core slot = some g →
    g.loads.find? (fun x => x.seq == q) = some l → l.bad = false → l.value = none → l.atom = none → g.loadWaits l = false →
    s.lateFault l.locs false = none → l.locs = .glob aid gpa :: rest → (s.who g).core < 384 → s.l1St (s.who g).core (lineOf aid gpa) = .I →
    s.privateAt (s.who g) l.addr.toNat gpa = false →
    exec (.scalarLoadReturn core slot q) s = .next (s.post (.gets (s.who g).core (lineOf aid gpa)))) ∧
  (∀ (g : Group) (l : Load), g.loadWaits l = true ↔ (∃ m ∈ g.loads, m.seq < l.seq ∧ m.value = none ∧ ∃ p ∈ m.locs, p ∈ l.locs) ∨
    ∃ e ∈ g.olog, e.refPending l.seq l.locs = true) ∧
  (∀ (s : State) (core slot q n : Nat) (g : Group) (l : Load) (p : Loc) (ps : List Loc), s.group core slot = some g →
    g.loads.find? (fun x => x.seq == q) = some l → l.bad = false → l.tagTo = some n → l.pair = true → l.locs = p :: ps → l.acq = false →
    l.value = none → l.atom = none → g.windowed q = false → 1 ≤ n → g.loadWaits l = false →
    s.lateFault l.locs false = none → (∀ y ∈ l.locs, s.inCache (s.who g) y = true) →
    ∃ t h, exec (.scalarLoadReturn core slot q) s = .next t ∧ t.group core slot = some h ∧
      h.sregs = (g.setPair l.dst (BitVec.ofNat 64 (leVal (l.locs.map fun p => (g.fwd q p).getD (s.readLoc p))))).sregs ∧
      h.masks = g.masks.set (n - 1) ((g.masks.getD (n - 1) 0 &&& ~~~l.frag) |||
        ((if (g.fwdTag q l.locs).getD (s.tagLoc p) then 0xFFFFFFFF else 0) &&& l.frag))) ∧
  (∀ (g : Group) (q : Nat) (p : Loc), (∀ b ∈ g.sbuf, b.seq < q → ∀ x ∈ b.bytes, x.1 ≠ p) → g.fwd q p = none)

/-- R111-R114, R134, R180, R218: a store whose place is no object header enters the store buffer with its bytes, little-endian; no byte of memory
changes at issue. JSAVE stores the 16-byte image of its rejoin register, its low half first, and clears it; TDGET stores the 64 bytes of a tensor
entry. A store into a header word raises PROT at that word. -/
def Obligations.ScalarStores : Prop :=
  let plain (s : State) (_ : Group) (_ : Fragment) (ls : List Loc) : Prop := ∀ l ∈ ls, s.isHeader l = false
  let rel (s : State) : Option (BitVec 5) := if s.ord.order == .rel || s.ord.order == .ar then some s.ord.scope else none
  let buffered (s : State) (g : Group) (fr : Fragment) (k : Nat) (va : DWord) (ls : List Loc) (n v : Nat) : State :=
    s.put { g with seq := g.seq + 1, sbuf := g.sbuf ++ [{ seq := g.seq, uid := g.seq, bytes := ls.zip (leBytes n v), pc := fr.pc, addr := va,
                                                          rel := rel s, inOrder := g.windowed g.seq, after := g.words + 1 }] } k (s.fall fr)
  let eights (g : Group) (fr : Fragment) (va : DWord) (ls : List Loc) (bs : List Byte) (n : Nat) (inOrder : Bool) : List BufStore :=
    (List.range n).map fun q => { seq := g.seq + q, uid := g.seq + q, bytes := ((ls.zip bs).drop (8 * q)).take 8, pc := fr.pc,
                                  addr := va + BitVec.ofNat 64 (8 * q), inOrder, after := g.words + 1 }
  (∀ d a o : BitVec 8, YieldsAt (.sst32 d a o) ([d.toNat] ++ [a.toNat, a.toNat + 1]) 4 a o .wr true plain fun s g fr k va ls =>
    buffered s g fr k va ls 4 (g.s d.toNat).toNat) ∧
  (∀ d a o : BitVec 8, YieldsAt (.sst64 d a o) ([d.toNat, d.toNat + 1] ++ [a.toNat, a.toNat + 1]) 8 a o .wr true plain fun s g fr k va ls =>
    buffered s g fr k va ls 8 (g.pair d.toNat).toNat) ∧
  (∀ t a o : BitVec 8, YieldsAt (.tdget t a o) [a.toNat, a.toNat + 1] 64 a o .wr true plain fun s g fr k va ls =>
    s.put { g with seq := g.seq + 8, sbuf := g.sbuf ++ eights g fr va ls (leBytes 64 (s.tensor (s.who g).cid t.toNat).toNat) 8 false } k (s.fall fr)) ∧
  (∀ (n : BitVec 3) (a o : BitVec 8), YieldsAt (.jsave n a o) [a.toNat, a.toNat + 1] 16 a o .wr false
    (fun s g fr ls => plain s g fr ls ∧ (g.rj n.toNat).arrived = 0) fun s g fr k va ls =>
      s.put { g.setRj n.toNat {} with seq := g.seq + 2, sbuf := g.sbuf ++ eights g fr va ls (leBytes 16 (g.rj n.toNat).image.toNat) 2 true } k (s.fall fr)) ∧
  (∀ (n : BitVec 3) (a o : BitVec 8), Traps (.jsave n a o) [a.toNat, a.toNat + 1] (fun _ g fr => (∀ x ws, fr.wait ≠ some (.words x ws)) ∧
    addrFault (g.pair a.toNat + BitVec.ofNat 64 (o.toNat * 16)) 16 = none ∧ (g.rj n.toNat).arrived ≠ 0) .joinmis (fun _ => 2) (fun _ => 0)) ∧
  (∀ (d a o : BitVec 8) (s : State) (g : Group) (fr : Fragment) (k : Nat) (va : DWord) (ls : List Loc) (n : Nat),
    AtMem (.sst32 d a o) ([d.toNat] ++ [a.toNat, a.toNat + 1]) 4 a o .wr true s g fr k va ls → fr.fence = none →
    ls.findIdx? s.isHeader = some n → exec (.sst32 d a o) s = .next (s.raise g
      { cause := .prot, addr := BitVec.ofNat 64 ((va.toNat + n) / 8 * 8), pc := fr.pc, pair := s.ord.pair, culprit := .scalar g.slot k })) ∧
  (∀ (s : State) (g : Group) (k : Nat) (fr : Fragment) (l : Loc), (s.put g k fr).readLoc l = s.readLoc l) ∧
  (∀ n v m : Nat, (leBytes n v).length = n ∧ (m < n → ((leBytes n v).getD m 0).toNat = v / 256 ^ m % 256))

/-- R113, R114, R216, R218, R238, R331: a buffered store performs when no older access of the group to its bytes is open, no byte of it is
a header by now, and its core may write the line (state M, or the owner's own P). Each of its bytes then reads as stored, every other
byte as before, and the tag of its word is 0 unless STREF wrote it. A core that may not write the line asks for it first (R331), and
nothing is stored. A mapped stash line that the room for a line takes out of the L1 keeps its value as plain stash (R208); with no
mapping there is none. -/
def Obligations.StorePerforms : Prop :=
  (∀ (s : State) (core slot n : Nat) (g : Group) (b : BufStore) (e : Ev), s.group core slot = some g → g.sbuf[n]? = some b →
    g.canDrain b = true → s.writeFault b.addr b.locs = none → s.own (s.who g) b.addr.toNat b.locs.head? = .error e →
    s.drain core slot n = .next (s.post e)) ∧
  (∀ (s : State) (w : Who) (va aid gpa : Nat), w.core < 384 → s.privateAt w va gpa = false →
    (s.l1St w.core (lineOf aid gpa) = .I → s.own w va (some (.glob aid gpa)) = .error (.getx w.core (lineOf aid gpa))) ∧
    (s.l1St w.core (lineOf aid gpa) = .S ∨ s.l1St w.core (lineOf aid gpa) = .O →
      s.own w va (some (.glob aid gpa)) = .error (.upgr w.core (lineOf aid gpa)))) ∧
  ∀ (s s0 : State) (core slot n : Nat) (g : Group) (b : BufStore), s.MemWf → s.group core slot = some g → g.sbuf[n]? = some b →
    g.canDrain b = true → s.writeFault b.addr b.locs = none → s.own (s.who g) b.addr.toNat b.locs.head? = .ok s0 → b.rel = none →
    ∃ t, s.drain core slot n = .next t ∧
      (∀ p ∈ b.bytes, (b.bytes.filter fun q => q.1.key == p.1.key).length = 1 → (∀ tid off, p.1 = .stash tid off → (s.team tid).isSome) →
        t.readLoc p.1 = p.2) ∧
      (∀ l : Loc, (∀ tid off, l ≠ .stash tid off) ∨ (∀ u ∈ s.teams, u.maps = []) → (∀ p ∈ b.bytes, l.key ≠ p.1.key) →
        t.readLoc l = s.readLoc l) ∧
      (b.setTag = false → ∀ p ∈ b.bytes, t.tagLoc p.1 = false) ∧
      (∀ aid gpa v rest, b.setTag = true → b.bytes = (.glob aid gpa, v) :: rest → isHostGpa gpa = false → t.tagLoc (.glob aid gpa) = true)

/-- R116, R117, R60-R62, R339: a scalar atomic issues as a load does; where its core's L1 settles it, it performs as one step on the 32-bit
word (SACAS writes only when the old value equals sd), and its old value returns as a load's data does; elsewhere it asks the slice. ORD
gives its order and scope to the word after it and goes past both; another word, or an order that the word does not take, raises ILLEGAL
at the ORD. -/
def Obligations.ScalarAtomics : Prop :=
  let plain (s : State) (_ : Group) (_ : Fragment) (ls : List Loc) : Prop := ∀ l ∈ ls, s.isHeader l = false
  let atomic (i : Instr) (rs : List Nat) (d a o : BitVec 8) (op : AtomOp) (new : Word → Word → Word → Option Word) : Prop :=
    YieldsAt i (rs ++ [a.toNat, a.toNat + 1]) 4 a o .at true plain (fun s g fr k va ls =>
      s.put { g with seq := g.seq + 1, loads := g.loads ++ [
        { seq := g.seq, dst := d.toNat, pair := false, locs := ls, acq := acquires s.ord.order, scope := s.ord.scope, addr := va, pc := fr.pc
          frag := fr.mask, after := g.words + 1
          atom := some { op, x := (g.s d.toNat).zeroExtend 64, y := (g.s (d.toNat + 1)).zeroExtend 64, rel := releases s.ord.order
                         scope := s.levelScope (s.who g).cid g.core s.ord.scope } }] } k (s.fall fr)) ∧
    ∀ (m x y : Word) (rel : Bool) (sc : BitVec 5),
      ((Atomic.new { op, x := x.zeroExtend 64, y := y.zeroExtend 64, rel, scope := sc } (m.zeroExtend 64)).map fun v => BitVec.ofNat 32 v.toNat) =
        new m x y
  (∀ d a o : BitVec 8,
    atomic (.saadd d a o) [d.toNat] d a o .add (fun m x _ => some (m + x)) ∧
    atomic (.samin d a o) [d.toNat] d a o .min (fun m x _ => some (if m.toInt < x.toInt then m else x)) ∧
    atomic (.samax d a o) [d.toNat] d a o .max (fun m x _ => some (if m.toInt < x.toInt then x else m)) ∧
    atomic (.saand d a o) [d.toNat] d a o .and (fun m x _ => some (m &&& x)) ∧
    atomic (.saor d a o) [d.toNat] d a o .or (fun m x _ => some (m ||| x)) ∧
    atomic (.saxor d a o) [d.toNat] d a o .xor (fun m x _ => some (m ^^^ x)) ∧
    atomic (.saxch d a o) [d.toNat] d a o .xch (fun _ x _ => some x) ∧
    atomic (.sacas d a o) [d.toNat, d.toNat + 1] d a o .cas (fun m x y => if m = x then some y else none)) ∧
  (∀ (s s0 : State) (core slot q : Nat) (g : Group) (l : Load) (a : Atomic), s.group core slot = some g →
    g.loads.find? (fun x => x.seq == q) = some l → l.value = none → l.atom = some a → g.mayPerform l a = true → s.writeFault l.addr l.locs = none →
    s.inL1 (s.who g) l.addr.toNat a.scope l.locs = true → s.own (s.who g) l.addr.toNat l.locs.head? = .ok s0 →
    let aid := (s.who g).aid
    let s1 := if l.acq then s0.acquireAt aid l.scope else s0
    let old : DWord := BitVec.ofNat 64 (leVal (s1.readLocs l.locs))
    let s2 := match a.new old with
      | some v => s1.writeLocs (l.locs.zip (leBytes l.locs.length v.toNat))
      | none => s1
    let s3 := if a.rel then s2.releaseAt aid l.scope else s2
    exec (.scalarLoadReturn core slot q) s = .next (s3.setGroup
      { g with loads := g.loads.map fun m => if m.seq == l.seq then { m with value := some old } else m })) ∧
  (∀ (s : State) (core slot q aid gpa : Nat) (g : Group) (l : Load) (a : Atomic) (rest : List Loc), s.group core slot = some g →
    g.loads.find? (fun x => x.seq == q) = some l → l.value = none → l.atom = some a → g.mayPerform l a = true → s.writeFault l.addr l.locs = none →
    s.inL1 (s.who g) l.addr.toNat a.scope l.locs = false → l.locs = .glob aid gpa :: rest →
    exec (.scalarLoadReturn core slot q) s = .next (s.post (.atom g.core (lineOf aid gpa) (gpa % 128) a.op .i32 a.x a.y a.scope))) ∧
  (∀ (o : Ord) (scope : BitVec 5) (s : State) (g : Group) (fr : Fragment) (k w : Nat), Ready (.ord o scope) [] s g fr k →
    let s1 := { s with ord := { order := o, scope, pair := true } }
    s.fetchCode (s.who g) (fr.pc + 4).toNat 4 = .ok w →
    (∀ (d a f : BitVec 8) (va : DWord) (ls : List Loc), decodeScalar (BitVec.ofNat 32 w) = .ok (.sld32 d a f) → o.forLoad = true →
      AtMem (.sld32 d a f) ([d.toNat] ++ [a.toNat, a.toNat + 1]) 4 a f .rd true s1 g fr k va ls →
      exec (.ord o scope) s = .next { s1.put { g with seq := g.seq + 1, loads := g.loads ++ [
        { seq := g.seq, dst := d.toNat, pair := false, locs := ls, acq := o == .acq || o == .ar, scope, addr := va, pc := fr.pc
          frag := fr.mask, after := g.words + 1 }] } k { fr with pc := fr.pc + 8, wait := none } with ord := {} }) ∧
    (∀ i : Instr, decodeScalar (BitVec.ofNat 32 w) = .ok i → ordWord o i = none → exec (.ord o scope) s =
      .next { s1.raise g { cause := .illegal, pc := fr.pc, pair := true, culprit := .scalar g.slot k } with ord := {} })) ∧
  (∀ (o : Ord) (d a f : BitVec 8) (c : BitVec 8) (x : BitVec 16),
    ((ordWord o (.sld32 d a f)).isSome = o.forLoad) ∧ ((ordWord o (.sld64 d a f)).isSome = o.forLoad) ∧
    ((ordWord o (.sst32 d a f)).isSome = o.forStore) ∧ ((ordWord o (.sst64 d a f)).isSome = o.forStore) ∧
    (ordWord o (.saadd d a f)).isSome = true ∧ ordWord o (.sadd d a f) = none ∧ ordWord o (.stref d a f) = none ∧
    ordWord o (.scpset d a f) = none ∧ ordWord o .nop = none ∧ ordWord o (.brz c x) = none)

/-- R134, R178, R240: JLOAD, SCPSET and TDSET read their image 8 bytes at a time, the low ones first, the group's own stores included; the
words read so far, and the address, stand in the fragment's wait; each word comes to the core's L1 first (R331), after older atomics of the group
to its bytes; one 8-byte read to a step for SCPSET and TDSET too is the model's reading (log 42). With the last word, JLOAD loads expect and ARMED of an image with no arrived lane, no
address and no reserved bit, else raises JOINMIS reason 5; SCPSET raises ILLEGAL for a core outside the partition's dies; TDSET raises
ILLEGAL for an ill-formed descriptor, also one with FORMAT NONE (log 16), and empties the entry for FORMAT NONE. -/
def Obligations.TableLoads : Prop :=
  let read (s : State) (g : Group) (fr : Fragment) (ls : List Loc) : List DWord :=
    fr.words ++ [BitVec.ofNat 64 (leVal (((ls.drop (8 * fr.words.length)).take 8).map fun l => (g.fwd g.seq l).getD (s.readLoc l)))]
  let image (s : State) (g : Group) (fr : Fragment) (ls : List Loc) : Nat := dwordsVal (read s g fr ls)
  let here (s : State) (g : Group) (fr : Fragment) (ls : List Loc) : Prop :=
    g.pendingAtoms ((ls.drop (8 * fr.words.length)).take 8) = false ∧ ∀ l ∈ (ls.drop (8 * fr.words.length)).take 8, s.inCache (s.who g) l = true
  let last (s : State) (g : Group) (fr : Fragment) (ls : List Loc) (n : Nat) : Prop := here s g fr ls ∧ n ≤ fr.words.length + 1
  let part (s : State) (g : Group) : Part := s.part ((s.who g).cid / 1024)
  let free (fr : Fragment) : Fragment := { fr with wait := none }
  let bad (s : State) (g : Group) (fr : Fragment) (k : Nat) (c : Cause) (detail : DWord) : State :=
    (s.put g k (free fr)).raise (g.setFrag k (free fr)) { cause := c, detail, pc := fr.pc, pair := s.ord.pair, culprit := .scalar g.slot k }
  let more (i : Instr) (a o : BitVec 8) (size n : Nat) (p : Group → Prop) : Prop :=
    YieldsAt i [a.toNat, a.toNat + 1] size a o .rd false (fun s g fr ls => p g ∧ here s g fr ls ∧ fr.words.length + 1 < n)
      (fun s g fr k va ls => s.put g k { fr with wait := some (.words va (read s g fr ls)) }) ∧
    ∀ s g fr k va ls l rest, AtMem i [a.toNat, a.toNat + 1] size a o .rd false s g fr k va ls → p g →
      (ls.drop (8 * fr.words.length)).take 8 = l :: rest → g.pendingAtoms (l :: rest) = false → s.inCache (s.who g) l = false →
      exec i s = .next (s.want (s.who g) (va.toNat + 8 * fr.words.length) (some l))
  (∀ ws : List DWord, dwordsVal ws = leVal (ws.flatMap fun w => leBytes 8 w.toNat)) ∧
  (∀ (n : BitVec 3) (a o : BitVec 8),
    let v (s : State) (g : Group) (fr : Fragment) (ls : List Loc) : BitVec 128 := BitVec.ofNat 128 (image s g fr ls)
    more (.jload n a o) a o 16 2 (fun g => (g.rj n.toNat).arrived = 0) ∧
    YieldsAt (.jload n a o) [a.toNat, a.toNat + 1] 16 a o .rd false
      (fun s g fr ls => last s g fr ls 2 ∧ (g.rj n.toNat).arrived = 0 ∧ (v s g fr ls).extractLsb' 32 88 = 0 ∧ (v s g fr ls).extractLsb' 121 7 = 0)
      (fun s g fr k _ ls => s.put (g.setRj n.toNat
        { armed := (v s g fr ls).getLsbD 120, jaddr := 0, arrived := 0, expect := (v s g fr ls).extractLsb' 0 32 }) k (s.fall fr)) ∧
    YieldsAt (.jload n a o) [a.toNat, a.toNat + 1] 16 a o .rd false
      (fun s g fr ls => fr.fence = none ∧ last s g fr ls 2 ∧ (g.rj n.toNat).arrived = 0 ∧
        ((v s g fr ls).extractLsb' 32 88 ≠ 0 ∨ (v s g fr ls).extractLsb' 121 7 ≠ 0))
      (fun s g fr k _ _ => bad s g fr k .joinmis 5)) ∧
  (∀ n a o : BitVec 8,
    let cores (s : State) (g : Group) (fr : Fragment) (ls : List Loc) : BitVec 384 := BitVec.ofNat 384 (image s g fr ls)
    let inside (s : State) (g : Group) (fr : Fragment) (ls : List Loc) : Prop :=
      ∀ c : Nat, c < 384 → (cores s g fr ls).getLsbD c = true → c / 96 ∈ (part s g).dies
    more (.scpset n a o) a o 64 6 (fun _ => True) ∧
    YieldsAt (.scpset n a o) [a.toNat, a.toNat + 1] 64 a o .rd false (fun s g fr ls => last s g fr ls 6 ∧ inside s g fr ls)
      (fun s g fr k _ ls => (s.setCtx { (s.ctx (s.who g).cid) with
        scopes := assocSet n.toNat (cores s g fr ls) (s.ctx (s.who g).cid).scopes }).put g k (s.fall fr)) ∧
    YieldsAt (.scpset n a o) [a.toNat, a.toNat + 1] 64 a o .rd false (fun s g fr ls => fr.fence = none ∧ last s g fr ls 6 ∧ ¬ inside s g fr ls)
      (fun s g fr k _ _ => bad s g fr k .illegal 0)) ∧
  (∀ t a o : BitVec 8,
    let d (s : State) (g : Group) (fr : Fragment) (ls : List Loc) : BitVec 512 := BitVec.ofNat 512 (image s g fr ls)
    more (.tdset t a o) a o 64 8 (fun _ => True) ∧
    YieldsAt (.tdset t a o) [a.toNat, a.toNat + 1] 64 a o .rd false (fun s g fr ls => last s g fr ls 8 ∧ tOk (d s g fr ls) = true)
      (fun s g fr k _ ls => (s.setCtx { (s.ctx (s.who g).cid) with
        tensors := assocSet t.toNat (if (d s g fr ls).extractLsb' 448 4 = 0 then 0 else d s g fr ls) (s.ctx (s.who g).cid).tensors }).put g k
        (s.fall fr)) ∧
    YieldsAt (.tdset t a o) [a.toNat, a.toNat + 1] 64 a o .rd false (fun s g fr ls => fr.fence = none ∧ last s g fr ls 8 ∧ tOk (d s g fr ls) = false)
      (fun s g fr k _ _ => bad s g fr k .illegal 0))

/-! ## Copies, stash maps, objects -/

/-- R46, R201-R206, R211: a copy checks its operands at issue, takes the next id and joins the open batch; its issue moves no byte.
CSEAL moves the open batch into a sealed one; CWAIT waits until its batch is empty; CPOLL counts it. A retiring copy writes each byte
that it has not moved yet, as it was read or as its source holds it, and leaves its batch (its bytes move one by one: log 11); no L1 and no die
holds its destination lines any more (R338; log 8); a copy that meets a fault writes the whole lines below it, stops, and raises the cause. A
mapped stash line that leaves an L1 keeps its value as plain stash (R208); with no mapping there is none. -/
def Obligations.Copies : Prop :=
  let window (s : State) (g : Group) : Nat := match s.team g.team with | some t => t.window | none => 0
  let fits (s : State) (g : Group) (st : Bool) (a n : Nat) : Prop := if st then a + n ≤ window s g else a + n ≤ 2 ^ 56
  let issue (s : State) (g : Group) (fr : Fragment) (k : Nat) (dstS srcS : Bool) (dst src count remote : Nat) : State :=
    ({ s with
        nextId := s.nextId + 1
        copies := s.copies ++ [{ id := s.nextId, core := g.core, team := g.team, grp := g.grp, cid := (s.who g).cid, dstS := dstS,
                                      srcS := srcS, dst := dst, src := src, count := count, remote := remote, pc := fr.pc }] } : State).put { g with opened := s.nextId :: g.opened } k (s.fall fr)
  let calm (s : State) (g : Group) : Prop := g.slot ≠ 128 ∧ (s.copies.filter fun x => x.core == g.core).length < 64 ∧ g.acquiring = false ∧
    g.loads = [] ∧ g.sbuf = []
  let ok (s : State) (g : Group) (dstS srcS : Bool) (dst src n : Nat) : Prop := 0 < n ∧ n ≤ 16777216 ∧ fits s g dstS dst n ∧ fits s g srcS src n
  (∀ d a b : BitVec 8,
    let rs := [d.toNat, d.toNat + 1] ++ [a.toNat, a.toNat + 1] ++ [b.toNat, b.toNat + 1]
    let flags (g : Group) : Word := g.s (b.toNat + 1)
    let n (g : Group) : Nat := (g.s b.toNat).toNat
    let D (g : Group) : Nat := (g.pair d.toNat).toNat
    let A (g : Group) : Nat := (g.pair a.toNat).toNat
    YieldsIf (.cpy d a b) rs (fun s g _ => calm s g ∧ (flags g).extractLsb' 2 30 = 0 ∧ ok s g ((flags g).getLsbD 0) ((flags g).getLsbD 1) (D g) (A g) (n g) ∧
        ((flags g).getLsbD 0 = (flags g).getLsbD 1 → D g + n g ≤ A g ∨ A g + n g ≤ D g))
      (fun s g fr k => issue s g fr k ((flags g).getLsbD 0) ((flags g).getLsbD 1) (D g) (A g) (n g) 0) ∧
    YieldsIf (.cpy d a b) rs (fun _ g _ => g.slot ≠ 128 ∧ (flags g).extractLsb' 2 30 = 0 ∧ n g = 0) (fun s g fr k => s.put g k (s.fall fr)) ∧
    Traps (.cpy d a b) rs (fun _ g _ => g.slot ≠ 128 ∧ ((flags g).extractLsb' 2 30 ≠ 0 ∨ 16777216 < n g)) .illegal (fun _ => 0) (fun _ => 0) ∧
    YieldsIf (.rget d a b) rs (fun s g _ => calm s g ∧ (flags g).extractLsb' 1 31 = 0 ∧ ok s g ((flags g).getLsbD 0) false (D g) (A g) (n g))
      (fun s g fr k => issue s g fr k ((flags g).getLsbD 0) false (D g) (A g) (n g) 1) ∧
    YieldsIf (.rput d a b) rs (fun s g _ => calm s g ∧ (flags g).extractLsb' 1 31 = 0 ∧ ok s g false ((flags g).getLsbD 0) (A g) (D g) (n g))
      (fun s g fr k => issue s g fr k false ((flags g).getLsbD 0) (A g) (D g) (n g) 2)) ∧
  (∀ j : BitVec 3, Yields (.cseal j) [] fun s g fr k =>
    s.put { g with opened := [], sealed_ := g.sealed_.set j.toNat (g.sealed_.getD j.toNat [] ++ g.opened) } k (s.fall fr)) ∧
  (∀ j : BitVec 3, YieldsIf (.cwait j) [] (fun _ g _ => g.sealed_.getD j.toNat [] = []) fun s g fr k => s.put g k (s.fall fr)) ∧
  (∀ j : BitVec 3, YieldsIf (.cwait j) [] (fun _ g _ => g.sealed_.getD j.toNat [] ≠ []) fun s _ _ _ => s) ∧
  (∀ (d : BitVec 8) (j : BitVec 3), Yields (.cpoll d j) [d.toNat] fun s g fr k =>
    s.put (g.setS d.toNat (BitVec.ofNat 32 ((g.sealed_.getD j.toNat []).length % 4096))) k (s.fall fr)) ∧
  (∀ (s : State) (id : Nat) (c : Copy) (moves : List (Loc × Loc)), s.MemWf → s.copyAt id = some c → s.examine c = .ready moves →
    (moves.map fun p => p.1.key).Nodup → (∀ p ∈ moves, ∀ tid off, p.1 = .stash tid off → (s.team tid).isSome) →
    ∃ t, exec (.copyRetire id) s = .next t ∧ t.copies = s.copies.filter (fun x => x.id != id) ∧
      (∀ g ∈ t.groups, id ∉ g.opened ∧ ∀ l ∈ g.sealed_, id ∉ l) ∧
      (∀ n p, moves[n]? = some p → c.skip + n ∉ c.moved →
        t.readLoc p.1 = ((c.got.find? fun x => x.1 == c.skip + n).map fun x => x.2).getD (s.readLoc p.2)) ∧
      (∀ l : Loc, (∀ tid off, l ≠ .stash tid off) ∨ (∀ u ∈ s.teams, u.maps = []) →
        (∀ n p, moves[n]? = some p → c.skip + n ∉ c.moved → l.key ≠ p.1.key) → t.readLoc l = s.readLoc l) ∧
      (∀ n aid gpa src, moves[n]? = some (.glob aid gpa, src) → c.skip + n ∉ c.moved →
        (∀ x ∈ t.l1, x.line ≠ lineOf aid gpa) ∧ ∀ e ∈ t.dir, e.line ≠ lineOf aid gpa)) ∧
  (∀ (s : State) (id : Nat) (c : Copy) (off : Nat) (cause : Cause) (stage : Bool) (addr : Nat) (t : Team) (moves : List (Loc × Loc)),
    s.copyAt id = some c → s.examine c = .bad off cause stage addr → s.team c.team = some t → t.dead = false →
    s.examine { c with count := max c.skip (off / 128 * 128) } = .ready moves →
    let part := max c.skip (off / 128 * 128)
    let u := s.storeAway (s.copyRest c moves)
    let v := { u with copies := u.copies.map fun (x : Copy) =>
      if x.id == id then { x with stuck := true, skip := part, got := [], moved := [] } else x }
    exec (.copyFault id) s = .next (v.trapTeam c.team
      { cause := cause, group := v.copyGroup c, stage := stage, detail := BitVec.ofNat 64 part
        addr := BitVec.ofNat 64 addr, pc := c.pc, culprit := .copy id }))

/-- R207-R210: SMAP checks its operands and adds a mapping; a mapped line is filled by its first access, once the core's L1 holds it
(exclusive for a write), which it asks for first; SUNMAP ends the mapping that
starts at its offset. -/
def Obligations.StashMaps : Prop :=
  (∀ (d a b : BitVec 8) (s : State) (g : Group) (fr : Fragment) (k : Nat) (t : Team),
    let o := (g.s d.toNat).toNat
    let p := (g.pair a.toNat).toNat
    let n := (g.s b.toNat).toNat
    Ready (.smap d a b) ([d.toNat, b.toNat] ++ [a.toNat, a.toNat + 1]) s g fr k → s.team g.team = some t →
    ((o % 128 = 0 ∧ p % 128 = 0 ∧ n % 128 = 0 ∧ n ≠ 0 ∧ t.maps.length < 8 ∧ (∀ m ∈ t.maps, m.off + m.len ≤ o ∨ o + n ≤ m.off)) →
      p + n ≤ 2 ^ 56 → o + n ≤ t.window → g.acquiring = false → s.copyBlocksStash t.tid o n true = false →
      exec (.smap d a b) s = .next ((s.setTeam { t with maps := t.maps ++ [{ off := o, addr := g.pair a.toNat, len := n }] }).put g k (s.fall fr))) ∧
    (o % 128 ≠ 0 ∨ p % 128 ≠ 0 ∨ n % 128 ≠ 0 ∨ n = 0 ∨ 8 ≤ t.maps.length →
      exec (.smap d a b) s = .next (s.raise g { cause := .illegal, pc := fr.pc, pair := s.ord.pair, culprit := .scalar g.slot k }))) ∧
  (∀ (d : BitVec 8) (s : State) (g : Group) (fr : Fragment) (k : Nat) (t : Team),
    Ready (.sunmap d) [d.toNat] s g fr k → s.team g.team = some t →
    (∀ m, t.maps.find? (fun m => m.off == (g.s d.toNat).toNat) = some m → g.acquiring = false → g.stashQuiet t = true →
      s.copyBlocksStash t.tid m.off m.len true = false → exec (.sunmap d) s = .next ((s.endMap t.tid m).put g k (s.fall fr))) ∧
    (t.maps.find? (fun m => m.off == (g.s d.toNat).toNat) = none →
      exec (.sunmap d) s = .next (s.raise g { cause := .illegal, pc := fr.pc, pair := s.ord.pair, culprit := .scalar g.slot k }))) ∧
  (∀ (s : State) (team line : Nat) (excl : Bool) (t : Team) (m : SMap) (aid gpa : Nat), s.MemWf → s.team team = some t → t.mapAt (128 * line) = some m →
    m.lineAt (128 * line) = none → s.xlate (s.teamWho t) (m.addr.toNat + (128 * line - m.off)) (if excl then .wr else .rd) = .ok (.glob aid gpa) →
    (s.l1St t.core (lineOf aid gpa) = .I → t.core < 384 → s.privateAt (s.teamWho t) (m.addr.toNat + (128 * line - m.off)) gpa = false →
      exec (.mappedStashFill team line excl) s =
        .next (s.post (if excl then .getx t.core (lineOf aid gpa) else .gets t.core (lineOf aid gpa)))) ∧
    (s.l1St t.core (lineOf aid gpa) ≠ .I → (excl = true → s.l1St t.core (lineOf aid gpa) ≠ .S ∧ s.l1St t.core (lineOf aid gpa) ≠ .O) →
    ∃ u, exec (.mappedStashFill team line excl) s = .next u ∧ (∀ l : Loc, u.readLoc l = s.readLoc l) ∧ u.onChip aid gpa = true ∧
      ∃ v, u.team team = some v ∧ v.maps = t.maps.map fun x => if x.off == m.off then { x with filled := (line, aid, gpa) :: x.filled } else x))

/-- R215-R223: NEW and NEW.LONG. A size above the limit raises ILLEGAL, a domain whose use would pass its limit raises QUOTA, a full arena
writes 0; otherwise, with no earlier access of the group open on the lines placed, sd takes the reference of an object whose header names its
domain, owner and lines and whose payload is zero. In a chunk with room NEW places the object at the chunk's next line. The lines are built one
by one: line 0 reads as the two header words, with their tags, and zeros; every other line as zeros without a tag; none is published, and no
other line changes.
QGET.USE and QGET.LIM read the quota of a domain. -/
def Obligations.Allocation : Prop :=
  (∀ d a : BitVec 8, ∀ long : Bool,
    let i : Instr := if long then .newLong d a else .new d a
    ∀ (s : State) (g : Group) (fr : Fragment) (k : Nat) (t : Team),
      let size := (g.pair a.toNat).toNat
      Ready i ([d.toNat, d.toNat + 1] ++ [a.toNat, a.toNat + 1]) s g fr k → g.slot ≠ 128 → s.team g.team = some t →
      ((if long then 134217584 < size ∨ (s.descOf t).longSize = 0 else 65520 < size) →
        exec i s = .next (s.raise g { cause := .illegal, pc := fr.pc, pair := s.ord.pair, culprit := .scalar g.slot k })) ∧
      ((if long then size ≤ 134217584 ∧ (s.descOf t).longSize ≠ 0 else size ≤ 65520) → g.acquiring = false →
        (∀ u p, s.alloc (s.who g) t size long = .got u p → u.overPlaced g (s.who g) g.seq p ((size + 143) / 128) = false →
          exec i s = .next (u.put (g.setPair d.toNat (BitVec.ofNat 64 p)) k (s.fall fr))) ∧
        (∀ u, s.alloc (s.who g) t size long = .full u → exec i s = .next (u.put (g.setPair d.toNat 0) k (s.fall fr))) ∧
        (∀ l, s.launch t.lid = some l → (s.ctx (s.who g).cid).limit l.desc.domain < (s.ctx (s.who g).cid).use l.desc.domain + (size + 143) / 128 →
          exec i s = .next (s.raise g { cause := .quota, detail := BitVec.ofNat 64 (l.desc.domain + (size + 143) / 128 * 2 ^ 32), pc := fr.pc,
                                        pair := s.ord.pair, culprit := .scalar g.slot k })))) ∧
  (∀ (d a : BitVec 8) (s : State) (g : Group) (fr : Fragment) (k : Nat) (t : Team) (l : Launch) (base used : Nat),
    let size := (g.pair a.toNat).toNat
    let lines := (size + 143) / 128
    let w := s.who g
    let u := ((s.setTeam { t with chunk := some (base, used + 128 * lines) }).charge w.cid t.lid l.desc.domain lines false).build w (base + used)
      l.desc.domain lines
    Ready (.new d a) ([d.toNat, d.toNat + 1] ++ [a.toNat, a.toNat + 1]) s g fr k → g.slot ≠ 128 → s.team g.team = some t → s.launch t.lid = some l →
    size ≤ 65520 → g.acquiring = false → (s.ctx w.cid).use l.desc.domain + lines ≤ (s.ctx w.cid).limit l.desc.domain →
    (t.chunk = some (base, used) → used + 128 * lines ≤ 65536 → u.overPlaced g w g.seq (base + used) lines = false →
      exec (.new d a) s = .next (u.put (g.setPair d.toNat (BitVec.ofNat 64 (base + used))) k (s.fall fr))) ∧
    (t.chunk = none → l.desc.arenaSize < l.cursor + 65536 → exec (.new d a) s = .next (s.put (g.setPair d.toNat 0) k (s.fall fr)))) ∧
  (∀ (s : State) (w : Who) (va domain lines : Nat),
    s.build w va domain lines = (List.range lines).foldl (fun u n => u.buildLine w va domain lines n) s) ∧
  (∀ (s : State) (w : Who) (va domain lines n aid gpa : Nat), s.MemWf →
    s.xlate { w with noPriv := true } (va + 128 * n) .wr = .ok (.glob aid gpa) →
    let u := s.buildLine w va domain lines n
    let head : List Byte := leBytes 8 (headerWord0 domain w.owner lines) ++ leBytes 8 (2 ^ 63)
    (∀ m, m < 128 → u.readByte aid (gpa / 128 * 128 + m) = if n = 0 ∧ m < 16 then head.getD m 0 else 0) ∧
    u.lineTags aid gpa = (if n = 0 then 3 else 0) ∧ u.linePub aid gpa = false ∧
    ∀ aid' gpa', lineOf aid' gpa' ≠ lineOf aid gpa → u.readByte aid' gpa' = s.readByte aid' gpa' ∧ u.lineTags aid' gpa' = s.lineTags aid' gpa') ∧
  (∀ (domain owner lines : Nat), domain < 256 → owner < 65536 → 0 < lines → lines < 2 ^ 20 →
    let h := headerWord0 domain owner lines
    h < 2 ^ 64 ∧ h / 2 ^ 63 = 1 ∧ h / 2 ^ 55 % 256 = domain ∧ h / 2 ^ 39 % 65536 = owner ∧ h % 2 ^ 20 = lines ∧ h / 2 ^ 20 % 2 = 0) ∧
  (∀ d dom : BitVec 8, Yields (.qgetUse d dom) [d.toNat] fun s g fr k =>
    s.put (g.setS d.toNat (BitVec.ofNat 32 ((s.ctx (s.who g).cid).use dom.toNat))) k (s.fall fr)) ∧
  (∀ d dom : BitVec 8, Yields (.qgetLim d dom) [d.toNat] fun s g fr k =>
    s.put (g.setS d.toNat (BitVec.ofNat 32 ((s.ctx (s.who g).cid).limit dom.toNat))) k (s.fall fr))

/-- R225-R230, R235: STREF of null clears the tag of its word; a reference to a settled target, or into a line of the team's own that is
not published, is stored with its tag, once the core may write the line (R331); an escape of a context with ESC raises ESCAPE; without ESC
the device publishes the target first. That STREF stores as it issues, once earlier accesses of the group to its bytes are closed, and that
the device publishes once every earlier access of the group has performed, are the model's readings (log 42). ISPUB reads PUB, STAMP and SCOPE
of a header; PUBL of null is only its release, of a reference it starts a walk and waits. -/
def Obligations.References : Prop :=
  let calm (g : Group) (ls : List Loc) : Prop := g.slot ≠ 128 ∧ g.readsBefore g.seq ls = false ∧ g.storesBefore g.seq ls = false
  let regs (d a : BitVec 8) : List Nat := [d.toNat, d.toNat + 1] ++ [a.toNat, a.toNat + 1]
  (∀ d a o : BitVec 8,
    let V (g : Group) : Nat := (g.pair d.toNat).toNat
    let plain (s : State) (g : Group) (ls : List Loc) : Prop := calm g ls ∧ ∀ l ∈ ls, s.isHeader l = false
    (∀ s s0 g fr k va ls, AtMem (.stref d a o) (regs d a) 8 a o .wr false s g fr k va ls → plain s g ls → V g = 0 →
      s.own (s.who g) va.toNat ls.head? = .ok s0 →
      exec (.stref d a o) s = .next ((s0.writeLocs (ls.zip (leBytes 8 0))).put g k (s.fall fr.count))) ∧
    (∀ s g fr k va ls e, AtMem (.stref d a o) (regs d a) 8 a o .wr false s g fr k va ls → plain s g ls → V g = 0 →
      s.own (s.who g) va.toNat ls.head? = .error e → exec (.stref d a o) s = .next (s.post e)) ∧
    (∀ s g fr k va l ls h, AtMem (.stref d a o) (regs d a) 8 a o .wr false s g fr k va (l :: ls) → plain s g (l :: ls) → V g ≠ 0 →
      s.target (s.who g) (V g) true = .at h →
      let rank := s.container (s.who g) va.toNat l
      let settled := s.settled (s.who g).cid (s.who g).core h rank.1
      (∀ s0, s.own (s.who g) va.toNat (some l) = .ok s0 → (s.ownPrivate (s.who g) va.toNat l = true ∨ settled = true) →
        exec (.stref d a o) s = .next ((s0.putTagged l (V g)).put g k (s.fall fr.count))) ∧
      (s.ownPrivate (s.who g) va.toNat l = false → settled = false → (s.ast (s.who g).aid).esc = true → fr.fence = none →
        exec (.stref d a o) s =
        .next (s.raise g { cause := .escape, detail := g.pair d.toNat, addr := va, pc := fr.pc, pair := s.ord.pair, culprit := .scalar g.slot k })) ∧
      (s.ownPrivate (s.who g) va.toNat l = false → settled = false → (s.ast (s.who g).aid).esc = false → g.doneBefore g.seq = true →
        (∀ x ∈ s.walks, ¬ (x.team = g.team ∧ x.grp = g.grp ∧ x.root = V g)) → exec (.stref d a o) s =
          .next (s.post (.escapeHwPublish g.core g.slot k (g.pair d.toNat) (BitVec.ofNat 5 rank.2)))))) ∧
  (∀ d a : BitVec 8,
    let R (g : Group) : Nat := (g.pair a.toNat).toNat
    let rs := d.toNat :: [a.toNat, a.toNat + 1]
    YieldsIf (.ispub d a) rs (fun _ g _ => g.acquiring = false ∧ R g = 0) (fun s g fr k => s.put (g.setS d.toNat 0) k (s.fall fr)) ∧
    (∀ s g fr k h, Ready (.ispub d a) rs s g fr k → g.acquiring = false → R g ≠ 0 → s.target (s.who g) (R g) false = .at h →
      exec (.ispub d a) s = .next (s.put (g.setS d.toNat (BitVec.ofNat 32 (if s.word64 h / 2 ^ 20 % 2 = 0 then 0 else
        256 + (if s.word64 (h.plus 8) / 2 ^ 56 % 2 ^ 7 = 0 then 0 else 512) + s.word64 h / 2 ^ 21 % 2 ^ 5))) k (s.fall fr)))) ∧
  (∀ (scope : BitVec 5) (a : BitVec 8),
    let R (g : Group) : Nat := (g.pair a.toNat).toNat
    let rs := [a.toNat, a.toNat + 1]
    YieldsIf (.publ scope a) rs (fun _ g fr => g.slot ≠ 128 ∧ fr.wait = none ∧ R g = 0 ∧ g.doneBefore g.seq = true)
      (fun s g fr k => (s.releaseAt (s.who g).aid scope).put g k ((s.releaseAt (s.who g).aid scope).fall fr)) ∧
    (∀ r x, YieldsIf (.publ scope a) rs (fun _ g fr => g.slot ≠ 128 ∧ fr.wait = some (.done r x)) fun s g fr k =>
      (s.releaseAt (s.who g).aid scope).put g k ((s.releaseAt (s.who g).aid scope).fall fr)) ∧
    (∀ s g fr k h n, Ready (.publ scope a) rs s g fr k → g.slot ≠ 128 → fr.wait = none → R g ≠ 0 → s.target (s.who g) (R g) true = .at h →
      g.doneBefore g.seq = true → s.freeWalker g.core = some n →
      exec (.publ scope a) s = .next ((s.startWalk g fr.mask none fr.pc (R g) scope n).put g k { fr.count with wait := some (.walk s.nextId none) })))

/-- R227, R231-R236: one step of a walk registers and publishes one line, adds the line's references to what is pending and, at line 0, marks
the header: PUB becomes 1, SCOPE the walk's when its rank exceeds the old one, and a header without a stamp takes the walker's, with LINK to
the object stamped before. A settled object, or one that this walk has stamped (log 35), is not walked again; a complete walk clears the stamps
and links of its chain, frees its walker, releases at its scope and lets its fragment go on with the published root. References beyond the
walker's list go to its area of save memory (log 44). ESCAPE_HW_PUBLISH starts the walk of an escaping store, when what the group ordered
before the store has performed. -/
def Obligations.Walks : Prop :=
  (∀ (s : State) (n : Nat) (w : Walk) (ref : Nat) (rest : List Nat) (h : Loc), s.walkOf n = some w → w.fault = none → w.obj = none →
    w.pending = ref :: rest → s.target (s.walkWho w) ref false = .at h →
    (s.settled w.cid w.core h w.rank = true ∨ ref ∈ w.chain →
      exec (.walkLineStep n) s = .next (s.setWalk { w with pending := rest })) ∧
    (s.settled w.cid w.core h w.rank = false → ref ∉ w.chain →
      exec (.walkLineStep n) s = s.walkLine { w with pending := rest } ref (s.word64 h % 2 ^ 20) 0)) ∧
  (∀ (s s0 : State) (w : Walk) (va n l aid gpa : Nat), s.xlate (s.walkWho w) (va + 128 * l) .wr = .ok (.glob aid gpa) → l + 1 < n →
    s.registerP (lineOf aid gpa) = .ok s0 →
    let s1 := s0.setPub aid gpa true
    (l ≠ 0 →
      let r := (s.refsIn (.glob aid gpa)).foldl State.addRef (s1, { w with obj := some (va, n, l + 1) })
      s.walkLine w va n l = .next (r.1.setWalk r.2)) ∧
    (l = 0 →
      let m := s1.markHeader w (.glob aid gpa)
      let r := (s.refsIn (.glob aid gpa)).foldl State.addRef (m.1, { w with obj := some (va, n, 1), chain := if m.2 then va :: w.chain else w.chain })
      s.walkLine w va n l = .next (r.1.setWalk r.2))) ∧
  (∀ (s : State) (w : Walk) (aid gpa : Nat), s.MemWf → isHostGpa gpa = false → gpa % 128 = 0 →
    let h : Loc := .glob aid gpa
    let w0 := s.word64 h
    let w1 := s.word64 (h.plus 8)
    let old := if w0 / 2 ^ 20 % 2 = 1 then s.scopeRank w.cid w.core (w0 / 2 ^ 21 % 2 ^ 5) else 0
    let t := (s.markHeader w h).1
    t.word64 h / 2 ^ 20 % 2 = 1 ∧ t.word64 h % 2 ^ 20 = w0 % 2 ^ 20 ∧ t.word64 h / 2 ^ 26 = w0 / 2 ^ 26 ∧
    t.word64 h / 2 ^ 21 % 2 ^ 5 = (if old < w.rank then w.scope.toNat else w0 / 2 ^ 21 % 2 ^ 5) ∧
    (w1 / 2 ^ 56 % 2 ^ 7 = 0 → w.walker < 127 → (s.markHeader w h).2 = true ∧ t.word64 (h.plus 8) / 2 ^ 56 % 2 ^ 7 = 1 + w.walker ∧
      t.word64 (h.plus 8) % 2 ^ 56 = w.chain.headD 0 % 2 ^ 56) ∧
    (w1 / 2 ^ 56 % 2 ^ 7 ≠ 0 → (s.markHeader w h).2 = false ∧ t.word64 (h.plus 8) = w1) ∧
    t.tagLoc h = true ∧ t.tagLoc (h.plus 8) = true) ∧
  (∀ (s : State) (w : Walk) (ref : Nat), let r := State.addRef (s, w) ref
    r = (s, { w with pending := w.pending ++ [ref] }) ∨
    (∃ a, s.walkArea w = some a ∧ w.spilled < 131072 ∧
      r = (s.writeBytes w.aid (a + 8 * w.spilled) (leBytes 8 ref), { w with spilled := w.spilled + 1 })) ∨
    ((s.walkArea w = none ∨ 131072 ≤ w.spilled) ∧ r = (s, { w with overflow := true }))) ∧
  (∀ (s : State) (n : Nat) (w : Walk) (va m l aid gpa : Nat), s.MemWf → s.walkOf n = some w → w.fault = none → w.obj = some (va, m, l) → l ≠ 0 →
    s.xlate (s.walkWho w) (va + 128 * l) .wr = .ok (.glob aid gpa) → (∀ x ∈ s.l1, x.line = lineOf aid gpa → x.st ≠ .P) → l + 1 < m →
    s.refsIn (.glob aid gpa) = [] ∨ s.walkArea w = none →
    ∃ t, exec (.walkLineStep n) s = .next t ∧ t.linePub aid gpa = true ∧ (∀ x : Loc, t.readLoc x = s.readLoc x)) ∧
  (∀ (s : State) (line : Nat), (∀ x ∈ s.l1, x.line = line → x.st ≠ .P) → s.registerP line = .ok s) ∧
  (∀ (s : State) (n : Nat) (w : Walk), s.walkOf n = some w → w.fault = none → w.exhausted = true →
    let s1 := s.clearStamps w
    let s2 := { s1 with walks := s1.walks.filter fun x => x.id != w.id }.releaseAt w.aid w.scope
    exec (.walkComplete n) s = .next { s2 with groups := s2.groups.map fun g => if g.team == w.team && g.grp == w.grp then g.walkDone w true else g }) ∧
  (∀ (g : Group) (w : Walk) (fr : Fragment) (d : Option Nat), g.slot0 = some fr → fr.mask = w.frag → fr.wait = some (.walk w.id d) →
    (g.walkDone w true).slot0 = some { fr with wait := some (.done w.root d) }) ∧
  (∀ (s : State) (w : Walk) (va : Nat) (rest : List Nat) (l : Loc), s.clearStamps { w with chain := [] } = s ∧
    (s.xlate (s.walkWho w) va .wr = .ok l → s.clearStamps { w with chain := va :: rest } = (s.clearStamp l).clearStamps { w with chain := rest })) ∧
  (∀ (s : State) (aid gpa : Nat), s.MemWf → isHostGpa gpa = false → gpa % 128 = 0 →
    let t := s.clearStamp (.glob aid gpa)
    t.word64 (.glob aid (gpa + 8)) = 2 ^ 63 ∧ t.tagLoc (.glob aid (gpa + 8)) = true ∧ t.word64 (.glob aid gpa) = s.word64 (.glob aid gpa)) ∧
  (∀ w : Walk, w.exhausted = true ↔
    w.obj = none ∧ w.pending = [] ∧ w.spilled = 0 ∧ w.rescan = [] ∧ w.overflow = false ∧ w.found = false) ∧
  (∀ (s : State) (core slot k n : Nat) (target : DWord) (scope : BitVec 5) (g : Group) (fr : Fragment), s.group core slot = some g →
    g.frag k = some fr → k < 2 → s.freeWalker core = some n → g.doneBefore g.seq = true →
    exec (.escapeHwPublish core slot k target scope) s =
      .next ((s.startWalk g fr.mask none fr.pc target.toNat scope n).put g k { fr with wait := some (.walk s.nextId none) })) ∧
  (∀ (s : State) (core slot k n : Nat) (target : DWord) (scope : BitVec 5) (g : Group) (e : LogEntry), s.group core slot = some g → 2 ≤ k →
    s.freeWalker core = some n → g.olog.find? (fun e => e.storesRef target) = some e → g.ordered e.uid e.seq = true →
    exec (.escapeHwPublish core slot k target scope) s = .next (s.startWalk g 0 (some e.seq) e.lrunPc target.toNat scope n)) ∧
  (∀ (s : State) (core n : Nat), s.freeWalker core = some n → 4 * (core / 96) ≤ n ∧ n < 4 * (core / 96) + 4 ∧ ∀ w ∈ s.walks, w.walker ≠ n)

/-! ## Ladders, mailboxes, services -/

/-- R253-R258, R264-R266, R268: LADR reads its descriptor and its rungs' launch descriptors and opens its slot, or finds them malformed (reason
7; log 59 for a rung's descriptor that breaks R274); LFEED gives each item of its array to rung 0, in order, stops with reason 6 at one that
is too large or not free, and goes on at its position; LCLOSE closes the slot, which is DONE when nothing is live; LWAIT waits for the
done-prefix. Arrivals of one device time stand in increasing core id, those of one core in order (R264; log 17). -/
def Obligations.LadderWords : Prop :=
  let slot (s : State) (g : Group) (n : BitVec 4) : Ladder := (s.ctx (s.who g).cid).ladder n.toNat
  let detail (reason : Nat) (n : BitVec 4) : DWord := BitVec.ofNat 64 (reason + n.toNat * 2 ^ 8)
  (∀ (n : BitVec 4) (a : BitVec 8),
    let rs := [a.toNat, a.toNat + 1]
    let p (g : Group) : DWord := g.pair a.toNat
    (∀ (s : State) (g : Group) (fr : Fragment) (k : Nat) (bs : List Byte) (ds : List Nat), Ready (.ladr n a) rs s g fr k → g.slot ≠ 128 →
      (p g).extractLsb' 56 8 = 0 → (p g).toNat % 256 = 0 → (slot s g n).st ≠ .open_ → (slot s g n).st ≠ .closed → g.acquiring = false →
      g.doneBefore g.seq = true → s.getBytes (s.who g) (p g).toNat 256 = .ok bs → ladderOk (leVal bs) = true →
      s.rungDescs (s.who g) (leVal bs) (leVal bs / 2 ^ 160 % 2 ^ 3 + 1) 0 = .ok ds →
      let v := leVal bs
      let rungs := ds.mapIdx fun r d => rungOf (rungEntry v r) d
      (∀ d ∈ ds, rungDescOk d = true) → (∀ (r : Nat) (u : Rung), rungs[r]? = some u → r ≠ 0 → u.frame ≤ 8 * u.desc.lregs) →
      exec (.ladr n a) s = .next ((s.setLadder (s.who g).cid n.toNat
        { st := .open_, scope := BitVec.ofNat 5 (v / 2 ^ 168 % 2 ^ 5), rsz8 := v / 2 ^ 163 % 2 == 1, capacity := v / 2 ^ 128 % 2 ^ 21
          frames := v / 2 ^ 64 % 2 ^ 56, results := v % 2 ^ 56, rungs := rungs }).put g k (s.fall fr))) ∧
    (∀ (s : State) (g : Group) (fr : Fragment) (k : Nat) (bs : List Byte), Ready (.ladr n a) rs s g fr k → g.slot ≠ 128 → fr.fence = none →
      (p g).extractLsb' 56 8 = 0 → (p g).toNat % 256 = 0 → (slot s g n).st ≠ .open_ → (slot s g n).st ≠ .closed → g.acquiring = false →
      g.doneBefore g.seq = true → s.getBytes (s.who g) (p g).toNat 256 = .ok bs →
      (ladderOk (leVal bs) = false ∨ ∃ ds, ladderOk (leVal bs) = true ∧
        s.rungDescs (s.who g) (leVal bs) (leVal bs / 2 ^ 160 % 2 ^ 3 + 1) 0 = .ok ds ∧ ∃ d ∈ ds, rungDescOk d = false) →
      exec (.ladr n a) s = .next (s.raise g
        { cause := .ladder, detail := detail 7 n, pc := fr.pc, pair := s.ord.pair, culprit := .scalar g.slot k })) ∧
    Traps (.ladr n a) rs (fun s g _ => g.slot ≠ 128 ∧ (p g).extractLsb' 56 8 = 0 ∧ (p g).toNat % 256 = 0 ∧
      ((slot s g n).st = .open_ ∨ (slot s g n).st = .closed)) .ladder (fun _ => detail 4 n) (fun _ => 0)) ∧
  (∀ (n : BitVec 4) (a b : BitVec 8),
    let rs := [a.toNat, a.toNat + 1] ++ [b.toNat]
    let count (g : Group) : Nat := (g.s b.toNat).toNat
    let base (g : Group) : Nat := (g.pair a.toNat).toNat
    let fresh (g : Group) (fr : Fragment) : Prop := g.slot ≠ 128 ∧ ∀ x y z, fr.wait ≠ some (.feed x y z)
    Traps (.lfeed n a b) rs (fun _ g fr => fresh g fr ∧ 65536 < count g) .illegal (fun _ => 0) (fun _ => 0) ∧
    Traps (.lfeed n a b) rs (fun s g fr => fresh g fr ∧ count g ≤ 65536 ∧ (slot s g n).st ≠ .open_) .ladder (fun _ => detail 5 n) (fun _ => 0) ∧
    (∀ (s : State) (g : Group) (fr : Fragment) (k : Nat), Ready (.lfeed n a b) rs s g fr k → fresh g fr → count g ≤ 65536 →
      (slot s g n).st = .open_ → g.acquiring = false → g.doneBefore g.seq = true → s.copyBlocks (s.who g) (base g) (4 * count g) false = false →
      exec (.lfeed n a b) s = (s.releaseAt (s.who g).aid (slot s g n).scope).feed g fr.count k n.toNat (base g) (count g) (count g + 1) 0) ∧
    (∀ (s : State) (g : Group) (fr : Fragment) (k pos many : Nat) (array : DWord), Ready (.lfeed n a b) rs s g fr k → g.slot ≠ 128 →
      fr.wait = some (.feed pos array many) → exec (.lfeed n a b) s = s.feed g fr.count k n.toNat array.toNat many (many + 1) pos) ∧
    YieldsIf (.lfeed n a b) rs (fun s g fr => fresh g fr ∧ count g = 0 ∧ (slot s g n).st = .open_ ∧ g.acquiring = false ∧
        g.doneBefore g.seq = true ∧ s.copyBlocks (s.who g) (base g) 0 false = false ∧ sysScope (slot s g n).scope = false)
      (fun s g fr k => s.put g k (s.fall fr)) ∧
    (∀ (s : State) (g : Group) (fr : Fragment) (k : Nat) (ls : List Loc), Ready (.lfeed n a b) rs s g fr k → g.slot ≠ 128 → count g = 1 →
      (slot s g n).st = .open_ → g.acquiring = false → g.doneBefore g.seq = true → s.copyBlocks (s.who g) (base g) 4 false = false →
      sysScope (slot s g n).scope = false → fresh g fr → base g < 2 ^ 56 → base g % 4 = 0 →
      s.places (s.who g) (base g) 4 .rd = .ok ls → leVal (s.readLocs ls) < (slot s g n).capacity → (slot s g n).item (leVal (s.readLocs ls)) = none →
      exec (.lfeed n a b) s =
        .next ((s.setLadder (s.who g).cid n.toNat ((slot s g n).arrive (leVal (s.readLocs ls)) 0 s.time g.core)).put g k (s.fall fr)))) ∧
  (∀ (s : State) (g : Group) (fr : Fragment) (k m array count fuel pos : Nat),
    let x := (s.ctx (s.who g).cid).ladder m
    let va := (array + 4 * pos) % 2 ^ 64
    let stopped : Fragment := { fr with wait := some (.feed pos (BitVec.ofNat 64 array) count) }
    (count ≤ pos → s.feed g fr k m array count (fuel + 1) pos = .next (s.put g k (s.fall fr))) ∧
    (∀ ls, pos < count → va < 2 ^ 56 → va % 4 = 0 → s.places (s.who g) va 4 .rd = .ok ls →
      let i := leVal (s.readLocs ls)
      (i < x.capacity → x.item i = none → s.feed g fr k m array count (fuel + 1) pos =
        (s.setLadder (s.who g).cid m (x.arrive i 0 s.time g.core)).feed g fr k m array count fuel (pos + 1)) ∧
      (x.capacity ≤ i ∨ (x.item i).isSome → fr.fence = none → s.feed g fr k m array count (fuel + 1) pos =
        .next ((s.put g k stopped).raise g { cause := .ladder, detail := BitVec.ofNat 64 (6 + m * 2 ^ 8 + pos * 2 ^ 32), pc := fr.pc, pair := s.ord.pair
                                             culprit := .scalar g.slot k }))) ∧
    (∀ c st y, pos < count → va < 2 ^ 56 → va % 4 = 0 → s.places (s.who g) va 4 .rd = .error (.bad c st, y) → fr.fence = none →
      s.feed g fr k m array count (fuel + 1) pos = .next ((s.put g k stopped).raise g
        { cause := c, stage := st, detail := BitVec.ofNat 64 (pos * 2 ^ 32), addr := BitVec.ofNat 64 y, pc := fr.pc, pair := s.ord.pair
          culprit := .scalar g.slot k }))) ∧
  (∀ n : BitVec 4,
    YieldsIf (.lclose n) [] (fun s g _ => g.slot ≠ 128 ∧ (slot s g n).st = .open_) (fun s g fr k =>
      (s.setLadder (s.who g).cid n.toNat { slot s g n with st := if (slot s g n).anyLive then .closed else .done }).put g k (s.fall fr)) ∧
    Traps (.lclose n) [] (fun s g _ => g.slot ≠ 128 ∧ (slot s g n).st ≠ .open_) .ladder (fun _ => detail 5 n) (fun _ => 0)) ∧
  (∀ (d : BitVec 8) (n : BitVec 4) (b : BitVec 8),
    let rs := [d.toNat, b.toNat]
    let target (g : Group) : Nat := (g.s b.toNat).toNat
    let x (s : State) (g : Group) : Ladder := slot s g n
    YieldsIf (.lwait d n b) rs (fun s g _ => g.slot ≠ 128 ∧ (x s g).st ≠ .free ∧ target g ≤ (x s g).capacity ∧ target g ≤ (x s g).prefixDone)
      (fun s g fr k => (s.acquireAt (s.who g).aid (x s g).scope).put (g.setS d.toNat (BitVec.ofNat 32 (x s g).prefixDone)) k (s.fall fr)) ∧
    YieldsIf (.lwait d n b) rs (fun s g _ => g.slot ≠ 128 ∧ (x s g).st ≠ .free ∧ target g ≤ (x s g).capacity ∧ (x s g).prefixDone < target g)
      (fun s g fr k => s.put g k { fr with wait := some (.lwait d.toNat) }) ∧
    Traps (.lwait d n b) rs (fun s g _ => g.slot ≠ 128 ∧ (x s g).st = .free) .ladder (fun _ => detail 5 n) (fun _ => 0) ∧
    Traps (.lwait d n b) rs (fun s g _ => g.slot ≠ 128 ∧ (x s g).st ≠ .free ∧ (x s g).capacity < target g) .ladder (fun _ => detail 8 n)
      (fun _ => 0)) ∧
  (∀ (x : Ladder) (m : Nat), m < x.prefixDone → x.item m = some .retired) ∧
  (∀ (x : Ladder) (i r now core : Nat) (u : Rung), x.rung r = some u → (x.arrive i r now core).item i = some (.pending r) ∧
    (r < x.rungs.length → ∃ v, (x.arrive i r now core).rung r = some v ∧ v.pend = arrivalIn (i, now, core) u.pend)) ∧
  (∀ (a : Nat × Nat × Nat) (xs ys : List (Nat × Nat × Nat)), (∀ b ∈ xs, b.2.1 ≠ a.2.1 ∨ b.2.2 ≤ a.2.2) →
    (∀ b, ys.head? = some b → b.2.1 = a.2.1 ∧ a.2.2 < b.2.2) → arrivalIn a (xs ++ ys) = xs ++ a :: ys)

/-- R259-R262: ESC and LRET act on the lanes of EXEC that their mask takes. With none they do nothing; outside a rung group they raise LADDER
reason 5, ESC at the top rung reason 1, a lane without an item reason 2. LRET retires its items, and at a rung that stores first writes each
lane's register, or pair, at the item's result slot; ESC to a rung sends its items on after their frames are written: two tagged header words,
the lane's registers, and zeros; both take the items and the lanes out of the group. That LRET finds all its places before it writes one is the
model's reading (log 41). -/
def Obligations.RungBodies : Prop :=
  ∀ (c : BitVec 4) (v : BitVec 8),
    let lanes (g : Group) (fr : Fragment) : Mask := fr.exec &&& (if c = 0 then 0xFFFFFFFF else g.mask fr c.toNat)
    let x (s : State) (g : Group) : Ladder := (s.ctx (s.who g).cid).ladder g.rungSlot
    let items (g : Group) (m : Mask) : List (Nat × Nat) := (lanesOf m).filterMap fun l => (g.holds_ l).map fun n => (l, n)
    let calm (g : Group) (fr : Fragment) : Prop := g.slot ≠ 128 ∧ g.clausesDone fr = true ∧ g.maskWait [c.toNat, 0] = false
    let detail (reason : Nat) (g : Group) : DWord := BitVec.ofNat 64 (reason + (if g.rungValid then g.rungSlot else 0) * 2 ^ 8)
    let held (g : Group) (fr : Fragment) : Prop := lanes g fr ≠ 0 ∧ ∀ l ∈ lanesOf (lanes g fr), (g.holds_ l).isSome
    let escFits (s : State) (g : Group) : Prop := ∀ u, (x s g).rung (g.rungNo + 1) = some u → v.toNat + u.frame ≤ g.vregs.length
    let width (s : State) (g : Group) : Nat := if (x s g).rsz8 then 8 else 4
    let lretFits (s : State) (g : Group) : Prop := if (x s g).rsz8 then v.toNat % 2 = 0 ∧ v.toNat + 2 ≤ g.vregs.length else v.toNat + 1 ≤ g.vregs.length
    YieldsIf (.esc c v) [] (fun s g fr => calm g fr ∧ escFits s g ∧ g.rungValid = true ∧ lanes g fr = 0) (fun s g fr k => s.put g k (s.fall fr)) ∧
    YieldsIf (.lret c v) [] (fun s g fr => calm g fr ∧ lretFits s g ∧ g.rungValid = true ∧ lanes g fr = 0) (fun s g fr k => s.put g k (s.fall fr)) ∧
    Traps (.esc c v) [] (fun _ g fr => calm g fr ∧ g.rungValid = false) .ladder (detail 5) (fun _ => 0) ∧
    Traps (.lret c v) [] (fun _ g fr => calm g fr ∧ g.rungValid = false ∧ v.toNat + 1 ≤ g.vregs.length) .ladder (detail 5) (fun _ => 0) ∧
    Traps (.esc c v) [] (fun s g fr => calm g fr ∧ g.rungValid = true ∧ lanes g fr ≠ 0 ∧ g.rungNo + 1 = (x s g).rungs.length) .ladder (detail 1)
      (fun _ => 0) ∧
    Traps (.lret c v) [] (fun s g fr => calm g fr ∧ lretFits s g ∧ g.rungValid = true ∧ (∃ l ∈ lanesOf (lanes g fr), g.holds_ l = none)) .ladder
      (detail 2) (fun _ => 0) ∧
    (∀ (s : State) (g : Group) (fr : Fragment) (k : Nat) (u : Rung), Ready (.lret c v) [] s g fr k → calm g fr → lretFits s g → g.rungValid = true →
      held g fr → g.acquiring = false → g.doneBefore g.seq = true → (x s g).rung g.rungNo = some u →
      ∀ rs : List (List (Loc × Byte)), (u.nostore = true ∧ rs = [] ∨ u.nostore = false ∧ s.results g (x s g) v.toNat (items g (lanes g fr)) = .ok rs ∧
        ∀ p ∈ items g (lanes g fr), s.copyBlocks (s.who g) ((x s g).results + width s g * p.2) (width s g) true = false) →
      let s1 := (rs.foldl State.storeAway s).releaseAt (s.who g).aid (x s g).scope
      let y := ((items g (lanes g fr)).foldl (fun (y : Ladder) p => y.setItem p.2 .retired) ((s1.ctx (s.who g).cid).ladder g.rungSlot)).settle
      exec (.lret c v) s = .next ((s1.setLadder (s.who g).cid g.rungSlot y).put (g.handOver (lanes g fr)) k
        { s.fall fr with exec := fr.exec &&& ~~~lanes g fr })) ∧
    (∀ (s : State) (g : Group) (y : Ladder), s.results g y v.toNat [] = .ok [] ∧
      ∀ (l i : Nat) (rest : List (Nat × Nat)) (ls : List Loc) (rs : List (List (Loc × Byte))),
        let n := if y.rsz8 then 8 else 4
        y.results + n * i < 2 ^ 56 → s.places (s.who g) (y.results + n * i) n .wr = .ok ls → (∀ p ∈ ls, s.isHeader p = false) →
        s.results g y v.toNat rest = .ok rs → s.results g y v.toNat ((l, i) :: rest) = .ok (ls.zip (leBytes 4 (laneReg g v.toNat l).toNat ++
          if y.rsz8 then leBytes 4 (laneReg g (v.toNat + 1) l).toNat else []) :: rs)) ∧
    (∀ (s : State) (g : Group) (fr : Fragment) (k : Nat) (t : Team) (u : Rung) (l i : Nat) (h : Loc) (ls : List Loc),
      Ready (.esc c v) [] s g fr k → calm g fr → escFits s g → g.rungValid = true → held g fr → items g (lanes g fr) = [(l, i)] →
      g.rungNo + 1 ≠ (x s g).rungs.length → g.acquiring = false → g.doneBefore g.seq = true → s.team g.team = some t →
      g.rungSlot < (s.ctx t.cid).ladders.length → (x s g).rung (g.rungNo + 1) = some u → (x s g).frames + 128 * i < 2 ^ 56 →
      s.places (s.who g) ((x s g).frames + 128 * i) 128 .wr = .ok (h :: ls) →
      ∃ t' g', exec (.esc c v) s = .next t' ∧ t'.group g.core g.slot = some g' ∧ g'.items = (g.handOver (lanes g fr)).items ∧
        g'.frag k = some { s.fall fr with exec := fr.exec &&& ~~~lanes g fr } ∧
        ((t'.ctx t.cid).ladder g.rungSlot = ((x s g).arrive i (g.rungNo + 1) s.time g.core)) ∧
        ∀ aid gpa, s.MemWf → sysScope (x s g).scope = false → h :: ls = (List.range 128).map (fun n => .glob aid (gpa + n)) → gpa % 128 = 0 →
          isHostGpa gpa = false →
          let head := headerWord0 0 (t.core * 128 + t.slot) 1 + (x s g).scope.toNat * 2 ^ 21 + 2 ^ 20
          t'.word64 (.glob aid gpa) = head ∧ t'.word64 (.glob aid (gpa + 8)) = 2 ^ 63 ∧ t'.lineTags aid gpa = 3 ∧
          ∀ j, j < 28 → ∀ m, m < 4 → t'.readByte aid (gpa + 16 + 4 * j + m) =
            if j < u.frame then (leBytes 4 (laneReg g (v.toNat + j) l).toNat).getD m 0 else 0)

/-- R259, R263, R264, R267: a rung launches the oldest arrivals that its packing rules take, as a launch of its own descriptor with PENDING
items made RUNNING; arrivals of the present device time are gathered first, and close the rung only then. The launch starts as one team, once
the frames can be read; its one group takes the items of its lanes: their indexes stand in %item, and the first F lane registers hold the
payload words of their frames, every other register being left as it was. -/
def Obligations.LadderEvents : Prop :=
  let closing (s : State) (cid slot r : Nat) (u : Rung) : Bool := ((s.ctx cid).ladder slot).st == .closed &&
    !((s.ctx cid).ladder slot).liveBelow r && u.pend.all fun p => decide (p.2.1 < s.time)
  let launch (s : State) (cid slot r : Nat) (u : Rung) (n : Nat) (t : State) : Prop :=
    t.nextId = s.nextId + 1 ∧ t.launches = s.launches ++ [
      { lid := s.nextId, cid := cid, addr := u.addr, desc := u.desc, acceptAt := s.time, ready := true, timeOk := true
        ladder := some (slot, r, (u.pend.take n).map (fun p => p.1), u.launched) }] ∧
    (slot < (s.ctx cid).ladders.length → ∃ v, ((t.ctx cid).ladder slot).rung r = some v ∧ v.pend = u.pend.drop n ∧
      ∀ p ∈ u.pend.take n, ((t.ctx cid).ladder slot).item p.1 = some (.running r))
  (∀ (s : State) (cid slot r n : Nat) (u : Rung), ((s.ctx cid).ladder slot).rung r = some u →
    u.packs s.time (closing s cid slot r u) = some (true, n) →
    ∃ t, exec (.rungLimitExpiry cid slot r) s = .next t ∧ launch s cid slot r u n t) ∧
  (∀ (s : State) (cid slot r n : Nat) (u : Rung), ((s.ctx cid).ladder slot).rung r = some u →
    u.packs s.time (closing s cid slot r u) = some (false, n) →
    ∃ t, exec (.rungGroupLaunch cid slot r) s = .next t ∧ launch s cid slot r u n t) ∧
  (∀ (fill limit now first k : Nat) (b : Bool) (n : Nat) (ts : List Nat) (e : Bool), packing fill limit now b first k ts = some (e, n) → k < 32 →
    n ≤ 32 ∧ k ≤ n ∧ 0 < n ∧ n ≤ k + ts.length ∧ (n < fill → n = 32 ∨ b = true)) ∧
  (∀ (s : State) (lid slot r count : Nat) (l : Launch) (its : List Nat) (us : List (List (Nat × List Nat))), s.launch lid = some l →
    l.ladder = some (slot, r, its, count) → s.mayStart l = true → s.placement l = some us →
    (∀ u, ((s.ctx l.cid).ladder slot).rung r = some u → u.frame = 0 ∨
      s.frameWait (s.ctx l.cid).device ((s.ctx l.cid).ladder slot) its = none) →
    let s1 := (s.acquireAt (s.ctx l.cid).aid ((s.ctx l.cid).ladder slot).scope).startLaunch l us
    let tids := (s1.launchTeams lid).map fun t => t.tid
    ∃ t, exec (.rungGroupStart lid) s = .next t ∧
      t.teams = s1.teams.map (fun t => if t.lid == lid then { t with x := BitVec.ofNat 32 count } else t) ∧
      t.groups = s1.groups.map (fun g => if tids.contains g.team then Group.load s1 g (s.ctx l.cid).device ((s.ctx l.cid).ladder slot) slot r its else g)) ∧
  (∀ (s : State) (g : Group) (w : Who) (x : Ladder) (slot r : Nat) (its : List Nat), slot < 16 → r < 8 → its.length ≤ 32 →
    let h := Group.load s g w x slot r its
    (∀ l, l < 32 → h.itemIdx.getD l 0 = BitVec.ofNat 32 (its.getD l 0)) ∧ h.sregs = g.sregs ∧
    (∀ u j l i ls, x.rung r = some u → j < u.frame → j < g.vregs.length → l < (g.vregs.getD j []).length → its[l]? = some i →
      s.places w (x.frames + 128 * i + 16 + 4 * j) 4 .rd = .ok ls → (h.vregs.getD j []).getD l 0 = BitVec.ofNat 32 (leVal (s.readLocs ls))) ∧
    (∀ j l, (its.length ≤ l ∨ ∀ u, x.rung r = some u → u.frame ≤ j) → (h.vregs.getD j []).getD l 0 = (g.vregs.getD j []).getD l 0) ∧
    h.rungValid = true ∧ h.rungSlot = slot ∧ h.rungNo = r ∧ (∀ l, l < 32 → h.holds_ l = its[l]?) ∧
    ∀ fr, g.slot0 = some fr → ∃ fr', h.slot0 = some fr' ∧ fr'.mask = fr.mask ∧ ∀ l, l < 32 → fr'.exec.getLsbD l = decide (l < its.length))

/-- R269-R273, R279-R281: MBSEND sends a reference (null as it is, another once its walk is done, and then the one that was published) when its
mailbox has room, and otherwise writes 1 or raises MAILBOX; MBRECV takes the oldest message or parks; MBPOLL counts; a parking group leaves its core
when nothing of it is open, and its sleeping fragments keep the clocks they have left (R109). SVC does nothing without lanes, raises SVC or
RINGERR, or parks (when it raises which is the reading of log 41); its request entries are then written to the request ring. -/
def Obligations.MailAndServices : Prop :=
  let box (s : State) (g : Group) (mb : BitVec 6) : List DWord := (s.ctx (s.who g).cid).box mb.toNat
  (∀ (d a : BitVec 8) (mb : BitVec 6),
    let ready (g : Group) (fr : Fragment) : Prop := g.slot ≠ 128 ∧ g.pair a.toNat = 0 ∧ fr.wait = none
    let sent (i : Instr) : Prop := YieldsIf i (d.toNat :: [a.toNat, a.toNat + 1]) (fun s g fr => ready g fr ∧ (box s g mb).length < 256)
      (fun s g fr k => (((s.setBox (s.who g).cid mb.toNat (box s g mb ++ [0])).put (g.setS d.toNat 0) k (s.fall fr)).serve (s.who g).cid mb.toNat))
    sent (.mbsend d a mb) ∧ sent (.mbsendTrap d a mb) ∧
    YieldsIf (.mbsend d a mb) (d.toNat :: [a.toNat, a.toNat + 1]) (fun s g fr => ready g fr ∧ 256 ≤ (box s g mb).length)
      (fun s g fr k => s.put (g.setS d.toNat 1) k (s.fall fr)) ∧
    (∀ s g fr k, Ready (.mbsendTrap d a mb) (d.toNat :: [a.toNat, a.toNat + 1]) s g fr k → ready g fr → 256 ≤ (box s g mb).length →
      exec (.mbsendTrap d a mb) s = .next ((s.put g k fr).raise (g.setFrag k fr) { cause := .mailbox, detail := BitVec.ofNat 64 mb.toNat, pc := fr.pc
                                                                                   pair := s.ord.pair, culprit := .scalar g.slot k })) ∧
    let published (i : Instr) : Prop := ∀ (r : Nat) (x : Option Nat), YieldsIf i (d.toNat :: [a.toNat, a.toNat + 1])
      (fun s g fr => g.slot ≠ 128 ∧ fr.wait = some (.done r x) ∧ (box s g mb).length < 256)
      (fun s g fr k => (((s.setBox (s.who g).cid mb.toNat (box s g mb ++ [BitVec.ofNat 64 r])).put (g.setS d.toNat 0) k (s.fall fr)).serve
        (s.who g).cid mb.toNat))
    published (.mbsend d a mb) ∧ published (.mbsendTrap d a mb)) ∧
  (∀ (d : BitVec 8) (mb : BitVec 6) (ref : DWord) (rest : List DWord),
    YieldsIf (.mbrecv d mb) [d.toNat, d.toNat + 1] (fun s g _ => g.slot ≠ 128 ∧ box s g mb = ref :: rest)
      (fun s g fr k => (s.setBox (s.who g).cid mb.toNat rest).put (g.setPair d.toNat ref) k (s.fall fr)) ∧
    YieldsIf (.mbrecv d mb) [d.toNat, d.toNat + 1] (fun s g _ => g.slot ≠ 128 ∧ box s g mb = [])
      (fun s g fr k => s.put { g with park := some (.mbrecv mb.toNat d.toNat) } k (s.fall fr)) ∧
    YieldsIf (.mbpoll d mb) [d.toNat] (fun _ g _ => g.slot ≠ 128)
      (fun s g fr k => s.put (g.setS d.toNat (BitVec.ofNat 32 (box s g mb).length)) k (s.fall fr))) ∧
  (∀ (s : State) (cid mb : Nat) (ref : DWord) (rest : List DWord) (g : Group), (s.ctx cid).box mb = ref :: rest →
    firstParked (s.receivers cid mb) = some g →
    s.serve cid mb = (s.setBox cid mb rest).editGroup g.team g.grp fun x =>
      match x.park with | some (.mbrecv _ d) => (x.setPair d ref).unpark s.cycle | _ => x) ∧
  (∀ (gs : List Group) (g : Group), firstParked gs = some g → g ∈ gs ∧ ∀ h ∈ gs, g.parkAt.getD 0 ≤ h.parkAt.getD 0) ∧
  (∀ (s : State) (core slot : Nat) (g : Group) (va : Nat) (code : BitVec 16) (m : Mask) (pc : DWord), s.group core slot = some g →
    g.park = some (.svc va code m pc) → g.parkAt = none → slot ≠ 128 → s.snapOf core slot = none → g.lanesDone = true → g.loads = [] →
    let h := { g.toLeft s.cycle with parkAt := some s.nextId }
    let s1 := ({ s with nextId := s.nextId + 1 }.setGroup h).writePage h
    exec (.groupPark core slot) s = .next ((s1.imageGroup h).getD s1)) ∧
  (∀ (g : Group) (fr : Fragment) (now u : Nat), g.parkAt = none → g.slot0 = some fr → fr.wait = some (.sleep u) →
    (g.toLeft now).slot0 = some { fr with wait := some (.sleep (u - now)) }) ∧
  (∀ (g : Group) (fr : Fragment) (now left : Nat), g.parkAt.isSome → g.saved = false → g.slot0 = some fr → fr.wait = some (.sleep left) →
    (g.unpark now).slot0 = some { fr with wait := some (.sleep (now + left)) } ∧ (g.unpark now).park = none ∧ (g.unpark now).parkAt = none) ∧
  (∀ (v : BitVec 8) (code : BitVec 16),
    let C (s : State) (g : Group) : Context := s.ctx (s.who g).cid
    let calm (g : Group) (fr : Fragment) : Prop := g.slot ≠ 128 ∧ v.toNat + 4 ≤ g.vregs.length ∧ g.clausesDone fr = true ∧ g.maskWait [0] = false
    YieldsIf (.svc v code) [] (fun _ g fr => calm g fr ∧ fr.exec = 0) (fun s g fr k => s.put g k (s.fall fr)) ∧
    Traps (.svc v code) [] (fun s g fr => calm g fr ∧ fr.exec ≠ 0 ∧ fr.wait ≠ some .forward ∧ s.svcForward (C s g) = false) .svc
      (fun _ => code.zeroExtend 64) (fun _ => 0) ∧
    Traps (.svc v code) [] (fun s g fr => calm g fr ∧ fr.exec ≠ 0 ∧ (fr.wait = some .forward ∨ s.svcForward (C s g) = true) ∧
      ((C s g).rq.log2 = 0 ∨ (C s g).rq.error = true)) .ringerr (fun _ => 0) (fun _ => 0) ∧
    YieldsIf (.svc v code) [] (fun s g fr => calm g fr ∧ fr.exec ≠ 0 ∧ (fr.wait = some .forward ∨ s.svcForward (C s g) = true) ∧
        (C s g).rq.log2 ≠ 0 ∧ (C s g).rq.error = false ∧ g.doneBefore g.seq = true)
      (fun s g fr k => (s.releaseAt (C s g).aid 5).put { g with park := some (.svc v.toNat code fr.exec fr.pc) } k (s.fall fr))) ∧
  (∀ (s u : State) (core slot : Nat) (g : Group) (t : Team) (va : Nat) (code : BitVec 16) (m : Mask) (pc : DWord),
    (s.groups.find? fun x => x.core == core && x.slot == slot && x.parkAt.isSome) = some g → g.park = some (.svc va code m pc) →
    s.team g.team = some t → g.token = none → (s.ctx t.cid).rq.log2 ≠ 0 → (s.ctx t.cid).rq.error = false →
    ((s.ctx t.cid).rq.write - (s.ctx t.cid).rq.read).toNat + (1 + popCount m) ≤ (s.ctx t.cid).rq.capacity 16 → (s.ctx t.cid).st ≠ .orphaned →
    s.putEntries (s.ctx t.cid) (s.ctx t.cid).rq (s.ctx t.cid).rq.write (svcEntries g t.cid (s.ctx t.cid).seq va code m) = (u, true) →
    (u.ctx t.cid).primary = 8 → (u.ctx t.cid).st = (s.ctx t.cid).st →
    s.firstWait (s.ctx t.cid).device ((List.range (1 + popCount m)).map fun i =>
      ((s.ctx t.cid).rq.base + 16 * (((s.ctx t.cid).rq.write + BitVec.ofNat 32 i).toNat % (s.ctx t.cid).rq.capacity 16), .wr)) = none →
    exec (.svcRequestPost core slot) s = .next (((u.setCtx { (u.ctx t.cid) with
      rq := { (u.ctx t.cid).rq with write := (u.ctx t.cid).rq.write + BitVec.ofNat 32 (1 + popCount m) }
      seq := (u.ctx t.cid).seq + 1 }).editGroup g.team g.grp fun x => { x with token := some (core * 129 + slot) }).atsSpent 384
      (s.ctx t.cid).cid))

/-! ## Launches -/

/-- R54, R274-R276, R15, R16, R376: LAUNCH reads the 256 bytes of its descriptor and writes 0 when a launch is accepted, 1 for a malformed one
(also one of a rung, one whose CORES grid does not fit, or one whose counter cannot be read) and 2 when the context has 4,096 launches or the
partition 65,536 (that those of rung groups count in the second alone is the model's choice, log 59). An accepted launch takes the next id,
and is ready when it has no dependency counter or its counter reads 0. A fresh group starts at the entry with every lane in its one fragment,
its first registers from INIT and everything else zero. -/
def Obligations.LaunchWord : Prop :=
  (∀ d a : BitVec 8,
    let rs := d.toNat :: [a.toNat, a.toNat + 1]
    let p (g : Group) : DWord := g.pair a.toNat
    (∀ (s : State) (g : Group) (fr : Fragment) (k : Nat) (bs : List Byte), Ready (.launch d a) rs s g fr k → g.slot ≠ 128 →
      (p g).extractLsb' 56 8 = 0 → (p g).toNat % 64 = 0 → g.acquiring = false → g.doneBefore g.seq = true →
      s.getBytes (s.who g) (p g).toNat 256 = .ok bs →
      s.firstWait (s.ctx (s.who g).cid).device (if descOk (leVal bs) && (parseDesc (leVal bs)).depctr != 0
        then [((parseDesc (leVal bs)).depctr, .rd)] else []) = none →
      exec (.launch d a) s = .next ((match s.accept (s.who g).cid (p g) (leVal bs) with
        | .malformed => s.put (g.setS d.toNat 1) k (s.fall fr)
        | .busy => s.put (g.setS d.toNat 2) k (s.fall fr)
        | .taken t _ => t.put (g.setS d.toNat 0) k (s.fall fr)).atsSpent 384 (s.ctx (s.who g).cid).cid)) ∧
    Traps (.launch d a) rs (fun _ g _ => g.slot ≠ 128 ∧ (p g).extractLsb' 56 8 ≠ 0) .page (fun _ => 0) p ∧
    Traps (.launch d a) rs (fun _ g _ => g.slot ≠ 128 ∧ (p g).extractLsb' 56 8 = 0 ∧ (p g).toNat % 64 ≠ 0) .align (fun _ => 0) p) ∧
  (∀ (s t : State) (cid lid : Nat) (addr : DWord) (v : Nat), s.accept cid addr v = .taken t lid →
    lid = s.nextId ∧ descOk v = true ∧ (parseDesc v).rung = false ∧ t = { s with
      nextId := s.nextId + 1
      launches := t.launches } ∧
    ∃ r, t.launches = s.launches ++ [{ lid, cid, addr, desc := parseDesc v, acceptAt := s.time, ready := r, timeOk := (parseDesc v).notBefore == 0 }] ∧
      ((parseDesc v).depctr = 0 → r = true) ∧ (∀ bs, (parseDesc v).depctr ≠ 0 → s.getVa (s.ctx cid).device (parseDesc v).depctr 4 = .ok bs →
        r = (leVal bs == 0))) ∧
  (∀ (s : State) (cid : Nat) (addr : DWord) (v : Nat),
    let d := parseDesc v
    let bad : Prop := descOk v = false ∨ d.rung = true ∨ (d.cores = true ∧ coresFit (s.part (cid / 1024)).dies (s.ctx cid).ast d = false)
    let full : Prop := 4096 ≤ (s.launches.filter fun l => l.cid == cid && l.ladder.isNone).length ∨
      65536 ≤ (s.launches.filter fun l => l.cid / 1024 == cid / 1024).length
    (bad → s.accept cid addr v = .malformed) ∧ (¬ bad → full → s.accept cid addr v = .busy) ∧
    (¬ bad → ¬ full → (d.depctr = 0 ∨ ∃ bs, s.getVa (s.ctx cid).device d.depctr 4 = .ok bs) → ∃ t, s.accept cid addr v = .taken t s.nextId) ∧
    (¬ bad → ¬ full → d.depctr ≠ 0 → (∃ e, s.getVa (s.ctx cid).device d.depctr 4 = .error e) → s.accept cid addr v = .malformed)) ∧
  (∀ (d : Desc) (core slot tid n : Nat), d.init.length = 16 → 1 ≤ d.sregs →
    let g := freshGroup d core slot tid n
    g.slot0 = some { mask := 0xFFFFFFFF, exec := 0xFFFFFFFF, pc := d.entry } ∧ g.slot1 = none ∧ g.stack = [] ∧ g.sregs.length = 32 * d.sregs ∧
    (∀ r, r < 16 → g.s r = d.init.getD r 0) ∧ (∀ r, 16 ≤ r → g.s r = 0) ∧ g.vregs.length = min (8 * d.lregs) 255 ∧
    (∀ m ∈ g.masks, m = 0) ∧ (∀ f ∈ g.flags, f = 0) ∧ (∀ j ∈ g.rejoin, j = {}) ∧ g.fpctl = 0 ∧ g.gstat = 1)

/-- R18-R26, R31-R35, R276, R278, R376: what moves a launch on. At most one launch of a partition may start its next unit; it starts there;
a team retires when nothing of it is left, and the last one ends the launch. The end (R33) releases at .sys and resets the arenas, giving back
what each domain was charged; then writes the signal word, its status in bits 63:56 and the time in bits 55:0; then takes 1 off each successor's
counter that is not 0, which makes its launches ready where 0 is left; then its record goes. A launch whose counter has come to read 0
becomes ready, and one whose counter reads otherwise is not (R276). -/
def Obligations.LaunchEvents : Prop :=
  (∀ (s : State) (a b : Launch), a ∈ s.launches → b ∈ s.launches → s.mayStart a = true → s.mayStart b = true → a.cid / 1024 = b.cid / 1024 →
    a.lid = b.lid) ∧
  (∀ (s : State) (lid : Nat) (l : Launch) (us : List (List (Nat × List Nat))), s.launch lid = some l → l.ladder = none → s.mayStart l = true →
    s.placement l = some us →
    (l.desc.cw * l.desc.ch = 1 → exec (.teamStart lid) s = .next (s.startLaunch l us)) ∧
    (l.desc.cw * l.desc.ch ≠ 1 → exec (.clusterStart lid) s = .next (s.startLaunch l us))) ∧
  (∀ (s : State) (tid : Nat) (t : Team) (l : Launch), s.team tid = some t → s.teamDone t = true → s.launch t.lid = some l → t.maps = [] →
    ∃ u, exec (.teamRetire tid) s = .next u ∧ u.launches = s.launches.map (fun m => if m.lid == l.lid then
        { l with retired := l.retired + 1
                 ending := if l.retired + 1 = l.desc.gx * l.desc.gy * l.desc.gz && l.ending.isNone then some .complete else l.ending } else m) ∧
      u.groups = s.groups.filter (fun g => g.team != tid) ∧ (∀ v, u.team tid = some v → v.retired = true) ∧
      (∀ aid gpa, u.readByte aid gpa = s.readByte aid gpa)) ∧
  (∀ (s : State) (t : Team), s.teamDone t = true → t.retired = false ∧ (∀ g ∈ s.groups, g.team = t.tid → g.over = true) ∧
    t.stream.running = false ∧ (∀ c ∈ s.copies, c.team ≠ t.tid) ∧ t.halt = none ∧ t.queued = []) ∧
  (∀ (s : State) (lid : Nat) (l : Launch) (st : EndStatus), s.launch lid = some l → l.ending = some st → s.launchTeams lid = [] →
    s.firstWait (s.ctx l.cid).device l.desc.endAccesses = none →
    exec (.launchEnd lid) s = .next ((s.finishLaunch l st).atsSpent 384 (s.ctx l.cid).cid) ∧ ∀ m ∈ (s.finishLaunch l st).launches, m.lid ≠ l.lid) ∧
  (∀ (s : State) (l : Launch) (st : EndStatus), l.msix = none →
    let c := s.ctx l.cid
    let reset := (s.hostRelease c.aid).resetArenas l
    let code : Nat := match st with | .complete => 0 | .aborted => 1 | .skipped => 2
    let last (t : State) : State := { t with
      launches := t.launches.filter fun m => m.lid != l.lid
      dev := { t.dev with lostPeers := t.dev.lostPeers.filter fun p => p.1 != l.lid } }
    let count (t : State) : State := (l.desc.succ.filter fun a => a != 0).foldl (fun u a => u.decrement l a) t
    (l.desc.signal = 0 → s.finishLaunch l st = last (count reset)) ∧
    (∀ ls, l.desc.signal ≠ 0 → reset.places c.device l.desc.signal 8 .wr = .ok ls → (∀ aid gpa, .glob aid gpa ∈ ls → isHostGpa gpa = false) →
      s.finishLaunch l st = last (count (reset.storeAway (ls.zip (leBytes 8 (code * 2 ^ 56 + reset.time % 2 ^ 56))))))) ∧
  (∀ (s : State) (l : Launch), ((s.resetArenas l).ctx l.cid).usage =
    l.charges.foldl (fun us p => us.set p.1 (BitVec.ofNat 32 ((us.getD p.1 0).toNat - p.2))) (s.ctx l.cid).usage) ∧
  (∀ (s : State) (l : Launch) (va : Nat) (ls : List Loc), s.places (s.ctx l.cid).device va 4 .at = .ok ls →
    let v := leVal (s.readLocs ls)
    let away := s.storeAway (ls.zip (leBytes 4 (v - 1)))
    let woken (t : State) : State := { t with
      launches := t.launches.map fun m => if m.cid == l.cid && m.desc.depctr == va then { m with ready := true } else m }
    (v = 0 → s.decrement l va = woken s) ∧ (v = 1 → s.decrement l va = woken away) ∧ (2 ≤ v → s.decrement l va = away)) ∧
  (∀ (s : State) (ps : List (Loc × Byte)), s.MemWf → (ps.map fun p => p.1.key).Nodup → (∀ tid off b, (.stash tid off, b) ∈ ps → (s.team tid).isSome) →
    ∀ p ∈ ps, (s.storeAway ps).readLoc p.1 = p.2) ∧
  (∀ (s : State) (lid : Nat) (l : Launch) (bs : List Byte), s.launch lid = some l → l.desc.depctr ≠ 0 → l.started = false → l.ending = none →
    s.firstWait (s.ctx l.cid).device [(l.desc.depctr, .rd)] = none → s.getVa (s.ctx l.cid).device l.desc.depctr 4 = .ok bs →
    (l.ready = false → leVal bs = 0 → exec (.depctrPoll lid) s = .next ((s.setLaunch { l with ready := true }).atsSpent 384 (s.ctx l.cid).cid)) ∧
    (l.ready = true → leVal bs ≠ 0 → exec (.depctrPoll lid) s = .next ((s.setLaunch { l with ready := false }).atsSpent 384 (s.ctx l.cid).cid))) ∧
  (∀ (s : State) (lid : Nat) (l : Launch), s.launch lid = some l → l.timeOk = false → l.desc.notBefore ≤ s.time → l.ending = none →
    exec (.notbeforeReached lid) s = .next (s.setLaunch { l with timeOk := true })) ∧
  (∀ (s : State) (lid : Nat) (l : Launch), s.launch lid = some l → l.desc.notBefore ≠ 0 → l.desc.window ≠ 0 → l.started = false →
    l.desc.notBefore + l.desc.window < s.time → l.ending = none → l.held = none → l.gang = none → l.desc.policy = 1 →
    exec (.missedSlot lid) s = .next (s.setLaunch { l with ending := some .skipped })) ∧
  (∀ (s : State) (lid : Nat) (l : Launch), s.launch lid = some l → l.blocking = false → s.eligible l = true → s.placement l = none →
    (l.passedAt = none → exec (.launchBlocking lid) s = .next (s.setLaunch { l with passedAt := some s.time })) ∧
    (∀ t, l.passedAt = some t → t + 10000000 ≤ s.time → exec (.launchBlocking lid) s = .next (s.setLaunch { l with blocking := true })))

/-! ## Traps and handlers -/

/-- R70, R112, R282, R344-R349, R352: TRAP and BRK raise their cause with their code. A cause that reaches a team that runs halts it: the record
holds the cause, its group, address and program counter; with no fence window open nothing of the faulting group changes but its skid word,
whose count is the number of its later words for a cause of its scalar load or store (R112), and otherwise 0, as the model stops every group at
once (log 10); then the action of the table acts: HANDLE with a handler waits for the handler of its core, PARK
takes a fault id. A cause in a halted team waits, and is delivered when the halt ends. A trap of the handler ends its run and halts the team
with DOUBLE. The defaults of the table. -/
def Obligations.TakingATrap : Prop :=
  let count (g : Group) (r : TrapRec) (n : Nat) : Prop := n ≤ 31 ∧ (g.park.isSome ∨ g.saved = true ∨ r.culprit.precise = true → n = 0) ∧
    (∀ x q l, r.culprit = .load x q → g.loads.find? (fun l => l.seq == q) = some l → g.park = none → g.saved = false → n = min 31 (g.words - l.after)) ∧
    (∀ x q b, r.culprit = .store x q → g.sbuf.find? (fun b => b.seq == q) = some b → g.park = none → g.saved = false → n = min 31 (g.words - b.after)) ∧
    (g.later r.culprit = none → n = 0)
  (∀ code : BitVec 16, Traps (.trap code) [] (fun _ _ _ => True) .trap (fun _ => code.zeroExtend 64) (fun _ => 0) ∧
    Traps (.brk code) [] (fun _ _ _ => True) .brk (fun _ => code.zeroExtend 64) (fun _ => 0)) ∧
  (∀ (s : State) (g : Group) (t : Team) (r : TrapRec), g.slot ≠ 128 → s.team g.team = some t → (t.halt.isSome ∨ t.queued ≠ []) →
    r.cause ≠ .integrity → r.cause ≠ .uncorr →
    s.raise g r = (s.atsSpent t.core t.cid).setTeam { t with queued := t.queued ++ [{ r with group := g.grp }] }) ∧
  (∀ (s : State) (g : Group) (t : Team) (r : TrapRec), g.slot ≠ 128 → s.group g.core g.slot = some g → s.team g.team = some t → t.halt = none →
    t.queued = [] → s.snaps = [] → r.cause ≠ .integrity → r.cause ≠ .uncorr → r.cause ≠ .watchdog →
    s.action (s.ctx t.cid) r.cause = .handle → (s.ctx t.cid).hentry ≠ 0 →
    ∃ u, (s.raise g r).team g.team = some u ∧ u.record = some { r with group := g.grp } ∧ u.halt = some .handle ∧
      g.team ∈ ((s.raise g r).handler t.core).waiting ∧
      (∃ n, count g r n ∧ (s.raise g r).group g.core g.slot = some { g with skid := BitVec.ofNat 32 (n + 256) })) ∧
  (∀ (s : State) (g : Group) (t : Team) (r : TrapRec), g.slot ≠ 128 → s.group g.core g.slot = some g → s.team g.team = some t → t.halt = none →
    t.queued = [] → s.snaps = [] → r.cause ≠ .integrity → r.cause ≠ .uncorr → r.cause ≠ .watchdog →
    s.action (s.ctx t.cid) r.cause = .park → (s.ctx t.cid).st = .guarded ∨ (s.ctx t.cid).st = .offered →
    ∃ u, (s.raise g r).team g.team = some u ∧ u.record = some { r with group := g.grp } ∧ u.halt = some (.held (s.ctx t.cid).nextFid) ∧
      ((s.raise g r).ctx t.cid).nextFid = (s.ctx t.cid).nextFid + 1 ∧
      (∃ n, count g r n ∧ (s.raise g r).group g.core g.slot = some { g with skid := BitVec.ofNat 32 (n + 256) })) ∧
  (∀ (s : State) (g : Group) (t : Team) (o r : TrapRec), g.slot = 128 → (∀ x ∈ s.groups, x.isAt g.core 128 = true → x = g) → g ∈ s.groups →
    s.team g.team = some t → t.record = some o →
    s.action (s.ctx t.cid) .double = .forward → (s.ctx t.cid).st = .guarded ∨ (s.ctx t.cid).st = .offered →
    ∃ u, (s.raise g r).team g.team = some u ∧ u.halt = some (.held (s.ctx t.cid).nextFid) ∧ (∀ x ∈ (s.raise g r).groups, x.isAt g.core 128 = false) ∧ u.record = some
      { o with cause := .double, addr := r.pc, detail := BitVec.ofNat 64 (r.cause.code + o.cause.code * 256) }) ∧
  (∀ (s : State) (tid : Nat) (t : Team) (r : TrapRec) (rest : List TrapRec), s.team tid = some t → t.halt = none → t.queued = r :: rest →
    exec (.trapDeliver tid) s = .next ((s.setTeam { t with queued := rest }).deliver tid r)) ∧
  (∀ (s : State) (cid : Nat) (c : Cause), c ≠ .watchdog → (s.ast (s.ctx cid).aid).traps = false →
    (s.ctx cid).actlo = 0x4000303044040000 → (s.ctx cid).acthi = 0x0000004404000020 →
    s.action (s.ctx cid) c = match c with
      | .page | .hostlost | .remote | .svc | .ringerr | .double | .gang => .forward
      | .escape | .quota => .handle
      | .brk => .park
      | _ => .kill) ∧
  (∀ (s : State) (cid : Nat) (c : Cause), (s.ast (s.ctx cid).aid).traps = true → s.action (s.ctx cid) c = .forward)

/-- R59, R352: a word of the handler slot raises PRIV in every other slot, whatever else is wrong with it; a word of the groups raises ILLEGAL
in the handler slot. -/
def Obligations.PrivilegeRule : Prop :=
  (∀ (d a b : BitVec 8) (i : Instr), i ∈ [.tret d, .wrd d a, .wwr a b, .wsplR d a, .wsplW d a, .sysrd d a, .syswr d a] →
    ∀ s g fr k, s.here = some (g, fr, k) → g.slot ≠ 128 → fr.fence = none →
      exec i s = .next (s.raise g { cause := .priv, pc := fr.pc, pair := s.ord.pair, culprit := .scalar g.slot k })) ∧
  (∀ (d a b o : BitVec 8) (n c : BitVec 4) (j : BitVec 2) (x : BitVec 6) (y : BitVec 9) (sc : BitVec 5) (code : BitVec 16) (i : Instr)
      (rs : List Nat),
    let d2 := [d.toNat, d.toNat + 1]
    let a2 := [a.toNat, a.toNat + 1]
    let b2 := [b.toNat, b.toNat + 1]
    (i, rs) ∈ [(.bara n x, []), (.barw n, []), (.baraw n x, []), (.cbara j y, []), (.cbarw j, []), (.rdv d, [d.toNat]),
      (.mfork d a o, d.toNat :: a2), (.cpy d a b, d2 ++ a2 ++ b2), (.rget d a b, d2 ++ a2 ++ b2), (.rput d a b, d2 ++ a2 ++ b2),
      (.new d a, d2 ++ a2), (.newLong d a, d2 ++ a2), (.publ sc a, a2), (.stref d a o, d2 ++ a2), (.ladr n a, a2), (.lfeed n a b, a2 ++ [b.toNat]),
      (.lclose n, []), (.esc c d, []), (.lret c d, []), (.lwait d n b, [d.toNat, b.toNat]), (.mbsend d a x, d.toNat :: a2),
      (.mbsendTrap d a x, d.toNat :: a2), (.mbrecv d x, d2), (.mbpoll d x, [d.toNat]), (.launch d a, d.toNat :: a2), (.svc d code, []), (.exit, [])] →
    Traps i rs (fun _ g _ => g.slot = 128) .illegal (fun _ => 0) (fun _ => 0))

/-- R37, R56, R72: a scalar word with a register at or above its group's allocation, or whose encoding breaks a rule, raises ILLEGAL before
any wait and any effect; the rules of pairs: the named fields of 64-bit words are even. -/
def Obligations.IllegalWords : Prop :=
  (∀ (d a b o : BitVec 8) (i : Instr) (rs : List Nat),
    let d2 := [d.toNat, d.toNat + 1]
    let a2 := [a.toNat, a.toNat + 1]
    let b2 := [b.toNat, b.toNat + 1]
    (i, rs) ∈ [(.sadd d a b, [d.toNat, a.toNat, b.toNat]), (.smulw d a b, [d.toNat, d.toNat + 1, a.toNat, b.toNat]), (.saddp d a b, d2 ++ (a2 ++ b2)),
      (.smovi d (a ++ b), [d.toNat]), (.smov d a, [d.toNat, a.toNat]), (.sget d a, if a = 9 ∨ a = 10 then d2 else [d.toNat]), (.ret a, a2), (.sld32 d a o, [d.toNat] ++ a2),
      (.sld64 d a o, d2 ++ a2), (.sst64 d a o, d2 ++ a2), (.sacas d a o, d2 ++ a2), (.scpset d a o, a2), (.tdset d a o, a2)] →
    ∀ s g fr k, s.here = some (g, fr, k) → fr.fence = none → (i.legal = false ∨ ∃ r ∈ rs, g.sregs.length ≤ r) →
      exec i s = .next (s.raise g { cause := .illegal, pc := fr.pc, pair := s.ord.pair, culprit := .scalar g.slot k })) ∧
  (∀ d a b o : BitVec 8,
    let even (r : BitVec 8) : Prop := r.toNat % 2 = 0
    ((Instr.smulw d a b).legal = true ↔ even d) ∧ ((Instr.saddp d a b).legal = true ↔ even d ∧ even a ∧ even b) ∧
    ((Instr.sshlp d a b).legal = true ↔ even d ∧ even a) ∧ ((Instr.call d 0).legal = true ↔ even d) ∧ ((Instr.ret a).legal = true ↔ even a) ∧
    ((Instr.sld32 d a o).legal = true ↔ even a) ∧ ((Instr.sld64 d a o).legal = true ↔ even d ∧ even a) ∧
    ((Instr.sacas d a o).legal = true ↔ even d ∧ even a) ∧ ((Instr.new d a).legal = true ↔ even d ∧ even a) ∧
    ((Instr.cpy d a b).legal = true ↔ even d ∧ even a ∧ even b) ∧ ((Instr.smap d a b).legal = true ↔ even a) ∧
    ((Instr.scpset d a o).legal = true ↔ 8 ≤ d.toNat ∧ d.toNat ≤ 31 ∧ even a) ∧ ((Instr.sget d a).legal = true ↔
      a.toNat ≤ 13 ∧ (a.toNat = 9 ∨ a.toNat = 10 → even d)) ∧ ((Instr.sset d a).legal = true ↔ a.toNat = 12 ∨ a.toNat = 13) ∧
    ((Instr.tret d).legal = true ↔ d.toNat ≤ 3) ∧ ((Instr.sysrd d a).legal = true ↔ even d ∧ a.toNat ≤ 11))

/-- R350, R353-R357: the words of the handler. WRD and WWR read and write the halted team through window addresses, and raise ILLEGAL for an
invalid one; WSPL reads and writes one fragment entry; SYSRD and SYSWR reach the trap control block and the quota registers; TRET ends the run
and resumes (0), skips (1), kills (2) or forwards (3). A handler starts for the team that has waited longest, at HENTRY, with the cause in s0
and the group in s1. The model's choices: a queue or wait that a window word cannot hold (log 25), what WSPL and WWR keep (logs 34, 57), and that
a write of the action table waits for the last step of its nanosecond, so that it comes after the deliveries of its device time (R345, log 3). -/
def Obligations.HandlerWords : Prop :=
  (∀ d a : BitVec 8,
    (∀ s g fr k t w, Ready (.wrd d a) [d.toNat, a.toNat] s g fr k → g.slot = 128 → s.team g.team = some t → s.window g t (g.s a.toNat) = some w →
      exec (.wrd d a) s = .next (s.put (g.setS d.toNat w.value) k (s.fall fr))) ∧
    (∀ s g fr k t, Ready (.wrd d a) [d.toNat, a.toNat] s g fr k → g.slot = 128 → s.team g.team = some t → s.window g t (g.s a.toNat) = none →
      exec (.wrd d a) s = .next (s.raise g { cause := .illegal, pc := fr.pc, pair := s.ord.pair, culprit := .scalar g.slot k })) ∧
    (∀ s g fr k t w h, Ready (.wwr d a) [d.toNat, a.toNat] s g fr k → g.slot = 128 → s.team g.team = some t → s.window g t (g.s d.toNat) = some w →
      (w.write (g.s a.toNat)).group g.core g.slot = some h →
      exec (.wwr d a) s = .next ((w.write (g.s a.toNat)).put h k (s.fall fr)))) ∧
  (∀ (s : State) (h x : Group) (t : Team) (n r l : Nat), s.teamGroup t.tid n = some x → n < 32 →
    (r < x.sregs.length → r < 2 ^ 24 → ∃ w, s.window h t (BitVec.ofNat 32 (2 ^ 29 + n * 2 ^ 24 + r)) = some w ∧ w.value = x.s r ∧
      ∀ v, w.write v = s.editGroup t.tid x.grp fun y => y.setS r v) ∧
    (l < 32 → r < x.vregs.length → r < 255 → ∃ w, s.window h t (BitVec.ofNat 32 (2 * 2 ^ 29 + n * 2 ^ 24 + l * 2 ^ 8 + r)) = some w ∧
      w.value = (x.vregs.getD r []).getD l 0 ∧
      ∀ v, w.write v = s.editGroup t.tid x.grp fun y => { y with vregs := y.vregs.set r ((y.vregs.getD r []).set l v) })) ∧
  (∀ (s : State) (h : Group) (t : Team) (r : TrapRec) (n : Nat), t.record = some r → n < 16 →
    ∃ w, s.window h t (BitVec.ofNat 32 n) = some w ∧ w.value = r.word n) ∧
  (∀ (d a : BitVec 8),
    let rs := [d.toNat, d.toNat + 1, d.toNat + 2, d.toNat + 3] ++ [a.toNat]
    (∀ s g fr k x p, Ready (.wsplR d a) rs s g fr k → g.slot = 128 → s.wsplAt g.team (g.s a.toNat) = some (x, p) →
      let e := (x.entry p).getD { mask := 0, exec := 0, pc := 0 }
      exec (.wsplR d a) s = .next (s.put (((g.setS d.toNat e.mask).setS (d.toNat + 1) e.exec).setPair (d.toNat + 2) e.pc) k (s.fall fr))) ∧
    (∀ s g fr k x p, Ready (.wsplW d a) rs s g fr k → g.slot = 128 → s.wsplAt g.team (g.s a.toNat) = some (x, p) →
      exec (.wsplW d a) s = .next ((s.editGroup g.team x.grp fun y => y.setEntry p (g.s d.toNat) (g.s (d.toNat + 1)) (g.pair (d.toNat + 2))).put
        (g.note x true) k (s.fall fr)))) ∧
  (∀ d sel : BitVec 8,
    let rs := [d.toNat, d.toNat + 1]
    let C (s : State) (g : Group) : Context := s.ctx (s.who g).cid
    YieldsIf (.sysrd d sel) rs (fun _ g _ => g.slot = 128) (fun s g fr k => s.put (g.setPair d.toNat (match sel.toNat with
      | 0 => (C s g).hentry | 1 => (C s g).hlane | 2 => (C s g).actlo | 3 => (C s g).acthi | 4 => (C s g).wdog | 5 => (C s g).saveBase
      | 6 => (C s g).saveSize | 7 => (C s g).slice | 8 => g.qsel.zeroExtend 64 | 9 => BitVec.ofNat 64 ((C s g).limit g.qsel.toNat)
      | 10 => BitVec.ofNat 64 ((C s g).use g.qsel.toNat) | _ => BitVec.ofNat 64 (s.ast (C s g).aid).mode)) k (s.fall fr)) ∧
    YieldsIf (.syswr d sel) rs (fun s g _ => g.slot = 128 ∧ (sel = 2 ∨ sel = 3 → s.lastOfNs = true)) (fun s g fr k => match sel.toNat with
      | 0 => (s.setCtx { (C s g) with hentry := g.pair d.toNat &&& 0x00FFFFFFFFFFFFFC }).put g k (s.fall fr)
      | 1 => (s.setCtx { (C s g) with hlane := g.pair d.toNat &&& 0x00FFFFFFFFFFFFF0 }).put g k (s.fall fr)
      | 2 => (s.setCtx { (C s g) with actlo := actMerge 0 (C s g).actlo (g.pair d.toNat) }).put g k (s.fall fr)
      | 3 => (s.setCtx { (C s g) with acthi := actMerge 16 (C s g).acthi (g.pair d.toNat) }).put g k (s.fall fr)
      | 4 => (s.setCtx { (C s g) with wdog := g.pair d.toNat }).put g k (s.fall fr)
      | 8 => s.put { g with qsel := (g.pair d.toNat).extractLsb' 0 8 } k (s.fall fr)
      | 9 => (s.setCtx { (C s g) with limits := (C s g).limits.set g.qsel.toNat ((g.pair d.toNat).extractLsb' 0 32) }).put g k (s.fall fr)
      | _ => s.put g k (s.fall fr)) ∧
    (∀ s g fr k, Ready (.syswr d sel) rs s g fr k → g.slot = 128 → sel = 2 ∨ sel = 3 → s.lastOfNs = false → exec (.syswr d sel) s = .next s)) ∧
  (∀ (m : BitVec 8) (s : State) (g : Group) (fr : Fragment) (k : Nat), Ready (.tret m) [] s g fr k → g.slot = 128 → g.wspl = [] →
    g.doneBefore g.seq = true →
    let s1 := s.endHandler g.core
    let s2 := s1.restack g.team
    exec (.tret m) s = .next (match m.toNat with
      | 0 => s2.leaveHalt g.team false
      | 1 => s2.leaveHalt g.team true
      | 2 => s2.applyAction g.team .kill
      | _ => s2.applyAction g.team .forward)) ∧
  (∀ (s : State) (tid : Nat), (s.restack tid).groups = s.groups.map fun (x : Group) =>
    if x.team == tid then { x with stack := x.stack.filter fun f => f.mask != 0 } else x) ∧
  (∀ (s : State) (tid : Nat) (t : Team) (skip : Bool), s.team tid = some t → t.record = none →
    ∃ u, (s.leaveHalt tid skip).team tid = some u ∧ u.halt = none) ∧
  (∀ (s : State) (core tid : Nat) (rest : List Nat) (t : Team) (r : TrapRec), (s.handler core).serving = none → (s.handler core).waiting = tid :: rest →
    s.team tid = some t → t.record = some r → (s.ctx t.cid).hentry ≠ 0 →
    ∃ u g, exec (.handlerStart core) s = .next u ∧ u.groups = s.groups ++ [g] ∧ (u.handler core).serving = some tid ∧ (u.handler core).waiting = rest ∧
      g.core = core ∧ g.slot = 128 ∧ g.team = tid ∧ g.slot0 = some { mask := 0xFFFFFFFF, exec := 0xFFFFFFFF, pc := (s.ctx t.cid).hentry } ∧
      g.s 0 = BitVec.ofNat 32 r.cause.code ∧ g.s 1 = BitVec.ofNat 32 r.group ∧ (∀ n, 2 ≤ n → g.s n = 0) ∧ g.sregs.length = 128 ∧ g.vregs.length = 32)

/-! ## Lane words -/

/-- R41, R73, R74, R139-R144: the integer lane words. Elements are read as integers, the exact result is reduced or clamped to the
element, and only the lanes of the governing mask are written. VSEL takes its mask as it stood at the LRUN; VIOTA counts governed lanes. -/
def Obligations.LaneInteger : Prop :=
  (∀ (ty : Ty) (sat : Bool) (z : Int), narrow ty sat z =
    ((if sat then max (intRange ty.signed ty.width).1 (min (intRange ty.signed ty.width).2 z) else z) % 2 ^ ty.width).toNat) ∧
  (∀ (ty : Ty) (sat : Bool) (m : BitVec 4) (d : BitVec 8) (a b c : Src),
    let X (g : Group) (cl : Clause) (l e : Nat) : Int := elemInt ty (srcN g cl ty a l) e
    let Y (g : Group) (cl : Clause) (l e : Nat) : Int := elemInt ty (srcN g cl ty b l) e
    let Z (g : Group) (cl : Clause) (l e : Nat) : Int := elemInt ty (srcN g cl ty c l) e
    let bin (i : Instr) (st : Bool) (f : Int → Int → Int) : Prop := LaneSets i ty d fun g cl _ l => packElems ty fun e => narrow ty st (f (X g cl l e) (Y g cl l e))
    let un (i : Instr) (f : Int → Int) : Prop := LaneSets i ty d fun g cl _ l => packElems ty fun e => narrow ty sat (f (X g cl l e))
    bin (.vadd ty sat m d a b) sat (fun x y => x + y) ∧ bin (.vsub ty sat m d a b) sat (fun x y => x - y) ∧
    bin (.vmul ty sat m d a b) sat (fun x y => x * y) ∧ bin (.vmulhi ty m d a b) false (fun x y => x * y / 2 ^ 32) ∧
    bin (.vmin ty m d a b) false (fun x y => if x ≤ y then x else y) ∧ bin (.vmax ty m d a b) false (fun x y => if x ≤ y then y else x) ∧
    un (.vabs ty sat m d a) (fun x => if x < 0 then -x else x) ∧ un (.vneg ty sat m d a) (fun x => -x) ∧
    LaneSets (.vmad ty sat m d a b c) ty d (fun g cl _ l => narrow ty sat (X g cl l 0 * Y g cl l 0 + Z g cl l 0))) ∧
  (∀ (ty : Ty) (m k : BitVec 4) (d : BitVec 8) (a b c : Src),
    let A (g : Group) (cl : Clause) (l : Nat) : Nat := srcN g cl ty a l
    let B (g : Group) (cl : Clause) (l : Nat) : Nat := srcN g cl ty b l
    let W (g : Group) (cl : Clause) (x : Src) (l : Nat) : Nat := (srcW g cl x l).toNat
    let amount (g : Group) (cl : Clause) (l e : Nat) : Nat := (if ty.is64 then W g cl b l else elemOf ty (W g cl b l) e) % ty.width
    let shift (i : Instr) (f : Nat → Nat → Nat) : Prop := LaneSets i ty d fun g cl _ l => packElems ty fun e => f (elemOf ty (A g cl l) e) (amount g cl l e)
    LaneSets (.vand ty m d a b) ty d (fun g cl _ l => (BitVec.ofNat 64 (A g cl l) &&& BitVec.ofNat 64 (B g cl l)).toNat) ∧
    LaneSets (.vor ty m d a b) ty d (fun g cl _ l => (BitVec.ofNat 64 (A g cl l) ||| BitVec.ofNat 64 (B g cl l)).toNat) ∧
    LaneSets (.vxor ty m d a b) ty d (fun g cl _ l => (BitVec.ofNat 64 (A g cl l) ^^^ BitVec.ofNat 64 (B g cl l)).toNat) ∧
    LaneSets (.vandn ty m d a b) ty d (fun g cl _ l => (BitVec.ofNat 64 (A g cl l) &&& ~~~BitVec.ofNat 64 (B g cl l)).toNat) ∧
    LaneSets (.vnot ty m d a) ty d (fun g cl _ l => (~~~BitVec.ofNat 64 (A g cl l)).toNat) ∧
    shift (.vshl ty m d a b) (fun x n => x * 2 ^ n) ∧ shift (.vshr ty m d a b) (fun x n => x / 2 ^ n) ∧
    shift (.vsra ty m d a b) (fun x n => ((asInt true ty.width x / 2 ^ n) % 2 ^ ty.width).toNat) ∧
    shift (.vrot ty m d a b) (fun x n => ((BitVec.ofNat 32 x).rotateLeft n).toNat) ∧
    LaneSets (.vclz ty m d a) ty d (fun g cl _ l => if W g cl a l = 0 then 32 else 31 - Nat.log2 (W g cl a l)) ∧
    LaneSets (.vpopc ty m d a) ty d (fun g cl _ l => ((List.range 32).filter fun n => (W g cl a l).testBit n).length) ∧
    LaneSets (.vbfx ty m d a b c) ty d (fun g cl _ l =>
      let pos := W g cl b l % 32
      let n := min (min (W g cl c l % 64) 32) (32 - pos)
      if n = 0 then 0 else (asInt ty.signed n (W g cl a l / 2 ^ pos % 2 ^ n) % 2 ^ 32).toNat) ∧
    LaneSets (.vbfi ty m d a b c) ty d (fun g cl _ l =>
      let fm := (2 ^ min (W g cl c l % 64) 32 - 1) * 2 ^ (W g cl b l % 32) % 2 ^ 32
      ((g.v d.toNat l).toNat &&& (2 ^ 32 - 1 - fm)) ||| (W g cl a l * 2 ^ (W g cl b l % 32) &&& fm)) ∧
    LaneSets (.vsel ty k m d a b) ty d (fun g cl _ l => if (cl.masks.getD k.toNat 0).getLsbD l then A g cl l else B g cl l) ∧
    LaneSets (.vmov ty m d a) ty d (fun g cl _ l => A g cl l) ∧
    LaneSets (.viota ty m d a b) ty d (fun g cl gov l =>
      W g cl a l + ((List.range 32).filter fun x => gov.getLsbD x && decide (x < l)).length * W g cl b l)) ∧
  (∀ (ty : Ty) (cond : Cond) (m d : BitVec 4) (a b : Src), LaneSetsMask (.vcmp ty cond m d a b) d fun g cl _ => maskOf fun l =>
    let x := elemInt ty (srcN g cl ty a l) 0
    let y := elemInt ty (srcN g cl ty b l) 0
    match cond with
    | .eq => decide (x = y) | .ne => decide (x ≠ y) | .lt => decide (x < y) | .le => decide (x ≤ y) | .gt => decide (x > y)
    | .ge => decide (x ≥ y))

/-- R78-R81, R145-R150: the floating-point lane words: each element by its exact operation, rounded by RM of %fpctl, denormals flushed under
FTZ; VFABS and VFNEG act on the sign bits alone; VFCMP raises invalid operation for a signalling NaN, or for any NaN under an ordered
condition. An enabled exception raises FPE and writes nothing. The model's choices: the values of the transcendental words, of which the
rules give bounds (log 12), and the order in which flushing and rounding act (log 53). -/
def Obligations.LaneFloat : Prop :=
  (∀ (ty : Ty) (m : BitVec 4) (d : BitVec 8) (a b c : Src) (rnd : Rnd) (exact : Bool),
    let F := Ty.fmt ty
    let rm (cl : Clause) : Nat := cl.fpctl.toNat % 4
    let ftz (cl : Clause) : Bool := cl.fpctl.getLsbD 2
    let val (g : Group) (cl : Clause) (x : Src) (l e : Nat) : FVal := F.value (ftz cl) (srcN g cl ty x l / 2 ^ (ty.width * e) % 2 ^ ty.width)
    let raw (g : Group) (cl : Clause) (l e : Nat) : Nat := srcN g cl ty a l / 2 ^ (ty.width * e) % 2 ^ ty.width
    let bin (i : Instr) (f : Clause → FVal → FVal → Nat × Exc) : Prop := FpSets i ty d fun g cl l e => f cl (val g cl a l e) (val g cl b l e)
    let un (i : Instr) (f : Clause → FVal → Nat × Exc) : Prop := FpSets i ty d fun g cl l e => f cl (val g cl a l e)
    let trans (i : Instr) (t : Trans) : Prop := FpSets i ty d fun g cl l e => F.transOp t (rm cl) (ftz cl) (raw g cl l e)
    bin (.vfadd ty m d a b) (fun cl x y => F.addOp (rm cl) (ftz cl) x y) ∧ bin (.vfsub ty m d a b) (fun cl x y => F.addOp (rm cl) (ftz cl) x y.neg) ∧
    bin (.vfmul ty m d a b) (fun cl x y => F.mulOp (rm cl) (ftz cl) x y) ∧ bin (.vfdiv ty m d a b) (fun cl x y => F.divOp (rm cl) (ftz cl) x y) ∧
    bin (.vfmin ty m d a b) (fun _ x y => F.minMax false x y) ∧ bin (.vfmax ty m d a b) (fun _ x y => F.minMax true x y) ∧
    FpSets (.vfma ty m d a b c) ty d (fun g cl l e => F.fmaOp (rm cl) (ftz cl) (val g cl a l e) (val g cl b l e) (val g cl c l e)) ∧
    un (.vfsqrt ty m d a) (fun cl x => F.sqrtOp (rm cl) (ftz cl) x) ∧ un (.vfrcp ty m d a) (fun cl x => F.divOp (rm cl) (ftz cl) (.fin false 1 0) x) ∧
    un (.vfrnd ty rnd exact m d a) (fun cl x => F.rndOp (match rnd with | .rm => rm cl | .rne => 0 | .rtz => 1 | .rup => 2 | .rdn => 3) exact x) ∧
    trans (.vfrsq ty m d a) .rsq ∧ trans (.vfexp2 ty m d a) .exp2 ∧ trans (.vflog2 ty m d a) .log2 ∧ trans (.vfsinp ty m d a) .sinp ∧
    trans (.vfcosp ty m d a) .cosp ∧ trans (.vftanh ty m d a) .tanh ∧
    LaneSets (.vfabs ty m d a) ty d (fun g cl _ l => srcN g cl ty a l &&& (2 ^ 32 - 1 - packElems ty fun _ => 2 ^ (ty.width - 1))) ∧
    LaneSets (.vfneg ty m d a) ty d (fun g cl _ l => srcN g cl ty a l ^^^ packElems ty fun _ => 2 ^ (ty.width - 1))) ∧
  (∀ (ty : Ty) (cond : FCond) (m d : BitVec 4) (a b : Src),
    let x (g : Group) (cl : Clause) (s : Src) (l : Nat) : FVal := (Ty.fmt ty).value (cl.fpctl.getLsbD 2) (elemOf ty (srcN g cl ty s l) 0)
    FpYields (.vfcmp ty cond m d a b)
      (fun g cl l => if (match cond with | .eq | .ne | .un | .or => (x g cl a l).isSig || (x g cl b l).isSig
                                         | _ => (x g cl a l).isNan || (x g cl b l).isNan) then 1 else 0)
      (fun g fr cl gov => g.setLaneMask fr d.toNat gov (maskOf fun l => match (x g cl a l).cmp (x g cl b l), cond with
        | none, .ne | none, .un => true
        | none, _ => false
        | some r, .eq => decide (r = 0) | some r, .ne => decide (r ≠ 0) | some r, .lt => decide (r < 0) | some r, .le => decide (r ≤ 0)
        | some r, .gt => decide (r > 0) | some r, .ge => decide (r ≥ 0) | some _, .un => false | some _, .or => true))) ∧
  (fp32.addOp 0 false (fp32.value false 0x3F800000) (fp32.value false 0x40000000) = (0x40400000, 0)) ∧
  (fp32.divOp 0 false (fp32.value false 0x3F800000) (fp32.value false 0) = (0x7F800000, 2)) ∧
  (fp32.addOp 0 false (fp32.value false 0x3F800000) (fp32.value false 0x33800000) = (0x3F800000, 16)) ∧
  (fp32.addOp 2 false (fp32.value false 0x3F800000) (fp32.value false 0x33800000) = (0x3F800001, 16)) ∧
  (fp32.mulOp 0 false (fp32.value false 0x7F7FFFFF) (fp32.value false 0x40000000) = (0x7F800000, 20)) ∧
  (fp32.value true 1 = .zero false)

/-- R82-R90, R151-R155: conversions. An element keeps its bits for equal types; otherwise its value is rounded to the destination's format or
integer range. VPACK and VUNPK take two elements of a half; VQ4N and VT3P multiply codes by their scales; a reserved T3P byte raises FMT under
.trapr, and otherwise sets the sticky bit SFMT. The model's choices: what a conversion gives where no rule states its result (logs 13, 54). -/
def Obligations.LaneConvert : Prop :=
  (∀ (ty dty : Ty) (rnd : Rnd) (sat : Bool) (sel del : BitVec 2) (m : BitVec 4) (d : BitVec 8) (a : Src),
    let r (g : Group) (cl : Clause) (l : Nat) : Nat × Exc := convert ty dty (Rnd.mode rnd cl.fpctl) (ftzOf cl.fpctl) sat (elemOf ty (srcN g cl ty a l) sel.toNat)
    FpYields (.vcvt ty dty rnd sat sel del m d a) (fun g cl l => (r g cl l).2) fun g _ cl gov => g.setN dty d.toNat gov fun l =>
      if 1 < dty.elems then packElems dty fun e => if e = del.toNat then (r g cl l).1 else elemOf dty (g.v d.toNat l).toNat e else (r g cl l).1) ∧
  (∀ (ty sty : Ty) (rnd : Rnd) (sat half : Bool) (m : BitVec 4) (d : BitVec 8) (a b : Src),
    let r (g : Group) (cl : Clause) (x : Src) (l : Nat) : Nat × Exc := convert sty ty (Rnd.mode rnd cl.fpctl) (ftzOf cl.fpctl) sat (srcW g cl x l).toNat
    FpYields (.vpack ty sty rnd sat half m d a b) (fun g cl l => (r g cl a l).2 ||| (r g cl b l).2) fun g _ cl gov => g.setN ty d.toNat gov fun l =>
      putElem ty (putElem ty (g.v d.toNat l).toNat (if half then 2 else 0) (r g cl a l).1) (if half then 3 else 1) (r g cl b l).1) ∧
  (∀ (ty dty : Ty) (rnd : Rnd) (sat half : Bool) (m : BitVec 4) (d : BitVec 8) (a : Src),
    let r (g : Group) (cl : Clause) (n l : Nat) : Nat × Exc :=
      convert ty dty (Rnd.mode rnd cl.fpctl) (ftzOf cl.fpctl) sat (elemOf ty (srcW g cl a l).toNat ((if half then 2 else 0) + n))
    FpYields (.vunpk ty dty rnd sat half m d a) (fun g cl l => (r g cl 0 l).2 ||| (r g cl 1 l).2) fun g _ cl gov =>
      (g.setV d.toNat gov fun l => BitVec.ofNat 32 (r g cl 0 l).1).setV (d.toNat + 1) gov fun l => BitVec.ofNat 32 (r g cl 1 l).1) ∧
  (∀ (dty : Ty) (idx : BitVec 3) (m : BitVec 4) (d : BitVec 8) (a b c : Src), FpSets (.vq4n dty idx m d a b c) dty d fun g cl l e =>
    (Ty.fmt dty).round (rmOf cl.fpctl) (ftzOf cl.fpctl) false (q4nValue ((srcW g cl a l).toNat / 2 ^ (4 * (idx.toNat + e)) % 16)
      ((srcW g cl b l).toNat % 256) (srcW g cl c l).toNat)) ∧
  (∀ (dty : Ty) (idx : BitVec 5) (trapr : Bool) (m : BitVec 4) (d : BitVec 8) (a b : Src) (s : State) (g : Group) (fr : Fragment) (k : Nat) (cl : Clause),
    let i : Instr := .vt3p dty idx trapr m d a b
    let gov := cl.govOf i
    let byte (l e : Nat) : Nat := (srcW g cl a l).toNat / 2 ^ (8 * ((idx.toNat + e) / 5)) % 256
    let bad (l : Nat) : Bool := (List.range dty.elems).any fun e => t3pReserved (byte l e)
    let elem (l e : Nat) : Nat × Exc :=
      let t := trit (byte l e) ((idx.toNat + e) % 5)
      let sc := fp16.value false ((srcW g cl b l).toNat % 65536)
      let p := (tritVal t).mul sc
      let r := (Ty.fmt dty).round (rmOf cl.fpctl) (ftzOf cl.fpctl) false p.1
      if dty = .i8x4 then ((t % 256).toNat, 0) else (r.1, r.2 ||| (if p.2 || sc.isSig then 1 else 0))
    let u := excUnion gov fun l => (packExc dty (elem l)).2
    let h := g.setN dty d.toNat gov fun l => (packExc dty (elem l)).1
    LaneReady i s g fr k cl →
    (trapr = true → fr.inFence cl.uid = false → g.longOpen cl.uid = false → (∃ l ∈ lanesOf gov, bad l = true) → exec i s = .next (s.raise g (laneRec g k cl i .fmt 0 0))) ∧
    (u &&& enables cl.fpctl = 0 → (∀ l ∈ lanesOf gov, bad l = false) →
      exec i s = .next (s.laneNext { h with fpctl := stick h.fpctl u } (fr.countLane cl.uid) k)) ∧
    (u &&& enables cl.fpctl = 0 → trapr = false → (∃ l ∈ lanesOf gov, bad l = true) →
      exec i s = .next (s.laneNext { h with fpctl := stick (h.fpctl ||| 0x00200000) u } (fr.countLane cl.uid) k))) ∧
  (∀ (ty : Ty) (rm : Nat) (ftz sat : Bool) (v : Nat), convert ty ty rm ftz sat v = (v, 0)) ∧
  (∀ (src dst : Ty) (rm : Nat) (ftz sat : Bool) (v : Nat), src ≠ dst → src.isInt = true → dst.isInt = true →
    convert src dst rm ftz sat v = (narrow dst sat (asInt src.signed src.width v), 0))

/-- R156-R161: cross-lane words. A source lane outside the governing mask, or outside the warp, leaves the lane its own value. VREDS combines the
governed lanes by the tree of R159, VSCAN lane by lane; VVOTE and VMATCH answer with masks. -/
def Obligations.LaneCross : Prop :=
  (∀ (ty : Ty) (mode : ShufMode) (m : BitVec 4) (d : BitVec 8) (a b : Src), LaneSets (.vshuf ty mode m d a b) ty d fun g cl gov l =>
    let n := (srcW g cl b l).toNat % 32
    let own := srcN g cl ty a l
    let from_ (x : Nat) : Nat := if x < 32 ∧ gov.getLsbD x = true then srcN g cl ty a x else own
    match mode with
    | .idx => from_ n
    | .up => if n ≤ l then from_ (l - n) else own
    | .down => from_ (l + n)
    | .xor => from_ (l ^^^ n)) ∧
  (∀ (ty : Ty) (m : BitVec 4) (d : BitVec 8) (a b : Src), LaneSets (.vbcst ty m d a b) ty d fun g cl gov l =>
    if gov.getLsbD ((srcW g cl b l).toNat % 32) then srcN g cl ty a ((srcW g cl b l).toNat % 32) else srcN g cl ty a l) ∧
  (∀ (ty : Ty) (mode : VoteMode) (m d : BitVec 4) (a : Src), LaneSetsMask (.vvote ty mode m d a) d fun g cl gov =>
    let hit : Mask := maskOf fun l => gov.getLsbD l && decide (srcN g cl ty a l ≠ 0)
    match mode with | .ballot => hit | .any => if hit = 0 then 0 else gov | .all => if hit = gov then gov else 0) ∧
  (∀ (ty : Ty) (m : BitVec 4) (d : BitVec 8) (a : Src), LaneSets (.vmatch ty m d a) .b32 d fun g cl gov l =>
    (maskOf fun x => gov.getLsbD x && decide (srcN g cl ty a x = srcN g cl ty a l)).toNat) ∧
  (∀ (ty : Ty) (op : RedOp) (m : BitVec 4) (d : BitVec 8) (a : Src), op ≠ .fadd → op ≠ .fmin → op ≠ .fmax →
    LaneSets (.vreds ty op m d a) ty d fun g cl gov _ =>
      (redTree (fun x y => (RedOp.step op ty 0 false x y).1) (fun l => if gov.getLsbD l then some (srcN g cl ty a l) else none) 5 0).getD 0) ∧
  (∀ (ty : Ty) (op : RedOp) (m : BitVec 4) (d : BitVec 8) (a : Src) (s : State) (g : Group) (fr : Fragment) (k l : Nat) (cl : Clause),
    let i : Instr := .vreds ty op m d a
    LaneReady i s g fr k cl → cl.govOf i = 1#32 <<< l → l < 32 →
    exec i s = .next (s.laneNext (g.setN ty d.toNat (1#32 <<< l) fun _ => srcN g cl ty a l) (fr.countLane cl.uid) k)) ∧
  (∀ (ty : Ty) (op : RedOp) (excl : Bool) (m : BitVec 4) (d : BitVec 8) (a : Src),
    let F (cl : Clause) (x y : Nat) : Nat × Exc := RedOp.step op ty (rmOf cl.fpctl) (ftzOf cl.fpctl) x y
    let prior (gov : Mask) (l : Nat) : List Nat := (lanesOf gov).filter fun x => decide (x < l)
    let fold (g : Group) (cl : Clause) (ls : List Nat) : Option Nat :=
      ls.foldl (fun (acc : Option Nat) x => match acc with | none => some (srcN g cl ty a x) | some v => some (F cl v (srcN g cl ty a x)).1) none
    FpYields (.vscan ty op excl m d a)
      (fun g cl l => match fold g cl (prior (cl.govOf (.vscan ty op excl m d a)) l) with | none => 0 | some v => (F cl v (srcN g cl ty a l)).2)
      (fun g _ cl gov => g.setN ty d.toNat gov fun l =>
        if excl then (fold g cl (prior gov l)).getD (RedOp.identity op ty) else (fold g cl (prior gov l ++ [l])).getD 0)) ∧
  (∀ (ty : Ty) (op : RedOp) (rm : Nat) (ftz : Bool) (x y : Nat), RedOp.step op ty rm ftz x y = match op with
    | .add => (narrow ty false (elemInt ty x 0 + elemInt ty y 0), 0)
    | .min => (if elemInt ty y 0 < elemInt ty x 0 then y else x, 0)
    | .max => (if elemInt ty x 0 < elemInt ty y 0 then y else x, 0)
    | .and => (x &&& y, 0)
    | .or => (x ||| y, 0)
    | .xor => (x ^^^ y, 0)
    | .fadd => fp32.addOp rm ftz (fp32.value ftz x) (fp32.value ftz y)
    | .fmin => fp32.minMax false (fp32.value ftz x) (fp32.value ftz y)
    | .fmax => fp32.minMax true (fp32.value ftz x) (fp32.value ftz y))

/-- R41, R43, R119, R137: what a lane word without an exception of its own leaves unchanged: every scalar register, every lane outside its governing
mask, every lane register but its destination; nothing outside its group; and no byte of memory. -/
def Obligations.LaneFrame : Prop :=
  (∀ (ty : Ty) (sat : Bool) (m : BitVec 4) (d : BitVec 8) (a b c : Src) (i : Instr),
    i ∈ [.vadd ty sat m d a b, .vsub ty sat m d a b, .vmul ty sat m d a b, .vmulhi ty m d a b, .vmad ty sat m d a b c, .vmin ty m d a b,
      .vmax ty m d a b, .vabs ty sat m d a, .vneg ty sat m d a, .vand ty m d a b, .vor ty m d a b, .vxor ty m d a b, .vandn ty m d a b,
      .vnot ty m d a, .vshl ty m d a b, .vshr ty m d a b, .vsra ty m d a b, .vrot ty m d a b, .vclz ty m d a, .vpopc ty m d a, .vbfx ty m d a b c,
      .vbfi ty m d a b c, .vmov ty m d a, .viota ty m d a b, .vfabs ty m d a, .vfneg ty m d a, .vbcst ty m d a b] →
    ∀ s g fr k cl t h, LaneReady i s g fr k cl → exec i s = .next t → t.group g.core g.slot = some h →
      OnlyGroup s t g.core g.slot ∧ h.sregs = g.sregs ∧ h.masks = g.masks ∧ h.rejoin = g.rejoin ∧ h.fpctl = g.fpctl ∧ h.stack = g.stack ∧
      h.sbuf = g.sbuf ∧ h.loads = g.loads ∧ h.olog = g.olog ∧
      (∀ r l, r ≠ d.toNat → (ty.is64 = true → r ≠ d.toNat + 1) → h.v r l = g.v r l) ∧
      (∀ r l, (cl.govOf i).getLsbD l = false → l < 32 → h.v r l = g.v r l)) ∧
  (∀ (g : Group) (ty : Ty) (d l : Nat) (m : Mask) (f : Nat → Nat), l < 32 → m.getLsbD l = true → d < g.vregs.length →
    (ty.is64 = false → (g.setN ty d m f).v d l = BitVec.ofNat 32 (f l)) ∧
    (ty.is64 = true → d + 1 < g.vregs.length → (g.setN ty d m f).v d l = BitVec.ofNat 32 (f l) ∧
      (g.setN ty d m f).v (d + 1) l = BitVec.ofNat 32 (f l / 2 ^ 32)))

/-! ## Frames, lane memory -/

/-- R36, R42, R95, R98-R107, R124, R127: what a ready scalar word that only writes registers leaves unchanged: every scalar register but its
destination, every mask but its own, the other fragment, everything else of its group, every other group, everything outside the groups, every
byte of memory. -/
def Obligations.ScalarFrame : Prop :=
  ∀ (i : Instr) (rs ds ms : List Nat) (s t : State) (g h : Group) (fr : Fragment) (k : Nat), frameRegs i = some (rs, ds, ms) →
    Ready i rs s g fr k → exec i s = .next t → t.group g.core g.slot = some h → OnlyGroup s t g.core g.slot ∧ OnlyRegs g h ds ms k

/-- R121, R162-R171, R181, R222, R229, R326: a long-latency word issues: its lanes' addresses and data are read, its clause goes on, and the word
stands in the operand log with what each lane found (when every lane faults, the cause is raised at once); a store's bytes go to the group's buffer.
No byte of memory and no lane register changes at issue. VPRF only asks for lines. VTLD converts its elements as it issues and VTST its values, whose
exceptions stick with the word's completion (R51). A word of governing mask zero completes at once. VNEW and VSTREF raise ILLEGAL in the handler
slot, and VNEW for a size out of range. A word of a clause that an open fence marks is numbered below the window's accesses (R249, R250). The model's
choices: VTLD reads its elements at issue, once their lines are in its core's L1 (log 42), and FMT comes before FPE (log 54). -/
def Obligations.LaneMemoryIssue : Prop :=
  let entry (i : Instr) (s : State) (g : Group) (fr : Fragment) (c : Clause) (tn : Tensor) (ops : Nat → DWord × List Word) : LogEntry :=
    let e : LogEntry :=
      { seq := if g.marked c.uid then g.low else llBlock g.seq, inOrder := g.windowed c.uid && performsLate i, uid := c.uid
        flag := (laneCtl i).bind fun x => c.flagOf x.fb, frag := fr.mask, instr := i,
        lrunPc := c.lrunPc, idx := c.idx, gov := c.govOf i, fpctl := c.fpctl &&& 0xFFC0FFFF, tn, issued := s.cycle, lanes := [] }
    { e with lanes := (lanesOf (c.govOf i)).map fun l =>
      { lane := l, addr := (ops l).1, data := (ops l).2, spans := laneSpans e (ops l).1 (ops l).2, locs := [], stat := .service } }
  let free (s : State) (g : Group) (e : LogEntry) : Prop := g.heldByAcquire e.uid = false ∧ s.logFull g.core = false ∧
    s.requestsFull g.core (e.lanes.length * if (llShape e.instr).acc.writes then 2 else 1) = false ∧ s.laneBlocked g e = false ∧
    ∀ x ∈ g.olog, x.seq ≠ e.seq
  let taken (g : Group) (e : LogEntry) : Group := if g.marked e.uid then { g with low := e.seq + 128 } else { g with seq := e.seq + 128 }
  let past (g : Group) (e : LogEntry) (k : Nat) (fr : Fragment) : Group := (taken g e).stepClause k fr
  let among (g : Group) (e : LogEntry) : List LogEntry :=
    (g.olog.takeWhile fun x => decide (x.seq < e.seq)) ++ [e] ++ g.olog.dropWhile fun x => decide (x.seq < e.seq)
  let reach (s : State) (g : Group) (e : LogEntry) (x : LaneEntry) : LaneRes := s.laneReach g e x.addr x.data
  let noHeader (s : State) (g : Group) (e : LogEntry) (x : LaneEntry) (ls : List Loc) : Prop := s.laneHeader e (s.laneVa g e x) ls = none
  let found (r : LaneEntry → LaneRes) (x : LaneEntry) : LaneEntry := match r x with
    | .ok ls => { x with locs := ls, stat := .ready }
    | .bad c st a => { x with stat := .bad c st 0 (BitVec.ofNat 64 a) }
    | .wait _ => x
  let logs (i : Instr) (ops : Group → Clause → Nat → DWord × List Word) (ask : State → Group → Clause → Prop) : Prop :=
    ∀ s g fr k c, LaneReady i s g fr k c → ask s g c →
      let fr' := fr.countLane c.uid
      let gov := c.govOf i
      let e := entry i s g fr' c 0 (ops g c)
      let r := reach s g e
      let e' := { e with lanes := e.lanes.map (found r) }
      free s g e → (∀ x ∈ e.lanes, (∀ v, r x ≠ .wait v) ∧ ∀ ls, r x = .ok ls → noHeader s g e x ls) →
      ((∃ x ∈ e.lanes, ∃ ls, r x = .ok ls) → ((g.windowed c.uid = false ∧ s.silent g = false) ∨ ∀ x ∈ e.lanes, ∃ ls, r x = .ok ls) →
        exec i s = .next (s.progress g { past g e k fr' with olog := among g e' } c.uid)) ∧
      (gov ≠ 0 → (∀ x ∈ e.lanes, ∃ y st a, r x = .bad y st a) → g.windowed c.uid = false → s.silent g = false →
        let h := { past g e k fr' with olog := among g { e' with retry := true } }
        ∃ x, { e' with retry := true }.record g.slot = some x ∧ exec i s = .next ((s.progress g h c.uid).raise h x)) ∧
      (gov = 0 → exec i s = .next (s.progress g ((past g e k fr').llDone c.uid e.flag) c.uid))
  let buffers (i : Instr) (ops : Group → Clause → Nat → DWord × List Word) : Prop :=
    ∀ s g fr k c (ls : LaneEntry → List Loc), LaneReady i s g fr k c →
      let fr' := fr.countLane c.uid
      let e := entry i s g fr' c 0 (ops g c)
      free s g e → (∀ x ∈ e.lanes, reach s g e x = .ok (ls x) ∧ noHeader s g e x (ls x)) →
      exec i s = .next (s.progress g ((past (s.bufferLanes g e (e.lanes.map (found fun x => .ok (ls x)))) e k fr').llDone c.uid e.flag) c.uid)
  let any (_ : State) (_ : Group) (_ : Clause) : Prop := True
  let stored (ty : Ty) (d : BitVec 8) (g : Group) (l : Nat) : List Word := if ty.is64 then [g.v d.toNat l, g.v (d.toNat + 1) l] else [g.v d.toNat l]
  let illegal (i : Instr) (p : State → Group → Clause → Prop) : Prop :=
    ∀ s g fr k c, LaneReady i s g fr k c → fr.inFence c.uid = false → g.longOpen c.uid = false → p s g c →
      exec i s = .next (s.raise g (laneRec g k c i .illegal 0 0))
  (∀ (ty : Ty) (m : BitVec 4) (d : BitVec 8) (x : LAddr) (ctl : LCtl),
    logs (.vld ty m d x ctl) (fun g c l => (laneAddr g c false x l, [])) any ∧
    (∀ peer : Option Src, logs (.vlds ty m d x ctl peer)
      (fun g c l => (laneAddr g c true x l, match peer with | some p => [srcW g c p l] | none => [])) any) ∧
    (∀ (op : AtomOp) (nr stash : Bool) (a : Src), logs (.vatom ty op nr stash m d x a ctl)
      (fun g c l => (laneAddr g c stash x l, atomData g c ty op a l)) any) ∧
    (∀ t : BitVec 4, logs (.vldref t m d x ctl) (fun g c l => (laneAddr g c false x l, [])) any) ∧
    (∀ (s : State) (g : Group) (fr : Fragment) (k : Nat) (c : Clause) (ls : LaneEntry → List Loc), LaneReady (.vstref m d x ctl) s g fr k c → g.slot ≠ 128 →
      let fr' := fr.countLane c.uid
      let ops (l : Nat) : DWord × List Word := (laneAddr g c false x l, [g.v d.toNat l, g.v (d.toNat + 1) l])
      let e := entry (.vstref m d x ctl) s g fr' c 0 ops
      free s g e → (∀ y ∈ e.lanes, reach s g e y = .ok (ls y) ∧ noHeader s g e y (ls y) ∧
        let chk := s.refCheck (s.who g) y.addr.toNat (pairOf (g.v d.toNat y.lane) (g.v (d.toNat + 1) y.lane)).toNat (ls y)
        (chk = .ok ∨ ∃ n, chk = .publish n)) →
      let h := (past g e k fr').llDone c.uid e.flag
      exec (.vstref m d x ctl) s = .next (s.progress g (if c.govOf (.vstref m d x ctl) = 0 then h
        else { h with olog := among g { e with flag := none, lanes := e.lanes.map (found fun y => .ok (ls y)) } }) c.uid)) ∧
    illegal (.vstref m d x ctl) (fun _ g _ => g.slot = 128) ∧
    buffers (.vst ty m d x ctl) (fun g c l => (laneAddr g c false x l, stored ty d g l)) ∧
    buffers (.vsts ty m d x ctl) (fun g c l => (laneAddr g c true x l, stored ty d g l)) ∧
    (∀ (l2 : Bool) (s : State) (g : Group) (fr : Fragment) (k : Nat) (c : Clause), LaneReady (.vprf l2 m x ctl) s g fr k c →
      ∃ u : State, u = { s with work := u.work, l1 := u.l1 } ∧
        exec (.vprf l2 m x ctl) s = .next (u.laneNext (g.llDone c.uid (c.flagOf ctl.fb)) (fr.countLane c.uid) k))) ∧
  (∀ (long fb : Bool) (m : BitVec 4) (d : BitVec 8) (a : Src),
    let i : Instr := .vnew long fb m d a
    let fits (s : State) (g : Group) (c : Clause) : Prop := ∀ t, s.team g.team = some t → ∀ l ∈ lanesOf (c.govOf i), s.sizeOk t (srcW g c a l).toNat long = true
    logs i (fun g c l => (0, [srcW g c a l])) (fun s g c => g.slot ≠ 128 ∧ (s.team g.team).isSome ∧ fits s g c) ∧
    illegal i (fun s g c => (s.team g.team).isSome ∧ (g.slot = 128 ∨ ¬ fits s g c))) ∧
  (∀ (ty : Ty) (tn : BitVec 8) (m : BitVec 4) (d : BitVec 8) (a b : Src) (ctl : LCtl) (s : State) (g : Group) (fr : Fragment) (k : Nat) (c : Clause),
    let i : Instr := .vtld ty tn m d a b ctl
    let gov := c.govOf i
    let t := s.tensor (s.who g).cid tn.toNat
    let fr' := fr.countLane c.uid
    let e := entry i s g fr' c t (fun l => elemOps t (srcW g c a l) (srcW g c b l) [])
    let s2 := if acquires ctl.order then s.acquireAt (s.who g).aid (ctl.scope.zeroExtend 5) else s
    let pieces (l : Nat) : Option (List (Nat × Nat × Bool)) := tPieces t (srcW g c a l).toNat (srcW g c b l).toNat true
    let val (ls : Nat → List Loc) (l : Nat) : Nat × Exc :=
      if (pieces l).isNone then (0, 0) else tLoad t ty e.fpctl (srcW g c a l).toNat (s2.readOwn g e.seq (ls l))
    LaneReady i s g fr k c →
    (tensorCheck t false ctl gov = true → fr.inFence c.uid = false → g.longOpen c.uid = false → exec i s = .next (s.raise g (laneRec g k c i .illegal 0 0))) ∧
    (∀ ls : Nat → List Loc, tensorCheck t false ctl gov = false → free s g e → gov ≠ 0 →
      (∀ x ∈ e.lanes, reach s g e x = .ok (ls x.lane) ∧ g.readsBefore e.seq (ls x.lane) = false ∧ s.lateFault (ls x.lane) false = none) →
      ((∃ l ∈ lanesOf gov, ∃ p ∈ ls l, s.inCache (s.who g) p = false) → ∃ u : State, u = { s with work := u.work, l1 := u.l1 } ∧ exec i s = .next u) ∧
      ((∀ l ∈ lanesOf gov, ∀ p ∈ ls l, s.inCache (s.who g) p = true) →
        (∀ l ∈ lanesOf gov, tFormat t = 9 → (pieces l).isSome → t3pBad (s2.readOwn g e.seq (ls l)) = false) → (∀ l ∈ lanesOf gov, (val ls l).2 = 0) →
        exec i s = .next (s2.progress g { past g e k fr' with olog := among g { e with lanes := e.lanes.map fun (x : LaneEntry) =>
          { x with got := (List.range 4).zip (leBytes 4 (val ls x.lane).1), stat := .ready } } } c.uid))) ∧
    (tensorCheck t false ctl gov = false → free s g e → gov = 0 → exec i s = .next (s2.progress g ((past g e k fr').llDone c.uid e.flag) c.uid))) ∧
  (∀ (ty : Ty) (sat : Bool) (tn : BitVec 8) (m : BitVec 4) (d : BitVec 8) (a b : Src) (ctl : LCtl) (s : State) (g : Group) (fr : Fragment) (k : Nat) (c : Clause),
    let i : Instr := .vtst ty sat tn m d a b ctl
    let gov := c.govOf i
    let t := s.tensor (s.who g).cid tn.toNat
    let fr' := fr.countLane c.uid
    let val (l : Nat) : Nat × Exc :=
      if tByte t (srcW g c a l).toNat (srcW g c b l).toNat = none then (0, 0) else tStore t ty sat c.fpctl (g.v d.toNat l).toNat
    let ops (l : Nat) : DWord × List Word := elemOps t (srcW g c a l) (srcW g c b l) [BitVec.ofNat 32 (val l).1]
    let e := entry i s g fr' c t ops
    let u : Exc := excUnion gov fun l => (val l).2
    let en := enables c.fpctl
    LaneReady i s g fr k c →
    (tensorCheck t true ctl gov = true → fr.inFence c.uid = false → g.longOpen c.uid = false → exec i s = .next (s.raise g (laneRec g k c i .illegal 0 0))) ∧
    (∀ ls : LaneEntry → List Loc, tensorCheck t true ctl gov = false → free s g e → u &&& en = 0 →
      (∀ x ∈ e.lanes, reach s g e x = .ok (ls x) ∧ noHeader s g e x (ls x)) →
      let h := past (s.bufferLanes g e (e.lanes.map (found fun x => .ok (ls x)))) e k fr'
      exec i s = .next (s.progress g ({ h with fpctl := h.fpctl ||| (stick e.fpctl u &&& 0x003F0000) }.llDone c.uid e.flag) c.uid)) ∧
    (tensorCheck t true ctl gov = false → free s g e → u &&& en ≠ 0 → fr.inFence c.uid = false → g.longOpen c.uid = false →
      exec i s = .next (s.raise g (laneRec g k c i .fpe ((u &&& en).zeroExtend 64) (excLanes gov en fun l => (val l).2)))))

/-- R120, R121, R164, R166-R170, R173, R222, R226, R228, R229, R326, R348: what an outstanding long-latency word does later. Lanes of a load read the
bytes at their places once their lines are in the core's L1 (the others ask for them, R331), the group's own older stores first, and their values are then written to the registers, each register in its own move; the last
lane of an atomic, reference store or allocation performs; with every lane done the word leaves the log and its flag's count may fall; with every
other lane done a faulting lane's cause is raised. Which of the lanes read, and which parts are written, in one step is a free choice (log 23). -/
def Obligations.LaneLands : Prop :=
  let out (g : Group) (e : LogEntry) : Group := { g with olog := g.olog.filter fun x => x.seq != e.seq }
  let is (s : State) (core slot q : Nat) (g : Group) (e : LogEntry) : Prop := s.group core slot = some g ∧ g.olog.find? (fun x => x.seq == q) = some e
  let last (e : LogEntry) (x : LaneEntry) : Prop := x ∈ e.lanes ∧ x.stat = .ready ∧ (e.lanes.map fun y => y.lane).Nodup ∧ ∀ y ∈ e.lanes, y.lane ≠ x.lane → y.stat = .done
  let put (e : LogEntry) (y : LaneEntry) : LogEntry := { e with lanes := e.lanes.map fun z => if z.lane == y.lane then y else z }
  let kept (g : Group) (e : LogEntry) (h : Group) : Prop := h = { g with olog := h.olog } ∧ e ∈ h.olog ∧ ∀ z ∈ h.olog, z.seq ≠ e.seq → z ∈ g.olog
  (∀ (s : State) (core slot q : Nat) (g : Group) (e : LogEntry), is s core slot q g e → (∀ x ∈ e.lanes, x.stat = .done) →
    exec (.laneLlComplete core slot q) s = .next (s.progress g (((out g e).finishMask e).llDone e.uid e.flag) e.uid)) ∧
  (∀ (s : State) (core slot q : Nat) (g : Group) (e : LogEntry), is s core slot q g e → llKind e.instr = .load →
    (∀ x ∈ e.lanes, (x.stat = .ready ∧ (x.locs = [] → x.got = [])) ∨ x.stat = .done) → (e.lanes.map fun x => x.lane).Nodup →
    (∃ x ∈ e.lanes, g.mayLand e x = true) → (indivisible e e.lanes = true → ∀ x ∈ e.lanes, g.mayLand e x = true) →
    let now := s.chosen g e
    now ≠ [] ∧ (∀ x ∈ now, x ∈ e.lanes ∧ g.mayLand e x = true) ∧ (indivisible e e.lanes = true → now = e.lanes) ∧
    ∃ u0 : State, u0 = { s with work := u0.work, l1 := u0.l1 } ∧ ((∀ x ∈ now, ∀ p ∈ x.locs, s.inCache (s.who g) p = true) → u0 = s) ∧
      let held := now.filter fun x => (s.nowTakes e x).all fun p => u0.inCache (s.who g) p.2
      let u := match laneCtl e.instr with
        | some c => if acquires c.order then u0.acquireAt (s.who g).aid (c.scope.zeroExtend 5) else u0
        | none => u0
      (held = [] → exec (.laneLlComplete core slot q) s = .next u0) ∧
      (held ≠ [] → (∀ x ∈ held, u.lateFault x.locs false = none) → ∃ h, exec (.laneLlComplete core slot q) s = .next (u.progress g h e.uid) ∧
        h = { g with olog := h.olog, slot0 := h.slot0, slot1 := h.slot1 } ∧ (g.windowed e.uid = false → h.slot0 = g.slot0 ∧ h.slot1 = g.slot1) ∧
        { e with lanes := e.lanes.map fun x => if held.any (fun y => y.lane == x.lane) then (u.readLane g e x).1 else x } ∈ h.olog)) ∧
  (∀ (s : State) (g : Group) (e : LogEntry) (x : LaneEntry), x.got = [] → ((llShape e.instr).stash = true ∨ x.locs.length + x.addr.toNat % 128 ≤ 128) →
    s.lateFault x.locs false = none →
    let v := leVal (x.locs.map fun p => (g.fwd e.seq p).getD (s.readLoc p))
    let y (n v : Nat) : LaneEntry := { x with locs := [], got := (List.range n).zip (leBytes n v) }
    (∀ (ty : Ty) (m : BitVec 4) (d : BitVec 8) (ad : LAddr) (ctl : LCtl) (peer : Option Src),
      e.instr = .vld ty m d ad ctl ∨ e.instr = .vlds ty m d ad ctl peer →
      (s.readLane g e x).1 = y (if ty.is64 then 8 else 4) (extendTo ty x.locs.length v)) ∧
    (∀ (t m : BitVec 4) (d : BitVec 8) (ad : LAddr) (ctl : LCtl), e.instr = .vldref t m d ad ctl →
      (s.readLane g e x).1 = { y 8 v with got := (y 8 v).got ++ [(8, if s.tagOwn g e.seq x.locs then 1 else 0)] })) ∧
  (∀ (s : State) (core slot q : Nat) (g : Group) (e : LogEntry) (x : LaneEntry), is s core slot q g e → last e x → x.locs = [] → x.got ≠ [] →
    ∃ rs : List Nat, rs ≠ [] ∧ (∀ r ∈ rs, r ∈ x.parts) ∧
      let h := rs.foldl (fun h r => h.landPart e x r) g
      let y := rs.foldl (fun (y : LaneEntry) r => y.written r) x
      (y.stat = .done → exec (.laneLlComplete core slot q) s = .next (s.progress g (((out h e).finishMask (put e y)).llDone e.uid e.flag) e.uid)) ∧
      (y.stat ≠ .done → ∃ h', kept h (put e y) h' ∧ exec (.laneLlComplete core slot q) s = .next (s.progress g h' e.uid))) ∧
  (∀ (g : Group) (e : LogEntry) (x : LaneEntry) (v : Nat), v < 2 ^ 64 →
    (v < 2 ^ 32 → (x.image 4 v).parts = [0] ∧ (x.image 4 v).partWord 0 = BitVec.ofNat 32 v) ∧ (x.image 8 v).parts = [0, 1] ∧
    (x.image 8 v).partWord 0 = BitVec.ofNat 32 v ∧ (x.image 8 v).partWord 1 = BitVec.ofNat 32 (v / 2 ^ 32) ∧
    (∀ r d, r < 2 → (laneDsts e.instr)[r]? = some d → g.landPart e x r = g.setV d (1#32 <<< x.lane) fun _ => x.partWord r) ∧
    (∀ (t m : BitVec 4) (d : BitVec 8) (ad : LAddr) (ctl : LCtl), e.instr = .vldref t m d ad ctl → t ≠ 0 → t.toNat ≤ g.masks.length → e.frag.getLsbD x.lane = true →
      ∀ n, ((g.landPart e x 2).masks.getD (t.toNat - 1) 0).getLsbD n = if n = x.lane then x.partWord 2 != 0 else (g.masks.getD (t.toNat - 1) 0).getLsbD n)) ∧
  (∀ (s s0 : State) (core slot q : Nat) (g : Group) (e : LogEntry) (x : LaneEntry) (ty : Ty) (op : AtomOp) (nr stash : Bool) (m : BitVec 4) (d : BitVec 8)
      (ad : LAddr) (a : Src) (ctl : LCtl),
    let w := s.who g
    let va := s.laneVa g e x
    let sc : BitVec 5 := ctl.scope.zeroExtend 5
    let A := pairOf (x.data.getD 0 0) (x.data.getD 1 0)
    let B := pairOf (x.data.getD 2 0) (x.data.getD 3 0)
    is s core slot q g e → e.instr = .vatom ty op nr stash m d ad a ctl → last e x → g.mayAct e x = true → s.writeFault (BitVec.ofNat 64 va) x.locs = none →
    (s.inL1 w va sc x.locs = true → s.own w va x.locs.head? = .ok s0 →
      let s1 := if acquires ctl.order then s0.acquireAt w.aid sc else s0
      let old : DWord := BitVec.ofNat 64 (leVal (x.locs.map s1.readLoc))
      let fadd (p q : DWord) : DWord := BitVec.ofNat 64 (fp32.addOp 0 false (fp32.value false p.toNat) (fp32.value false q.toNat)).1
      let s2 := match atomNew op ty.signed old A B (if ty.is64 then 64 else 32) fadd with
        | some v => s1.writeLocs (x.locs.zip (leBytes x.locs.length v.toNat))
        | none => s1
      let s3 := if releases ctl.order then s2.releaseAt w.aid sc else s2
      (nr = true → exec (.laneLlComplete core slot q) s = .next (s3.progress g ((out g e).llDone e.uid e.flag) e.uid)) ∧
      (nr = false → ∃ h, kept g (put e (x.image (if ty.is64 then 8 else 4) old.toNat)) h ∧
        exec (.laneLlComplete core slot q) s = .next (s3.progress g h e.uid))) ∧
    (∀ (aid gpa : Nat) (rest : List Loc), s.inL1 w va sc x.locs = false → x.locs = .glob aid gpa :: rest →
      exec (.laneLlComplete core slot q) s = .next (s.post (.atom g.core (lineOf aid gpa) (gpa % 128) op ty A B sc)))) ∧
  (∀ (s : State) (core slot q : Nat) (g : Group) (e : LogEntry) (x : LaneEntry) (m : BitVec 4) (d : BitVec 8) (ad : LAddr) (ctl : LCtl),
    is s core slot q g e → e.instr = .vstref m d ad ctl → last e x → g.mayAct e x = true → s.writeFault x.addr x.locs = none →
    (∀ l ∈ x.locs, e.passedBy x l = false) →
    let v := pairOf (x.data.getD 0 0) (x.data.getD 1 0)
    let r := s.storeRef (s.who g) g.team g.grp x.addr.toNat v.toNat x.locs (g.ordered e.uid e.seq) (fun sc => .escapeHwPublish g.core g.slot 2 v (BitVec.ofNat 5 sc))
    (∀ s1, r = .stored s1 → exec (.laneLlComplete core slot q) s = .next
      ((if releases ctl.order then s1.releaseAt (s.who g).aid (ctl.scope.zeroExtend 5) else s1).progress g ((out g e).llDone e.uid e.flag) e.uid)) ∧
    (∀ s1, r = .wait s1 → exec (.laneLlComplete core slot q) s = .next s1)) ∧
  (∀ (s : State) (core slot q : Nat) (g : Group) (e : LogEntry) (x : LaneEntry) (t : Team) (long fb : Bool) (m : BitVec 4) (d : BitVec 8) (a : Src),
    is s core slot q g e → e.instr = .vnew long fb m d a → last e x → g.mayAct e x = true → s.team g.team = some t →
    let size := (x.data.getD 0 0).toNat
    let found (u : State) (p : Nat) : Prop := ∃ h, kept g (put e (x.image 8 p)) h ∧ exec (.laneLlComplete core slot q) s = .next (u.progress g h e.uid)
    (∀ u p, s.alloc (s.who g) t size long = .got u p →
      (u.overPlaced g (s.who g) e.seq p (objLines size) = false → found u p) ∧
      (u.overPlaced g (s.who g) e.seq p (objLines size) = true → exec (.laneLlComplete core slot q) s = .next s)) ∧
    (∀ u, s.alloc (s.who g) t size long = .full u → found u 0) ∧
    (∀ dom n, s.alloc (s.who g) t size long = .quota dom n → e.retry = false → s.silent g = false →
      ∃ h r, kept g { put e { x with stat := .bad .quota false (BitVec.ofNat 64 (dom + n * 2 ^ 32)) 0 } with retry := true } h ∧
        r.cause = .quota ∧ r.detail = BitVec.ofNat 64 (dom + n * 2 ^ 32) ∧ r.culprit = .lane g.slot e.seq ∧
        exec (.laneLlComplete core slot q) s = .next ((s.progress g h e.uid).raise h r))) ∧
  (∀ (s : State) (core slot q : Nat) (g : Group) (e : LogEntry) (x : LaneEntry) (xs : List LaneEntry) (c : Cause) (st : Bool) (de ad : DWord),
    is s core slot q g e → e.retry = false → g.windowed e.uid = false → s.silent g = false → (∀ y ∈ e.lanes, y.stat = .done ∨ y.isBad = true) →
    e.lanes.filter LaneEntry.isBad = x :: xs → x.stat = .bad c st de ad →
    ∃ h r, kept g { e with retry := true } h ∧ exec (.laneLlComplete core slot q) s = .next ((s.progress g h e.uid).raise h r) ∧
      r.cause = c ∧ r.stage = st ∧ r.addr = ad ∧ r.done = e.lanesThat (fun y => !y.isBad) ∧ r.lanei = true ∧ r.clidx = e.idx ∧ r.gov = e.gov ∧ r.pc = e.lrunPc ∧ r.culprit = .lane g.slot e.seq ∧
      (c ≠ .fpe → r.detail = de ∧ r.lanes = e.lanesThat LaneEntry.isBad) ∧
      (c = .fpe → (∀ n : Nat, r.detail.getLsbD n = true ↔ ∃ y ∈ e.lanes, ∃ b dd aa, y.stat = .bad .fpe b dd aa ∧ dd.getLsbD n = true) ∧
        ∀ l, r.lanes.getLsbD l = true ↔ l < 32 ∧ ∃ y ∈ e.lanes, y.lane = l ∧ ∃ b dd aa, y.stat = .bad .fpe b dd aa ∧ dd ≠ 0))

/-! ## The matrix engine -/

/-- R176, R184-R186, R188, R189: the tile words. MLDA loads an A register from a stash tensor of FP16, BF16, E4M3, E5M2 or INT8, 64 rows; MST
stores and MLDC loads a 64 x 64 tile; MZERO clears one; MLDB stages the elements that do not fault, and MST drops what is staged. An element out of
range reads zero bytes and is not stored. What a word has read or written before this step (`part`) counts as its elements (R197, log 11), and it keeps
the entry of its tensor from its start (R180). A tile's lines come to its core's L1 first (R331). Which staged copy a later word takes is log 21. -/
def Obligations.TileWords : Prop :=
  let coords (u : Team) (x : Tile) (cols : Nat) : List (Nat × Nat) :=
    (List.range 64).flatMap fun m => (List.range cols).map fun k =>
      ((u.stream.k.getD x.ka.toNat 0).toNat + 64 * x.off0.toNat + k, (u.stream.k.getD x.kb.toNat 0).toNat + 64 * x.off1.toNat + m)
  let next (st : Stream) : Stream := { st with pc := st.pc + 8, wait := none, part := [], held := none, adding := none, added := false }
  let T (s : State) (u : Team) (x : Tile) : Tensor := match u.stream.held with | some p => p.2 | none => s.tensor u.cid x.tn.toNat
  let F (s : State) (u : Team) (x : Tile) : Nat := tFormat (T s u x)
  let wrong (i : Instr) (p : State → Team → Prop) : Prop :=
    StreamYields i p fun s u => s.raiseStream u { cause := .mstream, reason := 6 }
  (∀ (a : BitVec 4) (x : Tile),
    (∀ s u es, StreamReady (.mlda a x) s u → tStash (T s u x) = true → 2 ≤ F s u x → F s u x ≤ 6 →
      s.readElems (s.teamWho u) u (T s u x) u.stream.part 0 (coords u x (if F s u x ≤ 3 then 64 else 128)) = .ok es →
      exec (.mlda a x) s = .next (s.setTeam { u with stream := next { u.stream with
        a := u.stream.a.set a.toNat { tag := F s u x, bytes := es.flatMap fun e => e.getD (List.replicate (fmtSize (F s u x)) 0) } } })) ∧
    wrong (.mlda a x) (fun s u => tStash (T s u x) = false ∨ F s u x < 2 ∨ 6 < F s u x)) ∧
  (∀ x : Tile, StreamYields (.mldb x) (fun s u => F s u x ∈ [2, 3, 4, 5, 6, 8, 9]) (fun s u => s.setTeam { u with stream := next { u.stream with
      staged := { tn := x.tn.toNat, entry := T s u x
                  d0 := (u.stream.k.getD x.ka.toNat 0).toNat + 64 * x.off0.toNat, row := (u.stream.k.getD x.kb.toNat 0).toNat + 64 * x.off1.toNat
                  elems := s.readable (s.teamWho u) u (T s u x) u.stream.part (fun _ => true)
                    (coords u x (if F s u x = 9 then 256 else if F s u x ≤ 3 then 64 else 128)) } :: u.stream.staged } }) ∧
    wrong (.mldb x) (fun s u => F s u x ∉ [2, 3, 4, 5, 6, 8, 9])) ∧
  (∀ (a : BitVec 4) (x : Tile),
    (∀ s u ms, StreamReady (.mst a x) s u → 1 ≤ F s u x → F s u x ≤ 7 →
      s.placeElems (s.teamWho u) u (T s u x) u.stream.part 0 ((coords u x 64).zip (u.tile a.toNat)) = .ok ms →
      ∃ t, exec (.mst a x) s = .next t ∧ (∀ l, t.readLoc l = (s.writeLocs ms).readLoc l) ∧
        ∀ v, t.team u.tid = some v → v.stream = next { u.stream with staged := [] } ∧ v.acc = u.acc) ∧
    (∀ s u es, StreamReady (.mldc a x) s u → 1 ≤ F s u x → F s u x ≤ 7 →
      s.readElems (s.teamWho u) u (T s u x) u.stream.part 0 (coords u x 64) = .ok es →
      exec (.mldc a x) s = .next (s.setTeam { u with acc := u.acc.set a.toNat (es.map fun e => match e with
        | none => 0
        | some b => if F s u x = 1 ∨ F s u x = 7 then BitVec.ofNat 32 (leVal b)
          else if F s u x = 6 then (BitVec.ofNat 8 (leVal b)).signExtend 32
          else BitVec.ofNat 32 (convert (fmtTy (F s u x)) .f32 0 false false (leVal b)).1), stream := next u.stream })) ∧
    wrong (.mst a x) (fun s u => F s u x = 0 ∨ 7 < F s u x) ∧ wrong (.mldc a x) (fun s u => F s u x = 0 ∨ 7 < F s u x)) ∧
  (∀ a : BitVec 4, ∀ s u, StreamReady (.mzero a) s u → ∃ v : Team, exec (.mzero a) s = .next (s.setTeam v) ∧
    v = { u with acc := v.acc, stream := next u.stream } ∧ v.tile a.toNat = List.replicate 4096 0 ∧ ∀ b, b ≠ a.toNat → v.acc.getD b [] = u.acc.getD b []) ∧
  (∀ (s : State) (w : Who) (u : Team) (d : Tensor) (src : List (Nat × List Byte)) (n : Nat) (p : Nat × Nat) (rest : List (Nat × Nat))
      (es : List (Option (List Byte))), s.readElems w u d src (n + 1) rest = .ok es →
    (∀ bs, src.find? (fun x => x.1 == n) = some (n, bs) → s.readElems w u d src n (p :: rest) = .ok (some bs :: es)) ∧
    ((∀ x ∈ src, x.1 ≠ n) → (tByte d p.1 p.2 = none → s.readElems w u d src n (p :: rest) = .ok (none :: es)) ∧
      ∀ ps ls, tPieces d p.1 p.2 false = some ps → s.piecesPlaces w u d .rd ps = .ok ls →
        (s.tileWants w u d false ps ls = none → s.readElems w u d src n (p :: rest) = .ok (some (ls.map s.readLoc) :: es)) ∧
        ∀ e, s.tileWants w u d false ps ls = some e → s.readElems w u d src n (p :: rest) = .error (.wait (some e), 0))) ∧
  (∀ (s : State) (w : Who) (wr : Bool) (va aid gpa : Nat),
    let line := lineOf aid gpa
    let st := s.l1St w.core line
    s.tileLine w wr va (.glob aid gpa) = if st = .M ∨ st = .E ∨ st = .P ∨ (wr = false ∧ st ≠ .I) ∨ s.privateAt w va gpa = true then none
      else some (if wr = false then .gets w.core line else if st = .I then .getx w.core line else .upgr w.core line)) ∧
  (∀ (s : State) (w : Who) (u : Team) (d : Tensor) (src : List (Nat × List Byte)) (n : Nat) (p : Nat × Nat) (v : Word) (rest : List ((Nat × Nat) × Word))
      (ms : List (Loc × Byte)), s.placeElems w u d src (n + 1) rest = .ok ms →
    ((tByte d p.1 p.2 = none ∨ ∃ x ∈ src, x.1 = n) → s.placeElems w u d src n ((p, v) :: rest) = .ok ms) ∧
    ∀ ps ls, (∀ x ∈ src, x.1 ≠ n) → tPieces d p.1 p.2 false = some ps → s.piecesPlaces w u d .wr ps = .ok ls → (∀ l ∈ ls, s.isHeader l = false) →
      s.tileWants w u d true ps ls = none → s.placeElems w u d src n ((p, v) :: rest) = .ok (ls.zip (leBytes ls.length (fromAcc (tFormat d) v)) ++ ms)) ∧
  (∀ v : Word, fromAcc 1 v = v.toNat ∧ fromAcc 7 v = v.toNat ∧ fromAcc 6 v = narrow .i8x4 true v.toInt ∧
    (∀ f, 2 ≤ f → f ≤ 5 → fromAcc f v = (convert .f32 (fmtTy f) 0 false false v.toNat).1))

/-- R91, R92, R184, R186, R190, R191: the products. Every element of the new tile is its start (zero for MMAZ) plus the products of an A row and a
B column: exact for INT8, in steps of 32 products for the floating kinds. The B tile is read from memory, or a staged copy is taken, which is free
(log 21). An A register of tag NONE gives reason 10, a latch that does not match
reason 7, formats without a kind reason 6; an odd A register for T3P gives reason 4 before these, which is the model's choice (log 59). -/
def Obligations.ProductWords : Prop :=
  let next (st : Stream) : Stream := { st with pc := st.pc + 8, wait := none, part := [], held := none, adding := none, added := false }
  let T (s : State) (u : Team) (x : Tile) : Tensor := match u.stream.held with | some p => p.2 | none => s.tensor u.cid x.tn.toNat
  let org (u : Team) (x : Tile) : Nat × Nat :=
    ((u.stream.k.getD x.ka.toNat 0).toNat + 64 * x.off0.toNat, (u.stream.k.getD x.kb.toNat 0).toNat + 64 * x.off1.toNat)
  let coords (u : Team) (x : Tile) (kk : Nat) : List (Nat × Nat) :=
    (List.range 64).flatMap fun n => (List.range kk).map fun k => ((org u x).1 + k, (org u x).2 + n)
  let stops (i : Instr) (p : State → Team → Prop) (r : BitVec 8) : Prop :=
    StreamYields i p fun s u => s.raiseStream u { cause := .mstream, reason := r }
  let product (i : Instr) (c a : BitVec 4) (keep zero : Bool) (x : Tile) : Prop :=
    (∀ (s : State) (u : Team) (r : AReg) (es : List (Option (List Byte))), StreamReady i s u → tFormat (T s u x) = 6 → r.tag = 6 → r.bytes.length = 8192 →
      u.stream.operand a.toNat false = some [r] → s.readElems (s.teamWho u) u (T s u x) (s.bSource u x) 0 (coords u x 128) = .ok es →
      ∃ tile : List Word, exec i s = .next (s.setTeam { u with acc := u.acc.set c.toNat tile, stream := next { u.stream with
          latch := if keep then some (a.toNat, [r]) else none } }) ∧ tile.length = 4096 ∧
        ∀ m n : Nat, m < 64 → n < 64 → tile.getD (64 * m + n) 0 = BitVec.ofInt 32 ((if zero then 0 else ((u.tile c.toNat).getD (64 * m + n) 0).toInt) +
          ((List.range 128).map fun k => (r.bytes.getD (128 * m + k) 0).toInt *
            (match es.getD (128 * n + k) none with | none => 0 | some b => (BitVec.ofNat 8 (leVal b)).toInt)).sum)) ∧
    (∀ (s : State) (u : Team) (r : AReg) (es : List (Option (List Byte))) (kk : Nat), StreamReady i s u → tFormat (T s u x) ≠ 9 →
      u.stream.operand a.toNat false = some [r] → mmaKind r.tag (tFormat (T s u x)) = some (kk, false) →
      s.readElems (s.teamWho u) u (T s u x) (s.bSource u x) 0 (coords u x kk) = .ok es →
      ∃ tile : List Word, exec i s = .next (s.setTeam { u with acc := u.acc.set c.toNat tile, stream := next { u.stream with
          latch := if keep then some (a.toNat, [r]) else none } }) ∧ tile.length = 4096 ∧
        ∀ m n : Nat, m < 64 → n < 64 → tile.getD (64 * m + n) 0 =
          fpDot (if zero then 0 else (u.tile c.toNat).getD (64 * m + n) 0) ((r.row m).map ((Ty.fmt (fmtTy r.tag)).value false))
            ((List.range kk).map fun k => bValue (tFormat (T s u x)) ((org u x).1 + k) (es.getD (kk * n + k) none))) ∧
    (∀ (s : State) (u : Team) (r q : AReg) (es : List (Option (List Byte))), StreamReady i s u → tFormat (T s u x) = 9 → a.getLsbD 0 = false →
      r.tag = 6 → q.tag = 6 → u.stream.operand a.toNat true = some [r, q] → s.readElems (s.teamWho u) u (T s u x) (s.bSource u x) 0 (coords u x 256) = .ok es →
      (∀ bs, some bs ∈ es → t3pBad bs = false) →
      ∃ tile : List Word, exec i s = .next (s.setTeam { u with acc := u.acc.set c.toNat tile, stream := next { u.stream with
          latch := if keep then some (a.toNat, [r, q]) else none } }) ∧ tile.length = 4096 ∧
        ∀ m n : Nat, m < 64 → n < 64 → tile.getD (64 * m + n) 0 =
          intDot (if zero then 0 else (u.tile c.toNat).getD (64 * m + n) 0) ((r.row m ++ q.row m).map fun v => (BitVec.ofNat 8 v).toInt)
            ((List.range 256).map fun k => bInt 9 ((org u x).1 + k) (es.getD (256 * n + k) none))) ∧
    (∀ (s : State) (u : Team) (r q : AReg) (es : List (Option (List Byte))) (bs : List Byte), StreamReady i s u → tFormat (T s u x) = 9 →
      a.getLsbD 0 = false → r.tag = 6 → q.tag = 6 → u.stream.operand a.toNat true = some [r, q] →
      s.readElems (s.teamWho u) u (T s u x) (s.bSource u x) 0 (coords u x 256) = .ok es → some bs ∈ es → t3pBad bs = true → tTrapr (T s u x) = true →
      exec i s = .next (s.raiseStream u { cause := .fmt })) ∧
    stops i (fun s u => tFormat (T s u x) = 9 ∧ a.getLsbD 0 = true) 4 ∧
    stops i (fun s u => tFormat (T s u x) ≠ 9 ∧ u.stream.operand a.toNat false = none) 7 ∧
    stops i (fun s u => tFormat (T s u x) ≠ 9 ∧ ∃ r, u.stream.operand a.toNat false = some [r] ∧ r.tag = 0) 10 ∧
    stops i (fun s u => tFormat (T s u x) ≠ 9 ∧ ∃ r, u.stream.operand a.toNat false = some [r] ∧ r.tag ≠ 0 ∧ mmaKind r.tag (tFormat (T s u x)) = none) 6
  (∀ (c a : BitVec 4) (keep : Bool) (x : Tile), product (.mma c a keep x) c a keep false x ∧ product (.mmaz c a keep x) c a keep true x) ∧
  (∀ (st : Stream) (a : Nat) (t3p : Bool), (st.latch = none → st.operand a t3p = some (if t3p then [st.a.getD a {}, st.a.getD (a + 1) {}] else [st.a.getD a {}])) ∧
    (∀ r rs, st.latch = some (r, rs) → (r = a ∧ (rs.length = 2 ↔ t3p = true) → st.operand a t3p = some rs) ∧
      (r ≠ a ∨ ¬(rs.length = 2 ↔ t3p = true) → st.operand a t3p = none))) ∧
  (∀ (v : Word) (as bs : List FVal), fpDot v as bs = BitVec.ofNat 32 ((List.range (as.length / 32)).foldl (fun acc n =>
    (fp32.addOp 0 false (fp32.value false acc) (fp32.value false (fp32.round 0 false false
      (exactSum ((((as.zip bs).map fun p => (p.1.mul p.2).1).drop (32 * n)).take 32))).1)).1) v.toNat)) ∧
  (∀ (v : Word) (as bs : List Int), intDot v as bs = BitVec.ofInt 32 (v.toInt + ((as.zip bs).map fun p => p.1 * p.2).sum)) ∧
  (∀ tag f : Nat, mmaKind tag f = if tag = f ∧ (tag = 2 ∨ tag = 3) then some (64, false) else if (tag = 4 ∨ tag = 5) ∧ (f = 4 ∨ f = 5 ∨ f = 8) then some (128, false)
    else if tag = 6 ∧ f = 6 then some (128, true) else if tag = 6 ∧ f = 9 then some (256, true) else none)

/-- R47, R184, R192, R193, R195: index registers and loops. A loop sets its register to 0, runs its body while the raised register is below the count, and
is skipped when the count is 0; the stack has four levels; MEND with an empty stack ends the stream, and a fragment that waits in RDV goes on, with 0
when its MRDV has come and 1 otherwise (R195). Reserved fields give reason 3 and registers
beyond the limit reason 4. -/
def Obligations.IndexAndLoopWords : Prop :=
  let K (u : Team) (k : BitVec 4) : Word := u.stream.k.getD k.toNat 0
  let goto (st : Stream) (pc : DWord) : Stream := { st with pc, wait := none, part := [], held := none, adding := none, added := false }
  let sets (i : Instr) (k : BitVec 4) (v : Team → Word) : Prop := StreamYields i (fun _ _ => True) fun s u =>
    s.setTeam { u with stream := goto { u.stream with k := u.stream.k.set k.toNat (v u) } (u.stream.pc + 8) }
  let stops (i : Instr) (p : State → Team → Prop) (r : BitVec 8) : Prop :=
    StreamYields i p fun s u => s.raiseStream u { cause := .mstream, reason := r }
  (∀ (k b : BitVec 4) (i : BitVec 24) (j : BitVec 8),
    sets (.mkset k i) k (fun _ => BitVec.ofInt 32 i.toInt) ∧
    sets (.mksetH k j) k (fun u => BitVec.ofNat 32 (j.toNat * 2 ^ 24 + (K u k).toNat % 2 ^ 24)) ∧
    sets (.mkadd k i) k (fun u => K u k + BitVec.ofInt 32 i.toInt) ∧
    sets (.mkaddReg k b i) k (fun u => K u k + K u b + BitVec.ofInt 32 i.toInt)) ∧
  (∀ (k b : BitVec 4) (disp count : BitVec 12),
    let total (u : Team) : Nat := if count = 0 then (K u b).toNat else count.toNat
    let stop (u : Team) : DWord := u.stream.pc + BitVec.ofNat 64 (8 * disp.toNat)
    StreamYields (.mloop k b disp count) (fun _ u => total u = 0) (fun s u => s.setTeam { u with stream := goto u.stream (stop u + 8) }) ∧
    let inner (u : Team) : Stream := { u.stream with
      k := u.stream.k.set k.toNat 0
      loops := { reg := k.toNat, total := total u, start := u.stream.pc + 8, stop := stop u } :: u.stream.loops }
    StreamYields (.mloop k b disp count) (fun _ u => total u ≠ 0 ∧ u.stream.loops.length < 4)
      (fun s u => s.setTeam { u with stream := goto (inner u) (u.stream.pc + 8) }) ∧
    stops (.mloop k b disp count) (fun _ u => total u ≠ 0 ∧ 4 ≤ u.stream.loops.length) 8) ∧
  StreamYields .mend (fun _ u => u.stream.loops = []) (fun s u =>
    (s.setTeam { u with stream := { u.stream with running := false, latch := none, staged := [], held := none } }).endRdvs u) ∧
  (∀ (s : State) (u : Team) (n : Nat) (g : Group), s.groups[n]? = some g → ∃ h, (s.endRdvs u).groups[n]? = some h ∧
    (g.team ≠ u.tid ∨ g.slot = 128 → h = g) ∧
    (g.team = u.tid → g.slot ≠ 128 → h = (g.endRdv u.stream.rdvCount 0).endRdv u.stream.rdvCount 1)) ∧
  (∀ (g : Group) (k c : Nat) (fr : Fragment), g.frag k = some fr →
    (∀ n d, fr.wait = some (.rdv n d) → g.endRdv c k = (g.setS d (if n ≤ c then 0 else 1)).setFrag k { fr with pc := fr.pc + 4, wait := none }) ∧
    ((∀ n d, fr.wait ≠ some (.rdv n d)) → g.endRdv c k = g)) ∧
  (∀ s u l rest, StreamReady .mend s u → u.stream.loops = l :: rest → l.stop = u.stream.pc →
    let v : Word := u.stream.k.getD l.reg 0 + 1
    (v.toNat < l.total → exec .mend s = .next (s.setTeam { u with stream := goto { u.stream with k := u.stream.k.set l.reg v } l.start })) ∧
    (l.total ≤ v.toNat → exec .mend s = .next (s.setTeam { u with stream := goto { u.stream with k := u.stream.k.set l.reg v, loops := rest } (u.stream.pc + 8) }))) ∧
  stops .mend (fun _ u => ∃ l rest, u.stream.loops = l :: rest ∧ l.stop ≠ u.stream.pc) 8 ∧
  (∀ (i : Instr) (s : State) (u : Team) (r : BitVec 8), s.cur = .stream u.tid → s.team u.tid = some u → u.stream.running = true → mReason u i = some r →
    (∃ (a k b ka kb : BitVec 4) (x : Tile) (keep noadd : Bool) (disp count : BitVec 12) (tn : BitVec 8) (sc : BitVec 5) (v : BitVec 16),
      i ∈ [.mlda a x, .mst a x, .mldc a x, .mzero a, .mma a b keep x, .mmaz a b keep x, .mloop k b disp count, .mrel noadd tn ka kb sc v]) →
    exec i s = .next (s.raiseStream u { cause := .mstream, reason := r })) ∧
  (∀ (u : Team) (k b a : BitVec 4) (x : Tile) (disp count : BitVec 12),
    (count ≠ 0 → b ≠ 0 → mReason u (.mloop k b disp count) = some 3) ∧ (mReason u (.mloop k 0 0 count) = some 4) ∧
    (7 < a.toNat → mReason u (.mlda a x) = some 4) ∧ (u.acc.length ≤ a.toNat → mReason u (.mzero a) = some 4))

/-- R182-R184, R194-R196: MFORK starts the team's stream with its index registers zero but k0, MSTREAM reason 1 when one runs; RDV and MRDV meet; the
stream's barriers; MREL adds to a word, in its core's L1 or where ATOM settles an atomic of its scope (R339), and releases; MTRAP stops with reason 9 and
its code. A word that synchronises drops what MLDB staged (R188). -/
def Obligations.StreamSync : Prop :=
  let next (st : Stream) : Stream := { st with pc := st.pc + 8, wait := none, part := [], held := none, adding := none, added := false }
  let sync (st : Stream) : Stream := next { st with staged := [] }
  (∀ d a o : BitVec 8,
    let rs := d.toNat :: [a.toNat, a.toNat + 1]
    let entry (g : Group) : DWord := g.pair a.toNat + BitVec.ofNat 64 (o.toNat * 8)
    (∀ s g fr k t, Ready (.mfork d a o) rs s g fr k → g.slot ≠ 128 → s.team g.team = some t → (entry g).extractLsb' 56 8 = 0 →
      (entry g).toNat % 8 = 0 → t.stream.running = false → g.acquiring = false → g.doneBefore g.seq = true →
      ∃ u v, exec (.mfork d a o) s = .next u ∧ u.team g.team = some v ∧ v = { t with stream := v.stream } ∧
        v.stream.running = true ∧ v.stream.stopped = false ∧ v.stream.pc = entry g ∧ v.stream.forker = g.grp ∧ v.stream.rdvCount = 0 ∧
        v.stream.loops = [] ∧ v.stream.latch = none ∧ v.stream.k = g.s d.toNat :: List.replicate 15 0 ∧ (∀ r ∈ v.stream.a, r.tag = 0) ∧
        (∀ h ∈ u.groups, h.team = g.team → h.slot ≠ 128 → h.rdvCount = 0) ∧ (∀ l, u.readLoc l = s.readLoc l)) ∧
    (∀ s g fr k t, Ready (.mfork d a o) rs s g fr k → g.slot ≠ 128 → s.team g.team = some t → (entry g).extractLsb' 56 8 = 0 →
      (entry g).toNat % 8 = 0 → t.stream.running = true → exec (.mfork d a o) s = .next (s.raise g
        { cause := .mstream, reason := 1, spc := entry g, pc := fr.pc, culprit := .scalar g.slot k })) ∧
    (∀ s g fr k c, Ready (.mfork d a o) rs s g fr k → g.slot ≠ 128 → (s.team g.team).isSome → addrFault (entry g) 8 = some c →
      exec (.mfork d a o) s = .next (s.raise g { cause := c, addr := entry g, pc := fr.pc, pair := s.ord.pair, culprit := .scalar g.slot k }))) ∧
  (∀ (d : BitVec 8) (s : State) (g : Group) (fr : Fragment) (k : Nat) (t : Team) (n : Nat) (h : Group), Ready (.rdv d) [d.toNat] s g fr k → g.slot ≠ 128 →
    s.team g.team = some t → ((∃ e, fr.wait = some (.rdv n e)) ∧ h = g ∨ fr.wait = none ∧ n = g.rdvCount + 1 ∧ h = { g with rdvCount := n }) →
    (n ≤ t.stream.rdvCount → exec (.rdv d) s = .next (s.put (h.setS d.toNat 0) k (s.fall fr))) ∧
    (t.stream.rdvCount < n → t.stream.running = false → exec (.rdv d) s = .next (s.put (h.setS d.toNat 1) k (s.fall fr))) ∧
    (t.stream.rdvCount < n → t.stream.running = true → exec (.rdv d) s = .next (s.put h k { fr with wait := some (.rdv n d.toNat) }))) ∧
  StreamYields .mrdv (fun _ _ => True) (fun s u =>
    s.setTeam { u with stream := sync { u.stream with rdvCount := u.stream.rdvCount + 1 } }) ∧
  StreamYields .mnop (fun _ _ => True) (fun s u => s.setTeam { u with stream := next u.stream }) ∧
  (∀ code : BitVec 16, StreamYields (.mtrap code) (fun _ _ => True) fun s u => s.raiseStream u { cause := .mstream, reason := 9, code }) ∧
  (∀ n : BitVec 4,
    let p (u : Team) : BarPart := u.stream.bars.getD n.toNat {}
    let ph (s : State) (u : Team) : Word := (s.barrier u n.toNat).phase
    StreamYields (.mbara n) (fun s u => (p u).effect = none ∧ ((p u).pending = true → ph s u ≠ (p u).phase)) (fun s u =>
      s.setTeam { u with stream := sync { u.stream with bars := u.stream.bars.set n.toNat { pending := true, phase := ph s u, effect := some 0 } } }) ∧
    (∀ s u target, StreamReady (.mbarw n) s u → ((∃ m, u.stream.wait = some (m, target)) ∨
        u.stream.wait = none ∧ target = if (p u).pending then (p u).phase else ph s u) →
      (ph s u = target → exec (.mbarw n) s = .next (s.setTeam { u with stream := { u.stream with wait := some (n.toNat, target) } })) ∧
      (ph s u ≠ target → exec (.mbarw n) s = .next (s.setTeam { u with stream := sync { u.stream with
        bars := u.stream.bars.set n.toNat { p u with pending := false } } })))) ∧
  (∀ (noadd : Bool) (tn : BitVec 8) (ka kb : BitVec 4) (sc : BitVec 5) (v : BitVec 16),
    let i : Instr := .mrel noadd tn ka kb sc v
    let D (s : State) (u : Team) : Tensor := match u.stream.held with | some p => p.2 | none => s.tensor u.cid tn.toNat
    let past (t : State) (u : Team) : State := t.onStream u.tid sync
    let word (s : State) (u : Team) : Prop := tFormat (D s u) = 7 ∧ tStash (D s u) = false
    StreamYields i (fun s u => noadd = true ∨ u.stream.added = true ∨ (word s u ∧
      tByte (D s u) (u.stream.k.getD ka.toNat 0).toNat (u.stream.k.getD kb.toNat 0).toNat = none)) (fun s u => past (s.releaseAt (s.teamWho u).aid sc) u) ∧
    (noadd = false → ∀ s u ps ls, StreamReady i s u → u.stream.added = false → word s u →
      tPieces (D s u) (u.stream.k.getD ka.toNat 0).toNat (u.stream.k.getD kb.toNat 0).toNat false = some ps →
      s.piecesPlaces (s.teamWho u) u (D s u) .at ps = .ok ls → (∀ l ∈ ls, s.isHeader l = false) →
      let w := s.teamWho u
      let va := (u.tileVas (D s u) ps).headD 0
      let level := s.levelScope u.cid u.core sc
      (∀ s0, s.inL1 w va level ls = true → s.own w va ls.head? = .ok s0 →
        exec i s = .next (past ((s0.writeLocs (ls.zip (leBytes 4 (leVal (ls.map s0.readLoc) + v.toNat)))).releaseAt w.aid sc) u)) ∧
      (∀ e, s.inL1 w va level ls = true → s.own w va ls.head? = .error e → exec i s = .next (s.post e)) ∧
      (∀ aid gpa rest, s.inL1 w va level ls = false → ls = .glob aid gpa :: rest →
        exec i s = .next ((s.onStream u.tid fun st => { st with adding := some (ls, v.zeroExtend 32, level) }).post
          (.atom u.core (lineOf aid gpa) (gpa % 128) .add .i32 (v.zeroExtend 64) 0 level)))) ∧
    (noadd = false → StreamYields i (fun s u => u.stream.added = false ∧ ¬ word s u) fun s u => s.raiseStream u { cause := .mstream, reason := 6 }))

/-! ## Pre-emption, removal, watchdogs -/

/-- R109, R248, R273, R304, R350, R359-R364, R366: slices, urgent pre-emption, the return of saved groups, the removal of a context, and the two
watchdogs. A slice that ends renews and drains the context where a launch of another waits. A launch of PRIO 7 that would have a place without the
groups that may be evicted chooses such groups and no others, those of lower PRIO, later start and higher slot first; what is chosen stops and is saved
once its clauses have completed. Groups come back with every register, a sleeping fragment with the clocks it had left.
The removal releases what waits, aborts the launches and then frees the context. The model's choices: which launches count as waiting for a core
(log 39), and what a removal ends before it frees the context (log 20). -/
def Obligations.PreemptEvents : Prop :=
  (∀ (s : State) (core cid : Nat) (x : Slice), s.slices.find? (fun y => y.core == core && y.cid == cid) = some x → x.since + x.length * 1000 ≤ s.time →
    ∃ u, exec (.sliceEnd core cid) s = .next u ∧ u = { s with slices := u.slices } ∧
      (∀ y ∈ u.slices, y.core = core → y.cid = cid → y.since = s.time ∧ y.length = (s.ctx cid).slice.toNat ∧
        ((∀ m ∈ s.launches, m.cid = cid) → (∀ z ∈ s.slices, z.draining = false) → y.draining = false) ∧
        (∀ m ∈ s.launches, m.cid ≠ cid → m.cid / 1024 = cid / 1024 → s.eligible m = true → s.drainsAt core m.cid = false →
          (∀ t ∈ s.teams, t.core = core → t.cid = cid → t.retired = false → (s.descOf t).prio ≤ m.desc.prio) → ((s.usage core).fits m.desc) = none →
          y.draining = true)) ∧
      (∀ y ∈ u.slices, (y.core ≠ core ∨ y.cid ≠ cid) → y ∈ s.slices)) ∧
  (∀ (s : State) (lid : Nat) (l : Launch), s.launch lid = some l → l.desc.prio = 7 → s.eligible l = true → s.heldBack l = false →
    (s.emptied fun _ => false).placement l = none → ((s.emptied s.evictable).placement l).isSome →
    ∃ u, exec (.urgentPreempt lid) s = .next u ∧ u = { s with groups := u.groups } ∧ u.groups.length = s.groups.length ∧
      (∀ (n : Nat) (g h : Group), s.groups[n]? = some g → u.groups[n]? = some h → h = g ∨ s.evictable g = true ∧ h = { g with leaving := true }) ∧
      (∀ (n m : Nat) (g h : Group), s.groups[n]? = some g → s.groups[m]? = some h → g.core = h.core → g.leaving = false → s.evictable h = true →
        s.evictBefore h g = true → (∃ x, u.groups[n]? = some x ∧ x.leaving = true) → ∃ x, u.groups[m]? = some x ∧ x.leaving = true)) ∧
  (∀ (s : State) (g : Group), s.evictable g = true → g.saved = false ∧ g.park = none ∧ g.ended = false ∧ g.slot ≠ 128 ∧
    ∃ t, s.team g.team = some t ∧ t.halt = none ∧ t.queued = [] ∧ (s.descOf t).prio ≠ 7 ∧ (s.descOf t).cores = false) ∧
  (∀ (s : State) (g h : Group) (t u : Team), s.team g.team = some t → s.team h.team = some u → (s.evictBefore g h = true ↔
    (s.descOf t).prio < (s.descOf u).prio ∨ (s.descOf t).prio = (s.descOf u).prio ∧ (h.team < g.team ∨ g.team = h.team ∧ h.slot < g.slot))) ∧
  (∀ (s : State) (tid : Nat) (t : Team) (g : Group) (slots : List Nat), s.team tid = some t → s.runs t.cid = true →
    s.groups.find? (fun x => x.team == tid && x.saved && x.urgent &&
      x.savedAt == (s.groups.filter fun y => y.saved && y.urgent && y.core == t.core).foldl (fun n y => max n y.savedAt) 0) = some g →
    s.comeback t t.core [g] = some slots → exec (.groupRestore tid) s = .next (s.bringBack t t.core [g] slots)) ∧
  (∀ (s u : State) (tid : Nat) (t : Team), s.team tid = some t → s.runs t.cid = true → (∀ g ∈ s.groups, g.team = tid → g.urgent = false) →
    (∀ v ∈ s.restoreUnit t, v.halt = none ∧ s.drainsAt v.core v.cid = false) →
    (∃ v ∈ s.restoreUnit t, ∃ g ∈ s.savedOf v.tid, g.park = none) → s.restoreAll (s.restoreUnit t) = some u → exec (.groupRestore tid) s = .next u) ∧
  (∀ (s : State) (t : Team) (core : Nat) (gs : List Group) (slots : List Nat) (g : Group), g ∈ s.groups → g ∈ gs → g.team = t.tid → g.saved = true →
    ∃ h ∈ (s.bringBack t core gs slots).groups, h.team = g.team ∧ h.grp = g.grp ∧ h.core = core ∧ h.saved = false ∧ h.urgent = false ∧ h.sregs = g.sregs ∧
      h.vregs = g.vregs ∧ h.masks = g.masks ∧ h.flags = g.flags ∧ h.fpctl = g.fpctl ∧ h.bars = g.bars ∧ h.stack = g.stack ∧
      (g.slot0.isSome → h.rejoin = g.rejoin ∧
        (g.parkAt = none → h.slot0 = g.slot0.map (Fragment.toClock s.cycle) ∧ h.slot1 = g.slot1.map (Fragment.toClock s.cycle)) ∧
        (g.parkAt.isSome → h.slot0 = g.slot0 ∧ h.slot1 = g.slot1))) ∧
  (∀ (f : Fragment) (now then_ u : Nat), f.wait = some (.sleep (now + u)) →
    (Fragment.toLeft now f).wait = some (.sleep u) ∧ (Fragment.toClock then_ (Fragment.toLeft now f)).wait = some (.sleep (then_ + u))) ∧
  (∀ (s : State) (cid : Nat), (s.ctx cid).st = .destroyed →
    let mine (g : Group) : Prop := ∃ t, s.team g.team = some t ∧ t.cid = cid
    let waits : Prop := (s.ctx cid).ladders ≠ List.replicate 16 {} ∨ (s.ctx cid).mail ≠ List.replicate 64 [] ∨ (∃ w ∈ s.walks, w.cid = cid) ∨
      (∃ g ∈ s.groups, mine g ∧ g.slot ≠ 128 ∧ g.ended = false ∧ g.blocked = true)
    let handled : Prop := ∃ h ∈ s.handlers, ∃ tid t, (h.serving = some tid ∨ tid ∈ h.waiting) ∧ s.team tid = some t ∧ t.cid = cid
    (waits → exec (.contextRemove cid) s = .next (s.releaseContext cid)) ∧
    (¬ waits → ¬ handled → (∃ l ∈ s.launches, l.cid = cid ∧ l.ending = none) →
      exec (.contextRemove cid) s = .next ((s.launches.filter fun l => l.cid == cid).foldl (fun (u : State) l => u.abortLaunch l.lid) s)) ∧
    (¬ waits → ¬ handled → (∀ l ∈ s.launches, l.cid ≠ cid) → (∀ g ∈ s.groups, ¬ mine g) →
      exec (.contextRemove cid) s = .next { s with contexts := s.contexts.filter fun x => x.cid != cid })) ∧
  (∀ (g : Group) (k : Nat) (f : Fragment) (d : Nat), g.frag k = some f → k < 2 → d < g.sregs.length →
    (∀ n, f.wait = some (.rdv n d) → (g.releaseFrag k).s d = 1) ∧ (f.wait = some (.lwait d) → (g.releaseFrag k).s d = 0) ∧
    ((∃ n, f.wait = some (.rdv n d)) ∨ f.wait = some (.lwait d) ∨ f.wait = some .arrive ∨ (∃ c n y, f.wait = some (.bar c n y)) → (g.releaseFrag k).estat = 1 ∧
      (g.releaseFrag k).frag k = some { f with pc := f.pc + 4, wait := none })) ∧
  (∀ (s : State) (core tid : Nat) (t : Team), (s.handler core).serving = some tid → s.team tid = some t → bitsOf (s.ctx t.cid).wdog.toNat 0 32 ≠ 0 →
    (s.handler core).since + bitsOf (s.ctx t.cid).wdog.toNat 0 32 * 1000 ≤ s.time →
    ∃ u, exec (.watchdogHandler core) s = .next u ∧ (u.ctx t.cid).st = .destroyed ∧ (u.handler core).serving = none ∧
      ∃ v, u.team tid = some v ∧ ∃ r, v.record = some r ∧ r.cause = .watchdog ∧ r.detail = 1) ∧
  (∀ (s : State) (tid : Nat) (t : Team), s.team tid = some t → bitsOf (s.ctx t.cid).wdog.toNat 32 32 ≠ 0 →
    t.issued + bitsOf (s.ctx t.cid).wdog.toNat 32 32 * 1000000 ≤ s.time → t.halt = none → s.teamGroups tid ≠ [] →
    (∀ g ∈ s.teamGroups tid, g.park = none ∧ g.saved = false) → (s.ctx t.cid).st ≠ .destroyed →
    ∃ u, exec (.watchdogProgress tid) s = .next u ∧ (u.ctx t.cid).st = .destroyed ∧
      ∃ v, u.team tid = some v ∧ ∃ r, v.record = some r ∧ r.cause = .watchdog ∧ r.detail = 2)

/-! ## Host commands -/

/-- R290, R292-R294, R297-R299, R303, R305, R371: the guardian's commands. A command that passes the checks of R293 has its effect and the status OK;
one that fails has no effect, and one that 16 of its context came before is BUSY. Both leave a journal entry and a completion record of tag, status and
sequence number. The model's readings: a command takes effect in one step, and leases that ran out before it take effect first (`v`; log 28); what LEASE
by a co-guardian and GUARD_OFFER with target 8 do (log 38). -/
def Obligations.GuardCommands : Prop :=
  let done (cid : Nat) (c : Cmd) (code : Byte) (s : State) (run : State → Nat × State) : State :=
    s.block cid c.host code c.tag (c.args.getD 0 0) (if c.compl.toNat % 16 = 0 then c.compl else 0) (cmdWords c code) run
  let at_ (c : Cmd) (s : State) (cid : Nat) : Prop := (s.portOf c.host c.port = true ∨ s.dev.taking.isSome) ∧ s.dev.st = .running ∧
    (∀ q, s.dev.taking = some q → q.busy = false) ∧ cid = s.portPart c.port * 1024 + c.ctx.toNat
  let arg (c : Cmd) (n lo w : Nat) : Nat := (c.args.getD n 0).toNat / 2 ^ lo % 2 ^ w
  let host8 (c : Cmd) : BitVec 8 := 1#8 <<< c.host
  (∀ (c : Cmd) (s : State) (cid : Nat), at_ c s cid →
    let v := s.lapsed cid
    let x := v.ctx cid
    let x0 : Context := { cid, st := .guarded, primary := c.host, permit := BitVec.ofNat 8 (arg c 0 16 8), ast := arg c 0 0 10,
                          lease := if arg c 0 32 14 = 0 then 250 else arg c 0 32 14, limits := List.replicate 256 0xFFFFFFFF }
    (x.st = .free → cmdShaped c [0x3FFF00FF03FF] = true → arg c 0 32 14 ≤ 10000 → (v.ast (x.cid / 1024 * 1024 + arg c 0 0 10)).valid = true →
      (∀ y ∈ v.contexts, y.cid / 1024 = x.cid / 1024 → y.cid ≠ x.cid → y.st ≠ .free → y.ast ≠ arg c 0 0 10) →
      exec (.create c) s = .next (done cid c 1 v fun u =>
        (0, (u.setCtx ({ x0 with colour := (u.ast (cid / 1024 * 1024 + arg c 0 0 10)).colour.toNat } : Context)).startLease cid c.host))) ∧
    (x.st = .guarded → x.primary = c.host → cmdShaped c [0xF] = true → arg c 0 0 4 < 8 → x.permit.getLsbD (arg c 0 0 4) = true →
      exec (.guardOffer c) s = .next (done cid c 2 v fun u =>
        (0, (u.setCtx { x with st := .offered, offerTo := arg c 0 0 4 }).event cid (arg c 0 0 4) { kind := 5 }))) ∧
    (x.st = .offered → x.primary = c.host → cmdShaped c [0xF] = true → arg c 0 0 4 = 8 →
      exec (.guardOffer c) s = .next (done cid c 2 v fun u => (0, u.setCtx { x with st := .guarded, offerTo := 8 }))) ∧
    (x.st = .offered → x.offerTo = c.host → cmdShaped c [] = true → (∀ f ∈ x.faults, f.target ≠ some x.primary) →
      exec (.guardAccept c) s = .next (done cid c 3 v fun u => (0, (u.setCtx { x with
        primary := c.host, coguard := x.coguard &&& ~~~host8 c, offerTo := 8, st := .guarded, clocks := x.clocks.filter fun p => p.1 != x.primary }).startLease cid c.host))) ∧
    (x.st = .guarded → x.primary = c.host → cmdShaped c [0xFF] = true →
      (∀ h < 8, (BitVec.ofNat 8 (arg c 0 0 64)).getLsbD h = true → x.permit.getLsbD h = true ∧ h ≠ x.primary) →
      exec (.guardShare c) s = .next (done cid c 4 v fun u => (0, ((hostsOf (BitVec.ofNat 8 (arg c 0 0 64))).filter fun h => !x.coguard.getLsbD h).foldl
        (fun (w : State) h => (w.startLease cid h).event cid h { kind := 7 }) (u.setCtx { x with coguard := x.coguard ||| BitVec.ofNat 8 (arg c 0 0 64) })))) ∧
    (cmdShaped c [] = true → (x.primary = c.host ∧ x.st = .guarded ∨ x.primary ≠ c.host ∧ x.coguard.getLsbD c.host = true ∧ (x.st = .guarded ∨ x.st = .offered)) →
      exec (.guardDrop c) s = .next (done cid c 5 v fun u => (0, u.leave cid c.host false))) ∧
    (x.st = .orphaned ∨ x.st = .suspended → x.permit.getLsbD c.host = true → cmdShaped c [0x3FFF] = true → arg c 0 0 14 ≤ 10000 → (∀ f ∈ x.faults, f.target.isSome) →
      exec (.adopt c) s = .next (done cid c 6 v fun u => (0, (u.setCtx { x with
        primary := c.host, coguard := 0, offerTo := 8, st := .guarded, lease := (if arg c 0 0 14 = 0 then x.lease else arg c 0 0 14), clocks := [] }).startLease
        cid c.host))) ∧
    (x.st = .guarded ∨ x.st = .offered → cmdShaped c [0x3FFF] = true → arg c 0 0 14 ≤ 10000 →
      (x.primary = c.host ∨ x.coguard.getLsbD c.host = true ∧ arg c 0 0 14 = 0) →
      exec (.lease c) s = .next (done cid c 7 v fun u => (0, (u.setCtx { x with lease := if arg c 0 0 14 = 0 then x.lease else arg c 0 0 14 }).startLease cid c.host))) ∧
    (x.st ∈ [.guarded, .offered, .orphaned, .suspended] → cmdShaped c [] = true →
      (x.primary = c.host ∨ x.permit.getLsbD c.host = true ∧ (x.st = .orphaned ∨ x.st = .suspended)) →
      exec (.kill c) s = .next (done cid c 0x0B v fun u => (0, u.destroy cid))) ∧
    (x.st = .free → ∀ p ∈ [(Instr.guardOffer c, (2 : Byte)), (.guardAccept c, 3), (.guardShare c, 4), (.guardDrop c, 5), (.adopt c, 6), (.lease c, 7), (.kill c, 0x0B)],
      exec p.1 s = .next (done cid c p.2 v fun u => (3, u)))) ∧
  (∀ (c : Cmd) (s : State) (q : Queued), s.dev.taking = some q → q.busy = true → s.dev.st = .running → cmdShaped c [] = true →
    let cid := s.portPart c.port * 1024 + c.ctx.toNat
    ((s.lapsed cid).ctx cid).st ≠ .free →
    exec (.guardAccept c) s = .next (done cid c 3 (s.lapsed cid) fun u => (5, u)) ∧
    exec (.guardDrop c) s = .next (done cid c 5 (s.lapsed cid) fun u => (5, u)) ∧
    exec (.kill c) s = .next (done cid c 0x0B (s.lapsed cid) fun u => (5, u))) ∧
  (∀ (s : State) (cid n h : Nat), ((s.ctx cid).overdue s.time = none → s.lapse cid n = s) ∧
    ((s.ctx cid).overdue s.time = some h → s.lapse cid (n + 1) = (s.loseHost cid h).lapse cid n) ∧
    ((s.ctx cid).overdue s.time = some h → ∃ p ∈ (s.ctx cid).clocks, p.1 = h ∧ (s.ctx cid).guardian h = true ∧ p.2 + 2 * (s.ctx cid).lease * 1000000 < s.time)) ∧
  (∀ (s : State) (cid h : Nat), h < 8 → (s.ctx cid).faults = [] →
    let x := s.ctx cid
    let y := (s.leave cid h false).ctx cid
    (x.primary ≠ h → y.primary = x.primary ∧ y.coguard = x.coguard &&& ~~~(1#8 <<< h)) ∧
    (x.primary = h → (∀ n < 8, n ≠ h → x.coguard.getLsbD n = false) → y.primary = 8 ∧ y.st = .orphaned) ∧
    (x.primary = h → ∀ n < 8, n ≠ h → x.coguard.getLsbD n = true → (∀ m < n, m ≠ h → x.coguard.getLsbD m = false) → y.primary = n ∧ y.coguard.getLsbD n = false)) ∧
  (∀ (s : State) (cid host : Nat) (code : Byte) (tag : Word) (arg compl : DWord) (ws : List DWord) (n : Nat) (run : State → Nat × State),
    s.dev.taking = none → (∀ u, (run u).1 = n) → n ≠ 0 → n < 256 → (s.ctx cid).st ≠ .orphaned → (s.ctx cid).st ≠ .suspended →
    let t := s.block cid host code tag arg compl ws run
    t.contexts = s.contexts ∧ t.groups = s.groups ∧ t.launches = s.launches ∧ (t.part (cid / 1024)).jhead = (s.part (cid / 1024)).jhead + 1 ∧
    (∃ e ∈ (t.part (cid / 1024)).journal, e.seq = (s.part (cid / 1024)).jhead ∧ e.cmd = code ∧ e.tag = tag ∧ e.arg = arg ∧ e.host = host ∧ e.ctx = cid % 1024 ∧
      e.status = BitVec.ofNat 8 n ∧ e.accept = s.time) ∧
    (compl ≠ 0 → s.hostMem.wf = true → t.hostMem.getAll (host * 2 ^ 64 + compl.toNat) 16 = leBytes 4 tag.toNat ++ leBytes 4 n ++ leBytes 8 (s.part (cid / 1024)).jhead) ∧
    (compl = 0 → t.hostMem = s.hostMem))

/-- R292, R293, R295-R297, R300, R303, R312, R390: MAP, UNMAP, RESUME, SETCTL, and commands that no row lists. The model's readings: a command takes
effect in one step, after the leases that have run out (`v`; log 28); an answer to a fault whose team or launch another answer has ended (log 38); and
that any host of the partition may UNMAP a range that holds no mapping (log 59). -/
def Obligations.MapCommands : Prop :=
  let done (cid : Nat) (c : Cmd) (code : Byte) (s : State) (run : State → Nat × State) : State :=
    s.block cid c.host code c.tag (c.args.getD 0 0) (if c.compl.toNat % 16 = 0 then c.compl else 0) (cmdWords c code) run
  let at_ (c : Cmd) (s : State) (cid : Nat) : Prop := (s.portOf c.host c.port = true ∨ s.dev.taking.isSome) ∧ s.dev.st = .running ∧
    (∀ q, s.dev.taking = some q → q.busy = false) ∧ cid = s.portPart c.port * 1024 + c.ctx.toNat
  let arg (c : Cmd) (n : Nat) : Nat := (c.args.getD n 0).toNat
  let all : DWord := -1
  let full : Nat := all.toNat
  let kept (x : Context) (ovr : List Mapping) : List Mapping := x.maps.filter fun m => !ovr.contains m
  (∀ (c : Cmd) (s : State) (cid : Nat), at_ c s cid → ((s.lapsed cid).ctx cid).st = .guarded ∨ ((s.lapsed cid).ctx cid).st = .offered →
    let v := s.lapsed cid
    let x := v.ctx cid
    let u0 (code : Byte) : State := (v.opened cid c.host code c.tag (c.args.getD 0 0) (cmdWords c code)).1
    let b := arg c 2 % 16
    let ovr := x.mapsIn (arg c 0) (arg c 1)
    let bits (n : Nat) : Bool := (c.args.getD 2 0).getLsbD n
    (∀ u2, cmdShaped c [full, full, 0x7F, full] = true → rangeOk (arg c 0) (arg c 1) = true → b ≤ 8 → arg c 3 % 4096 = 0 →
      arg c 3 + arg c 1 ≤ (if b = 8 then 2 ^ 52 else 2 ^ 48) → (x.primary = c.host ∨ x.coguard.getLsbD c.host = true ∧ b = c.host) →
      (b < 8 → v.hostLive b = true) → (∀ m ∈ ovr, m.lost = true ∧ m.within (arg c 0) (arg c 1) = true) →
      (ovr.foldl (fun (w : State) m => w.unmapRange x.aid m.base m.len) (u0 8)).mapRange x.aid (bits 4) (bits 5) (bits 6) (arg c 1 / 4096 + 1) (arg c 0)
        (if b = 8 then arg c 3 else 2 ^ 51 + b * 2 ^ 48 + arg c 3) (arg c 1) = some u2 →
      exec (.map c) s = .next (done cid c 8 v fun _ => (0, (u2.setCtx { (u2.ctx cid) with maps := kept (u2.ctx cid) ovr ++
        [{ base := arg c 0, len := arg c 1, backing := b, r := bits 4, w := bits 5, x := bits 6, target := arg c 3 }] }).tlbDrop x.aid (arg c 0) (arg c 1)))) ∧
    (cmdShaped c [full, full] = true → rangeOk (arg c 0) (arg c 1) = true → (x.primary = c.host ∨ ∀ m ∈ ovr, m.backing = c.host) →
      (∀ m ∈ ovr, m.within (arg c 0) (arg c 1) = true) →
      exec (.unmap c) s = .next (done cid c 9 v fun u =>
        let w := ovr.foldl (fun (w : State) m => w.unmapRange x.aid m.base m.len) u
        (0, (w.setCtx { (w.ctx cid) with maps := kept (w.ctx cid) ovr }).releaseLong cid ovr))) ∧
    (∀ f, resumeShape c = true → arg c 0 % 4 = 0 → x.faults.find? (fun f => f.fid == arg c 0 / 2 ^ 32 % 2 ^ 32 && f.target == some c.host) = some f →
      exec (.resumeFault c) s = .next (done cid c 0x0A v fun u => (0, u.answer cid f (arg c 1 == 1)))) ∧
    (resumeShape c = true → arg c 0 % 4 = 0 → (∀ f ∈ x.faults, f.fid = arg c 0 / 2 ^ 32 % 2 ^ 32 → f.target ≠ some c.host) →
      exec (.resumeFault c) s = .next (done cid c 0x0A v fun u => (4, u))) ∧
    (∀ g va code lanes pc ws, resumeShape c = true → arg c 0 % 4 = 1 → x.primary = c.host →
      v.groups.find? (fun g => g.token == some (arg c 0 / 2 ^ 32 % 2 ^ 32) && (match v.team g.team with | some t => t.cid == x.cid | none => false)) = some g →
      g.park = some (.svc va code lanes pc) →
      ((u0 0x0A).acquireAt x.aid 5).slots (((u0 0x0A).acquireAt x.aid 5).ctx cid) (arg c 0 / 2 ^ 32 % 2 ^ 32) (lanesOf lanes) = some ws →
      s.firstWait (s.ctx cid).device (if (s.ctx cid).primary == c.host then s.slotReads (s.ctx cid) (arg c 0 / 2 ^ 32 % 2 ^ 32) else []) = none →
      exec (.resumeSvc c) s = .next ((done cid c 0x0A v fun u =>
        (0, (u.acquireAt x.aid 5).editGroup g.team g.grp fun h => (ws.foldl (fun (k : Group) p => k.answer va p) h).unpark u.cycle)).atsSpent 384 (s.ctx cid).cid)) ∧
    (x.primary = c.host →
      (arg c 0 % 256 = 1 → cmdShaped c [0xFF, 0xFF] = true →
        exec (.setctlPermit c) s = .next (done cid c 0x0C v fun u => (0, u.setCtx { x with permit := BitVec.ofNat 8 (arg c 1) }))) ∧
      (arg c 0 % 256 = 2 → cmdShaped c [0xFF, full] = true → 1 ≤ arg c 1 → arg c 1 ≤ 10000 →
        exec (.setctlLease c) s = .next (done cid c 0x0C v fun u => (0, u.setCtx { x with lease := arg c 1 }))) ∧
      (arg c 0 % 256 = 3 → cmdShaped c [0xFF, full, full] = true → ringOk (arg c 1) (arg c 2) = true →
        exec (.setctlRequestRing c) s = .next (done cid c 0x0C v fun u => (0, u.setCtx { x with rq := { base := arg c 1, log2 := arg c 2 } }))) ∧
      (arg c 0 % 256 = 5 → cmdShaped c [0xFF, full] = true → arg c 1 % 4096 = 0 → arg c 1 < 2 ^ 56 →
        exec (.setctlRespbase c) s = .next (done cid c 0x0C v fun u => (0, u.setCtx { x with respBase := arg c 1 }))) ∧
      (arg c 0 % 256 = 6 → cmdShaped c [0xFF, full, full] = true → arg c 1 ≤ 255 → arg c 2 ≤ 0xFFFFFFFF →
        exec (.setctlQuotaLimit c) s = .next (done cid c 0x0C v fun u => (0, u.setCtx { x with limits := x.limits.set (arg c 1) (BitVec.ofNat 32 (arg c 2)) })))) ∧
    (arg c 0 % 256 = 4 → cmdShaped c [0xFF, full, full] = true → ringOk (arg c 1) (arg c 2) = true → (x.guardian c.host = true ∨ x.permit.getLsbD c.host = true) →
      exec (.setctlEventRing c) s = .next (done cid c 0x0C v fun u =>
        (0, (u.setCtx { x with rings := assocSet c.host { base := arg c 1, log2 := arg c 2 } x.rings }).flushEvents cid c.host (x.heldEv.length + 1)))) ∧
    (x.guardian c.host = false → x.permit.getLsbD c.host = false → cmdShaped c [0xFF, 0xFF] = true → arg c 0 % 256 = 1 →
      exec (.setctlPermit c) s = .next (done cid c 0x0C v fun u => (1, u)))) ∧
  (∀ (c : Cmd) (code : Byte) (s : State) (cid : Nat), at_ c s cid → (code = 0 ∨ 0x0C < code.toNat ∨ code = 0x0C ∧ (arg c 0 % 256 = 0 ∨ 6 < arg c 0 % 256)) →
    exec (.unlistedCommand c code) s = .next (done cid c code (s.lapsed cid) fun u => (3, u))) ∧
  (∀ (s : State) (cid : Nat) (removed : List Mapping),
    let meets (p : Nat × Nat) (m : Mapping) : Prop := m.base < p.1 + p.2 ∧ p.1 < m.base + m.len
    let y := (s.releaseLong cid removed).ctx cid
    (∀ p, p ∈ y.longNext ↔ p ∈ (s.ctx cid).longNext ∧ ∀ q ∈ (s.ctx cid).longNext, q.1 = p.1 → (∀ m ∈ removed, ¬ meets q m) ∨ ∃ m ∈ (s.ctx cid).maps, meets q m) ∧
    ((∀ p ∈ (s.ctx cid).longNext, (∀ m ∈ removed, ¬ meets p m) ∨ ∃ m ∈ (s.ctx cid).maps, meets p m) → y.usage = (s.ctx cid).usage)) ∧
  (∀ (base log2 : Nat), ringOk base log2 = true ↔ base < 2 ^ 56 ∧ (log2 = 0 ∨ 12 ≤ log2 ∧ log2 ≤ 26 ∧ base % 2 ^ log2 = 0)) ∧
  (∀ (base len : Nat), rangeOk base len = true ↔ base % 4096 = 0 ∧ len % 4096 = 0 ∧ 4096 ≤ len ∧ base + len ≤ 2 ^ 56)

/-- R293, R294, R298, R299, R368, R370-R375, R380, R389: submissions through a bound page, the queue of a host, accesses the device does not serve,
leases that expire, and host ports that lose and regain link. A submission of no guardian, or in a state that takes none, is DENIED_ROLE; one whose
block, descriptor, members or PRIO break a rule is DENIED_STATE; one past the limit of accepted launches is BUSY; else its launch is accepted, a
coordinator's with PREPARE sent to its members. The model's readings: a block takes effect in one step, after the leases that have run out (`v`), and
the block of a host that is the oldest of its host and of its context may take effect next (log 28); a request of status 3 where a field that KIND 1
does not use is not 0 (log 38); the wait of the descriptor's and the members' reads, which come before the effect (log 50). -/
def Obligations.SubmissionsAndHostLoss : Prop :=
  let kind (b : Sub) : Nat := b.head.toNat % 256
  let tag (b : Sub) : Word := BitVec.ofNat 32 (b.head.toNat / 2 ^ 32)
  let run (b : Sub) (code : Byte) (s : State) (cid : Nat) (f : State → Nat × State) : State :=
    s.block cid b.host code (tag b) b.desc (if b.compl.toNat % 16 = 0 then b.compl else 0) (subWords b) f
  let msi (b : Sub) : Option (Nat × Nat) := if b.head.getLsbD 28 then some (b.port, b.head.toNat / 2 ^ 16 % 2 ^ 11) else none
  (∀ (b : Sub) (s : State) (bind : Bind), s.portOf b.host b.port = true ∨ s.dev.taking.isSome → s.dev.st = .running → s.pageBind b = some bind →
    let two : Prop := kind b = 2
    let k : Nat := if two then 2 else 1
    let code : Byte := if two then 0x21 else 0x20
    let cid := s.portPart b.port * 1024 + bind.ctx.toNat
    let c := s.ctx cid
    let reads := c.guardian b.host && subHeadOk b k
    let sa := if reads then s.acquireAt c.aid 5 else s
    let v := sa.lapsed cid
    let x := v.ctx cid
    let gives (f : State → Nat × State) : Prop := sa.firstWait c.device (if reads then sa.subReads c.device b k else []) = none →
      exec (if two then .submitGang b else .submitLaunch b) s = .next ((run b code v cid f).atsSpent 384 c.cid)
    let may : Prop := x.guardian b.host = true ∧ (x.st = .guarded ∨ x.st = .offered)
    let plain : Prop := b.gang = 0 ∧ b.start = 0 ∧ b.deadline = 0 ∧ b.members = 0
    let u0 : State := ((v.opened cid b.host code (tag b) b.desc (subWords b)).1).acquireAt x.aid 5
    let gang : Option (Option GangLaunch) := if two then (u0.gangOf x.device b).map some else some none
    (¬ may → gives fun u => (1, u)) ∧
    (may → subHeadOk b k = false ∨ kind b = 1 ∧ ¬ plain → gives fun u => (3, u)) ∧
    (may → subHeadOk b k = true → (kind b = 1 → plain) →
      ((∀ bs, u0.getBytes x.device b.desc.toNat 256 ≠ .ok bs) ∨ gang = none → gives fun u => (3, u)) ∧
      ∀ bs G, u0.getBytes x.device b.desc.toNat 256 = .ok bs → gang = some G →
        let prio := (parseDesc (leVal bs)).prio
        let answer := u0.accept cid b.desc (leVal bs)
        (bind.prioMax.toNat < prio → gives fun u => (3, u)) ∧
        (prio ≤ bind.prioMax.toNat → (answer = .malformed → gives fun u => (3, u)) ∧ (answer = .busy → gives fun u => (5, u)) ∧
          ∀ w lid l, answer = .taken w lid → w.launch lid = some l → gives fun _ => (0, (w.prepare G).setLaunch { l with gang := G, msix := msi b })))) ∧
  (∀ (b : Sub) (s : State), s.portOf b.host b.port = true ∨ s.dev.taking.isSome → s.pageBind b = none →
    (kind b ≠ 2 → exec (.submitLaunch b) s = .next s) ∧ (kind b = 2 → exec (.submitGang b) s = .next s)) ∧
  (∀ (b : Sub) (s : State) (bind : Bind) (q : Queued),
    (s.dev.taking = none → (s.pageBind b = some bind → bind ∈ s.dev.binds ∧ bind.host = b.host ∧ bind.page = b.page)) ∧
    (s.dev.taking = some q → s.pageBind b = q.bind)) ∧
  (∀ (s : State) (w : Who) (b : Sub) (g : GangLaunch), s.gangOf w b = some g → g.gid = loOf b.gang ∧ g.start = b.start.toNat ∧ g.deadline = b.deadline.toNat ∧
    g.coord = b.gang.getLsbD 32 ∧ (g.coord = false → g.members = []) ∧
    (g.coord = true → g.members.length = b.gang.toNat / 2 ^ 33 % 16 ∧ 1 ≤ g.members.length ∧ g.deadline < g.start)) ∧
  (∀ (s : State) (g : GangLaunch), s.prepare none = s ∧ s.prepare (some g) =
    if g.coord then { s with dev := { s.dev with sent := s.dev.sent ++ g.members.map fun m => (1, m, g.gid, g.start) } } else s) ∧
  (∀ (s s1 : State) (e : Ev) (host port cid : Nat) (code : Byte) (bind : Option Bind),
    (∃ c, blockCmd e = some (c, code) ∧ host = c.host ∧ port = c.port ∧ cid = s.portPart port * 1024 + c.ctx.toNat ∧ bind = none) ∨
      (∃ b x, blockCmd e = none ∧ blockSub e = some (b, code) ∧ host = b.host ∧ port = b.port ∧ bind = some x ∧
        s.dev.binds.find? (fun y => y.host == host && y.page == b.page) = some x ∧ cid = s.portPart port * 1024 + x.ctx.toNat) →
    s.arrives e = some s1 →
    let mine := s.dev.queue.filter fun q => q.host == host
    let part := cid / 1024
    (s.portOf host port = false ∨ s.dev.st ≠ .running ∨ 64 ≤ mine.length → s1 = s) ∧
    (s.portOf host port = true → s.dev.st = .running → mine.length < 64 →
      ∃ q j, s1 = { s with parts := s1.parts, dev := { s.dev with queue := s.dev.queue ++ [q] } } ∧ q.host = host ∧ q.cid = cid ∧ q.ev = e ∧ q.bind = bind ∧
        q.seq = (s.part part).jhead ∧ (q.busy = true ↔ bind = none ∧ 16 ≤ (s.dev.queue.filter fun p => p.cid == cid && p.bind.isNone).length) ∧
        (s1.part part).jhead = (s.part part).jhead + 1 ∧ j ∈ (s1.part part).journal ∧ j.seq = q.seq ∧ j.status = 0xFF ∧ j.cmd = code ∧ j.host = host ∧
        j.accept = s.time)) ∧
  (∀ (s : State) (n : Nat) (q : Queued), s.dev.queue[n]? = some q → (s.ready n = true ↔ ∀ p ∈ s.dev.queue.take n, p.host ≠ q.host ∧ p.cid ≠ q.cid)) ∧
  (∀ (s : State) (cid host : Nat) (code : Byte) (t : Word) (arg : DWord) (ws : List DWord) (q : Queued), s.dev.taking = some q →
    s.opened cid host code t arg ws = ({ s with dev := { s.dev with taking := none } }, q.seq)) ∧
  (∀ (s : State) (host p : Nat), p < 8 → s.portOf host p = true →
    exec (.unsupportedRequest host) s = .next s ∧
    ∃ t, exec (.cmdwinPostedAccess host) s = .next t ∧ t = { s with parts := t.parts } ∧ ∃ r ∈ (t.part (s.hostPart host)).ras, r.code = 0x0030 ∧ r.time = s.time) ∧
  (∀ (s : State) (cid host t : Nat), (s.ctx cid).clocks.find? (fun x => x.1 == host) = some (host, t) → (s.ctx cid).guardian host = true →
    (s.ctx cid).st ≠ .free → (s.ctx cid).st ≠ .destroyed →
    t + 2 * (s.ctx cid).lease * 1000000 < s.time ∨ t + 2 * (s.ctx cid).lease * 1000000 = s.time ∧ s.lastOfNs = true →
    exec (.leaseExpiry cid host) s = .next (s.loseHost cid host)) ∧
  (∀ (s : State) (cid h : Nat), h < 8 → (s.ctx cid).faults = [] → (s.ctx cid).st = .guarded →
    ((s.loseHost cid h).ctx cid).losth.getLsbD h = true ∧ (∀ m ∈ ((s.loseHost cid h).ctx cid).maps, m.backing = h → m.lost = true) ∧
    ((s.ctx cid).primary = h → (∀ n < 8, n ≠ h → (s.ctx cid).coguard.getLsbD n = false) →
      ((s.loseHost cid h).ctx cid).primary = 8 ∧ ((s.loseHost cid h).ctx cid).st = .orphaned)) ∧
  (∀ (s : State) (port : Nat), s.dev.portUp.getD port false = true → ∃ t, exec (.hostPortDown port) s = .next t ∧ t.dev.portUp.getD port false = false ∧
    (∀ p, p ≠ port → t.dev.portUp.getD p false = s.dev.portUp.getD p false)) ∧
  (∀ (s : State) (port : Nat), port < 8 → s.dev.portUp.getD port false = false →
    exec (.hostPortLinkUp port) s = .next { s with dev := { s.dev with portUp := s.dev.portUp.set port true } })

/-! ## Registers of the hosts, memory management -/

/-- R8, R281, R289, R302, R318, R345, R350, R358, R372, R375, R377, R378, R388: writes of host registers. A register of the administering host
ignores other hosts, a register of the primary guardian ignores others, and reserved bits and reserved values are dropped (log 34). Device time is slewed
by at most 200 ppm towards the reference, at half rate while it is more than 1 ms ahead. The model's readings: that a TIMEADJ is worked off by the
steps that follow (log 3, log 37), and the place and form of an MSI-X vector (log 60). -/
def Obligations.HostRegisters : Prop :=
  let sees (s : State) (host : Nat) : Prop := s.dev.st = .running ∧ s.hostLive host = true
  let cidOf (s : State) (host : Nat) (ctx : BitVec 10) : Nat := s.hostPart host * 1024 + ctx.toNat
  let aidOf (s : State) (host : Nat) (ast : BitVec 10) : Nat := s.hostPart host * 1024 + ast.toNat
  (∀ (s : State) (host : Nat) (ctx : BitVec 10) (v : Word), sees s host →
    let cid := cidOf s host ctx
    let c := s.ctx cid
    ((c.primary ≠ host ∨ c.st = .free) → exec (.rqreadWrite host ctx v) s = .next s) ∧
    (c.primary = host → c.st ≠ .free → (c.rq.write - v).toNat ≤ 2 ^ c.rq.log2 / 16 →
      exec (.rqreadWrite host ctx v) s = .next (s.setCtx { c with rq := { c.rq with read := v } })) ∧
    (c.primary = host → c.st ≠ .free → 2 ^ c.rq.log2 / 16 < (c.rq.write - v).toNat →
      ∃ t, exec (.rqreadWrite host ctx v) s = .next t ∧ (t.ctx cid).rq.error = true ∧ (t.ctx cid).rq.read = v) ∧
    (∀ r, c.rings.find? (fun x => x.1 == host) = some (host, r) → r.log2 ≠ 0 → exec (.evreadWrite host ctx v) s =
      .next ((s.setCtx { c with rings := assocSet host { r with read := v, error := r.error || decide (2 ^ r.log2 / 32 < (r.write - v).toNat) } c.rings }).flushEvents
        cid host (c.heldEv.length + 1)))) ∧
  (∀ (s : State) (host : Nat) (ast : BitVec 10) (v : DWord) (w : BitVec 3), sees s host →
    let aid := aidOf s host ast
    let a := s.ast aid
    let bound : Prop := (s.boundTo (s.hostPart host) ast.toNat).isSome
    let f (lo n : Nat) : Nat := v.toNat / 2 ^ lo % 2 ^ n
    (s.admin host = false → exec (.astRecordWrite host ast w v) s = .next s ∧ ∀ x, exec (.poolwrWrite host ast x) s = .next s) ∧
    (s.admin host = true →
      (bound → exec (.astRecordWrite host ast 0 v) s = .next (s.setAst (a.setMode v)) ∧ exec (.astRecordWrite host ast 3 v) s = .next s ∧
        exec (.astRecordWrite host ast 6 v) s = .next s) ∧
      (¬ bound → f 31 1 = 1 → f 16 8 = 0 → exec (.astRecordWrite host ast 0 v) s = .next s) ∧
      (¬ bound → (f 31 1 = 0 ∨ f 16 8 ≠ 0) → exec (.astRecordWrite host ast 0 v) s = .next (s.setAst { a.setMode v with
        valid := f 31 1 == 1, keyid := BitVec.ofNat 8 (f 16 8), colour := BitVec.ofNat 4 (f 12 4) })) ∧
      (¬ bound → exec (.astRecordWrite host ast 3 v) s = .next (s.setAst { a with ttroot := f 24 40 })) ∧
      (¬ bound → f 0 36 * 65536 < 2 ^ 40 → (f 43 5 = 0 ∨ 12 ≤ f 43 5 ∧ f 43 5 ≤ 26 ∧ f 0 36 * 65536 % 2 ^ f 43 5 = 0) →
        exec (.astRecordWrite host ast 6 v) s = .next (s.setAst { a with poolBase := f 0 36, poolLog2 := f 43 5 })) ∧
      (∀ x : Word, (x - a.poolRd).toNat ≤ 2 ^ a.poolLog2 / 8 → exec (.poolwrWrite host ast x) s = .next (s.setAst { a with poolWr := x })) ∧
      (∀ x : Word, 2 ^ a.poolLog2 / 8 < (x - a.poolRd).toNat → ∃ t, exec (.poolwrWrite host ast x) s = .next t ∧ (t.ast aid).poolErr = true ∧ (t.ast aid).poolWr = x)) ∧
    (a.setMode v).walk = v.getLsbD 0 ∧ (a.setMode v).fserv = v.getLsbD 1 ∧ (a.setMode v).esc = v.getLsbD 2 ∧ (a.setMode v).frel = v.getLsbD 3 ∧
    (a.setMode v).traps = v.getLsbD 4) ∧
  (∀ a : Ast, a.poolBase < 2 ^ 36 → a.poolLog2 < 32 → a.ttroot < 2 ^ 40 → bitsOf a.record 384 36 = a.poolBase ∧ bitsOf a.record 427 5 = a.poolLog2 ∧
    bitsOf a.record 432 32 = a.poolRd.toNat ∧ bitsOf a.record 464 32 = a.poolWr.toNat ∧ bitsOf a.record 216 40 = a.ttroot ∧ bitsOf a.record 16 8 = a.keyid.toNat ∧
    bitsOf a.record 12 4 = a.colour.toNat ∧ bitsOf a.record 31 1 = (if a.valid then 1 else 0) ∧ bitsOf a.record 0 1 = (if a.walk then 1 else 0) ∧
    bitsOf a.record 4 1 = (if a.traps then 1 else 0)) ∧
  (∀ (s : State) (host : Nat) (v : DWord), sees s host →
    let page := v.extractLsb' 0 12
    let ctx := v.extractLsb' 12 10
    let c := s.ctx (cidOf s host ctx)
    ∃ t, exec (.spbindWrite host v) s = .next t ∧
      (v.getLsbD 63 = false → ∀ b ∈ t.dev.binds, b.host ≠ host ∨ b.page ≠ page) ∧
      (v.getLsbD 63 = true → c.st ≠ .free → c.guardian host = true →
        t.dev.binds.find? (fun b => b.host == host && b.page == page) = some { host, page, ctx, prioMax := v.extractLsb' 32 3 }) ∧
      (v.getLsbD 63 = true → (c.st = .free ∨ c.guardian host = false) → t.dev.binds = s.dev.binds) ∧
      t.dev.lastPage.find? (fun x => x.1 == host) = some (host, page, v.getLsbD 63 && !(c.st != .free && c.guardian host))) ∧
  (∀ (s : State) (host : Nat) (ctx : BitVec 10) (v : DWord), sees s host →
    let cid := cidOf s host ctx
    let c := s.ctx cid
    let at_ (off : Nat) : Nat := 0x340000 + 64 * ctx.toNat + off
    let used : Prop := (∃ l ∈ s.launches, l.cid = cid) ∨ ∃ g ∈ s.groups, g.saved = true ∧ ∃ t, s.team g.team = some t ∧ t.cid = cid
    (c.st = .free ∨ c.primary ≠ host → ∀ (hi sz : Bool), exec (.actionTableWrite host ctx hi v) s = .next s ∧ exec (.saveMemoryWrite host ctx sz v) s = .next s ∧
      exec (.sliceWrite host ctx v) s = .next s ∧ exec (.registerWrite host (at_ 0) v) s = .next s) ∧
    (c.st ≠ .free → c.primary = host →
      exec (.actionTableWrite host ctx false v) s = .next (s.setCtx { c with actlo := actMerge 0 c.actlo v }) ∧
      exec (.actionTableWrite host ctx true v) s = .next (s.setCtx { c with acthi := actMerge 16 c.acthi v }) ∧
      (¬ used → exec (.saveMemoryWrite host ctx true v) s = .next (s.setCtx { c with saveSize := v &&& 0x000000FFFFFF0000 })) ∧
      (¬ used → (v &&& 0x000FFFFFFFFF0000).toNat < 2 ^ 40 → exec (.saveMemoryWrite host ctx false v) s = .next (s.setCtx { c with saveBase := v &&& 0x000FFFFFFFFF0000 })) ∧
      (used → ∀ sz, exec (.saveMemoryWrite host ctx sz v) s = .next s) ∧
      (100 ≤ v.toNat % 2 ^ 17 → v.toNat % 2 ^ 17 ≤ 100000 → exec (.sliceWrite host ctx v) s = .next (s.setCtx { c with slice := BitVec.ofNat 64 (v.toNat % 2 ^ 17) })) ∧
      ((v.toNat % 2 ^ 17 < 100 ∨ 100000 < v.toNat % 2 ^ 17) → exec (.sliceWrite host ctx v) s = .next s) ∧
      exec (.registerWrite host (at_ 0) v) s = .next (s.setCtx { c with hentry := v &&& 0x00FFFFFFFFFFFFFC }) ∧
      exec (.registerWrite host (at_ 8) v) s = .next (s.setCtx { c with hlane := v &&& 0x00FFFFFFFFFFFFF0 }) ∧
      exec (.registerWrite host (at_ 0x20) v) s = .next (s.setCtx { c with wdog := v }))) ∧
  (∀ (s : State) (host : Nat) (v : DWord), sees s host →
    let p := s.part (s.hostPart host)
    (s.admin host = true →
      (s.dev.timeSrc.getLsbD 3 = true → exec (.timeadjWrite host v) s = .next (s.correct (-v.toInt))) ∧
      (s.dev.timeSrc.getLsbD 3 = false → exec (.timeadjWrite host v) s = .next s) ∧
      exec (.registerWrite host 0x1000 v) s = .next { s with dev := { s.dev with timeSrc := timeSrcMerge s.dev.timeSrc v } } ∧
      exec (.registerWrite host 0x300010 v) s = .next (s.setPart { p with s2sel := v &&& 0x000000FFFFFF03FF }) ∧
      exec (.registerWrite host 0x300008 v) s = .next (s.setPart { p with relOvf := p.relOvf && !v.getLsbD 31 })) ∧
    (s.admin host = false → exec (.timeadjWrite host v) s = .next s ∧ exec (.registerWrite host 0x1000 v) s = .next s) ∧
    (v = 1 → exec (.attreqWrite host v) s = .next { s with dev := { s.dev with attest := upsert (fun x => x.1 == host) (host, false, []) s.dev.attest } }) ∧
    (v ≠ 1 → exec (.attreqWrite host v) s = .next s) ∧
    (∀ n : Nat, n < 4 → ∃ t, exec (.registerWrite host (0x10000 + 8 * n) v) s = .next t ∧ t = { s with dev := { s.dev with nonces := t.dev.nonces } } ∧
      ∀ k, k < 8 → (assoc [] host t.dev.nonces).getD (8 * n + k) 0 = (leBytes 8 v.toNat).getD k 0)) ∧
  (∀ (s : State) (ofs : Int), s.dev.st = .running → s.dev.timeSrc.getLsbD 3 = false → s.dev.timeSrc.toNat % 8 ≠ 0 →
    exec (.timeOffsetMeasure ofs) s = .next ({ s with dev := { s.dev with timeOfs := BitVec.ofInt 64 ofs } }.correct ofs)) ∧
  (∀ (s : State) (e : Int), ((-1000000 ≤ e) → s.correct e = { s with dev := { s.dev with offset := 50000 * e } }) ∧
    (e < -1000000 → (s.correct e).time = s.time + (-e).toNat ∧ (s.correct e).dev.offset = 0 ∧
      ∀ p ∈ s.parts, ∃ r ∈ ((s.correct e).part p.id).ras, r.code = 0x0031 ∧ r.info = BitVec.ofNat 32 ((-e).toNat / 1000))) ∧
  (∀ s : State, s.frac < 50000 →
    let t := s.tick
    let n := t.cycle - s.cycle
    let u : Int := (50000 * t.time + t.frac : Nat) - (50000 * s.time + s.frac : Nat)
    1 ≤ n ∧ s.time ≤ t.time ∧ t.frac < 50000 ∧
    (s.dev.offset ≤ 50000000000 → t.dev.offset.natAbs ≤ s.dev.offset.natAbs ∧ (s.dev.slowed = false → 40000 * n - 8 * n ≤ u ∧ u ≤ 40000 * n + 8 * n)) ∧
    (50000000000 < s.dev.offset → s.dev.slowed = false → u = 20000 * n) ∧ (s.dev.slowed = true → s.dev.offset = 0 → 40000 * n < u)) ∧
  (∀ (s : State) (host port vec : Nat) (v : DWord), sees s host → port < 8 → vec < 2048 →
    let off := 2 ^ 40 + port * 2 ^ 20 + 16 * vec
    let x := s.dev.vector port vec
    let y : MsixVec := { x with data := loOf v, masked := v.getLsbD 32 }
    (s.portOf host port = false → exec (.registerWrite host off v) s = .next s ∧ exec (.registerWrite host (off + 8) v) s = .next s) ∧
    (s.portOf host port = true → exec (.registerWrite host off v) s = .next { s with dev := s.dev.setVector { x with addr := v } } ∧
      (x.pending = false ∨ v.getLsbD 32 = true → exec (.registerWrite host (off + 8) v) s = .next { s with dev := s.dev.setVector y }) ∧
      (x.pending = true → v.getLsbD 32 = false → exec (.registerWrite host (off + 8) v) s =
        .next { s with dev := { s.dev.setVector { y with pending := false } with msix := s.dev.msix ++ [(port, vec)] } })) ∧
    (s.dev.portUp.getD port false = false → s.msixSend (port, vec) = s) ∧
    (s.dev.portUp.getD port false = true → x.masked = true → s.msixSend (port, vec) = { s with dev := s.dev.setVector { x with pending := true } }) ∧
    (s.dev.portUp.getD port false = true → x.masked = false → s.msixSend (port, vec) = { s with dev := { s.dev with msix := s.dev.msix ++ [(port, vec)] } })) ∧
  (∀ (s : State) (host : Nat) (bs : List Byte), s.dev.attest.find? (fun x => x.1 == host) = some (host, false, bs) →
    exec (.attestationReportReady host) s = .next { s with dev := { s.dev with attest := upsert (fun x => x.1 == host) (host, true, s.report host) s.dev.attest } }) ∧
  (∀ (s : State) (host : Nat), (s.report host).length = 256 + 384 + 16224 ∧
    (s.report host).take 32 = (assoc [] host s.dev.nonces ++ List.replicate 32 0).take 32 ∧ ((s.report host).drop 136).take 8 = leBytes 8 s.time)

/-- R314, R316, R320, R323-R325: the second stage. A write of S2DATA is checked, waits for the releases queued before it, then changes the entry; a
frame release discards the granule's lines, makes its frame read zero and unmaps it; arming a key makes every line written under its old generation
fail. The model's readings: a write of another host of the partition has no effect (log 37), and a generation number stands for a key, so a line
written under an older one always fails its check (log 7). -/
def Obligations.MemoryManagement : Prop :=
  let sees (s : State) (host : Nat) : Prop := s.dev.st = .running ∧ s.hostLive host = true
  (∀ (s : State) (host : Nat) (v : DWord), sees s host →
    let pt := s.part (s.hostPart host)
    let gran := pt.s2sel.toNat / 2 ^ 16 % 2 ^ 24
    let aid := s.hostPart host * 1024 + pt.s2sel.toNat % 2 ^ 10
    let frame := v.toNat / 2 ^ 16 % 2 ^ 22
    let bad : Prop := v.toNat / 2 ^ 38 ≠ 0 ∨ v.toNat / 4 % 2 ^ 14 ≠ 0 ∨ frame / 2 ^ 16 % 16 = 15 ∨ pt.dies.contains (gpaHome (gran * 65536)) = false
    (s.admin host = false → exec (.s2dataWrite host v) s = .next s ∧ exec (.freleaseWrite host v) s = .next s ∧ exec (.keyarmWrite host v) s = .next s) ∧
    (s.admin host = true →
      (pt.s2busy.isSome → exec (.s2dataWrite host v) s = .next s) ∧
      (pt.s2busy = none → bad → exec (.s2dataWrite host v) s = .next (s.setPart { pt with s2res := 2 })) ∧
      (pt.s2busy = none → ¬ bad → ((∀ e, s.s2find aid (gran * 65536) = some e → v.getLsbD 0 = true ∧ e.frame = frame) ∨ (s.ast aid).frel = true) →
        s.s2Tables (gpaHome (gran * 65536)) + 2 ≤ 65536 → exec (.s2dataWrite host v) s = .next (s.setPart { pt with
          s2busy := some { aid, gran, left := pt.releases.length, entry := if v.getLsbD 0 then some (frame, v.getLsbD 1) else none } })) ∧
      (∀ e, pt.s2busy = none → ¬ bad → s.s2find aid (gran * 65536) = some e → (v.getLsbD 0 = false ∨ e.frame ≠ frame) → (s.ast aid).frel = false →
        s.s2Tables (gpaHome (gran * 65536)) + 2 ≤ 65536 → exec (.s2dataWrite host v) s = .next (s.setPart { pt with
          releases := pt.releases ++ [{ aid, gran }]
          s2busy := some { aid, gran, left := pt.releases.length + 1, entry := if v.getLsbD 0 then some (frame, v.getLsbD 1) else none } })) ∧
      (pt.releases.length < 64 → exec (.freleaseWrite host v) s = .next (s.setPart { pt with
        releases := pt.releases ++ [{ aid := s.hostPart host * 1024 + v.toNat % 2 ^ 10, gran := v.toNat / 2 ^ 16 % 2 ^ 24 }] })) ∧
      (64 ≤ pt.releases.length → exec (.freleaseWrite host v) s = .next (s.setPart { pt with relOvf := true })) ∧
      (1 ≤ v.toNat → v.toNat ≤ 255 → exec (.keyarmWrite host v) s =
        .next (s.setPart { pt with keygen := assocSet v.toNat (assoc 0 v.toNat pt.keygen + 1) pt.keygen })) ∧
      ((v = 0 ∨ 255 < v.toNat) → exec (.keyarmWrite host v) s = .next s))) ∧
  (∀ (s : State) (p : Nat) (w : S2Write), (s.part p).s2busy = some w → w.left = 0 →
    ∃ t, exec (.s2WriteComplete p) s = .next t ∧ (t.part (s.part p).id).s2busy = none ∧ (t.part (s.part p).id).s2res = 0 ∧
      (∀ f wr, w.entry = some (f, wr) → t.s2find w.aid (w.gran * 65536) =
        some { aid := w.aid, die := gpaHome (w.gran * 65536), gran := gpaGran (w.gran * 65536), frame := f, w := wr }) ∧
      (w.entry = none → t.s2find w.aid (w.gran * 65536) = none) ∧
      (∀ aid gpa, aid ≠ w.aid ∨ gpaHome gpa ≠ gpaHome (w.gran * 65536) ∨ gpaGran gpa ≠ gpaGran (w.gran * 65536) → t.s2find aid gpa = s.s2find aid gpa)) ∧
  (∀ (s : State) (p : Nat) (r : Release) (rest : List Release), (s.part p).releases = r :: rest → (∀ w, (s.part p).s2busy = some w → w.left ≠ 0) → (s.part p).id = p →
    ∃ t, exec (.frameReleaseComplete p) s = .next t ∧ (t.part p).releases = rest ∧ (t.part p).relDone = (s.part p).relDone + 1 ∧
      t.s2find r.aid (r.gran * 65536) = none ∧
      (∀ c ∈ t.chipMeta, lineAid c.line ≠ r.aid ∨ lineGpa c.line / 65536 ≠ r.gran) ∧ (∀ x ∈ t.l1, lineAid x.line ≠ r.aid ∨ lineGpa x.line / 65536 ≠ r.gran) ∧
      (∀ d ∈ t.dir, lineAid d.line ≠ r.aid ∨ lineGpa d.line / 65536 ≠ r.gran) ∧
      (∀ e, s.s2find r.aid (r.gran * 65536) = some e → r.gran < 2 ^ 24 → ∀ n, n < 512 → (t.metaOf (e.hpa (r.gran * 65536) / 128 + n)).keyid = 0)) ∧
  (∀ (s : State) (aid gpa : Nat) (e : S2Entry), s.onChip aid gpa = false → isHostGpa gpa = false → s.s2find aid gpa = some e →
    let m := s.metaOf (e.hpa gpa / 128)
    (m.uncorr = false → m.keyid ≠ (s.ast aid).keyid → s.readByte aid gpa = 0 ∧ s.fillFault aid gpa false = none) ∧
    (m.uncorr = false → m.keyid = (s.ast aid).keyid → m.keygen ≠ s.keyGen (partOfId aid) m.keyid → s.fillFault aid gpa false = some (.integrity, false)) ∧
    (m.uncorr = true → s.fillFault aid gpa false = some (.uncorr, false)) ∧ (e.w = false → s.fillFault aid gpa true = some (.prot, true))) ∧
  (∀ (s : State) (aid gpa : Nat) (w : Bool), s.onChip aid gpa = false → isHostGpa gpa = false → s.s2find aid gpa = none → s.fillFault aid gpa w = some (.page, true))

/-- R199, R211-R213, R308-R313, R322, R327, R328: translation and fills. The walk reads an entry at each level; a valid leaf fills the TLB of the
core; a miss under WALK is asked of the primary guardian; a demand page takes a zeroed granule of the pool; a peer page is copied here; a line is
filled from HBM; peers and hosts reach memory. The model's readings: which entry a full TLB drops, and that a failed answer is kept for one access (log
26); that what comes from peers and hosts, and what their memory holds, is one event (log 22). -/
def Obligations.TranslationAndFills : Prop :=
  (∀ (s : State) (core cid : Nat) (va : DWord) (l : Leaf), core ≤ 384 → (s.ctx cid).st ≠ .free → va.toNat < 2 ^ 56 →
    s.tlbFind core (s.ctx cid).aid va.toNat = none → s.walkVa (s.ctx cid).aid va.toNat = .leaf l → l.base ≤ va.toNat → va.toNat < l.base + l.size →
    ∃ t, exec (.pageWalk core cid va) s = .next t ∧ t = { s with tlb := t.tlb } ∧ t.tlbFind core (s.ctx cid).aid va.toNat = some
      { core, aid := (s.ctx cid).aid, va := l.base, size := l.size, gpa := l.gpa, r := l.r, w := l.w, x := l.x, kind := l.kind, high := l.own, lost := l.lost }) ∧
  (∀ (s : State) (core cid : Nat) (va : DWord), core ≤ 384 → (s.ctx cid).st ≠ .free → va.toNat < 2 ^ 56 → s.tlbFind core (s.ctx cid).aid va.toNat = none →
    s.walkVa (s.ctx cid).aid va.toNat = .invalid → (s.ast (s.ctx cid).aid).walk = true → (s.ctx cid).primary ≠ 8 →
    (∀ q ∈ s.ats, q.2.1 ≠ core ∨ q.2.2.1 ≠ cid ∨ q.2.2.2.toNat / 4096 ≠ va.toNat / 4096) →
    exec (.pageWalk core cid va) s = .next { s with ats := s.ats ++ [(s.nextId + 1, core, cid, va)], nextId := s.nextId + 1 }) ∧
  (∀ (s : State) (id core cid : Nat) (va : DWord), id ≠ 0 → s.ats.find? (fun q => q.1 == id && id != 0) = some (id, core, cid, va) →
    exec (.atsTranslationCompletion id none) s = .next { s with ats := (0, core, cid, va) :: s.ats.filter fun p => p.1 != id } ∧
    ∀ x : AtsAnswer, x.size ∈ [4096, 65536, 2097152, 1073741824] → ∃ t, exec (.atsTranslationCompletion id (some x)) s = .next t ∧
      t.ats = s.ats.filter (fun p => p.1 != id) ∧ ∃ e, t.tlbFind core (s.ctx cid).aid va.toNat = some e ∧ e.kind = 0 ∧ e.r = x.r ∧ e.w = x.w ∧ e.x = x.x ∧
        e.gpa = x.gpa / x.size * x.size ∧ e.va = va.toNat / x.size * x.size) ∧
  (∀ (s : State) (host : Nat) (ctx : BitVec 10) (va : DWord) (len : Nat), host < 8 → (s.ctx (s.hostPart host * 1024 + ctx.toNat)).st ≠ .free →
    (s.ctx (s.hostPart host * 1024 + ctx.toNat)).primary = host → ∃ t, exec (.atsInvalidationRequest host ctx va len) s = .next t ∧ t = { s with tlb := t.tlb } ∧
      ∀ e, e ∈ t.tlb ↔ e ∈ s.tlb ∧ ¬ (e.aid = (s.ctx (s.hostPart host * 1024 + ctx.toNat)).aid ∧ e.va < va.toNat + len ∧ va.toNat < e.va + e.size)) ∧
  (∀ (s s1 : State) (cid g : Nat) (va : DWord) (l : Leaf), s.servable (s.ctx cid).aid va.toNat 3 = some l →
    s.poolTake (s.ctx cid).aid (s.poolFuel (s.ctx cid).aid) = (s1, some g) →
    exec (.demandFill cid va) s = .next (s1.backRun (s.ctx cid).aid l g)) ∧
  (∀ (s s1 : State) (cid g : Nat) (va : DWord) (l : Leaf), s.servable (s.ctx cid).aid va.toNat 1 = some l → s.peerLink (partOfId (s.ctx cid).aid) = true →
    s.poolTake (s.ctx cid).aid (s.poolFuel (s.ctx cid).aid) = (s1, some g) →
    exec (.migration cid va) s = .next ((s1.writeBytes (s.ctx cid).aid g (s1.peerMem.getAll (l.own * 2 ^ 52 + l.gpa) 65536)).backRun (s.ctx cid).aid l g)) ∧
  (∀ (s : State) (aid va kind : Nat) (l : Leaf), s.servable aid va kind = some l ↔
    s.walkVa aid va = .leaf l ∧ l.kind = kind ∧ l.cont = true ∧ (s.ast aid).fserv = false ∧ (s.ast aid).poolHas = true) ∧
  (∀ (s : State) (aid gpa : Nat) (write : Bool), gpa < 2 ^ 40 → s.MemWf → s.onChip aid gpa = false →
    (s.fillFault aid gpa write = none → ∃ t, exec (.hbmFill (lineOf aid gpa) write) s = .next t ∧ t.onChip aid gpa = true ∧
      ∀ x y, y < 2 ^ 52 → t.readByte x y = s.readByte x y) ∧
    (∀ c st, s.fillFault aid gpa write = some (c, st) → ∃ t, exec (.hbmFill (lineOf aid gpa) write) s = .next t ∧ t = { s with parts := t.parts })) ∧
  (∀ (s : State) (ast : BitVec 10) (gpa n : Nat) (bs : List Byte) (p : Part), s.parts.find? (fun p => p.dies.contains (gpaHome gpa)) = some p → s.peerLink p.id = true →
    0 < n → gpa + n ≤ 2 ^ 40 → bs.length = n →
    ((∀ k, (s.fillFault (p.id * 1024 + ast.toNat) (min (gpa + 128 * k) (gpa + n - 1)) false) = none) →
      exec (.peerTransferRequest (.read ast gpa n)) s = .next { s with dev := { s.dev with answers := s.dev.answers ++
        [(gpa, (List.range n).map fun k => s.readByte (p.id * 1024 + ast.toNat) (gpa + k))] } }) ∧
    ((∀ k, (s.fillFault (p.id * 1024 + ast.toNat) (min (gpa + 128 * k) (gpa + n - 1)) true) = none) →
      exec (.peerTransferRequest (.write ast gpa bs)) s =
        .next (s.storeAway (((List.range n).zip bs).map fun q => (Loc.glob (p.id * 1024 + ast.toNat) (gpa + q.1), q.2))))) ∧
  (∀ (s : State) (peer : BitVec 12) (addr : Nat) (bs : List Byte), addr + bs.length ≤ 2 ^ 52 →
    exec (.peerTransferRequest (.home peer addr bs)) s = .next { s with peerMem := s.peerMem.setAll (peer.toNat * 2 ^ 52 + addr) bs }) ∧
  (∀ (s : State) (host addr : Nat) (bs : List Byte), host < 8 → addr + bs.length ≤ 2 ^ 64 →
    ∃ t, exec (.cxlMemCompletion (.hostWrite host addr bs)) s = .next t ∧
      t = { s with hostMem := s.hostMem.setAll (host * 2 ^ 64 + addr) bs, dev := { s.dev with poisoned := t.dev.poisoned } } ∧
      ∀ x, x ∈ t.dev.poisoned ↔ x ∈ s.dev.poisoned ∧ (128 * x + 128 ≤ 2 ^ 51 + host * 2 ^ 48 + addr ∨ 2 ^ 51 + host * 2 ^ 48 + addr + bs.length ≤ 128 * x)) ∧
  (∀ (s : State) (host : Nat) (ast : BitVec 10) (gpa : Nat) (bs : List Byte), s.dev.st = .running → s.hostLive host = true → bs ≠ [] →
    gpa + bs.length ≤ 2 ^ 40 → (s.part (s.hostPart host)).dies.contains (gpaHome gpa) = true →
    let aid := (s.part (s.hostPart host)).id * 1024 + ast.toNat
    (∀ k, s.fillFault aid (min (gpa + 128 * k) (gpa + bs.length - 1)) true = none) →
    exec (.cxlMemCompletion (.deviceWrite host ast gpa bs)) s = .next (s.storeAway (((List.range bs.length).map fun n => Loc.glob aid (gpa + n)).zip bs))) ∧
  (∀ (s : State) (aid gpa : Nat), isHostGpa gpa = true → s.onChip aid gpa = false → s.readByte aid gpa = s.hostMem.get (gpaHost gpa * 2 ^ 64 + gpaBus gpa)) ∧
  (∀ (s : State) (line : Nat), isHostGpa (lineGpa line) = true → s.hostLive (gpaHost (lineGpa line)) = true →
    (s.chipLine line = none → exec (.cxlMemCompletion (.readDone line)) s = .next (s.fill (lineAid line) (lineGpa line))) ∧
    ((s.chipLine line).isSome → exec (.cxlMemCompletion (.writeDone line)) s = .next (s.writeBack line)))

/-! ## Coherence -/

/-- R330-R332, R335-R337, R339, R341, R343: the messages of a die. A message moves states of L1 lines and directory entries; the value of a byte is one
for the device (log 8). A request that must wait asks for what it waits for and raises itself again, ahead of later ones; one that brings a line in makes
room first, and asks for the write-back of a dirty line that must go (`u` is the machine with room). An atomic of the slice performs for the instruction
that waits for it. A home that waits for a die's answer takes the die's WB as that answer. A message over a closed link is dropped and counted. -/
def Obligations.DieMessages : Prop :=
  let dirty (x : LState) : Prop := x = .M ∨ x = .O
  let held (e : DirEntry) : Prop := e.st = .E ∨ e.st = .M
  let open_ (s : State) (src dst : Nat) : Prop := src = dst ∨ (dst, src) ∉ s.dev.fwclosed
  let once (s : State) (die line : Nat) (m : Ev) : State := if s.asking die line then s else s.post m
  let invs (die line : Nat) (e : DirEntry) : List Ev := ((List.range 24).filter fun q => e.shares.getLsbD q).map fun q => Ev.qinv die line q
  (∀ (s u1 u : State) (core line : Nat), core < 384 → s.l1Room core line = .ok u1 → u1.dieRoom (dieOf core) line = .ok u →
    let die := dieOf core
    let e := u.dirOf die line
    let me := core % 96
    (s.l1St core line = .I →
      (held e → e.owner ≠ me → exec (.gets core line) s = .next ((u.post (.qfwdS die line (die * 96 + e.owner))).repost (.gets core line))) ∧
      (e.st = .O → e.owner ≠ me → exec (.gets core line) s =
        .next ((((u.hold line).setL1 core line .S).setDir (e.share core)).post (.qfwdS die line (die * 96 + e.owner)))) ∧
      (¬ (held e ∧ e.owner ≠ me) → ¬ (e.st = .O ∧ e.owner ≠ me) →
        (e.gst = .I → exec (.gets core line) s = .next ((once u die line (.rds die line)).repost (.gets core line))) ∧
        (e.st = .I → (e.gst = .E ∨ e.gst = .M) → exec (.gets core line) s =
          .next (((u.hold line).setL1 core line .E).setDir { e with st := .E, owner := me, l2 := true })) ∧
        (e.gst ≠ .I → ¬ (e.st = .I ∧ (e.gst = .E ∨ e.gst = .M)) → exec (.gets core line) s =
          .next (((u.hold line).setL1 core line .S).setDir { (e.share core) with st := .S, owner := 127, l2 := true })))) ∧
    (s.l1St core line ∈ [LState.I, .S, .O] → ∀ m ∈ [Ev.getx core line, Ev.upgr core line], ∀ i, (m = .getx core line → i = Instr.getx core line) →
      (m = .upgr core line → i = .upgr core line) →
      ((e.gst ≠ .E ∧ e.gst ≠ .M) → exec i s = .next ((once u die line (.rdx die line)).repost m)) ∧
      (e.gst = .E ∨ e.gst = .M → (e.shares ≠ 0 ∨ (e.owner ≠ 127 ∧ e.owner ≠ me)) → exec i s = .next ((u.posts (invs die line e ++
        (if e.owner ≠ 127 ∧ e.owner ≠ me then [.qfwdX die line (die * 96 + e.owner)] else []))).repost m)) ∧
      (e.gst = .E ∨ e.gst = .M → e.shares = 0 → (e.owner = 127 ∨ e.owner = me) → exec i s =
        .next (((u.hold line).setL1 core line .M).setDir { e with st := .M, owner := me, gst := .M, shares := 0, l2 := true })))) ∧
  (∀ (s : State) (core line : Nat) (v : Ev), core < 384 → (s.l1Room core line = .error v ∨ s.l1Room core line = .ok s ∧ s.dieRoom (dieOf core) line = .error v) →
    (s.l1St core line = .I → exec (.gets core line) s = .next ((s.post v).repost (.gets core line)) ∧ exec (.getx core line) s = .next ((s.post v).repost (.getx core line)))) ∧
  (∀ (s : State) (core line : Nat), core < 384 →
    let die := dieOf core
    let e := s.dirOf die line
    (∀ u, dirty (s.l1St core line) → s.dieRoom die line = .ok u → dirty (u.l1St core line) →
      exec (.putd core line) s = .next ((u.setL1 core line .I).setDir { ((u.dirOf die line).disown) with l2 := true })) ∧
    (∀ c, s.l1St core line = .P → s.chipLine line = some c → c.dirty = true → exec (.wbp core line) s = .next ((s.setL1 core line .I).retireLine line)) ∧
    (∀ (off : Nat) (op : AtomOp) (ty : Ty) (x y : DWord) (sc : BitVec 5), 2 ≤ sc.toNat → sc.toNat < 7 → off % (if ty.is64 then 8 else 4) = 0 → off < 128 →
      (4 ≤ sc.toNat → exec (.atom core line off op ty x y sc) s = .next (s.post (.rda die line off op ty x y))) ∧
      (sc.toNat < 4 → e.gst ≠ .M → exec (.atom core line off op ty x y sc) s =
        .next ((once s die line (.rdx die line)).repost (.atom core line off op ty x y sc))) ∧
      (sc.toNat < 4 → e.gst = .M → (e.shares ≠ 0 ∨ e.owner ≠ 127) → exec (.atom core line off op ty x y sc) s = .next ((s.posts (invs die line e ++
        (if e.owner ≠ 127 then [.qfwdX die line (die * 96 + e.owner)] else []))).repost (.atom core line off op ty x y sc))) ∧
      (sc.toNat < 4 → e.gst = .M → e.shares = 0 → e.owner = 127 → s.fillFault (lineAid line) (lineGpa line) true = none →
        exec (.atom core line off op ty x y sc) s = .next ((s.atomicAt (fun c => c == core) false line off op ty x y).1.setDir { e with st := .I, owner := 127, gst := .M, l2 := true })))) ∧
  (∀ (s : State) (die line : Nat), die < 4 →
    (∀ q, q < 24 → ∃ t, exec (.qinv die line q) s = .next t ∧ (t.dirOf die line).shares.getLsbD q = false ∧
      ∀ x, x ∈ t.l1 ↔ x ∈ s.l1 ∧ ¬ (x.line = line ∧ dieOf x.core = die ∧ quadOf x.core = q ∧ (x.st = .S ∨ x.st = .E))) ∧
    (∀ core, dieOf core = die → exec (.qfwdS die line core) s = .next (s.forwardS die line core).1 ∧ exec (.qfwdX die line core) s = .next (s.forwardX die line core).1) ∧
    (open_ s (s.lineHome line) die →
      (Ev.wb die line ∉ s.work → exec (.snps die line) s = .next ((s.snoop die line false).1.post (.srsp die line false (s.snoop die line false).2)) ∧
        exec (.snpx die line) s = .next ((s.snoop die line true).1.post (.srsp die line true (s.snoop die line true).2))) ∧
      (Ev.wb die line ∈ s.work → exec (.snps die line) s = .next (s.post (.srsp die line false .miss)) ∧
        exec (.snpx die line) s = .next (s.post (.srsp die line true .miss))) ∧
      exec (.wback die line) s = .next s ∧ (∀ old, exec (.adone die line old) s = .next s)) ∧
    (¬ open_ s (s.lineHome line) die → ∀ m ∈ [Instr.snps die line, .snpx die line, .wback die line, .adone die line 0], exec m s = .next (s.fwDrop die)) ∧
    (¬ open_ s die (s.lineHome line) → dirty (s.dirOf die line).gst → exec (.wb die line) s = .next (s.fwDrop (s.lineHome line))) ∧
    (dirty (s.dirOf die line).gst → open_ s die (s.lineHome line) →
      ((∀ t ∈ s.txns, t.line ≠ line) → exec (.wb die line) s = .next ((s.giveUp die line).post (.wback die line))) ∧
      (∀ t ∈ s.txns, t.line = line → (∀ t ∈ s.txns, t.line = line → die ∉ t.waiting) → exec (.wb die line) s = .next (s.repost (.wb die line))) ∧
      (∀ t, s.txns.find? (fun t => t.line == line && t.waiting.contains die) = some t → exec (.wb die line) s =
        .next (((({ s with work := s.work.filter fun m => m ∉ [Ev.srsp die line t.excl .miss, .snps die line, .snpx die line] } : State).giveUp die line).answered
          t die .dirty).post (.wback die line)))) ∧
    (let s1 := (s.snoop die line true).1.writeBack line;
      (∀ r, s1.regionOf (s.lineHome line) line = some r →
        s.giveUp die line = (if r.k = 9 then s1.setRegion (r.mark die 0) else s1).retireLine line) ∧
      (s1.regionOf (s.lineHome line) line = none → s.giveUp die line = s1.retireLine line)) ∧
    (∀ g t u, t ∈ s.txns → t.line = line → t.asker = die → t.waiting = [] → open_ s (s.lineHome line) die → s.dieRoom die line = .ok u →
      let s1 := { u with txns := u.txns.filter fun t => !(t.line == line && t.asker == die) }
      exec (.gnt die line g) s = .next ((s1.hold line).setDir { (s1.dirOf die line) with gst := (match g with | .s => .S | .e => .E | .m => .M), l2 := true }))) ∧
  (∀ (s : State) (die line core : Nat), core < 384 →
    let e := s.dirOf die line
    (dirty (s.l1St core line) → s.forwardS die line core = ((s.setL1 core line .O).setDir { e with st := .O, l2 := true }, .dirty)) ∧
    (s.l1St core line = .E → s.forwardS die line core = ((s.setL1 core line .S).setDir { (e.share core) with st := .S, owner := 127 }, .clean)) ∧
    (s.l1St core line = .S → s.forwardS die line core = (s, .clean)) ∧ 
    (s.l1St core line = .I ∨ s.l1St core line = .P → s.forwardS die line core =
      (if e.owner = core % 96 then s.setDir { e with st := .S, owner := 127 } else s, .miss)) ∧
    (dirty (s.l1St core line) → (s.forwardX die line core).2 = .dirty ∧ (s.forwardX die line core).1.l1St core line = .I) ∧
    (s.l1St core line = .E ∨ s.l1St core line = .S → (s.forwardX die line core).2 = .clean ∧ (s.forwardX die line core).1.l1St core line = .I)) ∧
  (∀ (s : State) (die line : Nat),
    let e := s.dirOf die line
    (s.snoop die line true).1.dirOf die line = { die, line } ∧ (e.gst = .I → (s.snoop die line true).2 = .miss ∧ (s.snoop die line false).2 = .miss) ∧
    (dirty e.gst → (s.snoop die line true).2 = .dirty ∧ (s.snoop die line false).2 = .dirty ∧ ((s.snoop die line false).1.dirOf die line).gst = .O) ∧
    (e.owner = 127 → e.gst = .S ∨ e.gst = .E → (s.snoop die line true).2 = .clean ∧ (s.snoop die line false).2 = .clean ∧
      ((s.snoop die line false).1.dirOf die line).gst = .S))

/-- R196, R333, R334, R336, R337, R339, R340, R342, R343: the messages at a home. A request makes the region's entry, splits it before it snoops another
die, snoops, and ends with a grant (S when another die keeps the line, E when none has it, M for RDX); back-invalidation frees an entry; quiet halves
merge; an entry lost to an error is recalled; a message over a closed link is dropped and counted. The model's readings: one value for the device, and
the entry that a home makes for a line that none covers (log 8); the set of an entry and which one a full set gives up (log 24). -/
def Obligations.HomeMessages : Prop :=
  let open_ (s : State) (src dst : Nat) : Prop := src = dst ∨ (dst, src) ∉ s.dev.fwclosed
  (∀ (s : State) (die line : Nat) (m : Ev) (i : Instr) (excl : Bool) (at_ : Option (Nat × AtomOp × Ty × DWord × DWord)), die < 4 →
    (m = .rds die line ∧ i = .rds die line ∧ excl = false ∧ at_ = none ∨ m = .rdx die line ∧ i = .rdx die line ∧ excl = true ∧ at_ = none ∨
      ∃ off op ty x y, off < 128 ∧ m = .rda die line off op ty x y ∧ i = .rda die line off op ty x y ∧ excl = true ∧ at_ = some (off, op, ty, x, y)) →
    let home := s.lineHome line
    let ask (ts : List Nat) : List Ev := ts.map fun d => if excl then Ev.snpx d line else Ev.snps d line
    let txn (ts : List Nat) : Txn := { home, line, asker := die, excl, atomic := at_, waiting := ts }
    (¬ open_ s die home → exec i s = .next (s.fwDrop home)) ∧
    (open_ s die home → s.rangeBusy line 1 = true → exec i s = .next (s.repost m)) ∧
    (open_ s die home → s.rangeBusy line 1 = false →
      (s.regionOf home line = none → (s.regions.filter fun r => r.home == home && r.row == lineGpa line / 65536 % 8192).length < 16 → exec i s =
        .next ({ s with regions := s.newRegion home line :: s.regions }.repost m)) ∧
      (∀ r, s.regionOf home line = some r →
        let ts := snoopTargets r die excl at_.isSome
        (ts = [] → exec i s = .next ({ s with txns := txn [] :: s.txns }.finishTxn (txn []))) ∧
        (ts ≠ [] → ((∀ d ∈ ts, d = home ∨ d = die) ∨ 9 ≤ r.k) → exec i s = .next ({ s with txns := txn ts :: s.txns }.posts (ask ts))) ∧
        ((∃ d ∈ ts, d ≠ home ∧ d ≠ die) → r.k < 9 → s.rangeBusy r.base r.lines = false → (s.regions.filter fun q => q.home == home && q.row == r.row).length < 16 →
          exec i s = .next ({ s.splitRegion r with txns := txn ts :: (s.splitRegion r).txns }.posts (ask ts)))))) ∧
  (∀ (s : State) (home line : Nat), s.regionOf home line = none →
    let b := line / 512 * 512
    let apart (q : RegionEntry) (base n : Nat) : Prop := q.base + q.lines ≤ base ∨ base + n ≤ q.base
    let r := s.newRegion home line
    ((∀ q ∈ s.regions, q.home = home → apart q b 512) → r = { home, k := 0, sts := [0, 0, 0, 0], aid := lineAid line, since := s.cycle, base := b }) ∧
    r.base ≤ line ∧ line < r.base + r.lines ∧ r.sts = [0, 0, 0, 0] ∧ ∀ q ∈ s.regions, q.home = home → apart q r.base r.lines) ∧
  (∀ (r : RegionEntry) (asker d : Nat) (excl atomic : Bool), d ∈ snoopTargets r asker excl atomic ↔ d < 4 ∧
    (d = r.home ∧ (asker ≠ r.home ∨ atomic = true) ∨ d ≠ r.home ∧ (atomic = true ∨ d ≠ asker) ∧ (r.sts.getD d 0 = 2 ∨ excl = true ∧ r.sts.getD d 0 = 1))) ∧
  (∀ (s : State) (r : RegionEntry), r ∈ s.regions → r.k < 9 → ∀ q ∈ (s.splitRegion r).regions, (q.same r = false → q ∈ s.regions) ∨ q = { r with k := r.k + 1 } ∨
    q = { r with k := r.k + 1, base := r.base + r.lines / 2 }) ∧
  (∀ (s : State) (t : Txn), t.atomic = none → (t.dirty ≠ [] ∨ s.fillFault (lineAid t.line) (lineGpa t.line) false = none) →
    let u := { s with txns := t :: s.txns.filter fun u => !(u.home == t.home && u.line == t.line) }
    let g : Grant := if t.excl then .m else if t.dirty = [] ∧ t.clean = false then .e else .s
    (s.regionOf t.home t.line = none → s.finishTxn t = u.post (.gnt t.asker t.line g)) ∧
    (∀ r, s.regionOf t.home t.line = some r → s.finishTxn t =
      (u.setRegion { (r.mark t.asker (if r.k = 9 then (if g = .s then 1 else 2) else max (if g = .s then 1 else 2) (r.sts.getD t.asker 0))) with since := s.cycle }).post (.gnt t.asker t.line g))) ∧
  (∀ (s : State) (t : Txn) (off : Nat) (op : AtomOp) (ty : Ty) (x y : DWord), t.atomic = some (off, op, ty, x, y) →
    (t.dirty ≠ [] ∨ s.fillFault (lineAid t.line) (lineGpa t.line) true = none) →
    let a := { s with txns := s.txns.filter fun u => !(u.home == t.home && u.line == t.line) }.atomicAt (fun c => dieOf c == t.asker) true t.line off op ty x y
    let u := a.1.clearWay t.home t.line 3
    let d : DirEntry := { (u.dirOf t.home t.line) with st := .I, owner := 127, gst := .M, l2 := true }
    (u.regionOf t.home t.line = none → s.finishTxn t = (u.setDir d).post (.adone t.asker t.line a.2)) ∧
    (∀ r, u.regionOf t.home t.line = some r → s.finishTxn t =
      ((u.setRegion { (r.mark t.asker (if r.k = 9 then 0 else max 0 (r.sts.getD t.asker 0))) with since := u.cycle }).setDir d).post (.adone t.asker t.line a.2))) ∧
  (∀ (s : State) (t : Txn) (c : Cause) (two : Bool), t.dirty = [] → s.fillFault (lineAid t.line) (lineGpa t.line) t.atomic.isSome = some (c, two) →
    ∃ u : State, s.finishTxn t = u.fillRas t.line c ∧ u = { s with txns := u.txns, work := u.work } ∧ (∀ x ∈ u.txns, x.home ≠ t.home ∨ x.line ≠ t.line) ∧
      ∀ core, dieOf core = t.asker → Ev.gets core t.line ∉ u.work ∧ Ev.getx core t.line ∉ u.work ∧ Ev.upgr core t.line ∉ u.work) ∧
  (∀ (s : State) (die line n : Nat), (∀ u, s.dieRoom die line = .ok u → s.clearWay die line (n + 1) = u) ∧
    (∀ d v, s.dieRoom die line = .error (.wb d v) → s.clearWay die line (n + 1) = (s.giveUp d v).clearWay die line n)) ∧
  (∀ (s : State) (from_ : Nat → Bool) (home : Bool) (line off : Nat) (op : AtomOp) (ty : Ty) (x y : DWord),
    let ws := ((s.groups.filter fun g => from_ g.core && !g.saved).flatMap fun g => g.waiters home line off op ty x y) ++
      (s.teams.filter fun t => from_ t.core).flatMap fun t => t.waiters home line off op ty x y
    (ws = [] → s.atomicAt from_ home line off op ty x y = (s, 0)) ∧
    (∀ t ls v rest, ws = .mrel t ls v :: rest →
      let r := s.atomStep (s.teamWho t).aid 0 false false ls (atomWord .add ty (v.zeroExtend 64) 0)
      s.atomicAt from_ home line off op ty x y = (r.1.onStream t.tid fun st => { st with adding := none, added := true }, r.2)) ∧
    (∀ w ∈ ws, (∃ g l a, w = .load g l a ∧ l ∈ g.loads ∧ l.atom = some a ∧ (if home then 4 ≤ a.scope.toNat else 2 ≤ a.scope.toNat ∧ a.scope.toNat < 4)) ∨
      (∃ g e z nr ctl, w = .lane g e z nr ctl ∧ e ∈ g.olog ∧ z ∈ e.lanes ∧ (if home then 4 ≤ ctl.scope.toNat else 2 ≤ ctl.scope.toNat ∧ ctl.scope.toNat < 4)) ∨
      ∃ t ls v, w = .mrel t ls v) ∧
    (∀ g l a rest, ws = .load g l a :: rest →
      let r := s.atomStep (s.who g).aid l.scope l.acq a.rel l.locs a.new
      s.atomicAt from_ home line off op ty x y = (r.1.setGroup { g with loads := g.loads.map fun m => if m.seq == l.seq then { m with value := some r.2 } else m }, r.2)) ∧
    (∀ g e z nr ctl rest, ws = .lane g e z nr ctl :: rest →
      let r := s.atomStep (s.who g).aid (ctl.scope.zeroExtend 5) (acquires ctl.order) (releases ctl.order) z.locs (atomWord op ty z.opA z.opB)
      s.atomicAt from_ home line off op ty x y =
        (r.1.settle g { e with lanes := e.lanes.map fun (q : LaneEntry) => if q.lane == z.lane then z.atomDone nr ty r.2 else q }, r.2))) ∧
  (∀ (s : State) (die line : Nat) (excl : Bool) (r : Resp) (t : Txn), s.txns.find? (fun t => t.line == line && t.excl == excl && t.waiting.contains die) = some t →
    let u : Txn := { t with
      waiting := t.waiting.filter fun d => d != die, dirty := (if r = .dirty then die :: t.dirty else t.dirty), clean := t.clean || decide (r = .clean) }
    let s0 := match s.regionOf t.home line with
      | some q => if q.k = 9 then s.setRegion (q.mark die (if excl then 0 else match r with | .dirty => 2 | .clean => 1 | .miss => 0)) else s
      | none => s
    let s1 := { s0 with txns := s0.txns.map fun (x : Txn) => if x.home = t.home ∧ x.line = line then u else x }
    (¬ open_ s die t.home → exec (.srsp die line excl r) s = .next (s.fwDrop t.home)) ∧
    (open_ s die t.home → (r = .miss → Ev.wb die line ∈ s.work → exec (.srsp die line excl r) s = .next (s.repost (.srsp die line excl r))) ∧
      (r ≠ .miss ∨ Ev.wb die line ∉ s.work →
        (u.waiting ≠ [] → exec (.srsp die line excl r) s = .next s1) ∧ (u.waiting = [] → exec (.srsp die line excl r) s = .next (s1.finishTxn u))))) ∧
  (∀ (s : State) (die base size line : Nat), die < 4 →
    (open_ s (s.lineHome base) die → ∃ t, exec (.rginv die base size) s = .next t ∧ Ev.rgack die base size ∈ t.work ∧
      ∀ e ∈ s.dir, e.die = die → base ≤ e.line → e.line < base + size → t.dirOf die e.line = { die, line := e.line }) ∧
    (open_ s die (s.lineHome line) → exec (.rgdat die line) s = .next ((s.writeBack line).retireLine line)) ∧
    (¬ open_ s (s.lineHome base) die → exec (.rginv die base size) s = .next (s.fwDrop die)) ∧
    (¬ open_ s die (s.lineHome line) → exec (.rgdat die line) s = .next (s.fwDrop (s.lineHome line))) ∧
    (∀ r, s.regions.find? (fun r => r.base == base && r.lines == size && r.home == s.lineHome base) = some r → open_ s die r.home →
      ((∃ l, Ev.rgdat die l ∈ s.work ∧ base ≤ l ∧ l < base + size) → exec (.rgack die base size) s = .next (s.post (.rgack die base size))) ∧
      ((∀ l, Ev.rgdat die l ∈ s.work → ¬ (base ≤ l ∧ l < base + size)) →
        ((∀ v ∈ (r.mark die 0).sts, v = 0) → exec (.rgack die base size) s = .next { s with regions := s.regions.filter fun q => !q.same r }) ∧
        ((∃ v ∈ (r.mark die 0).sts, v ≠ 0) → exec (.rgack die base size) s = .next { s with regions := s.regions.map fun q => if q.same r then r.mark die 0 else q })))) ∧
  (∀ (s : State) (home base size : Nat) (a b : RegionEntry), s.regions.find? (fun r => r.home == home && r.base == base && r.lines == size / 2) = some a →
    s.regions.find? (fun r => r.home == home && r.base == base + size / 2 && r.lines == size / 2) = some b → 1 ≤ a.k → base % size = 0 →
    65535 ≤ s.cycle - a.since → 65535 ≤ s.cycle - b.since → s.rangeBusy base size = false →
    ∃ t m, exec (.regionMerge home base size) s = .next t ∧ t.regions.head? = some m ∧ m.home = a.home ∧ m.base = a.base ∧ m.k = a.k - 1 ∧
      (∀ d < 4, m.sts.getD d 0 = max (a.sts.getD d 0) (b.sts.getD d 0)) ∧ t = { s with regions := t.regions }) ∧
  (∀ (s : State) (die line : Nat), (∃ e ∈ s.dir, e.die = die ∧ e.line = line) → s.rangeBusy line 1 = false →
    let mine (x : L1Line) : Bool := x.line == line && dieOf x.core == die && x.st != .P
    let n := (s.l1.filter fun x => mine x && (x.st == .M || x.st == .O)).length
    exec (.dirEccRecall die false line) s = .next (((s.dropL1 mine).setDir { die, line }).recallLine die line n)) ∧
  (∀ (s : State) (die line : Nat) (r : RegionEntry), s.regionOf die line = some r → s.rangeBusy r.base r.lines = false →
    ∃ t, exec (.dirEccRecall die true line) s = .next t ∧ ∀ q ∈ t.regions, q.same r = false) ∧
  (∀ (s : State) (die line : Nat), ∃ (f : BitVec 16 → State → State), (∀ code u, (f code u) = { u with parts := (f code u).parts }) ∧
    s.recallLine die line 0 = f 0x0012 (s.forget line) ∧ s.recallLine die line 1 = f 0x0010 ((s.writeBack line).retireLine line) ∧
    (∀ n, 2 ≤ n → s.recallLine die line n = f 0x0011 (s.poison line)) ∧
    ((∃ e ∈ s.dir, e.line = line) ∨ (∃ x ∈ s.l1, x.line = line) → s.forget line = s) ∧
    ((∀ e ∈ s.dir, e.line ≠ line) → (∀ x ∈ s.l1, x.line ≠ line) → s.forget line = s.dropLine line) ∧
    (isHostGpa (lineGpa line) = true → lineGpa line / 128 ∈ (s.poison line).dev.poisoned)) ∧
  (∀ (s : State) (src dst : Nat), dst < 4 → (dst, src) ∈ s.dev.fwclosed → s.dev.fwdrops.length = 4 → ∃ t, exec (.firewallDrop src dst) s = .next t ∧ t = s.fwDrop dst ∧
    t = { s with dev := t.dev, parts := t.parts } ∧ t.dev.fwdrops.getD dst 0 = min 65535 (s.dev.fwdrops.getD dst 0 + 1) ∧
    ∀ p, s.parts.find? (fun p => p.dies.contains dst) = some p → ∃ r ∈ (t.part p.id).ras, r.code = 0x0020 ∧ r.die = dst)

/-! ## Gangs, links, reset -/

/-- R380, R381: a gang launch. It is eligible only once committed. PREPARE finds a member's launch with its T whose teams can be reserved, reserves
them and answers ACK; else it waits. ACK adds a member. At D the coordinator commits when all have acknowledged and its own launch is reserved, and
aborts otherwise; COMMIT, ABORT and the passing of T act on a member; heartbeats go every 100 us, and a member unheard for 1 ms or without link is
lost: the launch's POLICY decides. That messages to peers are kept in the order sent, and a PREPARE that comes before its launch waits until T, are the
model's (log 22). -/
def Obligations.GangLaunches : Prop :=
  (∀ (s : State) (l : Launch) (g : GangLaunch), s.eligible l = true → l.gang = some g → g.committed = true) ∧
  (∀ (s : State) (gid : Word) (start : DWord),
    let rest := s.dev.prepares.filter fun p => p != (gid, start.toNat) && decide (s.time < p.2)
    (start.toNat ≤ s.time → exec (.gangPrepare gid start) s = .next { s with dev := { s.dev with prepares := rest } }) ∧
    ((∀ m ∈ s.launches, ∀ h, m.gang = some h → h.gid ≠ gid) →
      (s.time < start.toNat → exec (.gangPrepare gid start) s = .next { s with dev := { s.dev with prepares := rest ++ [(gid, start.toNat)] } }) ∧
      exec (.gangAbort gid) s = .next { s with dev := { s.dev with prepares := s.dev.prepares.filter fun p => p.1 != gid } })) ∧
  ∀ (s : State) (gid : Word) (l : Launch) (g : GangLaunch), l ∈ s.launches → l.gang = some g → g.gid = gid → l.ending = none →
    (∀ m ∈ s.launches, ∀ h, m.gang = some h → h.gid = gid → m = l) →
    let aborts (u : State) : State := u.setLaunch { l with gang := some { g with places := [], reserved := false }, ending := some .aborted }
    let aborted := aborts s
    let sends (u : State) (kind : Nat) (ds : List (BitVec 12)) : State := { u with dev := { u.dev with sent := u.dev.sent ++ ds.map fun m => (kind, m, gid, 0) } }
    let eligibleAt (ps : Option (List (Nat × List Nat))) : State :=
      s.setLaunch { l with gang := some { g with reserved := ps.isSome || g.reserved, places := ps.getD g.places, committed := true }
                           desc := { l.desc with notBefore := g.start }, timeOk := false }
    (∀ start : DWord, s.time < start.toNat →
      let rest := s.dev.prepares.filter fun p => p != (gid, start.toNat) && decide (s.time < p.2)
      (∀ ps, g.coord = false → g.prepared = false → g.start = start.toNat → s.reservation l = some ps → exec (.gangPrepare gid start) s =
        .next (sends (({ s with dev := { s.dev with prepares := rest } } : State).setLaunch
          { l with gang := some { g with prepared := true, reserved := true, places := ps } }) 2 [0])) ∧
      (g.coord = true ∨ g.prepared = true ∨ g.start ≠ start.toNat ∨ l.ready = false ∨ s.placement l = none → exec (.gangPrepare gid start) s =
        .next { s with dev := { s.dev with prepares := rest ++ [(gid, start.toNat)] } })) ∧
    (∀ d, g.coord = true → g.committed = false → d ∈ g.members → d ∉ g.acked → s.time ≤ g.deadline → exec (.gangAck gid d) s =
      .next (s.setLaunch { l with gang := some { g with acked := g.acked ++ [d] } })) ∧
    (g.coord = true → g.committed = false → g.deadline ≤ s.time →
      (∀ ps, (∀ m ∈ g.members, m ∈ g.acked) → s.reservation l = some ps → exec (.gangDeadline gid) s = .next (sends (eligibleAt (some ps)) 3 g.members)) ∧
      ((∃ m ∈ g.members, m ∉ g.acked) ∨ s.reservation l = none → exec (.gangDeadline gid) s = .next (sends aborted 4 g.members))) ∧
    (g.coord = false → g.prepared = true → g.committed = false → s.time ≤ g.start → exec (.gangCommit gid) s = .next (eligibleAt none)) ∧
    (g.coord = false → g.committed = false → exec (.gangAbort gid) s =
      .next (aborts { s with dev := { s.dev with prepares := s.dev.prepares.filter fun p => p.1 != gid } })) ∧
    (g.committed = false → g.start ≤ s.time → exec (.gangStartTimeout gid) s = .next aborted) ∧
    (g.started = true → g.beat + 100000 ≤ s.time → exec (.gangHeartbeat gid) s =
      .next (sends (s.setLaunch { l with gang := some { g with beat := s.time } }) 5 g.known)) ∧
    (∀ d, g.committed = true → exec (.gangHeartbeatReceive gid d) s =
      .next (s.setLaunch { l with gang := some { g with heard := (d, s.time) :: g.heard.filter fun p => p.1 != d } })) ∧
    ∀ d, g.started = true → d ∈ g.known → (g.lastHeard d + 1000000 ≤ s.time ∨ s.peerLink (l.cid / 1024) = false) →
      let s1 := (s.setLaunch { l with gang := some { g with members := g.members.filter (fun m => m != d), heard := g.heard.filter fun p => p.1 != d } }).ras
        (l.cid / 1024) 0x0032 15 gid 0
      (l.desc.policy = 0 → exec (.gangMemberLost gid d) s = .next { s1 with dev := { s1.dev with lostPeers := (l.lid, d.toNat) :: s1.dev.lostPeers } }) ∧
      (l.desc.policy = 1 → exec (.gangMemberLost gid d) s = .next (s1.abortLaunch l.lid)) ∧
      (∀ t, l.desc.policy = 2 → (s1.launchTeams l.lid) = [t] → t.retired = false → t.dead = false → exec (.gangMemberLost gid d) s =
        .next (s1.trapTeam t.tid { cause := .gang, group := ((s1.teamGroups t.tid).map fun x => x.grp).foldl min 31, detail := gid.zeroExtend 64 })) ∧
      (2 ≤ l.desc.policy → ∃ u, exec (.gangMemberLost gid d) s = .next u)

/-- R8, R368, R385, R387, R389: a Nirus port or a die-to-die link that goes down is logged; heat and power lower the main clock and are logged in
every partition, until it is restored; a reset goes through the states of DEVSTATE one at a time: power good, SECURE_BOOT, MEMORY_INIT with the
partitions applied, RUNNING with the ports up, or RECOVERY with FW_AUTH logged when the signatures or the version fail; in RECOVERY a reset boots the
next image supplied. What bring-up is given and what a reset keeps are the model's (log 4), as is how an error's INFO is filled (log 34). -/
def Obligations.LinksAndReset : Prop :=
  (∀ (s : State) (port : Nat), s.dev.nirusUp.getD port false = true → ∃ t, exec (.nirusLinkDown port) s = .next t ∧ t.dev.nirusUp = s.dev.nirusUp.set port false ∧
    t.parts = (s.ras (s.diePart (port / 3)) 0x0022 (port / 3) (Config.rasInfo 0x0022 s.free) 0).parts ∧ t.groups = s.groups ∧ t.launches = s.launches) ∧
  (∀ (s : State) (a b : Nat), a < 4 → b < 4 → a ≠ b →
    (s.diePart a = s.diePart b → exec (.d2dDegraded a b) s = .next (s.ras (s.diePart a) 0x0023 a (Config.rasInfo 0x0023 s.free) 0)) ∧
    (s.diePart a ≠ s.diePart b → exec (.d2dDegraded a b) s =
      .next ((s.ras (s.diePart a) 0x0023 a (Config.rasInfo 0x0023 s.free) 0).ras (s.diePart b) 0x0023 b (Config.rasInfo 0x0023 s.free) 0))) ∧
  (∀ (s : State) (i : Instr) (code : BitVec 16), i = .thermalThrottle ∧ code = 0x0041 ∨ i = .powerCap ∧ code = 0x0042 →
    ∃ t, exec i s = .next t ∧ t.dev = { s.dev with slowed := true } ∧ t = { s with dev := t.dev, parts := t.parts } ∧
      ((s.parts.map fun p => p.id).Nodup → t.parts = s.parts.map fun p =>
        { p with ras := (if p.ras.length < 4096 then p.ras else p.ras.drop 1) ++
                   [{ seq := p.rashead, code, die := 15, info := Config.rasInfo code.toNat s.free, time := s.time, addr := 0 }]
                 rashead := p.rashead + 1 })) ∧
  (∀ s : State, s.dev.slowed = true → exec .mainClockRestored s = .next { s with dev := { s.dev with slowed := false } }) ∧
  (∀ s : State,
    let goes (st : DevState) : State := { s with dev := { s.dev with st } }
    let good : Prop := s.dev.boot.verifies = true ∧ s.dev.boot.minSvn.toNat ≤ s.dev.boot.svn.toNat
    (s.dev.st = .running ∨ s.dev.st = .recovery → ∃ t, exec .deviceReset s = .next t ∧ t.dev.st = .reset ∧ t.dev.svn = 0 ∧
      t.dev.boot = s.dev.boot.next (decide (s.dev.st = .recovery)) ∧ t.dev.portUp = List.replicate 8 false ∧ t.groups = [] ∧ t.teams = [] ∧ t.launches = [] ∧
      t.contexts = [] ∧ t.parts = [] ∧ t.cycle = 0 ∧ t.time = 0 ∧ t.hbmMeta = [] ∧ t.s2 = [] ∧ t.chip = {} ∧ t.hostMem = s.hostMem ∧ t.hbm = s.hbm) ∧
    (s.dev.st = .reset → exec .deviceReset s = .next (goes .secureBoot)) ∧
    (s.dev.st = .secureBoot → good → ∃ t, exec .deviceReset s = .next t ∧ t.dev.st = .memoryInit ∧ t.dev.svn = s.dev.boot.svn ∧
      t = { s with parts := t.parts, dev := { (goes .memoryInit).dev with svn := t.dev.svn, fwclosed := t.dev.fwclosed, fwparts := t.dev.fwparts } } ∧
      t.parts.map (fun p => (p.id, p.admin, p.jhead, p.rashead, p.keygen)) =
        s.dev.boot.parts.map (fun p => (((List.range 4).filter p.1.contains).headD 0, p.2, 0, 0, [(0, 1)])) ∧
      (∀ a b, (a, b) ∈ t.dev.fwclosed ↔ a < 4 ∧ b < 4 ∧ a ≠ b ∧ b ∉ s.dev.boot.mates a)) ∧
    (s.dev.st = .secureBoot → ¬ good → ∃ t, exec .deviceReset s = .next t ∧ t = { (goes .recovery) with parts := t.parts } ∧
      ∃ r ∈ (t.part 0).ras, r.code = 0x0040 ∧ r.time = s.time) ∧
    (s.dev.st = .memoryInit → exec .deviceReset s =
      .next { s with dev := { s.dev with st := .running, portUp := List.replicate 8 true, nirusUp := List.replicate 12 true } })) ∧
  (∀ (b : Boot) (ok : Bool) (svn : Word) (rest : List (Bool × Word)), b.next false = b ∧ (b.images = [] → b.next true = b) ∧
    (b.images = (ok, svn) :: rest → b.next true = { b with verifies := ok, svn, images := rest }))

/-- R8, R224, R289, R290, R316, R323, R347, R350, R386: the machine right after reset. DEVSTATE is RESET with SVN 0, %cycle and device time are 0,
nothing is resident and no context, address space or mapping exists, every byte of memory reads 0 (of host and peer memory by the model's choice, log
5) and every line has KEYID 0; a context that nothing has touched reads FREE, with the action registers of R345 and R350 and with every limit and use 0.
Its event rings and its trap entry of 0 are the model's choice (log 6). -/
def Obligations.ResetValues : Prop :=
  let s := State.reset
  s.dev.st = .reset ∧ s.dev.svn = 0 ∧ s.cycle = 0 ∧ s.time = 0 ∧ s.MemWf ∧ s.groups = [] ∧ s.teams = [] ∧ s.launches = [] ∧ s.contexts = [] ∧ s.asts = [] ∧
  s.copies = [] ∧ s.walks = [] ∧ s.handlers = [] ∧ s.tlb = [] ∧ s.s2 = [] ∧ s.parts = [] ∧ s.dev.portUp = List.replicate 8 false ∧ s.dev.timeSrc = 0 ∧
  s.dev.timeOfs = 0 ∧ s.dev.binds = [] ∧ (∀ l : Loc, s.readLoc l = 0) ∧
  (∀ cid, (s.ctx cid).st = .free ∧ (s.ctx cid).primary = 8 ∧ (s.ctx cid).coguard = 0 ∧ (s.ctx cid).lease = 250 ∧ (s.ctx cid).actlo = 0x4000303044040000 ∧
    (s.ctx cid).acthi = 0x0000004404000020 ∧ (∀ n, (s.ctx cid).limits.getD n 0 = 0 ∧ (s.ctx cid).usage.getD n 0 = 0) ∧ (s.ctx cid).maps = [] ∧
    (s.ctx cid).mail = List.replicate 64 [] ∧ (∀ n, ((s.ctx cid).ladders.getD n {}).st = .free))

/-! ## Decoding and the step -/

/-- R55-R69: for every instruction whose fields break no encoding check, the word that the encoder gives decodes to that instruction (scalar, lane and
matrix words); and every word that decodes is the one word of its instruction. -/
def Obligations.EncodeDecode : Prop :=
  (∀ (i : Instr) (w : Word), i.wf → encodeScalar i = some w → (decodeScalar w).toOption = some i) ∧
  (∀ (i : Instr) (w : LaneWord), i.wf → encodeLane i = some w → (decodeLane w).toOption = some i) ∧
  (∀ (i : Instr) (w : DWord), i.wf → encodeMatrix i = some w → (decodeMatrix w).toOption = some i) ∧
  (∀ (i : Instr) (w : Word), (decodeScalar w).toOption = some i → encodeScalar i = some w) ∧
  (∀ (i : Instr) (w : LaneWord), (decodeLane w).toOption = some i → encodeLane i = some w) ∧
  (∀ (i : Instr) (w : DWord), (decodeMatrix w).toOption = some i → encodeMatrix i = some w)

/-- R58, R63-R66, R69, R162, R185, R190 and the worked encodings of chapters 2 and 6: words written out from the tables decode to the instructions
they stand for. -/
def Obligations.DecodeWords : Prop :=
  (decodeScalar 0x00040506).toOption = some (.sadd 4 5 6) ∧ (decodeScalar 0x91080202).toOption = some (.sld64 8 2 2) ∧
  (decodeScalar 0x9F000043).toOption = some (.ord .rel 3) ∧ (decodeScalar 0x6A000000).toOption = some .nop ∧
  (decodeScalar 0x30000000).toOption = none ∧ (decodeScalar 0x6A000001).toOption = none ∧
  (decodeLane (0x00000003#32 ++ 0x00200800#32 ++ 0x00000000#32)).toOption = some (.vadd .i32 false 0 3 (.v 1) (.v 2)) ∧
  (decodeLane (0x00020003#32 ++ 0x00200000#32 ++ 0x00000064#32)).toOption = some (.vadd .i32 false 0 3 (.v 1) (.imm 100)) ∧
  (decodeLane (0x60000008#32 ++ 0x80800908#32 ++ 0x00140010#32)).toOption =
    some (.vld .i32 0 8 { base := .s 4, index := some (.v 2), scale := 2, sidx := false, off := 16 } { fb := false, scope := 4, order := .rlx, width := 2 }) ∧
  decodeHeader (0xFFC50099#32 ++ 0#32 ++ 0#32) = some { len := 5, wait := 9, fa := some 2, fb := none } ∧
  (decodeMatrix 0x3400000000000000).toOption = some .mnop ∧
  (decodeMatrix 0x1032054101002003).toOption = some (.mma 3 2 true { tn := 5, ka := 4, kb := 1, off0 := 2, off1 := 3 }) ∧
  decodeTableWord 32 0x00040506 = some (.sadd 4 5 6)

/-! ## The step -/

/-- R55, R57, R63, R68, R70, R72, R183, R184, R371: a step of a fragment runs the instruction that its aligned, fetched word decodes to, and then time
passes; a word that decodes to none raises ILLEGAL (PRIV for the opcodes of the handler slot, outside it); a lane word and a word of the stream likewise,
the stream stopping with MSTREAM and keeping one word until that word has completed; an event takes place with the meaning of the instruction of its
name. The team of a word that issued is known to have issued (R366), and its group counts it (R112): `s.after` is the passing of time and the upkeep of
header pages (R358). Whose move comes next is the machine's choice (log 2), and how much time passes is free (log 3). -/
def Obligations.StepRunsWord : Prop :=
  (∀ (s : State) (g : Group) (fr : Fragment) (k v : Nat), s.choose.here = some (g, fr, k) → fr.pc.toNat % 4 = 0 →
    s.choose.fetchCode (s.choose.who g) fr.pc.toNat 4 = .ok v →
    let s1 := s.choose
    let w := BitVec.ofNat 32 v
    (∀ (i : Instr), (decodeScalar w).toOption = some i →
      (∀ t, exec i s1 = .next t →
        step s = .next ((if g.jumps fr k i || g.moved k (t.group g.core g.slot) then t.countWord g else t).after s)) ∧
      (∀ f, exec i s1 = .fault f → step s = .fault f) ∧ (∀ r, exec i s1 = .refused r → step s = .refused r)) ∧
    ((decodeScalar w).toOption = none → fr.fence = none →
      let c : Cause := if 0xD3 ≤ (w.extractLsb' 24 8).toNat ∧ (w.extractLsb' 24 8).toNat ≤ 0xD8 ∧ g.slot ≠ 128 then .priv else .illegal
      let ordWord : Bool := w.extractLsb' 24 8 == 0x9F
      step s = .next (({ (({ s1 with ord := { pair := ordWord } } : State).raise g
        { cause := c, pc := fr.pc, pair := ordWord, culprit := .scalar g.slot k }) with ord := {} } : State).after s))) ∧
  (∀ (s : State) (g : Group) (fr : Fragment) (k : Nat), s.choose.here = some (g, fr, k) → fr.pc.toNat % 4 ≠ 0 → fr.fence = none →
    step s = .next ((s.choose.raise g { cause := .align, addr := fr.pc, pc := fr.pc, pair := s.choose.ord.pair, culprit := .scalar g.slot k }).after s)) ∧
  (∀ (s : State) (g : Group) (fr : Fragment) (k : Nat) (c : Clause) (w : LaneWord), s.choose.hereLane = some (g, fr, k, c) → c.body[c.idx]? = some w →
    (∀ (i : Instr) (t : State), (decodeLane w).toOption = some i → exec i s.choose = .next t →
      ∃ u, (u = t ∨ u = t.hasIssued g.team) ∧ step s = .next (u.after s)) ∧
    ((decodeLane w).toOption = none → fr.inFence c.uid = false → g.longOpen c.uid = false → step s = .next ((s.choose.raise g
      { cause := .illegal, gov := c.gov (w.extractLsb' 77 4).toNat, lanei := true, clidx := c.idx, pc := c.lrunPc, culprit := .laneWord g.slot k }).after s))) ∧
  (∀ (s : State) (tid : Nat) (v : DWord) (t : Team), s.choose.cur = .stream tid → s.choose.team tid = some t → s.choose.streamWord t = .ok v →
    (∀ (i : Instr), (decodeMatrix v).toOption = some i →
      (∀ u, exec i (s.choose.holdWord t v i) = .next u → step s = .next (u.after s)) ∧
      (∀ f, exec i (s.choose.holdWord t v i) = .fault f → step s = .fault f)) ∧
    ((decodeMatrix v).toOption = none →
      ∃ reason : BitVec 8, (reason = 2 ∨ reason = 3) ∧ step s = .next ((s.choose.raiseStream t { cause := .mstream, reason, code := 0 }).after s))) ∧
  (∀ (s : State) (t : Team) (v : Nat), (∀ p, t.stream.held = some p → s.streamWord t = .ok p.1) ∧
    (t.stream.held = none → s.fetchCode (s.teamWho t) t.stream.pc.toNat 8 = .ok v → s.streamWord t = .ok (BitVec.ofNat 64 v))) ∧
  (∀ (s t : State) (e : Ev), s.choose.cur = .event e → runEv e s.choose = .next t → step s = .next (t.after s)) ∧
  (∀ (s t : State) (n : Nat) (q : Queued), s.choose.cur = .decide n → s.choose.dev.queue[n]? = some q →
    runEv q.ev { s.choose with dev := { s.choose.dev with taking := some q } } = .next t →
    (t.dev.taking = none → step s = .next (({ t with dev := { t.dev with queue := t.dev.queue.eraseIdx n } } : State).after s)) ∧
    (t.dev.taking.isSome → step s = .next (({ t with dev := { t.dev with taking := none } } : State).after s)))

/-- The memories of the machine stay in canonical form: whatever the machine does next, from any state whose memories are in it (log 5). -/
def Obligations.StepKeepsMemWf : Prop :=
  ∀ s t : State, s.MemWf → step s = .next t → t.MemWf
end

