-- ==== Sys2Proof/Laws/State.lean ====
section
/-! SUPPORT. Reading a field after an update: one lemma for each field and each update of the state and of a group, so that no proof
unfolds an update. Written by a script from the fields of Sys2Proof/Machine/State.lean. -/

namespace Sys2Proof.Machine

@[simp] theorem State.setGroup_cur (s : State) (g : Group) : (s.setGroup g).cur = s.cur := rfl
@[simp] theorem State.setGroup_ord (s : State) (g : Group) : (s.setGroup g).ord = s.ord := rfl
@[simp] theorem State.setGroup_agenda (s : State) (g : Group) : (s.setGroup g).agenda = s.agenda := rfl
@[simp] theorem State.setGroup_inputs (s : State) (g : Group) : (s.setGroup g).inputs = s.inputs := rfl
@[simp] theorem State.setGroup_work (s : State) (g : Group) : (s.setGroup g).work = s.work := rfl
@[simp] theorem State.setGroup_free (s : State) (g : Group) : (s.setGroup g).free = s.free := rfl
@[simp] theorem State.setGroup_cycle (s : State) (g : Group) : (s.setGroup g).cycle = s.cycle := rfl
@[simp] theorem State.setGroup_time (s : State) (g : Group) : (s.setGroup g).time = s.time := rfl
@[simp] theorem State.setGroup_frac (s : State) (g : Group) : (s.setGroup g).frac = s.frac := rfl
@[simp] theorem State.setGroup_nextId (s : State) (g : Group) : (s.setGroup g).nextId = s.nextId := rfl
@[simp] theorem State.setGroup_groups (s : State) (g : Group) : (s.setGroup g).groups = s.groups.map fun h => if h.isAt g.core g.slot then g else h := rfl
@[simp] theorem State.setGroup_snaps (s : State) (g : Group) : (s.setGroup g).snaps = s.snaps := rfl
@[simp] theorem State.setGroup_teams (s : State) (g : Group) : (s.setGroup g).teams = s.teams := rfl
@[simp] theorem State.setGroup_clusters (s : State) (g : Group) : (s.setGroup g).clusters = s.clusters := rfl
@[simp] theorem State.setGroup_launches (s : State) (g : Group) : (s.setGroup g).launches = s.launches := rfl
@[simp] theorem State.setGroup_contexts (s : State) (g : Group) : (s.setGroup g).contexts = s.contexts := rfl
@[simp] theorem State.setGroup_asts (s : State) (g : Group) : (s.setGroup g).asts = s.asts := rfl
@[simp] theorem State.setGroup_copies (s : State) (g : Group) : (s.setGroup g).copies = s.copies := rfl
@[simp] theorem State.setGroup_walks (s : State) (g : Group) : (s.setGroup g).walks = s.walks := rfl
@[simp] theorem State.setGroup_handlers (s : State) (g : Group) : (s.setGroup g).handlers = s.handlers := rfl
@[simp] theorem State.setGroup_tlb (s : State) (g : Group) : (s.setGroup g).tlb = s.tlb := rfl
@[simp] theorem State.setGroup_ats (s : State) (g : Group) : (s.setGroup g).ats = s.ats := rfl
@[simp] theorem State.setGroup_chip (s : State) (g : Group) : (s.setGroup g).chip = s.chip := rfl
@[simp] theorem State.setGroup_chipMeta (s : State) (g : Group) : (s.setGroup g).chipMeta = s.chipMeta := rfl
@[simp] theorem State.setGroup_hbm (s : State) (g : Group) : (s.setGroup g).hbm = s.hbm := rfl
@[simp] theorem State.setGroup_hbmMeta (s : State) (g : Group) : (s.setGroup g).hbmMeta = s.hbmMeta := rfl
@[simp] theorem State.setGroup_s2 (s : State) (g : Group) : (s.setGroup g).s2 = s.s2 := rfl
@[simp] theorem State.setGroup_hostMem (s : State) (g : Group) : (s.setGroup g).hostMem = s.hostMem := rfl
@[simp] theorem State.setGroup_undurable (s : State) (g : Group) : (s.setGroup g).undurable = s.undurable := rfl
@[simp] theorem State.setGroup_peerMem (s : State) (g : Group) : (s.setGroup g).peerMem = s.peerMem := rfl
@[simp] theorem State.setGroup_l1 (s : State) (g : Group) : (s.setGroup g).l1 = s.l1 := rfl
@[simp] theorem State.setGroup_dir (s : State) (g : Group) : (s.setGroup g).dir = s.dir := rfl
@[simp] theorem State.setGroup_regions (s : State) (g : Group) : (s.setGroup g).regions = s.regions := rfl
@[simp] theorem State.setGroup_txns (s : State) (g : Group) : (s.setGroup g).txns = s.txns := rfl
@[simp] theorem State.setGroup_slices (s : State) (g : Group) : (s.setGroup g).slices = s.slices := rfl
@[simp] theorem State.setGroup_parts (s : State) (g : Group) : (s.setGroup g).parts = s.parts := rfl
@[simp] theorem State.setGroup_dev (s : State) (g : Group) : (s.setGroup g).dev = s.dev := rfl

@[simp] theorem State.put_cur (s : State) (g : Group) (k : Nat) (fr : Fragment) : (s.put g k fr).cur = s.cur := rfl
@[simp] theorem State.put_ord (s : State) (g : Group) (k : Nat) (fr : Fragment) : (s.put g k fr).ord = s.ord := rfl
@[simp] theorem State.put_agenda (s : State) (g : Group) (k : Nat) (fr : Fragment) : (s.put g k fr).agenda = s.agenda := rfl
@[simp] theorem State.put_inputs (s : State) (g : Group) (k : Nat) (fr : Fragment) : (s.put g k fr).inputs = s.inputs := rfl
@[simp] theorem State.put_work (s : State) (g : Group) (k : Nat) (fr : Fragment) : (s.put g k fr).work = s.work := rfl
@[simp] theorem State.put_free (s : State) (g : Group) (k : Nat) (fr : Fragment) : (s.put g k fr).free = s.free := rfl
@[simp] theorem State.put_cycle (s : State) (g : Group) (k : Nat) (fr : Fragment) : (s.put g k fr).cycle = s.cycle := rfl
@[simp] theorem State.put_time (s : State) (g : Group) (k : Nat) (fr : Fragment) : (s.put g k fr).time = s.time := rfl
@[simp] theorem State.put_frac (s : State) (g : Group) (k : Nat) (fr : Fragment) : (s.put g k fr).frac = s.frac := rfl
@[simp] theorem State.put_nextId (s : State) (g : Group) (k : Nat) (fr : Fragment) : (s.put g k fr).nextId = s.nextId := rfl
@[simp] theorem State.put_groups (s : State) (g : Group) (k : Nat) (fr : Fragment) : (s.put g k fr).groups = (s.setGroup (g.setFrag k fr)).groups := rfl
@[simp] theorem State.put_snaps (s : State) (g : Group) (k : Nat) (fr : Fragment) : (s.put g k fr).snaps = s.snaps := rfl
@[simp] theorem State.put_teams (s : State) (g : Group) (k : Nat) (fr : Fragment) : (s.put g k fr).teams = s.teams := rfl
@[simp] theorem State.put_clusters (s : State) (g : Group) (k : Nat) (fr : Fragment) : (s.put g k fr).clusters = s.clusters := rfl
@[simp] theorem State.put_launches (s : State) (g : Group) (k : Nat) (fr : Fragment) : (s.put g k fr).launches = s.launches := rfl
@[simp] theorem State.put_contexts (s : State) (g : Group) (k : Nat) (fr : Fragment) : (s.put g k fr).contexts = s.contexts := rfl
@[simp] theorem State.put_asts (s : State) (g : Group) (k : Nat) (fr : Fragment) : (s.put g k fr).asts = s.asts := rfl
@[simp] theorem State.put_copies (s : State) (g : Group) (k : Nat) (fr : Fragment) : (s.put g k fr).copies = s.copies := rfl
@[simp] theorem State.put_walks (s : State) (g : Group) (k : Nat) (fr : Fragment) : (s.put g k fr).walks = s.walks := rfl
@[simp] theorem State.put_handlers (s : State) (g : Group) (k : Nat) (fr : Fragment) : (s.put g k fr).handlers = s.handlers := rfl
@[simp] theorem State.put_tlb (s : State) (g : Group) (k : Nat) (fr : Fragment) : (s.put g k fr).tlb = s.tlb := rfl
@[simp] theorem State.put_ats (s : State) (g : Group) (k : Nat) (fr : Fragment) : (s.put g k fr).ats = s.ats := rfl
@[simp] theorem State.put_chip (s : State) (g : Group) (k : Nat) (fr : Fragment) : (s.put g k fr).chip = s.chip := rfl
@[simp] theorem State.put_chipMeta (s : State) (g : Group) (k : Nat) (fr : Fragment) : (s.put g k fr).chipMeta = s.chipMeta := rfl
@[simp] theorem State.put_hbm (s : State) (g : Group) (k : Nat) (fr : Fragment) : (s.put g k fr).hbm = s.hbm := rfl
@[simp] theorem State.put_hbmMeta (s : State) (g : Group) (k : Nat) (fr : Fragment) : (s.put g k fr).hbmMeta = s.hbmMeta := rfl
@[simp] theorem State.put_s2 (s : State) (g : Group) (k : Nat) (fr : Fragment) : (s.put g k fr).s2 = s.s2 := rfl
@[simp] theorem State.put_hostMem (s : State) (g : Group) (k : Nat) (fr : Fragment) : (s.put g k fr).hostMem = s.hostMem := rfl
@[simp] theorem State.put_undurable (s : State) (g : Group) (k : Nat) (fr : Fragment) : (s.put g k fr).undurable = s.undurable := rfl
@[simp] theorem State.put_peerMem (s : State) (g : Group) (k : Nat) (fr : Fragment) : (s.put g k fr).peerMem = s.peerMem := rfl
@[simp] theorem State.put_l1 (s : State) (g : Group) (k : Nat) (fr : Fragment) : (s.put g k fr).l1 = s.l1 := rfl
@[simp] theorem State.put_dir (s : State) (g : Group) (k : Nat) (fr : Fragment) : (s.put g k fr).dir = s.dir := rfl
@[simp] theorem State.put_regions (s : State) (g : Group) (k : Nat) (fr : Fragment) : (s.put g k fr).regions = s.regions := rfl
@[simp] theorem State.put_txns (s : State) (g : Group) (k : Nat) (fr : Fragment) : (s.put g k fr).txns = s.txns := rfl
@[simp] theorem State.put_slices (s : State) (g : Group) (k : Nat) (fr : Fragment) : (s.put g k fr).slices = s.slices := rfl
@[simp] theorem State.put_parts (s : State) (g : Group) (k : Nat) (fr : Fragment) : (s.put g k fr).parts = s.parts := rfl
@[simp] theorem State.put_dev (s : State) (g : Group) (k : Nat) (fr : Fragment) : (s.put g k fr).dev = s.dev := rfl

@[simp] theorem State.progress_cur (s : State) (g h : Group) (uid : Nat) : (s.progress g h uid).cur = s.cur := by unfold State.progress; dsimp only; split <;> first | rfl | (split <;> rfl)
@[simp] theorem State.progress_ord (s : State) (g h : Group) (uid : Nat) : (s.progress g h uid).ord = s.ord := by unfold State.progress; dsimp only; split <;> first | rfl | (split <;> rfl)
@[simp] theorem State.progress_agenda (s : State) (g h : Group) (uid : Nat) : (s.progress g h uid).agenda = s.agenda := by unfold State.progress; dsimp only; split <;> first | rfl | (split <;> rfl)
@[simp] theorem State.progress_inputs (s : State) (g h : Group) (uid : Nat) : (s.progress g h uid).inputs = s.inputs := by unfold State.progress; dsimp only; split <;> first | rfl | (split <;> rfl)
@[simp] theorem State.progress_work (s : State) (g h : Group) (uid : Nat) : (s.progress g h uid).work = s.work := by unfold State.progress; dsimp only; split <;> first | rfl | (split <;> rfl)
@[simp] theorem State.progress_free (s : State) (g h : Group) (uid : Nat) : (s.progress g h uid).free = s.free := by unfold State.progress; dsimp only; split <;> first | rfl | (split <;> rfl)
@[simp] theorem State.progress_cycle (s : State) (g h : Group) (uid : Nat) : (s.progress g h uid).cycle = s.cycle := by unfold State.progress; dsimp only; split <;> first | rfl | (split <;> rfl)
@[simp] theorem State.progress_time (s : State) (g h : Group) (uid : Nat) : (s.progress g h uid).time = s.time := by unfold State.progress; dsimp only; split <;> first | rfl | (split <;> rfl)
@[simp] theorem State.progress_frac (s : State) (g h : Group) (uid : Nat) : (s.progress g h uid).frac = s.frac := by unfold State.progress; dsimp only; split <;> first | rfl | (split <;> rfl)
@[simp] theorem State.progress_nextId (s : State) (g h : Group) (uid : Nat) : (s.progress g h uid).nextId = s.nextId := by unfold State.progress; dsimp only; split <;> first | rfl | (split <;> rfl)
@[simp] theorem State.progress_teams (s : State) (g h : Group) (uid : Nat) : (s.progress g h uid).teams = s.teams := by unfold State.progress; dsimp only; split <;> first | rfl | (split <;> rfl)
@[simp] theorem State.progress_clusters (s : State) (g h : Group) (uid : Nat) : (s.progress g h uid).clusters = s.clusters := by unfold State.progress; dsimp only; split <;> first | rfl | (split <;> rfl)
@[simp] theorem State.progress_launches (s : State) (g h : Group) (uid : Nat) : (s.progress g h uid).launches = s.launches := by unfold State.progress; dsimp only; split <;> first | rfl | (split <;> rfl)
@[simp] theorem State.progress_contexts (s : State) (g h : Group) (uid : Nat) : (s.progress g h uid).contexts = s.contexts := by unfold State.progress; dsimp only; split <;> first | rfl | (split <;> rfl)
@[simp] theorem State.progress_asts (s : State) (g h : Group) (uid : Nat) : (s.progress g h uid).asts = s.asts := by unfold State.progress; dsimp only; split <;> first | rfl | (split <;> rfl)
@[simp] theorem State.progress_copies (s : State) (g h : Group) (uid : Nat) : (s.progress g h uid).copies = s.copies := by unfold State.progress; dsimp only; split <;> first | rfl | (split <;> rfl)
@[simp] theorem State.progress_walks (s : State) (g h : Group) (uid : Nat) : (s.progress g h uid).walks = s.walks := by unfold State.progress; dsimp only; split <;> first | rfl | (split <;> rfl)
@[simp] theorem State.progress_handlers (s : State) (g h : Group) (uid : Nat) : (s.progress g h uid).handlers = s.handlers := by unfold State.progress; dsimp only; split <;> first | rfl | (split <;> rfl)
@[simp] theorem State.progress_tlb (s : State) (g h : Group) (uid : Nat) : (s.progress g h uid).tlb = s.tlb := by unfold State.progress; dsimp only; split <;> first | rfl | (split <;> rfl)
@[simp] theorem State.progress_ats (s : State) (g h : Group) (uid : Nat) : (s.progress g h uid).ats = s.ats := by unfold State.progress; dsimp only; split <;> first | rfl | (split <;> rfl)
@[simp] theorem State.progress_chip (s : State) (g h : Group) (uid : Nat) : (s.progress g h uid).chip = s.chip := by unfold State.progress; dsimp only; split <;> first | rfl | (split <;> rfl)
@[simp] theorem State.progress_chipMeta (s : State) (g h : Group) (uid : Nat) : (s.progress g h uid).chipMeta = s.chipMeta := by unfold State.progress; dsimp only; split <;> first | rfl | (split <;> rfl)
@[simp] theorem State.progress_hbm (s : State) (g h : Group) (uid : Nat) : (s.progress g h uid).hbm = s.hbm := by unfold State.progress; dsimp only; split <;> first | rfl | (split <;> rfl)
@[simp] theorem State.progress_hbmMeta (s : State) (g h : Group) (uid : Nat) : (s.progress g h uid).hbmMeta = s.hbmMeta := by unfold State.progress; dsimp only; split <;> first | rfl | (split <;> rfl)
@[simp] theorem State.progress_s2 (s : State) (g h : Group) (uid : Nat) : (s.progress g h uid).s2 = s.s2 := by unfold State.progress; dsimp only; split <;> first | rfl | (split <;> rfl)
@[simp] theorem State.progress_hostMem (s : State) (g h : Group) (uid : Nat) : (s.progress g h uid).hostMem = s.hostMem := by unfold State.progress; dsimp only; split <;> first | rfl | (split <;> rfl)
@[simp] theorem State.progress_undurable (s : State) (g h : Group) (uid : Nat) : (s.progress g h uid).undurable = s.undurable := by unfold State.progress; dsimp only; split <;> first | rfl | (split <;> rfl)
@[simp] theorem State.progress_peerMem (s : State) (g h : Group) (uid : Nat) : (s.progress g h uid).peerMem = s.peerMem := by unfold State.progress; dsimp only; split <;> first | rfl | (split <;> rfl)
@[simp] theorem State.progress_l1 (s : State) (g h : Group) (uid : Nat) : (s.progress g h uid).l1 = s.l1 := by unfold State.progress; dsimp only; split <;> first | rfl | (split <;> rfl)
@[simp] theorem State.progress_dir (s : State) (g h : Group) (uid : Nat) : (s.progress g h uid).dir = s.dir := by unfold State.progress; dsimp only; split <;> first | rfl | (split <;> rfl)
@[simp] theorem State.progress_regions (s : State) (g h : Group) (uid : Nat) : (s.progress g h uid).regions = s.regions := by unfold State.progress; dsimp only; split <;> first | rfl | (split <;> rfl)
@[simp] theorem State.progress_txns (s : State) (g h : Group) (uid : Nat) : (s.progress g h uid).txns = s.txns := by unfold State.progress; dsimp only; split <;> first | rfl | (split <;> rfl)
@[simp] theorem State.progress_slices (s : State) (g h : Group) (uid : Nat) : (s.progress g h uid).slices = s.slices := by unfold State.progress; dsimp only; split <;> first | rfl | (split <;> rfl)
@[simp] theorem State.progress_parts (s : State) (g h : Group) (uid : Nat) : (s.progress g h uid).parts = s.parts := by unfold State.progress; dsimp only; split <;> first | rfl | (split <;> rfl)
@[simp] theorem State.progress_dev (s : State) (g h : Group) (uid : Nat) : (s.progress g h uid).dev = s.dev := by unfold State.progress; dsimp only; split <;> first | rfl | (split <;> rfl)
@[simp] theorem State.progress_groups (s : State) (g h : Group) (uid : Nat) :
    (s.progress g h uid).groups = (s.setGroup h).groups := by unfold State.progress; dsimp only; split <;> first | rfl | (split <;> rfl)

@[simp] theorem State.laneNext_cur (s : State) (g : Group) (fr : Fragment) (k : Nat) : (s.laneNext g fr k).cur = s.cur := by simp [State.laneNext]
@[simp] theorem State.laneNext_ord (s : State) (g : Group) (fr : Fragment) (k : Nat) : (s.laneNext g fr k).ord = s.ord := by simp [State.laneNext]
@[simp] theorem State.laneNext_agenda (s : State) (g : Group) (fr : Fragment) (k : Nat) : (s.laneNext g fr k).agenda = s.agenda := by simp [State.laneNext]
@[simp] theorem State.laneNext_inputs (s : State) (g : Group) (fr : Fragment) (k : Nat) : (s.laneNext g fr k).inputs = s.inputs := by simp [State.laneNext]
@[simp] theorem State.laneNext_work (s : State) (g : Group) (fr : Fragment) (k : Nat) : (s.laneNext g fr k).work = s.work := by simp [State.laneNext]
@[simp] theorem State.laneNext_free (s : State) (g : Group) (fr : Fragment) (k : Nat) : (s.laneNext g fr k).free = s.free := by simp [State.laneNext]
@[simp] theorem State.laneNext_cycle (s : State) (g : Group) (fr : Fragment) (k : Nat) : (s.laneNext g fr k).cycle = s.cycle := by simp [State.laneNext]
@[simp] theorem State.laneNext_time (s : State) (g : Group) (fr : Fragment) (k : Nat) : (s.laneNext g fr k).time = s.time := by simp [State.laneNext]
@[simp] theorem State.laneNext_frac (s : State) (g : Group) (fr : Fragment) (k : Nat) : (s.laneNext g fr k).frac = s.frac := by simp [State.laneNext]
@[simp] theorem State.laneNext_nextId (s : State) (g : Group) (fr : Fragment) (k : Nat) : (s.laneNext g fr k).nextId = s.nextId := by simp [State.laneNext]
@[simp] theorem State.laneNext_teams (s : State) (g : Group) (fr : Fragment) (k : Nat) : (s.laneNext g fr k).teams = s.teams := by simp [State.laneNext]
@[simp] theorem State.laneNext_clusters (s : State) (g : Group) (fr : Fragment) (k : Nat) : (s.laneNext g fr k).clusters = s.clusters := by simp [State.laneNext]
@[simp] theorem State.laneNext_launches (s : State) (g : Group) (fr : Fragment) (k : Nat) : (s.laneNext g fr k).launches = s.launches := by simp [State.laneNext]
@[simp] theorem State.laneNext_contexts (s : State) (g : Group) (fr : Fragment) (k : Nat) : (s.laneNext g fr k).contexts = s.contexts := by simp [State.laneNext]
@[simp] theorem State.laneNext_asts (s : State) (g : Group) (fr : Fragment) (k : Nat) : (s.laneNext g fr k).asts = s.asts := by simp [State.laneNext]
@[simp] theorem State.laneNext_copies (s : State) (g : Group) (fr : Fragment) (k : Nat) : (s.laneNext g fr k).copies = s.copies := by simp [State.laneNext]
@[simp] theorem State.laneNext_walks (s : State) (g : Group) (fr : Fragment) (k : Nat) : (s.laneNext g fr k).walks = s.walks := by simp [State.laneNext]
@[simp] theorem State.laneNext_handlers (s : State) (g : Group) (fr : Fragment) (k : Nat) : (s.laneNext g fr k).handlers = s.handlers := by simp [State.laneNext]
@[simp] theorem State.laneNext_tlb (s : State) (g : Group) (fr : Fragment) (k : Nat) : (s.laneNext g fr k).tlb = s.tlb := by simp [State.laneNext]
@[simp] theorem State.laneNext_ats (s : State) (g : Group) (fr : Fragment) (k : Nat) : (s.laneNext g fr k).ats = s.ats := by simp [State.laneNext]
@[simp] theorem State.laneNext_chip (s : State) (g : Group) (fr : Fragment) (k : Nat) : (s.laneNext g fr k).chip = s.chip := by simp [State.laneNext]
@[simp] theorem State.laneNext_chipMeta (s : State) (g : Group) (fr : Fragment) (k : Nat) : (s.laneNext g fr k).chipMeta = s.chipMeta := by simp [State.laneNext]
@[simp] theorem State.laneNext_hbm (s : State) (g : Group) (fr : Fragment) (k : Nat) : (s.laneNext g fr k).hbm = s.hbm := by simp [State.laneNext]
@[simp] theorem State.laneNext_hbmMeta (s : State) (g : Group) (fr : Fragment) (k : Nat) : (s.laneNext g fr k).hbmMeta = s.hbmMeta := by simp [State.laneNext]
@[simp] theorem State.laneNext_s2 (s : State) (g : Group) (fr : Fragment) (k : Nat) : (s.laneNext g fr k).s2 = s.s2 := by simp [State.laneNext]
@[simp] theorem State.laneNext_hostMem (s : State) (g : Group) (fr : Fragment) (k : Nat) : (s.laneNext g fr k).hostMem = s.hostMem := by simp [State.laneNext]
@[simp] theorem State.laneNext_undurable (s : State) (g : Group) (fr : Fragment) (k : Nat) : (s.laneNext g fr k).undurable = s.undurable := by simp [State.laneNext]
@[simp] theorem State.laneNext_peerMem (s : State) (g : Group) (fr : Fragment) (k : Nat) : (s.laneNext g fr k).peerMem = s.peerMem := by simp [State.laneNext]
@[simp] theorem State.laneNext_l1 (s : State) (g : Group) (fr : Fragment) (k : Nat) : (s.laneNext g fr k).l1 = s.l1 := by simp [State.laneNext]
@[simp] theorem State.laneNext_dir (s : State) (g : Group) (fr : Fragment) (k : Nat) : (s.laneNext g fr k).dir = s.dir := by simp [State.laneNext]
@[simp] theorem State.laneNext_regions (s : State) (g : Group) (fr : Fragment) (k : Nat) : (s.laneNext g fr k).regions = s.regions := by simp [State.laneNext]
@[simp] theorem State.laneNext_txns (s : State) (g : Group) (fr : Fragment) (k : Nat) : (s.laneNext g fr k).txns = s.txns := by simp [State.laneNext]
@[simp] theorem State.laneNext_slices (s : State) (g : Group) (fr : Fragment) (k : Nat) : (s.laneNext g fr k).slices = s.slices := by simp [State.laneNext]
@[simp] theorem State.laneNext_parts (s : State) (g : Group) (fr : Fragment) (k : Nat) : (s.laneNext g fr k).parts = s.parts := by simp [State.laneNext]
@[simp] theorem State.laneNext_dev (s : State) (g : Group) (fr : Fragment) (k : Nat) : (s.laneNext g fr k).dev = s.dev := by simp [State.laneNext]
@[simp] theorem State.laneNext_groups (s : State) (g : Group) (fr : Fragment) (k : Nat) :
    (s.laneNext g fr k).groups = (s.setGroup (g.stepClause k fr)).groups := by simp [State.laneNext]

@[simp] theorem State.setTeam_cur (s : State) (t : Team) : (s.setTeam t).cur = s.cur := rfl
@[simp] theorem State.setTeam_ord (s : State) (t : Team) : (s.setTeam t).ord = s.ord := rfl
@[simp] theorem State.setTeam_agenda (s : State) (t : Team) : (s.setTeam t).agenda = s.agenda := rfl
@[simp] theorem State.setTeam_inputs (s : State) (t : Team) : (s.setTeam t).inputs = s.inputs := rfl
@[simp] theorem State.setTeam_work (s : State) (t : Team) : (s.setTeam t).work = s.work := rfl
@[simp] theorem State.setTeam_free (s : State) (t : Team) : (s.setTeam t).free = s.free := rfl
@[simp] theorem State.setTeam_cycle (s : State) (t : Team) : (s.setTeam t).cycle = s.cycle := rfl
@[simp] theorem State.setTeam_time (s : State) (t : Team) : (s.setTeam t).time = s.time := rfl
@[simp] theorem State.setTeam_frac (s : State) (t : Team) : (s.setTeam t).frac = s.frac := rfl
@[simp] theorem State.setTeam_nextId (s : State) (t : Team) : (s.setTeam t).nextId = s.nextId := rfl
@[simp] theorem State.setTeam_groups (s : State) (t : Team) : (s.setTeam t).groups = s.groups := rfl
@[simp] theorem State.setTeam_snaps (s : State) (t : Team) : (s.setTeam t).snaps = s.snaps := rfl
@[simp] theorem State.setTeam_teams (s : State) (t : Team) : (s.setTeam t).teams = s.teams.map fun u => if u.tid == t.tid then t else u := rfl
@[simp] theorem State.setTeam_clusters (s : State) (t : Team) : (s.setTeam t).clusters = s.clusters := rfl
@[simp] theorem State.setTeam_launches (s : State) (t : Team) : (s.setTeam t).launches = s.launches := rfl
@[simp] theorem State.setTeam_contexts (s : State) (t : Team) : (s.setTeam t).contexts = s.contexts := rfl
@[simp] theorem State.setTeam_asts (s : State) (t : Team) : (s.setTeam t).asts = s.asts := rfl
@[simp] theorem State.setTeam_copies (s : State) (t : Team) : (s.setTeam t).copies = s.copies := rfl
@[simp] theorem State.setTeam_walks (s : State) (t : Team) : (s.setTeam t).walks = s.walks := rfl
@[simp] theorem State.setTeam_handlers (s : State) (t : Team) : (s.setTeam t).handlers = s.handlers := rfl
@[simp] theorem State.setTeam_tlb (s : State) (t : Team) : (s.setTeam t).tlb = s.tlb := rfl
@[simp] theorem State.setTeam_ats (s : State) (t : Team) : (s.setTeam t).ats = s.ats := rfl
@[simp] theorem State.setTeam_chip (s : State) (t : Team) : (s.setTeam t).chip = s.chip := rfl
@[simp] theorem State.setTeam_chipMeta (s : State) (t : Team) : (s.setTeam t).chipMeta = s.chipMeta := rfl
@[simp] theorem State.setTeam_hbm (s : State) (t : Team) : (s.setTeam t).hbm = s.hbm := rfl
@[simp] theorem State.setTeam_hbmMeta (s : State) (t : Team) : (s.setTeam t).hbmMeta = s.hbmMeta := rfl
@[simp] theorem State.setTeam_s2 (s : State) (t : Team) : (s.setTeam t).s2 = s.s2 := rfl
@[simp] theorem State.setTeam_hostMem (s : State) (t : Team) : (s.setTeam t).hostMem = s.hostMem := rfl
@[simp] theorem State.setTeam_undurable (s : State) (t : Team) : (s.setTeam t).undurable = s.undurable := rfl
@[simp] theorem State.setTeam_peerMem (s : State) (t : Team) : (s.setTeam t).peerMem = s.peerMem := rfl
@[simp] theorem State.setTeam_l1 (s : State) (t : Team) : (s.setTeam t).l1 = s.l1 := rfl
@[simp] theorem State.setTeam_dir (s : State) (t : Team) : (s.setTeam t).dir = s.dir := rfl
@[simp] theorem State.setTeam_regions (s : State) (t : Team) : (s.setTeam t).regions = s.regions := rfl
@[simp] theorem State.setTeam_txns (s : State) (t : Team) : (s.setTeam t).txns = s.txns := rfl
@[simp] theorem State.setTeam_slices (s : State) (t : Team) : (s.setTeam t).slices = s.slices := rfl
@[simp] theorem State.setTeam_parts (s : State) (t : Team) : (s.setTeam t).parts = s.parts := rfl
@[simp] theorem State.setTeam_dev (s : State) (t : Team) : (s.setTeam t).dev = s.dev := rfl

@[simp] theorem State.setLaunch_cur (s : State) (l : Launch) : (s.setLaunch l).cur = s.cur := rfl
@[simp] theorem State.setLaunch_ord (s : State) (l : Launch) : (s.setLaunch l).ord = s.ord := rfl
@[simp] theorem State.setLaunch_agenda (s : State) (l : Launch) : (s.setLaunch l).agenda = s.agenda := rfl
@[simp] theorem State.setLaunch_inputs (s : State) (l : Launch) : (s.setLaunch l).inputs = s.inputs := rfl
@[simp] theorem State.setLaunch_work (s : State) (l : Launch) : (s.setLaunch l).work = s.work := rfl
@[simp] theorem State.setLaunch_free (s : State) (l : Launch) : (s.setLaunch l).free = s.free := rfl
@[simp] theorem State.setLaunch_cycle (s : State) (l : Launch) : (s.setLaunch l).cycle = s.cycle := rfl
@[simp] theorem State.setLaunch_time (s : State) (l : Launch) : (s.setLaunch l).time = s.time := rfl
@[simp] theorem State.setLaunch_frac (s : State) (l : Launch) : (s.setLaunch l).frac = s.frac := rfl
@[simp] theorem State.setLaunch_nextId (s : State) (l : Launch) : (s.setLaunch l).nextId = s.nextId := rfl
@[simp] theorem State.setLaunch_groups (s : State) (l : Launch) : (s.setLaunch l).groups = s.groups := rfl
@[simp] theorem State.setLaunch_snaps (s : State) (l : Launch) : (s.setLaunch l).snaps = s.snaps := rfl
@[simp] theorem State.setLaunch_teams (s : State) (l : Launch) : (s.setLaunch l).teams = s.teams := rfl
@[simp] theorem State.setLaunch_clusters (s : State) (l : Launch) : (s.setLaunch l).clusters = s.clusters := rfl
@[simp] theorem State.setLaunch_launches (s : State) (l : Launch) : (s.setLaunch l).launches = s.launches.map fun m => if m.lid == l.lid then l else m := rfl
@[simp] theorem State.setLaunch_contexts (s : State) (l : Launch) : (s.setLaunch l).contexts = s.contexts := rfl
@[simp] theorem State.setLaunch_asts (s : State) (l : Launch) : (s.setLaunch l).asts = s.asts := rfl
@[simp] theorem State.setLaunch_copies (s : State) (l : Launch) : (s.setLaunch l).copies = s.copies := rfl
@[simp] theorem State.setLaunch_walks (s : State) (l : Launch) : (s.setLaunch l).walks = s.walks := rfl
@[simp] theorem State.setLaunch_handlers (s : State) (l : Launch) : (s.setLaunch l).handlers = s.handlers := rfl
@[simp] theorem State.setLaunch_tlb (s : State) (l : Launch) : (s.setLaunch l).tlb = s.tlb := rfl
@[simp] theorem State.setLaunch_ats (s : State) (l : Launch) : (s.setLaunch l).ats = s.ats := rfl
@[simp] theorem State.setLaunch_chip (s : State) (l : Launch) : (s.setLaunch l).chip = s.chip := rfl
@[simp] theorem State.setLaunch_chipMeta (s : State) (l : Launch) : (s.setLaunch l).chipMeta = s.chipMeta := rfl
@[simp] theorem State.setLaunch_hbm (s : State) (l : Launch) : (s.setLaunch l).hbm = s.hbm := rfl
@[simp] theorem State.setLaunch_hbmMeta (s : State) (l : Launch) : (s.setLaunch l).hbmMeta = s.hbmMeta := rfl
@[simp] theorem State.setLaunch_s2 (s : State) (l : Launch) : (s.setLaunch l).s2 = s.s2 := rfl
@[simp] theorem State.setLaunch_hostMem (s : State) (l : Launch) : (s.setLaunch l).hostMem = s.hostMem := rfl
@[simp] theorem State.setLaunch_undurable (s : State) (l : Launch) : (s.setLaunch l).undurable = s.undurable := rfl
@[simp] theorem State.setLaunch_peerMem (s : State) (l : Launch) : (s.setLaunch l).peerMem = s.peerMem := rfl
@[simp] theorem State.setLaunch_l1 (s : State) (l : Launch) : (s.setLaunch l).l1 = s.l1 := rfl
@[simp] theorem State.setLaunch_dir (s : State) (l : Launch) : (s.setLaunch l).dir = s.dir := rfl
@[simp] theorem State.setLaunch_regions (s : State) (l : Launch) : (s.setLaunch l).regions = s.regions := rfl
@[simp] theorem State.setLaunch_txns (s : State) (l : Launch) : (s.setLaunch l).txns = s.txns := rfl
@[simp] theorem State.setLaunch_slices (s : State) (l : Launch) : (s.setLaunch l).slices = s.slices := rfl
@[simp] theorem State.setLaunch_parts (s : State) (l : Launch) : (s.setLaunch l).parts = s.parts := rfl
@[simp] theorem State.setLaunch_dev (s : State) (l : Launch) : (s.setLaunch l).dev = s.dev := rfl

@[simp] theorem State.setCtx_cur (s : State) (c : Context) : (s.setCtx c).cur = s.cur := rfl
@[simp] theorem State.setCtx_ord (s : State) (c : Context) : (s.setCtx c).ord = s.ord := rfl
@[simp] theorem State.setCtx_agenda (s : State) (c : Context) : (s.setCtx c).agenda = s.agenda := rfl
@[simp] theorem State.setCtx_inputs (s : State) (c : Context) : (s.setCtx c).inputs = s.inputs := rfl
@[simp] theorem State.setCtx_work (s : State) (c : Context) : (s.setCtx c).work = s.work := rfl
@[simp] theorem State.setCtx_free (s : State) (c : Context) : (s.setCtx c).free = s.free := rfl
@[simp] theorem State.setCtx_cycle (s : State) (c : Context) : (s.setCtx c).cycle = s.cycle := rfl
@[simp] theorem State.setCtx_time (s : State) (c : Context) : (s.setCtx c).time = s.time := rfl
@[simp] theorem State.setCtx_frac (s : State) (c : Context) : (s.setCtx c).frac = s.frac := rfl
@[simp] theorem State.setCtx_nextId (s : State) (c : Context) : (s.setCtx c).nextId = s.nextId := rfl
@[simp] theorem State.setCtx_groups (s : State) (c : Context) : (s.setCtx c).groups = s.groups := rfl
@[simp] theorem State.setCtx_snaps (s : State) (c : Context) : (s.setCtx c).snaps = s.snaps := rfl
@[simp] theorem State.setCtx_teams (s : State) (c : Context) : (s.setCtx c).teams = s.teams := rfl
@[simp] theorem State.setCtx_clusters (s : State) (c : Context) : (s.setCtx c).clusters = s.clusters := rfl
@[simp] theorem State.setCtx_launches (s : State) (c : Context) : (s.setCtx c).launches = s.launches := rfl
@[simp] theorem State.setCtx_contexts (s : State) (c : Context) : (s.setCtx c).contexts = upsert (fun d => d.cid == c.cid) c s.contexts := rfl
@[simp] theorem State.setCtx_asts (s : State) (c : Context) : (s.setCtx c).asts = s.asts := rfl
@[simp] theorem State.setCtx_copies (s : State) (c : Context) : (s.setCtx c).copies = s.copies := rfl
@[simp] theorem State.setCtx_walks (s : State) (c : Context) : (s.setCtx c).walks = s.walks := rfl
@[simp] theorem State.setCtx_handlers (s : State) (c : Context) : (s.setCtx c).handlers = s.handlers := rfl
@[simp] theorem State.setCtx_tlb (s : State) (c : Context) : (s.setCtx c).tlb = s.tlb := rfl
@[simp] theorem State.setCtx_ats (s : State) (c : Context) : (s.setCtx c).ats = s.ats := rfl
@[simp] theorem State.setCtx_chip (s : State) (c : Context) : (s.setCtx c).chip = s.chip := rfl
@[simp] theorem State.setCtx_chipMeta (s : State) (c : Context) : (s.setCtx c).chipMeta = s.chipMeta := rfl
@[simp] theorem State.setCtx_hbm (s : State) (c : Context) : (s.setCtx c).hbm = s.hbm := rfl
@[simp] theorem State.setCtx_hbmMeta (s : State) (c : Context) : (s.setCtx c).hbmMeta = s.hbmMeta := rfl
@[simp] theorem State.setCtx_s2 (s : State) (c : Context) : (s.setCtx c).s2 = s.s2 := rfl
@[simp] theorem State.setCtx_hostMem (s : State) (c : Context) : (s.setCtx c).hostMem = s.hostMem := rfl
@[simp] theorem State.setCtx_undurable (s : State) (c : Context) : (s.setCtx c).undurable = s.undurable := rfl
@[simp] theorem State.setCtx_peerMem (s : State) (c : Context) : (s.setCtx c).peerMem = s.peerMem := rfl
@[simp] theorem State.setCtx_l1 (s : State) (c : Context) : (s.setCtx c).l1 = s.l1 := rfl
@[simp] theorem State.setCtx_dir (s : State) (c : Context) : (s.setCtx c).dir = s.dir := rfl
@[simp] theorem State.setCtx_regions (s : State) (c : Context) : (s.setCtx c).regions = s.regions := rfl
@[simp] theorem State.setCtx_txns (s : State) (c : Context) : (s.setCtx c).txns = s.txns := rfl
@[simp] theorem State.setCtx_slices (s : State) (c : Context) : (s.setCtx c).slices = s.slices := rfl
@[simp] theorem State.setCtx_parts (s : State) (c : Context) : (s.setCtx c).parts = s.parts := rfl
@[simp] theorem State.setCtx_dev (s : State) (c : Context) : (s.setCtx c).dev = s.dev := rfl

@[simp] theorem State.setPart_cur (s : State) (p : Part) : (s.setPart p).cur = s.cur := rfl
@[simp] theorem State.setPart_ord (s : State) (p : Part) : (s.setPart p).ord = s.ord := rfl
@[simp] theorem State.setPart_agenda (s : State) (p : Part) : (s.setPart p).agenda = s.agenda := rfl
@[simp] theorem State.setPart_inputs (s : State) (p : Part) : (s.setPart p).inputs = s.inputs := rfl
@[simp] theorem State.setPart_work (s : State) (p : Part) : (s.setPart p).work = s.work := rfl
@[simp] theorem State.setPart_free (s : State) (p : Part) : (s.setPart p).free = s.free := rfl
@[simp] theorem State.setPart_cycle (s : State) (p : Part) : (s.setPart p).cycle = s.cycle := rfl
@[simp] theorem State.setPart_time (s : State) (p : Part) : (s.setPart p).time = s.time := rfl
@[simp] theorem State.setPart_frac (s : State) (p : Part) : (s.setPart p).frac = s.frac := rfl
@[simp] theorem State.setPart_nextId (s : State) (p : Part) : (s.setPart p).nextId = s.nextId := rfl
@[simp] theorem State.setPart_groups (s : State) (p : Part) : (s.setPart p).groups = s.groups := rfl
@[simp] theorem State.setPart_snaps (s : State) (p : Part) : (s.setPart p).snaps = s.snaps := rfl
@[simp] theorem State.setPart_teams (s : State) (p : Part) : (s.setPart p).teams = s.teams := rfl
@[simp] theorem State.setPart_clusters (s : State) (p : Part) : (s.setPart p).clusters = s.clusters := rfl
@[simp] theorem State.setPart_launches (s : State) (p : Part) : (s.setPart p).launches = s.launches := rfl
@[simp] theorem State.setPart_contexts (s : State) (p : Part) : (s.setPart p).contexts = s.contexts := rfl
@[simp] theorem State.setPart_asts (s : State) (p : Part) : (s.setPart p).asts = s.asts := rfl
@[simp] theorem State.setPart_copies (s : State) (p : Part) : (s.setPart p).copies = s.copies := rfl
@[simp] theorem State.setPart_walks (s : State) (p : Part) : (s.setPart p).walks = s.walks := rfl
@[simp] theorem State.setPart_handlers (s : State) (p : Part) : (s.setPart p).handlers = s.handlers := rfl
@[simp] theorem State.setPart_tlb (s : State) (p : Part) : (s.setPart p).tlb = s.tlb := rfl
@[simp] theorem State.setPart_ats (s : State) (p : Part) : (s.setPart p).ats = s.ats := rfl
@[simp] theorem State.setPart_chip (s : State) (p : Part) : (s.setPart p).chip = s.chip := rfl
@[simp] theorem State.setPart_chipMeta (s : State) (p : Part) : (s.setPart p).chipMeta = s.chipMeta := rfl
@[simp] theorem State.setPart_hbm (s : State) (p : Part) : (s.setPart p).hbm = s.hbm := rfl
@[simp] theorem State.setPart_hbmMeta (s : State) (p : Part) : (s.setPart p).hbmMeta = s.hbmMeta := rfl
@[simp] theorem State.setPart_s2 (s : State) (p : Part) : (s.setPart p).s2 = s.s2 := rfl
@[simp] theorem State.setPart_hostMem (s : State) (p : Part) : (s.setPart p).hostMem = s.hostMem := rfl
@[simp] theorem State.setPart_undurable (s : State) (p : Part) : (s.setPart p).undurable = s.undurable := rfl
@[simp] theorem State.setPart_peerMem (s : State) (p : Part) : (s.setPart p).peerMem = s.peerMem := rfl
@[simp] theorem State.setPart_l1 (s : State) (p : Part) : (s.setPart p).l1 = s.l1 := rfl
@[simp] theorem State.setPart_dir (s : State) (p : Part) : (s.setPart p).dir = s.dir := rfl
@[simp] theorem State.setPart_regions (s : State) (p : Part) : (s.setPart p).regions = s.regions := rfl
@[simp] theorem State.setPart_txns (s : State) (p : Part) : (s.setPart p).txns = s.txns := rfl
@[simp] theorem State.setPart_slices (s : State) (p : Part) : (s.setPart p).slices = s.slices := rfl
@[simp] theorem State.setPart_parts (s : State) (p : Part) : (s.setPart p).parts = upsert (fun q => q.id == p.id) p s.parts := rfl
@[simp] theorem State.setPart_dev (s : State) (p : Part) : (s.setPart p).dev = s.dev := rfl

@[simp] theorem State.setAst_cur (s : State) (a : Ast) : (s.setAst a).cur = s.cur := rfl
@[simp] theorem State.setAst_ord (s : State) (a : Ast) : (s.setAst a).ord = s.ord := rfl
@[simp] theorem State.setAst_agenda (s : State) (a : Ast) : (s.setAst a).agenda = s.agenda := rfl
@[simp] theorem State.setAst_inputs (s : State) (a : Ast) : (s.setAst a).inputs = s.inputs := rfl
@[simp] theorem State.setAst_work (s : State) (a : Ast) : (s.setAst a).work = s.work := rfl
@[simp] theorem State.setAst_free (s : State) (a : Ast) : (s.setAst a).free = s.free := rfl
@[simp] theorem State.setAst_cycle (s : State) (a : Ast) : (s.setAst a).cycle = s.cycle := rfl
@[simp] theorem State.setAst_time (s : State) (a : Ast) : (s.setAst a).time = s.time := rfl
@[simp] theorem State.setAst_frac (s : State) (a : Ast) : (s.setAst a).frac = s.frac := rfl
@[simp] theorem State.setAst_nextId (s : State) (a : Ast) : (s.setAst a).nextId = s.nextId := rfl
@[simp] theorem State.setAst_groups (s : State) (a : Ast) : (s.setAst a).groups = s.groups := rfl
@[simp] theorem State.setAst_snaps (s : State) (a : Ast) : (s.setAst a).snaps = s.snaps := rfl
@[simp] theorem State.setAst_teams (s : State) (a : Ast) : (s.setAst a).teams = s.teams := rfl
@[simp] theorem State.setAst_clusters (s : State) (a : Ast) : (s.setAst a).clusters = s.clusters := rfl
@[simp] theorem State.setAst_launches (s : State) (a : Ast) : (s.setAst a).launches = s.launches := rfl
@[simp] theorem State.setAst_contexts (s : State) (a : Ast) : (s.setAst a).contexts = s.contexts := rfl
@[simp] theorem State.setAst_asts (s : State) (a : Ast) : (s.setAst a).asts = upsert (fun b => b.aid == a.aid) a s.asts := rfl
@[simp] theorem State.setAst_copies (s : State) (a : Ast) : (s.setAst a).copies = s.copies := rfl
@[simp] theorem State.setAst_walks (s : State) (a : Ast) : (s.setAst a).walks = s.walks := rfl
@[simp] theorem State.setAst_handlers (s : State) (a : Ast) : (s.setAst a).handlers = s.handlers := rfl
@[simp] theorem State.setAst_tlb (s : State) (a : Ast) : (s.setAst a).tlb = s.tlb := rfl
@[simp] theorem State.setAst_ats (s : State) (a : Ast) : (s.setAst a).ats = s.ats := rfl
@[simp] theorem State.setAst_chip (s : State) (a : Ast) : (s.setAst a).chip = s.chip := rfl
@[simp] theorem State.setAst_chipMeta (s : State) (a : Ast) : (s.setAst a).chipMeta = s.chipMeta := rfl
@[simp] theorem State.setAst_hbm (s : State) (a : Ast) : (s.setAst a).hbm = s.hbm := rfl
@[simp] theorem State.setAst_hbmMeta (s : State) (a : Ast) : (s.setAst a).hbmMeta = s.hbmMeta := rfl
@[simp] theorem State.setAst_s2 (s : State) (a : Ast) : (s.setAst a).s2 = s.s2 := rfl
@[simp] theorem State.setAst_hostMem (s : State) (a : Ast) : (s.setAst a).hostMem = s.hostMem := rfl
@[simp] theorem State.setAst_undurable (s : State) (a : Ast) : (s.setAst a).undurable = s.undurable := rfl
@[simp] theorem State.setAst_peerMem (s : State) (a : Ast) : (s.setAst a).peerMem = s.peerMem := rfl
@[simp] theorem State.setAst_l1 (s : State) (a : Ast) : (s.setAst a).l1 = s.l1 := rfl
@[simp] theorem State.setAst_dir (s : State) (a : Ast) : (s.setAst a).dir = s.dir := rfl
@[simp] theorem State.setAst_regions (s : State) (a : Ast) : (s.setAst a).regions = s.regions := rfl
@[simp] theorem State.setAst_txns (s : State) (a : Ast) : (s.setAst a).txns = s.txns := rfl
@[simp] theorem State.setAst_slices (s : State) (a : Ast) : (s.setAst a).slices = s.slices := rfl
@[simp] theorem State.setAst_parts (s : State) (a : Ast) : (s.setAst a).parts = s.parts := rfl
@[simp] theorem State.setAst_dev (s : State) (a : Ast) : (s.setAst a).dev = s.dev := rfl

@[simp] theorem State.setDir_cur (s : State) (e : DirEntry) : (s.setDir e).cur = s.cur := rfl
@[simp] theorem State.setDir_ord (s : State) (e : DirEntry) : (s.setDir e).ord = s.ord := rfl
@[simp] theorem State.setDir_agenda (s : State) (e : DirEntry) : (s.setDir e).agenda = s.agenda := rfl
@[simp] theorem State.setDir_inputs (s : State) (e : DirEntry) : (s.setDir e).inputs = s.inputs := rfl
@[simp] theorem State.setDir_work (s : State) (e : DirEntry) : (s.setDir e).work = s.work := rfl
@[simp] theorem State.setDir_free (s : State) (e : DirEntry) : (s.setDir e).free = s.free := rfl
@[simp] theorem State.setDir_cycle (s : State) (e : DirEntry) : (s.setDir e).cycle = s.cycle := rfl
@[simp] theorem State.setDir_time (s : State) (e : DirEntry) : (s.setDir e).time = s.time := rfl
@[simp] theorem State.setDir_frac (s : State) (e : DirEntry) : (s.setDir e).frac = s.frac := rfl
@[simp] theorem State.setDir_nextId (s : State) (e : DirEntry) : (s.setDir e).nextId = s.nextId := rfl
@[simp] theorem State.setDir_groups (s : State) (e : DirEntry) : (s.setDir e).groups = s.groups := rfl
@[simp] theorem State.setDir_snaps (s : State) (e : DirEntry) : (s.setDir e).snaps = s.snaps := rfl
@[simp] theorem State.setDir_teams (s : State) (e : DirEntry) : (s.setDir e).teams = s.teams := rfl
@[simp] theorem State.setDir_clusters (s : State) (e : DirEntry) : (s.setDir e).clusters = s.clusters := rfl
@[simp] theorem State.setDir_launches (s : State) (e : DirEntry) : (s.setDir e).launches = s.launches := rfl
@[simp] theorem State.setDir_contexts (s : State) (e : DirEntry) : (s.setDir e).contexts = s.contexts := rfl
@[simp] theorem State.setDir_asts (s : State) (e : DirEntry) : (s.setDir e).asts = s.asts := rfl
@[simp] theorem State.setDir_copies (s : State) (e : DirEntry) : (s.setDir e).copies = s.copies := rfl
@[simp] theorem State.setDir_walks (s : State) (e : DirEntry) : (s.setDir e).walks = s.walks := rfl
@[simp] theorem State.setDir_handlers (s : State) (e : DirEntry) : (s.setDir e).handlers = s.handlers := rfl
@[simp] theorem State.setDir_tlb (s : State) (e : DirEntry) : (s.setDir e).tlb = s.tlb := rfl
@[simp] theorem State.setDir_ats (s : State) (e : DirEntry) : (s.setDir e).ats = s.ats := rfl
@[simp] theorem State.setDir_chip (s : State) (e : DirEntry) : (s.setDir e).chip = s.chip := rfl
@[simp] theorem State.setDir_chipMeta (s : State) (e : DirEntry) : (s.setDir e).chipMeta = s.chipMeta := rfl
@[simp] theorem State.setDir_hbm (s : State) (e : DirEntry) : (s.setDir e).hbm = s.hbm := rfl
@[simp] theorem State.setDir_hbmMeta (s : State) (e : DirEntry) : (s.setDir e).hbmMeta = s.hbmMeta := rfl
@[simp] theorem State.setDir_s2 (s : State) (e : DirEntry) : (s.setDir e).s2 = s.s2 := rfl
@[simp] theorem State.setDir_hostMem (s : State) (e : DirEntry) : (s.setDir e).hostMem = s.hostMem := rfl
@[simp] theorem State.setDir_undurable (s : State) (e : DirEntry) : (s.setDir e).undurable = s.undurable := rfl
@[simp] theorem State.setDir_peerMem (s : State) (e : DirEntry) : (s.setDir e).peerMem = s.peerMem := rfl
@[simp] theorem State.setDir_l1 (s : State) (e : DirEntry) : (s.setDir e).l1 = s.l1 := rfl
@[simp] theorem State.setDir_regions (s : State) (e : DirEntry) : (s.setDir e).regions = s.regions := rfl
@[simp] theorem State.setDir_txns (s : State) (e : DirEntry) : (s.setDir e).txns = s.txns := rfl
@[simp] theorem State.setDir_slices (s : State) (e : DirEntry) : (s.setDir e).slices = s.slices := rfl
@[simp] theorem State.setDir_parts (s : State) (e : DirEntry) : (s.setDir e).parts = s.parts := rfl
@[simp] theorem State.setDir_dev (s : State) (e : DirEntry) : (s.setDir e).dev = s.dev := rfl

@[simp] theorem State.setL1_cur (s : State) (core line : Nat) (st : LState) : (s.setL1 core line st).cur = s.cur := by unfold State.setL1; split <;> rfl
@[simp] theorem State.setL1_ord (s : State) (core line : Nat) (st : LState) : (s.setL1 core line st).ord = s.ord := by unfold State.setL1; split <;> rfl
@[simp] theorem State.setL1_agenda (s : State) (core line : Nat) (st : LState) : (s.setL1 core line st).agenda = s.agenda := by unfold State.setL1; split <;> rfl
@[simp] theorem State.setL1_inputs (s : State) (core line : Nat) (st : LState) : (s.setL1 core line st).inputs = s.inputs := by unfold State.setL1; split <;> rfl
@[simp] theorem State.setL1_work (s : State) (core line : Nat) (st : LState) : (s.setL1 core line st).work = s.work := by unfold State.setL1; split <;> rfl
@[simp] theorem State.setL1_free (s : State) (core line : Nat) (st : LState) : (s.setL1 core line st).free = s.free := by unfold State.setL1; split <;> rfl
@[simp] theorem State.setL1_cycle (s : State) (core line : Nat) (st : LState) : (s.setL1 core line st).cycle = s.cycle := by unfold State.setL1; split <;> rfl
@[simp] theorem State.setL1_time (s : State) (core line : Nat) (st : LState) : (s.setL1 core line st).time = s.time := by unfold State.setL1; split <;> rfl
@[simp] theorem State.setL1_frac (s : State) (core line : Nat) (st : LState) : (s.setL1 core line st).frac = s.frac := by unfold State.setL1; split <;> rfl
@[simp] theorem State.setL1_nextId (s : State) (core line : Nat) (st : LState) : (s.setL1 core line st).nextId = s.nextId := by unfold State.setL1; split <;> rfl
@[simp] theorem State.setL1_groups (s : State) (core line : Nat) (st : LState) : (s.setL1 core line st).groups = s.groups := by unfold State.setL1; split <;> rfl
@[simp] theorem State.setL1_snaps (s : State) (core line : Nat) (st : LState) : (s.setL1 core line st).snaps = s.snaps := by unfold State.setL1; split <;> rfl
@[simp] theorem State.setL1_clusters (s : State) (core line : Nat) (st : LState) : (s.setL1 core line st).clusters = s.clusters := by unfold State.setL1; split <;> rfl
@[simp] theorem State.setL1_launches (s : State) (core line : Nat) (st : LState) : (s.setL1 core line st).launches = s.launches := by unfold State.setL1; split <;> rfl
@[simp] theorem State.setL1_contexts (s : State) (core line : Nat) (st : LState) : (s.setL1 core line st).contexts = s.contexts := by unfold State.setL1; split <;> rfl
@[simp] theorem State.setL1_asts (s : State) (core line : Nat) (st : LState) : (s.setL1 core line st).asts = s.asts := by unfold State.setL1; split <;> rfl
@[simp] theorem State.setL1_copies (s : State) (core line : Nat) (st : LState) : (s.setL1 core line st).copies = s.copies := by unfold State.setL1; split <;> rfl
@[simp] theorem State.setL1_walks (s : State) (core line : Nat) (st : LState) : (s.setL1 core line st).walks = s.walks := by unfold State.setL1; split <;> rfl
@[simp] theorem State.setL1_handlers (s : State) (core line : Nat) (st : LState) : (s.setL1 core line st).handlers = s.handlers := by unfold State.setL1; split <;> rfl
@[simp] theorem State.setL1_tlb (s : State) (core line : Nat) (st : LState) : (s.setL1 core line st).tlb = s.tlb := by unfold State.setL1; split <;> rfl
@[simp] theorem State.setL1_ats (s : State) (core line : Nat) (st : LState) : (s.setL1 core line st).ats = s.ats := by unfold State.setL1; split <;> rfl
@[simp] theorem State.setL1_chip (s : State) (core line : Nat) (st : LState) : (s.setL1 core line st).chip = s.chip := by unfold State.setL1; split <;> rfl
@[simp] theorem State.setL1_chipMeta (s : State) (core line : Nat) (st : LState) : (s.setL1 core line st).chipMeta = s.chipMeta := by unfold State.setL1; split <;> rfl
@[simp] theorem State.setL1_hbm (s : State) (core line : Nat) (st : LState) : (s.setL1 core line st).hbm = s.hbm := by unfold State.setL1; split <;> rfl
@[simp] theorem State.setL1_hbmMeta (s : State) (core line : Nat) (st : LState) : (s.setL1 core line st).hbmMeta = s.hbmMeta := by unfold State.setL1; split <;> rfl
@[simp] theorem State.setL1_s2 (s : State) (core line : Nat) (st : LState) : (s.setL1 core line st).s2 = s.s2 := by unfold State.setL1; split <;> rfl
@[simp] theorem State.setL1_hostMem (s : State) (core line : Nat) (st : LState) : (s.setL1 core line st).hostMem = s.hostMem := by unfold State.setL1; split <;> rfl
@[simp] theorem State.setL1_undurable (s : State) (core line : Nat) (st : LState) : (s.setL1 core line st).undurable = s.undurable := by unfold State.setL1; split <;> rfl
@[simp] theorem State.setL1_peerMem (s : State) (core line : Nat) (st : LState) : (s.setL1 core line st).peerMem = s.peerMem := by unfold State.setL1; split <;> rfl
@[simp] theorem State.setL1_dir (s : State) (core line : Nat) (st : LState) : (s.setL1 core line st).dir = s.dir := by unfold State.setL1; split <;> rfl
@[simp] theorem State.setL1_regions (s : State) (core line : Nat) (st : LState) : (s.setL1 core line st).regions = s.regions := by unfold State.setL1; split <;> rfl
@[simp] theorem State.setL1_txns (s : State) (core line : Nat) (st : LState) : (s.setL1 core line st).txns = s.txns := by unfold State.setL1; split <;> rfl
@[simp] theorem State.setL1_slices (s : State) (core line : Nat) (st : LState) : (s.setL1 core line st).slices = s.slices := by unfold State.setL1; split <;> rfl
@[simp] theorem State.setL1_parts (s : State) (core line : Nat) (st : LState) : (s.setL1 core line st).parts = s.parts := by unfold State.setL1; split <;> rfl
@[simp] theorem State.setL1_dev (s : State) (core line : Nat) (st : LState) : (s.setL1 core line st).dev = s.dev := by unfold State.setL1; split <;> rfl

@[simp] theorem State.setRegion_cur (s : State) (r : RegionEntry) : (s.setRegion r).cur = s.cur := rfl
@[simp] theorem State.setRegion_ord (s : State) (r : RegionEntry) : (s.setRegion r).ord = s.ord := rfl
@[simp] theorem State.setRegion_agenda (s : State) (r : RegionEntry) : (s.setRegion r).agenda = s.agenda := rfl
@[simp] theorem State.setRegion_inputs (s : State) (r : RegionEntry) : (s.setRegion r).inputs = s.inputs := rfl
@[simp] theorem State.setRegion_work (s : State) (r : RegionEntry) : (s.setRegion r).work = s.work := rfl
@[simp] theorem State.setRegion_free (s : State) (r : RegionEntry) : (s.setRegion r).free = s.free := rfl
@[simp] theorem State.setRegion_cycle (s : State) (r : RegionEntry) : (s.setRegion r).cycle = s.cycle := rfl
@[simp] theorem State.setRegion_time (s : State) (r : RegionEntry) : (s.setRegion r).time = s.time := rfl
@[simp] theorem State.setRegion_frac (s : State) (r : RegionEntry) : (s.setRegion r).frac = s.frac := rfl
@[simp] theorem State.setRegion_nextId (s : State) (r : RegionEntry) : (s.setRegion r).nextId = s.nextId := rfl
@[simp] theorem State.setRegion_groups (s : State) (r : RegionEntry) : (s.setRegion r).groups = s.groups := rfl
@[simp] theorem State.setRegion_snaps (s : State) (r : RegionEntry) : (s.setRegion r).snaps = s.snaps := rfl
@[simp] theorem State.setRegion_teams (s : State) (r : RegionEntry) : (s.setRegion r).teams = s.teams := rfl
@[simp] theorem State.setRegion_clusters (s : State) (r : RegionEntry) : (s.setRegion r).clusters = s.clusters := rfl
@[simp] theorem State.setRegion_launches (s : State) (r : RegionEntry) : (s.setRegion r).launches = s.launches := rfl
@[simp] theorem State.setRegion_contexts (s : State) (r : RegionEntry) : (s.setRegion r).contexts = s.contexts := rfl
@[simp] theorem State.setRegion_asts (s : State) (r : RegionEntry) : (s.setRegion r).asts = s.asts := rfl
@[simp] theorem State.setRegion_copies (s : State) (r : RegionEntry) : (s.setRegion r).copies = s.copies := rfl
@[simp] theorem State.setRegion_walks (s : State) (r : RegionEntry) : (s.setRegion r).walks = s.walks := rfl
@[simp] theorem State.setRegion_handlers (s : State) (r : RegionEntry) : (s.setRegion r).handlers = s.handlers := rfl
@[simp] theorem State.setRegion_tlb (s : State) (r : RegionEntry) : (s.setRegion r).tlb = s.tlb := rfl
@[simp] theorem State.setRegion_ats (s : State) (r : RegionEntry) : (s.setRegion r).ats = s.ats := rfl
@[simp] theorem State.setRegion_chip (s : State) (r : RegionEntry) : (s.setRegion r).chip = s.chip := rfl
@[simp] theorem State.setRegion_chipMeta (s : State) (r : RegionEntry) : (s.setRegion r).chipMeta = s.chipMeta := rfl
@[simp] theorem State.setRegion_hbm (s : State) (r : RegionEntry) : (s.setRegion r).hbm = s.hbm := rfl
@[simp] theorem State.setRegion_hbmMeta (s : State) (r : RegionEntry) : (s.setRegion r).hbmMeta = s.hbmMeta := rfl
@[simp] theorem State.setRegion_s2 (s : State) (r : RegionEntry) : (s.setRegion r).s2 = s.s2 := rfl
@[simp] theorem State.setRegion_hostMem (s : State) (r : RegionEntry) : (s.setRegion r).hostMem = s.hostMem := rfl
@[simp] theorem State.setRegion_undurable (s : State) (r : RegionEntry) : (s.setRegion r).undurable = s.undurable := rfl
@[simp] theorem State.setRegion_peerMem (s : State) (r : RegionEntry) : (s.setRegion r).peerMem = s.peerMem := rfl
@[simp] theorem State.setRegion_l1 (s : State) (r : RegionEntry) : (s.setRegion r).l1 = s.l1 := rfl
@[simp] theorem State.setRegion_dir (s : State) (r : RegionEntry) : (s.setRegion r).dir = s.dir := rfl
@[simp] theorem State.setRegion_regions (s : State) (r : RegionEntry) : (s.setRegion r).regions = s.regions.map fun q => if q.same r then r else q := rfl
@[simp] theorem State.setRegion_txns (s : State) (r : RegionEntry) : (s.setRegion r).txns = s.txns := rfl
@[simp] theorem State.setRegion_slices (s : State) (r : RegionEntry) : (s.setRegion r).slices = s.slices := rfl
@[simp] theorem State.setRegion_parts (s : State) (r : RegionEntry) : (s.setRegion r).parts = s.parts := rfl
@[simp] theorem State.setRegion_dev (s : State) (r : RegionEntry) : (s.setRegion r).dev = s.dev := rfl

@[simp] theorem State.setWalk_cur (s : State) (w : Walk) : (s.setWalk w).cur = s.cur := rfl
@[simp] theorem State.setWalk_ord (s : State) (w : Walk) : (s.setWalk w).ord = s.ord := rfl
@[simp] theorem State.setWalk_agenda (s : State) (w : Walk) : (s.setWalk w).agenda = s.agenda := rfl
@[simp] theorem State.setWalk_inputs (s : State) (w : Walk) : (s.setWalk w).inputs = s.inputs := rfl
@[simp] theorem State.setWalk_work (s : State) (w : Walk) : (s.setWalk w).work = s.work := rfl
@[simp] theorem State.setWalk_free (s : State) (w : Walk) : (s.setWalk w).free = s.free := rfl
@[simp] theorem State.setWalk_cycle (s : State) (w : Walk) : (s.setWalk w).cycle = s.cycle := rfl
@[simp] theorem State.setWalk_time (s : State) (w : Walk) : (s.setWalk w).time = s.time := rfl
@[simp] theorem State.setWalk_frac (s : State) (w : Walk) : (s.setWalk w).frac = s.frac := rfl
@[simp] theorem State.setWalk_nextId (s : State) (w : Walk) : (s.setWalk w).nextId = s.nextId := rfl
@[simp] theorem State.setWalk_groups (s : State) (w : Walk) : (s.setWalk w).groups = s.groups := rfl
@[simp] theorem State.setWalk_snaps (s : State) (w : Walk) : (s.setWalk w).snaps = s.snaps := rfl
@[simp] theorem State.setWalk_teams (s : State) (w : Walk) : (s.setWalk w).teams = s.teams := rfl
@[simp] theorem State.setWalk_clusters (s : State) (w : Walk) : (s.setWalk w).clusters = s.clusters := rfl
@[simp] theorem State.setWalk_launches (s : State) (w : Walk) : (s.setWalk w).launches = s.launches := rfl
@[simp] theorem State.setWalk_contexts (s : State) (w : Walk) : (s.setWalk w).contexts = s.contexts := rfl
@[simp] theorem State.setWalk_asts (s : State) (w : Walk) : (s.setWalk w).asts = s.asts := rfl
@[simp] theorem State.setWalk_copies (s : State) (w : Walk) : (s.setWalk w).copies = s.copies := rfl
@[simp] theorem State.setWalk_walks (s : State) (w : Walk) : (s.setWalk w).walks = s.walks.map fun x => if x.id == w.id then w else x := rfl
@[simp] theorem State.setWalk_handlers (s : State) (w : Walk) : (s.setWalk w).handlers = s.handlers := rfl
@[simp] theorem State.setWalk_tlb (s : State) (w : Walk) : (s.setWalk w).tlb = s.tlb := rfl
@[simp] theorem State.setWalk_ats (s : State) (w : Walk) : (s.setWalk w).ats = s.ats := rfl
@[simp] theorem State.setWalk_chip (s : State) (w : Walk) : (s.setWalk w).chip = s.chip := rfl
@[simp] theorem State.setWalk_chipMeta (s : State) (w : Walk) : (s.setWalk w).chipMeta = s.chipMeta := rfl
@[simp] theorem State.setWalk_hbm (s : State) (w : Walk) : (s.setWalk w).hbm = s.hbm := rfl
@[simp] theorem State.setWalk_hbmMeta (s : State) (w : Walk) : (s.setWalk w).hbmMeta = s.hbmMeta := rfl
@[simp] theorem State.setWalk_s2 (s : State) (w : Walk) : (s.setWalk w).s2 = s.s2 := rfl
@[simp] theorem State.setWalk_hostMem (s : State) (w : Walk) : (s.setWalk w).hostMem = s.hostMem := rfl
@[simp] theorem State.setWalk_undurable (s : State) (w : Walk) : (s.setWalk w).undurable = s.undurable := rfl
@[simp] theorem State.setWalk_peerMem (s : State) (w : Walk) : (s.setWalk w).peerMem = s.peerMem := rfl
@[simp] theorem State.setWalk_l1 (s : State) (w : Walk) : (s.setWalk w).l1 = s.l1 := rfl
@[simp] theorem State.setWalk_dir (s : State) (w : Walk) : (s.setWalk w).dir = s.dir := rfl
@[simp] theorem State.setWalk_regions (s : State) (w : Walk) : (s.setWalk w).regions = s.regions := rfl
@[simp] theorem State.setWalk_txns (s : State) (w : Walk) : (s.setWalk w).txns = s.txns := rfl
@[simp] theorem State.setWalk_slices (s : State) (w : Walk) : (s.setWalk w).slices = s.slices := rfl
@[simp] theorem State.setWalk_parts (s : State) (w : Walk) : (s.setWalk w).parts = s.parts := rfl
@[simp] theorem State.setWalk_dev (s : State) (w : Walk) : (s.setWalk w).dev = s.dev := rfl

@[simp] theorem State.tick_cur (s : State)  : (s.tick ).cur = s.cur := rfl
@[simp] theorem State.tick_ord (s : State)  : (s.tick ).ord = s.ord := rfl
@[simp] theorem State.tick_agenda (s : State)  : (s.tick ).agenda = s.agenda := rfl
@[simp] theorem State.tick_inputs (s : State)  : (s.tick ).inputs = s.inputs := rfl
@[simp] theorem State.tick_work (s : State)  : (s.tick ).work = s.work := rfl
@[simp] theorem State.tick_free (s : State)  : (s.tick ).free = s.free + 1 := rfl
@[simp] theorem State.tick_nextId (s : State)  : (s.tick ).nextId = s.nextId := rfl
@[simp] theorem State.tick_groups (s : State)  : (s.tick ).groups = s.groups := rfl
@[simp] theorem State.tick_snaps (s : State)  : (s.tick ).snaps = s.snaps := rfl
@[simp] theorem State.tick_teams (s : State)  : (s.tick ).teams = s.teams := rfl
@[simp] theorem State.tick_clusters (s : State)  : (s.tick ).clusters = s.clusters := rfl
@[simp] theorem State.tick_launches (s : State)  : (s.tick ).launches = s.launches := rfl
@[simp] theorem State.tick_contexts (s : State)  : (s.tick ).contexts = s.contexts := rfl
@[simp] theorem State.tick_asts (s : State)  : (s.tick ).asts = s.asts := rfl
@[simp] theorem State.tick_copies (s : State)  : (s.tick ).copies = s.copies := rfl
@[simp] theorem State.tick_walks (s : State)  : (s.tick ).walks = s.walks := rfl
@[simp] theorem State.tick_handlers (s : State)  : (s.tick ).handlers = s.handlers := rfl
@[simp] theorem State.tick_tlb (s : State)  : (s.tick ).tlb = s.tlb := rfl
@[simp] theorem State.tick_ats (s : State)  : (s.tick ).ats = s.ats := rfl
@[simp] theorem State.tick_chip (s : State)  : (s.tick ).chip = s.chip := rfl
@[simp] theorem State.tick_chipMeta (s : State)  : (s.tick ).chipMeta = s.chipMeta := rfl
@[simp] theorem State.tick_hbm (s : State)  : (s.tick ).hbm = s.hbm := rfl
@[simp] theorem State.tick_hbmMeta (s : State)  : (s.tick ).hbmMeta = s.hbmMeta := rfl
@[simp] theorem State.tick_s2 (s : State)  : (s.tick ).s2 = s.s2 := rfl
@[simp] theorem State.tick_hostMem (s : State)  : (s.tick ).hostMem = s.hostMem := rfl
@[simp] theorem State.tick_undurable (s : State)  : (s.tick ).undurable = s.undurable := rfl
@[simp] theorem State.tick_peerMem (s : State)  : (s.tick ).peerMem = s.peerMem := rfl
@[simp] theorem State.tick_l1 (s : State)  : (s.tick ).l1 = s.l1 := rfl
@[simp] theorem State.tick_dir (s : State)  : (s.tick ).dir = s.dir := rfl
@[simp] theorem State.tick_regions (s : State)  : (s.tick ).regions = s.regions := rfl
@[simp] theorem State.tick_txns (s : State)  : (s.tick ).txns = s.txns := rfl
@[simp] theorem State.tick_slices (s : State)  : (s.tick ).slices = s.slices := rfl
@[simp] theorem State.tick_parts (s : State)  : (s.tick ).parts = s.parts := rfl

@[simp] theorem State.post_cur (s : State) (e : Ev) : (s.post e).cur = s.cur := by unfold State.post; split <;> rfl
@[simp] theorem State.post_ord (s : State) (e : Ev) : (s.post e).ord = s.ord := by unfold State.post; split <;> rfl
@[simp] theorem State.post_agenda (s : State) (e : Ev) : (s.post e).agenda = s.agenda := by unfold State.post; split <;> rfl
@[simp] theorem State.post_inputs (s : State) (e : Ev) : (s.post e).inputs = s.inputs := by unfold State.post; split <;> rfl
@[simp] theorem State.post_free (s : State) (e : Ev) : (s.post e).free = s.free := by unfold State.post; split <;> rfl
@[simp] theorem State.post_cycle (s : State) (e : Ev) : (s.post e).cycle = s.cycle := by unfold State.post; split <;> rfl
@[simp] theorem State.post_time (s : State) (e : Ev) : (s.post e).time = s.time := by unfold State.post; split <;> rfl
@[simp] theorem State.post_frac (s : State) (e : Ev) : (s.post e).frac = s.frac := by unfold State.post; split <;> rfl
@[simp] theorem State.post_nextId (s : State) (e : Ev) : (s.post e).nextId = s.nextId := by unfold State.post; split <;> rfl
@[simp] theorem State.post_groups (s : State) (e : Ev) : (s.post e).groups = s.groups := by unfold State.post; split <;> rfl
@[simp] theorem State.post_snaps (s : State) (e : Ev) : (s.post e).snaps = s.snaps := by unfold State.post; split <;> rfl
@[simp] theorem State.post_teams (s : State) (e : Ev) : (s.post e).teams = s.teams := by unfold State.post; split <;> rfl
@[simp] theorem State.post_clusters (s : State) (e : Ev) : (s.post e).clusters = s.clusters := by unfold State.post; split <;> rfl
@[simp] theorem State.post_launches (s : State) (e : Ev) : (s.post e).launches = s.launches := by unfold State.post; split <;> rfl
@[simp] theorem State.post_contexts (s : State) (e : Ev) : (s.post e).contexts = s.contexts := by unfold State.post; split <;> rfl
@[simp] theorem State.post_asts (s : State) (e : Ev) : (s.post e).asts = s.asts := by unfold State.post; split <;> rfl
@[simp] theorem State.post_copies (s : State) (e : Ev) : (s.post e).copies = s.copies := by unfold State.post; split <;> rfl
@[simp] theorem State.post_walks (s : State) (e : Ev) : (s.post e).walks = s.walks := by unfold State.post; split <;> rfl
@[simp] theorem State.post_handlers (s : State) (e : Ev) : (s.post e).handlers = s.handlers := by unfold State.post; split <;> rfl
@[simp] theorem State.post_tlb (s : State) (e : Ev) : (s.post e).tlb = s.tlb := by unfold State.post; split <;> rfl
@[simp] theorem State.post_ats (s : State) (e : Ev) : (s.post e).ats = s.ats := by unfold State.post; split <;> rfl
@[simp] theorem State.post_chip (s : State) (e : Ev) : (s.post e).chip = s.chip := by unfold State.post; split <;> rfl
@[simp] theorem State.post_chipMeta (s : State) (e : Ev) : (s.post e).chipMeta = s.chipMeta := by unfold State.post; split <;> rfl
@[simp] theorem State.post_hbm (s : State) (e : Ev) : (s.post e).hbm = s.hbm := by unfold State.post; split <;> rfl
@[simp] theorem State.post_hbmMeta (s : State) (e : Ev) : (s.post e).hbmMeta = s.hbmMeta := by unfold State.post; split <;> rfl
@[simp] theorem State.post_s2 (s : State) (e : Ev) : (s.post e).s2 = s.s2 := by unfold State.post; split <;> rfl
@[simp] theorem State.post_hostMem (s : State) (e : Ev) : (s.post e).hostMem = s.hostMem := by unfold State.post; split <;> rfl
@[simp] theorem State.post_undurable (s : State) (e : Ev) : (s.post e).undurable = s.undurable := by unfold State.post; split <;> rfl
@[simp] theorem State.post_peerMem (s : State) (e : Ev) : (s.post e).peerMem = s.peerMem := by unfold State.post; split <;> rfl
@[simp] theorem State.post_l1 (s : State) (e : Ev) : (s.post e).l1 = s.l1 := by unfold State.post; split <;> rfl
@[simp] theorem State.post_dir (s : State) (e : Ev) : (s.post e).dir = s.dir := by unfold State.post; split <;> rfl
@[simp] theorem State.post_regions (s : State) (e : Ev) : (s.post e).regions = s.regions := by unfold State.post; split <;> rfl
@[simp] theorem State.post_txns (s : State) (e : Ev) : (s.post e).txns = s.txns := by unfold State.post; split <;> rfl
@[simp] theorem State.post_slices (s : State) (e : Ev) : (s.post e).slices = s.slices := by unfold State.post; split <;> rfl
@[simp] theorem State.post_parts (s : State) (e : Ev) : (s.post e).parts = s.parts := by unfold State.post; split <;> rfl
@[simp] theorem State.post_dev (s : State) (e : Ev) : (s.post e).dev = s.dev := by unfold State.post; split <;> rfl

@[simp] theorem Group.setS_core (g : Group) (r : Nat) (v : Word) : (g.setS r v).core = g.core := rfl
@[simp] theorem Group.setS_slot (g : Group) (r : Nat) (v : Word) : (g.setS r v).slot = g.slot := rfl
@[simp] theorem Group.setS_team (g : Group) (r : Nat) (v : Word) : (g.setS r v).team = g.team := rfl
@[simp] theorem Group.setS_grp (g : Group) (r : Nat) (v : Word) : (g.setS r v).grp = g.grp := rfl
@[simp] theorem Group.setS_sregs (g : Group) (r : Nat) (v : Word) : (g.setS r v).sregs = g.sregs.set r v := rfl
@[simp] theorem Group.setS_vregs (g : Group) (r : Nat) (v : Word) : (g.setS r v).vregs = g.vregs := rfl
@[simp] theorem Group.setS_masks (g : Group) (r : Nat) (v : Word) : (g.setS r v).masks = g.masks := rfl
@[simp] theorem Group.setS_rejoin (g : Group) (r : Nat) (v : Word) : (g.setS r v).rejoin = g.rejoin := rfl
@[simp] theorem Group.setS_flags (g : Group) (r : Nat) (v : Word) : (g.setS r v).flags = g.flags := rfl
@[simp] theorem Group.setS_holds (g : Group) (r : Nat) (v : Word) : (g.setS r v).holds = g.holds := rfl
@[simp] theorem Group.setS_opened (g : Group) (r : Nat) (v : Word) : (g.setS r v).opened = g.opened := rfl
@[simp] theorem Group.setS_sealed_ (g : Group) (r : Nat) (v : Word) : (g.setS r v).sealed_ = g.sealed_ := rfl
@[simp] theorem Group.setS_fpctl (g : Group) (r : Nat) (v : Word) : (g.setS r v).fpctl = g.fpctl := rfl
@[simp] theorem Group.setS_estat (g : Group) (r : Nat) (v : Word) : (g.setS r v).estat = g.estat := rfl
@[simp] theorem Group.setS_spilled (g : Group) (r : Nat) (v : Word) : (g.setS r v).spilled = g.spilled := rfl
@[simp] theorem Group.setS_jlost (g : Group) (r : Nat) (v : Word) : (g.setS r v).jlost = g.jlost := rfl
@[simp] theorem Group.setS_slot0 (g : Group) (r : Nat) (v : Word) : (g.setS r v).slot0 = g.slot0 := rfl
@[simp] theorem Group.setS_slot1 (g : Group) (r : Nat) (v : Word) : (g.setS r v).slot1 = g.slot1 := rfl
@[simp] theorem Group.setS_stack (g : Group) (r : Nat) (v : Word) : (g.setS r v).stack = g.stack := rfl
@[simp] theorem Group.setS_rung (g : Group) (r : Nat) (v : Word) : (g.setS r v).rung = g.rung := rfl
@[simp] theorem Group.setS_items (g : Group) (r : Nat) (v : Word) : (g.setS r v).items = g.items := rfl
@[simp] theorem Group.setS_itemIdx (g : Group) (r : Nat) (v : Word) : (g.setS r v).itemIdx = g.itemIdx := rfl
@[simp] theorem Group.setS_bars (g : Group) (r : Nat) (v : Word) : (g.setS r v).bars = g.bars := rfl
@[simp] theorem Group.setS_cbars (g : Group) (r : Nat) (v : Word) : (g.setS r v).cbars = g.cbars := rfl
@[simp] theorem Group.setS_rdvCount (g : Group) (r : Nat) (v : Word) : (g.setS r v).rdvCount = g.rdvCount := rfl
@[simp] theorem Group.setS_loads (g : Group) (r : Nat) (v : Word) : (g.setS r v).loads = g.loads := rfl
@[simp] theorem Group.setS_sbuf (g : Group) (r : Nat) (v : Word) : (g.setS r v).sbuf = g.sbuf := rfl
@[simp] theorem Group.setS_olog (g : Group) (r : Nat) (v : Word) : (g.setS r v).olog = g.olog := rfl
@[simp] theorem Group.setS_seq (g : Group) (r : Nat) (v : Word) : (g.setS r v).seq = g.seq := rfl
@[simp] theorem Group.setS_low (g : Group) (r : Nat) (v : Word) : (g.setS r v).low = g.low := rfl
@[simp] theorem Group.setS_park (g : Group) (r : Nat) (v : Word) : (g.setS r v).park = g.park := rfl
@[simp] theorem Group.setS_parkAt (g : Group) (r : Nat) (v : Word) : (g.setS r v).parkAt = g.parkAt := rfl
@[simp] theorem Group.setS_token (g : Group) (r : Nat) (v : Word) : (g.setS r v).token = g.token := rfl
@[simp] theorem Group.setS_saved (g : Group) (r : Nat) (v : Word) : (g.setS r v).saved = g.saved := rfl
@[simp] theorem Group.setS_skid (g : Group) (r : Nat) (v : Word) : (g.setS r v).skid = g.skid := rfl
@[simp] theorem Group.setS_qsel (g : Group) (r : Nat) (v : Word) : (g.setS r v).qsel = g.qsel := rfl
@[simp] theorem Group.setS_wspl (g : Group) (r : Nat) (v : Word) : (g.setS r v).wspl = g.wspl := rfl
@[simp] theorem Group.setS_savedAt (g : Group) (r : Nat) (v : Word) : (g.setS r v).savedAt = g.savedAt := rfl
@[simp] theorem Group.setS_urgent (g : Group) (r : Nat) (v : Word) : (g.setS r v).urgent = g.urgent := rfl
@[simp] theorem Group.setS_sliced (g : Group) (r : Nat) (v : Word) : (g.setS r v).sliced = g.sliced := rfl
@[simp] theorem Group.setS_stay (g : Group) (r : Nat) (v : Word) : (g.setS r v).stay = g.stay := rfl
@[simp] theorem Group.setS_leaving (g : Group) (r : Nat) (v : Word) : (g.setS r v).leaving = g.leaving := rfl
@[simp] theorem Group.setS_words (g : Group) (r : Nat) (v : Word) : (g.setS r v).words = g.words := rfl
@[simp] theorem Group.setS_ended (g : Group) (r : Nat) (v : Word) : (g.setS r v).ended = g.ended := rfl
@[simp] theorem Group.setS_image (g : Group) (r : Nat) (v : Word) : (g.setS r v).image = g.image := rfl

@[simp] theorem Group.setPair_core (g : Group) (r : Nat) (v : DWord) : (g.setPair r v).core = g.core := rfl
@[simp] theorem Group.setPair_slot (g : Group) (r : Nat) (v : DWord) : (g.setPair r v).slot = g.slot := rfl
@[simp] theorem Group.setPair_team (g : Group) (r : Nat) (v : DWord) : (g.setPair r v).team = g.team := rfl
@[simp] theorem Group.setPair_grp (g : Group) (r : Nat) (v : DWord) : (g.setPair r v).grp = g.grp := rfl
@[simp] theorem Group.setPair_vregs (g : Group) (r : Nat) (v : DWord) : (g.setPair r v).vregs = g.vregs := rfl
@[simp] theorem Group.setPair_masks (g : Group) (r : Nat) (v : DWord) : (g.setPair r v).masks = g.masks := rfl
@[simp] theorem Group.setPair_rejoin (g : Group) (r : Nat) (v : DWord) : (g.setPair r v).rejoin = g.rejoin := rfl
@[simp] theorem Group.setPair_flags (g : Group) (r : Nat) (v : DWord) : (g.setPair r v).flags = g.flags := rfl
@[simp] theorem Group.setPair_holds (g : Group) (r : Nat) (v : DWord) : (g.setPair r v).holds = g.holds := rfl
@[simp] theorem Group.setPair_opened (g : Group) (r : Nat) (v : DWord) : (g.setPair r v).opened = g.opened := rfl
@[simp] theorem Group.setPair_sealed_ (g : Group) (r : Nat) (v : DWord) : (g.setPair r v).sealed_ = g.sealed_ := rfl
@[simp] theorem Group.setPair_fpctl (g : Group) (r : Nat) (v : DWord) : (g.setPair r v).fpctl = g.fpctl := rfl
@[simp] theorem Group.setPair_estat (g : Group) (r : Nat) (v : DWord) : (g.setPair r v).estat = g.estat := rfl
@[simp] theorem Group.setPair_spilled (g : Group) (r : Nat) (v : DWord) : (g.setPair r v).spilled = g.spilled := rfl
@[simp] theorem Group.setPair_jlost (g : Group) (r : Nat) (v : DWord) : (g.setPair r v).jlost = g.jlost := rfl
@[simp] theorem Group.setPair_slot0 (g : Group) (r : Nat) (v : DWord) : (g.setPair r v).slot0 = g.slot0 := rfl
@[simp] theorem Group.setPair_slot1 (g : Group) (r : Nat) (v : DWord) : (g.setPair r v).slot1 = g.slot1 := rfl
@[simp] theorem Group.setPair_stack (g : Group) (r : Nat) (v : DWord) : (g.setPair r v).stack = g.stack := rfl
@[simp] theorem Group.setPair_rung (g : Group) (r : Nat) (v : DWord) : (g.setPair r v).rung = g.rung := rfl
@[simp] theorem Group.setPair_items (g : Group) (r : Nat) (v : DWord) : (g.setPair r v).items = g.items := rfl
@[simp] theorem Group.setPair_itemIdx (g : Group) (r : Nat) (v : DWord) : (g.setPair r v).itemIdx = g.itemIdx := rfl
@[simp] theorem Group.setPair_bars (g : Group) (r : Nat) (v : DWord) : (g.setPair r v).bars = g.bars := rfl
@[simp] theorem Group.setPair_cbars (g : Group) (r : Nat) (v : DWord) : (g.setPair r v).cbars = g.cbars := rfl
@[simp] theorem Group.setPair_rdvCount (g : Group) (r : Nat) (v : DWord) : (g.setPair r v).rdvCount = g.rdvCount := rfl
@[simp] theorem Group.setPair_loads (g : Group) (r : Nat) (v : DWord) : (g.setPair r v).loads = g.loads := rfl
@[simp] theorem Group.setPair_sbuf (g : Group) (r : Nat) (v : DWord) : (g.setPair r v).sbuf = g.sbuf := rfl
@[simp] theorem Group.setPair_olog (g : Group) (r : Nat) (v : DWord) : (g.setPair r v).olog = g.olog := rfl
@[simp] theorem Group.setPair_seq (g : Group) (r : Nat) (v : DWord) : (g.setPair r v).seq = g.seq := rfl
@[simp] theorem Group.setPair_low (g : Group) (r : Nat) (v : DWord) : (g.setPair r v).low = g.low := rfl
@[simp] theorem Group.setPair_park (g : Group) (r : Nat) (v : DWord) : (g.setPair r v).park = g.park := rfl
@[simp] theorem Group.setPair_parkAt (g : Group) (r : Nat) (v : DWord) : (g.setPair r v).parkAt = g.parkAt := rfl
@[simp] theorem Group.setPair_token (g : Group) (r : Nat) (v : DWord) : (g.setPair r v).token = g.token := rfl
@[simp] theorem Group.setPair_saved (g : Group) (r : Nat) (v : DWord) : (g.setPair r v).saved = g.saved := rfl
@[simp] theorem Group.setPair_skid (g : Group) (r : Nat) (v : DWord) : (g.setPair r v).skid = g.skid := rfl
@[simp] theorem Group.setPair_qsel (g : Group) (r : Nat) (v : DWord) : (g.setPair r v).qsel = g.qsel := rfl
@[simp] theorem Group.setPair_wspl (g : Group) (r : Nat) (v : DWord) : (g.setPair r v).wspl = g.wspl := rfl
@[simp] theorem Group.setPair_savedAt (g : Group) (r : Nat) (v : DWord) : (g.setPair r v).savedAt = g.savedAt := rfl
@[simp] theorem Group.setPair_urgent (g : Group) (r : Nat) (v : DWord) : (g.setPair r v).urgent = g.urgent := rfl
@[simp] theorem Group.setPair_sliced (g : Group) (r : Nat) (v : DWord) : (g.setPair r v).sliced = g.sliced := rfl
@[simp] theorem Group.setPair_stay (g : Group) (r : Nat) (v : DWord) : (g.setPair r v).stay = g.stay := rfl
@[simp] theorem Group.setPair_leaving (g : Group) (r : Nat) (v : DWord) : (g.setPair r v).leaving = g.leaving := rfl
@[simp] theorem Group.setPair_words (g : Group) (r : Nat) (v : DWord) : (g.setPair r v).words = g.words := rfl
@[simp] theorem Group.setPair_ended (g : Group) (r : Nat) (v : DWord) : (g.setPair r v).ended = g.ended := rfl
@[simp] theorem Group.setPair_image (g : Group) (r : Nat) (v : DWord) : (g.setPair r v).image = g.image := rfl

@[simp] theorem Group.setV_core (g : Group) (r : Nat) (m : Mask) (f : Nat → Word) : (g.setV r m f).core = g.core := rfl
@[simp] theorem Group.setV_slot (g : Group) (r : Nat) (m : Mask) (f : Nat → Word) : (g.setV r m f).slot = g.slot := rfl
@[simp] theorem Group.setV_team (g : Group) (r : Nat) (m : Mask) (f : Nat → Word) : (g.setV r m f).team = g.team := rfl
@[simp] theorem Group.setV_grp (g : Group) (r : Nat) (m : Mask) (f : Nat → Word) : (g.setV r m f).grp = g.grp := rfl
@[simp] theorem Group.setV_sregs (g : Group) (r : Nat) (m : Mask) (f : Nat → Word) : (g.setV r m f).sregs = g.sregs := rfl
@[simp] theorem Group.setV_masks (g : Group) (r : Nat) (m : Mask) (f : Nat → Word) : (g.setV r m f).masks = g.masks := rfl
@[simp] theorem Group.setV_rejoin (g : Group) (r : Nat) (m : Mask) (f : Nat → Word) : (g.setV r m f).rejoin = g.rejoin := rfl
@[simp] theorem Group.setV_flags (g : Group) (r : Nat) (m : Mask) (f : Nat → Word) : (g.setV r m f).flags = g.flags := rfl
@[simp] theorem Group.setV_holds (g : Group) (r : Nat) (m : Mask) (f : Nat → Word) : (g.setV r m f).holds = g.holds := rfl
@[simp] theorem Group.setV_opened (g : Group) (r : Nat) (m : Mask) (f : Nat → Word) : (g.setV r m f).opened = g.opened := rfl
@[simp] theorem Group.setV_sealed_ (g : Group) (r : Nat) (m : Mask) (f : Nat → Word) : (g.setV r m f).sealed_ = g.sealed_ := rfl
@[simp] theorem Group.setV_fpctl (g : Group) (r : Nat) (m : Mask) (f : Nat → Word) : (g.setV r m f).fpctl = g.fpctl := rfl
@[simp] theorem Group.setV_estat (g : Group) (r : Nat) (m : Mask) (f : Nat → Word) : (g.setV r m f).estat = g.estat := rfl
@[simp] theorem Group.setV_spilled (g : Group) (r : Nat) (m : Mask) (f : Nat → Word) : (g.setV r m f).spilled = g.spilled := rfl
@[simp] theorem Group.setV_jlost (g : Group) (r : Nat) (m : Mask) (f : Nat → Word) : (g.setV r m f).jlost = g.jlost := rfl
@[simp] theorem Group.setV_slot0 (g : Group) (r : Nat) (m : Mask) (f : Nat → Word) : (g.setV r m f).slot0 = g.slot0 := rfl
@[simp] theorem Group.setV_slot1 (g : Group) (r : Nat) (m : Mask) (f : Nat → Word) : (g.setV r m f).slot1 = g.slot1 := rfl
@[simp] theorem Group.setV_stack (g : Group) (r : Nat) (m : Mask) (f : Nat → Word) : (g.setV r m f).stack = g.stack := rfl
@[simp] theorem Group.setV_rung (g : Group) (r : Nat) (m : Mask) (f : Nat → Word) : (g.setV r m f).rung = g.rung := rfl
@[simp] theorem Group.setV_items (g : Group) (r : Nat) (m : Mask) (f : Nat → Word) : (g.setV r m f).items = g.items := rfl
@[simp] theorem Group.setV_itemIdx (g : Group) (r : Nat) (m : Mask) (f : Nat → Word) : (g.setV r m f).itemIdx = g.itemIdx := rfl
@[simp] theorem Group.setV_bars (g : Group) (r : Nat) (m : Mask) (f : Nat → Word) : (g.setV r m f).bars = g.bars := rfl
@[simp] theorem Group.setV_cbars (g : Group) (r : Nat) (m : Mask) (f : Nat → Word) : (g.setV r m f).cbars = g.cbars := rfl
@[simp] theorem Group.setV_rdvCount (g : Group) (r : Nat) (m : Mask) (f : Nat → Word) : (g.setV r m f).rdvCount = g.rdvCount := rfl
@[simp] theorem Group.setV_loads (g : Group) (r : Nat) (m : Mask) (f : Nat → Word) : (g.setV r m f).loads = g.loads := rfl
@[simp] theorem Group.setV_sbuf (g : Group) (r : Nat) (m : Mask) (f : Nat → Word) : (g.setV r m f).sbuf = g.sbuf := rfl
@[simp] theorem Group.setV_olog (g : Group) (r : Nat) (m : Mask) (f : Nat → Word) : (g.setV r m f).olog = g.olog := rfl
@[simp] theorem Group.setV_seq (g : Group) (r : Nat) (m : Mask) (f : Nat → Word) : (g.setV r m f).seq = g.seq := rfl
@[simp] theorem Group.setV_low (g : Group) (r : Nat) (m : Mask) (f : Nat → Word) : (g.setV r m f).low = g.low := rfl
@[simp] theorem Group.setV_park (g : Group) (r : Nat) (m : Mask) (f : Nat → Word) : (g.setV r m f).park = g.park := rfl
@[simp] theorem Group.setV_parkAt (g : Group) (r : Nat) (m : Mask) (f : Nat → Word) : (g.setV r m f).parkAt = g.parkAt := rfl
@[simp] theorem Group.setV_token (g : Group) (r : Nat) (m : Mask) (f : Nat → Word) : (g.setV r m f).token = g.token := rfl
@[simp] theorem Group.setV_saved (g : Group) (r : Nat) (m : Mask) (f : Nat → Word) : (g.setV r m f).saved = g.saved := rfl
@[simp] theorem Group.setV_skid (g : Group) (r : Nat) (m : Mask) (f : Nat → Word) : (g.setV r m f).skid = g.skid := rfl
@[simp] theorem Group.setV_qsel (g : Group) (r : Nat) (m : Mask) (f : Nat → Word) : (g.setV r m f).qsel = g.qsel := rfl
@[simp] theorem Group.setV_wspl (g : Group) (r : Nat) (m : Mask) (f : Nat → Word) : (g.setV r m f).wspl = g.wspl := rfl
@[simp] theorem Group.setV_savedAt (g : Group) (r : Nat) (m : Mask) (f : Nat → Word) : (g.setV r m f).savedAt = g.savedAt := rfl
@[simp] theorem Group.setV_urgent (g : Group) (r : Nat) (m : Mask) (f : Nat → Word) : (g.setV r m f).urgent = g.urgent := rfl
@[simp] theorem Group.setV_sliced (g : Group) (r : Nat) (m : Mask) (f : Nat → Word) : (g.setV r m f).sliced = g.sliced := rfl
@[simp] theorem Group.setV_stay (g : Group) (r : Nat) (m : Mask) (f : Nat → Word) : (g.setV r m f).stay = g.stay := rfl
@[simp] theorem Group.setV_leaving (g : Group) (r : Nat) (m : Mask) (f : Nat → Word) : (g.setV r m f).leaving = g.leaving := rfl
@[simp] theorem Group.setV_words (g : Group) (r : Nat) (m : Mask) (f : Nat → Word) : (g.setV r m f).words = g.words := rfl
@[simp] theorem Group.setV_ended (g : Group) (r : Nat) (m : Mask) (f : Nat → Word) : (g.setV r m f).ended = g.ended := rfl
@[simp] theorem Group.setV_image (g : Group) (r : Nat) (m : Mask) (f : Nat → Word) : (g.setV r m f).image = g.image := rfl

@[simp] theorem Group.setN_core (g : Group) (ty : Ty) (d : Nat) (m : Mask) (f : Nat → Nat) : (g.setN ty d m f).core = g.core := by unfold Group.setN; split <;> rfl
@[simp] theorem Group.setN_slot (g : Group) (ty : Ty) (d : Nat) (m : Mask) (f : Nat → Nat) : (g.setN ty d m f).slot = g.slot := by unfold Group.setN; split <;> rfl
@[simp] theorem Group.setN_team (g : Group) (ty : Ty) (d : Nat) (m : Mask) (f : Nat → Nat) : (g.setN ty d m f).team = g.team := by unfold Group.setN; split <;> rfl
@[simp] theorem Group.setN_grp (g : Group) (ty : Ty) (d : Nat) (m : Mask) (f : Nat → Nat) : (g.setN ty d m f).grp = g.grp := by unfold Group.setN; split <;> rfl
@[simp] theorem Group.setN_sregs (g : Group) (ty : Ty) (d : Nat) (m : Mask) (f : Nat → Nat) : (g.setN ty d m f).sregs = g.sregs := by unfold Group.setN; split <;> rfl
@[simp] theorem Group.setN_masks (g : Group) (ty : Ty) (d : Nat) (m : Mask) (f : Nat → Nat) : (g.setN ty d m f).masks = g.masks := by unfold Group.setN; split <;> rfl
@[simp] theorem Group.setN_rejoin (g : Group) (ty : Ty) (d : Nat) (m : Mask) (f : Nat → Nat) : (g.setN ty d m f).rejoin = g.rejoin := by unfold Group.setN; split <;> rfl
@[simp] theorem Group.setN_flags (g : Group) (ty : Ty) (d : Nat) (m : Mask) (f : Nat → Nat) : (g.setN ty d m f).flags = g.flags := by unfold Group.setN; split <;> rfl
@[simp] theorem Group.setN_holds (g : Group) (ty : Ty) (d : Nat) (m : Mask) (f : Nat → Nat) : (g.setN ty d m f).holds = g.holds := by unfold Group.setN; split <;> rfl
@[simp] theorem Group.setN_opened (g : Group) (ty : Ty) (d : Nat) (m : Mask) (f : Nat → Nat) : (g.setN ty d m f).opened = g.opened := by unfold Group.setN; split <;> rfl
@[simp] theorem Group.setN_sealed_ (g : Group) (ty : Ty) (d : Nat) (m : Mask) (f : Nat → Nat) : (g.setN ty d m f).sealed_ = g.sealed_ := by unfold Group.setN; split <;> rfl
@[simp] theorem Group.setN_fpctl (g : Group) (ty : Ty) (d : Nat) (m : Mask) (f : Nat → Nat) : (g.setN ty d m f).fpctl = g.fpctl := by unfold Group.setN; split <;> rfl
@[simp] theorem Group.setN_estat (g : Group) (ty : Ty) (d : Nat) (m : Mask) (f : Nat → Nat) : (g.setN ty d m f).estat = g.estat := by unfold Group.setN; split <;> rfl
@[simp] theorem Group.setN_spilled (g : Group) (ty : Ty) (d : Nat) (m : Mask) (f : Nat → Nat) : (g.setN ty d m f).spilled = g.spilled := by unfold Group.setN; split <;> rfl
@[simp] theorem Group.setN_jlost (g : Group) (ty : Ty) (d : Nat) (m : Mask) (f : Nat → Nat) : (g.setN ty d m f).jlost = g.jlost := by unfold Group.setN; split <;> rfl
@[simp] theorem Group.setN_slot0 (g : Group) (ty : Ty) (d : Nat) (m : Mask) (f : Nat → Nat) : (g.setN ty d m f).slot0 = g.slot0 := by unfold Group.setN; split <;> rfl
@[simp] theorem Group.setN_slot1 (g : Group) (ty : Ty) (d : Nat) (m : Mask) (f : Nat → Nat) : (g.setN ty d m f).slot1 = g.slot1 := by unfold Group.setN; split <;> rfl
@[simp] theorem Group.setN_stack (g : Group) (ty : Ty) (d : Nat) (m : Mask) (f : Nat → Nat) : (g.setN ty d m f).stack = g.stack := by unfold Group.setN; split <;> rfl
@[simp] theorem Group.setN_rung (g : Group) (ty : Ty) (d : Nat) (m : Mask) (f : Nat → Nat) : (g.setN ty d m f).rung = g.rung := by unfold Group.setN; split <;> rfl
@[simp] theorem Group.setN_items (g : Group) (ty : Ty) (d : Nat) (m : Mask) (f : Nat → Nat) : (g.setN ty d m f).items = g.items := by unfold Group.setN; split <;> rfl
@[simp] theorem Group.setN_itemIdx (g : Group) (ty : Ty) (d : Nat) (m : Mask) (f : Nat → Nat) : (g.setN ty d m f).itemIdx = g.itemIdx := by unfold Group.setN; split <;> rfl
@[simp] theorem Group.setN_bars (g : Group) (ty : Ty) (d : Nat) (m : Mask) (f : Nat → Nat) : (g.setN ty d m f).bars = g.bars := by unfold Group.setN; split <;> rfl
@[simp] theorem Group.setN_cbars (g : Group) (ty : Ty) (d : Nat) (m : Mask) (f : Nat → Nat) : (g.setN ty d m f).cbars = g.cbars := by unfold Group.setN; split <;> rfl
@[simp] theorem Group.setN_rdvCount (g : Group) (ty : Ty) (d : Nat) (m : Mask) (f : Nat → Nat) : (g.setN ty d m f).rdvCount = g.rdvCount := by unfold Group.setN; split <;> rfl
@[simp] theorem Group.setN_loads (g : Group) (ty : Ty) (d : Nat) (m : Mask) (f : Nat → Nat) : (g.setN ty d m f).loads = g.loads := by unfold Group.setN; split <;> rfl
@[simp] theorem Group.setN_sbuf (g : Group) (ty : Ty) (d : Nat) (m : Mask) (f : Nat → Nat) : (g.setN ty d m f).sbuf = g.sbuf := by unfold Group.setN; split <;> rfl
@[simp] theorem Group.setN_olog (g : Group) (ty : Ty) (d : Nat) (m : Mask) (f : Nat → Nat) : (g.setN ty d m f).olog = g.olog := by unfold Group.setN; split <;> rfl
@[simp] theorem Group.setN_seq (g : Group) (ty : Ty) (d : Nat) (m : Mask) (f : Nat → Nat) : (g.setN ty d m f).seq = g.seq := by unfold Group.setN; split <;> rfl
@[simp] theorem Group.setN_low (g : Group) (ty : Ty) (d : Nat) (m : Mask) (f : Nat → Nat) : (g.setN ty d m f).low = g.low := by unfold Group.setN; split <;> rfl
@[simp] theorem Group.setN_park (g : Group) (ty : Ty) (d : Nat) (m : Mask) (f : Nat → Nat) : (g.setN ty d m f).park = g.park := by unfold Group.setN; split <;> rfl
@[simp] theorem Group.setN_parkAt (g : Group) (ty : Ty) (d : Nat) (m : Mask) (f : Nat → Nat) : (g.setN ty d m f).parkAt = g.parkAt := by unfold Group.setN; split <;> rfl
@[simp] theorem Group.setN_token (g : Group) (ty : Ty) (d : Nat) (m : Mask) (f : Nat → Nat) : (g.setN ty d m f).token = g.token := by unfold Group.setN; split <;> rfl
@[simp] theorem Group.setN_saved (g : Group) (ty : Ty) (d : Nat) (m : Mask) (f : Nat → Nat) : (g.setN ty d m f).saved = g.saved := by unfold Group.setN; split <;> rfl
@[simp] theorem Group.setN_skid (g : Group) (ty : Ty) (d : Nat) (m : Mask) (f : Nat → Nat) : (g.setN ty d m f).skid = g.skid := by unfold Group.setN; split <;> rfl
@[simp] theorem Group.setN_qsel (g : Group) (ty : Ty) (d : Nat) (m : Mask) (f : Nat → Nat) : (g.setN ty d m f).qsel = g.qsel := by unfold Group.setN; split <;> rfl
@[simp] theorem Group.setN_wspl (g : Group) (ty : Ty) (d : Nat) (m : Mask) (f : Nat → Nat) : (g.setN ty d m f).wspl = g.wspl := by unfold Group.setN; split <;> rfl
@[simp] theorem Group.setN_savedAt (g : Group) (ty : Ty) (d : Nat) (m : Mask) (f : Nat → Nat) : (g.setN ty d m f).savedAt = g.savedAt := by unfold Group.setN; split <;> rfl
@[simp] theorem Group.setN_urgent (g : Group) (ty : Ty) (d : Nat) (m : Mask) (f : Nat → Nat) : (g.setN ty d m f).urgent = g.urgent := by unfold Group.setN; split <;> rfl
@[simp] theorem Group.setN_sliced (g : Group) (ty : Ty) (d : Nat) (m : Mask) (f : Nat → Nat) : (g.setN ty d m f).sliced = g.sliced := by unfold Group.setN; split <;> rfl
@[simp] theorem Group.setN_stay (g : Group) (ty : Ty) (d : Nat) (m : Mask) (f : Nat → Nat) : (g.setN ty d m f).stay = g.stay := by unfold Group.setN; split <;> rfl
@[simp] theorem Group.setN_leaving (g : Group) (ty : Ty) (d : Nat) (m : Mask) (f : Nat → Nat) : (g.setN ty d m f).leaving = g.leaving := by unfold Group.setN; split <;> rfl
@[simp] theorem Group.setN_words (g : Group) (ty : Ty) (d : Nat) (m : Mask) (f : Nat → Nat) : (g.setN ty d m f).words = g.words := by unfold Group.setN; split <;> rfl
@[simp] theorem Group.setN_ended (g : Group) (ty : Ty) (d : Nat) (m : Mask) (f : Nat → Nat) : (g.setN ty d m f).ended = g.ended := by unfold Group.setN; split <;> rfl
@[simp] theorem Group.setN_image (g : Group) (ty : Ty) (d : Nat) (m : Mask) (f : Nat → Nat) : (g.setN ty d m f).image = g.image := by unfold Group.setN; split <;> rfl

@[simp] theorem Group.setFrag_core (g : Group) (k : Nat) (fr : Fragment) : (g.setFrag k fr).core = g.core := by unfold Group.setFrag; split <;> rfl
@[simp] theorem Group.setFrag_slot (g : Group) (k : Nat) (fr : Fragment) : (g.setFrag k fr).slot = g.slot := by unfold Group.setFrag; split <;> rfl
@[simp] theorem Group.setFrag_team (g : Group) (k : Nat) (fr : Fragment) : (g.setFrag k fr).team = g.team := by unfold Group.setFrag; split <;> rfl
@[simp] theorem Group.setFrag_grp (g : Group) (k : Nat) (fr : Fragment) : (g.setFrag k fr).grp = g.grp := by unfold Group.setFrag; split <;> rfl
@[simp] theorem Group.setFrag_sregs (g : Group) (k : Nat) (fr : Fragment) : (g.setFrag k fr).sregs = g.sregs := by unfold Group.setFrag; split <;> rfl
@[simp] theorem Group.setFrag_vregs (g : Group) (k : Nat) (fr : Fragment) : (g.setFrag k fr).vregs = g.vregs := by unfold Group.setFrag; split <;> rfl
@[simp] theorem Group.setFrag_masks (g : Group) (k : Nat) (fr : Fragment) : (g.setFrag k fr).masks = g.masks := by unfold Group.setFrag; split <;> rfl
@[simp] theorem Group.setFrag_rejoin (g : Group) (k : Nat) (fr : Fragment) : (g.setFrag k fr).rejoin = g.rejoin := by unfold Group.setFrag; split <;> rfl
@[simp] theorem Group.setFrag_flags (g : Group) (k : Nat) (fr : Fragment) : (g.setFrag k fr).flags = g.flags := by unfold Group.setFrag; split <;> rfl
@[simp] theorem Group.setFrag_holds (g : Group) (k : Nat) (fr : Fragment) : (g.setFrag k fr).holds = g.holds := by unfold Group.setFrag; split <;> rfl
@[simp] theorem Group.setFrag_opened (g : Group) (k : Nat) (fr : Fragment) : (g.setFrag k fr).opened = g.opened := by unfold Group.setFrag; split <;> rfl
@[simp] theorem Group.setFrag_sealed_ (g : Group) (k : Nat) (fr : Fragment) : (g.setFrag k fr).sealed_ = g.sealed_ := by unfold Group.setFrag; split <;> rfl
@[simp] theorem Group.setFrag_fpctl (g : Group) (k : Nat) (fr : Fragment) : (g.setFrag k fr).fpctl = g.fpctl := by unfold Group.setFrag; split <;> rfl
@[simp] theorem Group.setFrag_estat (g : Group) (k : Nat) (fr : Fragment) : (g.setFrag k fr).estat = g.estat := by unfold Group.setFrag; split <;> rfl
@[simp] theorem Group.setFrag_spilled (g : Group) (k : Nat) (fr : Fragment) : (g.setFrag k fr).spilled = g.spilled := by unfold Group.setFrag; split <;> rfl
@[simp] theorem Group.setFrag_jlost (g : Group) (k : Nat) (fr : Fragment) : (g.setFrag k fr).jlost = g.jlost := by unfold Group.setFrag; split <;> rfl
@[simp] theorem Group.setFrag_stack (g : Group) (k : Nat) (fr : Fragment) : (g.setFrag k fr).stack = g.stack := by unfold Group.setFrag; split <;> rfl
@[simp] theorem Group.setFrag_rung (g : Group) (k : Nat) (fr : Fragment) : (g.setFrag k fr).rung = g.rung := by unfold Group.setFrag; split <;> rfl
@[simp] theorem Group.setFrag_items (g : Group) (k : Nat) (fr : Fragment) : (g.setFrag k fr).items = g.items := by unfold Group.setFrag; split <;> rfl
@[simp] theorem Group.setFrag_itemIdx (g : Group) (k : Nat) (fr : Fragment) : (g.setFrag k fr).itemIdx = g.itemIdx := by unfold Group.setFrag; split <;> rfl
@[simp] theorem Group.setFrag_bars (g : Group) (k : Nat) (fr : Fragment) : (g.setFrag k fr).bars = g.bars := by unfold Group.setFrag; split <;> rfl
@[simp] theorem Group.setFrag_cbars (g : Group) (k : Nat) (fr : Fragment) : (g.setFrag k fr).cbars = g.cbars := by unfold Group.setFrag; split <;> rfl
@[simp] theorem Group.setFrag_rdvCount (g : Group) (k : Nat) (fr : Fragment) : (g.setFrag k fr).rdvCount = g.rdvCount := by unfold Group.setFrag; split <;> rfl
@[simp] theorem Group.setFrag_loads (g : Group) (k : Nat) (fr : Fragment) : (g.setFrag k fr).loads = g.loads := by unfold Group.setFrag; split <;> rfl
@[simp] theorem Group.setFrag_sbuf (g : Group) (k : Nat) (fr : Fragment) : (g.setFrag k fr).sbuf = g.sbuf := by unfold Group.setFrag; split <;> rfl
@[simp] theorem Group.setFrag_olog (g : Group) (k : Nat) (fr : Fragment) : (g.setFrag k fr).olog = g.olog := by unfold Group.setFrag; split <;> rfl
@[simp] theorem Group.setFrag_seq (g : Group) (k : Nat) (fr : Fragment) : (g.setFrag k fr).seq = g.seq := by unfold Group.setFrag; split <;> rfl
@[simp] theorem Group.setFrag_low (g : Group) (k : Nat) (fr : Fragment) : (g.setFrag k fr).low = g.low := by unfold Group.setFrag; split <;> rfl
@[simp] theorem Group.setFrag_park (g : Group) (k : Nat) (fr : Fragment) : (g.setFrag k fr).park = g.park := by unfold Group.setFrag; split <;> rfl
@[simp] theorem Group.setFrag_parkAt (g : Group) (k : Nat) (fr : Fragment) : (g.setFrag k fr).parkAt = g.parkAt := by unfold Group.setFrag; split <;> rfl
@[simp] theorem Group.setFrag_token (g : Group) (k : Nat) (fr : Fragment) : (g.setFrag k fr).token = g.token := by unfold Group.setFrag; split <;> rfl
@[simp] theorem Group.setFrag_saved (g : Group) (k : Nat) (fr : Fragment) : (g.setFrag k fr).saved = g.saved := by unfold Group.setFrag; split <;> rfl
@[simp] theorem Group.setFrag_skid (g : Group) (k : Nat) (fr : Fragment) : (g.setFrag k fr).skid = g.skid := by unfold Group.setFrag; split <;> rfl
@[simp] theorem Group.setFrag_qsel (g : Group) (k : Nat) (fr : Fragment) : (g.setFrag k fr).qsel = g.qsel := by unfold Group.setFrag; split <;> rfl
@[simp] theorem Group.setFrag_wspl (g : Group) (k : Nat) (fr : Fragment) : (g.setFrag k fr).wspl = g.wspl := by unfold Group.setFrag; split <;> rfl
@[simp] theorem Group.setFrag_savedAt (g : Group) (k : Nat) (fr : Fragment) : (g.setFrag k fr).savedAt = g.savedAt := by unfold Group.setFrag; split <;> rfl
@[simp] theorem Group.setFrag_urgent (g : Group) (k : Nat) (fr : Fragment) : (g.setFrag k fr).urgent = g.urgent := by unfold Group.setFrag; split <;> rfl
@[simp] theorem Group.setFrag_sliced (g : Group) (k : Nat) (fr : Fragment) : (g.setFrag k fr).sliced = g.sliced := by unfold Group.setFrag; split <;> rfl
@[simp] theorem Group.setFrag_stay (g : Group) (k : Nat) (fr : Fragment) : (g.setFrag k fr).stay = g.stay := by unfold Group.setFrag; split <;> rfl
@[simp] theorem Group.setFrag_leaving (g : Group) (k : Nat) (fr : Fragment) : (g.setFrag k fr).leaving = g.leaving := by unfold Group.setFrag; split <;> rfl
@[simp] theorem Group.setFrag_words (g : Group) (k : Nat) (fr : Fragment) : (g.setFrag k fr).words = g.words := by unfold Group.setFrag; split <;> rfl
@[simp] theorem Group.setFrag_ended (g : Group) (k : Nat) (fr : Fragment) : (g.setFrag k fr).ended = g.ended := by unfold Group.setFrag; split <;> rfl
@[simp] theorem Group.setFrag_image (g : Group) (k : Nat) (fr : Fragment) : (g.setFrag k fr).image = g.image := by unfold Group.setFrag; split <;> rfl

end Sys2Proof.Machine
end

