-- ==== Sys2Proof/Laws/Memory.lean ====
section
/-! SUPPORT. Memory: reading after writing, the canonical form, and that every memory operation keeps it. -/

namespace Sys2Proof.Machine

/-! ## Lists of bytes -/

theorem cellsOk_cons {lo k : Nat} {v : Byte} {t : List Host.Cell} : cellsOk lo ((k, v) :: t) = true ↔ lo ≤ k ∧ v ≠ 0 ∧ cellsOk (k + 1) t = true := by
  simp [cellsOk, and_assoc]

theorem cellsOk_mono {lo lo' : Nat} (h : lo' ≤ lo) : ∀ l, cellsOk lo l = true → cellsOk lo' l = true
  | [], _ => rfl
  | (k, v) :: t, hk => by
    obtain ⟨h1, h2, h3⟩ := cellsOk_cons.mp hk
    exact cellsOk_cons.mpr ⟨by omega, h2, h3⟩

theorem cellsOk_set (a : Nat) (b : Byte) : ∀ lo l, lo ≤ a → cellsOk lo l = true → cellsOk lo (cellsSet l a b) = true
  | lo, [], h, _ => by
    unfold cellsSet
    split
    · rfl
    · exact cellsOk_cons.mpr ⟨h, by assumption, rfl⟩
  | lo, (k, v) :: t, h, hk => by
    obtain ⟨h1, h2, h3⟩ := cellsOk_cons.mp hk
    unfold cellsSet
    split
    · split
      · exact hk
      · exact cellsOk_cons.mpr ⟨h, by assumption, cellsOk_cons.mpr ⟨by omega, h2, h3⟩⟩
    · split
      · subst_vars
        split
        · exact cellsOk_mono (by omega) _ h3
        · exact cellsOk_cons.mpr ⟨h, by assumption, h3⟩
      · exact cellsOk_cons.mpr ⟨h1, h2, cellsOk_set a b (k + 1) t (by omega) h3⟩

theorem cellsGet_low : ∀ lo l a, a < lo → cellsOk lo l = true → cellsGet l a = 0
  | _, [], _, _, _ => rfl
  | lo, (k, v) :: t, a, h, hk => by
    have h1 := (cellsOk_cons.mp hk).1
    unfold cellsGet
    rw [if_neg (by omega), if_pos (by omega)]

theorem cellsGet_cons (k : Nat) (v : Byte) (t : List Host.Cell) (x : Nat) :
    cellsGet ((k, v) :: t) x = if k = x then v else if x < k then 0 else cellsGet t x := by rw [cellsGet]

/-- A read after a write: the byte written there, and every other byte as before. -/
theorem cellsGet_set (a : Nat) (b : Byte) (x : Nat) : ∀ lo l, lo ≤ a → cellsOk lo l = true →
    cellsGet (cellsSet l a b) x = if x = a then b else cellsGet l x
  | lo, [], h, _ => by
    rw [cellsSet]
    by_cases hb : b = 0
    · rw [if_pos hb, hb]; split <;> rfl
    · rw [if_neg hb, cellsGet_cons]
      by_cases hx : x = a
      · rw [if_pos hx.symm, if_pos hx]
      · rw [if_neg (Ne.symm hx), if_neg hx]; split <;> rfl
  | lo, (k, v) :: t, h, hk => by
    obtain ⟨h1, h2, h3⟩ := cellsOk_cons.mp hk
    have low : ∀ y, y < k + 1 → cellsGet t y = 0 := fun y hy => cellsGet_low _ t y hy h3
    rw [cellsSet]
    rcases Nat.lt_trichotomy a k with hak | hak | hak
    · rw [if_pos hak]
      by_cases hb : b = 0
      · rw [if_pos hb, hb, cellsGet_cons]
        by_cases hx : x = a
        · rw [if_neg (by omega), if_pos (by omega), if_pos hx]
        · rw [if_neg hx]
      · rw [if_neg hb, cellsGet_cons, cellsGet_cons]
        by_cases hx : x = a
        · rw [if_pos hx.symm, if_pos hx]
        · rw [if_neg (Ne.symm hx), if_neg hx]
          by_cases hl : x < a
          · rw [if_pos hl, if_neg (by omega), if_pos (by omega)]
          · rw [if_neg hl]
    · subst hak
      rw [if_neg (by omega), if_pos rfl, cellsGet_cons]
      by_cases hx : x = a
      · rw [if_pos hx]
        by_cases hb : b = 0
        · rw [if_pos hb, hb, low x (by omega)]
        · rw [if_neg hb, cellsGet_cons, if_pos hx.symm]
      · rw [if_neg hx, if_neg (Ne.symm hx)]
        by_cases hb : b = 0
        · rw [if_pos hb]
          by_cases hl : x < a
          · rw [if_pos hl, low x (by omega)]
          · rw [if_neg hl]
        · rw [if_neg hb, cellsGet_cons, if_neg (Ne.symm hx)]
    · rw [if_neg (by omega), if_neg (by omega), cellsGet_cons, cellsGet_cons, cellsGet_set a b x (k + 1) t (by omega) h3]
      by_cases hx : x = a
      · rw [if_neg (by omega), if_neg (by omega), if_pos hx, if_pos hx]
      · rw [if_neg hx, if_neg hx]

/-! ## Memory -/

@[simp] theorem Memory.wf_empty : ({} : Memory).wf = true := rfl
theorem Memory.set_wf {m : Memory} (a : Nat) (b : Byte) (h : m.wf = true) : (m.set a b).wf = true := cellsOk_set a b 0 _ (Nat.zero_le a) h
theorem Memory.get_set {m : Memory} (a : Nat) (b : Byte) (x : Nat) (h : m.wf = true) : (m.set a b).get x = if x = a then b else m.get x :=
  cellsGet_set a b x 0 _ (Nat.zero_le a) h
theorem Memory.setAll_wf : ∀ (bs : List Byte) (m : Memory) (a : Nat), m.wf = true → (m.setAll a bs).wf = true
  | [], _, _, h => h
  | b :: bs, m, a, h => setAll_wf bs _ (a + 1) (m.set_wf a b h)
theorem Memory.get_setAll : ∀ (bs : List Byte) (m : Memory) (a x : Nat), m.wf = true →
    (m.setAll a bs).get x = if a ≤ x ∧ x < a + bs.length then bs.getD (x - a) 0 else m.get x
  | [], m, a, x, _ => by
    have h : ¬ (a ≤ x ∧ x < a + ([] : List Byte).length) := by simp only [List.length_nil]; omega
    rw [if_neg h]; rfl
  | b :: bs, m, a, x, h => by
    have hi := get_setAll bs (m.set a b) (a + 1) x (m.set_wf a b h)
    simp only [Memory.setAll, hi, Memory.get_set a b x h, List.length_cons]
    by_cases hx : x = a
    · subst hx
      rw [if_neg (by omega), if_pos rfl, if_pos (by omega)]
      simp
    · by_cases hr : a + 1 ≤ x ∧ x < a + 1 + bs.length
      · obtain ⟨n, hn⟩ : ∃ n, x - a = n + 1 := ⟨x - a - 1, by omega⟩
        rw [if_pos hr, if_pos (by omega), hn, List.getD_cons_succ, show x - (a + 1) = n by omega]
      · rw [if_neg hr, if_neg hx, if_neg (by omega)]

/-! ## The memories of the machine -/

theorem MemWf_reset : State.reset.MemWf := ⟨rfl, rfl, rfl, rfl, fun _ h => nomatch h⟩

/-- Nothing that leaves the memories and the stash windows as they are breaks the form. -/
theorem State.MemWf.same {s t : State} (h : s.MemWf) (h1 : t.chip = s.chip) (h2 : t.hbm = s.hbm) (h3 : t.hostMem = s.hostMem)
    (h4 : t.peerMem = s.peerMem) (h5 : t.teams = s.teams) : t.MemWf := by
  simpa [State.MemWf, h1, h2, h3, h4, h5] using h
theorem State.MemWf.chip {s : State} (h : s.MemWf) {m : Memory} (hm : m.wf = true) (ms : List ChipLine) :
    State.MemWf { s with chip := m, chipMeta := ms } := ⟨hm, h.2.1, h.2.2.1, h.2.2.2.1, h.2.2.2.2⟩
theorem State.MemWf.setGroup {s : State} (h : s.MemWf) (g : Group) : (s.setGroup g).MemWf := h.same rfl rfl rfl rfl rfl
theorem State.MemWf.put {s : State} (h : s.MemWf) (g : Group) (k : Nat) (fr : Fragment) : (s.put g k fr).MemWf := h.same rfl rfl rfl rfl rfl
theorem State.MemWf.laneNext {s : State} (h : s.MemWf) (g : Group) (fr : Fragment) (k : Nat) : (s.laneNext g fr k).MemWf :=
  h.same (by simp) (by simp) (by simp) (by simp) (by simp)
theorem State.MemWf.setCtx {s : State} (h : s.MemWf) (c : Context) : (s.setCtx c).MemWf := h.same rfl rfl rfl rfl rfl
theorem State.MemWf.setPart {s : State} (h : s.MemWf) (p : Part) : (s.setPart p).MemWf := h.same rfl rfl rfl rfl rfl
theorem State.MemWf.setLaunch {s : State} (h : s.MemWf) (l : Launch) : (s.setLaunch l).MemWf := h.same rfl rfl rfl rfl rfl
theorem State.MemWf.setAst {s : State} (h : s.MemWf) (a : Ast) : (s.setAst a).MemWf := h.same rfl rfl rfl rfl rfl
theorem State.MemWf.setDir {s : State} (h : s.MemWf) (e : DirEntry) : (s.setDir e).MemWf := h.same rfl rfl rfl rfl rfl
/-- Mapped stash lines that leave keep their values in the window (R208). -/
theorem State.MemWf.unfill {s : State} (h : s.MemWf) (p : Nat → Nat → Bool) : (s.unfill p).MemWf := by
  refine ⟨h.1, h.2.1, h.2.2.1, h.2.2.2.1, fun u hu => ?_⟩
  simp only [State.unfill, List.mem_map] at hu
  obtain ⟨t, ht, rfl⟩ := hu
  exact List.foldlRecOn (motive := fun m : Memory => m.wf = true) _ _ (h.2.2.2.2 t ht) fun m hm f _ => Memory.setAll_wf _ _ _ hm
theorem State.MemWf.dropL1 {s : State} (h : s.MemWf) (p : L1Line → Bool) : (s.dropL1 p).MemWf :=
  (h.unfill fun core line => (s.l1.filter p).any fun x => x.core == core && x.line == line).same rfl rfl rfl rfl rfl
theorem State.MemWf.setL1 {s : State} (h : s.MemWf) (core line : Nat) (st : LState) : (s.setL1 core line st).MemWf := by
  unfold State.setL1
  split
  · exact h.dropL1 _
  · exact h.same rfl rfl rfl rfl rfl
theorem State.MemWf.tick {s : State} (h : s.MemWf) : s.tick.MemWf := h.same rfl rfl rfl rfl rfl
theorem State.MemWf.post {s : State} (h : s.MemWf) (e : Ev) : (s.post e).MemWf :=
  h.same (by simp) (by simp) (by simp) (by simp) (by simp)
theorem State.MemWf.posts {s : State} (h : s.MemWf) (es : List Ev) : (s.posts es).MemWf := by
  unfold State.posts
  induction es generalizing s with
  | nil => exact h
  | cons e es ih => exact ih (h.post e)
theorem State.MemWf.ras {s : State} (h : s.MemWf) (part : Nat) (code : BitVec 16) (die : Nat) (info : Word) (addr : DWord) :
    (s.ras part code die info addr).MemWf := h.setPart _
theorem State.MemWf.rasFree {s : State} (h : s.MemWf) (part : Nat) (code : BitVec 16) (die : Nat) (addr : DWord) :
    (s.rasFree part code die addr).MemWf := h.ras ..

/-- A team may change all but its stash window, or its window to one in canonical form. -/
theorem State.MemWf.setTeam {s : State} (h : s.MemWf) {t : Team} (ht : t.stash.wf = true) : (s.setTeam t).MemWf := by
  refine ⟨h.1, h.2.1, h.2.2.1, h.2.2.2.1, fun u hu => ?_⟩
  simp only [State.setTeam_teams, List.mem_map] at hu
  obtain ⟨v, hv, rfl⟩ := hu
  split
  · exact ht
  · exact h.2.2.2.2 v hv
theorem State.MemWf.team {s : State} (h : s.MemWf) {tid : Nat} {t : Team} (ht : s.team tid = some t) : t.stash.wf = true :=
  h.2.2.2.2 t (List.mem_of_find?_eq_some ht)

theorem State.MemWf.fill {s : State} (h : s.MemWf) (aid gpa : Nat) : (s.fill aid gpa).MemWf := by
  unfold State.fill
  split
  · exact h
  · exact h.chip (Memory.setAll_wf _ _ _ h.1) _
theorem State.MemWf.onLine {s : State} (h : s.MemWf) (aid gpa : Nat) (f : ChipLine → ChipLine) : (s.onLine aid gpa f).MemWf :=
  h.same rfl rfl rfl rfl rfl
theorem State.MemWf.writeByte {s : State} (h : s.MemWf) (aid gpa : Nat) (b : Byte) : (s.writeByte aid gpa b).MemWf :=
  State.MemWf.onLine ((h.fill aid gpa).chip (Memory.set_wf _ _ (h.fill aid gpa).1) _) aid gpa _
theorem State.MemWf.writeBytes {s : State} (h : s.MemWf) (aid gpa : Nat) (bs : List Byte) : (s.writeBytes aid gpa bs).MemWf := by
  induction bs generalizing s gpa with
  | nil => exact h
  | cons b bs ih => exact ih (h.writeByte aid gpa b) _
theorem State.MemWf.setTag {s : State} (h : s.MemWf) (aid gpa : Nat) : (s.setTag aid gpa).MemWf := by
  unfold State.setTag
  split
  · exact h
  · exact (h.fill aid gpa).onLine ..
theorem State.MemWf.setPub {s : State} (h : s.MemWf) (aid gpa : Nat) (p : Bool) : (s.setPub aid gpa p).MemWf := (h.fill aid gpa).onLine ..
theorem State.MemWf.dropLine {s : State} (h : s.MemWf) (line : Nat) : (s.dropLine line).MemWf := by
  unfold State.dropLine
  split
  · have hu := h.unfill fun _ l => l == line
    exact ⟨Memory.setAll_wf _ _ _ hu.1, hu.2⟩
  · exact h
theorem State.MemWf.writeBack {s : State} (h : s.MemWf) (line : Nat) : (s.writeBack line).MemWf := by
  unfold State.writeBack
  split
  · exact h
  · split
    · exact h
    · dsimp only
      split
      · refine ⟨h.1, h.2.1, List.foldlRecOn (motive := fun m : Memory => m.wf = true) _ _ h.2.2.1 fun m hm n _ => ?_, h.2.2.2⟩
        split
        · exact Memory.set_wf _ _ hm
        · exact hm
      · split
        · exact (h.dropLine line).rasFree ..
        · exact ⟨h.1, Memory.setAll_wf _ _ _ h.2.1, h.2.2⟩
theorem State.MemWf.evict {s : State} (h : s.MemWf) (line : Nat) : (s.evict line).MemWf := (h.writeBack line).dropLine line
theorem State.MemWf.writeLoc {s : State} (h : s.MemWf) (l : Loc) (b : Byte) : (s.writeLoc l b).MemWf := by
  cases l with
  | glob aid gpa => exact h.writeByte aid gpa b
  | stash tid off =>
    simp only [State.writeLoc]
    split
    · rename_i t ht
      exact h.setTeam (Memory.set_wf off b (h.team ht))
    · exact h
  | peer id addr => exact ⟨h.1, h.2.1, h.2.2.1, Memory.set_wf _ _ h.2.2.2.1, h.2.2.2.2⟩
theorem State.MemWf.writeLocs {s : State} (h : s.MemWf) (ls : List (Loc × Byte)) : (s.writeLocs ls).MemWf := by
  induction ls generalizing s with
  | nil => exact h
  | cons x xs ih => exact ih (h.writeLoc x.1 x.2)
theorem State.MemWf.setTagLoc {s : State} (h : s.MemWf) (l : Loc) : (s.setTagLoc l).MemWf := by
  cases l <;> first | exact h.setTag _ _ | exact h
theorem State.MemWf.newLine {s : State} (h : s.MemWf) (aid gpa : Nat) (bs : List Byte) (tags : BitVec 16) : (s.newLine aid gpa bs tags).MemWf :=
  h.chip (Memory.setAll_wf _ _ _ h.1) _
theorem State.MemWf.untrack {s : State} (h : s.MemWf) (p : Nat → Bool) : (s.untrack p).MemWf := (h.dropL1 _).same rfl rfl rfl rfl rfl
/-- A write that goes past the L1s keeps the form (R201, R338). -/
theorem State.MemWf.storeAway {s : State} (h : s.MemWf) (ps : List (Loc × Byte)) : (s.storeAway ps).MemWf :=
  (h.untrack _).writeLocs ps
theorem State.MemWf.writeSave {s : State} (h : s.MemWf) (g : Group) (off : Nat) (ws : List Word) : (s.writeSave g off ws).MemWf := by
  unfold State.writeSave
  split
  · exact h
  · dsimp only
    split
    · exact h
    · exact h.writeBytes ..
/-- Header pages follow their groups, and launches forget that they were passed over: what comes after a move (R358, R376). -/
theorem State.MemWf.keepPages {s : State} (h : s.MemWf) (old : State) : (s.keepPages old).MemWf :=
  List.foldlRecOn (motive := State.MemWf) _ _ h fun u hu g _ => by
    unfold State.keepPage
    split
    · exact hu
    · split
      · exact hu.writeSave ..
      · exact hu
theorem State.MemWf.after {s : State} (h : s.MemWf) (old : State) : (s.after old).MemWf :=
  (h.tick.keepPages old).same rfl rfl rfl rfl rfl
theorem State.MemWf.hostWrite {s : State} (h : s.MemWf) (host bus : Nat) (bs : List Byte) : (s.hostWrite host bus bs).MemWf :=
  ⟨h.1, h.2.1, Memory.setAll_wf _ _ _ h.2.2.1, h.2.2.2⟩

end Sys2Proof.Machine
end

