-- ==== Sys2Proof/Laws/Ops.lean ====
section
/-! SUPPORT. One lemma for each shared shape of meaning: what a ready word's meaning is, so that no proof unfolds the waits and
the checks again. -/

namespace Sys2Proof.Machine

theorem scalar_ready {i rs s g fr k} (h : Ready i rs s g fr k) (body : Group → Fragment → Nat → Out) :
    scalar i rs s body = body g fr.count k := by
  have hr : (rs.any fun r => decide (g.sregs.length ≤ r)) = false := by
    simpa [List.any_eq_false] using h.held
  simp [scalar, h.here, h.passes, h.legal, h.idle, hr]

theorem scalarGroup_ready {i rs s g fr k} (h : Ready i rs s g fr k) (hs : g.slot ≠ 128) (body : Group → Fragment → Nat → Out) :
    scalarGroup i rs s body = body g fr.count k := by
  simp [scalarGroup, scalar_ready h, hs]

theorem scalarHandler_ready {i rs s g fr k} (h : Ready i rs s g fr k) (hs : g.slot = 128) (body : Group → Fragment → Nat → Out) :
    scalarHandler i rs s body = body g fr.count k := by
  simp [scalarHandler, h.here, hs, scalar_ready h]

/-- The handler slot refuses a word of a group (R352). -/
theorem scalarGroup_refused {i rs s g fr k} (h : Ready i rs s g fr k) (hs : g.slot = 128) (body : Group → Fragment → Nat → Out) :
    scalarGroup i rs s body = s.trapAt g fr.count k .illegal 0 0 := by
  simp [scalarGroup, scalar_ready h, hs]

/-- A word of the handler slot in another slot raises PRIV, whatever else is wrong with it (R59, R72). -/
theorem scalarHandler_priv {i rs s g fr k} (h : s.here = some (g, fr, k)) (hs : g.slot ≠ 128) (body : Group → Fragment → Nat → Out) :
    scalarHandler i rs s body = s.trapAt g fr k .priv 0 0 := by
  simp [scalarHandler, h, hs]

theorem addrFault_none {va : DWord} {size : Nat} (h0 : va.extractLsb' 56 8 = 0) (h1 : va.toNat % size = 0) : addrFault va size = none := by
  simp [addrFault, h0, h1]

theorem scalarMem_at {i rs size a off acc late s g fr k va ls} (h : AtMem i rs size a off acc late s g fr k va ls)
    (body : Group → Fragment → Nat → DWord → List Loc → Out) :
    scalarMem i rs size a off acc late s body = body g fr.count k va ls := by
  have hv : g.memAddr fr.count a off size = va := h.addr.symm
  simp [scalarMem, scalar_ready h.ready, hv, addrFault_none h.inSpace h.aligned, h.open_, h.room, h.copies, State.touch, h.places]

theorem laneExec_ready {i s g fr k c} (h : LaneReady i s g fr k c) (body : Group → Fragment → Nat → Clause → Mask → Out) :
    laneExec i s body = body g (fr.countLane c.uid) k c (c.govOf i) := by
  simp [laneExec, h.here, h.passes, h.ok, h.idle, Clause.govOf]

theorem laneWrite_ready {i ty d s g fr k c} (h : LaneReady i s g fr k c) (f : Group → Clause → Mask → Nat → Nat) :
    laneWrite i ty d s f = .next (s.laneNext (g.setN ty d.toNat (c.govOf i) (f g c (c.govOf i))) (fr.countLane c.uid) k) := by
  simp [laneWrite, laneExec_ready h]

theorem laneToMask_ready {i d s g fr k c} (h : LaneReady i s g fr k c) (f : Group → Clause → Mask → Mask) :
    laneToMask i d s f = .next (s.laneNext (g.setLaneMask (fr.countLane c.uid) d.toNat (c.govOf i) (f g c (c.govOf i))) (fr.countLane c.uid) k) := by
  simp [laneToMask, laneExec_ready h]

theorem streamExec_ready {i s t} (h : StreamReady i s t) (body : Team → Out) : streamExec i s body = body t := by
  simp [streamExec, h.cur, h.here, h.runs, h.reason]

/-- A precise trap is raised, or held by a fence window (R70, R251). -/
theorem trapAt_raise {s g fr k c detail addr stage} (h : fr.fence = none) :
    State.trapAt s g fr k c detail addr stage =
      .next (s.raise g { cause := c, detail, addr, stage, pc := fr.pc, pair := s.ord.pair, culprit := .scalar g.slot k }) := by
  simp [State.trapAt, h]
theorem laneTrap_raise {s g fr k c gov cause detail lanes} (h : fr.inFence c.uid = false) (ho : g.longOpen c.uid = false) :
    State.laneTrap s g fr k c gov cause detail lanes =
      .next (s.raise g { cause, detail, lanes, gov, lanei := true, clidx := c.idx, pc := c.lrunPc, culprit := .laneWord g.slot k }) := by
  simp [State.laneTrap, h, ho]

@[simp] theorem Fragment.count_pc (fr : Fragment) : fr.count.pc = fr.pc := rfl
@[simp] theorem Fragment.count_mask (fr : Fragment) : fr.count.mask = fr.mask := rfl
@[simp] theorem Fragment.count_exec (fr : Fragment) : fr.count.exec = fr.exec := rfl
@[simp] theorem Fragment.count_queue (fr : Fragment) : fr.count.queue = fr.queue := rfl
@[simp] theorem Fragment.count_wait (fr : Fragment) : fr.count.wait = fr.wait := rfl
@[simp] theorem Fragment.count_again (fr : Fragment) : fr.count.again = fr.again := rfl
@[simp] theorem Fragment.count_fence (fr : Fragment) (h : fr.fence = none) : fr.count.fence = none := by simp [Fragment.count, h]
@[simp] theorem Fragment.goto_pc (fr : Fragment) (p : DWord) : (fr.goto p).pc = p := rfl
@[simp] theorem Fragment.goto_mask (fr : Fragment) (p : DWord) : (fr.goto p).mask = fr.mask := rfl
@[simp] theorem Fragment.goto_exec (fr : Fragment) (p : DWord) : (fr.goto p).exec = fr.exec := rfl
@[simp] theorem Fragment.goto_queue (fr : Fragment) (p : DWord) : (fr.goto p).queue = fr.queue := rfl
@[simp] theorem Fragment.goto_again (fr : Fragment) (p : DWord) : (fr.goto p).again = fr.again := rfl

/-- A word that no fence window takes finds no fence: it leaves the fragment as it is (R250). -/
theorem Fragment.passes_plain {fr : Fragment} {i : Instr} {p : Bool} (h : fr.passes i p = true) (hi : inWindow i = false) :
    fr.fence = none := by
  cases hf : fr.fence with
  | none => rfl
  | some f => simp [Fragment.passes, hf, hi] at h
theorem Fragment.count_plain {fr : Fragment} (h : fr.fence = none) : fr.count = fr := by
  cases fr; simp_all [Fragment.count]

end Sys2Proof.Machine
end

