-- ==== Sys2Proof/Tests/Slice0.lean ====
section
/-! SUPPORT. Tests: words written out from the spec's encodings, an ill-formed term for each check, a concrete state and operands that meet the
hypotheses of each statement, and single steps on small states. -/

namespace Sys2Proof.Tests
open Sys2Proof.Machine

set_option Elab.async false
set_option maxRecDepth 20000

/-! ## Small states -/

/-- A fragment of every lane; a group in core 0, slot 0; its team; a state whose page 0x10000 is in reach. -/
def fr0 : Fragment := { mask := 0xFFFFFFFF, exec := 0xFFFFFFFF, pc := 0x10000 }
def g0 : Group := { wordGroup [] with sregs := List.replicate 64 0, vregs := List.replicate 16 (List.replicate 32 0), slot0 := some fr0 }
def t0 : Team := wordTeam {}
def base : State := { (State.reset.placeBytes []).placeRun {} [] .idle with agenda := [], teams := [t0] }
/-- A group whose scalar word moves; the same group with given first registers; a group in the handler slot. -/
def at0 (g : Group) : State := { base with groups := [g], cur := .scalar 0 g.slot 0 }
def regs (vs : List Word) : Group := { g0 with sregs := vs ++ List.replicate (64 - vs.length) 0 }
def gh : Group := { g0 with slot := 128 }
/-- The first bytes of page 0x10000, and the same page with its header bytes at them. -/
def ls (n : Nat) : List Loc := (List.range n).map fun i => Loc.glob 0 (0x10000 + i)
def holding (s : State) (bs : List Byte) : State := { s with chip := s.chip.setAll 0x10000 bs }

theorem calm {i : Instr} {rs : List Nat} {g : Group} (h1 : g.loads = []) (h2 : g.reads = []) (h3 : Fragment.owes g.slot1 = [] := by rfl) :
    g.busy 0 i rs = false := by
  simp [Group.busy, Group.loading, Group.frag, h1, h2, h3]
theorem ready0 {i : Instr} {rs : List Nat} (hl : i.legal = true) (hr : ∀ r ∈ rs, r < 64) : Ready i rs (at0 g0) g0 fr0 0 :=
  ⟨rfl, rfl, hl, hr, calm rfl rfl⟩

/-- A word is ready at a group of core 0 without a fence, whose registers are no load's. -/
theorem readyAt {i : Instr} {rs : List Nat} {g : Group} {fr : Fragment} (h1 : g.core = 0) (h2 : g.slot0 = some fr) (h3 : fr.fence = none)
    (h4 : g.busy 0 i rs = false) (h5 : g.sregs.length = 64) (h6 : g.saved = false) (hl : i.legal = true) (hr : ∀ r ∈ rs, r < 64) : Ready i rs (at0 g) g fr 0 where
  here := by simp [State.here, at0, State.group, Group.isAt, h1, h6, Group.frag, h2]
  passes := by simp [Fragment.passes, h3]
  legal := hl
  held := fun r h => by rw [h5]; exact hr r h
  idle := h4

/-! ## Concrete states and operands that meet the hypotheses of the statements -/

theorem witness_ScalarArithmetic : Ready (.sadd 63 1 2) [63, 1, 2] (at0 g0) g0 fr0 0 ∧ Ready (.smulw 62 1 2) [62, 63, 1, 2] (at0 g0) g0 fr0 0 ∧
    Ready (.sdivi 0 0 0) [0, 0, 0] (at0 g0) g0 fr0 0 := by
  refine ⟨ready0 rfl ?_, ready0 rfl ?_, ready0 rfl ?_⟩ <;> decide
theorem witness_ScalarPairs : Ready (.saddp 62 0 2) ([62, 63] ++ ([0, 1] ++ [2, 3])) (at0 g0) g0 fr0 0 ∧
    Ready (.sshlp 2 2 5) ([2, 3] ++ ([2, 3] ++ [5])) (at0 g0) g0 fr0 0 ∧ 62 + 1 < g0.sregs.length := by
  refine ⟨ready0 rfl ?_, ready0 rfl ?_, ?_⟩ <;> decide
theorem witness_ScalarImmediates : Ready (.smovi 63 0x8000) [63] (at0 g0) g0 fr0 0 ∧ Ready (.ssrai 0 31) [0] (at0 g0) g0 fr0 0 := by
  refine ⟨ready0 rfl ?_, ready0 rfl ?_⟩ <;> decide
theorem witness_ScalarMoves : Ready (.smovx 1 63) [1, 63] (at0 g0) g0 fr0 0 ∧ Ready (.sget 1 0) [1] (at0 g0) g0 fr0 0 ∧
    (Ready (.sget 1 12) [1] (at0 g0) g0 fr0 0 ∧ g0.lanesDone = true) ∧ Ready (.sget 62 9) [62, 63] (at0 g0) g0 fr0 0 ∧
    Ready (.sget 62 10) [62, 63] (at0 g0) g0 fr0 0 ∧ Ready (.sset 1 12) [1] (at0 g0) g0 fr0 0 ∧ Ready (.sset 1 13) [1] (at0 g0) g0 fr0 0 ∧
    (g0.slot ≠ 128 ∧ (at0 g0).team g0.team = some t0) := by
  refine ⟨ready0 rfl ?_, ready0 rfl ?_, ⟨ready0 rfl ?_, rfl⟩, ready0 rfl ?_, ready0 rfl ?_, ready0 rfl ?_, ready0 rfl ?_, ?_, rfl⟩ <;> decide

def gJump (lo hi : Word) : Group := regs [0, 0, lo, hi]
def gSleep : Group := { g0 with slot0 := some { fr0 with wait := some (.sleep 0) } }
theorem witness_ControlFlow : Ready (.brz 63 0xFFFF) [63] (at0 g0) g0 fr0 0 ∧ (Ready (.brany 15 4) [] (at0 g0) g0 fr0 0 ∧ g0.maskWait [15, 0] = false) ∧
    Ready (.call 62 1) [62, 63] (at0 g0) g0 fr0 0 := by
  refine ⟨ready0 rfl ?_, ⟨ready0 rfl ?_, rfl⟩, ready0 rfl ?_⟩ <;> decide
theorem witness_ControlFlow_targets :
    (Ready (.ret 2) [2, 3] (at0 (gJump 0x10000 0)) (gJump 0x10000 0) fr0 0 ∧ ((gJump 0x10000 0).pair 2).extractLsb' 56 8 = 0 ∧
      ((gJump 0x10000 0).pair 2).extractLsb' 0 2 = 0) ∧
    (Ready (.jmpr 2) [2, 3] (at0 (gJump 0 0x01000000)) (gJump 0 0x01000000) fr0 0 ∧ ((gJump 0 0x01000000).pair 2).extractLsb' 56 8 ≠ 0) ∧
    (Ready (.ret 2) [2, 3] (at0 (gJump 2 0x00FFFFFF)) (gJump 2 0x00FFFFFF) fr0 0 ∧ ((gJump 2 0x00FFFFFF).pair 2).extractLsb' 56 8 = 0 ∧
      ((gJump 2 0x00FFFFFF).pair 2).extractLsb' 0 2 ≠ 0) ∧ fr0.fence = none ∧
    ((at0 gSleep).group 0 0 = some gSleep ∧ gSleep.frag 0 = some { fr0 with wait := some (.sleep 0) } ∧ 0 ≤ (at0 gSleep).cycle) := by
  refine ⟨⟨⟨rfl, rfl, rfl, ?_, rfl⟩, ?_, ?_⟩, ⟨⟨rfl, rfl, rfl, ?_, rfl⟩, ?_⟩, ⟨⟨rfl, rfl, rfl, ?_, rfl⟩, ?_, ?_⟩, rfl, rfl, rfl, ?_⟩ <;> decide
theorem witness_MaskWords : (Ready (.mfrom 15 63) [63] (at0 g0) g0 fr0 0 ∧ g0.maskWait [15] = false) ∧
    (Ready (.mand 1 0 15) [] (at0 g0) g0 fr0 0 ∧ g0.maskWait [1, 0, 15] = false) ∧ (Ready (.mto 63 0) [63] (at0 g0) g0 fr0 0 ∧ g0.maskWait [0] = false) ∧
    (Ready .exsetAll [] (at0 g0) g0 fr0 0 ∧ g0.maskWait [0] = false) ∧ (Ready (.exsave 15 1) [] (at0 g0) g0 fr0 0 ∧ g0.maskWait [15, 1, 0] = false) ∧
    (1 ≤ 15 ∧ 15 ≤ g0.masks.length ∧ ({ fr0 with mask := 1 } : Fragment).mask.getLsbD 31 = false) := by
  refine ⟨⟨ready0 rfl ?_, rfl⟩, ⟨ready0 rfl ?_, rfl⟩, ⟨ready0 rfl ?_, rfl⟩, ⟨ready0 rfl ?_, rfl⟩, ⟨ready0 rfl ?_, rfl⟩, ?_, ?_, ?_⟩ <;> decide

/-- A group whose m1 is `m` and whose s2:s3 is 0x10000, and the other split slot. -/
def gSplit (m : Mask) (o : Option Fragment) : Group := { gJump 0x10000 0 with masks := m :: List.replicate 14 0, slot1 := o }
theorem readySplit (m : Mask) (o : Option Fragment) (h : o ∈ [none, some fr0]) :
    Ready (.split 1 2) [2, 3] (at0 (gSplit m o)) (gSplit m o) fr0 0 := by
  simp at h
  rcases h with rfl | rfl <;> exact readyAt rfl rfl rfl (calm rfl rfl) rfl rfl rfl (by decide)
theorem witness_Fragments_split : (∀ m, ∀ o ∈ [none, some fr0], Ready (.split 1 2) [2, 3] (at0 (gSplit m o)) (gSplit m o) fr0 0) ∧
    ((gSplit 0 none).clausesDone fr0 = true ∧ (gSplit 0 none).maskWait [1, 0] = false ∧ ((gSplit 0 none).pair 2).extractLsb' 56 8 = 0 ∧
      ((gSplit 0 none).pair 2).extractLsb' 0 2 = 0) ∧ fr0.exec &&& (gSplit 0 none).mask fr0 1 = 0 ∧
    (fr0.exec &&& (gSplit 0xFFFFFFFF none).mask fr0 1 ≠ 0 ∧ fr0.exec &&& ~~~(gSplit 0xFFFFFFFF none).mask fr0 1 = 0) ∧
    (fr0.exec &&& (gSplit 1 none).mask fr0 1 ≠ 0 ∧ fr0.exec &&& ~~~(gSplit 1 none).mask fr0 1 ≠ 0 ∧ (gSplit 1 none).frag (1 - 0) = none) ∧
    ((gSplit 1 (some fr0)).frag (1 - 0)).isSome := by
  refine ⟨fun m o h => readySplit m o h, ?_⟩; decide
def gJoin (r : Rejoin) (m : Mask) : Group := { g0 with rejoin := r :: List.replicate 7 {}, slot0 := some { fr0 with mask := m, exec := m } }
def fr1 (m : Mask) : Fragment := { fr0 with mask := m, exec := m }
theorem readyJoin (i : Instr) (hi : i.legal = true) (r : Rejoin) (m : Mask) : Ready i [] (at0 (gJoin r m)) (gJoin r m) (fr1 m) 0 :=
  readyAt rfl rfl rfl (calm rfl rfl) rfl rfl hi (by decide)
theorem witness_Fragments_join : (∀ r m, Ready (.join 0) [] (at0 (gJoin r m)) (gJoin r m) (fr1 m) 0) ∧
    (∀ r m, Ready (.jset 0 1) [] (at0 (gJoin r m)) (gJoin r m) (fr1 m) 0) ∧
    ((gJoin {} 1).maskWait [1] = false ∧ ((gJoin {} 1).rj 0).arrived = 0) ∧ ((gJoin { arrived := 2 } 1).rj 0).arrived ≠ 0 ∧
    ((gJoin { armed := true, expect := 1 } 1).clausesDone (fr1 1) = true ∧ joinReason ((gJoin { armed := true, expect := 1 } 1).rj 0) (fr1 1) = none ∧
      ((gJoin { armed := true, expect := 1 } 1).rj 0).arrived ||| (fr1 1).mask = ((gJoin { armed := true, expect := 1 } 1).rj 0).expect) ∧
    (joinReason ((gJoin { armed := true, expect := 3 } 1).rj 0) (fr1 1) = none ∧
      ((gJoin { armed := true, expect := 3 } 1).rj 0).arrived ||| (fr1 1).mask ≠ ((gJoin { armed := true, expect := 3 } 1).rj 0).expect) ∧
    joinReason ((gJoin {} 1).rj 0) (fr1 1) = some 3 ∧ joinReason ((gJoin { armed := true, expect := 2 } 1).rj 0) (fr1 1) = some 4 ∧
    joinReason ((gJoin { armed := true, expect := 3, arrived := 2, jaddr := 4 } 1).rj 0) (fr1 1) = some 1 := by
  refine ⟨readyJoin _ rfl, readyJoin _ rfl, ?_⟩; decide
/-- A context with save memory, and one without; a group that pops the stack. -/
def cSave : Context := { base.ctx 0 with saveBase := 0x40000, saveSize := 0x0D180000 }
theorem witness_Fragments_stack : (at0 g0).team g0.team = some t0 ∧ g0.ended = false ∧ 0x0D180000 ≤ cSave.saveSize.toNat ∧
    ({ at0 g0 with contexts := [cSave] } : State).ctx 0 = cSave ∧ ((at0 g0).ctx t0.cid).saveSize.toNat < 0x0D180000 ∧
    g0.stack.length < ({ g0 with stack := [fr0] } : Group).stack.length := by decide
theorem witness_Fragments_query : Ready (.fragq 63 0) [63] (at0 g0) g0 fr0 0 ∧ Ready (.fragq 63 3) [63] (at0 g0) g0 fr0 0 := by
  refine ⟨ready0 rfl ?_, ready0 rfl ?_⟩ <;> decide
def gItem : Group := { g0 with rung := 0x80000000, items := some 0 :: List.replicate 31 none }
def gWaits : Group := { g0 with slot0 := none, rejoin := { armed := true, arrived := 2 } :: { armed := true, arrived := 1 } :: List.replicate 6 {} }
theorem witness_ExitWord : (Ready .exit [] (at0 g0) g0 fr0 0 ∧ g0.slot ≠ 128 ∧ g0.clausesDone fr0 = true ∧ g0.rung.getLsbD 31 = false) ∧
    (({ g0 with slot0 := none, stack := [fr0] } : Group).stack = fr0 :: [] ∧ ({ g0 with stack := [fr0] } : Group).slot0.isSome ∧
      ({ g0 with stack := [fr0] } : Group).slot1 = none) ∧
    (gWaits.slot0 = none ∧ gWaits.slot1 = none ∧ gWaits.stack = [] ∧ gWaits.rejoin[1]? = some { armed := true, arrived := 1 } ∧
      ∀ m < 8, ∀ q, gWaits.rejoin[m]? = some q → q.arrived ≠ 0 → m ≠ 1 → lowestLane 1 < lowestLane q.arrived) ∧
    (Ready .exit [] (at0 gItem) gItem fr0 0 ∧ gItem.rung.getLsbD 31 = true ∧ ∃ l ∈ lanesOf fr0.mask, (gItem.items.getD l none).isSome) := by
  refine ⟨⟨ready0 rfl (by decide), by decide, rfl, rfl⟩, ⟨rfl, rfl, rfl⟩, ⟨rfl, rfl, rfl, rfl, ?_⟩, readyAt rfl rfl rfl rfl rfl rfl rfl (by decide), rfl, 0, by decide, rfl⟩
  intro m hm q hq h1 h2
  have : m = 0 ∨ m = 1 ∨ 2 ≤ m := by omega
  rcases this with rfl | rfl | h
  · simp [gWaits] at hq; subst hq; decide
  · exact absurd rfl h2
  · exfalso; apply h1
    obtain ⟨n, rfl⟩ : ∃ n, m = n + 2 := ⟨m - 2, by omega⟩
    simp only [gWaits, List.getElem?_cons_succ, List.getElem?_replicate] at hq
    split at hq <;> simp at hq; subst hq; rfl

/-- The team whose barrier `n` has a count and arrivals, and a state that holds it. -/
def tBar (n : Nat) (b : Barrier) : Team := { t0 with size := 2, bars := t0.bars.set n b }
def with_ (s : State) (t : Team) : State := { s with teams := [t] }
theorem readyWith {i : Instr} {rs : List Nat} {s : State} {g : Group} {fr : Fragment} {k : Nat} (t : Team) (h : Ready i rs s g fr k) :
    Ready i rs (with_ s t) g fr k := ⟨h.here, h.passes, h.legal, h.held, h.idle⟩
def gBarWait : Group := { g0 with slot0 := some { fr0 with wait := some (.bar false 15 0) } }
def gArrived : Group := { g0 with bars := { pending := true, phase := 0, effect := some 0 } :: List.replicate 15 {} }
theorem witness_BarrierWords :
    (Ready (.bara 15 33) [] (with_ (at0 g0) (tBar 15 {})) g0 fr0 0 ∧ (with_ (at0 g0) (tBar 15 {})).team 0 = some (tBar 15 {}) ∧ g0.slot ≠ 128 ∧
      (g0.barPart 15).effect = none ∧ (g0.barPart 15).pending = false) ∧
    (2 ≤ (with_ (at0 g0) (tBar 15 {})).barGroups (tBar 15 {}) 15 + 1 ∧ ((with_ (at0 g0) (tBar 15 {})).barrier (tBar 15 {}) 15).count = 0) ∧
    ((at0 g0).barrier (tBar 15 { count := 3, arrived := 2 }) 15).count = 3 ∧ ¬ 4 ≤ (with_ (at0 g0) (tBar 15 {})).barGroups (tBar 15 {}) 15 + 1 ∧
    (Ready (.cbara 3 384) [] (at0 g0) g0 fr0 0 ∧ (g0.barPart 19).effect = none) ∧
    (Ready (.barw 15) [] (at0 gBarWait) gBarWait { fr0 with wait := some (.bar false 15 0) } 0 ∧
      ((at0 gBarWait).barrier t0 15).phase = 0 ∧ ((at0 gBarWait).barrier (tBar 15 { phase := 1 }) 15).phase ≠ 0) ∧
    (Ready (.cbarw 3) [] (at0 g0) g0 fr0 0 ∧ fr0.wait = none) ∧ (Ready (.baraw 15 33) [] (at0 g0) g0 fr0 0 ∧ 15 < g0.bars.length) ∧
    ((at0 gArrived).team t0.tid = some t0 ∧ ((at0 gArrived).groups.find? fun x => x.team == t0.tid && x.grp == 0 && x.slot != 128 && !x.saved) = some gArrived ∧
      gArrived.team = t0.tid ∧ (gArrived.barPart 0).effect = some 0 ∧ gArrived.doneBefore 0 = true) := by
  refine ⟨⟨readyWith _ (ready0 rfl (by decide)), rfl, by decide, rfl, rfl⟩, ⟨by decide, rfl⟩, rfl, by decide, ⟨ready0 rfl (by decide), rfl⟩,
    ⟨readyAt rfl rfl rfl rfl rfl rfl rfl (by decide), rfl, by decide⟩, ⟨ready0 rfl (by decide), rfl⟩, ⟨ready0 rfl (by decide), by decide⟩, rfl, rfl, rfl, rfl, rfl⟩
/-- An arrival that comes before its earlier effect, or in its own phase; a wait of BARAW that a new phase ends. -/
def gEarly : Group := { g0 with bars := { pending := true, phase := 0 } :: List.replicate 19 {} }
theorem witness_BarrierWords_held :
    (Ready (.bara 0 0) [] (at0 gArrived) gArrived fr0 0 ∧ (at0 gArrived).team 0 = some t0 ∧ gArrived.slot ≠ 128 ∧ ((gArrived.barPart 0).effect.isSome) ∧
      fr0.wait = none) ∧
    (Ready (.baraw 0 0) [] (at0 gEarly) gEarly fr0 0 ∧ (gEarly.barPart 0).pending = true ∧ ((at0 gEarly).barrier t0 0).phase = (gEarly.barPart 0).phase) ∧
    (Ready (.cbara 0 0) [] (at0 { gEarly with cbars := List.replicate 4 { effect := some 0 } }) { gEarly with cbars := List.replicate 4 { effect := some 0 } } fr0 0 ∧
      (({ gEarly with cbars := List.replicate 4 { effect := some 0 } } : Group).barPart 16).effect.isSome) ∧
    (Ready (.baraw 15 33) [] (with_ (at0 gBarWait) (tBar 15 { phase := 1 })) gBarWait { fr0 with wait := some (.bar false 15 0) } 0 ∧
      (with_ (at0 gBarWait) (tBar 15 { phase := 1 })).team 0 = some (tBar 15 { phase := 1 }) ∧
      ((with_ (at0 gBarWait) (tBar 15 { phase := 1 })).barrier (tBar 15 { phase := 1 }) 15).phase ≠ 0) ∧
    ((with_ (at0 g0) (tBar 15 { count := 1 })).barrier (tBar 15 { count := 1 }) 15).count = 1 := by
  refine ⟨⟨readyAt rfl rfl rfl rfl rfl rfl rfl (by decide), rfl, by decide, rfl, rfl⟩, ⟨readyAt rfl rfl rfl rfl rfl rfl rfl (by decide), rfl, rfl⟩,
    ⟨readyAt rfl rfl rfl rfl rfl rfl rfl (by decide), rfl⟩, ⟨readyWith _ (readyAt rfl rfl rfl rfl rfl rfl rfl (by decide)), rfl, by decide⟩, rfl⟩
theorem witness_BarrierWords_stream : (({ t0 with stream := { bars := { effect := some 0 } :: List.replicate 15 {} } } : Team).stream.bars.getD 0 {}).effect = some 0 := rfl

/-- A group with a fence. -/
def fence0 (spec : Bool) (n : Nat) : Fence := { scope := 4, mark := 1, spec, issued := n, pc := 0x10000, reads := [(.glob 0 0x10000, 0)] }
def frF (spec : Bool) (n : Nat) : Fragment := { fr0 with fence := some (fence0 spec n) }
def gF (spec : Bool) (n : Nat) : Group := { g0 with slot0 := some (frF spec n) }
theorem witness_Fences :
    (Ready (.fwait 0xFFF) [] (at0 g0) g0 fr0 0 ∧ ∀ n : Nat, n < 12 → g0.flag n = 0) ∧ Ready (.ftest 63 0xFFF) [63] (at0 g0) g0 fr0 0 ∧
    (Ready (.fence 31) [] (at0 g0) g0 fr0 0 ∧ fr0.again = false) ∧
    (Ready (.fence 4) [] (at0 { g0 with slot0 := some { fr0 with again := true } }) { g0 with slot0 := some { fr0 with again := true } } { fr0 with again := true } 0) ∧
    ((at0 (gF true 0)).fenceOf 0 0 0 = some (gF true 0, frF true 0, fence0 true 0) ∧ (gF true 0).doneBefore 1 = true ∧
      (∀ p ∈ (fence0 true 0).reads, (at0 (gF true 0)).readLoc p.1 = p.2) ∧ (fence0 true 0).spec = true ∧ (fence0 true 0).reads ≠ []) ∧
    ((at0 (gF false 0)).here = some (gF false 0, frF false 0, 0) ∧ (fence0 false 0).spec = false) ∧
    ((at0 (gF true 256)).here = some (gF true 256, frF true 256, 0) ∧ 256 ≤ (fence0 true 256).issued) := by
  refine ⟨⟨ready0 rfl (by decide), by decide⟩, ready0 rfl (by decide), ⟨ready0 rfl (by decide), rfl⟩,
    readyAt rfl rfl rfl rfl rfl rfl rfl (by decide), ⟨rfl, rfl, ?_, rfl, by decide⟩, ⟨rfl, rfl⟩, rfl, by decide⟩
  intro p hp; simp [fence0] at hp; subst hp; decide
theorem witness_Fences_rollback : ({ at0 (gF true 0) with snaps := [g0] } : State).snapOf 0 0 = some g0 ∧ (at0 (gF true 0)).group 0 0 = some (gF true 0) ∧
    (gF true 0).windowOf = some 0 ∧ (gF true 0).frag 0 = some (frF true 0) ∧ (frF true 0).fence = some (fence0 true 0) ∧
    (({ at0 (gF true 0) with snaps := [g0] } : State).rollback 0 0).group 0 0 ≠ none := by decide

/-- The page holds a header of one word with flag A 2 that waits for flags 0 and 3, and a word of zeros. -/
def hdr : List Byte := [0, 0, 0, 0, 0, 0, 0, 0, 0x99, 0, 0xC1, 0xFF]
def sRun : State := holding (at0 g0) hdr
def frStart : Fragment := { fr0 with queue := [{ wordClause 0 with started := false, wait := 9 }] }
def gStart : Group := { g0 with slot0 := some frStart }
theorem witness_LrunAndClauses : Ready (.lrun 0x1000) [] sRun g0 fr0 0 ∧
    sRun.fetchCode (sRun.who g0) (((sRun.laneBase g0).toNat + 16 * (0x1000 : BitVec 16).toNat) % 2 ^ 64) 12 = .ok 0xFFC100990000000000000000 ∧
    decodeHeader (BitVec.ofNat 96 0xFFC100990000000000000000) = some { len := 1, wait := 9, fa := some 2, fb := none } ∧
    sRun.fetchBody (sRun.who g0) (0x10000 + 12) 1 = .ok [0] ∧ fr0.queue.length < 8 ∧ g0.pendingMasks = [] ∧ g0.flags.getD 2 0 < 63 ∧
    g0.loading (bodyScalars [0]) = false ∧ g0.acquiring = false := by
  refine ⟨⟨rfl, rfl, rfl, by simp, rfl⟩, rfl, rfl, rfl, by decide, rfl, by decide, rfl, rfl⟩
theorem witness_LrunAndClauses_bad : Ready (.lrun 0x1000) [] (at0 g0) g0 fr0 0 ∧
    (at0 g0).fetchCode ((at0 g0).who g0) ((((at0 g0).laneBase g0).toNat + 16 * (0x1000 : BitVec 16).toNat) % 2 ^ 64) 12 = .ok 0 ∧
    decodeHeader (BitVec.ofNat 96 0) = none := ⟨ready0 rfl (by decide), rfl, rfl⟩
theorem witness_LrunAndClauses_start : (at0 gStart).group 0 0 = some gStart ∧ gStart.frag 0 = some frStart ∧
    frStart.queue = { wordClause 0 with started := false, wait := 9 } :: [] ∧ (at0 gStart).laneIssuing gStart = true ∧
    ∀ f : Nat, f < 12 → gStart.flags.getD f 0 = 0 := ⟨rfl, rfl, rfl, rfl, by decide⟩

/-- A group whose s2:s3 holds an address. -/
theorem readyMem {i : Instr} {rs : List Nat} (lo hi : Word) (hl : i.legal = true) (hr : ∀ r ∈ rs, r < 64) :
    Ready i rs (at0 (gJump lo hi)) (gJump lo hi) fr0 0 := readyAt rfl rfl rfl (calm rfl rfl) rfl rfl hl hr
theorem witness_ScalarAddressChecks :
    (Ready (.sld32 8 2 255) [8, 2, 3] (at0 (gJump 0 0x01000000)) (gJump 0 0x01000000) fr0 0 ∧
      ((gJump 0 0x01000000).pair 2 + BitVec.ofNat 64 (255 * 4)).extractLsb' 56 8 ≠ 0) ∧
    (Ready (.sld64 8 2 0) [8, 9, 2, 3] (at0 (gJump 0x10004 0)) (gJump 0x10004 0) fr0 0 ∧ ((gJump 0x10004 0).pair 2).extractLsb' 56 8 = 0 ∧
      ((gJump 0x10004 0).pair 2).toNat % 8 ≠ 0) ∧
    (Ready (.jsave 7 2 0) [2, 3] (at0 (gJump 0x10008 0)) (gJump 0x10008 0) fr0 0 ∧ ((gJump 0x10008 0).pair 2).toNat % 16 ≠ 0) ∧
    (Ready (.scpset 31 2 0) [2, 3] (at0 (gJump 0x10020 0)) (gJump 0x10020 0) fr0 0 ∧ ((gJump 0x10020 0).pair 2).toNat % 64 ≠ 0) ∧
    (Ready (.stref 8 2 0) [8, 9, 2, 3] (at0 (gJump 0x10004 0)) (gJump 0x10004 0) fr0 0 ∧ (gJump 0x10004 0).slot ≠ 128) := by
  refine ⟨⟨readyMem _ _ rfl (by decide), by decide⟩, ⟨readyMem _ _ rfl (by decide), by decide, by decide⟩, ⟨readyMem _ _ rfl (by decide), by decide⟩,
    ⟨readyMem _ _ rfl (by decide), by decide⟩, readyMem _ _ rfl (by decide), by decide⟩

def gMem : Group := gJump 0x10000 0
theorem atMem {i : Instr} {rs : List Nat} {size : Nat} {acc : Acc} {late : Bool} (hl : i.legal = true) (hr : ∀ r ∈ rs, r < 64)
    (h1 : (0x10000 : DWord).toNat % size = 0) (h2 : (at0 gMem).copyBlocks { (at0 gMem).who gMem with late } (0x10000 : DWord).toNat size acc.writes = false)
    (h3 : (at0 gMem).places { (at0 gMem).who gMem with late } (0x10000 : DWord).toNat size acc = .ok (ls size))
    (h4 : (at0 gMem).requestsFull 0 (requestsOf size acc) = false := by rfl)
    (h5 : (0x10000 : DWord) = gMem.memAddr fr0 2 0 size := by rfl) : AtMem i rs size 2 0 acc late (at0 gMem) gMem fr0 0 0x10000 (ls size) :=
  ⟨readyMem _ _ hl hr, h5, rfl, h1, rfl, h4, h2, h3⟩
theorem witness_ScalarLoads : AtMem (.sld32 8 2 0) ([8] ++ [2, 3]) 4 2 0 .rd true (at0 gMem) gMem fr0 0 0x10000 (ls 4) ∧
    AtMem (.sld64 8 2 0) ([8, 9] ++ [2, 3]) 8 2 0 .rd true (at0 gMem) gMem fr0 0 0x10000 (ls 8) ∧
    (AtMem (.ldref 8 2 15 0) ([8, 9] ++ [2, 3]) 8 2 0 .rd true (at0 gMem) gMem fr0 0 0x10000 (ls 8) ∧ gMem.maskWait [15] = false) :=
  ⟨atMem rfl (by decide) rfl rfl rfl, atMem rfl (by decide) rfl rfl rfl, atMem rfl (by decide) rfl rfl rfl, rfl⟩
/-- The L1 of core 0 holds the line of a place in a state. -/
def l1At (s : State) (gpa : Nat) (st : LState) : State := { s with l1 := [{ core := 0, line := lineOf 0 gpa, st }] }
def ld (tag : Option Nat) : Load := { seq := 5, dst := 8, pair := true, locs := ls 8, pc := 0x10000, tagTo := tag }
def gLd (tag : Option Nat) : Group := { gMem with loads := [ld tag] }
/-- A load that has its value: an atomic that has performed. -/
def gPerf : Group := { gMem with loads := [{ ld none with value := some 7, atom := some { op := .add, x := 1, y := 0, rel := false, scope := 0 } }] }
theorem witness_ScalarLoads_return : ((at0 (gLd none)).group 0 0 = some (gLd none) ∧ (gLd none).loads.find? (fun x => x.seq == 5) = some (ld none) ∧
      (ld none).bad = false ∧ (ld none).tagTo = none ∧ (ld none).acq = false ∧ (gLd none).windowed 5 = false ∧ (ld none).value = none ∧ (ld none).atom = none ∧
      (gLd none).loadWaits (ld none) = false ∧ (l1At (at0 (gLd none)) 0x10000 .S).lateFault (ld none).locs false = none ∧
      ∀ p ∈ (ld none).locs, (l1At (at0 (gLd none)) 0x10000 .S).inCache ((at0 (gLd none)).who (gLd none)) p = true) ∧
    ((at0 (gLd none)).lateFault (ld none).locs false = none ∧ (ld none).locs = .glob 0 0x10000 :: (ls 8).drop 1 ∧
      ((at0 (gLd none)).who (gLd none)).core < 384 ∧ (at0 (gLd none)).l1St ((at0 (gLd none)).who (gLd none)).core (lineOf 0 0x10000) = .I ∧
      (at0 (gLd none)).privateAt ((at0 (gLd none)).who (gLd none)) (ld none).addr.toNat 0x10000 = false) ∧
    ((gLd (some 15)).loads.find? (fun x => x.seq == 5) = some (ld (some 15)) ∧ (ld (some 15)).tagTo = some 15 ∧ (ld (some 15)).pair = true ∧
      (ld (some 15)).locs = .glob 0 0x10000 :: (ls 8).drop 1 ∧ 1 ≤ 15 ∧ (gLd (some 15)).loadWaits (ld (some 15)) = false) ∧
    ((at0 gPerf).group 0 0 = some gPerf ∧ ((gPerf.loads.find? fun x => x.seq == 5).map fun l => (l.value, l.bad, l.tagTo, l.acq)) = some (some 7, false, none, false) ∧
      gPerf.windowed 5 = false) := by
  refine ⟨⟨rfl, rfl, rfl, rfl, rfl, rfl, rfl, rfl, rfl, rfl, by decide⟩, ⟨rfl, rfl, by decide, rfl, rfl⟩, ⟨rfl, rfl, rfl, rfl, by decide, rfl⟩, rfl, rfl, rfl⟩

theorem witness_ScalarStores :
    (AtMem (.sst32 8 2 0) ([8] ++ [2, 3]) 4 2 0 .wr true (at0 gMem) gMem fr0 0 0x10000 (ls 4) ∧ ∀ l ∈ ls 4, (at0 gMem).isHeader l = false) ∧
    (AtMem (.sst64 8 2 0) ([8, 9] ++ [2, 3]) 8 2 0 .wr true (at0 gMem) gMem fr0 0 0x10000 (ls 8) ∧ ∀ l ∈ ls 8, (at0 gMem).isHeader l = false) ∧
    (AtMem (.tdget 255 2 0) [2, 3] 64 2 0 .wr true (at0 gMem) gMem fr0 0 0x10000 (ls 64) ∧ ∀ l ∈ ls 64, (at0 gMem).isHeader l = false) ∧
    (AtMem (.jsave 7 2 0) [2, 3] 16 2 0 .wr false (at0 gMem) gMem fr0 0 0x10000 (ls 16) ∧ (∀ l ∈ ls 16, (at0 gMem).isHeader l = false) ∧
      (gMem.rj 7).arrived = 0) :=
  ⟨⟨atMem rfl (by decide) rfl rfl rfl, by decide⟩, ⟨atMem rfl (by decide) rfl rfl rfl, by decide⟩, ⟨atMem rfl (by decide) rfl rfl rfl, by decide⟩,
    atMem rfl (by decide) rfl rfl rfl, by decide, rfl⟩
/-- The first word of the page is an object's header. -/
def sHead : State :=
  { at0 gMem with chip := (Memory.setAll {} 0x10000 [0, 0, 0, 0, 0, 0, 0, 0x80]), chipMeta := [{ line := lineOf 0 0x10000, tags := 1 }] }
def gArr : Group := { gMem with rejoin := { armed := true, arrived := 1 } :: List.replicate 7 {} }
theorem witness_ScalarStores_traps :
    (AtMem (.sst32 8 2 0) ([8] ++ [2, 3]) 4 2 0 .wr true sHead gMem fr0 0 0x10000 (ls 4) ∧ (ls 4).findIdx? sHead.isHeader = some 0) ∧
    (Ready (.jsave 0 2 0) [2, 3] (at0 gArr) gArr fr0 0 ∧ addrFault (gArr.pair 2 + BitVec.ofNat 64 (0 * 16)) 16 = none ∧ (gArr.rj 0).arrived ≠ 0) := by
  refine ⟨⟨⟨⟨rfl, rfl, rfl, by decide, rfl⟩, rfl, rfl, rfl, rfl, rfl, rfl, rfl⟩, rfl⟩, readyAt rfl rfl rfl rfl rfl rfl rfl (by decide), rfl, by decide⟩
def st0 (tag : Bool) : BufStore := { seq := 0, bytes := [(.glob 0 0x10000, 7)], setTag := tag, uid := 0 }
def gSt (tag : Bool) : Group := { g0 with sbuf := [st0 tag], seq := 1 }
theorem baseWf : base.MemWf := ⟨rfl, rfl, rfl, rfl, fun _ h => by cases List.mem_singleton.mp h; rfl⟩
theorem atWf (g : Group) : (at0 g).MemWf := baseWf.same rfl rfl rfl rfl rfl
theorem readyL1 {i : Instr} {rs : List Nat} {s : State} {g : Group} {fr : Fragment} {k gpa : Nat} {st : LState} (h : Ready i rs s g fr k) :
    Ready i rs (l1At s gpa st) g fr k := ⟨h.here, h.passes, h.legal, h.held, h.idle⟩
theorem witness_StorePerforms : (at0 (gSt false)).MemWf ∧ (at0 (gSt false)).group 0 0 = some (gSt false) ∧ (gSt false).sbuf[0]? = some (st0 false) ∧
    (gSt false).canDrain (st0 false) = true ∧ (at0 (gSt false)).writeFault 0 (st0 false).locs = none ∧ (st0 false).rel = none ∧
    (at0 (gSt false)).own ((at0 (gSt false)).who (gSt false)) 0 (st0 false).locs.head? = .error (.getx 0 (lineOf 0 0x10000)) ∧
    ((l1At (at0 (gSt false)) 0x10000 .M).MemWf ∧ (l1At (at0 (gSt false)) 0x10000 .M).writeFault 0 (st0 false).locs = none ∧
      (l1At (at0 (gSt false)) 0x10000 .M).own ((at0 (gSt false)).who (gSt false)) 0 (st0 false).locs.head? = .ok (l1At (at0 (gSt false)) 0x10000 .M)) ∧
    ((st0 false).bytes.all fun p => (((st0 false).bytes.filter fun q => q.1.key == p.1.key).length == 1)) = true ∧
    ((at0 (gSt false)).privateAt ((at0 (gSt false)).who (gSt false)) 0 0x10000 = false ∧ (at0 (gSt false)).l1St 0 (lineOf 0 0x10000) = .I ∧
      (l1At (at0 (gSt false)) 0x10000 .O).l1St 0 (lineOf 0 0x10000) = .O ∧ ((at0 (gSt false)).who (gSt false)).core < 384) ∧
    ((st0 true).setTag = true ∧ (st0 true).bytes = (.glob 0 0x10000, 7) :: [] ∧ isHostGpa 0x10000 = false) := by
  refine ⟨atWf _, rfl, rfl, rfl, rfl, rfl, rfl, ⟨(atWf (gSt false)).same rfl rfl rfl rfl rfl, rfl, rfl⟩, ?_, ⟨rfl, rfl, rfl, ?_⟩, rfl, rfl, rfl⟩ <;> decide

theorem witness_ScalarAtomics :
    (AtMem (.saadd 8 2 0) ([8] ++ [2, 3]) 4 2 0 .at true (at0 gMem) gMem fr0 0 0x10000 (ls 4) ∧ (∀ l ∈ ls 4, (at0 gMem).isHeader l = false)) ∧
    AtMem (.sacas 8 2 0) ([8, 9] ++ [2, 3]) 4 2 0 .at true (at0 gMem) gMem fr0 0 0x10000 (ls 4) :=
  ⟨⟨atMem rfl (by decide) rfl rfl rfl, by decide⟩, atMem rfl (by decide) rfl rfl rfl⟩
def at1 (scope : BitVec 5) : Atomic := { op := .add, x := 1, y := 0, rel := false, scope }
def gAtom (scope : BitVec 5) : Group := { gMem with loads := [{ seq := 5, dst := 8, pair := false, locs := ls 4, pc := 0x10000, addr := 0x10000, atom := some (at1 scope) }] }
theorem witness_ScalarAtomics_perform :
    (let s := l1At (at0 (gAtom 0)) 0x10000 .M
     let l : Load := { seq := 5, dst := 8, pair := false, locs := ls 4, pc := 0x10000, addr := 0x10000, atom := some (at1 0) }
     s.group 0 0 = some (gAtom 0) ∧ (gAtom 0).loads.find? (fun x => x.seq == 5) = some l ∧ (gAtom 0).mayPerform l (at1 0) = true ∧
       s.writeFault l.addr l.locs = none ∧ s.inL1 (s.who (gAtom 0)) l.addr.toNat 0 l.locs = true ∧
       s.own (s.who (gAtom 0)) l.addr.toNat l.locs.head? = .ok s) ∧
    (let s := at0 (gAtom 4)
     let l : Load := { seq := 5, dst := 8, pair := false, locs := ls 4, pc := 0x10000, addr := 0x10000, atom := some (at1 4) }
     s.group 0 0 = some (gAtom 4) ∧ (gAtom 4).mayPerform l (at1 4) = true ∧ s.writeFault l.addr l.locs = none ∧
       s.inL1 (s.who (gAtom 4)) l.addr.toNat 4 l.locs = false ∧ l.locs = .glob 0 0x10000 :: (ls 4).drop 1) := by
  refine ⟨⟨rfl, rfl, rfl, rfl, rfl, rfl⟩, rfl, rfl, rfl, rfl, rfl⟩
/-- The word after an ORD of acquire order: SLD32 s8, [s2:s3]; and after another: NOP. -/
def sOrd (w : List Byte) : State := holding (at0 gMem) ([0x24, 0, 0, 0x9F] ++ w)
theorem witness_ScalarAtomics_ord :
    (Ready (.ord .acq 4) [] (sOrd [0, 2, 8, 0x90]) gMem fr0 0 ∧
      (sOrd [0, 2, 8, 0x90]).fetchCode ((sOrd [0, 2, 8, 0x90]).who gMem) (fr0.pc + 4).toNat 4 = .ok 0x90080200 ∧
      decodeScalar (BitVec.ofNat 32 0x90080200) = .ok (.sld32 8 2 0) ∧ Ord.acq.forLoad = true) ∧
    ((sOrd [0, 0, 0, 0x6A]).fetchCode ((sOrd [0, 0, 0, 0x6A]).who gMem) (fr0.pc + 4).toNat 4 = .ok 0x6A000000 ∧
      decodeScalar (BitVec.ofNat 32 0x6A000000) = .ok .nop ∧ (ordWord .acq .nop).isNone) :=
  ⟨⟨⟨rfl, rfl, rfl, by simp, rfl⟩, rfl, rfl, rfl⟩, rfl, rfl, rfl⟩
/-- JLOAD, SCPSET or TDSET after the words `ws` of its image, which is zeros, or ones, in memory; the line is in the L1; the cores are those of die 0. -/
def frW (ws : List DWord) : Fragment := { fr0 with wait := some (.words 0x10000 ws) }
def gW (ws : List DWord) : Group := { gMem with slot0 := some (frW ws) }
def sW (bs : List Byte) (ws : List DWord) : State := l1At { holding (at0 (gW ws)) bs with parts := [{ id := 0, dies := [0], admin := 0 }] } 0x10000 .S
def imgOf (s : State) (ws : List DWord) (n : Nat) : Nat :=
  dwordsVal ((frW ws).words ++ [BitVec.ofNat 64 (leVal ((((ls n).drop (8 * (frW ws).words.length)).take 8).map fun l => ((gW ws).fwd (gW ws).seq l).getD (s.readLoc l)))])
theorem atWords {i : Instr} {rs : List Nat} {size : Nat} (bs : List Byte) (ws : List DWord) (hl : i.legal = true) (hr : ∀ r ∈ rs, r < 64)
    (h1 : (0x10000 : DWord).toNat % size = 0) (h2 : (sW bs ws).copyBlocks { (sW bs ws).who (gW ws) with late := false } (0x10000 : DWord).toNat size Acc.rd.writes = false)
    (h3 : (sW bs ws).places { (sW bs ws).who (gW ws) with late := false } (0x10000 : DWord).toNat size .rd = .ok (ls size))
    (h4 : (sW bs ws).requestsFull 0 (requestsOf size .rd) = false := by rfl) : AtMem i rs size 2 0 .rd false (sW bs ws) (gW ws) (frW ws) 0 0x10000 (ls size) :=
  ⟨⟨rfl, rfl, hl, hr, calm rfl rfl⟩, rfl, rfl, h1, rfl, h4, h2, h3⟩
theorem witness_TableLoads :
    (AtMem (.jload 7 2 0) [2, 3] 16 2 0 .rd false (sW [] []) (gW []) (frW []) 0 0x10000 (ls 16) ∧ ((gW []).rj 7).arrived = 0 ∧ ¬ 2 ≤ (frW []).words.length + 1) ∧
    (AtMem (.jload 7 2 0) [2, 3] 16 2 0 .rd false (sW [] [0]) (gW [0]) (frW [0]) 0 0x10000 (ls 16) ∧ ((gW [0]).rj 7).arrived = 0 ∧
      2 ≤ (frW [0]).words.length + 1 ∧ BitVec.ofNat 128 (imgOf (sW [] [0]) [0] 16) = 0) ∧
    (AtMem (.scpset 8 2 0) [2, 3] 64 2 0 .rd false (sW [] []) (gW []) (frW []) 0 0x10000 (ls 64) ∧ ¬ 6 ≤ (frW []).words.length + 1) ∧
    (AtMem (.scpset 8 2 0) [2, 3] 64 2 0 .rd false (sW [] (List.replicate 5 0)) (gW (List.replicate 5 0)) (frW (List.replicate 5 0)) 0 0x10000 (ls 64) ∧
      6 ≤ (frW (List.replicate 5 0)).words.length + 1 ∧ BitVec.ofNat 384 (imgOf (sW [] (List.replicate 5 0)) (List.replicate 5 0) 64) = 0) ∧
    (AtMem (.tdset 255 2 0) [2, 3] 64 2 0 .rd false (sW [] []) (gW []) (frW []) 0 0x10000 (ls 64) ∧ ¬ 8 ≤ (frW []).words.length + 1) ∧
    (AtMem (.tdset 255 2 0) [2, 3] 64 2 0 .rd false (sW [] (List.replicate 7 0)) (gW (List.replicate 7 0)) (frW (List.replicate 7 0)) 0 0x10000 (ls 64) ∧
      8 ≤ (frW (List.replicate 7 0)).words.length + 1 ∧ tOk (BitVec.ofNat 512 (imgOf (sW [] (List.replicate 7 0)) (List.replicate 7 0) 64)) = true) := by
  refine ⟨⟨atWords _ _ rfl ?_ rfl rfl rfl, rfl, ?_⟩, ⟨atWords _ _ rfl ?_ rfl rfl rfl, rfl, ?_, ?_⟩, ⟨atWords _ _ rfl ?_ rfl rfl rfl, ?_⟩,
    ⟨atWords _ _ rfl ?_ rfl rfl rfl, ?_, ?_⟩, ⟨atWords _ _ rfl ?_ rfl rfl rfl, ?_⟩, atWords _ _ rfl ?_ rfl rfl rfl, ?_, ?_⟩ <;> decide
/-- The next word is at hand, and it is not. -/
theorem witness_TableLoads_at : (∀ ws ∈ [[], [0], List.replicate 5 0, List.replicate 7 0],
      (gW ws).pendingAtoms (((ls 64).drop (8 * (frW ws).words.length)).take 8) = false ∧
      ∀ l ∈ ((ls 64).drop (8 * (frW ws).words.length)).take 8, (sW [] ws).inCache ((sW [] ws).who (gW ws)) l = true) ∧
    (((ls 16).drop (8 * (frW []).words.length)).take 8 = .glob 0 0x10000 :: (ls 8).drop 1 ∧ (gW []).pendingAtoms (ls 8) = false ∧
      ({ sW [] [] with l1 := [] } : State).inCache ((sW [] []).who (gW [])) (.glob 0 0x10000) = false ∧
      AtMem (.jload 7 2 0) [2, 3] 16 2 0 .rd false { sW [] [] with l1 := [] } (gW []) (frW []) 0 0x10000 (ls 16)) := by
  refine ⟨by decide, rfl, rfl, rfl, ⟨⟨rfl, rfl, rfl, by decide, rfl⟩, rfl, rfl, rfl, rfl, rfl, rfl, rfl⟩⟩
def ones : List Byte := List.replicate 64 0xFF
def oneWords (n : Nat) : List DWord := List.replicate n 0xFFFFFFFFFFFFFFFF
theorem witness_TableLoads_traps :
    (AtMem (.jload 0 2 0) [2, 3] 16 2 0 .rd false (sW ones (oneWords 1)) (gW (oneWords 1)) (frW (oneWords 1)) 0 0x10000 (ls 16) ∧
      (frW (oneWords 1)).fence = none ∧ 2 ≤ (frW (oneWords 1)).words.length + 1 ∧ ((gW (oneWords 1)).rj 0).arrived = 0 ∧
      (BitVec.ofNat 128 (imgOf (sW ones (oneWords 1)) (oneWords 1) 16)).extractLsb' 32 88 ≠ 0) ∧
    (AtMem (.scpset 8 2 0) [2, 3] 64 2 0 .rd false (sW ones (oneWords 5)) (gW (oneWords 5)) (frW (oneWords 5)) 0 0x10000 (ls 64) ∧
      6 ≤ (frW (oneWords 5)).words.length + 1 ∧ (BitVec.ofNat 384 (imgOf (sW ones (oneWords 5)) (oneWords 5) 64)).getLsbD 383 = true ∧
      (383 / 96 : Nat) ∉ ((sW ones (oneWords 5)).part 0).dies) ∧
    (AtMem (.tdset 0 2 0) [2, 3] 64 2 0 .rd false (sW ones (oneWords 7)) (gW (oneWords 7)) (frW (oneWords 7)) 0 0x10000 (ls 64) ∧
      8 ≤ (frW (oneWords 7)).words.length + 1 ∧ tOk (BitVec.ofNat 512 (imgOf (sW ones (oneWords 7)) (oneWords 7) 64)) = false) := by
  refine ⟨⟨atWords _ _ rfl ?_ rfl rfl rfl, rfl, ?_, rfl, ?_⟩, ⟨atWords _ _ rfl ?_ rfl rfl rfl, ?_, ?_, ?_⟩, atWords _ _ rfl ?_ rfl rfl rfl, ?_, ?_⟩ <;> decide

/-- Operands of a copy: destination 0x10040, source 0x10000, a count and the flags; a state with a copy in flight. -/
def gCpy (n fl : Word) : Group := regs [0, 0, 0x10000, 0, 0x10040, 0, n, fl]
theorem readyCpy {i : Instr} {rs : List Nat} (n fl : Word) (hl : i.legal = true) (hr : ∀ r ∈ rs, r < 64) :
    Ready i rs (at0 (gCpy n fl)) (gCpy n fl) fr0 0 := readyAt rfl rfl rfl (calm rfl rfl) rfl rfl hl hr
def copy0 (st : Bool) (dst n : Nat) : Copy :=
  { id := 7, core := 0, team := 0, grp := 0, cid := 0, dstS := st, srcS := false, dst, src := 0x10000, count := n, remote := 0, pc := 0x10000 }
def sCopy (c : Copy) : State := { at0 { g0 with opened := [7] } with copies := [c] }
def moves0 : List (Loc × Loc) := [(.glob 0 0x10040, .glob 0 0x10000), (.glob 0 0x10041, .glob 0 0x10001)]
theorem witness_Copies :
    (Ready (.cpy 4 2 6) ([4, 5] ++ [2, 3] ++ [6, 7]) (at0 (gCpy 64 0)) (gCpy 64 0) fr0 0 ∧
      Ready (.rget 4 2 6) ([4, 5] ++ [2, 3] ++ [6, 7]) (at0 (gCpy 64 0)) (gCpy 64 0) fr0 0 ∧
      Ready (.rput 4 2 6) ([4, 5] ++ [2, 3] ++ [6, 7]) (at0 (gCpy 64 0)) (gCpy 64 0) fr0 0) ∧
    ((gCpy 64 0).slot ≠ 128 ∧ ((at0 (gCpy 64 0)).copies.filter fun x => x.core == 0).length < 64 ∧ (gCpy 64 0).acquiring = false ∧
      (gCpy 64 0).loads = [] ∧ (gCpy 64 0).sbuf = [] ∧ ((gCpy 64 0).s 7).extractLsb' 1 31 = 0 ∧ ((gCpy 64 0).s 6).toNat = 64 ∧
      ((gCpy 64 0).pair 2).toNat + 64 ≤ ((gCpy 64 0).pair 4).toNat ∧ ((gCpy 64 0).pair 4).toNat + 64 ≤ 2 ^ 56) ∧
    (((gCpy 0 3).s 7).extractLsb' 2 30 = 0 ∧ ((gCpy 0 3).s 6).toNat = 0) ∧ ((gCpy 64 4).s 7).extractLsb' 2 30 ≠ 0 ∧ 16777216 < ((gCpy 16777217 0).s 6).toNat := by
  refine ⟨⟨readyCpy _ _ rfl ?_, readyCpy _ _ rfl ?_, readyCpy _ _ rfl ?_⟩, ?_⟩ <;> decide
theorem witness_Copies_batches : Ready (.cseal 7) [] (at0 g0) g0 fr0 0 ∧ (Ready (.cwait 7) [] (at0 g0) g0 fr0 0 ∧ g0.sealed_.getD 7 [] = []) ∧
    ({ g0 with sealed_ := g0.sealed_.set 7 [3] } : Group).sealed_.getD 7 [] ≠ [] ∧ Ready (.cpoll 63 7) [63] (at0 g0) g0 fr0 0 := by
  refine ⟨ready0 rfl ?_, ⟨ready0 rfl ?_, rfl⟩, ?_, ready0 rfl ?_⟩ <;> decide
theorem witness_Copies_engine :
    ((sCopy (copy0 false 0x10040 2)).MemWf ∧ (sCopy (copy0 false 0x10040 2)).copyAt 7 = some (copy0 false 0x10040 2) ∧
      (sCopy (copy0 false 0x10040 2)).examine (copy0 false 0x10040 2) = .ready moves0 ∧
      (sCopy { copy0 false 0x10040 2 with got := [(1, 9)], moved := [0] }).examine { copy0 false 0x10040 2 with got := [(1, 9)], moved := [0] } = .ready moves0 ∧
      (moves0.map fun p => p.1.key).Nodup ∧
      ∀ p ∈ moves0, ∀ tid off, p.1 = Loc.stash tid off → ((sCopy (copy0 false 0x10040 2)).team tid).isSome) ∧
    ((sCopy (copy0 true 524287 2)).examine (copy0 true 524287 2) = .bad 1 .stashbound false 524288 ∧
      (sCopy (copy0 true 524287 2)).team 0 = some t0 ∧ t0.dead = false ∧
      (sCopy (copy0 true 524287 2)).examine { copy0 true 524287 2 with count := max 0 (1 / 128 * 128) } = .ready []) := by
  refine ⟨⟨baseWf.same rfl rfl rfl rfl rfl, rfl, rfl, rfl, by decide, ?_⟩, rfl, rfl, rfl, rfl⟩
  intro p hp tid off e
  simp only [moves0, List.mem_cons, List.not_mem_nil, or_false] at hp
  rcases hp with rfl | rfl <;> cases e

def gMap (o n : Word) : Group := regs [o, 0, 0x10000, 0, n]
theorem readyMap {i : Instr} {rs : List Nat} (o n : Word) (hl : i.legal = true) (hr : ∀ r ∈ rs, r < 64) :
    Ready i rs (at0 (gMap o n)) (gMap o n) fr0 0 := readyAt rfl rfl rfl (calm rfl rfl) rfl rfl hl hr
def tMap : Team := { t0 with maps := [{ off := 0, addr := 0x10000, len := 128 }] }
theorem witness_StashMaps :
    (Ready (.smap 0 2 4) ([0, 4] ++ [2, 3]) (at0 (gMap 0x7FF80 128)) (gMap 0x7FF80 128) fr0 0 ∧ (at0 (gMap 0x7FF80 128)).team 0 = some t0 ∧
      (0x7FF80 % 128 = 0 ∧ ((gMap 0x7FF80 128).pair 2).toNat + 128 ≤ 2 ^ 56 ∧ 0x7FF80 + 128 ≤ t0.window ∧ t0.maps = [] ∧
        (at0 (gMap 0x7FF80 128)).copyBlocksStash 0 0x7FF80 128 true = false)) ∧
    ((gMap 1 128).s 0).toNat % 128 ≠ 0 ∧ ((gMap 0 0).s 4).toNat = 0 ∧
    (Ready (.sunmap 0) [0] (with_ (at0 (gMap 0 0)) tMap) (gMap 0 0) fr0 0 ∧ (with_ (at0 (gMap 0 0)) tMap).team 0 = some tMap ∧
      (tMap.maps.find? fun m => m.off == ((gMap 0 0).s 0).toNat) = some { off := 0, addr := 0x10000, len := 128 } ∧
      (gMap 0 0).stashQuiet tMap = true ∧ (with_ (at0 (gMap 0 0)) tMap).copyBlocksStash 0 0 128 true = false) ∧
    (tMap.maps.find? fun m => m.off == ((gMap 128 0).s 0).toNat) = none ∧
    (tMap.mapAt (128 * 0) = some { off := 0, addr := 0x10000, len := 128 } ∧
      ({ off := 0, addr := 0x10000, len := 128 } : SMap).lineAt (128 * 0) = none ∧
      (with_ (at0 g0) tMap).xlate ((with_ (at0 g0) tMap).teamWho tMap) 0x10000 .wr = .ok (.glob 0 0x10000) ∧ (with_ (at0 g0) tMap).l1St 0 (lineOf 0 0x10000) = .I ∧
      (with_ (at0 g0) tMap).privateAt ((with_ (at0 g0) tMap).teamWho tMap) 0x10000 0x10000 = false) ∧
    ((l1At (with_ (at0 g0) tMap) 0x10000 .M).MemWf ∧ (l1At (with_ (at0 g0) tMap) 0x10000 .M).team 0 = some tMap ∧
      (l1At (with_ (at0 g0) tMap) 0x10000 .M).xlate ((with_ (at0 g0) tMap).teamWho tMap) 0x10000 .wr = .ok (.glob 0 0x10000) ∧
      (l1At (with_ (at0 g0) tMap) 0x10000 .M).l1St 0 (lineOf 0 0x10000) = .M) :=
  ⟨⟨readyMap _ _ rfl (by decide), rfl, by decide, by decide, by decide, rfl, rfl⟩, by decide, rfl,
    ⟨readyWith _ (readyMap _ _ rfl (by decide)), rfl, rfl, rfl, rfl⟩, rfl, ⟨rfl, rfl, rfl, rfl, rfl⟩,
    ⟨rfl, rfl, rfl, rfl, fun _ h => by cases List.mem_singleton.mp h; rfl⟩, rfl, rfl, rfl⟩

/-- A group that asks for an object of a size; a team with a chunk; a context whose every domain may use `n` lines. -/
def gNew (n : Word) : Group := regs [0, 0, n, 0]
def sNew (n : Word) (lim : Word) : State :=
  { with_ (at0 (gNew n)) { t0 with chunk := some (0x10000, 0) } with contexts := [{ base.ctx 0 with limits := List.replicate 256 lim }] }
def sLong (n : Word) : State :=
  { sNew n 9 with launches := [{ lid := 0, cid := 0, addr := 0, desc := { wordDesc with longBase := 0x20000, longSize := 0x10000 }, acceptAt := 0, ready := true }] }
theorem witness_Allocation :
    (Ready (.new 4 2) ([4, 5] ++ [2, 3]) (sNew 65520 9) (gNew 65520) fr0 0 ∧ ((gNew 65520).pair 2).toNat ≤ 65520 ∧
      (sNew 65520 9).alloc ((sNew 65520 9).who (gNew 65520)) { t0 with chunk := some (0x10000, 0) } 65520 false = .quota 0 512) ∧
    (∃ u p, (sNew 0 9).alloc ((sNew 0 9).who (gNew 0)) { t0 with chunk := some (0x10000, 0) } 0 false = .got u p ∧
      u.overPlaced (gNew 0) ((sNew 0 9).who (gNew 0)) (gNew 0).seq p ((0 + 143) / 128) = false) ∧
    (∃ u, (sNew 0 9).alloc ((sNew 0 9).who (gNew 0)) t0 0 false = .full u) ∧ 65520 < ((gNew 65521).pair 2).toNat ∧
    ((sNew 0 0).launch 0 = some { lid := 0, cid := 0, addr := 0, desc := wordDesc, acceptAt := 0, ready := true, timeOk := true, next := 1, started := true } ∧
      ((sNew 0 0).ctx 0).limit 0 < ((sNew 0 0).ctx 0).use 0 + (0 + 143) / 128) ∧
    (Ready (.newLong 4 2) ([4, 5] ++ [2, 3]) (sLong 0) (gNew 0) fr0 0 ∧ ((sLong 0).descOf t0).longSize ≠ 0) ∧ ((sNew 0 9).descOf t0).longSize = 0 ∧
    (sNew 0 9).team 0 = some { t0 with chunk := some (0x10000, 0) } ∧ (gNew 0).acquiring = false ∧ (gNew 0).slot ≠ 128 ∧
    Ready (.qgetUse 63 255) [63] (at0 g0) g0 fr0 0 ∧ Ready (.qgetLim 63 255) [63] (at0 g0) g0 fr0 0 :=
  ⟨⟨⟨rfl, rfl, rfl, by decide, rfl⟩, by decide, rfl⟩, ⟨_, _, rfl, rfl⟩, ⟨_, rfl⟩, by decide, ⟨rfl, by decide⟩, ⟨⟨rfl, rfl, rfl, by decide, rfl⟩, by decide⟩, rfl,
    rfl, rfl, by decide, ready0 rfl (by decide), ready0 rfl (by decide)⟩
/-- A chunk with room, and no chunk in an arena that has none. -/
theorem witness_Allocation_chunk :
    ((sNew 0 9).launch 0 = some { lid := 0, cid := 0, addr := 0, desc := wordDesc, acceptAt := 0, ready := true, timeOk := true, next := 1, started := true } ∧
      ((sNew 0 9).ctx 0).use wordDesc.domain + (0 + 143) / 128 ≤ ((sNew 0 9).ctx 0).limit wordDesc.domain ∧ 0 + 128 * ((0 + 143) / 128) ≤ 65536) ∧
    (Ready (.new 4 2) ([4, 5] ++ [2, 3]) (with_ (sNew 0 9) t0) (gNew 0) fr0 0 ∧ (with_ (sNew 0 9) t0).team 0 = some t0 ∧ t0.chunk = none ∧
      wordDesc.arenaSize < 0 + 65536) ∧
    (base.MemWf ∧ (List.replicate 128 (0 : Byte)).length = 128) := by
  refine ⟨⟨rfl, by decide, by decide⟩, ⟨readyWith _ ⟨rfl, rfl, rfl, by decide, rfl⟩, rfl, rfl, by decide⟩, baseWf, ?_⟩; decide

/-- An object of one line at 0x10000, its header's third byte `b` (0x90: published at scope 4); a reference to it and a word at 0x10080. -/
def gRef : Group := regs [0, 0, 0x10080, 0, 0x10000, 0]
def gNull : Group := regs [0, 0, 0x10080, 0, 0, 0]
def sRef (b : Byte) (g : Group) : State :=
  { at0 g with
    chip := Memory.setAll {} 0x10000 [1, 0, b, 0, 0, 0, 0, 0x80, 0, 0, 0, 0, 0, 0, 0, 0x80]
    chipMeta := [{ line := lineOf 0 0x10000, tags := 3 }, { line := lineOf 0 0x10080, tags := 0 }] }
def lr (n : Nat) : List Loc := (List.range n).map fun i => Loc.glob 0 (0x10080 + i)
/-- The same with the line of the word in the L1 of core 0. -/
def sRefM (b : Byte) (g : Group) : State := l1At (sRef b g) 0x10080 .M
theorem readyRef {i : Instr} {rs : List Nat} (b : Byte) (g : Group) (h : g = gRef ∨ g = gNull) (hl : i.legal = true) (hr : ∀ r ∈ rs, r < 64) :
    Ready i rs (sRef b g) g fr0 0 := by
  rcases h with rfl | rfl <;> exact ⟨rfl, rfl, hl, hr, calm rfl rfl⟩
theorem witness_References :
    (AtMem (.stref 4 2 0) ([4, 5] ++ [2, 3]) 8 2 0 .wr false (sRef 0x90 gNull) gNull fr0 0 0x10080 (lr 8) ∧ (gNull.pair 4).toNat = 0 ∧
      gNull.readsBefore gNull.seq (lr 8) = false ∧ gNull.storesBefore gNull.seq (lr 8) = false ∧ (∀ l ∈ lr 8, (sRef 0x90 gNull).isHeader l = false) ∧
      (sRef 0x90 gNull).own ((sRef 0x90 gNull).who gNull) 0x10080 (lr 8).head? = .error (.getx 0 (lineOf 0 0x10080))) ∧
    (AtMem (.stref 4 2 0) ([4, 5] ++ [2, 3]) 8 2 0 .wr false (sRefM 0x90 gNull) gNull fr0 0 0x10080 (lr 8) ∧ (∀ l ∈ lr 8, (sRefM 0x90 gNull).isHeader l = false) ∧
      (sRefM 0x90 gNull).own ((sRefM 0x90 gNull).who gNull) 0x10080 (lr 8).head? = .ok (sRefM 0x90 gNull)) ∧
    (AtMem (.stref 4 2 0) ([4, 5] ++ [2, 3]) 8 2 0 .wr false (sRefM 0x90 gRef) gRef fr0 0 0x10080 (lr 8) ∧ (gRef.pair 4).toNat ≠ 0 ∧
      (sRefM 0x90 gRef).target ((sRefM 0x90 gRef).who gRef) 0x10000 true = .at (.glob 0 0x10000) ∧
      (sRefM 0x90 gRef).own ((sRefM 0x90 gRef).who gRef) 0x10080 (some (.glob 0 0x10080)) = .ok (sRefM 0x90 gRef) ∧
      (sRefM 0x90 gRef).settled 0 0 (.glob 0 0x10000) ((sRefM 0x90 gRef).container ((sRefM 0x90 gRef).who gRef) 0x10080 (.glob 0 0x10080)).1 = true) ∧
    (AtMem (.stref 4 2 0) ([4, 5] ++ [2, 3]) 8 2 0 .wr false (sRef 0 gRef) gRef fr0 0 0x10080 (lr 8) ∧
      (sRef 0 gRef).target ((sRef 0 gRef).who gRef) 0x10000 true = .at (.glob 0 0x10000) ∧
      (sRef 0 gRef).settled 0 0 (.glob 0 0x10000) ((sRef 0 gRef).container ((sRef 0 gRef).who gRef) 0x10080 (.glob 0 0x10080)).1 = false ∧
      (sRef 0 gRef).ownPrivate ((sRef 0 gRef).who gRef) 0x10080 (.glob 0 0x10080) = false ∧ ((sRef 0 gRef).ast 0).esc = false ∧ (sRef 0 gRef).walks = [] ∧
      gRef.doneBefore gRef.seq = true) ∧
    ({ sRef 0 gRef with asts := [{ aid := 0, esc := true }] } : State).ast 0 = { aid := 0, esc := true } := by
  refine ⟨⟨⟨readyRef _ _ (.inr rfl) rfl (by decide), by decide, rfl, rfl, rfl, rfl, rfl, rfl⟩, rfl, rfl, rfl, by decide, rfl⟩,
    ⟨⟨readyL1 (readyRef _ _ (.inr rfl) rfl (by decide)), by decide, rfl, rfl, rfl, rfl, rfl, rfl⟩, by decide, rfl⟩,
    ⟨⟨readyL1 (readyRef _ _ (.inl rfl) rfl (by decide)), by decide, rfl, rfl, rfl, rfl, rfl, rfl⟩, by decide, rfl, rfl, rfl⟩,
    ⟨⟨readyRef _ _ (.inl rfl) rfl (by decide), by decide, rfl, rfl, rfl, rfl, rfl, rfl⟩, rfl, rfl, rfl, rfl, rfl, rfl⟩, rfl⟩
theorem witness_References_publication :
    (Ready (.ispub 63 4) [63, 4, 5] (sRef 0x90 gNull) gNull fr0 0 ∧ gNull.acquiring = false ∧ (gNull.pair 4).toNat = 0) ∧
    (Ready (.ispub 63 4) [63, 4, 5] (sRef 0x90 gRef) gRef fr0 0 ∧ gRef.acquiring = false ∧ (gRef.pair 4).toNat ≠ 0 ∧ (sRef 0x90 gRef).target ((sRef 0x90 gRef).who gRef) 0x10000 false = .at (.glob 0 0x10000)) ∧
    (Ready (.publ 6 4) [4, 5] (sRef 0x90 gNull) gNull fr0 0 ∧ gNull.doneBefore gNull.seq = true) ∧
    (Ready (.publ 6 4) [4, 5] (sRef 0 gRef) gRef fr0 0 ∧ gRef.doneBefore gRef.seq = true ∧ (sRef 0 gRef).freeWalker 0 = some 0) :=
  ⟨⟨readyRef _ _ (.inr rfl) rfl (by decide), rfl, rfl⟩, ⟨readyRef _ _ (.inl rfl) rfl (by decide), rfl, by decide, rfl⟩, ⟨readyRef _ _ (.inr rfl) rfl (by decide), rfl⟩,
    readyRef _ _ (.inl rfl) rfl (by decide), rfl, rfl⟩
/-- A fragment whose walk is done. -/
theorem witness_References_done : Ready (.publ 4 2) [2, 3] (at0 { g0 with slot0 := some { fr0 with wait := some (.done 0x10000) } })
    { g0 with slot0 := some { fr0 with wait := some (.done 0x10000) } } { fr0 with wait := some (.done 0x10000) } 0 :=
  readyAt rfl rfl rfl rfl rfl rfl rfl (by decide)

def walk0 (ps : List Nat) (o : Option (Nat × Nat × Nat)) : Walk :=
  { id := 5, walker := 3, core := 0, team := 0, grp := 0, frag := 0xFFFFFFFF, cid := 0, pc := 0x10000, root := 0x10000, scope := 4, pending := ps, obj := o }
def sWalk (b : Byte) (w : Walk) : State := { sRef b gRef with walks := [w] }
theorem witness_Walks :
    ((sWalk 0 (walk0 [0x10000] none)).walkOf 3 = some (walk0 [0x10000] none) ∧ (walk0 [0x10000] none).fault = none ∧ (walk0 [0x10000] none).obj = none ∧
      (sWalk 0 (walk0 [0x10000] none)).target ((sWalk 0 (walk0 [0x10000] none)).walkWho (walk0 [0x10000] none)) 0x10000 false = .at (.glob 0 0x10000) ∧
      (sWalk 0 (walk0 [0x10000] none)).settled 0 0 (.glob 0 0x10000) 4 = false ∧ 0x10000 ∉ (walk0 [0x10000] none).chain) ∧
    (sWalk 0x90 (walk0 [0x10000] none)).settled 0 0 (.glob 0 0x10000) 4 = true ∧
    ((sWalk 0 (walk0 [] (some (0x10000, 3, 1)))).walkOf 3 = some (walk0 [] (some (0x10000, 3, 1))) ∧
      (sWalk 0 (walk0 [] (some (0x10000, 3, 1)))).xlate ((sWalk 0 (walk0 [] (some (0x10000, 3, 1)))).walkWho (walk0 [] (some (0x10000, 3, 1))))
        (0x10000 + 128 * 1) .wr = .ok (.glob 0 0x10080) ∧
      (sWalk 0 (walk0 [] (some (0x10000, 3, 1)))).registerP (lineOf 0 0x10080) = .ok (sWalk 0 (walk0 [] (some (0x10000, 3, 1)))) ∧
      (sWalk 0 (walk0 [] (some (0x10000, 3, 1)))).l1St 0 (lineOf 0 0x10080) = .I ∧
      (sWalk 0 (walk0 [] (some (0x10000, 3, 1)))).refsIn (.glob 0 0x10080) = []) ∧
    (∃ u, ({ l1At (sWalk 0 (walk0 [] (some (0x10000, 3, 1)))) 0x10080 .P with dir := [{ die := 0, line := lineOf 0 0x10080, gst := .M }] } : State).registerP
      (lineOf 0 0x10080) = .ok u) ∧
    ((sWalk 0 (walk0 [] none)).walkOf 3 = some (walk0 [] none) ∧ (walk0 [] none).fault = none ∧ (walk0 [] none).exhausted = true) ∧
    ((at0 g0).group 0 0 = some g0 ∧ g0.frag 0 = some fr0 ∧ (at0 g0).freeWalker 0 = some 0 ∧ (at0 g0).freeWalker 383 = some 12 ∧ g0.doneBefore g0.seq = true) := by
  refine ⟨⟨rfl, rfl, rfl, rfl, rfl, ?_⟩, rfl, ⟨rfl, rfl, rfl, rfl, rfl⟩, ⟨_, rfl⟩, ⟨rfl, rfl, rfl⟩, rfl, rfl, rfl, rfl, rfl⟩; decide
/-- Line 0 of an object of three lines: the header is marked; the walk's wait, its chain, and a store of a group that escapes. -/
def gWalks : Group := { gRef with slot0 := some { fr0 with wait := some (.walk 5 none) } }
def leRef : LogEntry :=
  { seq := 128, uid := 0, flag := none, frag := 1, instr := .vstref 0 0 { base := .s 2, index := none, scale := 0, sidx := false, off := 0 }
      { fb := false, scope := 0, order := .rlx, width := 3 }, lrunPc := 0x10000, idx := 0, gov := 1, fpctl := 0
    lanes := [{ lane := 0, addr := 0x10080, data := [0x10000, 0], locs := lr 8, stat := .ready }] }
def gEsc : Group := { gRef with olog := [leRef], seq := 256 }
theorem witness_Walks_header :
    ((sWalk 0 (walk0 [] (some (0x10000, 3, 0)))).xlate ((sWalk 0 (walk0 [] (some (0x10000, 3, 0)))).walkWho (walk0 [] (some (0x10000, 3, 0))))
        (0x10000 + 128 * 0) .wr = .ok (.glob 0 0x10000) ∧
      (sWalk 0 (walk0 [] (some (0x10000, 3, 0)))).registerP (lineOf 0 0x10000) = .ok (sWalk 0 (walk0 [] (some (0x10000, 3, 0))))) ∧
    (isHostGpa 0x10000 = false ∧ 0x10000 % 128 = 0 ∧ (sWalk 0 (walk0 [] none)).word64 ((Loc.glob 0 0x10000).plus 8) / 2 ^ 56 % 2 ^ 7 = 0 ∧
      (walk0 [] none).walker < 127) ∧
    (gWalks.slot0 = some { fr0 with wait := some (.walk 5 none) } ∧ fr0.mask = (walk0 [] none).frag) ∧
    (sWalk 0 (walk0 [] none)).xlate ((sWalk 0 (walk0 [] none)).walkWho (walk0 [] none)) 0x10000 .wr = .ok (.glob 0 0x10000) ∧
    ((at0 gEsc).group 0 0 = some gEsc ∧ gEsc.olog.find? (fun e => e.storesRef 0x10000) = some leRef ∧ gEsc.ordered 0 128 = true ∧ (at0 gEsc).freeWalker 0 = some 0) :=
  ⟨⟨rfl, rfl⟩, ⟨rfl, rfl, by decide, by decide⟩, ⟨rfl, rfl⟩, rfl, rfl, rfl, rfl, rfl⟩
theorem witness_Walks_mem : (sWalk 0 (walk0 [] (some (0x10000, 3, 1)))).MemWf :=
  ⟨by decide, rfl, rfl, rfl, fun _ h => by cases List.mem_singleton.mp h; rfl⟩

/-- What an evaluation answers. -/
theorem okOf {ε α : Type} {x : Except ε α} {v : α} (h : x.toOption = some v) : x = .ok v := by
  cases x <;> simp_all [Except.toOption]
/-- The device itself has the page in reach. -/
def sDev (s : State) : State := { s with tlb := s.tlb ++ s.tlb.map fun e => { e with core := 384 } }
/-- A context 0 with ladder slot 0, and a state with it. -/
def sCtx (s : State) (f : Context → Context) : State := { s with contexts := [f (base.ctx 0)] }
def withLad (x : Ladder) (c : Context) : Context := { c with ladders := x :: List.replicate 15 {} }
/-- A ladder of one rung and one item at scope 4, and the launch descriptor of its rung. -/
def vLad : Nat := 4 * 2 ^ 168 + 2 ^ 128 + 2 ^ 608 + 0x10100 * 2 ^ 512
def dRung : Nat := 2 ^ 128 + 2 ^ 160 + 2 ^ 192 + 2 ^ 224 + 2 ^ 232 + 2 ^ 240 + 2 ^ 272 + 2 ^ 280 + 2 ^ 386
def sLad : State :=
  { at0 gMem with
    chip := Memory.setAll {} 0x10000 (leBytes 256 vLad ++ leBytes 256 dRung)
    chipMeta := (List.range 4).map fun n => { line := lineOf 0 (0x10000 + 128 * n), tags := 0 } }
def open1 : Ladder := { st := .open_, capacity := 1, rungs := [rungOf 1 0] }
def gFeed (n : Word) : Group := regs [0, 0, 0x10000, 0, n]
set_option maxRecDepth 100000 in
set_option exponentiation.threshold 3000 in
theorem witness_LadderWords : Ready (.ladr 15 2) [2, 3] sLad gMem fr0 0 ∧ (gMem.pair 2).toNat % 256 = 0 ∧ ((sLad.ctx 0).ladder 15).st = .free ∧
    sLad.getBytes (sLad.who gMem) (gMem.pair 2).toNat 256 = .ok (leBytes 256 vLad) ∧ ladderOk (leVal (leBytes 256 vLad)) = true ∧
    sLad.rungDescs (sLad.who gMem) (leVal (leBytes 256 vLad)) (leVal (leBytes 256 vLad) / 2 ^ 160 % 2 ^ 3 + 1) 0 = .ok [leVal (leBytes 256 dRung)] ∧
    rungDescOk (leVal (leBytes 256 dRung)) = true ∧
    (Ready (.ladr 0 2) [2, 3] (sCtx sLad (withLad open1)) gMem fr0 0 ∧ (((sCtx sLad (withLad open1)).ctx 0).ladder 0).st = .open_) := by
  refine ⟨⟨rfl, rfl, rfl, by decide, rfl⟩, by decide, by decide, okOf ?_, ?_, okOf ?_, ?_, ⟨rfl, rfl, rfl, by decide, rfl⟩, rfl⟩ <;> decide +kernel
theorem witness_LadderWords_feed :
    (Ready (.lfeed 0 2 4) ([2, 3] ++ [4]) (sCtx (at0 (gFeed 65537)) (withLad open1)) (gFeed 65537) fr0 0 ∧ 65536 < ((gFeed 65537).s 4).toNat) ∧
    (Ready (.lfeed 1 2 4) ([2, 3] ++ [4]) (sCtx (at0 (gFeed 65536)) (withLad open1)) (gFeed 65536) fr0 0 ∧
      (((sCtx (at0 (gFeed 65536)) (withLad open1)).ctx 0).ladder 1).st ≠ .open_) ∧
    (Ready (.lfeed 0 2 4) ([2, 3] ++ [4]) (sCtx (at0 (gFeed 0)) (withLad open1)) (gFeed 0) fr0 0 ∧ sysScope open1.scope = false ∧
      (gFeed 0).doneBefore (gFeed 0).seq = true ∧ (sCtx (at0 (gFeed 0)) (withLad open1)).copyBlocks ((at0 (gFeed 0)).who (gFeed 0)) 0x10000 0 false = false) ∧
    (Ready (.lfeed 0 2 4) ([2, 3] ++ [4]) (sCtx (at0 (gFeed 1)) (withLad open1)) (gFeed 1) fr0 0 ∧ fr0.wait = none ∧ (gFeed 1).doneBefore (gFeed 1).seq = true ∧
      (sCtx (at0 (gFeed 1)) (withLad open1)).copyBlocks ((at0 (gFeed 1)).who (gFeed 1)) 0x10000 4 false = false ∧
      ((gFeed 1).s 4).toNat = 1 ∧ (sCtx (at0 (gFeed 1)) (withLad open1)).places ((sCtx (at0 (gFeed 1)) (withLad open1)).who (gFeed 1)) 0x10000 4 .rd = .ok (ls 4) ∧
      leVal ((sCtx (at0 (gFeed 1)) (withLad open1)).readLocs (ls 4)) < open1.capacity ∧
      open1.item (leVal ((sCtx (at0 (gFeed 1)) (withLad open1)).readLocs (ls 4))) = none) :=
  ⟨⟨⟨rfl, rfl, rfl, by decide, calm rfl rfl⟩, by decide⟩, ⟨⟨rfl, rfl, rfl, by decide, calm rfl rfl⟩, by decide⟩,
    ⟨⟨rfl, rfl, rfl, by decide, calm rfl rfl⟩, rfl, rfl, rfl⟩, ⟨rfl, rfl, rfl, by decide, calm rfl rfl⟩, rfl, rfl, rfl, rfl, rfl, by decide, rfl⟩
theorem witness_LadderWords_wait :
    (Ready (.lclose 0) [] (sCtx (at0 g0) (withLad open1)) g0 fr0 0 ∧ Ready (.lclose 0) [] (at0 g0) g0 fr0 0 ∧ ((base.ctx 0).ladder 0).st ≠ .open_) ∧
    (Ready (.lwait 8 0 0) [8, 0] (sCtx (at0 g0) (withLad open1)) g0 fr0 0 ∧ (g0.s 0).toNat ≤ open1.prefixDone) ∧
    (Ready (.lwait 8 0 4) [8, 4] (sCtx (at0 (gFeed 1)) (withLad open1)) (gFeed 1) fr0 0 ∧ ((gFeed 1).s 4).toNat ≤ open1.capacity ∧
      open1.prefixDone < ((gFeed 1).s 4).toNat) ∧ open1.capacity < ((gFeed 2).s 4).toNat ∧
    (0 < ({ open1 with items := [(0, .retired)] } : Ladder).prefixDone) ∧ open1.rung 0 = some (rungOf 1 0) ∧
    (∀ b, ([(5, 7, 3)] : List (Nat × Nat × Nat)).head? = some b → b.2.1 = (4, 7, 1).2.1 ∧ (4, 7, 1).2.2 < b.2.2) := by
  refine ⟨⟨⟨rfl, rfl, rfl, by simp, rfl⟩, ready0 rfl (by decide), by decide⟩, ⟨⟨rfl, rfl, rfl, by decide, rfl⟩, by decide⟩,
    ⟨⟨rfl, rfl, rfl, by decide, rfl⟩, by decide, by decide⟩, by decide, by decide, rfl, fun b h => by cases h; decide⟩

/-- A group at rung 0 of slot 0 whose lane 0 has item 0; its ladder has `n` rungs that store nothing. -/
def frB (m : Mask) : Fragment := { fr0 with exec := m }
def gBody (m : Mask) : Group := { gItem with slot0 := some (frB m) }
def lad (n : Nat) : Ladder :=
  { st := .open_, capacity := 1, frames := 0x10000, rungs := List.replicate n { nostore := true, frame := 0, fill := 1, limit := 0, desc := {}, addr := 0 } }
def sBody (m : Mask) (n : Nat) : State := sCtx (at0 (gBody m)) (withLad (lad n))
theorem readyBody {i : Instr} (m : Mask) (n : Nat) (hl : i.legal = true) : Ready i [] (sBody m n) (gBody m) (frB m) 0 := ⟨rfl, rfl, hl, by simp, calm rfl rfl⟩
theorem witness_RungBodies :
    (Ready (.esc 0 0) [] (sBody 0 2) (gBody 0) (frB 0) 0 ∧ Ready (.lret 0 0) [] (sBody 0 2) (gBody 0) (frB 0) 0 ∧ (gBody 0).rungValid = true ∧
      (gBody 0).clausesDone (frB 0) = true ∧ (gBody 0).maskWait [0, 0] = false ∧ (frB 0).exec &&& 0xFFFFFFFF = 0 ∧
      (∀ u, (lad 2).rung 1 = some u → 0 + u.frame ≤ (gBody 0).vregs.length) ∧ (lad 2).rsz8 = false ∧ 0 + 1 ≤ (gBody 0).vregs.length) ∧
    (Ready (.esc 0 0) [] (at0 g0) g0 fr0 0 ∧ Ready (.lret 0 15) [] (at0 g0) g0 fr0 0 ∧ g0.rungValid = false) ∧
    (Ready (.esc 0 0) [] (sBody 1 1) (gBody 1) (frB 1) 0 ∧ (frB 1).exec &&& 0xFFFFFFFF ≠ 0 ∧ (gBody 1).rungNo + 1 = (lad 1).rungs.length) ∧
    (Ready (.lret 0 0) [] (sBody 3 1) (gBody 3) (frB 3) 0 ∧ ∃ l ∈ lanesOf ((frB 3).exec &&& 0xFFFFFFFF), (gBody 3).holds_ l = none) ∧
    (Ready (.lret 0 0) [] (sBody 1 1) (gBody 1) (frB 1) 0 ∧ (∀ l ∈ lanesOf ((frB 1).exec &&& 0xFFFFFFFF), ((gBody 1).holds_ l).isSome) ∧
      (gBody 1).doneBefore (gBody 1).seq = true ∧ ∃ u, (lad 1).rung 0 = some u ∧ u.nostore = true) ∧
    (Ready (.esc 0 0) [] (sBody 1 2) (gBody 1) (frB 1) 0 ∧
      ((lanesOf ((frB 1).exec &&& 0xFFFFFFFF)).filterMap fun l => ((gBody 1).holds_ l).map fun n => (l, n)) = [(0, 0)] ∧ (gBody 1).rungNo + 1 ≠ (lad 2).rungs.length ∧
      (sBody 1 2).team 0 = some t0 ∧ (gBody 1).rungSlot < ((sBody 1 2).ctx 0).ladders.length ∧
      (sBody 1 2).places ((sBody 1 2).who (gBody 1)) ((lad 2).frames + 128 * 0) 128 .wr = .ok (ls 128)) := by
  refine ⟨⟨readyBody _ _ rfl, readyBody _ _ rfl, rfl, rfl, rfl, by decide, fun u h => by cases h; decide, rfl, by decide⟩, ⟨ready0 rfl (by decide), ready0 rfl (by decide), rfl⟩,
    ⟨readyBody _ _ rfl, by decide, by decide⟩, ⟨readyBody _ _ rfl, 1, by decide, rfl⟩, ⟨readyBody _ _ rfl, by decide, rfl, _, rfl, rfl⟩,
    readyBody _ _ rfl, by decide, by decide, rfl, by decide, rfl⟩

/-- Item 0 has arrived at rung 0 at time 0; the limit of the rung is `n` and the time `now`. -/
def ladP (n : Nat) : Ladder :=
  { st := .open_, capacity := 1, rungs := [{ nostore := true, frame := 0, fill := 1, limit := n, desc := wordDesc, addr := 0, pend := [(0, 0, 0)] }], items := [(0, .pending 0)] }
def sPack (n now : Nat) : State := { sCtx base (withLad (ladP n)) with time := now }
def lRung : Launch := { lid := 9, cid := 0, addr := 0, desc := wordDesc, acceptAt := 0, ready := true, timeOk := true, ladder := some (0, 0, [0], 4) }
def sRung : State :=
  { sCtx base (fun c => withLad (ladP 0) { c with saveSize := 0x0D180000 }) with
    groups := [], teams := [], launches := [lRung], parts := [{ id := 0, dies := [3], admin := 0 }] }
set_option maxRecDepth 100000 in
theorem witness_LadderEvents :
    (∃ u, (((sPack 5 6).ctx 0).ladder 0).rung 0 = some u ∧ u.packs (sPack 5 6).time false = some (true, 1)) ∧
    (∃ u, (((sPack 0 6).ctx 0).ladder 0).rung 0 = some u ∧ u.packs (sPack 0 6).time false = some (false, 1)) ∧
    (((sPack 0 6).ctx 0).ladder 0).st = .open_ ∧ 0 < ((sPack 0 6).ctx 0).ladders.length ∧
    packing 32 0 0 false 0 31 [7] = some (false, 32) ∧
    (sRung.launch 9 = some lRung ∧ sRung.mayStart lRung = true ∧ (∃ us, sRung.placement lRung = some us) ∧
      ∀ u, ((sRung.ctx 0).ladder 0).rung 0 = some u → u.frame = 0) := by
  refine ⟨⟨_, rfl, by decide⟩, ⟨_, rfl, by decide⟩, rfl, by decide, by decide, rfl, by decide +kernel, ⟨[[(288, [0])]], by decide +kernel⟩, ?_⟩
  intro u h; cases h; rfl

def gPark (p : Park) (at_ : Option Nat) : Group := { g0 with park := some p, parkAt := at_ }
def withBox (q : List DWord) (c : Context) : Context := { c with mail := List.replicate 64 q }
/-- A send whose reference has been published. -/
def frWalked : Fragment := { fr0 with wait := some (.done 0x10000) }
def gWalked : Group := { g0 with slot0 := some frWalked }
theorem witness_MailAndServices :
    (Ready (.mbsend 8 0 63) [8, 0, 1] (at0 g0) g0 fr0 0 ∧ Ready (.mbsendTrap 8 0 63) [8, 0, 1] (at0 g0) g0 fr0 0 ∧ g0.pair 0 = 0 ∧ fr0.wait = none ∧
      ((base.ctx 0).box 63).length < 256) ∧ 256 ≤ (((sCtx base (withBox (List.replicate 256 0))).ctx 0).box 63).length ∧
    (Ready (.mbrecv 62 63) [62, 63] (sCtx (at0 g0) (withBox [7, 8])) g0 fr0 0 ∧ ((sCtx (at0 g0) (withBox [7, 8])).ctx 0).box 63 = 7 :: [8]) ∧
    (Ready (.mbrecv 62 0) [62, 63] (at0 g0) g0 fr0 0 ∧ (base.ctx 0).box 0 = [] ∧ Ready (.mbpoll 8 0) [8] (at0 g0) g0 fr0 0) ∧
    Ready (.mbsend 8 0 63) [8, 0, 1] (at0 gWalked) gWalked frWalked 0 ∧
    firstParked ((sCtx (at0 (gPark (.mbrecv 63 8) (some 0))) (withBox [7])).receivers 0 63) = some (gPark (.mbrecv 63 8) (some 0)) := by
  refine ⟨⟨ready0 rfl (by decide), ready0 rfl (by decide), rfl, rfl, by decide⟩, by decide +kernel, ⟨⟨rfl, rfl, rfl, by decide, rfl⟩, rfl⟩,
    ⟨ready0 rfl (by decide), rfl, ready0 rfl (by decide)⟩, readyAt rfl rfl rfl rfl rfl rfl rfl (by decide), rfl⟩
/-- A context whose SVC is FORWARD, with a request ring of 32 entries in the page; a parked group. -/
def ringC (c : Context) : Context := { c with acthi := 4, rq := { base := 0x10000, log2 := 5 } }
def sSvc : State := sDev <| sCtx (at0 (gPark (.svc 0 7 1 0x10000) (some 0))) ringC
theorem witness_MailAndServices_svc :
    (Ready (.svc 12 7) [] (at0 { g0 with slot0 := some (frB 0) }) { g0 with slot0 := some (frB 0) } (frB 0) 0 ∧ 12 + 4 ≤ g0.vregs.length) ∧
    (Ready (.svc 12 7) [] (sCtx (at0 g0) fun c => { c with acthi := 0 }) g0 fr0 0 ∧
      (sCtx (at0 g0) fun c => { c with actlo := 0, acthi := 0 }).svcForward { base.ctx 0 with actlo := 0, acthi := 0 } = false) ∧
    ((sCtx (at0 g0) fun c => { c with actlo := 0x4000000000000000, acthi := 4 }).svcForward { base.ctx 0 with actlo := 0x4000000000000000, acthi := 4 } = true ∧
      (base.ctx 0).rq.log2 = 0 ∧ (ringC (base.ctx 0)).rq.log2 ≠ 0 ∧ g0.doneBefore g0.seq = true) ∧
    ((at0 (gPark (.svc 0 7 1 0x10000) none)).group 0 0 = some (gPark (.svc 0 7 1 0x10000) none) ∧ (gPark (.svc 0 7 1 0x10000) none).lanesDone = true ∧
      (at0 (gPark (.svc 0 7 1 0x10000) none)).snapOf 0 0 = none) := by
  refine ⟨⟨readyAt rfl rfl rfl rfl rfl rfl rfl (by decide), by decide⟩, ⟨⟨rfl, rfl, rfl, by simp, rfl⟩, rfl⟩, ⟨rfl, rfl, by decide, rfl⟩, rfl, rfl, rfl⟩
set_option maxRecDepth 100000 in
theorem witness_MailAndServices_post : (sSvc.groups.find? fun x => x.core == 0 && x.slot == 0 && x.parkAt.isSome) = some (gPark (.svc 0 7 1 0x10000) (some 0)) ∧
    (ringC (base.ctx 0)).rq.log2 ≠ 0 ∧ 0 + (1 + popCount 1) ≤ (ringC (base.ctx 0)).rq.capacity 16 ∧ (base.ctx 0).st ≠ .orphaned ∧
    sSvc.team 0 = some t0 ∧ (gPark (.svc 0 7 1 0x10000) (some 0)).token = none ∧ (ringC (base.ctx 0)).rq.error = false ∧
    sSvc.firstWait (sSvc.ctx 0).device ((List.range (1 + popCount 1)).map fun i => ((ringC (base.ctx 0)).rq.base + 16 * (i % 32), .wr)) = none ∧
    let u := sSvc.putEntries (sSvc.ctx 0) (sSvc.ctx 0).rq 0 (svcEntries (gPark (.svc 0 7 1 0x10000) (some 0)) 0 0 0 7 1)
    u.2 = true ∧ (u.1.ctx 0).primary = 8 ∧ (u.1.ctx 0).st = (sSvc.ctx 0).st := by
  refine ⟨rfl, by decide, by decide, by decide, rfl, rfl, rfl, ?_, ?_⟩ <;> decide +kernel

/-- A launch descriptor of one team of one group, with no dependency. -/
def dPlain : Nat := 2 ^ 128 + 2 ^ 160 + 2 ^ 192 + 2 ^ 224 + 2 ^ 232 + 2 ^ 240 + 2 ^ 272 + 2 ^ 280
def sDesc : State :=
  { at0 gMem with
    chip := Memory.setAll {} 0x10000 (leBytes 256 dPlain)
    chipMeta := (List.range 2).map fun n => { line := lineOf 0 (0x10000 + 128 * n), tags := 0 } }
set_option maxRecDepth 100000 in
set_option exponentiation.threshold 3000 in
theorem witness_LaunchWord : (Ready (.launch 8 2) [8, 2, 3] sDesc gMem fr0 0 ∧ sDesc.getBytes (sDesc.who gMem) (gMem.pair 2).toNat 256 = .ok (leBytes 256 dPlain)) ∧
    (∃ t lid, sDesc.accept 0 0x10000 dPlain = .taken t lid) ∧ gMem.acquiring = false ∧ gMem.doneBefore gMem.seq = true ∧ (parseDesc dPlain).depctr = 0 ∧
    sDesc.firstWait (sDesc.ctx 0).device [] = none ∧
    (Ready (.launch 8 2) [8, 2, 3] (at0 (gJump 0 0x01000000)) (gJump 0 0x01000000) fr0 0 ∧ ((gJump 0 0x01000000).pair 2).extractLsb' 56 8 ≠ 0) ∧
    (Ready (.launch 8 2) [8, 2, 3] (at0 (gJump 0x10020 0)) (gJump 0x10020 0) fr0 0 ∧ ((gJump 0x10020 0).pair 2).toNat % 64 ≠ 0) ∧
    (parseDesc dPlain).init.length = 16 ∧ 1 ≤ (parseDesc dPlain).sregs := by
  refine ⟨⟨⟨rfl, rfl, rfl, by decide, calm rfl rfl⟩, okOf ?_⟩, ⟨_, _, rfl⟩, rfl, rfl, ?_, rfl, ⟨readyMem _ _ rfl (by decide), by decide⟩, ⟨readyMem _ _ rfl (by decide), by decide⟩, ?_, ?_⟩ <;>
    decide +kernel

/-- One launch of context 0, alone in a partition of die 0, whose clock stands at 10 ms. -/
def sLaunch (l : Launch) : State :=
  { sDev (sCtx base (fun c => { c with saveSize := 0x0E000000 })) with groups := [], teams := [], launches := [l], parts := [{ id := 0, dies := [0], admin := 0 }], time := 10000000 }
def l0 (d : Desc) : Launch := { lid := 9, cid := 0, addr := 0, desc := d, acceptAt := 0, ready := true, timeOk := true }
def dPair : Desc := { wordDesc with gx := 2, cw := 2 }
def tDone : Team := { t0 with lid := 9 }
def sDone : State := { sLaunch (l0 wordDesc) with teams := [tDone] }
set_option maxRecDepth 100000 in
theorem witness_LaunchEvents :
    ((sLaunch (l0 wordDesc)).launch 9 = some (l0 wordDesc) ∧ (sLaunch (l0 wordDesc)).mayStart (l0 wordDesc) = true ∧
      (∃ us, (sLaunch (l0 wordDesc)).placement (l0 wordDesc) = some us) ∧ wordDesc.cw * wordDesc.ch = 1) ∧
    ((sLaunch (l0 dPair)).mayStart (l0 dPair) = true ∧ (∃ us, (sLaunch (l0 dPair)).placement (l0 dPair) = some us) ∧ dPair.cw * dPair.ch ≠ 1) ∧
    (sDone.team 0 = some tDone ∧ sDone.teamDone tDone = true ∧ sDone.launch tDone.lid = some (l0 wordDesc) ∧ tDone.maps = []) := by
  refine ⟨⟨rfl, ?_, ⟨[[(0, [0])]], ?_⟩, rfl⟩, ⟨?_, ⟨[[(0, [0]), (1, [0])]], ?_⟩, by decide⟩, rfl, rfl, rfl, rfl⟩ <;> decide +kernel
def lEnd : Launch := { l0 wordDesc with ending := some .complete }
def lDep : Launch := { l0 { wordDesc with depctr := 0x10000 } with ready := false }
def lTime (m : Nat) : Launch := { l0 { wordDesc with notBefore := 9, window := 1, policy := 1 } with timeOk := false, passedAt := some m }
theorem witness_LaunchEvents_moves :
    ((sLaunch lEnd).launch 9 = some lEnd ∧ lEnd.ending = some .complete ∧ (sLaunch lEnd).launchTeams 9 = [] ∧
      (sLaunch lEnd).firstWait ((sLaunch lEnd).ctx 0).device lEnd.desc.endAccesses = none) ∧
    ((sLaunch lDep).launch 9 = some lDep ∧ (sLaunch lDep).firstWait ((sLaunch lDep).ctx 0).device [(lDep.desc.depctr, .rd)] = none ∧ (sLaunch lDep).getVa ((sLaunch lDep).ctx 0).device 0x10000 4 = .ok [0, 0, 0, 0] ∧ leVal [0, 0, 0, 0] = 0) ∧
    ((sLaunch (lTime 0)).launch 9 = some (lTime 0) ∧ (lTime 0).desc.notBefore ≤ (sLaunch (lTime 0)).time) ∧
    ((lTime 0).desc.notBefore ≠ 0 ∧ (lTime 0).desc.window ≠ 0 ∧ (lTime 0).desc.notBefore + (lTime 0).desc.window < (sLaunch (lTime 0)).time ∧
      (lTime 0).started = false ∧ (lTime 0).held = none ∧ (lTime 0).gang = none ∧ (lTime 0).desc.policy = 1) :=
  ⟨⟨rfl, rfl, rfl, rfl⟩, ⟨rfl, rfl, rfl, rfl⟩, ⟨rfl, by decide⟩, by decide⟩
/-- No core has 129 stash units, so a launch of so many never fits. -/
def lBig (p : Option Nat) : Launch := { l0 { wordDesc with stash := 129 } with passedAt := p }
set_option maxRecDepth 100000 in
theorem witness_LaunchEvents_blocking : (sLaunch (lBig none)).launch 9 = some (lBig none) ∧ (sLaunch (lBig none)).eligible (lBig none) = true ∧
    (sLaunch (lBig none)).placement (lBig none) = none ∧ (sLaunch (lBig (some 0))).placement (lBig (some 0)) = none ∧ 0 + 10000000 ≤ (sLaunch (lBig (some 0))).time := by
  decide +kernel

/-! Traps, handlers. -/

/-- A team that is halted and holds a record; the same group as a handler; registers of a handler. -/
def rec0 : TrapRec := { cause := .page, group := 0, addr := 0x20000, pc := 0x10000, culprit := .scalar 0 0 }
def tHalt : Team := { t0 with record := some rec0, halt := some .handle }
def ghr (vs : List Word) : Group := { regs vs with slot := 128 }
theorem readyHand {i : Instr} {rs : List Nat} (t : Team) (vs : List Word) (hl : i.legal = true) (hr : ∀ r ∈ rs, r < (ghr vs).sregs.length) :
    Ready i rs (with_ (at0 (ghr vs)) t) (ghr vs) fr0 0 := ⟨rfl, rfl, hl, hr, calm rfl rfl⟩
theorem witness_TakingATrap :
    (Ready (.trap 0xFFFF) [] (at0 g0) g0 fr0 0 ∧ Ready (.brk 0) [] (at0 g0) g0 fr0 0 ∧ fr0.fence = none) ∧
    (g0.slot ≠ 128 ∧ (with_ (at0 g0) tHalt).team g0.team = some tHalt ∧ tHalt.halt.isSome) ∧
    ((sCtx (at0 g0) fun c => { c with hentry := 4 }).action { base.ctx 0 with hentry := 4 } .escape = .handle ∧ t0.halt = none ∧ t0.queued = [] ∧
      (at0 g0).group 0 0 = some g0 ∧ (at0 g0).snaps = []) ∧
    ((at0 g0).action ((at0 g0).ctx 0) .brk = .park ∧ ((at0 g0).ctx 0).st = .guarded ∧ ((at0 g0).ctx 0).primary = 8) ∧
    (gh.slot = 128 ∧ (with_ (at0 gh) tHalt).team gh.team = some tHalt ∧ tHalt.record = some rec0 ∧
      (with_ (at0 gh) tHalt).action ((at0 gh).ctx 0) .double = .forward ∧ ((with_ (at0 gh) tHalt).ctx 0).maps = []) ∧
    ((with_ (at0 g0) { t0 with queued := [rec0] }).team 0 = some { t0 with queued := [rec0] }) ∧
    (((at0 g0).ast ((at0 g0).ctx 0).aid).traps = false ∧ ((at0 g0).ctx 0).actlo = 0x4000303044040000 ∧ ((at0 g0).ctx 0).acthi = 0x0000004404000020) ∧
    (({ at0 g0 with asts := [{ aid := 0, traps := true }] } : State).ast 0).traps = true := by
  refine ⟨⟨ready0 rfl (by decide), ready0 rfl (by decide), rfl⟩, ⟨by decide, rfl, rfl⟩, ⟨rfl, rfl, rfl, rfl, rfl⟩, ⟨rfl, rfl, rfl⟩,
    ⟨rfl, rfl, rfl, rfl, rfl⟩, rfl, ⟨rfl, rfl, rfl⟩, rfl⟩
theorem witness_PrivilegeRule : ((at0 g0).here = some (g0, fr0, 0) ∧ g0.slot ≠ 128) ∧
    (Ready (.bara 0 33) [] (at0 gh) gh fr0 0 ∧ Ready (.cpy 4 2 6) [4, 5, 2, 3, 6, 7] (at0 gh) gh fr0 0 ∧ Ready .exit [] (at0 gh) gh fr0 0 ∧
      Ready (.svc 12 0) [] (at0 gh) gh fr0 0 ∧ gh.slot = 128) := by
  refine ⟨⟨rfl, by decide⟩, readyAt rfl rfl rfl rfl rfl rfl rfl ?_, readyAt rfl rfl rfl rfl rfl rfl rfl ?_, readyAt rfl rfl rfl rfl rfl rfl rfl ?_,
    readyAt rfl rfl rfl rfl rfl rfl rfl ?_, rfl⟩ <;> decide
theorem witness_IllegalWords : ((at0 g0).here = some (g0, fr0, 0) ∧ fr0.fence = none) ∧ g0.sregs.length ≤ 64 ∧ (Instr.smulw 1 2 3).legal = false ∧
    (Instr.scpset 7 2 0).legal = false ∧ (Instr.sget 0 14).legal = false ∧ (Instr.sget 1 9).legal = false ∧ (Instr.tret 4).legal = false ∧
    (Instr.sysrd 0 12).legal = false ∧ (Instr.sset 0 11).legal = false := by
  refine ⟨⟨rfl, rfl⟩, ?_⟩; decide
theorem witness_HandlerWords :
    (Ready (.wrd 8 0) [8, 0] (with_ (at0 (ghr [15])) tHalt) (ghr [15]) fr0 0 ∧ (with_ (at0 (ghr [15])) tHalt).team 0 = some tHalt ∧
      ((with_ (at0 (ghr [15])) tHalt).window (ghr [15]) tHalt 15).isSome) ∧
    (Ready (.wrd 8 0) [8, 0] (with_ (at0 (ghr [16])) tHalt) (ghr [16]) fr0 0 ∧
      ((with_ (at0 (ghr [16])) tHalt).window (ghr [16]) tHalt 16).isNone) ∧ tHalt.record = some rec0 ∧
    (∃ w h, ({ with_ (at0 (ghr [0x20000000])) tHalt with groups := [ghr [0x20000000], g0] } : State).window (ghr [0x20000000]) tHalt 0x20000000 = some w ∧
      (w.write 7).group 0 128 = some h) ∧ Ready (.wwr 0 1) [0, 1] (with_ (at0 (ghr [0x20000000])) tHalt) (ghr [0x20000000]) fr0 0 ∧
    (at0 g0).teamGroup 0 0 = some g0 := by
  refine ⟨⟨readyHand _ _ rfl (by decide), rfl, by decide⟩, ⟨readyHand _ _ rfl (by decide), by decide⟩, rfl, ⟨_, _, rfl, rfl⟩, readyHand _ _ rfl (by decide), rfl⟩
/-- The handler and the group it serves. -/
def sHand (vs : List Word) : State := { with_ (at0 (ghr vs)) tHalt with groups := [ghr vs, g0] }
theorem witness_HandlerWords_control :
    ((∃ x p, (sHand [0]).wsplAt 0 0 = some (x, p)) ∧ Ready (.wsplR 4 0) [4, 5, 6, 7, 0] (sHand [0]) (ghr [0]) fr0 0 ∧
      Ready (.wsplW 4 0) [4, 5, 6, 7, 0] (sHand [0]) (ghr [0]) fr0 0) ∧
    (Ready (.sysrd 62 11) [62, 63] (sHand []) (ghr []) fr0 0 ∧ Ready (.syswr 62 9) [62, 63] (sHand []) (ghr []) fr0 0) ∧
    (Ready (.tret 3) [] (sHand []) (ghr []) fr0 0 ∧ (ghr []).wspl = [] ∧ (ghr []).doneBefore (ghr []).seq = true) ∧
    ((with_ (at0 g0) { t0 with halt := some .handle }).team 0 = some { t0 with halt := some .handle } ∧ t0.record = none) := by
  refine ⟨⟨⟨_, _, rfl⟩, ⟨rfl, rfl, rfl, by decide, rfl⟩, ⟨rfl, rfl, rfl, by decide, rfl⟩⟩,
    ⟨⟨rfl, rfl, rfl, by decide, rfl⟩, ⟨rfl, rfl, rfl, by decide, rfl⟩⟩, ⟨⟨rfl, rfl, rfl, by simp, rfl⟩, rfl, rfl⟩, rfl, rfl⟩
def sWait : State := { sCtx (with_ (at0 g0) tHalt) (fun c => { c with hentry := 4 }) with handlers := [{ core := 383, waiting := [0] }] }
theorem witness_HandlerWords_start : (sWait.handler 383).serving = none ∧ (sWait.handler 383).waiting = 0 :: [] ∧ sWait.team 0 = some tHalt ∧
    (sWait.ctx 0).hentry ≠ 0 := by
  refine ⟨rfl, rfl, rfl, ?_⟩; decide

/-! Lane words. -/

/-- A group whose clause of one word has started, with a given %fpctl as it stood; the lane word moves. -/
def cl0 (fp : Word) : Clause := { wordClause 0 with fpctl := fp }
def frL (fp : Word) : Fragment := { fr0 with queue := [cl0 fp] }
def gL (fp : Word) : Group := { g0 with slot0 := some (frL fp) }
def atL (fp : Word) : State := { at0 (gL fp) with cur := .lane 0 0 0 }
/-- A lane word is ready there. -/
def RL (fp : Word) (i : Instr) : Prop := LaneReady i (atL fp) (gL fp) (frL fp) 0 (cl0 fp)
theorem rl (fp : Word) {i : Instr} (h : (gL fp).laneOk (cl0 fp) i = true) (h2 : (gL fp).interlocked 0 i = false) : RL fp i :=
  ⟨rfl, rfl, h, h2⟩
theorem witness_LaneInteger : RL 0 (.vadd .n64 true 0 14 (.v 2) (.s 2)) ∧ RL 0 (.vmad .i32 false 15 15 (.v 1) (.s 3) (.imm 0xFFFFFFFF)) ∧
    RL 0 (.vshl .n8x4 0 1 (.v 2) .laneid) ∧ RL 0 (.vbfi .b32 0 1 (.v 2) (.v 3) (.imm 32)) ∧ RL 0 (.vsel .b32 15 0 1 (.v 2) .item) ∧
    RL 0 (.viota .n32 1 1 (.v 2) (.v 3)) ∧ RL 0 (.vcmp .i64 .ge 0 15 (.v 2) (.v 4)) := by
  refine ⟨rl _ ?_ ?_, rl _ ?_ ?_, rl _ ?_ ?_, rl _ ?_ ?_, rl _ ?_ ?_, rl _ ?_ ?_, rl _ ?_ ?_⟩ <;> decide
/-- With invalid operation enabled 0/0 raises; with nothing enabled it does not. -/
def wFp : Instr := .vfdiv .f32 0 1 (.v 2) (.v 3)
def eFp (fp : Word) (l : Nat) : Exc := (packExc .f32 fun e => (Ty.fmt .f32).divOp 0 false
  ((Ty.fmt .f32).value false (srcN (gL fp) (cl0 fp) .f32 (.v 2) l / 2 ^ (32 * e) % 2 ^ 32)) ((Ty.fmt .f32).value false (srcN (gL fp) (cl0 fp) .f32 (.v 3) l / 2 ^ (32 * e) % 2 ^ 32))).2
theorem witness_LaneFloat : RL 0 (.vfma .f16x2 0 1 (.v 2) (.v 3) (.v 4)) ∧ RL 0 (.vftanh .f32 0 1 (.v 2)) ∧ RL 0 (.vfcmp .f32 .or 0 15 (.v 2) (.v 3)) ∧
    RL 0 wFp ∧ RL 0x100 wFp ∧ excUnion 0xFFFFFFFF (eFp 0) &&& enables (cl0 0).fpctl = 0 ∧
    excUnion 0xFFFFFFFF (eFp 0x100) &&& enables (cl0 0x100).fpctl ≠ 0 ∧ (frL 0x100).inFence 0 = false := by
  refine ⟨rl _ ?_ ?_, rl _ ?_ ?_, rl _ ?_ ?_, rl _ ?_ ?_, rl _ ?_ ?_, ?_, ?_, rfl⟩ <;> decide +kernel
/-- Scalars of all ones, whose bytes no T3P code has. -/
def clB : Clause := { cl0 0 with scal := List.replicate 64 0xFFFFFFFF }
def frB1 : Fragment := { fr0 with queue := [clB] }
theorem witness_LaneConvert : RL 0 (.vcvt .f32 .i32 .rtz true 0 0 0 1 (.v 2)) ∧ RL 0 (.vcvt .i64 .f32 .rne false 0 0 0 1 (.v 2)) ∧
    RL 0 (.vpack .e4m3x4 .f32 .rne true true 0 1 (.v 2) (.v 3)) ∧ RL 0 (.vunpk .e5m2x4 .f32 .rne false true 0 14 (.v 2)) ∧
    RL 0 (.vq4n .f32 7 0 1 (.v 2) (.v 3) (.v 4)) ∧ LaneReady (.vt3p .i8x4 16 true 0 1 (.s 5) (.v 3)) { at0 { g0 with slot0 := some frB1 } with cur := .lane 0 0 0 } { g0 with slot0 := some frB1 } frB1 0 clB ∧
    (RL 0 (.vt3p .f32 19 false 0 1 (.v 2) (.v 3)) ∧ ∀ l ∈ lanesOf 0xFFFFFFFF, t3pReserved ((srcW (gL 0) (cl0 0) (.v 2) l).toNat / 2 ^ (8 * ((19 + 0) / 5)) % 256) = false) ∧
    t3pReserved ((srcW g0 clB (.s 5) 31).toNat / 2 ^ (8 * ((16 + 3) / 5)) % 256) = true := by
  refine ⟨rl _ ?_ ?_, rl _ ?_ ?_, rl _ ?_ ?_, rl _ ?_ ?_, rl _ ?_ ?_, ⟨rfl, rfl, ?_, ?_⟩, ⟨rl _ ?_ ?_, ?_⟩, ?_⟩ <;> decide +kernel
def oneLane : Clause := { cl0 0 with masks := (1 <<< 31) :: List.replicate 15 0 }
def frO : Fragment := { fr0 with queue := [oneLane] }
theorem witness_LaneCross : RL 0 (.vshuf .b32 .xor 0 1 (.v 2) (.s 5)) ∧ RL 0 (.vbcst .n64 0 2 (.v 4) (.imm 31)) ∧ RL 0 (.vvote .b32 .all 0 15 (.v 2)) ∧
    RL 0 (.vmatch .b32 0 1 (.v 2)) ∧ RL 0 (.vreds .n32 .add 0 1 (.v 2)) ∧ RL 0 (.vscan .f32 .fmax true 0 1 (.v 2)) ∧
    (LaneReady (.vreds .i32 .min 0 1 (.v 2)) { at0 { g0 with slot0 := some frO } with cur := .lane 0 0 0 } { g0 with slot0 := some frO } frO 0 oneLane ∧
      oneLane.govOf (.vreds .i32 .min 0 1 (.v 2)) = 1#32 <<< 31) := by
  refine ⟨rl _ ?_ ?_, rl _ ?_ ?_, rl _ ?_ ?_, rl _ ?_ ?_, rl _ ?_ ?_, rl _ ?_ ?_, ⟨rfl, rfl, ?_, ?_⟩, ?_⟩ <;> decide
theorem witness_LaneFrame : RL 0 (.vneg .i16x2 true 0 1 (.v 2)) ∧
    (∃ t h, exec (.vneg .i16x2 true 0 1 (.v 2)) (atL 0) = .next t ∧ t.group 0 0 = some h) ∧ 14 + 1 < g0.vregs.length ∧
    (0xFFFFFFFE : Mask).getLsbD 0 = false ∧ (0xFFFFFFFE : Mask).getLsbD 31 = true := by
  refine ⟨rl _ (by decide) (by decide), ⟨_, _, rfl, rfl⟩, ?_⟩; decide
theorem witness_ScalarFrame : (frameRegs (.sadd 63 1 2) = some ([63, 1, 2], [63], []) ∧ Ready (.sadd 63 1 2) [63, 1, 2] (at0 g0) g0 fr0 0 ∧
      ∃ t h, exec (.sadd 63 1 2) (at0 g0) = .next t ∧ t.group 0 0 = some h) ∧
    (frameRegs (.exsave 15 1) = some ([], [], [15, 0]) ∧ ∃ t h, exec (.exsave 15 1) (at0 g0) = .next t ∧ t.group 0 0 = some h) :=
  ⟨⟨rfl, ready0 rfl (by decide), _, _, rfl, rfl⟩, rfl, _, _, rfl, rfl⟩

/-- A clause under lanes 0 and 31 whose addresses s2:s3 name the page. -/
def clM : Clause := { wordClause 0 with masks := 0x80000001 :: List.replicate 15 0, scal := [0, 0, 0x10000, 0] ++ List.replicate 60 0 }
def frM : Fragment := { fr0 with queue := [clM] }
def gM : Group := { g0 with slot0 := some frM }
def atM : State := { at0 gM with cur := .lane 0 0 0 }
def ctl0 : LCtl := { fb := false, scope := 4, order := .rlx, width := 2 }
def addr0 : LAddr := { base := .s 2, index := none, scale := 0, sidx := false, off := 0 }
def wLd : Instr := .vld .n32 0 1 addr0 ctl0
def gN : Group := { g0 with slot0 := some { fr0 with queue := [{ clM with masks := List.replicate 16 0 }] } }
def entryOf (g : Group) (c : Clause) (i : Instr) (ops : Nat → DWord × List Word) : LogEntry :=
  let e : LogEntry :=
    { seq := if g.marked 0 then g.low else llBlock g.seq, inOrder := g.windowed 0 && performsLate i, uid := 0
      flag := (laneCtl i).bind fun x => c.flagOf x.fb, frag := 0xFFFFFFFF, instr := i, lrunPc := c.lrunPc, idx := c.idx
      gov := c.govOf i, fpctl := 0, tn := 0, issued := 0, lanes := [] }
  { e with lanes := (lanesOf (c.govOf i)).map fun l =>
    { lane := l, addr := (ops l).1, data := (ops l).2, spans := laneSpans e (ops l).1 (ops l).2, locs := [], stat := .service } }
def asks (i : Instr) : LogEntry := entryOf gM clM i fun l => (laneAddr gM clM false addr0 l, [])
theorem witness_LaneMemoryIssue :
    LaneReady wLd atM gM frM 0 clM ∧ LaneReady (.vst .n32 0 1 addr0 ctl0) atM gM frM 0 clM ∧ LaneReady (.vlds .n32 0 1 { addr0 with base := .v 0 } { ctl0 with scope := 2 } none) atM gM frM 0 clM ∧
    LaneReady (.vatom .n32 .add false false 0 1 addr0 (.v 2) ctl0) atM gM frM 0 clM ∧ LaneReady (.vprf true 0 addr0 ctl0) atM gM frM 0 clM ∧
    (gM.heldByAcquire 0 = false ∧ atM.logFull 0 = false ∧ atM.requestsFull 0 2 = false ∧ atM.laneBlocked gM (asks wLd) = false ∧
      (∀ x ∈ gM.olog, x.seq ≠ (asks wLd).seq) ∧ gM.windowed 0 = false ∧ atM.silent gM = false) := by
  refine ⟨⟨rfl, rfl, ?_, ?_⟩, ⟨rfl, rfl, ?_, ?_⟩, ⟨rfl, rfl, ?_, ?_⟩, ⟨rfl, rfl, ?_, ?_⟩, ⟨rfl, rfl, ?_, ?_⟩, ?_⟩ <;> decide
/-- What holds of both lanes of an entry of two. -/
theorem both {e : LogEntry} {P : LaneEntry → Prop} (a b : LaneEntry) (h : e.lanes = [a, b]) (h0 : P a) (h1 : P b) : ∀ x ∈ e.lanes, P x := by
  simp [h, h0, h1]
def lane0 : LaneEntry := { lane := 0, addr := 0, data := [], locs := [], stat := .service }
def laneAsks (l : Nat) (ds : List Word) (n : Nat) : LaneEntry :=
  { lane := l, addr := 0x10000, data := ds, spans := [(false, 0x10000, n)], locs := [], stat := .service }
theorem witness_LaneMemoryIssue_reach : (asks wLd).lanes.length = 2 ∧ ∀ x ∈ (asks wLd).lanes,
    atM.laneReach gM (asks wLd) x.addr x.data = .ok (ls 4) ∧ atM.laneHeader (asks wLd) (atM.laneVa gM (asks wLd) x) (ls 4) = none :=
  ⟨rfl, both (laneAsks 0 [] 4) (laneAsks 31 [] 4) rfl ⟨rfl, rfl⟩ ⟨rfl, rfl⟩⟩
/-- A word whose address passes 2^56 in every lane, one without lanes, and one whose references are null. -/
def clBad : Clause := { clM with scal := [0, 0, 0, 0x01000000] ++ List.replicate 60 0 }
def gBad : Group := { g0 with slot0 := some { fr0 with queue := [clBad] } }
def clNone : Clause := { clM with masks := List.replicate 16 0 }
def gNone : Group := { g0 with slot0 := some { fr0 with queue := [clNone] } }
def atLane (g : Group) : State := { at0 g with cur := .lane 0 0 0 }
def wRef : Instr := .vstref 0 2 addr0 { ctl0 with width := 3 }
def eRef : LogEntry := entryOf gM clM wRef fun l => (laneAddr gM clM false addr0 l, [gM.v 2 l, gM.v 3 l])
def badAsks : LogEntry := entryOf gBad clBad wLd fun l => (laneAddr gBad clBad false addr0 l, [])
theorem witness_LaneMemoryIssue_ends :
    (LaneReady wLd (atLane gBad) gBad { fr0 with queue := [clBad] } 0 clBad ∧ clBad.govOf wLd ≠ 0 ∧
      ∀ x ∈ badAsks.lanes, (atLane gBad).laneReach gBad badAsks x.addr x.data = .bad .page false 0x0100000000000000) ∧
    (LaneReady wLd (atLane gNone) gNone { fr0 with queue := [clNone] } 0 clNone ∧ clNone.govOf wLd = 0) ∧
    (LaneReady wRef atM gM frM 0 clM ∧ gM.slot ≠ 128 ∧ atM.requestsFull 0 4 = false ∧ atM.laneBlocked gM eRef = false ∧ ∀ x ∈ eRef.lanes,
      atM.laneReach gM eRef x.addr x.data = .ok (ls 8) ∧ atM.laneHeader eRef (atM.laneVa gM eRef x) (ls 8) = none ∧
      atM.refCheck (atM.who gM) x.addr.toNat (pairOf (gM.v 2 x.lane) (gM.v 3 x.lane)).toNat (ls 8) = .ok) := by
  refine ⟨⟨⟨rfl, rfl, ?_, ?_⟩, ?_, both _ _ (rfl : badAsks.lanes = [badAsks.lanes.getD 0 lane0, badAsks.lanes.getD 1 lane0]) rfl rfl⟩,
    ⟨⟨rfl, rfl, ?_, ?_⟩, ?_⟩, ⟨rfl, rfl, ?_, ?_⟩, ?_, ?_, ?_, both (laneAsks 0 [0, 0] 8) (laneAsks 31 [0, 0] 8) rfl ⟨rfl, rfl, rfl⟩ ⟨rfl, rfl, rfl⟩⟩ <;> decide
def wNew (n : Word) : Instr := .vnew false false 0 2 (.imm n)
theorem witness_LaneMemoryIssue_new : LaneReady (wNew 65520) atM gM frM 0 clM ∧ LaneReady (wNew 65521) atM gM frM 0 clM ∧ atM.sizeOk t0 65520 false = true ∧
    atM.sizeOk t0 65521 false = false ∧ (atM.team 0).isSome ∧ gM.slot ≠ 128 ∧ frM.inFence clM.uid = false ∧ gM.longOpen clM.uid = false := by
  refine ⟨⟨rfl, rfl, ?_, ?_⟩, ⟨rfl, rfl, ?_, ?_⟩, ?_⟩ <;> decide

/-- The log entry of a word in sequence 128 with its lanes; a group that holds it. -/
def le0 (i : Instr) (ls : List LaneEntry) : LogEntry :=
  { seq := 128, uid := 0, flag := some 0, frag := 0xFFFFFFFF, instr := i, lrunPc := 0x10000, idx := 0, gov := 0x80000001, fpctl := 0, lanes := ls }
def gLog (e : LogEntry) : Group := { g0 with olog := [e], seq := 256 }
def done0 : LaneEntry := { lane := 0, addr := 0x10000, data := [], locs := ls 4, stat := .done }
def ready31 (data : List Word) (locs : List Loc) : LaneEntry := { lane := 31, addr := 0x10000, data, locs, stat := .ready }
/-- Lane 31 after its bytes have been read. -/
def got31 (n : Nat) : LaneEntry := { ready31 [] [] with got := (List.range n).map fun i => (i, 7) }
def wAt (sc : BitVec 3) : Instr := .vatom .n32 .add false false 0 1 addr0 (.v 2) { ctl0 with scope := sc }
def wTag : Instr := .vldref 15 0 1 addr0 ctl0
def rd31 : LaneEntry := ready31 [] (ls 4)
def at31 : LaneEntry := ready31 [5, 0, 0, 0] (ls 4)
theorem witness_LaneLands :
    ((at0 (gLog (le0 wLd [done0]))).group 0 0 = some (gLog (le0 wLd [done0])) ∧
      (gLog (le0 wLd [done0])).olog.find? (fun x => x.seq == 128) = some (le0 wLd [done0]) ∧ ∀ x ∈ (le0 wLd [done0]).lanes, x.stat = .done) ∧
    (llKind wLd = .load ∧ (gLog (le0 wLd [done0, rd31])).windowed 0 = false ∧
      (∀ x ∈ [done0, rd31], (x.stat = .ready ∧ (x.locs = [] → x.got = [])) ∨ x.stat = .done) ∧ (gLog (le0 wLd [done0, rd31])).mayLand (le0 wLd [done0, rd31]) rd31 = true ∧
      indivisible (le0 wLd [done0, rd31]) [done0, rd31] = false ∧ ([done0, rd31].map fun x => x.lane).Nodup ∧
      ∀ x ∈ [done0, rd31], (at0 (gLog (le0 wLd [done0, rd31]))).lateFault x.locs false = none) ∧
    (rd31.got = [] ∧ rd31.locs.length + rd31.addr.toNat % 128 ≤ 128) ∧
    ((got31 4).stat = .ready ∧ (got31 4).locs = [] ∧ (got31 4).got ≠ [] ∧ ([done0, got31 4].map fun x => x.lane).Nodup ∧
      ∀ y ∈ [done0, got31 4], y.lane ≠ (got31 4).lane → y.stat = .done) ∧
    ((laneDsts wLd)[0]? = some 1 ∧ (laneDsts wTag)[1]? = some 2 ∧ (15 : BitVec 4).toNat ≤ g0.masks.length ∧ (le0 wTag []).frag.getLsbD 31 = true) := by
  refine ⟨⟨rfl, rfl, ?_⟩, ⟨rfl, rfl, ?_, ?_, ?_, ?_, ?_⟩, ⟨rfl, ?_⟩, ⟨rfl, rfl, ?_, ?_, ?_⟩, rfl, rfl, ?_, ?_⟩ <;> decide
def gAt (sc : BitVec 3) : Group := gLog (le0 (wAt sc) [done0, at31])
theorem witness_LaneLands_atomic :
    ((gAt 0).mayAct (le0 (wAt 0) [done0, at31]) at31 = true ∧ at31.stat = .ready ∧ (∀ y ∈ [done0, at31], y.lane ≠ 31 → y.stat = .done)) ∧
    (let s := l1At (at0 (gAt 0)) 0x10000 .M
     s.laneVa (gAt 0) (le0 (wAt 0) [done0, at31]) at31 = 0x10000 ∧ s.writeFault (BitVec.ofNat 64 0x10000) at31.locs = none ∧
      s.inL1 (s.who (gAt 0)) 0x10000 0 at31.locs = true ∧ s.own (s.who (gAt 0)) 0x10000 at31.locs.head? = .ok s) ∧
    (let s := at0 (gAt 4)
     (gAt 4).mayAct (le0 (wAt 4) [done0, at31]) at31 = true ∧ s.writeFault (BitVec.ofNat 64 0x10000) at31.locs = none ∧
      s.inL1 (s.who (gAt 4)) 0x10000 4 at31.locs = false ∧ at31.locs = .glob 0 0x10000 :: (ls 4).drop 1) := by
  refine ⟨⟨?_, rfl, ?_⟩, ⟨rfl, rfl, rfl, rfl⟩, ?_, rfl, rfl, rfl⟩ <;> decide
def ref31 : LaneEntry := ready31 [0, 0] (ls 8)
def gRef31 : Group := gLog (le0 wRef [ref31])
def stores31 (s : State) : RefStore :=
  s.storeRef (s.who gRef31) 0 0 0x10000 0 (ls 8) (gRef31.ordered 0 128) fun sc => .escapeHwPublish 0 0 2 0 (BitVec.ofNat 5 sc)
theorem witness_LaneLands_objects :
    (gRef31.mayAct (le0 wRef [ref31]) ref31 = true ∧ (at0 gRef31).writeFault 0x10000 (ls 8) = none ∧ (∀ l ∈ ls 8, (le0 wRef [ref31]).passedBy ref31 l = false) ∧
      (∃ s1, stores31 (l1At (at0 gRef31) 0x10000 .M) = .stored s1) ∧ ∃ s1, stores31 (at0 gRef31) = .wait s1) ∧
    ((gLog (le0 (wNew 0) [ready31 [0] []])).mayAct (le0 (wNew 0) [ready31 [0] []]) (ready31 [0] []) = true ∧ (at0 (gLog (le0 (wNew 0) []))).team 0 = some t0 ∧
      (∃ u p, (sNew 0 9).alloc ((sNew 0 9).who (gNew 0)) { t0 with chunk := some (0x10000, 0) } 0 false = .got u p ∧
        u.overPlaced (gLog (le0 (wNew 0) [ready31 [0] []])) ((sNew 0 9).who (gNew 0)) 128 p (objLines 0) = false) ∧
      (∃ u, (sNew 0 9).alloc ((sNew 0 9).who (gNew 0)) t0 0 false = .full u) ∧ (sNew 0 0).alloc ((sNew 0 0).who (gNew 0)) t0 0 false = .quota 0 1) ∧
    ((le0 wLd [done0, { ready31 [] [] with stat := .bad .page false 0 0x20000 }]).lanes.filter LaneEntry.isBad = [{ ready31 [] [] with stat := .bad .page false 0 0x20000 }] ∧
      (le0 wLd []).retry = false ∧ (gLog (le0 wLd [])).windowed 0 = false ∧ (at0 (gLog (le0 wLd []))).silent (gLog (le0 wLd [])) = false ∧
      ∀ y ∈ [done0, { ready31 [] [] with stat := .bad .page false 0 0x20000 }], y.stat = .done ∨ y.isBad = true) := by
  refine ⟨⟨?_, rfl, ?_, ⟨_, rfl⟩, _, rfl⟩, ⟨?_, rfl, ⟨_, _, rfl, rfl⟩, ⟨_, rfl⟩, rfl⟩, rfl, rfl, rfl, rfl, ?_⟩ <;> decide

/-! Matrix words. -/

/-- A team whose stream runs at the page with given k registers; the state in which it moves, with a tensor in entry 0. -/
def tS : Team := { t0 with stream := { running := true, pc := 0x10000 } }
def ten (f : Nat) (stash : Bool) : Tensor := BitVec.ofNat 512 (64 * 2 ^ 128 + 2 ^ 160 + 2 ^ 192 + 2 ^ 224 + f * 2 ^ 448 + (if stash then 2 ^ 452 else 0) + 2 ^ 455)
def withTen (d : Tensor) (c : Context) : Context := { c with tensors := [(0, d)] }
def atS (u : Team) (d : Tensor) : State := { sCtx (with_ base u) (withTen d) with cur := .stream 0 }
theorem streamAt {i : Instr} {u : Team} {d : Tensor} (h1 : u.tid = 0) (h2 : u.stream.running = true) (h3 : mReason u i = none) : StreamReady i (atS u d) u :=
  ⟨by simp [atS, h1], by simp [atS, sCtx, with_, State.team], h2, h3⟩
/-- Elements out of range, and what a reading of many elements is made of. -/
theorem past_none {d : Tensor} {p : Nat × Nat} (h : tDim d 0 ≤ p.1) : tByte d p.1 p.2 = none ∧ tPieces d p.1 p.2 false = none := by
  simp [tPieces, tByte, h]
theorem readElems_out (s : State) (w : Who) (t : Team) (d : Tensor) : ∀ (ps : List (Nat × Nat)) (n : Nat), (∀ p ∈ ps, tDim d 0 ≤ p.1) →
    s.readElems w t d [] n ps = .ok (ps.map fun _ => none)
  | [], _, _ => rfl
  | p :: ps, n, h => by
    simp [State.readElems, State.readElem, (past_none (h p (by simp))).2, readElems_out s w t d ps (n + 1) fun q hq => h q (by simp [hq])]
theorem placeElems_out (s : State) (w : Who) (t : Team) (d : Tensor) : ∀ (ps : List ((Nat × Nat) × Word)) (n : Nat), (∀ p ∈ ps, tDim d 0 ≤ p.1.1) →
    s.placeElems w t d [] n ps = .ok []
  | [], _, _ => rfl
  | p :: ps, n, h => by
    simp [State.placeElems, State.placeElem, (past_none (h p (by simp))).2, placeElems_out s w t d ps (n + 1) fun q hq => h q (by simp [hq])]
theorem readElems_all (s : State) (w : Who) (t : Team) (d : Tensor) : ∀ (ps : List (Nat × Nat)) (n : Nat), (∀ p ∈ ps, ∃ b, s.readElem w t d [] 0 p = .ok b) →
    ∃ es, s.readElems w t d [] n ps = .ok es ∧ ∀ p ∈ ps, ∀ b, s.readElem w t d [] 0 p = .ok b → b ∈ es
  | [], _, _ => ⟨[], rfl, by simp⟩
  | p :: ps, n, h => by
    obtain ⟨es, h1, h2⟩ := readElems_all s w t d ps (n + 1) fun q hq => h q (by simp [hq])
    obtain ⟨b, hb⟩ := h p (by simp)
    refine ⟨b :: es, by simp [State.readElems, show s.readElem w t d [] n p = .ok b from hb, h1], ?_⟩
    intro q hq c hc
    rcases List.mem_cons.mp hq with rfl | hq
    · rw [hb] at hc; cases hc; simp
    · exact List.mem_cons_of_mem _ (h2 q hq c hc)
/-- A tile that lies past the 64 elements of the first dimension. -/
def tile1 : Tile := { tn := 0, ka := 0, kb := 0, off0 := 1, off1 := 0 }
theorem past1 (n m : Nat) : ∀ p ∈ (List.range n).flatMap (fun y => (List.range m).map fun x => (0 + 64 * 1 + x, 0 + 64 * 0 + y)), 64 ≤ p.1 := by
  intro p hp
  simp only [List.mem_flatMap, List.mem_map] at hp
  obtain ⟨_, _, _, _, rfl⟩ := hp
  simp only; omega
set_option exponentiation.threshold 600 in
theorem witness_TileWords :
    (StreamReady (.mlda 7 tile1) (atS tS (ten 6 true)) tS ∧ tStash (ten 6 true) = true ∧ tFormat (ten 6 true) = 6 ∧ (atS tS (ten 6 true)).tensor 0 0 = ten 6 true ∧
      ∃ es, (atS tS (ten 6 true)).readElems ((atS tS (ten 6 true)).teamWho tS) tS (ten 6 true) tS.stream.part 0
        ((List.range 64).flatMap fun m => (List.range 128).map fun k => (0 + 64 * 1 + k, 0 + 64 * 0 + m)) = .ok es) ∧
    (tStash (ten 6 false) = false ∧ tFormat (ten 7 true) = 7) ∧
    (StreamReady (.mldb tile1) (atS tS (ten 9 true)) tS ∧ tFormat (ten 9 true) ∈ [2, 3, 4, 5, 6, 8, 9] ∧ tFormat (ten 0 true) ∉ [2, 3, 4, 5, 6, 8, 9]) ∧
    (StreamReady (.mst 15 tile1) (atS tS (ten 1 false)) tS ∧ tFormat (ten 1 false) = 1 ∧
      ∃ ms, (atS tS (ten 1 false)).placeElems ((atS tS (ten 1 false)).teamWho tS) tS (ten 1 false) tS.stream.part 0
        (((List.range 64).flatMap fun m => (List.range 64).map fun k => (0 + 64 * 1 + k, 0 + 64 * 0 + m)).zip (tS.tile 15)) = .ok ms) ∧
    (StreamReady (.mldc 15 tile1) (atS tS (ten 7 false)) tS ∧ tFormat (ten 7 false) = 7 ∧
      ∃ es, (atS tS (ten 7 false)).readElems ((atS tS (ten 7 false)).teamWho tS) tS (ten 7 false) tS.stream.part 0
        ((List.range 64).flatMap fun m => (List.range 64).map fun k => (0 + 64 * 1 + k, 0 + 64 * 0 + m)) = .ok es) ∧
    StreamReady (.mzero 15) (atS tS 0) tS := by
  have h6 : tDim (ten 6 true) 0 = 64 := by decide +kernel
  have h1 : tDim (ten 1 false) 0 = 64 := by decide +kernel
  have h7 : tDim (ten 7 false) 0 = 64 := by decide +kernel
  refine ⟨⟨streamAt rfl rfl ?_, ?_, ?_, rfl, _, readElems_out _ _ _ _ _ _ (h6 ▸ past1 64 128)⟩, ?_, ⟨streamAt rfl rfl ?_, ?_, ?_⟩,
    ⟨streamAt rfl rfl ?_, ?_, _, placeElems_out _ _ _ _ _ _ fun p hp => h1 ▸ past1 64 64 p.1 (List.of_mem_zip hp).1⟩,
    ⟨streamAt rfl rfl ?_, ?_, _, readElems_out _ _ _ _ _ _ (h7 ▸ past1 64 64)⟩, streamAt rfl rfl ?_⟩ <;> decide +kernel
theorem witness_TileWords_elements : (base.readElems (base.teamWho t0) t0 (ten 1 false) [(0, [])] 1 [] = .ok []) ∧
    (base.placeElems (base.teamWho t0) t0 (ten 1 false) [(0, [])] 1 [] = .ok []) ∧ tPieces (ten 7 false) 0 0 false = some [(0, 4, true)] ∧
    ((atS tS (ten 7 false)).piecesPlaces ((atS tS (ten 7 false)).teamWho tS) tS (ten 7 false) .rd [(0x10000, 4, false)]).toOption = some (ls 4) := by
  refine ⟨rfl, rfl, ?_, ?_⟩ <;> decide +kernel

/-- A register of 8192 bytes of a tag in A6 and A7. -/
def aReg (tag : Nat) : AReg := { tag, bytes := List.replicate 8192 1 }
def tA (tag : Nat) : Team := { tS with stream := { tS.stream with a := (List.replicate 8 {}).set 6 (aReg tag) |>.set 7 (aReg tag) } }
theorem noStage (n : Nat) (d : Tensor) {x : Tile} : (atS (tA n) d).bSource (tA n) x = [] := by
  simp [State.bSource, tA, tS]
theorem readB_out (n : Nat) (d : Tensor) (x : Tile) (ps : List (Nat × Nat)) (h : ∀ p ∈ ps, tDim d 0 ≤ p.1) :
    (atS (tA n) d).readElems ((atS (tA n) d).teamWho (tA n)) (tA n) d ((atS (tA n) d).bSource (tA n) x) 0 ps = .ok (ps.map fun _ => none) := by
  rw [noStage]; exact readElems_out _ _ _ _ _ _ h
set_option exponentiation.threshold 600 in
theorem witness_ProductWords :
    (StreamReady (.mma 15 6 true tile1) (atS (tA 6) (ten 6 true)) (tA 6) ∧ (aReg 6).bytes.length = 8192 ∧ (tA 6).stream.operand 6 false = some [aReg 6] ∧
      (atS (tA 6) (ten 6 true)).tensor 0 0 = ten 6 true ∧ ∃ es, (atS (tA 6) (ten 6 true)).readElems ((atS (tA 6) (ten 6 true)).teamWho (tA 6)) (tA 6) (ten 6 true) ((atS (tA 6) (ten 6 true)).bSource (tA 6) tile1) 0
        ((List.range 64).flatMap fun n => (List.range 128).map fun k => (0 + 64 * 1 + k, 0 + 64 * 0 + n)) = .ok es) ∧
    (mmaKind 5 (tFormat (ten 8 true)) = some (128, false) ∧ (tA 5).stream.operand 6 false = some [aReg 5] ∧
      ∃ es, (atS (tA 5) (ten 8 true)).readElems ((atS (tA 5) (ten 8 true)).teamWho (tA 5)) (tA 5) (ten 8 true) ((atS (tA 5) (ten 8 true)).bSource (tA 5) tile1) 0
        ((List.range 64).flatMap fun n => (List.range 128).map fun k => (0 + 64 * 1 + k, 0 + 64 * 0 + n)) = .ok es) ∧
    (StreamReady (.mmaz 15 6 false tile1) (atS (tA 6) (ten 9 true)) (tA 6) ∧ (6 : BitVec 4).getLsbD 0 = false ∧ (7 : BitVec 4).getLsbD 0 = true ∧
      (tA 6).stream.operand 6 true = some [aReg 6, aReg 6] ∧ tFormat (ten 9 true) = 9 ∧ tTrapr (ten 9 true) = true) ∧
    (tS.stream.operand 6 false = some [{}] ∧ mmaKind 2 6 = none) ∧ ({ tS.stream with latch := some (5, [{}]) } : Stream).operand 6 false = none := by
  have h6 : tDim (ten 6 true) 0 = 64 := by decide +kernel
  have h8 : tDim (ten 8 true) 0 = 64 := by decide +kernel
  refine ⟨⟨streamAt rfl rfl ?_, ?_, rfl, rfl, _, readB_out _ _ _ _ (h6 ▸ past1 64 128)⟩,
    ⟨?_, rfl, _, readB_out _ _ _ _ (h8 ▸ past1 64 128)⟩,
    ⟨streamAt rfl rfl ?_, ?_, ?_, rfl, ?_, ?_⟩, ⟨rfl, ?_⟩, rfl⟩ <;> decide +kernel
/-- A stash of ones all over, which no T3P code has, and the tile at its start. -/
def tBad : Team := { tA 6 with stash := Memory.setAll {} 0 (List.replicate 16 0xFF) }
set_option exponentiation.threshold 600 in
theorem witness_ProductWords_bad : ∃ es, (atS tBad (ten 9 true)).readElems ((atS tBad (ten 9 true)).teamWho tBad) tBad (ten 9 true)
    ((atS tBad (ten 9 true)).bSource tBad { tile1 with off0 := 0 }) 0 ((List.range 64).flatMap fun n => (List.range 256).map fun k => (k, n)) = .ok es ∧ ∃ bs, some bs ∈ es ∧ t3pBad bs = true := by
  have inside : ∀ k : Fin 64, ((atS tBad (ten 9 true)).readElem ((atS tBad (ten 9 true)).teamWho tBad) tBad (ten 9 true) [] 0 (k.val, 0)).toOption = some (some [0xFF]) := by
    decide +kernel
  have hd : tDim (ten 9 true) 0 = 64 ∧ tDim (ten 9 true) 1 = 1 ∧ tDim (ten 9 true) 2 = 1 ∧ tDim (ten 9 true) 3 = 1 := by decide +kernel
  obtain ⟨es, h1, h2⟩ := readElems_all (atS tBad (ten 9 true)) ((atS tBad (ten 9 true)).teamWho tBad) tBad (ten 9 true)
    ((List.range 64).flatMap fun n => (List.range 256).map fun k => (k, n)) 0 (by
      intro p _
      rcases p with ⟨k, n⟩
      by_cases hk : k < 64 ∧ n = 0
      · obtain ⟨hk, rfl⟩ := hk; exact ⟨_, okOf (inside ⟨k, hk⟩)⟩
      · refine ⟨none, ?_⟩
        have : tPieces (ten 9 true) k n false = none := by
          obtain ⟨a, b, c, d⟩ := hd
          simp only [tPieces, tByte, a, b, c, d, Nat.div_one, Nat.mul_one]
          rw [if_pos (by omega)]
        simp [State.readElem, this])
  have hb : (atS tBad (ten 9 true)).bSource tBad { tile1 with off0 := 0 } = [] := by simp [State.bSource, tBad, tA, tS]
  exact ⟨es, hb ▸ h1, [0xFF], h2 (0, 0) (List.mem_flatMap.mpr ⟨0, by simp, List.mem_map.mpr ⟨0, by simp, rfl⟩⟩) _ (okOf (inside 0)), by decide⟩

def deep (n : Nat) (stop : DWord) : Team :=
  { tS with stream := { tS.stream with loops := List.replicate n { reg := 15, total := 1, start := 0x10008, stop } } }
theorem witness_IndexAndLoopWords :
    (StreamReady (.mkset 15 0x800000) (atS tS 0) tS ∧ StreamReady (.mksetH 15 0xFF) (atS tS 0) tS ∧ StreamReady (.mkadd 0 0x7FFFFF) (atS tS 0) tS ∧
      StreamReady (.mkaddReg 15 0 0) (atS tS 0) tS) ∧
    (StreamReady (.mloop 15 3 0xFFF 0) (atS tS 0) tS ∧ (tS.stream.k.getD 3 0).toNat = 0) ∧
    (StreamReady (.mloop 15 0 1 0xFFF) (atS (deep 3 0) 0) (deep 3 0) ∧ (deep 3 0).stream.loops.length < 4) ∧
    (StreamReady (.mloop 15 0 1 1) (atS (deep 4 0) 0) (deep 4 0) ∧ 4 ≤ (deep 4 0).stream.loops.length) ∧
    (StreamReady .mend (atS tS 0) tS ∧ tS.stream.loops = []) ∧
    (StreamReady .mend (atS (deep 1 0x10000) 0) (deep 1 0x10000) ∧ (deep 1 0x10000).stream.pc = 0x10000 ∧ 1 ≤ ((0 : Word) + 1).toNat) ∧
    (0x10008 : DWord) ≠ (deep 1 0x10008).stream.pc ∧
    (mReason tS (.mloop 0 1 1 1) = some 3 ∧ mReason tS (.mloop 0 0 0 1) = some 4 ∧ mReason tS (.mlda 8 tile1) = some 4 ∧
      mReason { tS with acc := [] } (.mzero 0) = some 4) := by
  refine ⟨⟨streamAt rfl rfl rfl, streamAt rfl rfl rfl, streamAt rfl rfl rfl, streamAt rfl rfl rfl⟩, ⟨streamAt rfl rfl ?_, rfl⟩, ⟨streamAt rfl rfl ?_, ?_⟩,
    ⟨streamAt rfl rfl ?_, ?_⟩, ⟨streamAt rfl rfl rfl, rfl⟩, ⟨streamAt rfl rfl rfl, rfl, ?_⟩, ?_, ?_⟩ <;> decide
def gRdv (n : Nat) : Group := { g0 with slot0 := some { fr0 with wait := some (.rdv n 8) } }
def barT (p : BarPart) : Team := { tS with stream := { tS.stream with bars := p :: List.replicate 15 {} } }
set_option exponentiation.threshold 600 in
theorem witness_StreamSync :
    (Ready (.mfork 8 2 255) [8, 2, 3] (at0 gMem) gMem fr0 0 ∧ (gMem.pair 2 + BitVec.ofNat 64 (255 * 8)).toNat % 8 = 0 ∧ t0.stream.running = false ∧
      gMem.doneBefore gMem.seq = true ∧ tS.stream.running = true ∧ addrFault ((gJump 0x10004 0).pair 2) 8 = some .align) ∧
    (Ready (.rdv 8) [8] (at0 g0) g0 fr0 0 ∧ fr0.wait = none ∧ t0.stream.rdvCount < g0.rdvCount + 1 ∧
      ({ t0 with stream := { rdvCount := 1 } } : Team).stream.rdvCount = g0.rdvCount + 1) ∧
    Ready (.rdv 8) [8] (at0 (gRdv 1)) (gRdv 1) { fr0 with wait := some (.rdv 1 8) } 0 ∧
    (StreamReady .mrdv (atS tS 0) tS ∧ StreamReady .mnop (atS tS 0) tS ∧ StreamReady (.mtrap 0xFFFF) (atS tS 0) tS) ∧
    (StreamReady (.mbara 15) (atS tS 0) tS ∧ (tS.stream.bars.getD 15 {}).effect = none ∧ (tS.stream.bars.getD 15 {}).pending = false) ∧
    (StreamReady (.mbarw 0) (atS (barT { pending := true, phase := 1 }) 0) (barT { pending := true, phase := 1 }) ∧
      ((atS (barT { pending := true, phase := 1 }) 0).barrier (barT { pending := true, phase := 1 }) 0).phase ≠ 1) ∧
    (StreamReady (.mrel true 0 0 0 5 0) (atS tS 0) tS ∧ StreamReady (.mrel false 0 0 0 6 0xFFFF) (atS tS (ten 7 false)) tS ∧ tFormat (ten 7 false) = 7 ∧
      tStash (ten 7 false) = false ∧ tPieces (ten 7 false) 0 0 false = some [(0, 4, true)] ∧ tStash (ten 7 true) = true ∧ tByte (ten 7 false) 64 0 = none) := by
  refine ⟨⟨readyMem _ _ rfl ?_, ?_, rfl, rfl, rfl, ?_⟩, ⟨ready0 rfl ?_, rfl, ?_, rfl⟩, readyAt rfl rfl rfl rfl rfl rfl rfl ?_,
    ⟨streamAt rfl rfl rfl, streamAt rfl rfl rfl, streamAt rfl rfl rfl⟩, ⟨streamAt rfl rfl rfl, rfl, rfl⟩, ⟨streamAt rfl rfl rfl, ?_⟩, streamAt rfl rfl ?_,
    streamAt rfl rfl ?_, ?_, ?_, ?_, ?_, ?_⟩ <;> decide +kernel

/-! Pre-emption, hosts. -/

/-- A context's slice of 10 ms on core 0 that has run out, before a launch of another context that waits. -/
def sSlice : State := { sLaunch { l0 { wordDesc with prio := 7 } with cid := 1 } with
  slices := [{ core := 0, cid := 0, since := 0 }], contexts := [base.ctx 0, { cid := 1, st := .guarded, saveSize := 0x0D180000 }] }
/-- Core 0 of a partition of one die and every other core, full but for groups that may be evicted: a launch of PRIO 7 that needs a whole core's stash. -/
def gSaved (u : Bool) : Group := { g0 with saved := true, urgent := u, savedAt := 1 }
def sSaved (u : Bool) : State := { sCtx base (fun c => { c with saveSize := 0x0E000000 }) with groups := [gSaved u], teams := [t0] }
def sGone (ls : List Launch) : State := { sCtx base (fun c => { c with st := .destroyed }) with groups := [], teams := [], launches := ls }
theorem witness_PreemptEvents :
    (sSlice.slices.find? (fun y => y.core == 0 && y.cid == 0) = some { core := 0, cid := 0, since := 0 } ∧ 0 + 10000 * 1000 ≤ sSlice.time) ∧
    ((sSaved true).evictable g0 = true ∧ (sSaved true).team g0.team = some t0 ∧ (sSaved true).evictBefore { g0 with slot := 1 } g0 = true) ∧
    ((sSaved true).team 0 = some t0 ∧ (sSaved true).runs 0 = true ∧ (sSaved true).groups.find? (fun x => x.team == 0 && x.saved && x.urgent && x.savedAt == 1) = some (gSaved true) ∧
      (sSaved true).comeback t0 0 [gSaved true] = some [0]) ∧
    ((∀ v ∈ (sSaved false).restoreUnit t0, v.halt = none ∧ (sSaved false).drainsAt v.core v.cid = false) ∧
      (∃ v ∈ (sSaved false).restoreUnit t0, ∃ g ∈ (sSaved false).savedOf v.tid, g.park = none) ∧ ((sSaved false).restoreAll ((sSaved false).restoreUnit t0)).isSome) ∧
    (((sGone []).ctx 0).st = .destroyed ∧ ((sGone []).ctx 0).ladders = List.replicate 16 {} ∧ ((sGone []).ctx 0).mail = List.replicate 64 [] ∧ (sGone []).walks = [] ∧
      (sGone []).handlers = [] ∧ (sGone []).launches = []) ∧ (sGone [l0 wordDesc]).launches = [l0 wordDesc] := by
  refine ⟨⟨rfl, ?_⟩, ⟨?_, rfl, ?_⟩, ⟨rfl, rfl, rfl, ?_⟩, ⟨?_, ?_, ?_⟩, ⟨rfl, rfl, rfl, rfl, rfl, rfl⟩, rfl⟩ <;> decide +kernel
/-- A core with a full stash in each row of the die, and a launch of PRIO 7 that needs a whole row. -/
def lUrgent : Launch := l0 { wordDesc with prio := 7, gx := 12, cw := 12 }
def lBack : Launch := { lid := 0, cid := 0, addr := 0, desc := wordDesc, acceptAt := 0, ready := true, next := 1, started := true }
def sUrgent : State :=
  { sLaunch lUrgent with
    groups := (List.range 8).map fun n => { g0 with core := 12 * n, team := n }
    teams := (List.range 8).map fun n => { t0 with tid := n, core := 12 * n }
    launches := [lUrgent, lBack] }
theorem witness_PreemptEvents_urgent : sUrgent.launch 9 = some lUrgent ∧ sUrgent.eligible lUrgent = true ∧ sUrgent.heldBack lUrgent = false ∧ lUrgent.desc.prio = 7 ∧
    (sUrgent.emptied fun _ => false).placement lUrgent = none ∧ ((sUrgent.emptied sUrgent.evictable).placement lUrgent).isSome := by decide +kernel
def wdogC (c : Context) : Context := { c with wdog := 0x1000003E8 }
theorem witness_PreemptEvents_watchdogs :
    (let s : State := { sCtx (with_ base tHalt) wdogC with handlers := [{ core := 0, serving := some 0 }], time := 1000000 }
     (s.handler 0).serving = some 0 ∧ s.team 0 = some tHalt ∧ bitsOf (s.ctx 0).wdog.toNat 0 32 = 1000 ∧ (s.handler 0).since + 1000 * 1000 ≤ s.time) ∧
    (let s : State := { sCtx (at0 g0) wdogC with time := 1000000 }
     s.team 0 = some t0 ∧ bitsOf (s.ctx 0).wdog.toNat 32 32 = 1 ∧ t0.issued + 1 * 1000000 ≤ s.time ∧ s.teamGroups 0 ≠ [] ∧
      ∀ g ∈ s.teamGroups 0, g.park = none ∧ g.saved = false) ∧
    (gRdv 1).frag 0 = some { fr0 with wait := some (.rdv 1 8) } := by
  refine ⟨⟨rfl, rfl, by decide, by decide⟩, ⟨rfl, by decide, by decide, by decide, ?_⟩, rfl⟩
  intro g hg
  cases List.mem_singleton.mp (show g ∈ [g0] from hg); exact ⟨rfl, rfl⟩

/-- A device that runs, each port its own host, with one context; commands of host 1. -/
def sHost (f : Context → Context) : State :=
  { sDev (sCtx base f) with
    dev := { st := .running, boot := { ports := (List.range 8).map some }, portUp := List.replicate 8 true, nirusUp := List.replicate 12 true }
    asts := [{ aid := 0, valid := true, keyid := 1 }] }
def cmd (args : List DWord) : Cmd := { host := 1, port := 1, ctx := 0, tag := 7, compl := 16, args := args ++ List.replicate (14 - args.length) 0 }
def guarded (st : CtxState) (c : Context) : Context := { c with st, primary := 1, permit := 0xFF }
theorem witness_GuardCommands :
    ((sHost id).portOf 1 1 = true ∧ (sHost id).dev.st = .running ∧ (0 : Nat) = (sHost id).portPart 1 * 1024 + (cmd []).ctx.toNat) ∧
    (((sHost fun c => { c with st := .free }).ctx 0).st = .free ∧ cmdShaped (cmd [0x271000FF0000]) [0x3FFF00FF03FF] = true ∧
      0x271000FF0000 / 2 ^ 32 % 2 ^ 14 ≤ 10000 ∧ ((sHost id).ast 0).valid = true) ∧
    (((sHost (guarded .guarded)).ctx 0).primary = 1 ∧ cmdShaped (cmd [7]) [0xF] = true ∧ ((sHost (guarded .guarded)).ctx 0).permit.getLsbD 7 = true) ∧
    (((sHost (guarded .offered)).ctx 0).st = .offered ∧ cmdShaped (cmd [8]) [0xF] = true ∧ cmdShaped (cmd []) [] = true ∧ (guarded .offered (base.ctx 0)).faults = []) ∧
    (cmdShaped (cmd [0xFC]) [0xFF] = true ∧ ∀ h < 8, (BitVec.ofNat 8 0xFC).getLsbD h = true → ((sHost (guarded .guarded)).ctx 0).permit.getLsbD h = true ∧ h ≠ 1) ∧
    (((sHost (guarded .suspended)).ctx 0).st = .suspended ∧ cmdShaped (cmd [10000]) [0x3FFF] = true) ∧
    (cmd []).compl ≠ 0 ∧ (sHost id).hostMem.wf = true ∧
    (guarded .offered { base.ctx 0 with offerTo := 1 }).offerTo = (cmd []).host ∧ (guarded .orphaned (base.ctx 0)).permit.getLsbD 1 = true := by decide +kernel
/-- No lease has run out, and one has: LEASE 0 of host 1, at time 1. -/
def leased (c : Context) : Context := { guarded .guarded c with clocks := [(1, 0)], lease := 0 }
theorem witness_GuardCommands_leases : (sHost (guarded .guarded)).lapsed 0 = sHost (guarded .guarded) ∧ ((sHost (guarded .guarded)).ctx 0).overdue (sHost (guarded .guarded)).time = none ∧
    (({ sHost leased with time := 1 } : State).ctx 0).overdue 1 = some 1 := ⟨rfl, rfl, rfl⟩
def subR (start gang : DWord) : Sub :=
  { host := 1, port := 1, page := 5, head := 0x1, compl := 16, desc := 0x10000, gang, start, deadline := 0, members := 0, rest := List.replicate 9 0 }
/-- The page holds a launch descriptor, and page 5 of host 1 is bound. -/
def sSub (st : CtxState) (v : Nat) : State :=
  { sHost (guarded st) with
    chip := Memory.setAll {} 0x10000 (leBytes 256 v)
    chipMeta := (List.range 2).map fun n => { line := lineOf 0 (0x10000 + 128 * n), tags := 0 }
    dev := { (sHost id).dev with binds := [{ host := 1, page := 5, ctx := 0, prioMax := 0 }] } }
def isTaken : Accept → Bool
  | .taken _ _ => true
  | _ => false
set_option exponentiation.threshold 3000 in
theorem witness_SubmissionsAndHostLoss :
    ((sSub .guarded dPlain).dev.binds.find? (fun x => x.host == 1 && x.page == 5) = some { host := 1, page := 5, ctx := 0, prioMax := 0 } ∧
      ((sSub .guarded dPlain).ctx 0).guardian 1 = true ∧ ((sSub .suspended dPlain).ctx 0).st = .suspended ∧ subHeadOk (subR 0 0) 1 = true ∧
      subHeadOk { subR 0 0 with head := 0x21 } 1 = false ∧ subHeadOk { subR 0 0 with head := 2 } 2 = true) ∧
    ((sSub .guarded dPlain).getBytes ((sSub .guarded dPlain).ctx 0).device 0x10000 256).toOption = some (leBytes 256 dPlain) ∧
    (parseDesc (leVal (leBytes 256 dPlain))).prio ≤ 0 ∧ isTaken ((sSub .guarded dPlain).accept 0 0x10000 (leVal (leBytes 256 dPlain))) = true ∧
    0 < (parseDesc (leVal (leBytes 256 (dPlain + 2 ^ 392)))).prio ∧ (∀ x ∈ (sHost id).dev.binds, x.host ≠ 1 ∨ x.page ≠ 5) ∧
    (sSub .guarded dPlain).portOf 1 1 = true ∧ (sSub .guarded dPlain).dev.st = .running ∧
    ((sSub .guarded dPlain).gangOf ((sSub .guarded dPlain).ctx 0).device (subR 9 3)).isSome = true := by decide +kernel
theorem witness_SubmissionsAndHostLoss_waits : (sSub .guarded dPlain).lapsed 0 = sSub .guarded dPlain ∧
    (sSub .guarded dPlain).firstWait ((sSub .guarded dPlain).ctx 0).device ((sSub .guarded dPlain).subReads ((sSub .guarded dPlain).ctx 0).device (subR 0 0) 1) = none := by
  refine ⟨rfl, ?_⟩; decide +kernel
/-- Every record of a context is taken. -/
theorem witness_SubmissionsAndHostLoss_busy : (sSub .guarded dPlain).dev.st = .running ∧
    ({ sSub .guarded dPlain with launches := List.replicate 4096 (l0 wordDesc) } : State).accept 0 0x10000 dPlain = .busy := by
  refine ⟨rfl, ?_⟩
  have h : (!descOk dPlain || (parseDesc dPlain).rung || ((parseDesc dPlain).cores && !coresFit ((sSub .guarded dPlain).part 0).dies ((sSub .guarded dPlain).ctx 0).ast (parseDesc dPlain))) = false := by
    decide +kernel
  have h2 : (List.filter (fun l => l.cid == 0 && l.ladder.isNone) (List.replicate 4096 (l0 wordDesc))).length = 4096 := by
    rw [List.filter_replicate_of_pos rfl]; exact List.length_replicate
  unfold State.accept
  rw [if_neg (by exact Bool.eq_false_iff.mp h), if_pos (Or.inl (Nat.le_of_eq h2.symm))]
theorem witness_SubmissionsAndHostLoss_ports :
    (({ sHost leased with time := 1 } : State).ctx 0).clocks.find? (fun x => x.1 == 1) = some (1, 0) ∧
    ((sHost leased).ctx 0).guardian 1 = true ∧ ((sHost leased).ctx 0).st = .guarded ∧ 0 + 2 * ((sHost leased).ctx 0).lease * 1000000 < 1 ∧ (sHost id).dev.portUp.getD 7 false = true ∧
    ({} : Dev).portUp.getD 7 false = false ∧ ((sHost (guarded .guarded)).ctx 0).st = .guarded ∧ ((sHost (guarded .guarded)).ctx 0).faults = [] := by decide +kernel
def map0 : Mapping := { base := 0x20000, len := 4096, backing := 1, r := true, w := true, x := true, target := 0 }
def fault0 : FwdFault := { fid := 1, team := some 0, lid := 0, target := some 1, park := false, cause := .page, addr := 0, pc := 0, lanes := 0, backing := 15 }
def gSvc : Group := { gPark (.svc 0 7 1 0x10000) (some 0) with token := some 0 }
theorem witness_MapCommands :
    (cmdShaped (cmd [0x20000, 4096, 0x78, 0]) [2 ^ 64 - 1, 2 ^ 64 - 1, 0x7F, 2 ^ 64 - 1] = true ∧ rangeOk 0x20000 4096 = true ∧ 0x78 % 16 = 8 ∧
      ((sHost (guarded .guarded)).ctx 0).mapsIn 0x20000 4096 = []) ∧
    (cmdShaped (cmd [0x20000, 4096]) [2 ^ 64 - 1, 2 ^ 64 - 1] = true ∧ ((sHost fun c => { guarded .guarded c with maps := [map0] }).ctx 0).mapsIn 0x20000 4096 = [map0] ∧
      map0.within 0x20000 4096 = true) ∧
    (resumeShape (cmd [0x100000000, 1]) = true ∧ ((sHost fun c => { guarded .guarded c with faults := [fault0] }).ctx 0).faults.find? (fun f => f.fid == 1 && f.target == some 1) = some fault0 ∧
      resumeShape (cmd [1]) = true) ∧
    ((let s : State := { sHost (guarded .guarded) with groups := [gSvc] }; s.groups.find? (fun g => g.token == some 0 && (match s.team g.team with | some t => t.cid == 0 | none => false)) = some gSvc ∧
      gSvc.park = some (.svc 0 7 1 0x10000) ∧ resumeShape (cmd [1]) = true ∧
      (({ s with contexts := [{ (s.ctx 0) with respBase := 0x10000 }] } : State).slots { (s.ctx 0) with respBase := 0x10000 } 0 (lanesOf 1)).isSome ∧
      ({ s with contexts := [{ (s.ctx 0) with respBase := 0x10000 }] } : State).firstWait (s.ctx 0).device [(0x10000, .rd)] = none)) ∧
    (cmdShaped (cmd [1, 0xFF]) [0xFF, 0xFF] = true ∧ cmdShaped (cmd [2, 10000]) [0xFF, 2 ^ 64 - 1] = true ∧ ringOk 0x4000000 26 = true ∧
      cmdShaped (cmd [3, 0x4000000, 26]) [0xFF, 2 ^ 64 - 1, 2 ^ 64 - 1] = true ∧ cmdShaped (cmd [6, 255, 0xFFFFFFFF]) [0xFF, 2 ^ 64 - 1, 2 ^ 64 - 1] = true) ∧
    ((base.ctx 0).guardian 1 = false ∧ (base.ctx 0).permit.getLsbD 1 = false) := by decide +kernel
theorem witness_MapCommands_lapsed : (sHost (guarded .guarded)).lapsed 0 = sHost (guarded .guarded) ∧ (sHost (guarded .offered)).lapsed 0 = sHost (guarded .offered) ∧
    ∀ m ∈ ([map0] : List Mapping), ¬ (m.base < 0x10000 + 0 ∧ 0x10000 < m.base + m.len) := ⟨rfl, rfl, by decide⟩
theorem witness_HostRegisters :
    ((sHost id).dev.st = .running ∧ (sHost id).hostLive 0 = true ∧ (sHost id).admin 0 = true ∧ (sHost id).admin 1 = false ∧ (sHost id).hostPart 1 = 0) ∧
    (((sHost (guarded .guarded)).ctx 0).primary ≠ 0 ∧ ((sHost (guarded .guarded)).ctx 0).st ≠ .free ∧
      ((((sHost (guarded .guarded)).ctx 0).rq.write - 1).toNat > 2 ^ ((sHost (guarded .guarded)).ctx 0).rq.log2 / 16)) ∧
    ((sHost fun c => { c with rings := [(1, { log2 := 12 })] }).ctx 0).rings.find? (fun x => x.1 == 1) = some (1, { log2 := 12 }) ∧
    ((sHost id).boundTo 0 0).isSome ∧ ((sHost id).boundTo 0 1).isNone ∧ ((0 : Word) - ((sHost id).ast 0).poolRd).toNat ≤ 2 ^ ((sHost id).ast 0).poolLog2 / 8 := by
  decide +kernel

/-- A table at 0x11000 that names itself, with a 1 GiB leaf, a run of demand pages and a run of a peer's pages; its address space has a pool. -/
def table0 : List Byte :=
  ([0x11001, 0x1F] ++ List.replicate 14 0 ++ List.replicate 16 0xFF ++ (List.range 16).map fun i => 0x7F + 4096 * i).flatMap (leBytes 8)
def ast0 : Ast := { aid := 0, walk := true, ttroot := 0x11, poolLog2 := 12, poolWr := 1, freeTabs := [0x20000] }
def sTab : State :=
  { sHost (guarded .guarded) with
    chip := Memory.setAll {} 0x11000 table0
    chipMeta := (List.range 3).map fun n => { line := lineOf 0 (0x11000 + 128 * n), tags := 0 }
    asts := [ast0], s2 := [{ aid := 0, die := 0, gran := 1, frame := 5, w := false }] }
def sAts : State := { sTab with ats := [(3, 0, 0, 0x80000000)] }
theorem witness_MemoryManagement :
    ((sHost id).dev.st = .running ∧ (sHost id).hostLive 0 = true ∧ (sHost id).admin 0 = true ∧ (sHost id).admin 1 = false ∧ ((sHost id).part 0).s2busy = none ∧
      ((sHost id).part 0).dies.contains (gpaHome 0) = true ∧ (0x30001 : DWord).toNat / 2 ^ 38 = 0 ∧ (0x30001 : DWord).toNat / 4 % 2 ^ 14 = 0 ∧
      (sHost id).s2find 0 0 = none ∧ (sHost id).s2Tables 0 + 2 ≤ 65536) ∧
    ((sTab.part 0).releases.length < 64 ∧ (0x3FF0000 : Nat) / 2 ^ 16 % 2 ^ 22 / 2 ^ 16 % 16 ≠ 15 ∧ (0xF00000000 : Nat) / 2 ^ 16 % 2 ^ 22 / 2 ^ 16 % 16 = 15) ∧
    (let s : State := { sTab with parts := [{ id := 0, dies := [0], admin := 0, s2busy := some { aid := 0, gran := 1, left := 0, entry := some (5, true) }, releases := [{ aid := 0, gran := 1 }] }] }; (s.part 0).s2busy = some { aid := 0, gran := 1, left := 0, entry := some (5, true) } ∧ (s.part 0).releases = { aid := 0, gran := 1 } :: [] ∧ (s.part 0).id = 0) ∧
    (sTab.onChip 0 0x10000 = false ∧ sTab.s2find 0 0x10000 = some { aid := 0, die := 0, gran := 1, frame := 5, w := false } ∧
      (sTab.metaOf (({ aid := 0, die := 0, gran := 1, frame := 5, w := false } : S2Entry).hpa 0x10000 / 128)).uncorr = false ∧
      sTab.fillFault 0 0x10000 true = some (.prot, true) ∧ sTab.s2find 0 0x30000 = none) := by decide +kernel
theorem witness_TranslationAndFills :
    ((0 : Nat) < 384 ∧ (sTab.ctx 0).st ≠ .free ∧ sTab.tlbFind 0 0 0x40000000 = none ∧
      sTab.walkVa 0 0x40000000 = .leaf { base := 0x40000000, size := 0x40000000, gpa := 0, r := true, w := true, x := true, kind := 0, own := 0, lost := false, cont := false }) ∧
    (sTab.walkVa 0 0x80000000 = .invalid ∧ (sTab.ast 0).walk = true ∧ (sTab.ctx 0).primary ≠ 8 ∧ sTab.ats = [] ∧ sTab.tlbFind 0 0 0x80000000 = none) ∧
    (sAts.ats.find? (fun q => q.1 == 3 && (3 : Nat) != 0) = some (3, 0, 0, 0x80000000)) ∧
    ((sTab.ctx (sTab.hostPart 1 * 1024 + 0)).primary = 1) ∧
    ((sTab.servable 0 0x10000 3).isSome ∧ (sTab.poolTake 0 (sTab.poolFuel 0)).2 = some 0x20000 ∧ (sTab.servable 0 0x20000 1).isSome ∧ sTab.peerLink 0 = true) ∧
    (sTab.onChip 0 0x10000 = false ∧ sTab.fillFault 0 0x10000 false = none ∧ sTab.fillFault 0 0x30000 false = some (.page, true)) ∧
    (sTab.parts.find? (fun p => p.dies.contains (gpaHome 0x10000))).isSome ∧ (∀ k < 3, sTab.fillFault 0 (min (0x10000 + 128 * k) (0x10000 + 2 - 1)) false = none) ∧
    (isHostGpa (lineGpa (2 ^ 44)) = true ∧ sTab.hostLive (gpaHost (lineGpa (2 ^ 44))) = true ∧ sTab.chipLine (2 ^ 44) = none) := by decide +kernel

/-- Line 7 in the L1 of core 95, with its directory entry on die 0; a region of its home. -/
def sL1 (x : LState) (e : DirEntry) : State :=
  { sTab with l1 := [{ core := 95, line := 7, st := x }], dir := [e], chipMeta := [{ line := 7, dirty := true }] }
def dir0 (x g : LState) (o : Nat) (sh : BitVec 24) : DirEntry := { die := 0, line := 7, st := x, gst := g, owner := o, shares := sh }
theorem witness_DieMessages :
    (sTab.l1St 95 7 = .I ∧ ((sL1 .I (dir0 .M .M 3 0)).dirOf (dieOf 95) 7).owner ≠ 95 % 96 ∧ ((sL1 .I (dir0 .O .M 3 0)).dirOf 0 7).st = .O ∧
      ((sL1 .I (dir0 .I .E 127 0)).dirOf 0 7).gst = .E ∧ ((sL1 .I (dir0 .S .S 127 1)).dirOf 0 7).gst ≠ .I ∧ (sTab.dirOf 0 7).gst = .I) ∧
    ((sL1 .S (dir0 .S .S 127 1)).l1St 95 7 ∈ [LState.I, .S, .O] ∧ ((sL1 .S (dir0 .S .M 127 0x800000)).dirOf 0 7).shares ≠ 0 ∧
      ((sL1 .S (dir0 .S .M 127 0)).dirOf 0 7).shares = 0) ∧
    ((sL1 .O (dir0 .O .M 95 0)).l1St 95 7 = .O ∧ (sL1 .P (dir0 .I .I 127 0)).l1St 95 7 = .P ∧ (sL1 .E (dir0 .E .E 95 0)).l1St 95 7 = .E ∧
      (sL1 .P (dir0 .I .I 127 0)).chipLine 7 = some { line := 7, dirty := true }) ∧
    ((2 : BitVec 5).toNat < 4 ∧ 124 % 4 = 0 ∧ (sL1 .I (dir0 .I .M 127 0)).fillFault (lineAid 7) (lineGpa 7) true = none) ∧
    (sTab.txns = [] ∧ (sL1 .M (dir0 .M .M 95 0)).regionOf ((sL1 .M (dir0 .M .M 95 0)).lineHome 7) 7 = none) := by decide +kernel
/-- Room in an L1 and a directory, and an L1 of core 95 that is full of dirty lines of its own. -/
theorem witness_DieMessages_room : ∃ u1 u, sTab.l1Room 95 7 = .ok u1 ∧ u1.dieRoom (dieOf 95) 7 = .ok u := ⟨_, _, rfl, rfl⟩
def sFull (n : Nat) : State := { sTab with l1 := List.replicate n { core := 95, line := 8, st := .M }, teams := [] }
theorem witness_DieMessages_full (n : Nat) (h : 6144 ≤ n) : (sFull n).l1St 95 7 = .I ∧ (sFull n).l1Room 95 7 = .error (.putd 95 8) := by
  have mine : ((sFull n).l1.filter fun x => x.core == 95 && !(sFull n).mappedAt 95 x.line) = List.replicate n { core := 95, line := 8, st := .M } :=
    List.filter_replicate_of_pos rfl
  have pick : (sFull n).pickOf 6 (List.replicate n ({ core := 95, line := 8, st := .M } : L1Line)) = some { core := 95, line := 8, st := .M } := by
    obtain ⟨m, rfl⟩ : ∃ m, n = m + 1 := ⟨n - 1, by omega⟩
    simp only [State.pickOf, List.replicate_succ]
    rw [← List.replicate_succ, List.getElem?_replicate, if_pos (by rw [List.length_replicate]; exact Nat.mod_lt _ (by omega))]
  refine ⟨by simp [State.l1St, sFull], ?_⟩
  unfold State.l1Room
  simp only [mine, pick, List.length_replicate]
  rw [if_neg (by simp; omega)]
  rfl
theorem witness_DieMessages_full_l1 : (sFull 6144).l1St 95 7 = .I ∧ (sFull 6144).l1Room 95 7 = .error (.putd 95 8) :=
  witness_DieMessages_full 6144 (Nat.le_refl _)
def reg0 (k : Nat) (sts : List Nat) : RegionEntry := { home := 0, k, sts, aid := 0, base := 0 }
def txn0 (at_ : Option (Nat × AtomOp × Ty × DWord × DWord)) : Txn := { home := 0, line := 7, asker := 1, excl := true, atomic := at_, waiting := [2], dirty := [3] }
theorem witness_HomeMessages :
    (let s : State := { sTab with txns := [txn0 none] }; s.rangeBusy 7 1 = true ∧ s.txns.find? (fun t => t.line == 7 && t.excl == true && t.waiting.contains 2) = some (txn0 none)) ∧
    (sTab.rangeBusy 7 1 = false ∧ sTab.regionOf 0 7 = none ∧ sTab.regions = []) ∧
    (let s : State := { sTab with regions := [reg0 0 [0, 2, 0, 0]] }; s.regionOf 0 7 = some (reg0 0 [0, 2, 0, 0]) ∧ snoopTargets (reg0 0 [0, 0, 0, 0]) 0 true false = [] ∧ snoopTargets (reg0 0 [0, 0, 0, 0]) 1 true false = [0] ∧
      snoopTargets (reg0 0 [0, 2, 0, 0]) 2 false false = [0, 1] ∧ s.rangeBusy 0 512 = false ∧ (reg0 0 [0, 2, 0, 0]).lines = 512) ∧
    ((txn0 none).dirty ≠ [] ∧ (txn0 (some (0, .add, .n32, 1, 0))).atomic = some (0, .add, .n32, 1, 0)) ∧
    (let s : State := { sTab with regions := [reg0 1 [0, 0, 0, 0], { reg0 1 [0, 1, 0, 0] with base := 256 }], cycle := 65535 }; s.regions.find? (fun r => r.home == 0 && r.base == 0 && r.lines == 512 / 2) = some (reg0 1 [0, 0, 0, 0]) ∧
      s.regions.find? (fun r => r.home == 0 && r.base == 0 + 512 / 2 && r.lines == 512 / 2) = some { reg0 1 [0, 1, 0, 0] with base := 256 } ∧ 65535 ≤ s.cycle - 0 ∧
      s.regions.find? (fun r => r.base == 0 && r.lines == 256 && r.home == s.lineHome 0) = some (reg0 1 [0, 0, 0, 0])) ∧
    (∃ e ∈ (sL1 .M (dir0 .M .M 95 0)).dir, e.die = 0 ∧ e.line = 7) ∧
    (let s : State := { sTab with dev := { sTab.dev with fwclosed := [(1, 0)] } }; (1, 0) ∈ s.dev.fwclosed ∧ s.dev.fwdrops.length = 4 ∧ (s.parts.find? fun p => p.dies.contains 1).isSome) := by
  decide +kernel

/-- A new region with nothing near it; the atomic of a load that waits. -/
theorem witness_HomeMessages_waiters : sTab.regionOf (sTab.lineHome 7) 7 = none ∧
    (sTab.regions.filter fun r => r.home == 0 && r.row == lineGpa 7 / 65536 % 8192).length < 16 ∧
    ((at0 (gAtom 4)).groups.filter fun g => g.core == 0 && !g.saved).flatMap (fun g => g.waiters true (lineOf 0 0x10000) 0 .add .i32 1 0) =
      .load (gAtom 4) { seq := 5, dst := 8, pair := false, locs := ls 4, pc := 0x10000, addr := 0x10000, atom := some (at1 4) } (at1 4) :: [] ∧
    (sTab.groups.filter fun g => g.core == 0 && !g.saved).flatMap (fun g => g.waiters true 7 0 .add .i32 1 0) = [] ∧
    ((at0 (gAt 4)).groups.filter fun g => g.core == 0 && !g.saved).flatMap (fun g => g.waiters true (lineOf 0 0x10000) 0 .add .n32 5 0) =
      .lane (gAt 4) (le0 (wAt 4) [done0, at31]) at31 false { ctl0 with scope := 4 } :: [] := by
  refine ⟨?_, ?_, rfl, ?_, rfl⟩ <;> decide +kernel

/-- A gang launch of a member and of its coordinator. -/
def gang0 (coord : Bool) (d : Nat) : GangLaunch := { gid := 7, start := 20000000, coord, members := [1, 2], deadline := d }
def lGang (g : GangLaunch) : Launch := { l0 { wordDesc with policy := 2 } with gang := some g }
theorem witness_GangLaunches :
    ((sLaunch (lGang { gang0 false 0 with committed := true })).eligible (lGang { gang0 false 0 with committed := true }) = true) ∧
    ((lGang (gang0 false 0)).gang = some (gang0 false 0) ∧ ((sLaunch (lGang (gang0 false 0))).reservation (lGang (gang0 false 0))).isSome ∧
      (gang0 false 0).start = (20000000 : DWord).toNat) ∧
    ((gang0 true 10000000).deadline ≤ (sLaunch (lGang (gang0 true 10000000))).time ∧ (1 : BitVec 12) ∈ (gang0 true 0).members ∧ (1 : BitVec 12) ∉ (gang0 true 0).acked ∧
      ∀ m ∈ (gang0 true 0).members, m ∈ ({ gang0 true 0 with acked := [2, 1] } : GangLaunch).acked) ∧
    ((sLaunch (lGang (gang0 false 0))).time ≤ (gang0 false 0).start ∧ ({ gang0 false 0 with start := 0 } : GangLaunch).start ≤ (sLaunch (lGang (gang0 false 0))).time) ∧
    ((2 : BitVec 12) ∈ ({ gang0 false 0 with started := true } : GangLaunch).known ∧ (sLaunch (lGang (gang0 false 0))).peerLink 0 = false) := by decide +kernel
theorem witness_LinksAndReset : sTab.dev.nirusUp.getD 11 false = true ∧ sTab.diePart 0 = sTab.diePart 3 ∧ ({ sTab.dev with slowed := true } : Dev).slowed = true ∧
    (sTab.parts.map fun p => p.id).Nodup ∧ ((({ State.reset with dev := { boot := { verifies := true, svn := 1, minSvn := 1 } } } : State)).dev.boot.verifies = true) ∧
    (({ State.reset with dev := { boot := { verifies := true, svn := 0, minSvn := 1 } } } : State)).dev.boot.svn.toNat < (1 : Word).toNat := by decide +kernel
theorem witness_EncodeDecode : (Instr.sadd 255 0 128).wf ∧ encodeScalar (.sadd 255 0 128) = some 0x00FF0080 ∧ (Instr.vadd .n64 false 0 252 (.v 2) (.s 4)).wf ∧
    (encodeLane (.vadd .n64 false 0 252 (.v 2) (.s 4))).isSome ∧ (Instr.mzero 15).wf ∧ (encodeMatrix (.mzero 15)).isSome := by decide +kernel
/-- The steps of StepRunsWord, on words that withFetchWord places. -/
theorem witness_StepRunsWord_scalar : (State.reset.withFetchWord 32 0x00040506).choose.here.isSome ∧
    ((State.reset.withFetchWord 32 0x00040506).choose.here.map fun p => p.2.1.pc) = some 0x10000 := by decide +kernel
theorem witness_StepRunsWord_lane : (State.reset.withFetchWord 96 0x600000088080090800140010).choose.hereLane.isSome := by decide +kernel
theorem witness_StepRunsWord_matrix : (State.reset.withFetchWord 64 0x3400000000000000).choose.cur = .stream 0 ∧
    ((State.reset.withFetchWord 64 0x3400000000000000).choose.team 0).isSome := by decide +kernel
def goesOn : Out → Bool
  | .next _ => true
  | _ => false
theorem witness_StepKeepsMemWf : State.reset.MemWf ∧ goesOn (step State.reset) = true ∧ goesOn (step (State.reset.withFetchWord 32 0x00040506)) = true :=
  ⟨MemWf_reset, by decide +kernel, by decide +kernel⟩

/-! More of the statements' clauses. -/

/-- A ladder whose rung descriptor is all zeros; a feed that waits in its array; a slot that holds item 0. -/
def sLadBad : State := { sLad with chip := Memory.setAll {} 0x10000 (leBytes 256 vLad ++ List.replicate 256 0) }
def frFeed : Fragment := { fr0 with wait := some (.feed 1 0x10000 2) }
def gFed : Group := { gFeed 2 with slot0 := some frFeed }
set_option maxRecDepth 100000 in
set_option exponentiation.threshold 3000 in
theorem witness_LadderWords_more :
    (Ready (.ladr 15 2) [2, 3] sLadBad gMem fr0 0 ∧ sLadBad.getBytes (sLadBad.who gMem) (gMem.pair 2).toNat 256 = .ok (leBytes 256 vLad) ∧
      sLadBad.rungDescs (sLadBad.who gMem) (leVal (leBytes 256 vLad)) (leVal (leBytes 256 vLad) / 2 ^ 160 % 2 ^ 3 + 1) 0 = .ok [0] ∧ rungDescOk 0 = false) ∧
    Ready (.lfeed 0 2 4) ([2, 3] ++ [4]) (sCtx (at0 gFed) (withLad open1)) gFed frFeed 0 ∧
    ((sCtx (at0 gFed) (withLad open1)).places ((at0 gFed).who gFed) 0x10000 4 .rd = .ok (ls 4) ∧ 0 < open1.capacity ∧
      ({ open1 with items := [(0, .retired)] } : Ladder).item (leVal ((at0 gFed).readLocs (ls 4))) = some .retired) ∧
    (∃ c st y, (at0 gFed).places ((at0 gFed).who gFed) 0x00FFFFFFFFFFFFF0 4 .rd = .error (.bad c st, y)) := by
  refine ⟨⟨⟨rfl, rfl, rfl, by decide, rfl⟩, okOf ?_, okOf ?_, ?_⟩, ⟨rfl, rfl, rfl, by decide, rfl⟩, ⟨rfl, by decide, rfl⟩, ⟨_, _, _, rfl⟩⟩ <;> decide +kernel
/-- Rungs that store a word, or a pair, at 0x10000 of the item; a rung above with a frame of two words. -/
def ladS (wide : Bool) : Ladder :=
  { st := .open_, capacity := 1, frames := 0x10000, results := 0x10000, rsz8 := wide
    rungs := [{ nostore := false, frame := 0, fill := 1, limit := 0, desc := {}, addr := 0 }, { nostore := false, frame := 2, fill := 1, limit := 0, desc := {}, addr := 0 }] }
def sStores (wide : Bool) : State := sCtx (at0 (gBody 1)) (withLad (ladS wide))
theorem witness_RungBodies_more : (∀ wide, Ready (.lret 0 2) [] (sStores wide) (gBody 1) (frB 1) 0 ∧ (sStores wide).copyBlocks ((sStores wide).who (gBody 1)) 0x10000 8 true = false) ∧
    (sStores false).places ((sStores false).who (gBody 1)) 0x10000 4 .wr = .ok (ls 4) ∧ (sStores true).places ((sStores true).who (gBody 1)) 0x10000 8 .wr = .ok (ls 8) ∧
    (∀ p ∈ ls 8, (sStores true).isHeader p = false) ∧ (∃ rs, (sStores false).results (gBody 1) (ladS false) 2 [(0, 0)] = .ok rs) ∧
    (∃ rs, (sStores true).results (gBody 1) (ladS true) 2 [(0, 0)] = .ok rs) ∧ (2 % 2 = 0 ∧ 2 + 2 ≤ (gBody 1).vregs.length) ∧
    (∃ u, (ladS false).rung ((gBody 1).rungNo + 1) = some u ∧ u.frame = 2 ∧ 0 + u.frame ≤ (gBody 1).vregs.length) ∧
    (sStores false).places ((sStores false).who (gBody 1)) 0x10000 128 .wr = .ok ((List.range 128).map fun n => .glob 0 (0x10000 + n)) ∧ (sStores false).MemWf ∧
    sysScope (ladS false).scope = false := by
  refine ⟨fun w => by cases w <;> exact ⟨⟨rfl, rfl, rfl, by simp, rfl⟩, rfl⟩, rfl, rfl, by decide, ⟨_, rfl⟩, ⟨_, rfl⟩, by decide, ⟨_, rfl, rfl, by decide⟩, rfl, baseWf.same rfl rfl rfl rfl rfl, rfl⟩
/-- A closed ladder whose last arrivals came before, and in this nanosecond; the payload of item 0. -/
def ladC : Ladder := { ladP 9 with st := .closed, rungs := [{ nostore := true, frame := 0, fill := 32, limit := 9, desc := wordDesc, addr := 0, pend := [(0, 3, 0)] }] }
def sClose (now : Nat) : State := { sCtx base (withLad ladC) with time := now }
theorem witness_LadderEvents_more :
    (∃ u, (((sClose 6).ctx 0).ladder 0).rung 0 = some u ∧ (u.pend.all fun p => decide (p.2.1 < 6)) = true ∧ (((sClose 6).ctx 0).ladder 0).liveBelow 0 = false ∧
      u.packs (sClose 6).time true = some (false, 1)) ∧
    (∃ u, (((sClose 3).ctx 0).ladder 0).rung 0 = some u ∧ (u.pend.all fun p => decide (p.2.1 < 3)) = false) ∧
    ((ladS false).rung 1 = some { nostore := false, frame := 2, fill := 1, limit := 0, desc := {}, addr := 0 } ∧ 1 < g0.vregs.length ∧ 0 < (g0.vregs.getD 1 []).length ∧
      ([0] : List Nat)[0]? = some 0 ∧ (at0 g0).places ((at0 g0).who g0) ((ladS false).frames + 128 * 0 + 16 + 4 * 1) 4 .rd = .ok ((List.range 4).map fun n => .glob 0 (0x10014 + n)) ∧
      (at0 g0).frameWait ((at0 g0).who g0) (ladS false) [0] = none) := by
  refine ⟨⟨_, rfl, by decide, by decide, by decide⟩, ⟨_, rfl, by decide⟩, rfl, by decide, by decide, rfl, rfl, rfl⟩

def gAsleep (at_ : Option Nat) : Group := { gPark (.svc 0 7 1 0x10000) at_ with slot0 := some { fr0 with wait := some (.sleep 9) } }
theorem witness_MailAndServices_park : (gPark (.svc 0 7 1 0x10000) none).loads = [] ∧
    ((gAsleep none).parkAt = none ∧ (gAsleep none).slot0 = some { fr0 with wait := some (.sleep 9) }) ∧
    ((gAsleep (some 0)).parkAt.isSome ∧ (gAsleep (some 0)).saved = false ∧ (gAsleep (some 0)).slot0 = some { fr0 with wait := some (.sleep 9) }) :=
  ⟨rfl, ⟨rfl, rfl⟩, rfl, rfl, rfl⟩
/-- A descriptor of a rung, one whose CORES grid needs two dies, one whose counter does not exist, one whose counter reads 0, and a context and
a partition that are full. -/
def dDep (va : Nat) : Nat := dPlain + va * 2 ^ 768
set_option maxRecDepth 100000 in
set_option exponentiation.threshold 3000 in
theorem witness_LaunchWord_answers :
    (descOk 0 = false ∧ (parseDesc dRung).rung = true ∧ descOk dPlain = true ∧ (parseDesc dPlain).rung = false ∧ (parseDesc dPlain).cores = false) ∧
    ((parseDesc (dPlain + 2 ^ 384 + (2 ^ 20) * 2 ^ 128)).cores = true ∧ coresFit [0] 0 (parseDesc (dPlain + 2 ^ 384 + (2 ^ 20) * 2 ^ 128)) = false) ∧
    (descOk (dDep 0x20000000) = true ∧ (parseDesc (dDep 0x20000000)).depctr ≠ 0 ∧ ∃ e, (sDev base).getVa ((sDev base).ctx 0).device 0x20000000 4 = .error e) ∧
    ((parseDesc (dDep 0x10000)).depctr = 0x10000 ∧ ((sDev base).getVa ((sDev base).ctx 0).device 0x10000 4).toOption = some [0, 0, 0, 0]) ∧
    (((sDesc.launches.filter fun l => l.cid == 0 && l.ladder.isNone).length < 4096) ∧ (sDesc.launches.filter fun l => l.cid / 1024 == 0).length < 65536) ∧
    ((List.replicate 4096 (l0 wordDesc)).filter fun l => l.cid == 0 && l.ladder.isNone).length = 4096 := by
  refine ⟨?_, ?_, ⟨?_, ?_, _, rfl⟩, ?_, ?_, ?_⟩
  · decide +kernel
  · decide +kernel
  · decide +kernel
  · decide +kernel
  · decide +kernel
  · decide +kernel
  · rw [List.filter_replicate_of_pos rfl]; exact List.length_replicate
/-- A launch that signals at 0x10000 and has a successor's counter there; charges of its arena. -/
def lSig : Launch := { l0 { wordDesc with signal := 0x10000, succ := [0x10000] } with ending := some .complete, charges := [(3, 7)] }
def lReady : Launch := { lDep with ready := true }
theorem witness_LaunchEvents_end :
    (lSig.msix = none ∧ lSig.desc.signal ≠ 0 ∧ (let reset := ((sLaunch lSig).hostRelease ((sLaunch lSig).ctx 0).aid).resetArenas lSig
      (reset.places ((sLaunch lSig).ctx 0).device lSig.desc.signal 8 .wr).toOption = some (ls 8) ∧ isHostGpa 0x10007 = false)) ∧
    wordDesc.signal = 0 ∧
    (((sLaunch lSig).places ((sLaunch lSig).ctx 0).device 0x10000 4 .at).toOption = some (ls 4) ∧ leVal ((sLaunch lSig).readLocs (ls 4)) = 0 ∧
      leVal ((holding (sLaunch lSig) [1]).readLocs (ls 4)) = 1 ∧ leVal ((holding (sLaunch lSig) [2]).readLocs (ls 4)) = 2) ∧
    ((sLaunch lSig).MemWf ∧ ((((ls 4).zip (leBytes 4 7)).map fun p => p.1.key).Nodup)) ∧
    ((sLaunch lReady).launch 9 = some lReady ∧ lReady.desc.depctr ≠ 0 ∧ lReady.started = false ∧ lReady.ending = none ∧ lReady.ready = true ∧
      ((holding (sLaunch lReady) [1]).getVa ((sLaunch lReady).ctx 0).device 0x10000 4).toOption = some [1, 0, 0, 0]) := by
  refine ⟨?_, ?_, ?_, ⟨⟨by decide, rfl, rfl, rfl, fun _ h => by cases h⟩, ?_⟩, ?_⟩ <;> decide +kernel
/-- A load and a store of the group that raise a cause late, with words that issued after them. -/
def gLater : Group := { gSt false with loads := [{ seq := 5, dst := 8, pair := false, locs := ls 4, pc := 0x10000, addr := 0x10000, after := 3 }], words := 9 }
theorem witness_TakingATrap_later :
    (gLater.loads.find? (fun l => l.seq == 5)).isSome ∧ gLater.later (.load 0 5) = some 6 ∧ (gLater.sbuf.find? fun b => b.seq == (st0 false).seq) = some (st0 false) ∧
    gLater.park = none ∧ gLater.saved = false ∧ g0.later (.scalar 0 0) = none := by decide
theorem witness_HandlerWords_action :
    (Ready (.syswr 62 2) [62, 63] (sHand []) (ghr []) fr0 0 ∧ (sHand []).lastOfNs = false) ∧
    (Ready (.syswr 62 2) [62, 63] { sHand [] with frac := 90000 } (ghr []) fr0 0 ∧ ({ sHand [] with frac := 90000 } : State).lastOfNs = true) :=
  ⟨⟨⟨rfl, rfl, rfl, by decide, rfl⟩, rfl⟩, ⟨rfl, rfl, rfl, by decide, rfl⟩, rfl⟩
theorem witness_LaneTraps : (gL 0x100).longOpen (cl0 0x100).uid = false ∧ (gL 0).longOpen 0 = false := ⟨rfl, rfl⟩

/-- Tensor words of a tensor of FP32 at 0x10000, whose lines are, or are not, in the L1. -/
def tensorAt (d : Tensor) : Tensor := BitVec.ofNat 512 (d.toNat + 0x10000)
def wTld : Instr := .vtld .f32 0 0 1 (.v 2) (.v 3) ctl0
def wTst : Instr := .vtst .f32 false 0 0 1 (.v 2) (.v 3) ctl0
def atT (d : Tensor) : State := sCtx atM (withTen d)
def entryT (i : Instr) (d : Tensor) (data : List Word) : LogEntry :=
  let e : LogEntry := { entryOf gM clM i (fun _ => (0, [])) with tn := d, lanes := [] }
  { e with lanes := [0, 31].map fun l => { lane := l, addr := (elemOps d 0 0 data).1, data := (elemOps d 0 0 data).2, spans := laneSpans e (elemOps d 0 0 data).1 (elemOps d 0 0 data).2, locs := [], stat := .service } }
set_option exponentiation.threshold 600 in
theorem witness_LaneMemoryIssue_tensor :
    let d := tensorAt (ten 1 false)
    (LaneReady wTld (atT d) gM frM 0 clM ∧ LaneReady wTst (atT d) gM frM 0 clM ∧ (atT d).tensor 0 0 = d ∧ clM.govOf wTld ≠ 0) ∧
    (tensorCheck d false ctl0 0x80000001 = false ∧ tensorCheck d true ctl0 0x80000001 = false ∧ tensorCheck 0 false ctl0 1 = true ∧ tensorCheck 0 true ctl0 1 = true ∧
      frM.inFence 0 = false ∧ gM.longOpen 0 = false) ∧
    (gM.heldByAcquire 0 = false ∧ (atT d).logFull 0 = false ∧ (atT d).requestsFull 0 4 = false ∧ (atT d).laneBlocked gM (entryT wTld d []) = false ∧
      (atT d).laneBlocked gM (entryT wTst d [0]) = false ∧ gM.olog = []) := by
  refine ⟨⟨⟨rfl, rfl, ?_, ?_⟩, ⟨rfl, rfl, ?_, ?_⟩, ?_, ?_⟩, ?_, ?_⟩ <;> decide +kernel
def reaches (r : LaneRes) (l : List Loc) : Bool := match r with | .ok x => x == l | _ => false
theorem reaches_ok {r : LaneRes} {l : List Loc} (h : reaches r l = true) : r = .ok l := by
  cases r <;> simp_all [reaches]
set_option exponentiation.threshold 600 in
theorem witness_LaneMemoryIssue_elements :
    let d := tensorAt (ten 1 false)
    (∀ x ∈ (entryT wTld d []).lanes, (atT d).laneReach gM (entryT wTld d []) x.addr x.data = .ok (ls 4) ∧ gM.readsBefore (entryT wTld d []).seq (ls 4) = false ∧
      (atT d).lateFault (ls 4) false = none) ∧
    (∀ x ∈ (entryT wTst d [0]).lanes, (atT d).laneReach gM (entryT wTst d [0]) x.addr x.data = .ok (ls 4) ∧
      (atT d).laneHeader (entryT wTst d [0]) ((atT d).laneVa gM (entryT wTst d [0]) x) (ls 4) = none) ∧
    ((atT d).inCache ((atT d).who gM) (.glob 0 0x10000) = false ∧ ∀ p ∈ ls 4, (l1At (atT d) 0x10000 .S).inCache ((atT d).who gM) p = true) ∧
    (tLoad d .f32 0 0 [0, 0, 0x80, 0x3F]).2 = 0 ∧ (tStore d .f32 false 0 0x3F800000).2 = 0 := by
  intro d
  have ld : ∀ x ∈ (entryT wTld d []).lanes, reaches ((atT d).laneReach gM (entryT wTld d []) x.addr x.data) (ls 4) = true := by decide +kernel
  have st : ∀ x ∈ (entryT wTst d [0]).lanes, reaches ((atT d).laneReach gM (entryT wTst d [0]) x.addr x.data) (ls 4) = true ∧
      (atT d).laneHeader (entryT wTst d [0]) ((atT d).laneVa gM (entryT wTst d [0]) x) (ls 4) = none := by decide +kernel
  exact ⟨fun x h => ⟨reaches_ok (ld x h), by decide, by decide +kernel⟩, fun x h => ⟨reaches_ok (st x h).1, (st x h).2⟩, by decide +kernel, by decide +kernel⟩

/-- A tile's element whose line is not in the L1, and is. -/
def dT : Tensor := tensorAt (ten 7 false)
def pT : List (Nat × Nat × Bool) := [(0x10000, 4, true)]
def sMrel : State := atS tS dT
set_option exponentiation.threshold 600 in
theorem witness_TileWords_lines : tPieces dT 0 0 false = some pT ∧ (sMrel.piecesPlaces (sMrel.teamWho tS) tS dT .rd pT).toOption = some (ls 4) ∧
    (sMrel.piecesPlaces (sMrel.teamWho tS) tS dT .wr pT).toOption = some (ls 4) ∧
    sMrel.tileWants (sMrel.teamWho tS) tS dT false pT (ls 4) = some (.gets 0 (lineOf 0 0x10000)) ∧
    (l1At sMrel 0x10000 .S).tileWants (sMrel.teamWho tS) tS dT false pT (ls 4) = none ∧ (l1At sMrel 0x10000 .M).tileWants (sMrel.teamWho tS) tS dT true pT (ls 4) = none ∧
    (∀ l ∈ ls 4, (l1At sMrel 0x10000 .M).isHeader l = false) := by decide +kernel
set_option exponentiation.threshold 600 in
/-- MREL in its core's L1, with the line and without it, and at the home. -/
theorem witness_StreamSync_add :
    (∀ sc ∈ [(0 : BitVec 5), 4], StreamReady (.mrel false 0 0 0 sc 5) sMrel tS) ∧ tS.stream.added = false ∧ (tFormat dT = 7 ∧ tStash dT = false) ∧
    (sMrel.piecesPlaces (sMrel.teamWho tS) tS dT .at pT).toOption = some (ls 4) ∧ (∀ l ∈ ls 4, sMrel.isHeader l = false) ∧ (tS.tileVas dT pT).headD 0 = 0x10000 ∧
    sMrel.inL1 (sMrel.teamWho tS) 0x10000 (sMrel.levelScope 0 0 0) (ls 4) = true ∧ sMrel.inL1 (sMrel.teamWho tS) 0x10000 (sMrel.levelScope 0 0 4) (ls 4) = false ∧
    sMrel.own (sMrel.teamWho tS) 0x10000 (ls 4).head? = .error (.getx 0 (lineOf 0 0x10000)) ∧
    (∃ s0, (l1At sMrel 0x10000 .M).own (sMrel.teamWho tS) 0x10000 (ls 4).head? = .ok s0) ∧
    ((barT { pending := true, phase := 1 }).stream.bars.getD 0 {}).effect = none := by
  refine ⟨?_, rfl, ?_, ?_, ?_, ?_, rfl, rfl, rfl, ⟨_, rfl⟩, rfl⟩
  · intro sc h
    simp only [List.mem_cons, List.not_mem_nil, or_false] at h
    rcases h with rfl | rfl <;> exact streamAt rfl rfl rfl
  all_goals decide +kernel
/-- A block that waits its turn, alone, busy, and behind one of its host. -/
def q0 (b : Bool) (h cid : Nat) : Queued := { host := h, cid, ev := .guardAccept (cmd []), seq := 0, busy := b }
def sTaking (b : Bool) : State := { sHost (guarded .offered) with dev := { (sHost id).dev with taking := some (q0 b 1 0) } }
def sQueue (qs : List Queued) : State := { sHost (guarded .offered) with dev := { (sHost id).dev with queue := qs } }
theorem witness_GuardCommands_busy : (sTaking true).dev.taking = some (q0 true 1 0) ∧ (q0 true 1 0).busy = true ∧ (sTaking true).dev.st = .running ∧
    (((sTaking true).lapsed 0).ctx 0).st ≠ .free ∧ ((sTaking false).dev.taking.isSome ∧ ∀ q, (sTaking false).dev.taking = some q → q.busy = false) ∧
    (sHost id).dev.taking = none := by
  refine ⟨rfl, rfl, rfl, by decide +kernel, ⟨rfl, fun q h => by cases h; rfl⟩, rfl⟩
theorem witness_SubmissionsAndHostLoss_queue :
    (blockCmd (.guardAccept (cmd [])) = some (cmd [], 3) ∧ blockCmd (.submitLaunch (subR 0 0)) = none ∧ blockSub (.submitLaunch (subR 0 0)) = some (subR 0 0, 0x20) ∧
      blockSub (.submitGang (subR 0 0)) = some (subR 0 0, 0x21)) ∧
    ((sHost id).arrives (.guardAccept (cmd []))).isSome ∧ ((sSub .guarded dPlain).arrives (.submitLaunch (subR 0 0))).isSome ∧
    ((sQueue []).dev.queue.filter fun q => q.host == 1).length < 64 ∧ ((sQueue (List.replicate 64 (q0 false 1 0))).dev.queue.filter fun q => q.host == 1).length = 64 ∧
    ((sQueue (List.replicate 16 (q0 false 2 0))).dev.queue.filter fun p => p.cid == 0 && p.bind.isNone).length = 16 ∧
    ((sQueue [q0 false 1 0, q0 false 2 1, q0 false 1 2]).ready 1 = true ∧ (sQueue [q0 false 1 0, q0 false 2 1, q0 false 1 2]).ready 2 = false) := by decide +kernel
theorem witness_SubmissionsAndHostLoss_binds :
    (sSub .guarded dPlain).pageBind (subR 0 0) = some { host := 1, page := 5, ctx := 0, prioMax := 0 } ∧ (sHost id).pageBind (subR 0 0) = none ∧
    ((subR 0 0).head.toNat % 256 = 1 ∧ { subR 0 0 with head := 2 }.head.toNat % 256 = 2) ∧
    (let s : State := { sHost leased with time := 0, frac := 90000 }
     ((s.ctx 0).clocks.find? (fun x => x.1 == 1) = some (1, 0) ∧ 0 + 2 * (s.ctx 0).lease * 1000000 = s.time ∧ s.lastOfNs = true)) := by decide +kernel
theorem witness_HostRegisters_time : ((sHost id).frac < 50000 ∧ (sHost id).dev.offset = 0 ∧ (sHost id).dev.slowed = false) ∧
    (50000000000 < ({ (sHost id).dev with offset := 60000000000 } : Dev).offset) ∧ (-1000000 ≤ (-7 : Int) ∧ (-2000000 : Int) < -1000000) ∧
    (({ (sHost id).dev with timeSrc := 1 } : Dev).timeSrc.getLsbD 3 = false ∧ ({ (sHost id).dev with timeSrc := 1 } : Dev).timeSrc.toNat % 8 ≠ 0) := by decide +kernel
theorem witness_HostRegisters_vectors : (sHost id).portOf 0 0 = true ∧ (sHost id).portOf 0 7 = false ∧ (7 < 8 ∧ 2047 < 2048) ∧
    ((sHost id).dev.vector 7 2047).masked = true ∧ ((sHost id).dev.vector 7 2047).pending = false ∧
    ((({ (sHost id).dev with vectors := [{ port := 7, vec := 2047, masked := false, pending := true }] } : Dev).vector 7 2047).masked = false) ∧
    ((({ (sHost id).dev with vectors := [{ port := 7, vec := 2047, masked := false, pending := true }] } : Dev).vector 7 2047).pending = true) ∧
    (sHost id).dev.portUp.getD 7 false = true ∧ ({} : Dev).portUp.getD 7 false = false := by decide +kernel
theorem witness_TranslationAndFills_device : sTab.dev.st = .running ∧ sTab.hostLive 1 = true ∧ (sTab.part (sTab.hostPart 1)).dies.contains (gpaHome 0x10000) = true ∧
    (∀ k < 3, sTab.fillFault ((sTab.part (sTab.hostPart 1)).id * 1024 + 0) (min (0x10000 + 128 * k) (0x10000 + 2 - 1)) true = some (.prot, true)) ∧
    (∀ k < 3, ({ sTab with s2 := [{ aid := 0, die := 0, gran := 1, frame := 5, w := true }] } : State).fillFault 0 (min (0x10000 + 128 * k) (0x10000 + 2 - 1)) true = none) := by
  decide +kernel
/-- A closed link of a line's home; a die's WB on its way; a transaction that waits for it, and one that is done. -/
def sWb (ts : List Txn) : State := { sL1 .M (dir0 .M .M 95 0) with work := [.wb 0 7], txns := ts }
def txnD (waiting : List Nat) : Txn := { home := sTab.lineHome 7, line := 7, asker := 0, excl := true, waiting }
theorem witness_DieMessages_links :
    (let s : State := { sTab with dev := { sTab.dev with fwclosed := [(sTab.lineHome 7, 3), (3, sTab.lineHome 7)] } }
     sTab.lineHome 7 ≠ 3 ∧ (sTab.lineHome 7, 3) ∈ s.dev.fwclosed ∧ (3, sTab.lineHome 7) ∈ s.dev.fwclosed ∧ (0, 1) ∉ s.dev.fwclosed) ∧
    (Ev.wb 0 7 ∈ (sWb []).work ∧ ((sWb []).dirOf 0 7).gst = .M ∧ (0, sTab.lineHome 7) ∉ (sWb []).dev.fwclosed) ∧
    ((sWb [txnD [0]]).txns.find? (fun t => t.line == 7 && t.waiting.contains 0) = some (txnD [0])) ∧
    ((∀ t ∈ (sWb [txnD [1]]).txns, t.line = 7 ∧ 0 ∉ t.waiting)) ∧
    ((txnD []).waiting = [] ∧ ∃ u, (sWb [txnD []]).dieRoom 0 7 = .ok u) ∧
    (sL1 .E (dir0 .E .E 95 0)).l1St 95 7 = .E := by
  refine ⟨by decide +kernel, by decide +kernel, by decide +kernel, by decide +kernel, ⟨rfl, _, rfl⟩, by decide +kernel⟩
theorem witness_HomeMessages_links :
    (let s : State := { sTab with dev := { sTab.dev with fwclosed := [(0, 1)] } }; (0, 1) ∈ s.dev.fwclosed ∧ (1, 0) ∉ s.dev.fwclosed) ∧
    (Ev.wb 0 7 ∈ (sWb [txnD [0]]).work ∧ (sWb [txnD [0]]).txns.find? (fun t => t.line == 7 && t.excl == true && t.waiting.contains 0) = some (txnD [0])) ∧
    (∀ d ∈ snoopTargets (reg0 0 [0, 0, 0, 0]) 1 true false, d = 0 ∨ d = 1) ∧ (∃ d ∈ snoopTargets (reg0 0 [0, 0, 2, 0]) 1 true false, d ≠ 0 ∧ d ≠ 1) ∧
    (∃ u, sTab.dieRoom 0 7 = .ok u) ∧ sTab.fillFault (lineAid 7) (lineGpa 7) true = some (.page, true) := by
  refine ⟨by decide +kernel, by decide +kernel, by decide +kernel, by decide +kernel, ⟨_, rfl⟩, by decide +kernel⟩
/-- An MREL that waits for the home. -/
def tAdd : Team := { tS with stream := { tS.stream with adding := some (ls 4, 5, 4) } }
theorem witness_HomeMessages_mrel : tAdd.waiters true (lineOf 0 0x10000) 0 .add .i32 5 0 = [.mrel tAdd (ls 4) 5] := rfl
theorem witness_LinksAndReset_stages : (State.reset.dev.st = .reset) ∧ ({ State.reset.dev with st := .secureBoot } : Dev).st = .secureBoot ∧
    (State.reset.dev.boot.verifies = true ∧ State.reset.dev.boot.minSvn.toNat ≤ State.reset.dev.boot.svn.toNat) ∧
    ({ State.reset.dev.boot with images := [(true, 2)] } : Boot).images = (true, 2) :: [] := by decide
/-- A step in which an event takes place, and one that decides a block; a stream that has held its word. -/
def sTurn (a : Agent) : State := { sQueue [q0 false 1 0] with agenda := [a] }
theorem witness_StepRunsWord_events :
    ((sTurn (.event .deviceReset)).choose.cur = .event .deviceReset ∧ goesOn (runEv .deviceReset (sTurn (.event .deviceReset)).choose) = true) ∧
    ((sTurn (.decide 0)).choose.cur = .decide 0 ∧ (sTurn (.decide 0)).choose.dev.queue[0]? = some (q0 false 1 0) ∧
      goesOn (runEv (q0 false 1 0).ev { (sTurn (.decide 0)).choose with dev := { (sTurn (.decide 0)).choose.dev with taking := some (q0 false 1 0) } }) = true) ∧
    ({ tS.stream with held := some (0x3400000000000000, 0) } : Stream).held = some (0x3400000000000000, 0) ∧ tS.stream.held = none := by
  refine ⟨⟨rfl, by decide +kernel⟩, ⟨rfl, rfl, by decide +kernel⟩, rfl, rfl⟩

/-! ## Words written out from the spec's encodings decode to the instructions they stand for -/

/-- Every word of a list decodes to the instruction beside it. -/
def readsScalar (ps : List (Word × Instr)) : Bool := ps.all fun p => decide ((decodeScalar p.1).toOption = some p.2)
def readsLane (ps : List (LaneWord × Instr)) : Bool := ps.all fun p => decide ((decodeLane p.1).toOption = some p.2)
def readsMatrix (ps : List (DWord × Instr)) : Bool := ps.all fun p => decide ((decodeMatrix p.1).toOption = some p.2)

/-- Words of R97-R100, R102: d in bits 23:16, a in 15:8, b in 7:0. -/
theorem words_register :
    readsScalar [
      (0x00040506, .sadd 4 5 6), (0x01040506, .ssub 4 5 6), (0x02040506, .smul 4 5 6),
      (0x03040506, .smulhi 4 5 6), (0x04040506, .smulhn 4 5 6), (0x06040506, .sdivi 4 5 6),
      (0x07040506, .sdivn 4 5 6), (0x08040506, .sremi 4 5 6), (0x09040506, .sremn 4 5 6),
      (0x0A040506, .sand 4 5 6), (0x0B040506, .sor 4 5 6), (0x0C040506, .sxor 4 5 6),
      (0x0D040506, .sandn 4 5 6), (0x0E040506, .sshl 4 5 6), (0x0F040506, .sshr 4 5 6),
      (0x10040506, .ssra 4 5 6), (0x11040506, .srot 4 5 6), (0x12040506, .smini 4 5 6),
      (0x13040506, .sminn 4 5 6), (0x14040506, .smaxi 4 5 6), (0x15040506, .smaxn 4 5 6),
      (0x19040506, .sceq 4 5 6), (0x1A040506, .scne 4 5 6), (0x1B040506, .sclti 4 5 6),
      (0x1C040506, .scltn 4 5 6), (0x1D040506, .sclei 4 5 6), (0x1E040506, .sclen 4 5 6),
      (0x05040206, .smulw 4 2 6), (0x1F040206, .saddp 4 2 6), (0x20040206, .ssubp 4 2 6),
      (0x21040206, .sshlp 4 2 6), (0x22040206, .sshrp 4 2 6), (0x16040500, .sclz 4 5),
      (0x17040500, .spopc 4 5), (0x18040500, .sbrev 4 5), (0x58040500, .smov 4 5)] = true := by decide +kernel
/-- Words of R101. -/
theorem words_immediate :
    readsScalar [
      (0x40C88001, .smovi 200 0x8001), (0x41C88001, .smovhi 200 0x8001), (0x42C88001, .saddi 200 0x8001),
      (0x43C88001, .sandi 200 0x8001), (0x44C88001, .sori 200 0x8001), (0x45C88001, .sxori 200 0x8001),
      (0x49C88001, .sceqi 200 0x8001), (0x4AC88001, .scltis 200 0x8001), (0x4BC88001, .scltin 200 0x8001),
      (0x46C8001E, .sshli 200 30), (0x47C8001E, .sshri 200 30), (0x48C8001E, .ssrai 200 30)] = true := by decide +kernel
/-- Words of R102-R109. -/
theorem words_control :
    readsScalar [
      (0x59090301, .smovx 9 0x301), (0x59098301, .smovxW 9 0x301), (0x5A09000C, .sget 9 12),
      (0x5B09000D, .sset 9 13), (0x6009FFFE, .brz 9 0xFFFE), (0x6109FFFE, .brnz 9 0xFFFE),
      (0x6209FFFE, .brany 9 0xFFFE), (0x6309FFFE, .brall 9 0xFFFE), (0x6409FFFE, .brnone 9 0xFFFE),
      (0x6500FFFE, .jmp 0xFFFE), (0x6608FFFE, .call 8 0xFFFE), (0x67000800, .ret 8),
      (0x68000800, .jmpr 8), (0x69000000, .exit), (0x6A000000, .nop),
      (0x6B00FFFE, .sleep 0xFFFE)] = true := by decide +kernel
/-- Words of R118-R135: masks, clauses, splits and joins. -/
theorem words_masks :
    readsScalar [
      (0x7009C800, .mfrom 9 200), (0x71C80900, .mto 200 9), (0x72090203, .mand 9 2 3),
      (0x73090203, .mor 9 2 3), (0x74090203, .mxor 9 2 3), (0x75090203, .mandn 9 2 3),
      (0x76090200, .mnot 9 2), (0x77C80900, .mpopc 200 9), (0x78C80900, .mfirst 200 9),
      (0x79000900, .exset 9), (0x79000001, .exsetAll), (0x7A090200, .exsave 9 2),
      (0x7B00FFFE, .lrun 0xFFFE), (0x7C000801, .fwait 0x801), (0x7DC80801, .ftest 200 0x801),
      (0x8009C800, .split 9 200), (0x81050900, .jset 5 9), (0x82050000, .join 5),
      (0x8305C807, .jsave 5 200 7), (0x8405C807, .jload 5 200 7), (0x85C80200, .fragq 200 2)] = true := by decide +kernel
/-- Words of R60, R110-R117, R195-R211, R240-R249: barriers, scalar memory, copies, tables. -/
theorem words_memory :
    readsScalar [
      (0x88000219, .bara 9 33), (0x89000009, .barw 9), (0x8A000219, .baraw 9 33),
      (0x8B000603, .cbara 3 384), (0x8C000003, .cbarw 3), (0x8D000005, .fence 5),
      (0x8EC80000, .rdv 200), (0x8F1FC807, .scpset 31 200 7), (0x9004C807, .sld32 4 200 7),
      (0x9104C807, .sld64 4 200 7), (0x9204C807, .sst32 4 200 7), (0x9304C807, .sst64 4 200 7),
      (0x9404C807, .saadd 4 200 7), (0x9504C807, .samin 4 200 7), (0x9604C807, .samax 4 200 7),
      (0x9704C807, .saand 4 200 7), (0x9804C807, .saor 4 200 7), (0x9904C807, .saxor 4 200 7),
      (0x9A04C807, .saxch 4 200 7), (0x9B04C807, .sacas 4 200 7), (0x9F000025, .ord .acq 5),
      (0xA004C806, .cpy 4 200 6), (0xA1050000, .cseal 5), (0xA2050000, .cwait 5),
      (0xA3C80500, .cpoll 200 5), (0xA404C806, .smap 4 200 6), (0xA5C80000, .sunmap 200),
      (0xA604C806, .rget 4 200 6), (0xA704C806, .rput 4 200 6), (0xA8FFC807, .tdset 255 200 7),
      (0xA9FFC807, .tdget 255 200 7), (0xAA04C807, .mfork 4 200 7)] = true := by decide +kernel
/-- Words of R221-R237, R256-R282 and R354-R357: objects, ladders, mail, launches, the handler. -/
theorem words_system :
    readsScalar [
      (0xB004C800, .new 4 200), (0xB004C801, .newLong 4 200), (0xB104C807, .stref 4 200 7),
      (0xB204C897, .ldref 4 200 9 7), (0xB305C800, .publ 5 200), (0xB404C800, .ispub 4 200),
      (0xB50400C8, .qgetUse 4 200), (0xB50402C8, .qgetLim 4 200), (0xC009C800, .ladr 9 200),
      (0xC109C806, .lfeed 9 200 6), (0xC2090000, .lclose 9), (0xC309C800, .esc 9 200),
      (0xC409C800, .lret 9 200), (0xC50409C8, .lwait 4 9 200), (0xC604C83F, .mbsend 4 200 63),
      (0xC604C8BF, .mbsendTrap 4 200 63), (0xC704003F, .mbrecv 4 63), (0xC804003F, .mbpoll 4 63),
      (0xC904C800, .launch 4 200), (0xD0C88001, .svc 200 0x8001), (0xD1008001, .trap 0x8001),
      (0xD2008001, .brk 0x8001), (0xD3030000, .tret 3), (0xD404C800, .wrd 4 200),
      (0xD50004C8, .wwr 4 200), (0xD604C800, .wsplR 4 200), (0xD604C801, .wsplW 4 200),
      (0xD704000B, .sysrd 4 11), (0xD804000B, .syswr 4 11)] = true := by decide +kernel
/-- Lane words of R139-R144 at OPC 0x000-0x019. -/
theorem words_lane_integer :
    readsLane [
      (0x00292107#32 ++ 0xFFE40400#32 ++ 0x00000000#32, .vadd .n16x2 true 9 7 (.s 1023) .item),
      (0x00692107#32 ++ 0xFFE40400#32 ++ 0x00000000#32, .vsub .n16x2 true 9 7 (.s 1023) .item),
      (0x00A92107#32 ++ 0xFFE40400#32 ++ 0x00000000#32, .vmul .n16x2 true 9 7 (.s 1023) .item),
      (0x00C52007#32 ++ 0x00200800#32 ++ 0x00000000#32, .vmulhi .n32 9 7 (.v 1) (.v 2)),
      (0x01092006#32 ++ 0x00401000#32 ++ 0x81000000#32, .vmad .i64 false 9 6 (.v 2) (.v 4) (.s 8)),
      (0x01712007#32 ++ 0x00200800#32 ++ 0x00000000#32, .vmin .n8x4 9 7 (.v 1) (.v 2)),
      (0x01B12007#32 ++ 0x00200800#32 ++ 0x00000000#32, .vmax .n8x4 9 7 (.v 1) (.v 2)),
      (0x01ED2107#32 ++ 0x00200000#32 ++ 0x00000000#32, .vabs .i8x4 true 9 7 (.v 1)),
      (0x022D2107#32 ++ 0x00200000#32 ++ 0x00000000#32, .vneg .i8x4 true 9 7 (.v 1)),
      (0x02752007#32 ++ 0x00200800#32 ++ 0x00000000#32, .vand .b32 9 7 (.v 1) (.v 2)),
      (0x02B52007#32 ++ 0x00200800#32 ++ 0x00000000#32, .vor .b32 9 7 (.v 1) (.v 2)),
      (0x02F52007#32 ++ 0x00200800#32 ++ 0x00000000#32, .vxor .b32 9 7 (.v 1) (.v 2)),
      (0x03352007#32 ++ 0x00200800#32 ++ 0x00000000#32, .vandn .b32 9 7 (.v 1) (.v 2)),
      (0x034F2006#32 ++ 0x00000000#32 ++ 0x80000000#32, .vnot .n64 9 6 (.imm 0x80000000)),
      (0x03B52007#32 ++ 0x00200800#32 ++ 0x00000000#32, .vshl .b32 9 7 (.v 1) (.v 2)),
      (0x03F52007#32 ++ 0x00200800#32 ++ 0x00000000#32, .vshr .b32 9 7 (.v 1) (.v 2)),
      (0x04352007#32 ++ 0x00200800#32 ++ 0x00000000#32, .vsra .b32 9 7 (.v 1) (.v 2)),
      (0x04752007#32 ++ 0x00200800#32 ++ 0x00000000#32, .vrot .b32 9 7 (.v 1) (.v 2)),
      (0x04B52007#32 ++ 0x00200000#32 ++ 0x00000000#32, .vclz .b32 9 7 (.v 1)),
      (0x04F52007#32 ++ 0x00200000#32 ++ 0x00000000#32, .vpopc .b32 9 7 (.v 1)),
      (0x05032007#32 ++ 0x00200800#32 ++ 0xFFFFFFFF#32, .vbfx .i32 9 7 (.v 1) (.v 2) (.imm 0xFFFFFFFF)),
      (0x05752007#32 ++ 0x00200800#32 ++ 0x20000000#32, .vbfi .b32 9 7 (.v 1) (.v 2) .laneid),
      (0x0585250F#32 ++ 0x00200800#32 ++ 0x00000000#32, .vcmp .n32 .ge 9 15 (.v 1) (.v 2)),
      (0x05F52507#32 ++ 0x00200800#32 ++ 0x00000000#32, .vsel .b32 5 9 7 (.v 1) (.v 2)),
      (0x060F2006#32 ++ 0x00000000#32 ++ 0x80000000#32, .vmov .n64 9 6 (.imm 0x80000000)),
      (0x06452007#32 ++ 0x00200800#32 ++ 0x00000000#32, .viota .n32 9 7 (.v 1) (.v 2))] = true := by decide +kernel
/-- Lane words of R145-R155 at OPC 0x080-0x092 and 0x100-0x104. -/
theorem words_lane_float :
    readsLane [
      (0x20112007#32 ++ 0x00200800#32 ++ 0x00000000#32, .vfadd .f32 9 7 (.v 1) (.v 2)),
      (0x20512007#32 ++ 0x00200800#32 ++ 0x00000000#32, .vfsub .f32 9 7 (.v 1) (.v 2)),
      (0x20912007#32 ++ 0x00200800#32 ++ 0x00000000#32, .vfmul .f32 9 7 (.v 1) (.v 2)),
      (0x20DB2007#32 ++ 0x00200800#32 ++ 0x3F800000#32, .vfma .bf16x2 9 7 (.v 1) (.v 2) (.imm 0x3F800000)),
      (0x21112007#32 ++ 0x00200800#32 ++ 0x00000000#32, .vfmin .f32 9 7 (.v 1) (.v 2)),
      (0x21512007#32 ++ 0x00200800#32 ++ 0x00000000#32, .vfmax .f32 9 7 (.v 1) (.v 2)),
      (0x21952007#32 ++ 0x00200000#32 ++ 0x00000000#32, .vfabs .f16x2 9 7 (.v 1)),
      (0x21D52007#32 ++ 0x00200000#32 ++ 0x00000000#32, .vfneg .f16x2 9 7 (.v 1)),
      (0x2211260F#32 ++ 0x00200800#32 ++ 0x00000000#32, .vfcmp .f32 .un 9 15 (.v 1) (.v 2)),
      (0x22512007#32 ++ 0x00200800#32 ++ 0x00000000#32, .vfdiv .f32 9 7 (.v 1) (.v 2)),
      (0x22952007#32 ++ 0x00200000#32 ++ 0x00000000#32, .vfsqrt .f16x2 9 7 (.v 1)),
      (0x22D52007#32 ++ 0x00200000#32 ++ 0x00000000#32, .vfrcp .f16x2 9 7 (.v 1)),
      (0x23152007#32 ++ 0x00200000#32 ++ 0x00000000#32, .vfrsq .f16x2 9 7 (.v 1)),
      (0x23552007#32 ++ 0x00200000#32 ++ 0x00000000#32, .vfexp2 .f16x2 9 7 (.v 1)),
      (0x23952007#32 ++ 0x00200000#32 ++ 0x00000000#32, .vflog2 .f16x2 9 7 (.v 1)),
      (0x23D52007#32 ++ 0x00200000#32 ++ 0x00000000#32, .vfsinp .f16x2 9 7 (.v 1)),
      (0x24152007#32 ++ 0x00200000#32 ++ 0x00000000#32, .vfcosp .f16x2 9 7 (.v 1)),
      (0x24552007#32 ++ 0x00200000#32 ++ 0x00000000#32, .vftanh .f16x2 9 7 (.v 1)),
      (0x24952B07#32 ++ 0x00200000#32 ++ 0x00000000#32, .vfrnd .f16x2 .rup true 9 7 (.v 1)),
      (0x40100803#32 ++ 0x00E00000#32 ++ 0x00000087#32, .vcvt .f32 .e4m3x4 .rm true 0 2 0 3 (.v 7)),
      (0x405C0803#32 ++ 0x00200800#32 ++ 0x00000014#32, .vpack .e4m3x4 .f32 .rm true true 0 3 (.v 1) (.v 2)),
      (0x40AC0204#32 ++ 0x00200000#32 ++ 0x00000010#32, .vunpk .i8x4 .i32 .rtz false true 0 4 (.v 1)),
      (0x40F80004#32 ++ 0x00200800#32 ++ 0x80A00065#32, .vq4n .f16x2 6 0 4 (.v 1) (.v 2) (.s 5)),
      (0x413C0104#32 ++ 0x00200800#32 ++ 0x0000010B#32, .vt3p .i8x4 16 true 0 4 (.v 1) (.v 2))] = true := by decide +kernel
/-- Lane words of R157-R170, R181, R222, R229 (its worked example among them). -/
theorem words_lane_memory :
    readsLane [
      (0x50372307#32 ++ 0x00200000#32 ++ 0x00000010#32, .vshuf .b32 .xor 9 7 (.v 1) (.imm 16)),
      (0x504D2006#32 ++ 0x00501400#32 ++ 0x00000000#32, .vbcst .n64 9 6 (.v 2) (.s 5)),
      (0x50912807#32 ++ 0x00200000#32 ++ 0x00000000#32, .vreds .f32 .fmax 9 7 (.v 1)),
      (0x50C13007#32 ++ 0x00200000#32 ++ 0x00000000#32, .vscan .i32 .add true 9 7 (.v 1)),
      (0x5135220F#32 ++ 0x00200000#32 ++ 0x00000000#32, .vvote .b32 .all 9 15 (.v 1)),
      (0x51752007#32 ++ 0x00200000#32 ++ 0x00000000#32, .vmatch .b32 9 7 (.v 1)),
      (0x60012008#32 ++ 0x80800B94#32 ++ 0x001FFFFF#32, .vld .i32 9 8 { base := .s 4, index := some (.v 2), scale := 3, sidx := true, off := 0x1FFFF } { fb := true, scope := 6, order := .acq, width := 1 }),
      (0x604D2008#32 ++ 0x808008EC#32 ++ 0x001FFFFF#32, .vst .n64 9 8 { base := .s 4, index := some (.v 2), scale := 3, sidx := true, off := 0x1FFFF } { fb := false, scope := 3, order := .rel, width := 3 }),
      (0x60B52008#32 ++ 0x00A00291#32 ++ 0x89A00010#32, .vlds .b32 9 8 { base := .v 5, index := none, scale := 0, sidx := false, off := 16 } { fb := true, scope := 2, order := .acq, width := 0 } (some (.s 77))),
      (0x60F52008#32 ++ 0x00A00068#32 ++ 0x00000010#32, .vsts .b32 9 8 { base := .v 5, index := none, scale := 0, sidx := false, off := 16 } { fb := false, scope := 1, order := .rel, width := 2 }),
      (0x61113800#32 ++ 0x80800938#32 ++ 0x007FFFFF#32, .vatom .f32 .fadd true false 9 0 { base := .s 4, index := some (.v 2), scale := 3, sidx := true, off := 0x1FFFF } (.v 3) { fb := false, scope := 4, order := .ar, width := 2 }),
      (0x61752100#32 ++ 0x80800900#32 ++ 0x001FFFFF#32, .vprf true 9 { base := .s 4, index := some (.v 2), scale := 3, sidx := true, off := 0x1FFFF } { fb := false, scope := 4, order := .rlx, width := 0 }),
      (0x618F2104#32 ++ 0x00000200#32 ++ 0x00001000#32, .vnew true true 9 4 (.imm 4096)),
      (0x61CC0004#32 ++ 0x8140090C#32 ++ 0x001C0000#32, .vstref 0 4 { base := .s 10, index := some (.v 2), scale := 3, sidx := false, off := 0 } { fb := false, scope := 4, order := .rlx, width := 3 }),
      (0x620D2608#32 ++ 0x80800B5C#32 ++ 0x001FFFFF#32, .vldref 6 9 8 { base := .s 4, index := some (.v 2), scale := 3, sidx := true, off := 0x1FFFF } { fb := true, scope := 5, order := .acq, width := 3 }),
      (0x78112008#32 ++ 0x00300B58#32 ++ 0x000000FF#32, .vtld .f32 255 9 8 (.v 1) (.s 2) { fb := true, scope := 5, order := .acq, width := 2 }),
      (0x78412108#32 ++ 0x00300968#32 ++ 0x000000FF#32, .vtst .i32 true 255 9 8 (.v 1) (.s 2) { fb := false, scope := 5, order := .rel, width := 2 })] = true := by decide +kernel
/-- Matrix words of R68, R69 with the fields of R185-R196. -/
theorem words_matrix :
    readsMatrix [
      (0x0070C84100802403, .mlda 7 { tn := 200, ka := 4, kb := 1, off0 := 0x802, off1 := 0x403 }), (0x0100C84100802403, .mldb { tn := 200, ka := 4, kb := 1, off0 := 0x802, off1 := 0x403 }), (0x02F0C84100802403, .mst 15 { tn := 200, ka := 4, kb := 1, off0 := 0x802, off1 := 0x403 }),
      (0x03F0C84100802403, .mldc 15 { tn := 200, ka := 4, kb := 1, off0 := 0x802, off1 := 0x403 }), (0x04F0000000000000, .mzero 15), (0x10F7C84101802403, .mma 15 7 true { tn := 200, ka := 4, kb := 1, off0 := 0x802, off1 := 0x403 }),
      (0x11F7C84100802403, .mmaz 15 7 false { tn := 200, ka := 4, kb := 1, off0 := 0x802, off1 := 0x403 }), (0x20F0000000800001, .mkset 15 0x800001), (0x20F0000001000081, .mksetH 15 0x81),
      (0x21F0000000800001, .mkadd 15 0x800001), (0x21F3000001800001, .mkaddReg 15 3 0x800001), (0x22F3000000801000, .mloop 15 3 0x801 0),
      (0x22F0000000001801, .mloop 15 0 1 0x801), (0x2300000000000000, .mend), (0x30F0000000000000, .mbara 15),
      (0x31F0000000000000, .mbarw 15), (0x3200C841001F8001, .mrel false 200 4 1 31 0x8001), (0x3200000001050000, .mrel true 0 0 0 5 0),
      (0x3300000000000000, .mrdv), (0x3400000000000000, .mnop), (0x3500000000008001, .mtrap 0x8001)] = true := by decide +kernel
/-- The words that the spec itself writes out beside their instructions (R103-R104, R122, R125-R129, R178, R182, R256-R282, R143, R145, R162). -/
theorem words_examples : readsScalar [(0x40145678, .smovi 20 0x5678), (0x41141234, .smovhi 20 0x1234), (0x590302BC, .smovx 3 700), (0x590382BC, .smovxW 3 700),
      (0x5A060009, .sget 6 9), (0x5B03000C, .sset 3 12), (0x7C000004, .fwait 4), (0x72030102, .mand 3 1 2), (0x78070300, .mfirst 7 3), (0x7A050200, .exsave 5 2),
      (0x80021400, .split 2 20), (0x81010000, .jset 1 0), (0xA8020201, .tdset 2 2 1), (0xAA070400, .mfork 7 4 0), (0xC0030400, .ladr 3 4), (0xC2030000, .lclose 3),
      (0xC3020400, .esc 2 4), (0xC4000600, .lret 0 6), (0xC509030A, .lwait 9 3 10), (0xC6090A8C, .mbsendTrap 9 10 12), (0xC70C000C, .mbrecv 12 12),
      (0xC9090200, .launch 9 2), (0xD0080007, .svc 8 7), (0xD1000055, .trap 0x55)] = true ∧
    readsLane [(0x05820203#32 ++ 0x00200000#32 ++ 0#32, .vcmp .i32 .lt 0 3 (.v 1) (.imm 0)),
      (0x20D0000A#32 ++ 0x00801400#32 ++ 0x00C00000#32, .vfma .f32 0 10 (.v 4) (.v 5) (.v 6)),
      (0x60000008#32 ++ 0x80800908#32 ++ 0x00140010#32, .vld .i32 0 8 { base := .s 4, index := some (.v 2), scale := 2, sidx := false, off := 16 }
        { fb := false, scope := 4, order := .rlx, width := 2 })] = true := by decide +kernel
/-- R55, R58, R60, R63-R69: a reserved bit set, an unassigned opcode, a bad operand or a bad modifier is refused. -/
theorem words_refused :
    ([0x30000000, 0xFF000000, 0x28040501, 0x6A010000, 0x9F000080, 0xB3200200, 0x7A100100, 0x88000400].all fun w =>
      decide ((decodeScalar w).toOption = none)) = true ∧
    ([0x06800000#32 ++ 0#32 ++ 0#32, 0x00001F03#32 ++ 0x00200800#32 ++ 0#32, 0x00000003#32 ++ 0x1FE00800#32 ++ 0#32,
      0x00000003#32 ++ 0x40000000#32 ++ 0#32, 0x00000003#32 ++ 0x00200800#32 ++ 1#32, 0xFFC00000#32 ++ 0#32 ++ 0#32].all fun w =>
      decide ((decodeLane w).toOption = none)) = true ∧
    ([0x0500000000000000, 0x3400000000000001, 0x0480000100000000, 0x1010000002000000, 0x3610000000000000].all fun w =>
      decide ((decodeMatrix w).toOption = none)) = true := by decide +kernel

/-! ## An ill-formed term for each check, which the check refuses -/

def gctl : LCtl := { fb := false, scope := 4, order := .rlx, width := 2 }
def gad : LAddr := { base := .s 4, index := none, scale := 0, sidx := false, off := 0 }
def til : Tile := { tn := 5, ka := 4, kb := 1, off0 := 2, off1 := 3 }

/-- Odd pairs of scalar registers (R37, R56). -/
theorem illFormed_pairs : [Instr.smulw 1 0 0, .saddp 1 0 0, .saddp 0 1 0, .ssubp 0 0 1, .sshlp 0 1 0, .sshrp 1 0 0, .call 1 0, .ret 1, .jmpr 1, .split 1 1,
    .jsave 0 1 0, .jload 0 1 0, .scpset 8 1 0, .sld32 0 1 0, .sst32 0 1 0, .saadd 0 1 0, .samin 0 1 0, .samax 0 1 0, .saand 0 1 0, .saor 0 1 0, .saxor 0 1 0,
    .saxch 0 1 0, .sld64 1 0 0, .sst64 1 0 0, .sacas 1 0 0, .tdset 0 1 0, .tdget 0 1 0, .mfork 0 1 0, .cpy 1 0 0, .cpy 0 1 0, .cpy 0 0 1, .rget 1 0 0, .rput 1 0 0,
    .smap 0 1 0, .new 1 0, .newLong 0 1, .stref 1 0 0, .ldref 1 0 1 0, .publ 2 1, .ispub 0 1, .ladr 0 1, .lfeed 0 1 0, .mbsend 0 1 0, .mbsendTrap 0 1 0, .mbrecv 1 0,
    .launch 0 1, .wsplR 2 0, .wsplW 2 0, .sysrd 1 0, .syswr 1 0].all (!·.legal) = true := by decide
/-- Destinations m0, selectors, counts, scopes and modes beyond their limits (R49, R60, R125, R228, R230, R240, R247, R249, R279, R354-R357). -/
theorem illFormed_scalar : [Instr.mfrom 0 0, .mand 0 1 1, .mor 0 1 1, .mxor 0 1 1, .mandn 0 1 1, .mnot 0 1, .exsave 0 1, .sget 0 14, .sget 1 9, .sset 0 11, .bara 0 34,
    .baraw 0 34, .cbara 0 385, .fence 7, .ord .rlx 7, .scpset 7 0 0, .scpset 32 0 0, .ldref 0 0 0 0, .publ 1 0, .publ 7 0, .esc 0 255, .lret 0 255, .svc 252 0, .tret 4,
    .sysrd 0 12, .syswr 0 12].all (!·.legal) = true := by decide
/-- Types, registers and operands that a lane entry does not take (R40, R136-R161). -/
theorem illFormed_lane : [Instr.vadd .f32 false 0 0 (.v 0) (.v 0), .vadd .i32 false 0 255 (.v 0) (.v 0), .vadd .i64 false 0 254 (.v 0) (.v 0), .vadd .i64 false 0 0 (.v 1) (.v 0),
    .vadd .i32 false 0 0 (.imm 0) (.v 0), .vsub .b32 false 0 0 (.v 0) (.v 0), .vmul .q4n false 0 0 (.v 0) (.v 0), .vmin .f32 0 0 (.v 0) (.v 0), .vmax .t3p 0 0 (.v 0) (.v 0),
    .vmulhi .i64 0 0 (.v 0) (.v 0), .viota .b32 0 0 (.v 0) (.v 0), .vmad .i8x4 false 0 0 (.v 0) (.v 0) (.v 0), .vabs .n32 false 0 0 (.v 0), .vneg .f32 false 0 0 (.v 0),
    .vand .i32 0 0 (.v 0) (.v 0), .vor .i32 0 0 (.v 0) (.v 0), .vxor .i32 0 0 (.v 0) (.v 0), .vandn .i32 0 0 (.v 0) (.v 0), .vsel .i32 0 0 0 (.v 0) (.v 0), .vnot .i32 0 0 (.v 0),
    .vmov .f32 0 0 (.v 0), .vshl .f32 0 0 (.v 0) (.v 0), .vshr .f32 0 0 (.v 0) (.v 0), .vsra .f32 0 0 (.v 0) (.v 0), .vrot .n64 0 0 (.v 0) (.v 0), .vclz .n64 0 0 (.v 0),
    .vpopc .i32 0 0 (.v 0), .vbfx .b32 0 0 (.v 0) (.v 0) (.v 0), .vbfi .i32 0 0 (.v 0) (.v 0) (.v 0), .vcmp .i32 .eq 0 0 (.v 0) (.v 0), .vcmp .b32 .eq 0 1 (.v 0) (.v 0),
    .vfadd .e4m3x4 0 0 (.v 0) (.v 0), .vfsub .i32 0 0 (.v 0) (.v 0), .vfmul .i32 0 0 (.v 0) (.v 0), .vfmin .i32 0 0 (.v 0) (.v 0), .vfmax .i32 0 0 (.v 0) (.v 0),
    .vfdiv .i32 0 0 (.v 0) (.v 0), .vfma .i32 0 0 (.v 0) (.v 0) (.v 0), .vfabs .i32 0 0 (.v 0), .vfneg .i32 0 0 (.v 0), .vfsqrt .i32 0 0 (.v 0), .vfrcp .i32 0 0 (.v 0),
    .vfrsq .i32 0 0 (.v 0), .vfexp2 .i32 0 0 (.v 0), .vflog2 .i32 0 0 (.v 0), .vfsinp .i32 0 0 (.v 0), .vfcosp .i32 0 0 (.v 0), .vftanh .i32 0 0 (.v 0), .vfrnd .i32 .rm false 0 0 (.v 0),
    .vfcmp .f16x2 .eq 0 1 (.v 0) (.v 0), .vfcmp .f32 .eq 0 0 (.v 0) (.v 0), .vcvt .b32 .i32 .rm false 0 0 0 0 (.v 0), .vcvt .i32 .t3p .rm false 0 0 0 0 (.v 0),
    .vcvt .i32 .i32 .rm false 1 0 0 0 (.v 0), .vcvt .i32 .f16x2 .rm false 0 2 0 0 (.v 0), .vpack .i32 .i32 .rm false false 0 0 (.v 0) (.v 0), .vpack .i8x4 .i64 .rm false false 0 0 (.v 0) (.v 0),
    .vpack .i16x2 .i32 .rm false true 0 0 (.v 0) (.v 0), .vunpk .i8x4 .i32 .rm false false 0 1 (.v 0), .vunpk .i16x2 .i32 .rm false true 0 0 (.v 0), .vq4n .i32 0 0 0 (.v 0) (.v 0) (.v 0),
    .vq4n .f16x2 1 0 0 (.v 0) (.v 0) (.v 0), .vt3p .i32 0 false 0 0 (.v 0) (.v 0), .vt3p .f32 20 false 0 0 (.v 0) (.v 0), .vt3p .f16x2 19 false 0 0 (.v 0) (.v 0),
    .vt3p .i8x4 17 false 0 0 (.v 0) (.v 0), .vshuf .i32 .idx 0 0 (.v 0) (.v 0), .vbcst .b32 0 0 (.v 0) (.v 0), .vreds .b32 .add 0 0 (.v 0), .vscan .i32 .fadd false 0 0 (.v 0),
    .vvote .b32 .any 0 0 (.v 0), .vvote .i32 .any 0 1 (.v 0), .vmatch .i32 0 0 (.v 0)].all (!·.legal) = true := by decide
/-- Addresses, orders, scopes and widths of lane memory words (R162-R170, R181, R222, R229); registers of the matrix stream (R185, R193, R194). -/
theorem illFormed_memory : [Instr.vld .f32 0 0 gad gctl, .vld .i32 0 0 { gad with base := .s 5 } gctl, .vld .i32 0 0 { gad with base := .laneid } gctl,
    .vld .i32 0 0 { gad with sidx := true } gctl, .vld .i32 0 0 gad { gctl with scope := 7 }, .vld .i32 0 0 gad { gctl with order := .rel }, .vld .i32 0 0 gad { gctl with width := 3 },
    .vst .i32 0 0 gad { gctl with order := .acq }, .vst .i64 0 1 gad gctl, .vlds .i32 0 0 gad { gctl with scope := 3 } none, .vlds .i32 0 0 gad { gctl with scope := 0 } (some (.v 0)),
    .vsts .i32 0 0 gad gctl, .vatom .f32 .add false false 0 0 gad (.v 0) gctl, .vatom .i32 .cas false false 0 0 gad (.v 1) gctl, .vatom .i32 .add true false 0 1 gad (.v 0) gctl,
    .vatom .i32 .add false false 0 0 gad (.v 0) { gctl with width := 3 }, .vprf false 0 gad { gctl with order := .acq }, .vnew false false 0 1 (.v 0),
    .vstref 0 1 gad { gctl with width := 3 }, .vstref 0 0 gad gctl, .vldref 0 0 0 gad { gctl with width := 3 }, .vldref 1 0 0 gad gctl, .vtld .n32 0 0 0 (.v 0) (.v 0) gctl,
    .vtst .f32 false 0 0 0 (.v 0) (.v 0) { gctl with order := .acq }, .mlda 8 til, .mma 0 8 false til, .mmaz 0 8 false til, .mloop 0 0 0 1, .mloop 0 1 1 1,
    .mrel false 0 0 0 7 0, .mrel true 1 0 0 0 0].all (!·.legal) = true := by decide

/-! ## Single steps -/

/-- The first group after one instruction, if the step goes on; a scalar register of it; a lane register's lane 0. -/
def after (i : Instr) (s : State) : Option Group := match exec i s with | .next t => t.groups.head? | _ => none
def sreg (i : Instr) (s : State) (n : Nat) : Option Word := (after i s).bind (·.sregs[n]?)
def vreg (i : Instr) (s : State) (n : Nat) : Option Word := (after i s).bind fun g => g.vregs[n]?.bind (·[0]?)
/-- A lane instruction's group, the first lane registers holding given values in each lane. -/
def lanes (vs : List Word) : State :=
  let g := gL 0
  { at0 { g with vregs := vs.map (List.replicate 32) ++ List.replicate (16 - vs.length) (List.replicate 32 0) } with cur := .lane 0 0 0 }

/-- R97: sums and products wrap modulo 2^32, and a source may be the destination; the high half of (-1) × (-1) is 0 signed, 2^32 - 2 unsigned. -/
theorem test_wraps : sreg (.sadd 0 0 1) (at0 (regs [0xFFFFFFFF, 2])) 0 = some 1 ∧ sreg (.ssub 2 0 1) (at0 (regs [1, 2])) 2 = some 0xFFFFFFFF ∧
    sreg (.smul 0 0 0) (at0 (regs [0x10001])) 0 = some 0x20001 ∧ sreg (.smulhi 2 0 0) (at0 (regs [0xFFFFFFFF])) 2 = some 0 ∧
    sreg (.smulhn 2 0 0) (at0 (regs [0xFFFFFFFF])) 2 = some 0xFFFFFFFE ∧ sreg (.sdivi 2 0 1) (at0 (regs [0xFFFFFFF9, 2])) 2 = some 0xFFFFFFFD ∧
    sreg (.sremi 2 0 1) (at0 (regs [0xFFFFFFF9, 2])) 2 = some 0xFFFFFFFF := by decide +kernel
/-- R101's example: SMOVI 0x5678, then SMOVHI 0x1234. -/
theorem test_constants : sreg (.smovi 20 0x5678) (at0 g0) 20 = some 0x5678 ∧ sreg (.smovi 20 0x8000) (at0 g0) 20 = some 0xFFFF8000 ∧
    sreg (.smovhi 0 0x1234) (at0 (regs [0x5678])) 0 = some 0x12345678 := by decide +kernel
/-- R142's example of VBFX. -/
theorem test_vbfx : vreg (.vbfx .n32 0 3 (.v 0) (.v 1) (.v 2)) (lanes [0xF80, 7, 5]) 3 = some 0x1F ∧
    vreg (.vbfx .i32 0 3 (.v 0) (.v 1) (.v 2)) (lanes [0xF80, 7, 5]) 3 = some 0xFFFFFFFF ∧
    vreg (.vbfx .n32 0 3 (.v 0) (.v 1) (.v 2)) (lanes [0xF80, 30, 8]) 3 = some 0 := by decide +kernel
/-- R152's example of VPACK: 500.0 and -0.375. -/
theorem test_vpack : vreg (.vpack .e4m3x4 .f32 .rm true false 0 3 (.v 1) (.v 2)) (lanes [0, 0x43FA0000, 0xBEC00000, 0x11112222]) 3 = some 0x1111AC7E := by
  decide +kernel
/-- R155's example of VT3P. -/
theorem test_vt3p : vreg (.vt3p .i8x4 0 false 0 3 (.v 0) (.v 1)) (lanes [0x8E]) 3 = some 0x01FF0100 ∧
    vreg (.vt3p .i8x4 1 false 0 3 (.v 0) (.v 1)) (lanes [0x8E]) 3 = some 0x0001FF01 := by decide +kernel
/-- R74: 1.5 + 2.25 = 3.75 and 1.0 / 3.0 rounded to nearest, in FP32. -/
theorem test_fp32 : vreg (.vfadd .f32 0 3 (.v 0) (.v 1)) (lanes [0x3FC00000, 0x40100000]) 3 = some 0x40700000 ∧
    vreg (.vfdiv .f32 0 3 (.v 0) (.v 1)) (lanes [0x3F800000, 0x40400000]) 3 = some 0x3EAAAAAB := by decide +kernel
/-- R112: a store's bytes go into the group's buffer with the lowest byte of the register at the lowest address. -/
theorem test_store_bytes : ((after (.sst32 5 2 4) (at0 (regs [0, 0, 0x10000, 0, 0, 0x11223344]))).map fun g => g.sbuf.map (·.bytes)) =
    some [[(.glob 0 0x10010, 0x44), (.glob 0 0x10011, 0x33), (.glob 0 0x10012, 0x22), (.glob 0 0x10013, 0x11)]] := by decide +kernel
end Sys2Proof.Tests
end

section
/-! Association lists, and the tables of the state that are kept in them: contexts, address spaces, partitions. -/

namespace Sys2Proof.Machine

/-! ## Lists that `upsert` and `assocSet` change -/

theorem find?_upsert_self {α : Type} {p : α → Bool} {x : α} (hx : p x = true) (l : List α) : (upsert p x l).find? p = some x := by
  induction l with
  | nil => simp [upsert, hx]
  | cons y ys ih => by_cases hy : p y = true <;> simp [upsert, hy, hx, ih]

theorem find?_upsert_of_disjoint {α : Type} {p q : α → Bool} {x : α} (hx : q x = false) (hpq : ∀ y, p y = true → q y = false) (l : List α) :
    (upsert p x l).find? q = l.find? q := by
  induction l with
  | nil => simp [upsert, hx]
  | cons y ys ih =>
    by_cases hy : p y = true
    · simp [upsert, hy, hx, hpq y hy]
    · simp [upsert, hy, List.find?_cons, ih]

@[simp] theorem assoc_assocSet_self {α : Type} (d : α) (k : Nat) (v : α) (l : List (Nat × α)) : assoc d k (assocSet k v l) = v := by
  induction l with
  | nil => simp [assocSet, assoc]
  | cons y ys ih => by_cases hy : y.1 = k <;> simp [assocSet, assoc, hy, ih]

/-! ## Contexts, address spaces and partitions by their number -/

/-- The element found for a key, or a default that has it, has it. -/
theorem find?_getD_key {α : Type} (key : α → Nat) (l : List α) {d : α} {k : Nat} (hd : key d = k) :
    key ((l.find? fun a => key a == k).getD d) = k := by
  cases h : l.find? fun a => key a == k with
  | none => exact hd
  | some a => simpa using List.find?_some h

@[simp] theorem State.ctx_cid (s : State) (cid : Nat) : (s.ctx cid).cid = cid := find?_getD_key Context.cid s.contexts rfl
@[simp] theorem State.ast_aid (s : State) (aid : Nat) : (s.ast aid).aid = aid := find?_getD_key Ast.aid s.asts rfl
@[simp] theorem State.part_id (s : State) (id : Nat) : (s.part id).id = id := find?_getD_key Part.id s.parts rfl

/-- What `upsert` has put under a key is found under it. -/
theorem find?_upsert_getD {α : Type} (key : α → Nat) (l : List α) {x : α} {k : Nat} (hx : key x = k) (d : α) :
    ((upsert (fun y => key y == key x) x l).find? fun y => key y == k).getD d = x := by
  rw [← hx, find?_upsert_self (p := fun y => key y == key x) (by simp), Option.getD_some]

theorem State.ctx_setCtx (s : State) {c : Context} {cid : Nat} (h : c.cid = cid) : (s.setCtx c).ctx cid = c :=
  find?_upsert_getD Context.cid s.contexts h _
theorem State.ast_setAst (s : State) {a : Ast} {aid : Nat} (h : a.aid = aid) : (s.setAst a).ast aid = a :=
  find?_upsert_getD Ast.aid s.asts h _
theorem State.part_setPart (s : State) {p : Part} {id : Nat} (h : p.id = id) : (s.setPart p).part id = p :=
  find?_upsert_getD Part.id s.parts h _
theorem State.part_setPart_of_ne (s : State) {p : Part} {id : Nat} (h : p.id ≠ id) : (s.setPart p).part id = s.part id := by
  have hpq (q : Part) (hq : (q.id == p.id) = true) : (q.id == id) = false := by simp_all
  simp [State.part, find?_upsert_of_disjoint (q := fun q : Part => q.id == id) (by simpa using h) hpq]

/-! ## The RAS log (R389) -/

/-- A partition after one more entry in its log: the log keeps the last 4,096. -/
def Part.logged (p : Part) (code : BitVec 16) (die : Nat) (info : Word) (addr : DWord) (time : Nat) : Part :=
  { p with ras := (if p.ras.length < 4096 then p.ras else p.ras.drop 1) ++ [{ seq := p.rashead, code, die, info, time, addr }]
           rashead := p.rashead + 1 }

@[simp] theorem Part.logged_id (p : Part) (code : BitVec 16) (die : Nat) (info : Word) (addr : DWord) (time : Nat) :
    (p.logged code die info addr time).id = p.id := rfl

theorem State.ras_eq_logged (s : State) (part : Nat) (code : BitVec 16) (die : Nat) (info : Word) (addr : DWord) :
    s.ras part code die info addr = s.setPart ((s.part part).logged code die info addr s.time) := rfl

theorem State.part_ras (s : State) (part : Nat) (code : BitVec 16) (die : Nat) (info : Word) (addr : DWord) :
    (s.ras part code die info addr).part part = (s.part part).logged code die info addr s.time :=
  s.part_setPart (s.part_id part)
theorem State.part_ras_of_ne (s : State) {part id : Nat} (h : part ≠ id) (code : BitVec 16) (die : Nat) (info : Word) (addr : DWord) :
    (s.ras part code die info addr).part id = s.part id :=
  s.part_setPart_of_ne (by simpa using h)

/-- The entry that an event leaves stands in the log of its partition. -/
theorem State.mem_ras (s : State) (part : Nat) (code : BitVec 16) (die : Nat) (info : Word) (addr : DWord) :
    ({ seq := (s.part part).rashead, code, die, info, time := s.time, addr } : Ras) ∈ ((s.ras part code die info addr).part part).ras := by
  simp [State.part_ras, Part.logged]

end Sys2Proof.Machine
end

section
/-! Events to a host's ring (R302): what writing one leaves of the contexts and the address spaces. -/

namespace Sys2Proof.Machine

/-! ## Writing memory leaves the contexts and the address spaces -/

/-- Two states with the same contexts and the same address spaces. -/
structure State.SameTables (s t : State) : Prop where
  contexts : t.contexts = s.contexts
  asts     : t.asts = s.asts

namespace State.SameTables

theorem refl (s : State) : s.SameTables s := ⟨rfl, rfl⟩
theorem trans {s t u : State} (h : s.SameTables t) (k : t.SameTables u) : s.SameTables u :=
  ⟨k.contexts.trans h.contexts, k.asts.trans h.asts⟩

theorem fill (s : State) (aid gpa : Nat) : s.SameTables (s.fill aid gpa) := by
  unfold State.fill; split <;> exact ⟨rfl, rfl⟩
theorem writeByte (s : State) (aid gpa : Nat) (b : Byte) : s.SameTables (s.writeByte aid gpa b) :=
  (fill s aid gpa).trans ⟨rfl, rfl⟩
theorem writeLoc (s : State) (l : Loc) (b : Byte) : s.SameTables (s.writeLoc l b) := by
  cases l with
  | glob aid gpa => exact writeByte s aid gpa b
  | stash tid off => simp only [State.writeLoc]; split <;> exact ⟨rfl, rfl⟩
  | peer id addr => exact ⟨rfl, rfl⟩
theorem writeLocs (s : State) (ls : List (Loc × Byte)) : s.SameTables (s.writeLocs ls) := by
  induction ls generalizing s with
  | nil => exact refl s
  | cons x xs ih => exact (writeLoc s x.1 x.2).trans (ih _)
theorem untrack (s : State) (p : Nat → Bool) : s.SameTables (s.untrack p) := ⟨rfl, rfl⟩
theorem storeAway (s : State) (ps : List (Loc × Byte)) : s.SameTables (s.storeAway ps) := by
  unfold State.storeAway
  exact (untrack s _).trans (writeLocs _ ps)
theorem dropLine (s : State) (line : Nat) : s.SameTables (s.dropLine line) := by
  unfold State.dropLine; split <;> exact ⟨rfl, rfl⟩
theorem writeBack (s : State) (line : Nat) : s.SameTables (s.writeBack line) := by
  unfold State.writeBack
  split
  · exact refl s
  · split
    · exact refl s
    · dsimp only
      split
      · exact ⟨rfl, rfl⟩
      · split
        · exact (dropLine s line).trans ⟨rfl, rfl⟩
        · exact ⟨rfl, rfl⟩
theorem putVa {s t : State} {w : Who} {va : Nat} {bs : List Byte} (h : s.putVa w va bs = .ok t) : s.SameTables t := by
  unfold State.putVa at h
  split at h
  · cases h
    refine List.foldlRecOn (motive := s.SameTables) _ _ (storeAway s _) fun u hu l _ => hu.trans ?_
    split
    · split
      · exact writeBack u _
      · exact refl u
    · exact refl u
  · cases h
  · cases h

end State.SameTables

/-! ## An event -/

theorem State.atsSpent_contexts (s : State) (core cid : Nat) : (s.atsSpent core cid).contexts = s.contexts := rfl

theorem State.ctx_of_contexts {s t : State} (h : t.contexts = s.contexts) (cid : Nat) : t.ctx cid = s.ctx cid := by
  simp only [State.ctx, h]

theorem State.event_asts (s : State) (cid h : Nat) (e : Event) : (s.event cid h e).asts = s.asts := by
  unfold State.event
  dsimp only
  split
  · rfl
  · split
    · exact State.post_asts _ _
    · rfl
    · split
      · next hp => exact (State.SameTables.putVa hp).asts
      · rfl

/-- An event changes what its context holds for events, and not its request ring. -/
theorem State.event_rq (s : State) (cid h : Nat) (e : Event) : ((s.event cid h e).ctx cid).rq = (s.ctx cid).rq := by
  unfold State.event
  dsimp only
  split
  · rw [State.ctx_setCtx]
    exact s.ctx_cid cid
  · split
    · rw [State.ctx_of_contexts (State.post_contexts ..), State.ctx_setCtx]
      exact s.ctx_cid cid
    · rw [State.ctx_setCtx]
      exact s.ctx_cid cid
    · split
      · next t hp =>
        have hrq : (t.ctx cid).rq = (s.ctx cid).rq := congrArg Context.rq (State.ctx_of_contexts (State.SameTables.putVa hp).contexts cid)
        rw [State.ctx_setCtx]
        · exact hrq
        · exact t.ctx_cid cid
      · rw [State.ctx_of_contexts (State.atsSpent_contexts ..), State.ctx_setCtx]
        exact s.ctx_cid cid

theorem State.eventPrimary_asts (s : State) (cid : Nat) (e : Event) : (s.eventPrimary cid e).asts = s.asts := by
  unfold State.eventPrimary
  dsimp only
  split
  · exact s.event_asts ..
  · rfl
theorem State.eventPrimary_rq (s : State) (cid : Nat) (e : Event) : ((s.eventPrimary cid e).ctx cid).rq = (s.ctx cid).rq := by
  unfold State.eventPrimary
  dsimp only
  split
  · exact s.event_rq ..
  · rfl

/-- A ring error sets ERROR and leaves the rest of the request ring (R281). -/
theorem State.ringError_rq (s : State) (cid : Nat) : ((s.ringError cid).ctx cid).rq = { (s.ctx cid).rq with error := true } := by
  unfold State.ringError
  rw [State.eventPrimary_rq, State.ctx_setCtx]
  exact s.ctx_cid cid

end Sys2Proof.Machine
end

section
/-! The machine after reset, links and bring-up (R8, R368, R385-R389). -/

namespace Sys2Proof.Machine

/-! ## Reset values -/

theorem getD_replicate_self {α : Type} (m n : Nat) (d : α) : (List.replicate m d).getD n d = d := by
  rw [List.getD_eq_getElem?_getD, List.getElem?_replicate]
  split <;> rfl

/-- A context that the state does not hold reads as its default (R290). -/
theorem State.ctx_of_nil {s : State} (h : s.contexts = []) (cid : Nat) : s.ctx cid = { cid } := by
  simp only [State.ctx, h, List.find?_nil, Option.getD_none]

theorem State.reset_readByte (aid gpa : Nat) : State.reset.readByte aid gpa = 0 := by
  have hback : State.reset.backByte aid gpa = 0 := by
    unfold State.backByte
    split <;> rfl
  exact hback

theorem State.reset_readLoc (l : Loc) : State.reset.readLoc l = 0 := by
  cases l with
  | glob aid gpa => exact State.reset_readByte aid gpa
  | stash tid off => rfl
  | peer id addr => rfl

/-- Settles O56: each value by evaluation; a byte of memory by its three forms, a context as one that nothing holds. -/
theorem resetValues : Obligations.ResetValues := by
  unfold Obligations.ResetValues
  refine ⟨rfl, rfl, rfl, rfl, MemWf_reset, rfl, rfl, rfl, rfl, rfl, rfl, rfl, rfl, rfl, rfl, rfl, rfl, rfl, rfl, rfl, State.reset_readLoc, fun cid => ?_⟩
  rw [State.ctx_of_nil rfl cid]
  exact ⟨rfl, rfl, rfl, rfl, rfl, rfl, fun n => ⟨getD_replicate_self .., getD_replicate_self ..⟩, rfl, rfl,
    fun n => congrArg Ladder.st (getD_replicate_self ..)⟩

/-! ## An event in the log of every partition -/

/-- What logs an event in each partition of a list leaves all but the partitions as it is. -/
theorem State.foldl_rasFree_frame (s : State) (code : BitVec 16) (ps : List Part) :
    ∃ qs, ps.foldl (fun (u : State) (p : Part) => u.rasFree p.id code 15 0) s = { s with parts := qs } := by
  induction ps generalizing s with
  | nil => exact ⟨s.parts, rfl⟩
  | cons p ps ih =>
    obtain ⟨qs, hqs⟩ := ih (s.rasFree p.id code 15 0)
    exact ⟨qs, by rw [List.foldl_cons, hqs]; rfl⟩

/-- The list with its entry of one partition replaced, when no earlier entry is of that partition. -/
theorem upsert_append {α : Type} {p : α → Bool} {x y : α} (pre : List α) (suf : List α) (hpre : ∀ z ∈ pre, p z = false) (hy : p y = true) :
    upsert p x (pre ++ y :: suf) = pre ++ x :: suf := by
  induction pre with
  | nil => simp [upsert, hy]
  | cons z zs ih =>
    rw [List.cons_append, upsert, if_neg (by simp [hpre z (by simp)]), ih fun w hw => hpre w (by simp [hw]), List.cons_append]
theorem find?_append_cons {α : Type} {p : α → Bool} {y : α} (pre : List α) (suf : List α) (hpre : ∀ z ∈ pre, p z = false) (hy : p y = true) :
    (pre ++ y :: suf).find? p = some y := by
  rw [List.find?_append, List.find?_eq_none.mpr fun z hz => by simp [hpre z hz], Option.none_or, List.find?_cons, hy]

/-- The RAS entry of a partition whose number no earlier partition has. -/
theorem State.ras_parts {s : State} {pre suf : List Part} {p : Part} (hs : s.parts = pre ++ p :: suf) (hpre : ∀ q ∈ pre, q.id ≠ p.id)
    (code : BitVec 16) (die : Nat) (info : Word) (addr : DWord) :
    (s.ras p.id code die info addr).parts = pre ++ p.logged code die info addr s.time :: suf := by
  have hpre' (q : Part) (hq : q ∈ pre) : (q.id == p.id) = false := by simpa using hpre q hq
  have hp : s.part p.id = p := by
    rw [State.part, hs, find?_append_cons pre suf hpre' (by simp), Option.getD_some]
  rw [State.ras_eq_logged, hp, State.setPart_parts, hs]
  exact upsert_append pre suf hpre' (by simp)

/-- With distinct partitions, an event of the whole device adds its entry to each of them. -/
theorem State.foldl_rasFree_parts (code : BitVec 16) (suf : List Part) (s : State) (pre : List Part) (hs : s.parts = pre ++ suf)
    (hd : (s.parts.map fun p => p.id).Nodup) :
    (suf.foldl (fun (u : State) (p : Part) => u.rasFree p.id code 15 0) s).parts =
      pre ++ suf.map fun p => p.logged code 15 (Config.rasInfo code.toNat s.free) 0 s.time := by
  induction suf generalizing s pre with
  | nil => simpa using hs
  | cons p suf ih =>
    have hpre : ∀ q ∈ pre, q.id ≠ p.id := by
      rw [hs, List.map_append, List.map_cons, List.nodup_append] at hd
      exact fun q hq => hd.2.2 q.id (List.mem_map_of_mem hq) p.id (by simp)
    have h1 := State.ras_parts hs hpre code 15 (Config.rasInfo code.toNat s.free) 0
    rw [List.foldl_cons, ih (s.rasFree p.id code 15 0) (pre ++ [p.logged code 15 (Config.rasInfo code.toNat s.free) 0 s.time])]
    · rw [List.append_assoc]; rfl
    · rw [List.append_assoc]; exact h1
    · have hm : ((s.rasFree p.id code 15 0).parts.map fun q => q.id) = s.parts.map fun q => q.id := by
        rw [State.rasFree, h1, hs]; simp [Part.logged]
      rw [hm]; exact hd

/-- What a throttling event does to the device (R8, R389). -/
theorem State.slow_rasEach (s : State) (code : BitVec 16) :
    let t := (s.slow true).rasEach code
    t.dev = { s.dev with slowed := true } ∧ t = { s with dev := t.dev, parts := t.parts } ∧
      ((s.parts.map fun p => p.id).Nodup → t.parts = s.parts.map fun p => p.logged code 15 (Config.rasInfo code.toNat s.free) 0 s.time) := by
  obtain ⟨qs, hqs⟩ := State.foldl_rasFree_frame (s.slow true) code s.parts
  have ht : (s.slow true).rasEach code = { s.slow true with parts := qs } := hqs
  refine ⟨by rw [ht]; rfl, by rw [ht]; rfl, fun hd => ?_⟩
  exact State.foldl_rasFree_parts code s.parts (s.slow true) [] rfl hd

/-! ## Bring-up -/

/-- The links that bring-up closes (R343): those between dies of different partitions. -/
def Boot.closed (b : Boot) : List (Nat × Nat) :=
  (List.range 4).flatMap fun d => ((List.range 4).filter fun e => d != e && !(b.mates d).contains e).map fun e => (d, e)

theorem Boot.mem_closed (b : Boot) (x y : Nat) : (x, y) ∈ b.closed ↔ x < 4 ∧ y < 4 ∧ x ≠ y ∧ y ∉ b.mates x := by
  simp only [Boot.closed, List.mem_flatMap, List.mem_map, List.mem_filter, List.mem_range, Prod.mk.injEq, Bool.and_eq_true, bne_iff_ne,
    ne_eq, Bool.not_eq_true', List.contains_eq_mem, decide_eq_false_iff_not]
  constructor
  · rintro ⟨d, hd, e, ⟨he, hne, hm⟩, rfl, rfl⟩
    exact ⟨hd, he, hne, hm⟩
  · rintro ⟨hx, hy, hne, hm⟩
    exact ⟨x, hx, y, ⟨hy, hne, hm⟩, rfl, rfl⟩

end Sys2Proof.Machine
end

section
/-! Links and DEVICE_RESET as events, one equation for each state of DEVSTATE (R8, R385, R387, R389). -/

namespace Sys2Proof.Machine

/-- A Nirus port goes down and is logged in the partition of its die (R389). -/
theorem exec_nirusLinkDown {s : State} {port : Nat} (h : s.dev.nirusUp.getD port false = true) : ∃ t, exec (.nirusLinkDown port) s = .next t ∧
    t.dev.nirusUp = s.dev.nirusUp.set port false ∧
    t.parts = (s.ras (s.diePart (port / 3)) 0x0022 (port / 3) (Config.rasInfo 0x0022 s.free) 0).parts ∧ t.groups = s.groups ∧ t.launches = s.launches :=
  ⟨_, if_pos h, rfl, rfl, rfl, rfl⟩

/-- A die-to-die link that degrades is logged in the partitions of both dies, once where they are one. -/
theorem exec_d2dDegraded {s : State} {a b : Nat} (ha : a < 4) (hb : b < 4) (hne : a ≠ b) :
    (s.diePart a = s.diePart b → exec (.d2dDegraded a b) s = .next (s.ras (s.diePart a) 0x0023 a (Config.rasInfo 0x0023 s.free) 0)) ∧
    (s.diePart a ≠ s.diePart b → exec (.d2dDegraded a b) s =
      .next ((s.ras (s.diePart a) 0x0023 a (Config.rasInfo 0x0023 s.free) 0).ras (s.diePart b) 0x0023 b (Config.rasInfo 0x0023 s.free) 0)) := by
  have he : exec (.d2dDegraded a b) s = .next (if s.diePart a = s.diePart b then s.rasFree (s.diePart a) 0x0023 a 0
      else (s.rasFree (s.diePart a) 0x0023 a 0).rasFree (s.diePart b) 0x0023 b 0) := if_pos ⟨ha, hb, hne⟩
  refine ⟨fun h => ?_, fun h => ?_⟩
  · rw [he, if_pos h]; rfl
  · rw [he, if_neg h]; rfl

/-! ## DEVICE_RESET by the state of DEVSTATE (R385) -/

section
variable {s : State}

theorem exec_deviceReset_running (h : s.dev.st = .running ∨ s.dev.st = .recovery) :
    exec .deviceReset s = .next { s.powerUp with dev := { s.powerUp.dev with boot := s.dev.boot.next (s.dev.st == .recovery) } } := by
  show execDeviceReset s = _
  rcases h with h | h <;> simp only [execDeviceReset, h]
theorem exec_deviceReset_reset (h : s.dev.st = .reset) : exec .deviceReset s = .next { s with dev := { s.dev with st := .secureBoot } } := by
  show execDeviceReset s = _
  simp only [execDeviceReset, h]
theorem exec_deviceReset_memoryInit (h : s.dev.st = .memoryInit) : exec .deviceReset s =
    .next { s with dev := { s.dev with st := .running, portUp := List.replicate 8 true, nirusUp := List.replicate 12 true } } := by
  show execDeviceReset s = _
  simp only [execDeviceReset, h]

/-- The signatures verify and the version is not below the fused minimum (R387). -/
def Boot.good (b : Boot) : Prop := b.verifies = true ∧ b.minSvn.toNat ≤ b.svn.toNat

theorem Boot.not_good_iff (b : Boot) : ¬ b.good ↔ (!b.verifies || decide (b.svn.toNat < b.minSvn.toNat)) = true := by
  cases hv : b.verifies <;> simp [Boot.good, hv]

/-- An image that verifies brings the partitions up (R382, R385). -/
theorem exec_deviceReset_secureBoot (h : s.dev.st = .secureBoot) (hg : s.dev.boot.good) : exec .deviceReset s = .next { s with
    parts := s.dev.boot.partList
    dev := { s.dev with
      st := .memoryInit, svn := s.dev.boot.svn, fwclosed := s.dev.boot.closed
      fwparts := (List.range 4).map fun d => (s.dev.boot.mates d).foldl (fun n e => n + 2 ^ e) 0 } } := by
  have hbad := mt s.dev.boot.not_good_iff.mpr (not_not_intro hg)
  show execDeviceReset s = _
  simp only [execDeviceReset, h, if_neg hbad]
  rfl
theorem exec_deviceReset_refused (h : s.dev.st = .secureBoot) (hg : ¬ s.dev.boot.good) :
    exec .deviceReset s = .next (({ s with dev := { s.dev with st := .recovery } } : State).rasFree 0 0x0040 15 0) := by
  have hbad := s.dev.boot.not_good_iff.mp hg
  show execDeviceReset s = _
  simp only [execDeviceReset, h, if_pos hbad]
end

theorem Boot.partList_fields (b : Boot) : b.partList.map (fun p => (p.id, p.admin, p.jhead, p.rashead, p.keygen)) =
    b.parts.map (fun p => (((List.range 4).filter p.1.contains).headD 0, p.2, 0, 0, [(0, 1)])) := by
  rw [Boot.partList, List.map_map]; rfl

theorem Boot.next_cases (b : Boot) (ok : Bool) (svn : Word) (rest : List (Bool × Word)) : b.next false = b ∧ (b.images = [] → b.next true = b) ∧
    (b.images = (ok, svn) :: rest → b.next true = { b with verifies := ok, svn, images := rest }) := by
  refine ⟨?_, fun h => ?_, fun h => ?_⟩
  · unfold Boot.next; split <;> rfl
  · simp only [Boot.next, h]
  · simp only [Boot.next, h, if_true]

/-- Settles O55: each link event and each state of DEVSTATE by its equation; the two lowerings of the main clock by the entry that
a fold over distinct partitions leaves in each of them. -/
theorem linksAndReset : Obligations.LinksAndReset := by
  unfold Obligations.LinksAndReset
  refine ⟨fun s port h => exec_nirusLinkDown h, fun s a b ha hb hne => exec_d2dDegraded ha hb hne, ?_, fun s h => if_pos h, fun s => ?_,
    Boot.next_cases⟩
  · rintro s i code (⟨rfl, rfl⟩ | ⟨rfl, rfl⟩)
    · exact ⟨_, rfl, s.slow_rasEach 0x0041⟩
    · exact ⟨_, rfl, s.slow_rasEach 0x0042⟩
  · refine ⟨fun h => ?running, exec_deviceReset_reset, fun h hg => ?boots, fun h hg => ?refused, exec_deviceReset_memoryInit⟩
    case running => exact ⟨_, exec_deviceReset_running h, rfl, rfl, rfl, rfl, rfl, rfl, rfl, rfl, rfl, rfl, rfl, rfl, rfl, rfl, rfl, rfl⟩
    case boots => exact ⟨_, exec_deviceReset_secureBoot h hg, rfl, rfl, rfl, s.dev.boot.partList_fields, s.dev.boot.mem_closed⟩
    case refused => exact ⟨_, exec_deviceReset_refused h hg, rfl, _, State.mem_ras .., rfl, rfl⟩

end Sys2Proof.Machine
end

section
/-! Time: what passes in a step, and the correction of an offset (R378). -/

namespace Sys2Proof.Machine

/-! ## The parts of `State.tick` -/

/-- The clocks of a step, their length in units of 1/50,000 ns, the slew of device time in the step, and the device time that passes in it. -/
def State.clocks (s : State) : Nat := 1 + Config.clocks s.free
def State.span (s : State) : Nat := 40000 * s.clocks + if s.dev.slowed then s.clocks * (1 + Config.extra s.free) else 0
def State.slew (s : State) : Nat := Config.choice 5 s.free % (min (8 * s.clocks) s.dev.offset.natAbs + 1)
def State.passed (s : State) : Nat :=
  if s.dev.half then s.span / 2 else if 0 < s.dev.offset then s.span - s.slew else s.span + s.slew

theorem State.tick_cycle_eq (s : State) : s.tick.cycle = s.cycle + s.clocks := rfl
theorem State.tick_time_eq (s : State) : s.tick.time = s.time + (s.frac + s.passed) / 50000 := rfl
theorem State.tick_frac_eq (s : State) : s.tick.frac = (s.frac + s.passed) % 50000 := rfl
theorem State.tick_offset_eq (s : State) : s.tick.dev.offset = s.dev.offset - s.span + s.passed := rfl

theorem State.clocks_pos (s : State) : 1 ≤ s.clocks := Nat.le_add_right ..
theorem State.slew_le_ppm (s : State) : s.slew ≤ 8 * s.clocks :=
  Nat.le_trans (Nat.le_of_lt_succ (Nat.mod_lt _ (Nat.succ_pos _))) (Nat.min_le_left ..)
theorem State.slew_le_offset (s : State) : s.slew ≤ s.dev.offset.natAbs :=
  Nat.le_trans (Nat.le_of_lt_succ (Nat.mod_lt _ (Nat.succ_pos _))) (Nat.min_le_right ..)

theorem State.span_of_full (s : State) (h : s.dev.slowed = false) : s.span = 40000 * s.clocks := by simp [State.span, h]
theorem State.span_of_slowed (s : State) (h : s.dev.slowed = true) : 40000 * s.clocks < s.span := by
  have := s.clocks_pos
  simp only [State.span, h, if_true]
  exact Nat.lt_add_of_pos_right (Nat.mul_pos this (by omega))
theorem State.span_ge (s : State) : 40000 * s.clocks ≤ s.span := Nat.le_add_right ..

theorem State.passed_of_half (s : State) (h : 50000000000 < s.dev.offset) : s.passed = s.span / 2 := by
  rw [State.passed, if_pos (by simpa [Dev.half] using h)]
theorem State.passed_of_ahead (s : State) (h0 : 0 < s.dev.offset) (h : s.dev.offset ≤ 50000000000) : s.passed = s.span - s.slew := by
  rw [State.passed, if_neg (by simpa [Dev.half] using h), if_pos h0]
theorem State.passed_of_behind (s : State) (h : s.dev.offset ≤ 0) : s.passed = s.span + s.slew := by
  rw [State.passed, if_neg (by simp only [Dev.half, decide_eq_true_eq]; omega), if_neg (by omega)]

/-- The device time that passes in a step, in units of 1/50,000 ns. -/
theorem State.tick_units (s : State) : 50000 * s.tick.time + s.tick.frac = 50000 * s.time + s.frac + s.passed := by
  rw [State.tick_time_eq, State.tick_frac_eq]
  omega
theorem State.tick_frac_lt (s : State) : s.tick.frac < 50000 := Nat.mod_lt _ (by decide)

/-- Up to 1 ms ahead, a step brings the offset nearer to 0 and slews by no more than 200 ppm of its clocks (R378). -/
theorem State.tick_slews (s : State) (h : s.dev.offset ≤ 50000000000) : s.tick.dev.offset.natAbs ≤ s.dev.offset.natAbs ∧
    (s.dev.slowed = false → 40000 * s.clocks ≤ s.passed + 8 * s.clocks ∧ s.passed ≤ 40000 * s.clocks + 8 * s.clocks) := by
  have hppm := s.slew_le_ppm
  have hofs := s.slew_le_offset
  have hspan := s.span_ge
  have hfull := s.span_of_full
  rw [State.tick_offset_eq]
  by_cases h0 : 0 < s.dev.offset
  · rw [s.passed_of_ahead h0 h]
    exact ⟨by omega, fun hs => by rw [hfull hs]; omega⟩
  · rw [s.passed_of_behind (Int.not_lt.mp h0)]
    exact ⟨by omega, fun hs => by rw [hfull hs]; omega⟩
/-- More than 1 ms ahead, device time takes half of the time. -/
theorem State.passed_half_full (s : State) (h : 50000000000 < s.dev.offset) (hs : s.dev.slowed = false) : s.passed = 20000 * s.clocks := by
  rw [s.passed_of_half h, s.span_of_full hs]
  omega
/-- Without an offset nothing is slewed, and the clocks of a lowered main clock are longer. -/
theorem State.passed_slowed (s : State) (h : s.dev.offset = 0) (hs : s.dev.slowed = true) : 40000 * s.clocks < s.passed := by
  have := s.span_of_slowed hs
  rw [s.passed_of_behind (by omega)]
  omega

/-- What a step does to device time (R378): it goes forward, works off its offset by at most 200 ppm up to 1 ms ahead, goes at half rate beyond,
and with longer clocks while the main clock is lowered. -/
theorem State.tick_spec (s : State) :
    let t := s.tick
    let n := t.cycle - s.cycle
    let u : Int := (50000 * t.time + t.frac : Nat) - (50000 * s.time + s.frac : Nat)
    1 ≤ n ∧ s.time ≤ t.time ∧ t.frac < 50000 ∧
    (s.dev.offset ≤ 50000000000 → t.dev.offset.natAbs ≤ s.dev.offset.natAbs ∧ (s.dev.slowed = false → 40000 * n - 8 * n ≤ u ∧ u ≤ 40000 * n + 8 * n)) ∧
    (50000000000 < s.dev.offset → s.dev.slowed = false → u = 20000 * n) ∧ (s.dev.slowed = true → s.dev.offset = 0 → 40000 * n < u) := by
  intro t n u
  have hn : n = s.clocks := by
    rw [show n = s.tick.cycle - s.cycle from rfl, s.tick_cycle_eq, Nat.add_sub_cancel_left]
  have hu : u = s.passed := by
    rw [show u = (50000 * s.tick.time + s.tick.frac : Nat) - (50000 * s.time + s.frac : Nat) from rfl, s.tick_units]
    omega
  rw [hn, hu]
  refine ⟨s.clocks_pos, s.tick_time_eq ▸ Nat.le_add_right .., s.tick_frac_lt, fun h => ?_, fun h hs => ?_, fun hs h0 => ?_⟩
  · obtain ⟨habs, hppm⟩ := s.tick_slews h
    exact ⟨habs, fun hs => by have := hppm hs; omega⟩
  · have := s.passed_half_full h hs
    omega
  · have := s.passed_slowed h0 hs
    omega

/-! ## A correction -/

theorem State.correct_slewed (s : State) {e : Int} (h : -1000000 ≤ e) : s.correct e = { s with dev := { s.dev with offset := 50000 * e } } :=
  if_neg (by omega)

/-- The same event in the logs of a list of partitions: time and device stay. -/
theorem State.foldl_ras_frame (code : BitVec 16) (info : Word) (ids : List Nat) (s : State) :
    (ids.foldl (fun (u : State) id => u.ras id code 15 info 0) s).time = s.time ∧
      (ids.foldl (fun (u : State) id => u.ras id code 15 info 0) s).dev = s.dev := by
  induction ids generalizing s with
  | nil => exact ⟨rfl, rfl⟩
  | cons id ids ih => exact ih (s.ras id code 15 info 0)

/-- A partition's log holds an event with this code and INFO. -/
def State.hasLogged (s : State) (id : Nat) (code : BitVec 16) (info : Word) : Prop := ∃ r ∈ (s.part id).ras, r.code = code ∧ r.info = info

theorem State.hasLogged_ras (s : State) (id : Nat) (code : BitVec 16) (info : Word) : (s.ras id code 15 info 0).hasLogged id code info :=
  ⟨_, s.mem_ras id code 15 info 0, rfl, rfl⟩
theorem State.hasLogged.ras {s : State} {id : Nat} {code : BitVec 16} {info : Word} (h : s.hasLogged id code info) (other : Nat) :
    (s.ras other code 15 info 0).hasLogged id code info := by
  by_cases ho : other = id
  · subst ho; exact s.hasLogged_ras other code info
  · rw [State.hasLogged, s.part_ras_of_ne ho]; exact h
theorem State.hasLogged.foldl {s : State} {id : Nat} {code : BitVec 16} {info : Word} (h : s.hasLogged id code info) (ids : List Nat) :
    (ids.foldl (fun (u : State) i => u.ras i code 15 info 0) s).hasLogged id code info :=
  List.foldlRecOn (motive := fun u : State => u.hasLogged id code info) ids _ h fun _ hu i _ => hu.ras i
theorem State.hasLogged_foldl {s : State} {id : Nat} {code : BitVec 16} {info : Word} {ids : List Nat} (h : id ∈ ids) :
    (ids.foldl (fun (u : State) i => u.ras i code 15 info 0) s).hasLogged id code info := by
  induction ids generalizing s with
  | nil => cases h
  | cons i ids ih =>
    rcases List.mem_cons.mp h with rfl | hm
    · exact (s.hasLogged_ras id code info).foldl ids
    · exact ih hm

/-- More than 1 ms behind, device time is stepped and TIME_STEP logged in every partition (R378, R389). -/
theorem State.correct_stepped (s : State) {e : Int} (h : e < -1000000) : (s.correct e).time = s.time + (-e).toNat ∧ (s.correct e).dev.offset = 0 ∧
    ∀ p ∈ s.parts, (s.correct e).hasLogged p.id 0x0031 (BitVec.ofNat 32 ((-e).toNat / 1000)) := by
  rw [State.correct, if_pos h]
  dsimp only [State.rasAll]
  obtain ⟨ht, hd⟩ := State.foldl_ras_frame 0x0031 (BitVec.ofNat 32 ((-e).toNat / 1000)) (s.parts.map fun p => p.id)
    { s with time := s.time + (-e).toNat, dev := { s.dev with offset := 0 } }
  exact ⟨ht, congrArg Dev.offset hd, fun p hp => State.hasLogged_foldl (List.mem_map_of_mem hp)⟩

end Sys2Proof.Machine
end

section
/-! Writes of host registers (R281, R289, R316, R318, R345, R350, R372, R375, R377, R388). -/

namespace Sys2Proof.Machine

/-! ## Bit fields -/

theorem toNat_extractLsb' (v : DWord) (lo n : Nat) : (v.extractLsb' lo n).toNat = bitsOf v.toNat lo n := by
  rw [BitVec.extractLsb'_toNat, Nat.shiftRight_eq_div_pow, bitsOf]
theorem ofNat_bitsOf (v : DWord) (lo n : Nat) : BitVec.ofNat n (bitsOf v.toNat lo n) = v.extractLsb' lo n := by
  rw [← toNat_extractLsb', BitVec.ofNat_toNat, BitVec.setWidth_eq]
theorem getLsbD_eq_bitsOf (v : DWord) (i : Nat) : v.getLsbD i = (bitsOf v.toNat i 1 == 1) := by
  rw [← BitVec.testBit_toNat, Nat.testBit_eq_decide_div_mod_eq, bitsOf, Nat.pow_one]; rfl

/-- A field behind the first of some fields. -/
theorem bitsOf_fields_skip {n v lo w : Nat} (rest : List (Nat × Nat)) (h : n ≤ lo) :
    bitsOf (fields ((n, v) :: rest)) lo w = bitsOf (fields rest) (lo - n) w := by
  have hlt : v % 2 ^ n < 2 ^ n := Nat.mod_lt _ (Nat.two_pow_pos n)
  rw [bitsOf, fields, show 2 ^ lo = 2 ^ n * 2 ^ (lo - n) by rw [← Nat.pow_add]; congr 1; omega, ← Nat.div_div_eq_div_mul,
    Nat.add_mul_div_left _ _ (Nat.two_pow_pos n), Nat.div_eq_of_lt hlt, Nat.zero_add, bitsOf]
/-- A field within the first of some fields. -/
theorem bitsOf_fields_within {n v lo w : Nat} (rest : List (Nat × Nat)) (h : lo + w ≤ n) :
    bitsOf (fields ((n, v) :: rest)) lo w = bitsOf v lo w := by
  have hd : 2 ^ (lo + w) ∣ 2 ^ n := Nat.pow_dvd_pow 2 h
  have hm : (v % 2 ^ n + 2 ^ n * fields rest) % 2 ^ (lo + w) = v % 2 ^ (lo + w) := by
    rw [Nat.add_mod, Nat.mod_mod_of_dvd _ hd, Nat.mul_mod, Nat.mod_eq_zero_of_dvd hd, Nat.zero_mul, Nat.zero_mod, Nat.add_zero, Nat.mod_mod]
  rw [bitsOf, bitsOf, ← Nat.mod_mul_right_div_self, ← Nat.mod_mul_right_div_self, ← Nat.pow_add, fields, hm]

theorem bitsOf_zero_of_lt {v n : Nat} (h : v < 2 ^ n) : bitsOf v 0 n = v := by
  rw [bitsOf, Nat.pow_zero, Nat.div_one, Nat.mod_eq_of_lt h]

/-! ## Who may write -/

section
variable {s : State} {host : Nat}

theorem State.hostSees_of (hr : s.dev.st = .running) (hl : s.hostLive host = true) : s.hostSees host = true := by
  simp [State.hostSees, hr, hl]

theorem hostReg_of_sees (hs : s.hostSees host = true) (name : String) (body : Nat → Out) :
    hostReg name host s body = body (s.hostPart host) := if_pos hs
theorem adminReg_of_admin (hs : s.hostSees host = true) (ha : s.admin host = true) (name : String) (body : Nat → Out) :
    adminReg name host s body = body (s.hostPart host) := by
  rw [adminReg, hostReg_of_sees hs, if_pos ha]
theorem adminReg_of_other (hs : s.hostSees host = true) (ha : s.admin host = false) (name : String) (body : Nat → Out) :
    adminReg name host s body = .next s := by
  rw [adminReg, hostReg_of_sees hs, ha]; rfl

/-- The context that a host names by its number in its partition, and the address space. -/
def State.idFor (s : State) (host : Nat) (n : BitVec 10) : Nat := s.hostPart host * 1024 + n.toNat

variable {ctx : BitVec 10}

theorem primaryReg_of_primary (hs : s.hostSees host = true) (hf : (s.ctx (s.idFor host ctx)).st ≠ .free)
    (hp : (s.ctx (s.idFor host ctx)).primary = host) (name : String) (body : Nat → Context → Out) :
    primaryReg name host ctx s body = body (s.idFor host ctx) (s.ctx (s.idFor host ctx)) := by
  have hg : ((s.ctx (s.idFor host ctx)).st == .free || (s.ctx (s.idFor host ctx)).primary != host) = false := by simp [hf, hp]
  rw [primaryReg, hostReg_of_sees hs]
  exact if_neg (ne_true_of_eq_false hg)
theorem primaryReg_of_other (hs : s.hostSees host = true)
    (h : (s.ctx (s.idFor host ctx)).st = .free ∨ (s.ctx (s.idFor host ctx)).primary ≠ host) (name : String) (body : Nat → Context → Out) :
    primaryReg name host ctx s body = .next s := by
  have hg : ((s.ctx (s.idFor host ctx)).st == .free || (s.ctx (s.idFor host ctx)).primary != host) = true := by simpa using h
  rw [primaryReg, hostReg_of_sees hs]
  exact if_pos hg

/-! ## Rings -/

theorem Ring.fits_iff (r : Ring) (n : Nat) : r.fits n = true ↔ (r.write - r.read).toNat ≤ 2 ^ r.log2 / n := decide_eq_true_iff

theorem exec_rqreadWrite_other (hs : s.hostSees host = true) (v : Word)
    (h : (s.ctx (s.idFor host ctx)).primary ≠ host ∨ (s.ctx (s.idFor host ctx)).st = .free) : exec (.rqreadWrite host ctx v) s = .next s := by
  have hg : ((s.ctx (s.idFor host ctx)).primary != host || (s.ctx (s.idFor host ctx)).st == .free) = true := by simpa using h
  show execRqreadWrite host ctx v s = _
  rw [execRqreadWrite, hostReg_of_sees hs]
  exact if_pos hg
theorem exec_rqreadWrite_primary (hs : s.hostSees host = true) (v : Word) (hp : (s.ctx (s.idFor host ctx)).primary = host)
    (hf : (s.ctx (s.idFor host ctx)).st ≠ .free) :
    let c := s.ctx (s.idFor host ctx)
    let s1 := s.setCtx { c with rq := { c.rq with read := v } }
    exec (.rqreadWrite host ctx v) s = .next (if ({ c.rq with read := v } : Ring).fits 16 then s1 else s1.ringError (s.idFor host ctx)) := by
  have hg : ((s.ctx (s.idFor host ctx)).primary != host || (s.ctx (s.idFor host ctx)).st == .free) = false := by simp [hf, hp]
  show execRqreadWrite host ctx v s = _
  rw [execRqreadWrite, hostReg_of_sees hs]
  exact if_neg (ne_true_of_eq_false hg)

theorem exec_rqreadWrite_fits (hs : s.hostSees host = true) {v : Word} (hp : (s.ctx (s.idFor host ctx)).primary = host)
    (hf : (s.ctx (s.idFor host ctx)).st ≠ .free)
    (hv : ((s.ctx (s.idFor host ctx)).rq.write - v).toNat ≤ 2 ^ (s.ctx (s.idFor host ctx)).rq.log2 / 16) :
    let c := s.ctx (s.idFor host ctx)
    exec (.rqreadWrite host ctx v) s = .next (s.setCtx { c with rq := { c.rq with read := v } }) :=
  (exec_rqreadWrite_primary hs v hp hf).trans (congrArg _ (if_pos ((Ring.fits_iff _ _).mpr hv)))
/-- A write of RQREAD beyond the ring sets ERROR and keeps what was written (R281). -/
theorem exec_rqreadWrite_error (hs : s.hostSees host = true) {v : Word}
    (hp : (s.ctx (s.idFor host ctx)).primary = host) (hf : (s.ctx (s.idFor host ctx)).st ≠ .free)
    (hv : 2 ^ (s.ctx (s.idFor host ctx)).rq.log2 / 16 < ((s.ctx (s.idFor host ctx)).rq.write - v).toNat) :
    ∃ t, exec (.rqreadWrite host ctx v) s = .next t ∧ (t.ctx (s.idFor host ctx)).rq.error = true ∧ (t.ctx (s.idFor host ctx)).rq.read = v := by
  let c := s.ctx (s.idFor host ctx)
  have hset : (s.setCtx { c with rq := { c.rq with read := v } }).ctx (s.idFor host ctx) = { c with rq := { c.rq with read := v } } :=
    s.ctx_setCtx (s.ctx_cid _)
  have hrq := State.ringError_rq (s.setCtx { c with rq := { c.rq with read := v } }) (s.idFor host ctx)
  rw [hset] at hrq
  refine ⟨_, (exec_rqreadWrite_primary hs v hp hf).trans (congrArg _ (if_neg (mt (Ring.fits_iff _ _).mp (Nat.not_le_of_lt hv)))), ?_, ?_⟩
  · exact congrArg Ring.error hrq
  · exact congrArg Ring.read hrq

theorem exec_evreadWrite_ring (hs : s.hostSees host = true) (v : Word) {r : Ring}
    (hr : (s.ctx (s.idFor host ctx)).rings.find? (fun x => x.1 == host) = some (host, r)) (hl : r.log2 ≠ 0) :
    let c := s.ctx (s.idFor host ctx)
    let q : Ring := { r with read := v, error := r.error || decide (2 ^ r.log2 / 32 < (r.write - v).toNat) }
    exec (.evreadWrite host ctx v) s =
      .next ((s.setCtx { c with rings := assocSet host q c.rings }).flushEvents (s.idFor host ctx) host (c.heldEv.length + 1)) := by
  have hring : (if ({ r with read := v } : Ring).fits 32 then { r with read := v } else { r with read := v, error := true }) =
      { r with read := v, error := r.error || decide (2 ^ r.log2 / 32 < (r.write - v).toNat) } := by
    by_cases hfit : (r.write - v).toNat ≤ 2 ^ r.log2 / 32
    · rw [if_pos (Ring.fits_iff _ _ |>.mpr hfit), decide_eq_false (by omega), Bool.or_false]
    · rw [if_neg (mt (Ring.fits_iff _ _).mp hfit), decide_eq_true (by omega), Bool.or_true]
  show execEvreadWrite host ctx v s = _
  rw [execEvreadWrite, hostReg_of_sees hs]
  dsimp only
  rw [← State.idFor, hr]
  dsimp only
  rw [if_neg hl, ← hring]

end
end Sys2Proof.Machine
end

section
/-! Writes of AST records and of POOLWR, and what a record shows (R318, R319). -/

namespace Sys2Proof.Machine

/-! ## AST records and the frame pool (R318, R319) -/

section
variable {s : State} {host : Nat}

/-- An address space's POOLWR is within its ring (R319). -/
theorem State.setPoolwr_fits (s : State) (aid : Nat) (x : Word) (h : (x - (s.ast aid).poolRd).toNat ≤ 2 ^ (s.ast aid).poolLog2 / 8) :
    s.setPoolwr aid x = s.setAst { s.ast aid with poolWr := x } := by
  unfold State.setPoolwr
  dsimp only
  rw [decide_eq_true h, if_pos rfl, Bool.not_true, Bool.or_false]
/-- A POOLWR beyond its ring is a pool error, of which PRIMARY is told (R302, R319). -/
theorem State.setPoolwr_error (s : State) (aid : Nat) (x : Word) (h : 2 ^ (s.ast aid).poolLog2 / 8 < (x - (s.ast aid).poolRd).toNat) :
    (s.setPoolwr aid x).ast aid = { s.ast aid with poolWr := x, poolErr := true } := by
  have hset : (s.setAst { s.ast aid with poolWr := x, poolErr := true }).ast aid = { s.ast aid with poolWr := x, poolErr := true } :=
    s.ast_setAst (s.ast_aid aid)
  unfold State.setPoolwr
  dsimp only
  rw [decide_eq_false (Nat.not_le_of_lt h), if_neg Bool.false_ne_true, Bool.not_false, Bool.or_true]
  split
  · unfold State.ast
    rw [State.eventPrimary_asts]
    exact hset
  · exact hset

section
variable {ast : BitVec 10}

theorem exec_astRecordWrite_other (hs : s.hostSees host = true) (ha : s.admin host = false) (w : BitVec 3) (v : DWord) :
    exec (.astRecordWrite host ast w v) s = .next s := by
  show execAstRecordWrite host ast w v s = _
  rw [execAstRecordWrite, adminReg_of_other hs ha]
theorem exec_poolwrWrite_other (hs : s.hostSees host = true) (ha : s.admin host = false) (x : Word) :
    exec (.poolwrWrite host ast x) s = .next s := by
  show execPoolwrWrite host ast x s = _
  rw [execPoolwrWrite, adminReg_of_other hs ha]
theorem exec_poolwrWrite_admin (hs : s.hostSees host = true) (ha : s.admin host = true) (x : Word) :
    exec (.poolwrWrite host ast x) s = .next (s.setPoolwr (s.idFor host ast) x) := by
  show execPoolwrWrite host ast x s = _
  rw [execPoolwrWrite, adminReg_of_admin hs ha, State.idFor]

theorem exec_poolwrWrite_fits (hs : s.hostSees host = true) (ha : s.admin host = true) {x : Word}
    (h : (x - (s.ast (s.idFor host ast)).poolRd).toNat ≤ 2 ^ (s.ast (s.idFor host ast)).poolLog2 / 8) :
    exec (.poolwrWrite host ast x) s = .next (s.setAst { s.ast (s.idFor host ast) with poolWr := x }) :=
  (exec_poolwrWrite_admin hs ha x).trans (congrArg _ (s.setPoolwr_fits _ x h))
theorem exec_poolwrWrite_error (hs : s.hostSees host = true) (ha : s.admin host = true) {x : Word}
    (h : 2 ^ (s.ast (s.idFor host ast)).poolLog2 / 8 < (x - (s.ast (s.idFor host ast)).poolRd).toNat) :
    ∃ t, exec (.poolwrWrite host ast x) s = .next t ∧ (t.ast (s.idFor host ast)).poolErr = true ∧ (t.ast (s.idFor host ast)).poolWr = x :=
  have he := s.setPoolwr_error _ x h
  ⟨_, exec_poolwrWrite_admin hs ha x, congrArg Ast.poolErr he, congrArg Ast.poolWr he⟩

/-- Word 0 of a record that no context is bound to, but for KEYID 0 with VALID. -/
def Ast.setHead (a : Ast) (v : DWord) : Ast :=
  { a.setMode v with valid := bitsOf v.toNat 31 1 == 1, keyid := BitVec.ofNat 8 (bitsOf v.toNat 16 8), colour := BitVec.ofNat 4 (bitsOf v.toNat 12 4) }

theorem exec_astRecordWrite_bound (hs : s.hostSees host = true) (ha : s.admin host = true)
    (hb : (s.boundTo (s.hostPart host) ast.toNat).isSome = true) (v : DWord) :
    exec (.astRecordWrite host ast 0 v) s = .next (s.setAst ((s.ast (s.idFor host ast)).setMode v)) ∧
    exec (.astRecordWrite host ast 3 v) s = .next s ∧ exec (.astRecordWrite host ast 6 v) s = .next s := by
  refine ⟨?_, ?_, ?_⟩
  · show execAstRecordWrite host ast 0 v s = _
    rw [execAstRecordWrite, adminReg_of_admin hs ha]
    simp [hb, State.idFor]
  · show execAstRecordWrite host ast 3 v s = _
    rw [execAstRecordWrite, adminReg_of_admin hs ha]
    simp [hb]
  · show execAstRecordWrite host ast 6 v s = _
    rw [execAstRecordWrite, adminReg_of_admin hs ha]
    simp [hb]

theorem exec_astRecordWrite_head (hs : s.hostSees host = true) (ha : s.admin host = true)
    (hb : ¬ (s.boundTo (s.hostPart host) ast.toNat).isSome = true) (v : DWord) :
    exec (.astRecordWrite host ast 0 v) s =
      .next (if bitsOf v.toNat 31 1 = 1 ∧ bitsOf v.toNat 16 8 = 0 then s else s.setAst ((s.ast (s.idFor host ast)).setHead v)) := by
  have hb' : (s.boundTo (s.hostPart host) ast.toNat).isSome = false := by simpa using hb
  have hk : (v.extractLsb' 16 8 == 0) = (bitsOf v.toNat 16 8 == 0) := by
    rw [← toNat_extractLsb', Bool.eq_iff_iff, beq_iff_eq, beq_iff_eq, ← BitVec.toNat_inj]; rfl
  have hc : (v.getLsbD 31 && v.extractLsb' 16 8 == 0 && !false) = decide (bitsOf v.toNat 31 1 = 1 ∧ bitsOf v.toNat 16 8 = 0) := by
    rw [getLsbD_eq_bitsOf, hk, Bool.not_false, Bool.and_true, Bool.decide_and]; rfl
  show execAstRecordWrite host ast 0 v s = _
  rw [execAstRecordWrite, adminReg_of_admin hs ha]
  show (if _ then _ else _) = _
  rw [hb', hc]
  by_cases h : bitsOf v.toNat 31 1 = 1 ∧ bitsOf v.toNat 16 8 = 0
  · rw [if_pos (decide_eq_true h), if_pos h]
  · rw [if_neg (by simpa using h), if_neg h]
    dsimp only
    rw [if_neg Bool.false_ne_true, Ast.setHead, ofNat_bitsOf, ofNat_bitsOf, ← getLsbD_eq_bitsOf, State.idFor]
/-- A record is not made valid with KEYID 0 (R318). -/
theorem exec_astRecordWrite_keyless (hs : s.hostSees host = true) (ha : s.admin host = true)
    (hb : ¬ (s.boundTo (s.hostPart host) ast.toNat).isSome = true) {v : DWord} (h1 : bitsOf v.toNat 31 1 = 1) (h0 : bitsOf v.toNat 16 8 = 0) :
    exec (.astRecordWrite host ast 0 v) s = .next s :=
  (exec_astRecordWrite_head hs ha hb v).trans (congrArg _ (if_pos ⟨h1, h0⟩))
theorem exec_astRecordWrite_setHead (hs : s.hostSees host = true) (ha : s.admin host = true)
    (hb : ¬ (s.boundTo (s.hostPart host) ast.toNat).isSome = true) {v : DWord} (h : bitsOf v.toNat 31 1 = 0 ∨ bitsOf v.toNat 16 8 ≠ 0) :
    exec (.astRecordWrite host ast 0 v) s = .next (s.setAst ((s.ast (s.idFor host ast)).setHead v)) :=
  (exec_astRecordWrite_head hs ha hb v).trans (congrArg _ (if_neg (by omega)))
theorem exec_astRecordWrite_ttroot (hs : s.hostSees host = true) (ha : s.admin host = true)
    (hb : ¬ (s.boundTo (s.hostPart host) ast.toNat).isSome = true) (v : DWord) :
    exec (.astRecordWrite host ast 3 v) s = .next (s.setAst { s.ast (s.idFor host ast) with ttroot := bitsOf v.toNat 24 40 }) := by
  show execAstRecordWrite host ast 3 v s = _
  rw [execAstRecordWrite, adminReg_of_admin hs ha]
  exact congrArg Host.Outcome.next (if_neg hb)
theorem exec_astRecordWrite_pool (hs : s.hostSees host = true) (ha : s.admin host = true)
    (hb : ¬ (s.boundTo (s.hostPart host) ast.toNat).isSome = true) (v : DWord) (hg : bitsOf v.toNat 0 36 * 65536 < 2 ^ 40)
    (hl : bitsOf v.toNat 43 5 = 0 ∨ 12 ≤ bitsOf v.toNat 43 5 ∧ bitsOf v.toNat 43 5 ≤ 26 ∧ bitsOf v.toNat 0 36 * 65536 % 2 ^ bitsOf v.toNat 43 5 = 0) :
    exec (.astRecordWrite host ast 6 v) s =
      .next (s.setAst { s.ast (s.idFor host ast) with poolBase := bitsOf v.toNat 0 36, poolLog2 := bitsOf v.toNat 43 5 }) := by
  have hd : okDeviceGpa (bitsOf v.toNat 0 36 * 65536) = true := by
    rw [okDeviceGpa, Nat.div_eq_of_lt hg]; rfl
  show execAstRecordWrite host ast 6 v s = _
  rw [execAstRecordWrite, adminReg_of_admin hs ha]
  refine congrArg Host.Outcome.next (if_neg ?_)
  rw [hd]
  rintro (h | h | h)
  · exact hb h
  · exact h hl
  · exact Bool.false_ne_true h

/-! ### What the record shows -/

theorem bitsOf_b2n (b : Bool) : bitsOf (b2n b) 0 1 = if b then 1 else 0 := by cases b <;> rfl
theorem b2n_le_one (b : Bool) : b2n b ≤ 1 := by cases b <;> decide
theorem Ast.mode_walk (a : Ast) : bitsOf a.mode 0 1 = if a.walk then 1 else 0 := by
  show a.mode / 2 ^ 0 % 2 ^ 1 = b2n a.walk
  have hw := b2n_le_one a.walk
  unfold Ast.mode
  omega
theorem Ast.mode_traps (a : Ast) : bitsOf a.mode 4 1 = if a.traps then 1 else 0 := by
  show a.mode / 2 ^ 4 % 2 ^ 1 = b2n a.traps
  have hw := b2n_le_one a.walk
  have hf := b2n_le_one a.fserv
  have he := b2n_le_one a.esc
  have hr := b2n_le_one a.frel
  have ht := b2n_le_one a.traps
  unfold Ast.mode
  omega

/-- The fields of a record, each at its place (R318). -/
theorem Ast.record_fields (a : Ast) (hb : a.poolBase < 2 ^ 36) (hl : a.poolLog2 < 32) (ht : a.ttroot < 2 ^ 40) :
    bitsOf a.record 384 36 = a.poolBase ∧ bitsOf a.record 427 5 = a.poolLog2 ∧
    bitsOf a.record 432 32 = a.poolRd.toNat ∧ bitsOf a.record 464 32 = a.poolWr.toNat ∧ bitsOf a.record 216 40 = a.ttroot ∧ bitsOf a.record 16 8 = a.keyid.toNat ∧
    bitsOf a.record 12 4 = a.colour.toNat ∧ bitsOf a.record 31 1 = (if a.valid then 1 else 0) ∧ bitsOf a.record 0 1 = (if a.walk then 1 else 0) ∧
    bitsOf a.record 4 1 = (if a.traps then 1 else 0) := by
  simp only [Ast.record, bitsOf_fields_skip, bitsOf_fields_within, Nat.reduceLeDiff, Nat.reduceSub, Nat.reduceAdd, bitsOf_b2n, Ast.mode_walk,
    Ast.mode_traps, bitsOf_zero_of_lt hb, bitsOf_zero_of_lt (n := 5) hl, bitsOf_zero_of_lt ht, bitsOf_zero_of_lt (BitVec.isLt _), and_self]
end
end
end Sys2Proof.Machine
end

section
/-! Writes of SPBIND and of trap control, time control and attestation (R345, R350, R358, R372, R377, R388). -/

namespace Sys2Proof.Machine

variable {s : State} {host : Nat}

/-! ## SPBIND (R372) -/

/-- A write of SPBIND names its page as the last one, with whether the binding was denied. -/
theorem State.spPage_lastPage (s : State) (host : Nat) (page : BitVec 12) (denied : Bool) :
    (s.spPage host page denied).dev.lastPage.find? (fun x => x.1 == host) = some (host, page, denied) :=
  find?_upsert_self (by simp) _

theorem exec_spbindWrite_clear (hs : s.hostSees host = true) {v : DWord} (hv : v.getLsbD 63 = false) :
    let page := v.extractLsb' 0 12
    exec (.spbindWrite host v) s =
      .next ({ s with dev := { s.dev with binds := s.dev.binds.filter fun b => !(b.host == host && b.page == page) } }.spPage host page false) := by
  show execSpbindWrite host v s = _
  rw [execSpbindWrite, hostReg_of_sees hs, hv]
  rfl
theorem exec_spbindWrite_bind (hs : s.hostSees host = true) {v : DWord} (hv : v.getLsbD 63 = true)
    (hg : ((s.ctx (s.idFor host (v.extractLsb' 12 10))).st != .free && (s.ctx (s.idFor host (v.extractLsb' 12 10))).guardian host) = true) :
    let page := v.extractLsb' 0 12
    let b : Bind := { host, page, ctx := v.extractLsb' 12 10, prioMax := v.extractLsb' 32 3 }
    exec (.spbindWrite host v) s =
      .next ({ s with dev := { s.dev with binds := upsert (fun x => x.host == host && x.page == page) b s.dev.binds } }.spPage host page false) := by
  show execSpbindWrite host v s = _
  rw [execSpbindWrite, hostReg_of_sees hs, hv]
  exact if_pos hg
theorem exec_spbindWrite_denied (hs : s.hostSees host = true) {v : DWord} (hv : v.getLsbD 63 = true)
    (hg : ((s.ctx (s.idFor host (v.extractLsb' 12 10))).st != .free && (s.ctx (s.idFor host (v.extractLsb' 12 10))).guardian host) = false) :
    exec (.spbindWrite host v) s = .next (s.spPage host (v.extractLsb' 0 12) true) := by
  show execSpbindWrite host v s = _
  rw [execSpbindWrite, hostReg_of_sees hs, hv]
  exact if_neg (ne_true_of_eq_false hg)

/-- What a write of SPBIND leaves: the page's binding, and the page as the last one written. -/
theorem exec_spbindWrite (hs : s.hostSees host = true) (v : DWord) :
    let page := v.extractLsb' 0 12
    let ctx := v.extractLsb' 12 10
    let c := s.ctx (s.idFor host ctx)
    ∃ t, exec (.spbindWrite host v) s = .next t ∧
      (v.getLsbD 63 = false → ∀ b ∈ t.dev.binds, b.host ≠ host ∨ b.page ≠ page) ∧
      (v.getLsbD 63 = true → c.st ≠ .free → c.guardian host = true →
        t.dev.binds.find? (fun b => b.host == host && b.page == page) = some { host, page, ctx, prioMax := v.extractLsb' 32 3 }) ∧
      (v.getLsbD 63 = true → (c.st = .free ∨ c.guardian host = false) → t.dev.binds = s.dev.binds) ∧
      t.dev.lastPage.find? (fun x => x.1 == host) = some (host, page, v.getLsbD 63 && !(c.st != .free && c.guardian host)) := by
  intro page ctx c
  cases hv : v.getLsbD 63 with
  | false =>
    refine ⟨_, exec_spbindWrite_clear hs hv, fun _ b hb => ?_, fun h => Bool.noConfusion h, fun h => Bool.noConfusion h, State.spPage_lastPage ..⟩
    have hb' := (List.mem_filter.mp hb).2
    rwa [Bool.not_eq_true', Bool.and_eq_false_iff, beq_eq_false_iff_ne, beq_eq_false_iff_ne] at hb'
  | true =>
    cases hg : (c.st != .free && c.guardian host) with
    | true =>
      have hgood : c.st ≠ .free ∧ c.guardian host = true := by simpa using hg
      refine ⟨_, exec_spbindWrite_bind hs hv hg, fun h => Bool.noConfusion h, fun _ _ _ => ?_, fun _ hbad => ?_, State.spPage_lastPage ..⟩
      · exact find?_upsert_self (by rw [beq_self_eq_true, Bool.true_and, beq_iff_eq]) s.dev.binds
      rcases hbad with h | h
      · exact absurd h hgood.1
      · exact absurd (h.symm.trans hgood.2) Bool.false_ne_true
    | false =>
      refine ⟨_, exec_spbindWrite_denied hs hv hg, fun h => Bool.noConfusion h, fun _ hf hgu => ?_, fun _ _ => rfl, State.spPage_lastPage ..⟩
      have hnot : ¬ (c.st ≠ .free ∧ c.guardian host = true) := by simpa using hg
      exact absurd ⟨hf, hgu⟩ hnot

/-! ## Trap control (R345, R350, R358) -/

section
variable {ctx : BitVec 10}

section
variable (hs : s.hostSees host = true) (h : (s.ctx (s.idFor host ctx)).st = .free ∨ (s.ctx (s.idFor host ctx)).primary ≠ host) (v : DWord)
include hs h

theorem exec_actionTableWrite_other (hi : Bool) : exec (.actionTableWrite host ctx hi v) s = .next s := by
  show execActionTableWrite host ctx hi v s = _
  rw [execActionTableWrite, primaryReg_of_other hs h]
theorem exec_saveMemoryWrite_other (size : Bool) : exec (.saveMemoryWrite host ctx size v) s = .next s := by
  show execSaveMemoryWrite host ctx size v s = _
  rw [execSaveMemoryWrite, primaryReg_of_other hs h]
theorem exec_sliceWrite_other : exec (.sliceWrite host ctx v) s = .next s := by
  show execSliceWrite host ctx v s = _
  rw [execSliceWrite, primaryReg_of_other hs h]
end

variable (hs : s.hostSees host = true) (hf : (s.ctx (s.idFor host ctx)).st ≠ .free) (hp : (s.ctx (s.idFor host ctx)).primary = host) (v : DWord)
include hs hf hp

theorem exec_actionTableWrite (hi : Bool) : exec (.actionTableWrite host ctx hi v) s =
    .next (s.setCtx ((s.ctx (s.idFor host ctx)).setTrapReg (if hi then 3 else 2) v)) :=
  primaryReg_of_primary hs hf hp "ACTION_TABLE_WRITE" fun _ c => .next (s.setCtx (c.setTrapReg (if hi then 3 else 2) v))

theorem exec_sliceWrite : exec (.sliceWrite host ctx v) s = .next (if 100 ≤ v.toNat % 2 ^ 17 ∧ v.toNat % 2 ^ 17 ≤ 100000 then
    s.setCtx { s.ctx (s.idFor host ctx) with slice := BitVec.ofNat 64 (v.toNat % 2 ^ 17) } else s) := by
  show execSliceWrite host ctx v s = _
  rw [execSliceWrite, primaryReg_of_primary hs hf hp]
  simp only [bitsOf, Nat.pow_zero, Nat.div_one]
theorem exec_sliceWrite_within (h1 : 100 ≤ v.toNat % 2 ^ 17) (h2 : v.toNat % 2 ^ 17 ≤ 100000) : exec (.sliceWrite host ctx v) s =
    .next (s.setCtx { s.ctx (s.idFor host ctx) with slice := BitVec.ofNat 64 (v.toNat % 2 ^ 17) }) :=
  (exec_sliceWrite hs hf hp v).trans (congrArg _ (if_pos ⟨h1, h2⟩))
theorem exec_sliceWrite_beyond (h : v.toNat % 2 ^ 17 < 100 ∨ 100000 < v.toNat % 2 ^ 17) : exec (.sliceWrite host ctx v) s = .next s :=
  (exec_sliceWrite hs hf hp v).trans (congrArg _ (if_neg (by omega)))

end

/-- A context has a launch or a group in save memory: its save memory stays where it is (R358). -/
def State.savesFor (s : State) (cid : Nat) : Bool :=
  s.launches.any (fun l => l.cid == cid) || s.groups.any fun g => g.saved && (match s.team g.team with | some t => t.cid == cid | none => false)

theorem State.savesFor_iff (s : State) (cid : Nat) : s.savesFor cid = true ↔
    (∃ l ∈ s.launches, l.cid = cid) ∨ ∃ g ∈ s.groups, g.saved = true ∧ ∃ t, s.team g.team = some t ∧ t.cid = cid := by
  have hteam (g : Group) : (match s.team g.team with | some t => t.cid == cid | none => false) = true ↔ ∃ t, s.team g.team = some t ∧ t.cid = cid := by
    cases s.team g.team <;> simp
  simp only [State.savesFor, Bool.or_eq_true, List.any_eq_true, Bool.and_eq_true, hteam, beq_iff_eq]

section
variable {ctx : BitVec 10} (hs : s.hostSees host = true) (hf : (s.ctx (s.idFor host ctx)).st ≠ .free)
  (hp : (s.ctx (s.idFor host ctx)).primary = host) (v : DWord)
include hs hf hp

theorem exec_saveMemoryWrite_used (hu : s.savesFor (s.idFor host ctx) = true) (size : Bool) : exec (.saveMemoryWrite host ctx size v) s = .next s := by
  show execSaveMemoryWrite host ctx size v s = _
  rw [execSaveMemoryWrite, primaryReg_of_primary hs hf hp]
  exact if_pos hu
theorem exec_saveMemoryWrite_size (hu : ¬ s.savesFor (s.idFor host ctx) = true) :
    exec (.saveMemoryWrite host ctx true v) s = .next (s.setCtx { s.ctx (s.idFor host ctx) with saveSize := v &&& 0x000000FFFFFF0000 }) := by
  show execSaveMemoryWrite host ctx true v s = _
  rw [execSaveMemoryWrite, primaryReg_of_primary hs hf hp]
  exact (if_neg hu).trans (if_pos rfl)
theorem exec_saveMemoryWrite_base (hu : ¬ s.savesFor (s.idFor host ctx) = true) (hv : (v &&& 0x000FFFFFFFFF0000).toNat < 2 ^ 40) :
    exec (.saveMemoryWrite host ctx false v) s = .next (s.setCtx { s.ctx (s.idFor host ctx) with saveBase := v &&& 0x000FFFFFFFFF0000 }) := by
  have hd : okDeviceGpa (v &&& 0x000FFFFFFFFF0000).toNat = true := by
    rw [okDeviceGpa, Nat.div_eq_of_lt hv]; rfl
  show execSaveMemoryWrite host ctx false v s = _
  rw [execSaveMemoryWrite, primaryReg_of_primary hs hf hp]
  exact (if_neg hu).trans ((if_neg Bool.false_ne_true).trans (congrArg Host.Outcome.next (if_pos hd)))
end

/-! ## Time and attestation (R377, R378, R388) -/

section
variable (hs : s.hostSees host = true) (v : DWord)
include hs

theorem exec_timeadjWrite_other (ha : s.admin host = false) : exec (.timeadjWrite host v) s = .next s := by
  show execTimeadjWrite host v s = _
  rw [execTimeadjWrite, adminReg_of_other hs ha]
theorem exec_timeadjWrite_corrects (ha : s.admin host = true) (h3 : s.dev.timeSrc.getLsbD 3 = true) :
    exec (.timeadjWrite host v) s = .next (s.correct (-v.toInt)) := by
  show execTimeadjWrite host v s = _
  rw [execTimeadjWrite, adminReg_of_admin hs ha, if_pos h3]
/-- In hardware mode TIMEADJ has no effect (R377). -/
theorem exec_timeadjWrite_hardware (ha : s.admin host = true) (h3 : s.dev.timeSrc.getLsbD 3 = false) : exec (.timeadjWrite host v) s = .next s := by
  show execTimeadjWrite host v s = _
  rw [execTimeadjWrite, adminReg_of_admin hs ha, h3, if_neg Bool.false_ne_true]

theorem exec_attreqWrite_one (hv : v = 1) : exec (.attreqWrite host v) s =
    .next { s with dev := { s.dev with attest := upsert (fun x => x.1 == host) (host, false, []) s.dev.attest } } := by
  show execAttreqWrite host v s = _
  rw [execAttreqWrite, hostReg_of_sees hs, if_pos hv]
theorem exec_attreqWrite_ignored (hv : v ≠ 1) : exec (.attreqWrite host v) s = .next s := by
  show execAttreqWrite host v s = _
  rw [execAttreqWrite, hostReg_of_sees hs, if_neg hv]
end

theorem exec_timeOffsetMeasure (hr : s.dev.st = .running) (h3 : s.dev.timeSrc.getLsbD 3 = false) (h0 : s.dev.timeSrc.toNat % 8 ≠ 0) (ofs : Int) :
    exec (.timeOffsetMeasure ofs) s = .next ({ s with dev := { s.dev with timeOfs := BitVec.ofInt 64 ofs } }.correct ofs) := by
  have hsrc : (s.dev.timeSrc.extractLsb' 0 3 == 0) = false := by
    rw [beq_eq_false_iff_ne]
    intro h
    have := congrArg BitVec.toNat h
    rw [toNat_extractLsb', bitsOf, Nat.pow_zero, Nat.div_one] at this
    exact h0 this
  exact if_neg (by rw [hr, h3, hsrc]; decide)

theorem exec_attestationReportReady {bs : List Byte} (h : s.dev.attest.find? (fun x => x.1 == host) = some (host, false, bs)) :
    exec (.attestationReportReady host) s =
      .next { s with dev := { s.dev with attest := upsert (fun x => x.1 == host) (host, true, s.report host) s.dev.attest } } := by
  show execAttestationReportReady host s = _
  rw [execAttestationReportReady, h]

/-! ### The report -/

@[simp] theorem length_leBytes (n v : Nat) : (leBytes n v).length = n := by simp [leBytes]

/-- The nonce that a host has written, 0 where it has not. -/
def State.nonce (s : State) (host : Nat) : List Byte := (assoc [] host s.dev.nonces ++ List.replicate 32 0).take 32
@[simp] theorem State.length_nonce (s : State) (host : Nat) : (s.nonce host).length = 32 := by simp [State.nonce]

theorem State.report_eq (s : State) (host : Nat) : ∃ rest : List Byte, rest.length = 8 + 104 + (384 + 16224) ∧
    s.report host = s.nonce host ++ ((List.range 96).map Config.digest ++ leBytes 8 s.dev.svn.toNat) ++ leBytes 8 s.time ++ rest := by
  let p := s.part (s.hostPart host)
  refine ⟨leBytes 8 (p.id + p.admin * 16) ++ List.replicate 104 0 ++ (List.range (384 + 16224)).map (Config.signature s.free (s.reportBody host)), ?_, ?_⟩
  · simp only [List.length_append, length_leBytes, List.length_replicate, List.length_map, List.length_range]
  · simp only [State.report, State.reportBody, State.nonce, List.append_assoc, p]

theorem State.report_fields (s : State) (host : Nat) : (s.report host).length = 256 + 384 + 16224 ∧
    (s.report host).take 32 = s.nonce host ∧ ((s.report host).drop 136).take 8 = leBytes 8 s.time := by
  obtain ⟨rest, hl, hr⟩ := s.report_eq host
  have h136 : (s.nonce host ++ ((List.range 96).map Config.digest ++ leBytes 8 s.dev.svn.toNat)).length = 136 := by simp
  refine ⟨?_, ?_, ?_⟩
  · rw [hr, List.length_append, List.length_append, h136, hl, length_leBytes]
  · rw [hr, List.append_assoc, List.append_assoc]
    exact List.take_left' (s.length_nonce host)
  · rw [hr, List.append_assoc, List.drop_left' h136]
    exact List.take_left' (length_leBytes 8 s.time)

end Sys2Proof.Machine
end

section
/-! REGISTER_WRITE by the block that an offset names: trap control (R350), nonces (R388), the administering host's registers (R316, R377),
and the MSI-X table (R369, R375). -/

namespace Sys2Proof.Machine

section
variable {s : State} {host : Nat}

/-! ## The trap control block -/

theorem ownWrite_trapReg (n : BitVec 10) {sel : Nat} (h : sel = 0 ∨ sel = 1 ∨ sel = 4) : ownWrite (0x340000 + 64 * n.toNat + 8 * sel) = false := by
  have hn := n.isLt
  simp only [ownWrite, Bool.or_eq_false_iff, Bool.and_eq_false_iff, beq_eq_false_iff_ne, decide_eq_false_iff_not]
  omega

theorem exec_registerWrite_trapReg (hs : s.hostSees host = true) (n : BitVec 10) {sel : Nat} (h : sel = 0 ∨ sel = 1 ∨ sel = 4) (v : DWord) :
    let c := s.ctx (s.idFor host n)
    exec (.registerWrite host (0x340000 + 64 * n.toNat + 8 * sel) v) s =
      .next (if c.st != .free && c.primary == host then s.setCtx (c.setTrapReg sel v) else s) := by
  have hn := n.isLt
  have hcid : s.hostPart host * 1024 + (0x340000 + 64 * n.toNat + 8 * sel - 0x340000) / 64 = s.idFor host n := by
    rw [State.idFor]; omega
  have hsel : (0x340000 + 64 * n.toNat + 8 * sel) % 64 / 8 = sel := by omega
  have hmod : (0x340000 + 64 * n.toNat + 8 * sel) % 8 = 0 := by omega
  have hle : decide (sel ≤ 4) = true := by rcases h with rfl | rfl | rfl <;> rfl
  show execRegisterWrite host _ v s = _
  rw [execRegisterWrite, ownWrite_trapReg n h, if_neg Bool.false_ne_true, hostReg_of_sees hs, if_neg (by omega), if_pos (by omega)]
  dsimp only
  rw [hcid, hsel, hmod, hle]
  simp only [beq_self_eq_true, Bool.and_true]

theorem exec_registerWrite_trapReg_other (hs : s.hostSees host = true) {n : BitVec 10}
    (h : (s.ctx (s.idFor host n)).st = .free ∨ (s.ctx (s.idFor host n)).primary ≠ host) {sel : Nat} (hsel : sel = 0 ∨ sel = 1 ∨ sel = 4) (v : DWord) :
    exec (.registerWrite host (0x340000 + 64 * n.toNat + 8 * sel) v) s = .next s := by
  have hg : ((s.ctx (s.idFor host n)).st != .free && (s.ctx (s.idFor host n)).primary == host) = false := by
    rcases h with h | h <;> simp [h]
  exact (exec_registerWrite_trapReg hs n hsel v).trans (congrArg _ (if_neg (ne_true_of_eq_false hg)))
theorem exec_registerWrite_trapReg_primary (hs : s.hostSees host = true) {n : BitVec 10} (hf : (s.ctx (s.idFor host n)).st ≠ .free)
    (hp : (s.ctx (s.idFor host n)).primary = host) {sel : Nat} (hsel : sel = 0 ∨ sel = 1 ∨ sel = 4) (v : DWord) :
    exec (.registerWrite host (0x340000 + 64 * n.toNat + 8 * sel) v) s = .next (s.setCtx ((s.ctx (s.idFor host n)).setTrapReg sel v)) := by
  have hg : ((s.ctx (s.idFor host n)).st != .free && (s.ctx (s.idFor host n)).primary == host) = true := by simp [hf, hp]
  exact (exec_registerWrite_trapReg hs n hsel v).trans (congrArg _ (if_pos hg))

/-! ## Nonces -/

/-- Eight bytes of a host's nonce. -/
def State.setNonce (s : State) (host at_ : Nat) (bs : List Byte) : State :=
  { s with dev := { s.dev with nonces := assocSet host ((s.nonce host).take at_ ++ bs ++ (s.nonce host).drop (at_ + 8)) s.dev.nonces } }

theorem exec_registerWrite_nonce (hs : s.hostSees host = true) {n : Nat} (h : n < 4) (v : DWord) :
    exec (.registerWrite host (0x10000 + 8 * n) v) s = .next (s.setNonce host (8 * n) (leBytes 8 v.toNat)) := by
  have ho : ownWrite (0x10000 + 8 * n) = false := by
    simp only [ownWrite, Bool.or_eq_false_iff, Bool.and_eq_false_iff, beq_eq_false_iff_ne, decide_eq_false_iff_not]
    omega
  show execRegisterWrite host _ v s = _
  rw [execRegisterWrite, ho, if_neg Bool.false_ne_true, hostReg_of_sees hs, if_neg (by omega), if_neg (by omega), if_pos (by omega)]
  dsimp only
  rw [Nat.add_sub_cancel_left, State.setNonce, State.nonce]

/-- Bytes written over a list at a place are read there. -/
theorem getD_overwrite {α : Type} (l bs : List α) {at_ k : Nat} (rest : List α) (hl : at_ ≤ l.length) (hk : k < bs.length) (d : α) :
    (l.take at_ ++ bs ++ rest).getD (at_ + k) d = bs.getD k d := by
  have ht : (l.take at_).length = at_ := List.length_take_of_le hl
  rw [List.append_assoc, List.getD_eq_getElem?_getD, List.getElem?_append_right (by omega), ht, Nat.add_sub_cancel_left,
    List.getElem?_append_left hk, List.getD_eq_getElem?_getD]

/-- The bytes of a nonce that a write has set (R388). -/
theorem State.setNonce_getD (s : State) (host : Nat) {at_ k : Nat} {bs : List Byte} (ha : at_ ≤ 32) (hk : k < bs.length) :
    (assoc [] host (s.setNonce host at_ bs).dev.nonces).getD (at_ + k) 0 = bs.getD k 0 := by
  rw [State.setNonce, assoc_assocSet_self]
  exact getD_overwrite _ bs _ (by rwa [s.length_nonce]) hk 0

/-! ## The administering host's registers -/

theorem exec_registerWrite_timeSrc_other (hs : s.hostSees host = true) (ha : s.admin host = false) (v : DWord) :
    exec (.registerWrite host 0x1000 v) s = .next s := by
  show execRegisterWrite host 0x1000 v s = _
  rw [execRegisterWrite, hostReg_of_sees hs, ha]
  rfl
theorem exec_registerWrite_timeSrc (hs : s.hostSees host = true) (ha : s.admin host = true) (v : DWord) : exec (.registerWrite host 0x1000 v) s =
    .next { s with dev := { s.dev with timeSrc := timeSrcMerge s.dev.timeSrc v } } := by
  show execRegisterWrite host 0x1000 v s = _
  rw [execRegisterWrite, hostReg_of_sees hs, ha]
  rfl
theorem exec_registerWrite_s2sel (hs : s.hostSees host = true) (ha : s.admin host = true) (v : DWord) : exec (.registerWrite host 0x300010 v) s =
    .next (s.setPart { s.part (s.hostPart host) with s2sel := v &&& 0x000000FFFFFF03FF }) := by
  show execRegisterWrite host 0x300010 v s = _
  rw [execRegisterWrite, hostReg_of_sees hs, ha]
  rfl
theorem exec_registerWrite_frstat (hs : s.hostSees host = true) (ha : s.admin host = true) (v : DWord) : exec (.registerWrite host 0x300008 v) s =
    .next (s.setPart { s.part (s.hostPart host) with relOvf := (s.part (s.hostPart host)).relOvf && !v.getLsbD 31 }) := by
  show execRegisterWrite host 0x300008 v s = _
  rw [execRegisterWrite, hostReg_of_sees hs, ha]
  rfl

end

/-! ## MSI-X (R369, R375) -/

section
variable {s : State} {host port vec : Nat}

theorem Dev.vector_key (d : Dev) (port vec : Nat) : (d.vector port vec).port = port ∧ (d.vector port vec).vec = vec := by
  unfold Dev.vector
  cases h : d.vectors.find? fun v => v.port == port && v.vec == vec with
  | none => exact ⟨rfl, rfl⟩
  | some x => simpa using List.find?_some h
theorem Dev.vector_setVector (d : Dev) {x : MsixVec} (hp : x.port = port) (hv : x.vec = vec) : (d.setVector x).vector port vec = x := by
  subst hp hv
  rw [Dev.vector, Dev.setVector, find?_upsert_self (by simp), Option.getD_some]

theorem State.msixSend_down (h : s.dev.portUp.getD port false = false) : s.msixSend (port, vec) = s := by
  rw [State.msixSend, h]; rfl
theorem State.msixSend_masked (h : s.dev.portUp.getD port false = true) (hm : (s.dev.vector port vec).masked = true) :
    s.msixSend (port, vec) = { s with dev := s.dev.setVector { s.dev.vector port vec with pending := true } } := by
  rw [State.msixSend, h]
  exact if_pos hm
theorem State.msixSend_open (h : s.dev.portUp.getD port false = true) (hm : (s.dev.vector port vec).masked = false) :
    s.msixSend (port, vec) = { s with dev := { s.dev with msix := s.dev.msix ++ [(port, vec)] } } := by
  rw [State.msixSend, h]
  exact if_neg (ne_true_of_eq_false hm)

/-- A write of BAR4 reaches the vector of its port, from a host of the port (R369). -/
theorem exec_registerWrite_msix (hs : s.hostSees host = true) (hp : port < 8) (hv : vec < 2048) {d : Nat} (hd : d < 16) (v : DWord) :
    exec (.registerWrite host (2 ^ 40 + port * 2 ^ 20 + 16 * vec + d) v) s = .next (if s.portOf host port then s.msixWrite port (16 * vec + d) v else s) := by
  have ho : ownWrite (2 ^ 40 + port * 2 ^ 20 + 16 * vec + d) = false := by
    simp only [ownWrite, Bool.or_eq_false_iff, Bool.and_eq_false_iff, beq_eq_false_iff_ne, decide_eq_false_iff_not]
    omega
  have hport : (2 ^ 40 + port * 2 ^ 20 + 16 * vec + d) / 2 ^ 20 % 8 = port := by omega
  have hoff : (2 ^ 40 + port * 2 ^ 20 + 16 * vec + d) % 2 ^ 20 = 16 * vec + d := by omega
  show execRegisterWrite host _ v s = _
  rw [execRegisterWrite, ho, if_neg Bool.false_ne_true, hostReg_of_sees hs, if_pos (by omega)]
  dsimp only
  rw [hport, hoff]

/-- The vector after a write of its second word (R375). -/
def MsixVec.withData (x : MsixVec) (v : DWord) : MsixVec := { x with data := loOf v, masked := v.getLsbD 32 }

section
variable {off : Nat} (hb : off < 0x8000) (hi : off / 16 = vec)
include hb hi

theorem State.msixWrite_addr (hw : off % 16 = 0) (v : DWord) :
    s.msixWrite port off v = { s with dev := s.dev.setVector { s.dev.vector port vec with addr := v } } := by
  unfold State.msixWrite
  dsimp only
  rw [if_neg (by omega), if_pos hw, hi]
theorem State.msixWrite_data (hw : off % 16 = 8) {v : DWord} (h : (s.dev.vector port vec).pending = false ∨ v.getLsbD 32 = true) :
    s.msixWrite port off v = { s with dev := s.dev.setVector ((s.dev.vector port vec).withData v) } := by
  have hc : ((s.dev.vector port vec).pending && !v.getLsbD 32) = false := by rcases h with h | h <;> simp [h]
  unfold State.msixWrite
  dsimp only
  subst hi
  rw [if_neg (by omega), if_neg (by omega), if_pos hw]
  exact if_neg (ne_true_of_eq_false hc)
/-- A vector that is unmasked sends what it holds pending. -/
theorem State.msixWrite_unmask (hw : off % 16 = 8) {v : DWord} (hup : s.dev.portUp.getD port false = true)
    (hx : (s.dev.vector port vec).pending = true) (hm : v.getLsbD 32 = false) :
    s.msixWrite port off v = { s with dev :=
      { s.dev.setVector { (s.dev.vector port vec).withData v with pending := false } with msix := s.dev.msix ++ [(port, vec)] } } := by
  have hc : ((s.dev.vector port vec).pending && !v.getLsbD 32) = true := by rw [hx, hm]; rfl
  obtain ⟨hkp, hkv⟩ := s.dev.vector_key port vec
  have hvec : (s.dev.setVector { (s.dev.vector port vec).withData v with pending := false }).vector port vec =
      { (s.dev.vector port vec).withData v with pending := false } := Dev.vector_setVector _ hkp hkv
  unfold State.msixWrite
  dsimp only
  subst hi
  rw [if_neg (by omega), if_neg (by omega), if_pos hw]
  refine (if_pos hc).trans (State.msixSend_open (s := { s with dev := s.dev.setVector _ }) hup ?_)
  exact (congrArg MsixVec.masked hvec).trans hm
end

/-! ### The words of a vector -/

section
variable (hs : s.hostSees host = true) (hp : port < 8) (hv : vec < 2048) {v : DWord}
include hs hp hv

theorem exec_registerWrite_msix_other (ho : s.portOf host port = false) {d : Nat} (hd : d < 16) (v : DWord) :
    exec (.registerWrite host (2 ^ 40 + port * 2 ^ 20 + 16 * vec + d) v) s = .next s :=
  (exec_registerWrite_msix hs hp hv hd v).trans (congrArg _ (if_neg (ne_true_of_eq_false ho)))

variable (ho : s.portOf host port = true)
include ho

theorem exec_registerWrite_msix_addr (v : DWord) : exec (.registerWrite host (2 ^ 40 + port * 2 ^ 20 + 16 * vec + 0) v) s =
    .next { s with dev := s.dev.setVector { s.dev.vector port vec with addr := v } } :=
  (exec_registerWrite_msix hs hp hv (by decide) v).trans
    (congrArg _ ((if_pos ho).trans (State.msixWrite_addr (by omega) (by omega) (by omega) v)))
theorem exec_registerWrite_msix_data (h : (s.dev.vector port vec).pending = false ∨ v.getLsbD 32 = true) :
    exec (.registerWrite host (2 ^ 40 + port * 2 ^ 20 + 16 * vec + 8) v) s =
      .next { s with dev := s.dev.setVector ((s.dev.vector port vec).withData v) } :=
  (exec_registerWrite_msix hs hp hv (by decide) v).trans
    (congrArg _ ((if_pos ho).trans (State.msixWrite_data (by omega) (by omega) (by omega) h)))
theorem exec_registerWrite_msix_unmask (hx : (s.dev.vector port vec).pending = true) (hm : v.getLsbD 32 = false) :
    exec (.registerWrite host (2 ^ 40 + port * 2 ^ 20 + 16 * vec + 8) v) s = .next { s with dev :=
      { s.dev.setVector { (s.dev.vector port vec).withData v with pending := false } with msix := s.dev.msix ++ [(port, vec)] } } :=
  have hup : s.dev.portUp.getD port false = true := (Bool.and_eq_true_iff.mp ho).2
  (exec_registerWrite_msix hs hp hv (by decide) v).trans
    (congrArg _ ((if_pos ho).trans (State.msixWrite_unmask (by omega) (by omega) (by omega) hup hx hm)))
end
end

end Sys2Proof.Machine
end

section
/-! O49: the clauses of `Obligations.HostRegisters`, each from the rules of its registers. -/

namespace Sys2Proof.Machine

/-- Settles O49: the clauses go by the blocks of registers, and each is what the rules of the block say of a write by its owner and by
another host; the clause on the passing of time is `State.tick_spec`, that on a correction the two cases of `State.correct`. -/
theorem hostRegisters : Obligations.HostRegisters := by
  unfold Obligations.HostRegisters
  intro sees cidOf aidOf
  have hsee {s : State} {host : Nat} (h : sees s host) : s.hostSees host = true := State.hostSees_of h.1 h.2
  refine ⟨?rings, ?asts, fun a hb hl ht => a.record_fields hb hl ht, fun s host v h => exec_spbindWrite (hsee h) v, ?traps, ?admin,
    fun s ofs hr h3 h0 => exec_timeOffsetMeasure hr h3 h0 ofs, fun s e => ⟨s.correct_slewed, fun he => s.correct_stepped he⟩, fun s _ => s.tick_spec,
    ?msix, fun s host bs h => exec_attestationReportReady h, fun s host => s.report_fields host⟩
  case rings =>
    intro s host ctx v h cid c
    have hs := hsee h
    exact ⟨fun ho => exec_rqreadWrite_other hs v ho, fun hp hf hv => exec_rqreadWrite_fits hs hp hf hv,
      fun hp hf hv => exec_rqreadWrite_error hs hp hf hv, fun r hr hl => exec_evreadWrite_ring hs v hr hl⟩
  case asts =>
    intro s host ast v w h aid a bound f
    have hs := hsee h
    exact ⟨fun ha => ⟨exec_astRecordWrite_other hs ha w v, exec_poolwrWrite_other hs ha⟩,
      fun ha => ⟨exec_astRecordWrite_bound hs ha (v := v), fun hb h1 h0 => exec_astRecordWrite_keyless hs ha hb h1 h0,
        fun hb hh => exec_astRecordWrite_setHead hs ha hb hh, fun hb => exec_astRecordWrite_ttroot hs ha hb v,
        fun hb hg hl => exec_astRecordWrite_pool hs ha hb v hg hl, fun x hx => exec_poolwrWrite_fits hs ha hx, fun x hx => exec_poolwrWrite_error hs ha hx⟩,
      rfl, rfl, rfl, rfl, rfl⟩
  case traps =>
    intro s host ctx v h cid c at_ used
    have hs := hsee h
    have huse : used ↔ s.savesFor cid = true := (s.savesFor_iff cid).symm
    exact ⟨fun ho hi sz => ⟨exec_actionTableWrite_other hs ho v hi, exec_saveMemoryWrite_other hs ho v sz, exec_sliceWrite_other hs ho v,
        exec_registerWrite_trapReg_other hs ho (sel := 0) (by decide) v⟩,
      fun hf hp => ⟨exec_actionTableWrite hs hf hp v false, exec_actionTableWrite hs hf hp v true,
        fun hu => exec_saveMemoryWrite_size hs hf hp v (mt huse.mpr hu), fun hu hv => exec_saveMemoryWrite_base hs hf hp v (mt huse.mpr hu) hv,
        fun hu => exec_saveMemoryWrite_used hs hf hp v (huse.mp hu), exec_sliceWrite_within hs hf hp v, exec_sliceWrite_beyond hs hf hp v,
        exec_registerWrite_trapReg_primary hs hf hp (sel := 0) (by decide) v, exec_registerWrite_trapReg_primary hs hf hp (sel := 1) (by decide) v,
        exec_registerWrite_trapReg_primary hs hf hp (sel := 4) (by decide) v⟩⟩
  case admin =>
    intro s host v h p
    have hs := hsee h
    exact ⟨fun ha => ⟨exec_timeadjWrite_corrects hs v ha, exec_timeadjWrite_hardware hs v ha, exec_registerWrite_timeSrc hs ha v,
        exec_registerWrite_s2sel hs ha v, exec_registerWrite_frstat hs ha v⟩,
      fun ha => ⟨exec_timeadjWrite_other hs v ha, exec_registerWrite_timeSrc_other hs ha v⟩, exec_attreqWrite_one hs v, exec_attreqWrite_ignored hs v,
      fun n hn => ⟨_, exec_registerWrite_nonce hs hn v, rfl, fun k hk => s.setNonce_getD host (by omega) (by rwa [length_leBytes])⟩⟩
  case msix =>
    intro s host port vec v h hp hv off x y
    have hs := hsee h
    exact ⟨fun ho => ⟨exec_registerWrite_msix_other hs hp hv ho (d := 0) (by decide) v, exec_registerWrite_msix_other hs hp hv ho (by decide) v⟩,
      fun ho => ⟨exec_registerWrite_msix_addr hs hp hv ho v, exec_registerWrite_msix_data hs hp hv ho, exec_registerWrite_msix_unmask hs hp hv ho⟩,
      State.msixSend_down, State.msixSend_masked, State.msixSend_open⟩

end Sys2Proof.Machine
end

section
/-! O27: acceptance of a launch, the word LAUNCH, and what a fresh group holds (R15, R16, R54, R274-R276, R376). -/

namespace Sys2Proof.Machine

/-! ## Acceptance, one equation for each answer -/

/-- The descriptor is malformed, is a rung's, or asks for a CORES grid that does not fit the empty partition (R15, R16, R274). -/
def State.refuses (s : State) (cid v : Nat) : Prop :=
  descOk v = false ∨ (parseDesc v).rung = true ∨
    ((parseDesc v).cores = true ∧ coresFit (s.part (cid / 1024)).dies (s.ctx cid).ast (parseDesc v) = false)
/-- The context has 4,096 launches, or the partition 65,536 (R376). -/
def State.crowded (s : State) (cid : Nat) : Prop :=
  4096 ≤ (s.launches.filter fun l => l.cid == cid && l.ladder.isNone).length ∨ 65536 ≤ (s.launches.filter fun l => l.cid / 1024 == cid / 1024).length
/-- The record of an accepted launch joins the others. -/
def State.enlist (s : State) (cid : Nat) (addr : DWord) (d : Desc) (ready : Bool) : State := { s with
  launches := s.launches ++ [{ lid := s.nextId, cid, addr, desc := d, acceptAt := s.time, ready, timeOk := d.notBefore == 0 }]
  nextId := s.nextId + 1 }

theorem State.refuses_iff (s : State) (cid v : Nat) : s.refuses cid v ↔ (!descOk v || (parseDesc v).rung ||
    ((parseDesc v).cores && !coresFit (s.part (cid / 1024)).dies (s.ctx cid).ast (parseDesc v))) = true := by
  simp [State.refuses, or_assoc]

section
variable {s : State} {cid v : Nat} {addr : DWord}

theorem State.accept_malformed (h : s.refuses cid v) : s.accept cid addr v = .malformed := if_pos ((s.refuses_iff cid v).mp h)

variable (hr : ¬ s.refuses cid v)
include hr

theorem State.accept_busy (hc : s.crowded cid) : s.accept cid addr v = .busy :=
  (if_neg (mt (s.refuses_iff cid v).mpr hr)).trans (if_pos hc)

variable (hc : ¬ s.crowded cid)
include hc

theorem State.accept_counts : s.accept cid addr v = if (parseDesc v).depctr = 0 then .taken (s.enlist cid addr (parseDesc v) true) s.nextId
    else match s.getVa (s.ctx cid).device (parseDesc v).depctr 4 with
      | .error _ => .malformed
      | .ok bs => .taken (s.enlist cid addr (parseDesc v) (leVal bs == 0)) s.nextId :=
  (if_neg (mt (s.refuses_iff cid v).mpr hr)).trans (if_neg hc)
theorem State.accept_independent (h0 : (parseDesc v).depctr = 0) :
    s.accept cid addr v = .taken (s.enlist cid addr (parseDesc v) true) s.nextId := by
  rw [State.accept_counts hr hc, if_pos h0]

variable (h0 : (parseDesc v).depctr ≠ 0)
include h0

theorem State.accept_counter {bs : List Byte} (hb : s.getVa (s.ctx cid).device (parseDesc v).depctr 4 = .ok bs) :
    s.accept cid addr v = .taken (s.enlist cid addr (parseDesc v) (leVal bs == 0)) s.nextId := by
  rw [State.accept_counts hr hc, if_neg h0, hb]
theorem State.accept_unread {e : Cause × Nat} (he : s.getVa (s.ctx cid).device (parseDesc v).depctr 4 = .error e) :
    s.accept cid addr v = .malformed := by
  rw [State.accept_counts hr hc, if_neg h0, he]
end

/-- What an accepted launch has met, and whether it is ready (R276). -/
theorem State.accept_taken {s t : State} {cid lid v : Nat} {addr : DWord} (h : s.accept cid addr v = .taken t lid) :
    lid = s.nextId ∧ ¬ s.refuses cid v ∧ ∃ r, t = s.enlist cid addr (parseDesc v) r ∧ ((parseDesc v).depctr = 0 → r = true) ∧
      ∀ bs, (parseDesc v).depctr ≠ 0 → s.getVa (s.ctx cid).device (parseDesc v).depctr 4 = .ok bs → r = (leVal bs == 0) := by
  by_cases hr : s.refuses cid v
  · rw [State.accept_malformed hr] at h; cases h
  by_cases hc : s.crowded cid
  · rw [State.accept_busy hr hc] at h; cases h
  by_cases h0 : (parseDesc v).depctr = 0
  · rw [State.accept_independent hr hc h0] at h
    cases h
    exact ⟨rfl, hr, true, rfl, fun _ => rfl, fun _ hn => absurd h0 hn⟩
  cases hb : s.getVa (s.ctx cid).device (parseDesc v).depctr 4 with
  | error e => rw [State.accept_unread hr hc h0 hb] at h; cases h
  | ok bs =>
    rw [State.accept_counter hr hc h0 hb] at h
    cases h
    exact ⟨rfl, hr, _, rfl, fun hz => absurd hz h0, fun bs' _ hb' => by cases hb'; rfl⟩

/-! ## The word LAUNCH -/

/-- Accesses of the device of which none waits are served at once (R313, R327). -/
theorem State.serveFirst_next {s t : State} {c : Context} {accs : List (Nat × Acc)} (hw : s.firstWait c.device accs = none) (again : State → State)
    {run : State → Out} (hr : run s = .next t) : s.serveFirst c accs again run = .next (t.atsSpent 384 c.cid) := by
  rw [State.serveFirst, hw]
  dsimp only
  rw [hr]

/-- The status that LAUNCH writes (R275), and the state it writes it in. -/
def State.answerLaunch (s : State) (g : Group) (d k : Nat) (fr : Fragment) : Accept → State
  | .malformed => s.put (g.setS d 1) k (s.fall fr)
  | .busy => s.put (g.setS d 2) k (s.fall fr)
  | .taken t _ => t.put (g.setS d 0) k (s.fall fr)

section
variable {d a : BitVec 8} {s : State} {g : Group} {fr : Fragment} {k : Nat}
  (h : Ready (.launch d a) (d.toNat :: pairRegs a) s g fr k) (hs : g.slot ≠ 128)
include h hs

theorem exec_launch_answer {bs : List Byte} (h0 : (g.pair a.toNat).extractLsb' 56 8 = 0) (h64 : (g.pair a.toNat).toNat % 64 = 0)
    (ha : g.acquiring = false) (hd : g.doneBefore g.seq = true) (hb : s.getBytes (s.who g) (g.pair a.toNat).toNat 256 = .ok bs)
    (hw : s.firstWait (s.ctx (s.who g).cid).device (depRead (leVal bs)) = none) :
    exec (.launch d a) s = .next ((s.answerLaunch g d.toNat k fr (s.accept (s.who g).cid (g.pair a.toNat) (leVal bs))).atsSpent 384
      (s.ctx (s.who g).cid).cid) := by
  have hcount := Fragment.count_plain (Fragment.passes_plain h.passes rfl)
  have hopen : ¬ (g.acquiring || !g.doneBefore g.seq) = true := by simp [ha, hd]
  show execLaunch d a s = _
  rw [execLaunch, scalarGroup_ready h hs, hcount]
  dsimp only
  rw [addrFault_none h0 h64]
  dsimp only
  rw [if_neg hopen, hb]
  refine State.serveFirst_next hw _ ?_
  cases s.accept (s.who g).cid (g.pair a.toNat) (leVal bs) <;> rfl

theorem exec_launch_raise (hf : fr.fence = none) {c : Cause} (hc : addrFault (g.pair a.toNat) 64 = some c) :
    exec (.launch d a) s = .next (s.raise g { cause := c, detail := 0, addr := g.pair a.toNat, pc := fr.pc, pair := s.ord.pair,
                                              culprit := .scalar g.slot k }) := by
  show execLaunch d a s = _
  rw [execLaunch, scalarGroup_ready h hs, Fragment.count_plain hf]
  dsimp only
  rw [hc]
  exact trapAt_raise hf
end

theorem addrFault_page {va : DWord} {size : Nat} (h0 : va.extractLsb' 56 8 ≠ 0) : addrFault va size = some .page :=
  if_pos (bne_iff_ne.mpr h0)
theorem addrFault_align {va : DWord} {size : Nat} (h0 : va.extractLsb' 56 8 = 0) (h1 : va.toNat % size ≠ 0) : addrFault va size = some .align := by
  simp [addrFault, h0, h1]

/-! ## A fresh group (R54) -/

theorem freshGroup_sregs {d : Desc} (hi : d.init.length = 16) (hs : 1 ≤ d.sregs) (core slot tid n : Nat) :
    (freshGroup d core slot tid n).sregs.length = 32 * d.sregs ∧
      (∀ r, r < 16 → (freshGroup d core slot tid n).s r = d.init.getD r 0) ∧ ∀ r, 16 ≤ r → (freshGroup d core slot tid n).s r = 0 := by
  have hread (r : Nat) : (freshGroup d core slot tid n).s r = if r < 32 * d.sregs then (d.init ++ List.replicate (32 * d.sregs) 0).getD r 0 else 0 := by
    simp only [Group.s, getW, freshGroup, List.getD_eq_getElem?_getD, List.getElem?_take]
    split <;> rfl
  refine ⟨by simp [freshGroup], fun r hr => ?_, fun r hr => ?_⟩
  · rw [hread, if_pos (by omega), List.getD_eq_getElem?_getD, List.getElem?_append_left (by omega), ← List.getD_eq_getElem?_getD]
  · rw [hread, List.getD_eq_getElem?_getD, List.getElem?_append_right (by omega), ← List.getD_eq_getElem?_getD, getD_replicate_self, ite_self]

theorem freshGroup_gstat (d : Desc) (core slot tid n : Nat) : (freshGroup d core slot tid n).gstat = 1 := by
  simp [Group.gstat, Group.live, freshGroup, b2n]

/-- Settles O27: the answers of LAUNCH by the cases of acceptance, its traps by the two address checks, and a fresh group by its fields. -/
theorem launchWord : Obligations.LaunchWord := by
  unfold Obligations.LaunchWord
  refine ⟨fun d a => ⟨?answer, ?page, ?align⟩, ?taken, fun s cid addr v => ⟨?_, ?_, ?_, ?_⟩, ?fresh⟩
  case answer =>
    exact fun s g fr k bs h hs h0 h64 ha hd hb hw => exec_launch_answer h hs h0 h64 ha hd hb hw
  case page => exact fun s g fr k h hf ⟨hs, h0⟩ => exec_launch_raise h hs hf (addrFault_page h0)
  case align => exact fun s g fr k h hf ⟨hs, h0, h64⟩ => exec_launch_raise h hs hf (addrFault_align h0 h64)
  case taken =>
    intro s t cid lid addr v h
    obtain ⟨rfl, hr, r, rfl, hfree, hcount⟩ := State.accept_taken h
    have hok : descOk v = true := eq_true_of_ne_false fun hd => hr (.inl hd)
    have hrung : (parseDesc v).rung = false := eq_false_of_ne_true fun hd => hr (.inr (.inl hd))
    exact ⟨rfl, hok, hrung, rfl, r, rfl, hfree, hcount⟩
  · exact State.accept_malformed
  · exact State.accept_busy
  · intro hr hc hdep
    by_cases h0 : (parseDesc v).depctr = 0
    · exact ⟨_, State.accept_independent hr hc h0⟩
    · obtain ⟨bs, hb⟩ := hdep.resolve_left h0
      exact ⟨_, State.accept_counter hr hc h0 hb⟩
  · exact fun hr hc h0 ⟨e, he⟩ => State.accept_unread hr hc h0 he
  case fresh =>
    intro d core slot tid n hi hs
    obtain ⟨hlen, hinit, hzero⟩ := freshGroup_sregs hi hs core slot tid n
    exact ⟨rfl, rfl, rfl, hlen, hinit, hzero, List.length_replicate, fun _ hm => List.eq_of_mem_replicate hm,
      fun _ hf => List.eq_of_mem_replicate hf, fun _ hj => List.eq_of_mem_replicate hj, rfl, freshGroup_gstat ..⟩

end Sys2Proof.Machine
end

section
/-! What a place reads after a write (R199, R239, R317): bringing a line onto the chip changes no byte, and a write changes the byte it names. -/

namespace Sys2Proof.Machine

/-! ## Lines and bytes of coherent memory -/

theorem byteOf_div_line (aid gpa : Nat) : byteOf aid gpa / 128 = lineOf aid gpa := by
  unfold byteOf lineOf
  omega
theorem byteOf_inj {a g aid gpa : Nat} : byteOf a g = byteOf aid gpa ↔ a = aid ∧ g % 2 ^ 52 = gpa % 2 ^ 52 := by
  unfold byteOf
  omega
theorem lineOf_inj {a g aid gpa : Nat} : lineOf a g = lineOf aid gpa ↔ a = aid ∧ g % 2 ^ 52 / 128 = gpa % 2 ^ 52 / 128 := by
  unfold lineOf
  omega

/-- Of a guest-physical address 52 bits count (R307). -/
theorem State.backByte_mod (s : State) (aid gpa : Nat) : s.backByte aid (gpa % 2 ^ 52) = s.backByte aid gpa := by
  have hhost : isHostGpa (gpa % 2 ^ 52) = isHostGpa gpa := by unfold isHostGpa; congr 1; omega
  have hnum : gpaHost (gpa % 2 ^ 52) = gpaHost gpa := by unfold gpaHost; omega
  have hbus : gpaBus (gpa % 2 ^ 52) = gpaBus gpa := by unfold gpaBus; omega
  have hhome : gpaHome (gpa % 2 ^ 52) = gpaHome gpa := by unfold gpaHome; omega
  have hgran : gpaGran (gpa % 2 ^ 52) = gpaGran gpa := by unfold gpaGran; omega
  have hhpa (e : S2Entry) : e.hpa (gpa % 2 ^ 52) = e.hpa gpa := by unfold S2Entry.hpa; omega
  simp only [State.backByte, State.s2find, hhost, hnum, hbus, hhome, hgran, hhpa]

/-- A byte behind the chip rests on the second stage, the HBM, its metadata, the hosts' memory and the keys alone. -/
theorem State.backByte_congr {s t : State} (h1 : t.s2 = s.s2) (h2 : t.hbm = s.hbm) (h3 : t.hbmMeta = s.hbmMeta) (h4 : t.hostMem = s.hostMem)
    (h5 : t.asts = s.asts) (aid gpa : Nat) : t.backByte aid gpa = s.backByte aid gpa := by
  have hs2 : t.s2find aid gpa = s.s2find aid gpa := by rw [State.s2find, h1]; rfl
  have hmeta (line : Nat) : t.metaOf line = s.metaOf line := by rw [State.metaOf, h3]; rfl
  have hast : t.ast aid = s.ast aid := by rw [State.ast, h5]; rfl
  rw [State.backByte, State.backByte, h2, h4, hs2, hast]
  cases s.s2find aid gpa with
  | none => rfl
  | some e =>
    dsimp only
    rw [hmeta]

/-! ## A line comes onto the chip -/

theorem State.onChip_fill (s : State) (aid gpa a g : Nat) :
    (s.fill aid gpa).onChip a g = (s.onChip a g || lineOf aid gpa == lineOf a g) := by
  unfold State.fill
  split
  · next h =>
    by_cases hl : lineOf aid gpa = lineOf a g
    · rw [State.onChip, ← hl]; simpa [State.onChip] using h
    · simp [hl]
  · by_cases hl : lineOf aid gpa = lineOf a g <;> simp [State.onChip, State.chipLine, hl]

theorem State.backByte_fill (s : State) (aid gpa a g : Nat) : (s.fill aid gpa).backByte a g = s.backByte a g := by
  unfold State.fill
  split
  · rfl
  · refine State.backByte_congr ?_ ?_ ?_ ?_ ?_ a g <;> rfl

/-- What the chip holds once a line has come onto it: of that line the bytes behind the chip, of every other line what it held. -/
theorem State.chip_get_fill {s : State} (h : s.MemWf) {aid gpa : Nat} (hon : ¬ s.onChip aid gpa = true) (a g : Nat) :
    (s.fill aid gpa).chip.get (byteOf a g) = if lineOf aid gpa = lineOf a g then s.backByte a g else s.chip.get (byteOf a g) := by
  rw [State.fill, if_neg hon]
  dsimp only
  rw [Memory.get_setAll _ _ _ _ h.1, List.length_map, List.length_range]
  by_cases hl : lineOf aid gpa = lineOf a g
  · obtain ⟨rfl, hg⟩ := lineOf_inj.mp hl
    have hin : byteOf aid (gpa % 2 ^ 52 / 128 * 128) ≤ byteOf aid g ∧ byteOf aid g < byteOf aid (gpa % 2 ^ 52 / 128 * 128) + 128 := by
      unfold byteOf; omega
    have hoff : gpa % 2 ^ 52 / 128 * 128 + (byteOf aid g - byteOf aid (gpa % 2 ^ 52 / 128 * 128)) = g % 2 ^ 52 := by
      unfold byteOf; omega
    have hlt : byteOf aid g - byteOf aid (gpa % 2 ^ 52 / 128 * 128) < 128 := by omega
    rw [if_pos hin, if_pos hl, List.getD_eq_getElem?_getD, List.getElem?_map, List.getElem?_range hlt, Option.map_some, Option.getD_some,
      hoff, s.backByte_mod]
  · have hout : ¬ (byteOf aid (gpa % 2 ^ 52 / 128 * 128) ≤ byteOf a g ∧ byteOf a g < byteOf aid (gpa % 2 ^ 52 / 128 * 128) + 128) := by
      intro hin
      apply hl
      rw [← byteOf_div_line, ← byteOf_div_line]
      unfold byteOf at hin ⊢
      omega
    rw [if_neg hout, if_neg hl]

/-- Bringing a line onto the chip changes no byte (R322). -/
theorem State.readByte_fill {s : State} (h : s.MemWf) (aid gpa a g : Nat) : (s.fill aid gpa).readByte a g = s.readByte a g := by
  by_cases hon : s.onChip aid gpa = true
  · rw [State.fill, if_pos hon]
  · rw [State.readByte, State.readByte, State.onChip_fill, State.backByte_fill, State.chip_get_fill h hon]
    by_cases hl : lineOf aid gpa = lineOf a g
    · have hoff : s.onChip a g = false := by simpa [State.onChip, hl] using hon
      simp [hl, hoff]
    · simp [hl]

theorem State.onChip_onLine (s : State) (aid gpa a g : Nat) {f : ChipLine → ChipLine} (hf : ∀ c, (f c).line = c.line) :
    (s.onLine aid gpa f).onChip a g = s.onChip a g := by
  have hline (c : ChipLine) : (if c.line == lineOf aid gpa then f c else c).line = c.line := by split <;> simp [hf]
  simp only [State.onChip, State.chipLine, State.onLine, List.find?_map, Option.isSome_map, Function.comp_def, hline]

/-- A write of a byte changes that byte and no other (R239). -/
theorem State.readByte_writeByte {s : State} (h : s.MemWf) (aid gpa : Nat) (b : Byte) (a g : Nat) :
    (s.writeByte aid gpa b).readByte a g = if byteOf a g = byteOf aid gpa then b else s.readByte a g := by
  have hon : (s.writeByte aid gpa b).onChip a g = (s.fill aid gpa).onChip a g := State.onChip_onLine _ _ _ _ _ fun _ => rfl
  have hchip : (s.writeByte aid gpa b).chip.get (byteOf a g) = if byteOf a g = byteOf aid gpa then b else (s.fill aid gpa).chip.get (byteOf a g) :=
    Memory.get_set _ _ _ (h.fill aid gpa).1
  have hback : (s.writeByte aid gpa b).backByte a g = (s.fill aid gpa).backByte a g := rfl
  rw [← State.readByte_fill h aid gpa, State.readByte, State.readByte, hon, hchip, hback]
  by_cases hb : byteOf a g = byteOf aid gpa
  · have hl : lineOf aid gpa = lineOf a g := by rw [← byteOf_div_line, ← byteOf_div_line, hb]
    simp [State.onChip_fill, hl, hb]
  · simp [hb]

/-! ## Places -/

theorem State.MemWf.peerMem_wf {s : State} (h : s.MemWf) : s.peerMem.wf = true := by
  obtain ⟨-, -, -, hpeer, -⟩ := h
  exact hpeer

@[simp] theorem State.fill_teams (s : State) (aid gpa : Nat) : (s.fill aid gpa).teams = s.teams := by unfold State.fill; split <;> rfl
@[simp] theorem State.fill_peerMem (s : State) (aid gpa : Nat) : (s.fill aid gpa).peerMem = s.peerMem := by unfold State.fill; split <;> rfl
@[simp] theorem State.writeByte_teams (s : State) (aid gpa : Nat) (b : Byte) : (s.writeByte aid gpa b).teams = s.teams := s.fill_teams aid gpa
@[simp] theorem State.writeByte_peerMem (s : State) (aid gpa : Nat) (b : Byte) : (s.writeByte aid gpa b).peerMem = s.peerMem := s.fill_peerMem aid gpa

theorem State.team_tid {s : State} {tid : Nat} {t : Team} (h : s.team tid = some t) : t.tid = tid := by
  simpa using List.find?_some h
theorem State.team_isSome_iff (s : State) (tid : Nat) : (s.team tid).isSome = true ↔ tid ∈ s.teams.map fun t => t.tid := by
  simp [State.team, List.find?_isSome]
theorem State.setTeam_tids (s : State) (t : Team) : (s.setTeam t).teams.map (fun u => u.tid) = s.teams.map fun u => u.tid := by
  rw [State.setTeam_teams, List.map_map]
  refine List.map_congr_left fun u _ => ?_
  by_cases h : u.tid = t.tid <;> simp [h]
theorem State.team_setTeam (s : State) (t : Team) (h : (s.team t.tid).isSome = true) : (s.setTeam t).team t.tid = some t := by
  have hmem := (s.setTeam t).team_isSome_iff t.tid
  rw [s.setTeam_tids, ← s.team_isSome_iff] at hmem
  obtain ⟨u, hu⟩ := Option.isSome_iff_exists.mp (hmem.mpr h)
  have htid := State.team_tid hu
  obtain ⟨v, -, hv⟩ := List.mem_map.mp (List.mem_of_find?_eq_some hu)
  by_cases hvt : v.tid = t.tid
  · rw [hu, ← hv]; simp [hvt]
  · have : v = u := by simpa [hvt] using hv
    exact absurd (this ▸ htid) hvt
theorem State.team_setTeam_of_ne (s : State) {t : Team} {tid : Nat} (h : tid ≠ t.tid) : (s.setTeam t).team tid = s.team tid := by
  have hp (u : Team) : ((if u.tid == t.tid then t else u).tid == tid) = (u.tid == tid) := by
    by_cases hu : u.tid = t.tid <;> simp [hu]
  have hid : ∀ l : List Team, ((l.find? fun u => u.tid == tid).map fun u => if u.tid == t.tid then t else u) = l.find? fun u => u.tid == tid := by
    intro l
    cases hl : l.find? fun u => u.tid == tid with
    | none => rfl
    | some u =>
      have hu : u.tid = tid := by simpa using List.find?_some hl
      simp [hu, h]
  rw [State.team, State.setTeam_teams, List.find?_map]
  simp only [Function.comp_def, hp]
  exact hid s.teams

/-- A place that a write reaches: of the stash, the window of a team that is there. -/
def State.reaches (s : State) : Loc → Prop
  | .stash tid _ => tid ∈ s.teams.map fun t => t.tid
  | _ => True

theorem State.reaches_of_tids {s t : State} (h : t.teams.map (fun u => u.tid) = s.teams.map fun u => u.tid) {l : Loc} (hl : s.reaches l) :
    t.reaches l := by
  cases l with
  | stash tid off =>
    show tid ∈ t.teams.map fun u => u.tid
    rw [h]
    exact hl
  | _ => trivial

theorem State.writeLoc_tids (s : State) (l : Loc) (b : Byte) : (s.writeLoc l b).teams.map (fun u => u.tid) = s.teams.map fun u => u.tid := by
  cases l with
  | glob aid gpa => exact congrArg _ (s.writeByte_teams aid gpa b)
  | stash tid off =>
    simp only [State.writeLoc]
    split
    · exact s.setTeam_tids _
    · rfl
  | peer id addr => rfl

/-- The place written reads the byte. -/
theorem State.readLoc_writeLoc {s : State} (h : s.MemWf) {l : Loc} (hl : s.reaches l) (b : Byte) : (s.writeLoc l b).readLoc l = b := by
  cases l with
  | glob aid gpa => exact (State.readByte_writeByte h aid gpa b aid gpa).trans (if_pos rfl)
  | stash tid off =>
    obtain ⟨t, ht⟩ := Option.isSome_iff_exists.mp ((s.team_isSome_iff tid).mpr hl)
    have htid := State.team_tid ht
    subst htid
    have hset := s.team_setTeam { t with stash := t.stash.set off b } (by rw [ht]; rfl)
    simp only [State.writeLoc, ht, State.readLoc, hset]
    rw [Memory.get_set _ _ _ (h.team ht), if_pos rfl]
  | peer id addr => exact (Memory.get_set _ _ _ h.peerMem_wf).trans (if_pos rfl)

/-- Any other place reads as before. -/
theorem State.readLoc_writeLoc_of_ne {s : State} (h : s.MemWf) {l m : Loc} (hk : m.key ≠ l.key) (b : Byte) :
    (s.writeLoc l b).readLoc m = s.readLoc m := by
  cases l with
  | glob aid gpa =>
    cases m with
    | glob a g => exact (State.readByte_writeByte h aid gpa b a g).trans (if_neg fun hb => hk (by
        obtain ⟨rfl, hg⟩ := byteOf_inj.mp hb
        rw [Loc.key, Loc.key, hg]))
    | stash tid off => simp only [State.writeLoc, State.readLoc, State.team, s.writeByte_teams]
    | peer id addr => simp only [State.writeLoc, State.readLoc, s.writeByte_peerMem]
  | stash tid off =>
    simp only [State.writeLoc]
    split
    · next t ht =>
      obtain rfl := State.team_tid ht
      cases m with
      | glob a g => rfl
      | stash tid' off' =>
        by_cases hd : tid' = t.tid
        · subst hd
          have hoff : off' ≠ off := fun ho => hk (by rw [ho])
          have hset := s.team_setTeam { t with stash := t.stash.set off b } (by rw [ht]; rfl)
          simp only [State.readLoc, hset, ht]
          rw [Memory.get_set _ _ _ (h.team ht), if_neg hoff]
        · simp only [State.readLoc]
          rw [s.team_setTeam_of_ne (t := { t with stash := t.stash.set off b }) hd]
      | peer id addr => rfl
    · rfl
  | peer id addr =>
    cases m with
    | glob a g => rfl
    | stash tid off => rfl
    | peer id' addr' => exact (Memory.get_set _ _ _ h.peerMem_wf).trans (if_neg fun ha => hk (congrArg (fun n => (2, n, 0)) ha))

theorem State.readLoc_writeLocs_of_notMem {ps : List (Loc × Byte)} {m : Loc} (hk : m.key ∉ ps.map fun p => p.1.key) {s : State} (h : s.MemWf) :
    (s.writeLocs ps).readLoc m = s.readLoc m := by
  induction ps generalizing s with
  | nil => rfl
  | cons p ps ih =>
    rw [List.map_cons, List.mem_cons, not_or] at hk
    exact (ih hk.2 (h.writeLoc p.1 p.2)).trans (State.readLoc_writeLoc_of_ne h hk.1 p.2)

/-- Places that differ read what was written to each. -/
theorem State.readLoc_writeLocs {ps : List (Loc × Byte)} (hd : (ps.map fun p => p.1.key).Nodup) {s : State} (h : s.MemWf)
    (hr : ∀ p ∈ ps, s.reaches p.1) : ∀ p ∈ ps, (s.writeLocs ps).readLoc p.1 = p.2 := by
  induction ps generalizing s with
  | nil => exact fun p hp => nomatch hp
  | cons x ps ih =>
    obtain ⟨hx, hd⟩ := List.nodup_cons.mp hd
    intro p hp
    rcases List.mem_cons.mp hp with rfl | hp
    · exact (State.readLoc_writeLocs_of_notMem hx (h.writeLoc p.1 p.2)).trans (State.readLoc_writeLoc h (hr p hp) p.2)
    · exact ih hd (h.writeLoc x.1 x.2) (fun q hq => State.reaches_of_tids (s.writeLoc_tids x.1 x.2) (hr q (List.mem_cons_of_mem _ hq))) p hp

theorem State.untrack_tids (s : State) (p : Nat → Bool) : (s.untrack p).teams.map (fun u => u.tid) = s.teams.map fun u => u.tid :=
  List.map_map ..

/-- A write past the L1s: each place reads its byte (R201, R338). -/
theorem State.readLoc_storeAway {s : State} (h : s.MemWf) {ps : List (Loc × Byte)} (hd : (ps.map fun p => p.1.key).Nodup)
    (hr : ∀ p ∈ ps, s.reaches p.1) : ∀ p ∈ ps, (s.storeAway ps).readLoc p.1 = p.2 :=
  State.readLoc_writeLocs hd (h.untrack _) fun p hp => State.reaches_of_tids (s.untrack_tids _) (hr p hp)

end Sys2Proof.Machine
end

section
/-! What the reset of a launch's arenas leaves of the contexts (R33 step 2, R223): the charges it gives back, and nothing else. -/

namespace Sys2Proof.Machine

/-! ## Recalls and changes of tables leave the contexts -/

theorem State.contexts_foldl {α : Type} {f : State → α → State} (hf : ∀ u x, (f u x).contexts = u.contexts) (xs : List α) (s : State) :
    (xs.foldl f s).contexts = s.contexts :=
  List.foldlRecOn (motive := fun u : State => u.contexts = s.contexts) xs f rfl fun _ hu x _ => (hf _ x).trans hu

theorem State.recall_contexts (s : State) (line : Nat) : (s.recall line).contexts = s.contexts := by
  unfold State.recall State.evict
  exact ((State.SameTables.dropLine _ line).contexts.trans (State.SameTables.writeBack _ line).contexts).trans (State.SameTables.untrack s _).contexts
theorem State.setPub_contexts (s : State) (aid gpa : Nat) (p : Bool) : (s.setPub aid gpa p).contexts = s.contexts :=
  (State.SameTables.fill s aid gpa).contexts
theorem State.writeBytes_contexts (s : State) (aid gpa : Nat) (bs : List Byte) : (s.writeBytes aid gpa bs).contexts = s.contexts := by
  induction bs generalizing s gpa with
  | nil => rfl
  | cons b bs ih => exact (ih _ _).trans (State.SameTables.writeByte s aid gpa b).contexts
theorem State.writeEntry_contexts (s : State) (aid gpa e : Nat) : (s.writeEntry aid gpa e).contexts = s.contexts := s.writeBytes_contexts ..
theorem State.zeroGranule_contexts (s : State) (aid gpa : Nat) : (s.zeroGranule aid gpa).contexts = s.contexts := by
  have hdrop := State.contexts_foldl (f := fun (t : State) (c : ChipLine) =>
    if lineAid c.line == aid && lineGpa c.line / 65536 * 65536 == gpa / 65536 * 65536 then t.dropLine c.line else t)
    (fun u c => by
      split
      · exact (State.SameTables.dropLine u c.line).contexts
      · rfl) s.chipMeta s
  unfold State.zeroGranule
  dsimp only
  split <;> exact hdrop
theorem State.poolTake_contexts (s : State) (aid n : Nat) : (s.poolTake aid n).1.contexts = s.contexts := by
  induction n generalizing s with
  | zero => rfl
  | succ n ih =>
    unfold State.poolTake
    dsimp only
    split
    · exact State.zeroGranule_contexts _ _ _
    · split
      · rfl
      · split
        · exact State.zeroGranule_contexts _ _ _
        · exact ih _
theorem State.editRun_contexts (s : State) (aid slot : Nat) (f : Nat → Nat) : (s.editRun aid slot f).contexts = s.contexts :=
  State.contexts_foldl (fun u _ => u.writeEntry_contexts ..) _ s

/-- The rewriting of the leaves of a range, a split of a larger one included (R312). -/
theorem State.editRange_contexts (s : State) (aid : Nat) (f : Nat → Nat) (n va len : Nat) : (s.editRange aid f n va len).contexts = s.contexts := by
  induction n generalizing s va len with
  | zero => rfl
  | succ n ih =>
    unfold State.editRange
    split
    · rfl
    · split
      · exact ih ..
      · split
        · split
          · exact (ih ..).trans (s.editRun_contexts ..)
          · exact (ih ..).trans (s.editRun_contexts ..)
        · split
          · exact (ih ..).trans (s.writeEntry_contexts ..)
          · split
            · exact ih ..
            · split
              · next s1 hp => exact (ih ..).trans ((congrArg (fun p => p.1.contexts) hp).symm.trans (s.poolTake_contexts ..))
              · next s1 g hp =>
                exact (ih ..).trans ((State.writeEntry_contexts ..).trans ((State.writeBytes_contexts ..).trans
                  ((congrArg (fun p => p.1.contexts) hp).symm.trans (s.poolTake_contexts ..))))

/-! ## The charges -/

/-- What was charged to each domain falls (R223). -/
def fallBy (us : List Word) (p : Nat × Nat) : List Word := us.set p.1 (BitVec.ofNat 32 ((us.getD p.1 0).toNat - p.2))
/-- A charge of a context is given back. -/
def State.refund (cid : Nat) (s : State) (p : Nat × Nat) : State := s.setCtx { s.ctx cid with usage := fallBy (s.ctx cid).usage p }

theorem State.usage_refund (s : State) (cid : Nat) (p : Nat × Nat) : ((s.refund cid p).ctx cid).usage = fallBy (s.ctx cid).usage p := by
  rw [State.refund, State.ctx_setCtx]
  exact s.ctx_cid cid
theorem State.usage_foldl_refund (cid : Nat) (ps : List (Nat × Nat)) (s : State) :
    ((ps.foldl (State.refund cid) s).ctx cid).usage = ps.foldl fallBy (s.ctx cid).usage := by
  induction ps generalizing s with
  | nil => rfl
  | cons p ps ih => rw [List.foldl_cons, List.foldl_cons, ih, s.usage_refund]

/-- The reset of the arenas gives back the launch's charges: before them no step of it has changed a context. -/
theorem State.usage_resetArenas (s : State) (l : Launch) :
    ((s.resetArenas l).ctx l.cid).usage = l.charges.foldl fallBy (s.ctx l.cid).usage := by
  unfold State.resetArenas
  dsimp only
  refine (State.usage_foldl_refund l.cid l.charges _).trans (congrArg (fun c : Context => l.charges.foldl fallBy c.usage) (State.ctx_of_contexts ?_ l.cid))
  refine (State.contexts_foldl (fun u x => ?pub) _ _).trans ?_
  case pub =>
    split
    · exact u.setPub_contexts ..
    · rfl
  have hrecall := State.contexts_foldl State.recall_contexts
  split
  · exact hrecall _ s
  · exact (State.editRange_contexts ..).trans (hrecall _ s)

end Sys2Proof.Machine
end

section
/-! O28: what moves a launch on: starts, retirement of teams, the end of a launch, and its waits (R18-R26, R31-R33, R276, R278, R376). -/

namespace Sys2Proof.Machine

theorem State.launch_lid {s : State} {lid : Nat} {l : Launch} (h : s.launch lid = some l) : l.lid = lid := by
  simpa using List.find?_some h

/-! ## Which launch starts (R376) -/

/-- Of two launches the dispatcher takes one first. -/
theorem ahead_total {a b : Launch} (h : a.lid ≠ b.lid) : ahead a b = true ∨ ahead b a = true := by
  simp only [ahead, Bool.or_eq_true, Bool.and_eq_true, decide_eq_true_eq, beq_iff_eq]
  omega

/-- A launch that may start has no other ahead of it in its partition that can. -/
theorem State.not_ahead_of_mayStart {s : State} {l m : Launch} (hl : s.mayStart l = true) (hm : m ∈ s.launches) (hcan : s.canStart m = true)
    (hne : m.lid ≠ l.lid) (hpart : m.cid / 1024 = l.cid / 1024) : ahead m l = false := by
  have hnone := (Bool.and_eq_true_iff.mp hl).2
  rw [Bool.not_eq_true', List.any_eq_false] at hnone
  simpa [hne, hpart, hcan] using hnone m hm

theorem State.mayStart_unique {s : State} {a b : Launch} (ha : a ∈ s.launches) (hb : b ∈ s.launches) (hsa : s.mayStart a = true)
    (hsb : s.mayStart b = true) (hpart : a.cid / 1024 = b.cid / 1024) : a.lid = b.lid := by
  refine Decidable.byContradiction fun hne => ?_
  have hab := State.not_ahead_of_mayStart hsb ha (Bool.and_eq_true_iff.mp hsa).1 hne hpart
  have hba := State.not_ahead_of_mayStart hsa hb (Bool.and_eq_true_iff.mp hsb).1 (Ne.symm hne) hpart.symm
  rcases ahead_total hne with h | h
  · exact ne_true_of_eq_false hab h
  · exact ne_true_of_eq_false hba h

theorem startOf_starts {s : State} {lid : Nat} {l : Launch} {us : List (List (Nat × List Nat))} (hl : s.launch lid = some l) (hlad : l.ladder = none)
    (hm : s.mayStart l = true) (hp : s.placement l = some us) {clustered : Bool} (hc : l.desc.clustered = clustered) (name : String) :
    startOf lid clustered name s = .next (s.startLaunch l us) := by
  have hgo : (l.ladder.isSome || l.desc.clustered != clustered || !s.mayStart l) = false := by simp [hlad, hm, hc]
  rw [startOf, hl]
  dsimp only
  rw [if_neg (ne_true_of_eq_false hgo), hp]

/-! ## Retirement (R31, R32) -/

theorem State.teamDone_iff (s : State) (t : Team) : s.teamDone t = true ↔ t.retired = false ∧ (∀ g ∈ s.groups, g.team = t.tid → g.over = true) ∧
    t.stream.running = false ∧ (∀ c ∈ s.copies, c.team ≠ t.tid) ∧ t.halt = none ∧ t.queued = [] := by
  simp [State.teamDone, and_assoc]

/-- A launch counts a team that has retired; the last one completes it, unless it ends already. -/
def Launch.countTeam (l : Launch) : Launch := { l with
  retired := l.retired + 1
  ending := if l.retired + 1 = l.desc.gx * l.desc.gy * l.desc.gz && l.ending.isNone then some .complete else l.ending }
/-- The groups of a team go and it is marked retired. -/
def State.discharge (s : State) (t : Team) : State :=
  ({ s with groups := s.groups.filter fun g => g.team != t.tid } : State).setTeam { t with retired := true }

theorem State.dropTeams_cases (s : State) (kid : Nat) : s.dropTeams kid = s ∨
    s.dropTeams kid = { s with teams := s.teams.filter fun t => t.cluster != kid, clusters := s.clusters.filter fun k => k.kid != kid } := by
  unfold State.dropTeams
  split
  · exact .inl rfl
  · dsimp only
    split
    · exact .inr rfl
    · exact .inl rfl

/-- The windows of a cluster that are released take only teams and clusters with them. -/
theorem State.dropTeams_frame (s : State) (kid : Nat) : (s.dropTeams kid).launches = s.launches ∧ (s.dropTeams kid).groups = s.groups ∧
    (∀ t ∈ (s.dropTeams kid).teams, t ∈ s.teams) ∧ ∀ aid gpa, (s.dropTeams kid).readByte aid gpa = s.readByte aid gpa := by
  rcases s.dropTeams_cases kid with h | h <;> rw [h]
  · exact ⟨rfl, rfl, fun _ ht => ht, fun _ _ => rfl⟩
  · exact ⟨rfl, rfl, fun _ ht => (List.mem_filter.mp ht).1, fun _ _ => rfl⟩

theorem State.retired_of_mem_discharge {s : State} {t v : Team} (hv : v ∈ (s.discharge t).teams) (htid : v.tid = t.tid) : v.retired = true := by
  obtain ⟨u, -, rfl⟩ := List.mem_map.mp hv
  by_cases h : u.tid = t.tid
  · simp [h]
  · simp [h] at htid

theorem exec_teamRetire {s : State} {tid : Nat} {t : Team} {l : Launch} (ht : s.team tid = some t) (hd : s.teamDone t = true)
    (hl : s.launch t.lid = some l) (hm : t.maps = []) :
    exec (.teamRetire tid) s = .next ((((s.discharge t).setLaunch l.countTeam).dropTeams t.cluster).dropSlices) := by
  obtain rfl := State.team_tid ht
  have hmaps : s.endMaps t.tid = s := by rw [State.endMaps, ht]; dsimp only; rw [hm]; rfl
  have hteam : ({ s with groups := s.groups.filter fun g => g.team != t.tid } : State).team t.tid = some t := ht
  have hlaunch : (s.discharge t).launch t.lid = some l := hl
  show execTeamRetire t.tid s = _
  rw [execTeamRetire, ht]
  dsimp only
  rw [if_neg (by simp [hd]), hmaps, hteam, Option.getD_some]
  rw [show State.setTeam _ _ = s.discharge t from rfl, hlaunch]
  rfl

/-! ## The end of a launch (R33) -/

theorem exec_launchEnd {s : State} {lid : Nat} {l : Launch} {st : EndStatus} (hl : s.launch lid = some l) (he : l.ending = some st)
    (ht : s.launchTeams lid = []) (hw : s.firstWait (s.ctx l.cid).device l.desc.endAccesses = none) :
    exec (.launchEnd lid) s = .next ((s.finishLaunch l st).atsSpent 384 (s.ctx l.cid).cid) := by
  show execLaunchEnd lid s = _
  rw [execLaunchEnd, hl]
  dsimp only
  rw [he]
  dsimp only
  rw [if_pos (by rw [ht]; rfl)]
  exact State.serveFirst_next hw _ rfl

/-- The record of a launch goes. -/
theorem State.lid_of_mem_finishLaunch {s : State} {l m : Launch} {st : EndStatus} (hm : m ∈ (s.finishLaunch l st).launches) : m.lid ≠ l.lid := by
  simpa using (List.mem_filter.mp hm).2

/-- A write of the device to memory that is no host's: the bytes go past the L1s, and no line is released (R199). -/
theorem State.putVa_ok {s : State} {w : Who} {va : Nat} {bs : List Byte} {ls : List Loc} (h : s.places w va bs.length .wr = .ok ls)
    (hd : ∀ aid gpa, .glob aid gpa ∈ ls → isHostGpa gpa = false) : s.putVa w va bs = .ok (s.storeAway (ls.zip bs)) := by
  rw [State.putVa, h]
  dsimp only
  congr 1
  refine List.foldlRecOn (motive := fun u => u = s.storeAway (ls.zip bs)) ls _ rfl fun u hu l hl => ?_
  cases l with
  | glob aid gpa => simpa [hd aid gpa hl] using hu
  | _ => exact hu

/-- The signal word (R33 step 3): the status and the time. -/
def signalWord (st : EndStatus) (time : Nat) : List Byte := leBytes 8 (st.code * 2 ^ 56 + time % 2 ^ 56)
/-- The last steps of the end of a launch (R33): its successors are counted down, and its record goes. -/
def State.closeLaunch (s : State) (l : Launch) : State :=
  let t := (l.desc.succ.filter fun a => a != 0).foldl (fun (u : State) a => u.decrement l a) s
  { t with
    launches := t.launches.filter fun m => m.lid != l.lid
    dev := { t.dev with lostPeers := t.dev.lostPeers.filter fun p => p.1 != l.lid } }

section
variable {s : State} {l : Launch} (hx : l.msix = none) (st : EndStatus)
include hx

theorem State.finishLaunch_silent (h0 : l.desc.signal = 0) :
    s.finishLaunch l st = ((s.hostRelease (s.ctx l.cid).aid).resetArenas l).closeLaunch l := by
  unfold State.finishLaunch
  dsimp only
  rw [if_pos h0, hx]
  rfl
theorem State.finishLaunch_signals {ls : List Loc} (h0 : l.desc.signal ≠ 0)
    (hp : ((s.hostRelease (s.ctx l.cid).aid).resetArenas l).places (s.ctx l.cid).device l.desc.signal 8 .wr = .ok ls)
    (hd : ∀ aid gpa, .glob aid gpa ∈ ls → isHostGpa gpa = false) :
    let reset := (s.hostRelease (s.ctx l.cid).aid).resetArenas l
    s.finishLaunch l st = (reset.storeAway (ls.zip (signalWord st reset.time))).closeLaunch l := by
  have hput := State.putVa_ok (bs := signalWord st ((s.hostRelease (s.ctx l.cid).aid).resetArenas l).time) (by rw [signalWord, length_leBytes]; exact hp) hd
  unfold State.finishLaunch
  dsimp only
  rw [if_neg h0, hx, ← signalWord, hput]
  rfl
end

/-! ## A successor's counter (R276) -/

/-- The launches of a context that wait for a counter become ready. -/
def State.wake (s : State) (cid va : Nat) : State := { s with
  launches := s.launches.map fun m => if m.cid == cid && m.desc.depctr == va then { m with ready := true } else m }

theorem State.decrement_of_places {s : State} {l : Launch} {va : Nat} {ls : List Loc} (h : s.places (s.ctx l.cid).device va 4 .at = .ok ls) :
    let v := leVal (s.readLocs ls)
    let away := s.storeAway (ls.zip (leBytes 4 (v - 1)))
    s.decrement l va = if v ≤ 1 then (if v = 0 then s else away).wake l.cid va else if v = 0 then s else away := by
  intro v away
  unfold State.decrement
  dsimp only
  rw [h]
  rfl

theorem State.decrement_cases {s : State} {l : Launch} {va : Nat} {ls : List Loc} (h : s.places (s.ctx l.cid).device va 4 .at = .ok ls) :
    let v := leVal (s.readLocs ls)
    let away := s.storeAway (ls.zip (leBytes 4 (v - 1)))
    (v = 0 → s.decrement l va = s.wake l.cid va) ∧ (v = 1 → s.decrement l va = away.wake l.cid va) ∧ (2 ≤ v → s.decrement l va = away) := by
  intro v away
  rw [show s.decrement l va = _ from State.decrement_of_places h]
  refine ⟨fun hv => ?_, fun hv => ?_, fun hv => ?_⟩
  · rw [if_pos (by omega), if_pos hv]
  · rw [if_pos (by omega), if_neg (by omega)]
  · rw [if_neg (by omega), if_neg (by omega)]

/-! ## Launches that wait (R276, R278, R376) -/

section
variable {s : State} {lid : Nat} {l : Launch} (hl : s.launch lid = some l)
include hl

theorem exec_depctrPoll {bs : List Byte} (h0 : l.desc.depctr ≠ 0) (hs : l.started = false) (he : l.ending = none)
    (hw : s.firstWait (s.ctx l.cid).device [(l.desc.depctr, .rd)] = none) (hb : s.getVa (s.ctx l.cid).device l.desc.depctr 4 = .ok bs)
    (hr : (leVal bs == 0) ≠ l.ready) :
    exec (.depctrPoll lid) s = .next ((s.setLaunch { l with ready := leVal bs == 0 }).atsSpent 384 (s.ctx l.cid).cid) := by
  show execDepctrPoll lid s = _
  rw [execDepctrPoll, hl]
  dsimp only
  rw [if_neg (by simp [h0, hs, he])]
  refine State.serveFirst_next hw _ ?_
  rw [hb]
  exact if_pos (bne_iff_ne.mpr hr)

theorem exec_notbeforeReached (ht : l.timeOk = false) (hn : l.desc.notBefore ≤ s.time) (he : l.ending = none) :
    exec (.notbeforeReached lid) s = .next (s.setLaunch { l with timeOk := true }) := by
  show execNotbeforeReached lid s = _
  rw [execNotbeforeReached, hl]
  exact if_pos (by simp [ht, hn, he])

theorem exec_missedSlot_skip (hm : s.missed l = true) (he : l.ending = none) (hh : l.held = none) (hg : l.gang = none) (hp : l.desc.policy = 1) :
    exec (.missedSlot lid) s = .next (s.setLaunch { l with ending := some .skipped }) := by
  show execMissedSlot lid s = _
  rw [execMissedSlot, hl]
  dsimp only
  rw [if_neg (by simp [hm, he, hh, hg, hp]), if_pos hp]

variable (hb : l.blocking = false) (he : s.eligible l = true) (hp : s.placement l = none)
include hb he hp

theorem exec_launchBlocking_first (hn : l.passedAt = none) :
    exec (.launchBlocking lid) s = .next (s.setLaunch { l with passedAt := some s.time }) := by
  show execLaunchBlocking lid s = _
  rw [execLaunchBlocking, hl]
  dsimp only
  rw [if_neg (by simp [hb, he, hp]), hn]
theorem exec_launchBlocking_blocks {t : Nat} (ht : l.passedAt = some t) (h10 : t + 10000000 ≤ s.time) :
    exec (.launchBlocking lid) s = .next (s.setLaunch { l with blocking := true }) := by
  show execLaunchBlocking lid s = _
  rw [execLaunchBlocking, hl]
  dsimp only
  rw [if_neg (by simp [hb, he, hp]), ht]
  exact if_pos h10
end

theorem State.missed_of {s : State} {l : Launch} (hn : l.desc.notBefore ≠ 0) (hw : l.desc.window ≠ 0) (hs : l.started = false)
    (ht : l.desc.notBefore + l.desc.window < s.time) : s.missed l = true := by
  simp [State.missed, hn, hw, hs, ht]

/-- Settles O28: one equation for each event, the uniqueness of the launch that starts from the order of the dispatcher, the charges from
`State.usage_resetArenas`, and the bytes that a write leaves from `State.readLoc_storeAway`. -/
theorem launchEvents : Obligations.LaunchEvents := by
  unfold Obligations.LaunchEvents
  refine ⟨fun s a b => State.mayStart_unique, ?starts, ?retires, fun s t => (s.teamDone_iff t).mp,
    fun s lid l st hl he ht hw => ⟨exec_launchEnd hl he ht hw, fun m => State.lid_of_mem_finishLaunch⟩, ?ends,
    State.usage_resetArenas, fun s l va ls => State.decrement_cases, ?stored, ?polls, fun s lid l => exec_notbeforeReached, ?missed,
    fun s lid l hl hb he hp => ⟨exec_launchBlocking_first hl hb he hp, fun t => exec_launchBlocking_blocks hl hb he hp⟩⟩
  case starts =>
    intro s lid l us hl hlad hm hp
    exact ⟨fun h => startOf_starts hl hlad hm hp (by simp [Desc.clustered, h]) _, fun h => startOf_starts hl hlad hm hp (by simp [Desc.clustered, h]) _⟩
  case retires =>
    intro s tid t l ht hd hl hm
    obtain rfl := State.team_tid ht
    obtain ⟨hlaunches, hgroups, hteams, hbytes⟩ := ((s.discharge t).setLaunch l.countTeam).dropTeams_frame t.cluster
    exact ⟨_, exec_teamRetire ht hd hl hm, hlaunches, hgroups,
      fun v hv => State.retired_of_mem_discharge (hteams v (List.mem_of_find?_eq_some hv)) (State.team_tid hv), hbytes⟩
  case ends =>
    exact fun s l st hx => ⟨State.finishLaunch_silent hx st, fun ls h0 hp hd => State.finishLaunch_signals hx st h0 hp hd⟩
  case stored =>
    intro s ps h hd ht
    refine State.readLoc_storeAway h hd fun p hp => ?_
    obtain ⟨l, b⟩ := p
    cases l with
    | stash tid off => exact (s.team_isSome_iff tid).mp (ht tid off b hp)
    | _ => trivial
  case polls =>
    intro s lid l bs hl h0 hs he hw hb
    refine ⟨fun hr hv => ?_, fun hr hv => ?_⟩
    · have hz : (leVal bs == 0) = true := by simpa using hv
      rw [exec_depctrPoll hl h0 hs he hw hb (by rw [hz, hr]; decide), hz]
    · have hz : (leVal bs == 0) = false := by simpa using hv
      rw [exec_depctrPoll hl h0 hs he hw hb (by rw [hz, hr]; decide), hz]
  case missed =>
    intro s lid l hl hn hw hs ht he hh hg hp
    exact exec_missedSlot_skip hl (State.missed_of hn hw hs ht) he hh hg hp

end Sys2Proof.Machine
end

section
/-! Lane words that end in `fpDone`: what one writes, or the FPE that it raises, said once for all of them (R51, R81). -/

namespace Sys2Proof.Machine

@[simp] theorem Fragment.inFence_countLane (fr : Fragment) (uid n : Nat) : (fr.countLane uid).inFence n = fr.inFence n := by
  unfold Fragment.inFence Fragment.countLane
  cases fr.fence with
  | none => rfl
  | some f => by_cases h : f.mark ≤ uid <;> simp [h]

section
variable {s : State} {g : Group} {fr : Fragment} {k : Nat} {c : Clause} {gov : Mask} {exc : Nat → Exc} {write : Group → Group}

theorem State.fpDone_writes (h : excUnion gov exc &&& enables c.fpctl = 0) : s.fpDone g fr k c gov exc write =
    .next (s.laneNext { write g with fpctl := stick (write g).fpctl (excUnion gov exc) } fr k) :=
  if_neg (by simp [h])
theorem State.fpDone_traps (h : excUnion gov exc &&& enables c.fpctl ≠ 0) : s.fpDone g fr k c gov exc write =
    s.laneTrap g fr k c gov .fpe ((excUnion gov exc &&& enables c.fpctl).zeroExtend 64) (excLanes gov (enables c.fpctl) exc) :=
  if_pos (bne_iff_ne.mpr h)
end

/-- A ready lane word's own trap, once the earlier words of its clause have completed, with the record of R348. -/
theorem laneTrap_laneRec {s : State} {g : Group} {fr : Fragment} {k : Nat} {c : Clause} {i : Instr} {cause : Cause} {detail : DWord} {lanes : Mask}
    (hf : fr.inFence c.uid = false) (ho : g.longOpen c.uid = false) :
    s.laneTrap g (fr.countLane c.uid) k c (c.govOf i) cause detail lanes = .next (s.raise g (laneRec g k c i cause detail lanes)) :=
  laneTrap_raise (by simpa using hf) ho

/-- The exceptions and the write of such a word may be given by any functions with the same values. -/
theorem FpYields.congr {i : Instr} {x exc : Group → Clause → Nat → Exc} {w write : Group → Fragment → Clause → Mask → Group} (h : FpYields i x w)
    (hx : ∀ g c l, x g c l = exc g c l) (hw : ∀ g fr c gov, w g fr c gov = write g fr c gov) : FpYields i exc write := by
  obtain rfl : x = exc := funext fun g => funext fun c => funext fun l => hx g c l
  obtain rfl : w = write := funext fun g => funext fun fr => funext fun c => funext fun gov => hw g fr c gov
  exact h

/-- A word whose meaning ends in `fpDone` writes or raises as R51 and R81 say. -/
theorem fpYields_of_fpDone {i : Instr} {exc : Group → Clause → Nat → Exc} {write : Group → Fragment → Clause → Mask → Group}
    (hi : ∀ s, exec i s = laneExec i s fun g fr k c gov => s.fpDone g fr k c gov (exc g c) fun _ => write g fr c gov) : FpYields i exc write := by
  intro s g fr k c h
  dsimp only
  rw [hi, laneExec_ready h]
  exact ⟨State.fpDone_writes, fun he hf ho => (State.fpDone_traps he).trans (laneTrap_laneRec hf ho)⟩

theorem fpSets_of_fpWrite {i : Instr} {ty : Ty} {d : BitVec 8} {f : Group → Clause → Nat → Nat → Nat × Exc}
    (hi : ∀ s, exec i s = fpWrite i ty d s f) : FpSets i ty d f :=
  fpYields_of_fpDone hi

theorem laneSets_of_laneWrite {i : Instr} {ty : Ty} {d : BitVec 8} {f : Group → Clause → Mask → Nat → Nat}
    (hx : ∀ s, exec i s = laneWrite i ty d s f) : LaneSets i ty d f :=
  fun s _ _ _ _ h => (hx s).trans (laneWrite_ready h f)

end Sys2Proof.Machine
end

section
/-! The floating-point lane words (R78-R81, R145-R150). -/

namespace Sys2Proof.Machine

/-- The truth of a condition of VFCMP, unordered and ordered (R148). -/
theorem FCond.holds_eq (c : FCond) (x y : FVal) : FCond.holds c x y = match x.cmp y, c with
    | none, .ne | none, .un => true
    | none, _ => false
    | some r, .eq => decide (r = 0) | some r, .ne => decide (r ≠ 0) | some r, .lt => decide (r < 0) | some r, .le => decide (r ≤ 0)
    | some r, .gt => decide (r > 0) | some r, .ge => decide (r ≥ 0) | some _, .un => false | some _, .or => true := by
  unfold FCond.holds
  cases x.cmp y with
  | none => cases c <;> rfl
  | some r =>
    cases c
    case ne => simp [bne, BEq.beq]
    all_goals rfl

/-- VFCMP raises invalid operation by its condition, and writes the truth of the condition to its mask (R148). -/
theorem vfcmp_yields (ty : Ty) (cond : FCond) (m d : BitVec 4) (a b : Src) : FpYields (.vfcmp ty cond m d a b)
    (fun g c l => excIf (if FCond.quiet cond then (srcF g c ty a l 0).isSig || (srcF g c ty b l 0).isSig
      else (srcF g c ty a l 0).isNan || (srcF g c ty b l 0).isNan) excNV)
    (fun g fr c gov => g.setLaneMask fr d.toNat gov (maskOf fun l => FCond.holds cond (srcF g c ty a l 0) (srcF g c ty b l 0))) :=
  fpYields_of_fpDone fun _ => rfl

/-- Settles O34: each word's meaning is the shared elementwise form at its operation; the values stand as they are evaluated. -/
theorem laneFloat : Obligations.LaneFloat := by
  unfold Obligations.LaneFloat
  refine ⟨fun ty m d a b c rnd exact => ?words, fun ty cond m d a b => ?compare, ?_, ?_, ?_, ?_, ?_, ?_⟩
  case words =>
    dsimp only
    refine ⟨?_, ?_, ?_, ?_, ?_, ?_, ?_, ?_, ?_, ?round, ?_, ?_, ?_, ?_, ?_, ?_, ?abs, ?neg⟩
    case round => exact fpSets_of_fpWrite fun _ => by cases rnd <;> rfl
    case abs => exact laneSets_of_laneWrite fun _ => rfl
    case neg => exact laneSets_of_laneWrite fun _ => rfl
    all_goals exact fpSets_of_fpWrite fun _ => rfl
  case compare =>
    refine (vfcmp_yields ty cond m d a b).congr (fun _ _ _ => ?invalid) fun g fr _ gov => ?holds
    case invalid => cases cond <;> rfl
    case holds => exact congrArg (fun p => g.setLaneMask fr d.toNat gov (maskOf p)) (funext fun l => FCond.holds_eq cond _ _)
  all_goals decide

end Sys2Proof.Machine
end

section
/-! The conversions and the decoders of Q4N and T3P (R82-R90, R151-R155). -/

namespace Sys2Proof.Machine

/-! ## Conversion of one element -/

theorem convert_self (ty : Ty) (rm : Nat) (ftz sat : Bool) (v : Nat) : convert ty ty rm ftz sat v = (v, 0) := if_pos rfl
theorem convert_int_int {src dst : Ty} (hne : src ≠ dst) (hs : src.isInt = true) (hd : dst.isInt = true) (rm : Nat) (ftz sat : Bool) (v : Nat) :
    convert src dst rm ftz sat v = (narrow dst sat (asInt src.signed src.width v), 0) := by
  rw [convert, if_neg hne, if_pos (by simp [hs, hd])]

/-! ## A word that may read a reserved code (R89) -/

/-- The end of a lane word that reads codes of which some are reserved: FMT under .trapr, else the sticky bit SFMT beside those of the
exceptions (R89; log 54). `w` is the group with the word's results. -/
def State.fmtDone (s : State) (g : Group) (fr : Fragment) (k : Nat) (c : Clause) (gov : Mask) (trapr : Bool) (bad : Nat → Bool) (exc : Nat → Exc)
    (w : Group) : Out :=
  if trapr && (lanesOf gov).any bad then s.laneTrap g fr k c gov .fmt 0 0
  else s.fpDone g fr k c gov exc fun _ => if (lanesOf gov).any bad then { w with fpctl := stickFmt w.fpctl } else w

section
variable {s : State} {g w : Group} {fr : Fragment} {k : Nat} {c : Clause} {gov : Mask} {trapr : Bool} {bad : Nat → Bool} {exc : Nat → Exc}

theorem State.fmtDone_traps (ht : trapr = true) (hb : ∃ l ∈ lanesOf gov, bad l = true) :
    s.fmtDone g fr k c gov trapr bad exc w = s.laneTrap g fr k c gov .fmt 0 0 :=
  if_pos (by simp [ht, List.any_eq_true.mpr hb])

theorem State.fmtDone_clean (hu : excUnion gov exc &&& enables c.fpctl = 0) (hb : ∀ l ∈ lanesOf gov, bad l = false) :
    s.fmtDone g fr k c gov trapr bad exc w = .next (s.laneNext { w with fpctl := stick w.fpctl (excUnion gov exc) } fr k) := by
  have hany : (lanesOf gov).any bad = false := List.any_eq_false.mpr fun l hl => by simp [hb l hl]
  rw [State.fmtDone, hany, if_neg (by simp), State.fpDone_writes hu]
  rfl

theorem State.fmtDone_sticks (hu : excUnion gov exc &&& enables c.fpctl = 0) (ht : trapr = false) (hb : ∃ l ∈ lanesOf gov, bad l = true) :
    s.fmtDone g fr k c gov trapr bad exc w = .next (s.laneNext { w with fpctl := stick (w.fpctl ||| 0x00200000) (excUnion gov exc) } fr k) := by
  have hany : (lanesOf gov).any bad = true := List.any_eq_true.mpr hb
  rw [State.fmtDone, hany, if_neg (by simp [ht]), State.fpDone_writes hu]
  rfl
end

/-- Settles O35: VCVT, VPACK, VUNPK and VQ4N end in `fpDone` with the conversions of their elements, VT3P in `fmtDone` with its trits, and
`convert` by the kinds of its two types. -/
theorem laneConvert : Obligations.LaneConvert := by
  unfold Obligations.LaneConvert
  refine ⟨fun ty dty rnd sat sel del m d a => fpYields_of_fpDone fun _ => rfl, fun ty sty rnd sat half m d a b => ?pack,
    fun ty dty rnd sat half m d a => ?unpack, fun dty idx m d a b c => fpSets_of_fpWrite fun _ => rfl, ?trits, convert_self,
    fun src dst rm ftz sat v hne hs hd => convert_int_int hne hs hd ..⟩
  case pack => cases half <;> exact fpYields_of_fpDone fun _ => rfl
  case unpack => cases half <;> exact fpYields_of_fpDone fun _ => rfl
  case trits =>
    intro dty idx trapr m d a b s g fr k c i gov byte bad elem u h hr
    have hx : exec i s = s.fmtDone g (fr.countLane c.uid) k c gov trapr bad (fun l => (packExc dty (elem l)).2) h := by
      show execVt3p dty idx trapr m d a b s = _
      rw [execVt3p, laneExec_ready hr]
      rfl
    rw [hx]
    exact ⟨fun ht hf ho hb => (State.fmtDone_traps ht hb).trans (laneTrap_laneRec hf ho), State.fmtDone_clean, State.fmtDone_sticks⟩

end Sys2Proof.Machine
end

section
/-! Facts about tiles and products (R91, R92, R186): lists cut into runs, what is read of a tile, dot products, kinds, and a tile as rows of dot
products. -/

namespace Sys2Proof.Machine

/-! ## Lists cut into runs of one length -/

theorem take_drop_eq_map_range {α : Type} (l : List α) (d : α) {a w : Nat} (h : a + w ≤ l.length) :
    (l.drop a).take w = (List.range w).map fun k => l.getD (a + k) d := by
  refine List.ext_getElem (by simp; omega) fun n h1 h2 => ?_
  have hn : a + n < l.length := by simp at h2; omega
  simp [hn]

theorem length_flatMap_range {α : Type} {row : Nat → List α} {w : Nat} (h : ∀ m, (row m).length = w) (k : Nat) :
    ((List.range k).flatMap row).length = w * k := by
  induction k with
  | zero => rfl
  | succ k ih => rw [List.range_succ, List.flatMap_append, List.length_append, ih, List.flatMap_singleton, h, Nat.mul_succ]

/-- Element n of row m in the rows put one after another. -/
theorem getD_flatMap_range {α : Type} {row : Nat → List α} {w : Nat} (h : ∀ m, (row m).length = w) (d : α) {k m n : Nat} (hm : m < k) (hn : n < w) :
    ((List.range k).flatMap row).getD (w * m + n) d = (row m).getD n d := by
  induction k with
  | zero => omega
  | succ k ih =>
    have hlen := length_flatMap_range h k
    rw [List.range_succ, List.flatMap_append, List.getD_eq_getElem?_getD]
    rcases Nat.lt_or_ge m k with hmk | hmk
    · have hrow : w * m + w ≤ w * k := Nat.mul_le_mul_left w hmk
      rw [List.getElem?_append_left (by omega), ← List.getD_eq_getElem?_getD, ih hmk]
    · obtain rfl : m = k := by omega
      rw [List.getElem?_append_right (by omega), hlen, Nat.add_sub_cancel_left, List.flatMap_singleton, ← List.getD_eq_getElem?_getD]

theorem length_chunksOf {α : Type} (w k : Nat) (l : List α) : (chunksOf w k l).length = k := by
  induction k generalizing l with
  | zero => rfl
  | succ k ih => simp [chunksOf, ih]

theorem getElem_chunksOf {α : Type} (w k : Nat) (l : List α) {n : Nat} (hn : n < (chunksOf w k l).length) :
    (chunksOf w k l)[n] = (l.drop (w * n)).take w := by
  induction k generalizing l n with
  | zero => cases hn
  | succ k ih =>
    cases n with
    | zero => simp [chunksOf]
    | succ n => simp [chunksOf, ih, List.drop_drop, Nat.mul_succ, Nat.add_comm]

/-! ## What is read of a tile -/

theorem length_tileCoords (o : Nat × Nat) (rows cols : Nat) : (tileCoords o rows cols).length = cols * rows :=
  length_flatMap_range (by simp) rows

theorem State.length_readElems {s : State} {w : Who} {t : Team} {d : Tensor} {src : List (Nat × List Byte)} {n : Nat} {ps : List (Nat × Nat)}
    {es : List (Option (List Byte))} (h : s.readElems w t d src n ps = .ok es) : es.length = ps.length := by
  induction ps generalizing n es with
  | nil => cases h; rfl
  | cons p ps ih =>
    rw [State.readElems] at h
    split at h
    · cases h
    · split at h
      · cases h
      · next hrest => cases h; simp [ih hrest]

/-! ## Dot products (R91) -/

theorem foldl_add_eq_sum {α : Type} (f : α → Int) (l : List α) (z : Int) : l.foldl (fun z p => z + f p) z = z + (l.map f).sum := by
  induction l generalizing z with
  | nil => simp
  | cons p ps ih => simp [ih, Int.add_assoc]

theorem intDot_eq_sum (v : Word) (as bs : List Int) :
    intDot v as bs = BitVec.ofInt 32 (v.toInt + ((as.zip bs).map fun p => p.1 * p.2).sum) := by
  rw [intDot, foldl_add_eq_sum]

/-- The steps of 32 products, numbered from the first. -/
theorem fpSteps_eq_foldl (n acc : Nat) (ps : List FVal) : fpSteps n acc ps = (List.range n).foldl (fun acc j =>
    (fp32.addOp 0 false (fp32.value false acc) (fp32.value false (fp32.round 0 false false (exactSum ((ps.drop (32 * j)).take 32))).1)).1) acc := by
  induction n generalizing acc ps with
  | zero => rfl
  | succ n ih => simp [fpSteps, ih, List.range_succ_eq_map, List.foldl_map, Nat.mul_succ, Nat.add_comm]

theorem fpDot_eq_foldl (v : Word) (as bs : List FVal) : fpDot v as bs = BitVec.ofNat 32 ((List.range (as.length / 32)).foldl (fun acc j =>
    (fp32.addOp 0 false (fp32.value false acc) (fp32.value false (fp32.round 0 false false
      (exactSum ((((as.zip bs).map fun p => (p.1.mul p.2).1).drop (32 * j)).take 32))).1)).1) v.toNat) := by
  rw [fpDot, fpSteps_eq_foldl]

/-! ## The A operand and the kinds (R186, R190, R191) -/

theorem Stream.operand_register {st : Stream} (h : st.latch = none) (a : Nat) (t3p : Bool) :
    st.operand a t3p = some (if t3p then [st.a.getD a {}, st.a.getD (a + 1) {}] else [st.a.getD a {}]) := by
  rw [Stream.operand, h]
theorem Stream.operand_latch {st : Stream} {r : Nat} {rs : List AReg} (h : st.latch = some (r, rs)) (a : Nat) (t3p : Bool) :
    st.operand a t3p = if r = a ∧ (rs.length = 2 ↔ t3p = true) then some rs else none := by
  rw [Stream.operand, h]
  cases t3p <;> simp

/-- The pairs of an A tag and a B format that have a kind. -/
theorem mmaKind_eq (tag f : Nat) : mmaKind tag f = if tag = f ∧ (tag = 2 ∨ tag = 3) then some (64, false)
    else if (tag = 4 ∨ tag = 5) ∧ (f = 4 ∨ f = 5 ∨ f = 8) then some (128, false)
    else if tag = 6 ∧ f = 6 then some (128, true) else if tag = 6 ∧ f = 9 then some (256, true) else none := by
  have h16 : (tag = 3 ∧ f = 3 ∨ tag = 2 ∧ f = 2) ↔ tag = f ∧ (tag = 2 ∨ tag = 3) := by omega
  simp [mmaKind, h16, or_assoc]

theorem mmaKind_t3p : mmaKind 6 9 = some (256, true) := rfl
theorem mmaKind_untagged (f : Nat) : mmaKind 0 f = none := by simp [mmaKind_eq]

theorem aRow_single (r : AReg) (m : Nat) : aRow [r] m = r.row m := List.flatMap_singleton ..
theorem aRow_pair (r q : AReg) (m : Nat) : aRow [r, q] m = r.row m ++ q.row m := by simp [aRow]

/-- A row of an A register of INT8, as signed numbers. -/
theorem AReg.row_int8 {r : AReg} (ht : r.tag = 6) (hl : r.bytes.length = 8192) {m : Nat} (hm : m < 64) :
    (r.row m).map (fun v => (BitVec.ofNat 8 v).toInt) = (List.range 128).map fun k => (r.bytes.getD (128 * m + k) 0).toInt := by
  simp [AReg.row, ht, take_drop_eq_map_range r.bytes 0 (show 128 * m + 128 ≤ r.bytes.length by omega)]

/-! ## The tile of a product -/

/-- Rows of columns: element n of row m is the dot product of row m of A with column n of B, whose elements are the run n of `es`. -/
def dotRows {β : Type} (kk : Nat) (es : List (Option (List Byte))) (b : Nat → Option (List Byte) → β) (dot : Nat → Nat → List β → Word) : List Word :=
  (List.range 64).flatMap fun m => ((chunksOf kk 64 es).map fun c => c.mapIdx b).mapIdx fun n c => dot m n c

section
variable {β : Type} (kk : Nat) (es : List (Option (List Byte))) (b : Nat → Option (List Byte) → β) (dot : Nat → Nat → List β → Word)

theorem length_dotRows : (dotRows kk es b dot).length = 4096 :=
  length_flatMap_range (w := 64) (by simp [length_chunksOf]) 64

theorem getD_dotRows (hl : es.length = kk * 64) {m n : Nat} (hm : m < 64) (hn : n < 64) :
    (dotRows kk es b dot).getD (64 * m + n) 0 = dot m n ((List.range kk).map fun k => b k (es.getD (kk * n + k) none)) := by
  have hcol : (chunksOf kk 64 es)[n]'(by simpa [length_chunksOf] using hn) = (List.range kk).map fun k => es.getD (kk * n + k) none := by
    have hrun : kk * n + kk ≤ kk * 64 := Nat.mul_le_mul_left kk hn
    rw [getElem_chunksOf, take_drop_eq_map_range es none (by omega)]
  rw [dotRows, getD_flatMap_range (w := 64) (by simp [length_chunksOf]) 0 hm hn, List.getD_eq_getElem?_getD,
    List.getElem?_eq_getElem (by simpa [length_chunksOf] using hn), Option.getD_some]
  simp only [List.getElem_mapIdx, List.getElem_map, hcol]
  congr 1
  exact List.ext_getElem (by simp) fun k _ _ => by simp
end

end Sys2Proof.Machine
end

section
/-! What MMA and MMAZ do, case by case (R89, R190, R191). -/

namespace Sys2Proof.Machine

/-- The new tile of a product with the elements `es` of a B tile whose first coordinate is `d0`. -/
def Team.productTile (u : Team) (acc : BitVec 4) (zero int : Bool) (regs : List AReg) (f d0 kk : Nat) (es : List (Option (List Byte))) : List Word :=
  let start (n : Nat) : Word := if zero then 0 else (u.tile acc.toNat).getD n 0
  if int then dotRows kk es (fun k => bInt f (d0 + k)) fun m n => intDot (start (64 * m + n)) ((aRow regs m).map fun v => (BitVec.ofNat 8 v).toInt)
  else dotRows kk es (fun k => bValue f (d0 + k)) fun m n => fpDot (start (64 * m + n)) ((aRow regs m).map ((Ty.fmt (fmtTy (regs.headD {}).tag)).value false))

/-- The team after a product: the new tile, the latch as .keep says, and the stream at the next word (R190, R191). -/
def Team.multiplied (u : Team) (acc a : BitVec 4) (keep : Bool) (regs : List AReg) (tile : List Word) : Team :=
  { u with acc := u.acc.set acc.toNat tile, stream := ({ u.stream with latch := if keep then some (a.toNat, regs) else none } : Stream).next }

theorem Team.length_productTile (u : Team) (acc : BitVec 4) (zero int : Bool) (regs : List AReg) (f d0 kk : Nat) (es : List (Option (List Byte))) :
    (u.productTile acc zero int regs f d0 kk es).length = 4096 := by
  rw [Team.productTile]
  split <;> exact length_dotRows ..

section
variable {m n kk : Nat} {es : List (Option (List Byte))} (hl : es.length = kk * 64) (hm : m < 64) (hn : n < 64)
include hl hm hn

theorem Team.getD_productTile_int (u : Team) (acc : BitVec 4) (zero : Bool) (regs : List AReg) (f d0 : Nat) :
    (u.productTile acc zero true regs f d0 kk es).getD (64 * m + n) 0 =
      intDot (if zero then 0 else (u.tile acc.toNat).getD (64 * m + n) 0) ((aRow regs m).map fun v => (BitVec.ofNat 8 v).toInt)
        ((List.range kk).map fun k => bInt f (d0 + k) (es.getD (kk * n + k) none)) := by
  rw [Team.productTile, if_pos rfl, getD_dotRows kk es _ _ hl hm hn]

theorem Team.getD_productTile_float (u : Team) (acc : BitVec 4) (zero : Bool) (regs : List AReg) (f d0 : Nat) :
    (u.productTile acc zero false regs f d0 kk es).getD (64 * m + n) 0 =
      fpDot (if zero then 0 else (u.tile acc.toNat).getD (64 * m + n) 0) ((aRow regs m).map ((Ty.fmt (fmtTy (regs.headD {}).tag)).value false))
        ((List.range kk).map fun k => bValue f (d0 + k) (es.getD (kk * n + k) none)) := by
  rw [Team.productTile, if_neg Bool.false_ne_true, getD_dotRows kk es _ _ hl hm hn]

end

/-- An element of a product of INT8, as the exact sum of its 128 products (R91). -/
theorem Team.getD_productTile_int8 {m n : Nat} {es : List (Option (List Byte))} (hl : es.length = 128 * 64) (hm : m < 64) (hn : n < 64)
    (u : Team) (acc : BitVec 4) (zero : Bool) {r : AReg} (ht : r.tag = 6) (hr : r.bytes.length = 8192) (d0 : Nat) :
    (u.productTile acc zero true [r] 6 d0 128 es).getD (64 * m + n) 0 =
      BitVec.ofInt 32 ((if zero then 0 else ((u.tile acc.toNat).getD (64 * m + n) 0).toInt) +
        ((List.range 128).map fun k => (r.bytes.getD (128 * m + k) 0).toInt * bInt 6 (d0 + k) (es.getD (128 * n + k) none)).sum) := by
  rw [Team.getD_productTile_int hl hm hn, intDot_eq_sum, aRow_single, AReg.row_int8 ht hr hm, List.zip_map', List.map_map]
  cases zero <;> rfl

/-- Some byte of a T3P tile is reserved (R89). -/
def hasReserved (es : List (Option (List Byte))) : Bool := es.any fun e => match e with | some bs => t3pBad bs | none => false

theorem hasReserved_of_mem {es : List (Option (List Byte))} {bs : List Byte} (h : some bs ∈ es) (hb : t3pBad bs = true) : hasReserved es = true :=
  List.any_eq_true.mpr ⟨some bs, h, hb⟩
theorem hasReserved_eq_false {es : List (Option (List Byte))} (h : ∀ bs, some bs ∈ es → t3pBad bs = false) : hasReserved es = false :=
  List.any_eq_false.mpr fun e he => by
    cases e with
    | none => simp
    | some bs => simp [h bs he]

section
variable {i : Instr} {acc a : BitVec 4} {keep zero : Bool} {x : Tile} {s : State} {u : Team} {r q : AReg} {kk : Nat} {int : Bool}
  {es : List (Option (List Byte))}

theorem mmaOp_odd (h : StreamReady i s u) (hf : tFormat (s.entryOf u x.tn) = 9) (ha : a.getLsbD 0 = true) :
    mmaOp i acc a keep zero x s = s.stop u 4 0 := by
  rw [mmaOp, streamExec_ready h]
  exact if_pos (by simp [hf, ha])

theorem mmaOp_latched (h : StreamReady i s u) (hf : tFormat (s.entryOf u x.tn) ≠ 9) (hop : u.stream.operand a.toNat false = none) :
    mmaOp i acc a keep zero x s = s.stop u 7 0 := by
  simp [mmaOp, streamExec_ready h, beq_false_of_ne hf, hf, hop]

theorem mmaOp_untagged (h : StreamReady i s u) (hf : tFormat (s.entryOf u x.tn) ≠ 9) (hop : u.stream.operand a.toNat false = some [r]) (ht : r.tag = 0) :
    mmaOp i acc a keep zero x s = s.stop u 10 0 := by
  simp [mmaOp, streamExec_ready h, beq_false_of_ne hf, hf, hop, ht]

theorem mmaOp_noKind (h : StreamReady i s u) (hf : tFormat (s.entryOf u x.tn) ≠ 9) (hop : u.stream.operand a.toNat false = some [r]) (ht : r.tag ≠ 0)
    (hk : mmaKind r.tag (tFormat (s.entryOf u x.tn)) = none) : mmaOp i acc a keep zero x s = s.stop u 6 0 := by
  simp [mmaOp, streamExec_ready h, beq_false_of_ne hf, hf, hop, ht, hk]

/-- The end of a product whose operand has a kind and whose B tile has been read (R89, R190). -/
theorem mmaOp_read {f : Nat} {regs : List AReg} (h : StreamReady i s u) (hf : tFormat (s.entryOf u x.tn) = f) (ha : (f == 9 && a.getLsbD 0) = false)
    (hop : u.stream.operand a.toNat (f == 9) = some regs) (ht : (regs.any fun r => r.tag == 0) = false)
    (hk : (if regs.all fun r => r.tag == (regs.headD {}).tag then mmaKind (regs.headD {}).tag f else none) = some (kk, int))
    (hes : s.readElems (s.teamWho u) u (s.entryOf u x.tn) (s.bSource u x) 0 (tileCoords (originOf u.stream x) 64 kk) = .ok es) :
    mmaOp i acc a keep zero x s =
      if (f == 9 && hasReserved es) && tTrapr (s.entryOf u x.tn) then .next (s.raiseStream u { cause := .fmt })
      else
        let t := s.setTeam (u.multiplied acc a keep regs (u.productTile acc zero int regs f (originOf u.stream x).1 kk es))
        .next (if f == 9 && hasReserved es then t.streamSfmt u else t) := by
  subst hf
  simp only [mmaOp, streamExec_ready h, ha, hop, ht, hk, hes, Bool.false_eq_true, if_false]
  rfl

/-- A product of one A register (R190). -/
theorem mmaOp_single {f : Nat} (h : StreamReady i s u) (hf : tFormat (s.entryOf u x.tn) = f) (h9 : f ≠ 9) (hop : u.stream.operand a.toNat false = some [r])
    (ht : r.tag ≠ 0) (hk : mmaKind r.tag f = some (kk, int))
    (hes : s.readElems (s.teamWho u) u (s.entryOf u x.tn) (s.bSource u x) 0 (tileCoords (originOf u.stream x) 64 kk) = .ok es) :
    mmaOp i acc a keep zero x s = .next (s.setTeam (u.multiplied acc a keep [r] (u.productTile acc zero int [r] f (originOf u.stream x).1 kk es))) := by
  have hf9 := beq_false_of_ne h9
  rw [mmaOp_read h hf (by simp [hf9]) (by rw [hf9, hop]) (by simp [ht]) (show _ = some (kk, int) by simp [hk]) hes]
  simp [hf9]

section
variable (h : StreamReady i s u) (hf : tFormat (s.entryOf u x.tn) = 9) (ha : a.getLsbD 0 = false)
  (hop : u.stream.operand a.toNat true = some [r, q]) (hr : r.tag = 6) (hq : q.tag = 6)
  (hes : s.readElems (s.teamWho u) u (s.entryOf u x.tn) (s.bSource u x) 0 (tileCoords (originOf u.stream x) 64 256) = .ok es)
include h hf ha hop hr hq hes

/-- A T3P product, of a pair of A registers, without a reserved byte (R191). -/
theorem mmaOp_pair (hc : hasReserved es = false) : mmaOp i acc a keep zero x s = .next (s.setTeam (u.multiplied acc a keep [r, q]
      (u.productTile acc zero true [r, q] 9 (originOf u.stream x).1 256 es))) := by
  rw [mmaOp_read h hf (by rw [ha, Bool.and_false]) hop (by simp [hr, hq]) (show _ = some (256, true) by simp [hr, hq, mmaKind_t3p]) hes]
  simp [hc]

theorem mmaOp_fmt (hc : hasReserved es = true) (ht : tTrapr (s.entryOf u x.tn) = true) :
    mmaOp i acc a keep zero x s = .next (s.raiseStream u { cause := .fmt }) := by
  rw [mmaOp_read h hf (by rw [ha, Bool.and_false]) hop (by simp [hr, hq]) (show _ = some (256, true) by simp [hr, hq, mmaKind_t3p]) hes]
  simp [hc, ht]
end
end

/-- Settles O42: a word in the form `mmaOp` has each case by its lemma, and the elements of its tile by `Team.getD_productTile_int` and its
like; the operand, the dot products and the kinds by their equations. -/
theorem productWords : Obligations.ProductWords := by
  unfold Obligations.ProductWords
  intro next T org coords stops product
  have holds (i : Instr) (c a : BitVec 4) (keep zero : Bool) (x : Tile) (hi : ∀ s, exec i s = mmaOp i c a keep zero x s) : product i c a keep zero x := by
    have hlen {s : State} {u : Team} {kk : Nat} {es : List (Option (List Byte))}
        (hes : s.readElems (s.teamWho u) u (T s u x) (s.bSource u x) 0 (coords u x kk) = .ok es) : es.length = kk * 64 :=
      (State.length_readElems hes).trans (length_tileCoords _ 64 kk)
    refine ⟨?int8, ?float, ?t3p, ?fmt, ?odd, ?latched, ?untagged, ?noKind⟩
    case int8 =>
      intro s u r es h hf ht hr hop hes
      refine ⟨_, (hi s).trans (mmaOp_single h hf (by decide) hop (by simp [ht]) (by rw [ht]; rfl) hes), Team.length_productTile .., fun m n hm hn => ?_⟩
      rw [Team.getD_productTile_int8 (hlen hes) hm hn u c zero ht hr]
      rfl
    case float =>
      intro s u r es kk h h9 hop hk hes
      have ht : r.tag ≠ 0 := fun h0 => by simp [h0, mmaKind_untagged] at hk
      refine ⟨_, (hi s).trans (mmaOp_single h rfl h9 hop ht hk hes), Team.length_productTile .., fun m n hm hn => ?_⟩
      rw [Team.getD_productTile_float (hlen hes) hm hn, aRow_single]
      rfl
    case t3p =>
      intro s u r q es h hf ha hr hq hop hes hc
      refine ⟨_, (hi s).trans (mmaOp_pair h hf ha hop hr hq hes (hasReserved_eq_false hc)), Team.length_productTile .., fun m n hm hn => ?_⟩
      rw [Team.getD_productTile_int (hlen hes) hm hn, aRow_pair]
      rfl
    case fmt =>
      intro s u r q es bs h hf ha hr hq hop hes hmem hb ht
      exact (hi s).trans (mmaOp_fmt h hf ha hop hr hq hes (hasReserved_of_mem hmem hb) ht)
    case odd => exact fun s u h ⟨hf, ha⟩ => (hi s).trans (mmaOp_odd h hf ha)
    case latched => exact fun s u h ⟨hf, hop⟩ => (hi s).trans (mmaOp_latched h hf hop)
    case untagged => exact fun s u h ⟨hf, r, hop, ht⟩ => (hi s).trans (mmaOp_untagged h hf hop ht)
    case noKind => exact fun s u h ⟨hf, r, hop, ht, hk⟩ => (hi s).trans (mmaOp_noKind h hf hop ht hk)
  refine ⟨fun c a keep x => ⟨holds _ c a keep false x fun _ => rfl, holds _ c a keep true x fun _ => rfl⟩, fun st a t3p => ⟨?register, ?latch⟩,
    fpDot_eq_foldl, intDot_eq_sum, mmaKind_eq⟩
  case register => exact fun h => Stream.operand_register h a t3p
  case latch =>
    intro r rs h
    rw [Stream.operand_latch h]
    exact ⟨fun hr => if_pos hr, fun hr => if_neg fun ⟨hreg, hpair⟩ => hr.elim (· hreg) (· hpair)⟩

end Sys2Proof.Machine
end

section
/-! Writes under a mask and exceptions over the lanes of a mask: what a function says of other lanes has no part in them (R41, R43, R51). -/

namespace Sys2Proof.Machine

theorem mem_lanesOf {m : Mask} {l : Nat} : l ∈ lanesOf m ↔ l < 32 ∧ inMask m l = true := by simp [lanesOf]
theorem pairwise_lt_lanesOf (m : Mask) : (lanesOf m).Pairwise (· < ·) := List.pairwise_lt_range.filter _

@[simp] theorem stick_zero (w : Word) : stick w 0 = w := by simp [stick]

/-- Only what a step does at the members of the list counts in a fold. -/
theorem foldl_congr_mem {α β : Type} {f f' : α → β → α} {ls : List β} (h : ∀ x, ∀ l ∈ ls, f x l = f' x l) (x : α) : ls.foldl f x = ls.foldl f' x := by
  induction ls generalizing x with
  | nil => rfl
  | cons l ls ih =>
    rw [List.foldl_cons, List.foldl_cons, h x l List.mem_cons_self]
    exact ih (fun y k hk => h y k (List.mem_cons_of_mem l hk)) _

theorem maskOf_congr {p q : Nat → Bool} (h : ∀ l, l < 32 → p l = q l) : maskOf p = maskOf q :=
  foldl_congr_mem (fun _ l hl => by rw [h l (List.mem_range.mp hl)]) _

section
variable {m : Mask}

theorem Group.setV_congr {f f' : Nat → Word} (h : ∀ l ∈ lanesOf m, f l = f' l) (g : Group) (r : Nat) : g.setV r m f = g.setV r m f' := by
  have hrow : ((List.range 32).map fun l => if inMask m l then f l else g.v r l) = (List.range 32).map fun l => if inMask m l then f' l else g.v r l :=
    List.map_congr_left fun l hl => ite_congr rfl (fun hm => h l (mem_lanesOf.mpr ⟨List.mem_range.mp hl, hm⟩)) fun _ => rfl
  rw [Group.setV, hrow, Group.setV]

theorem Group.setN_congr {f f' : Nat → Nat} (h : ∀ l ∈ lanesOf m, f l = f' l) (g : Group) (ty : Ty) (d : Nat) : g.setN ty d m f = g.setN ty d m f' := by
  have hlow : ∀ l ∈ lanesOf m, BitVec.ofNat 32 (f l) = BitVec.ofNat 32 (f' l) := fun l hl => by rw [h l hl]
  have hhigh : ∀ l ∈ lanesOf m, BitVec.ofNat 32 (f l / 2 ^ 32) = BitVec.ofNat 32 (f' l / 2 ^ 32) := fun l hl => by rw [h l hl]
  rw [Group.setN, Group.setN, Group.setV_congr hlow, Group.setV_congr hhigh]

variable {exc exc' : Nat → Exc} (h : ∀ l ∈ lanesOf m, exc l = exc' l)
include h

theorem excUnion_congr : excUnion m exc = excUnion m exc' := foldl_congr_mem (fun _ l hl => by rw [h l hl]) _

theorem excLanes_congr (en : Exc) : excLanes m en exc = excLanes m en exc' :=
  maskOf_congr fun l hl => by
    cases hm : inMask m l with
    | false => rfl
    | true => rw [h l (mem_lanesOf.mpr ⟨hl, hm⟩)]

theorem State.fpDone_congr {write write' : Group → Group} {g : Group} (hw : write g = write' g) (s : State) (fr : Fragment) (k : Nat) (c : Clause) :
    s.fpDone g fr k c m exc write = s.fpDone g fr k c m exc' write' := by
  simp only [State.fpDone, excUnion_congr h, excLanes_congr h, hw]
end

/-- A word that ends in `fpDone` once it is ready: its exceptions may depend on its governing mask. -/
theorem fpYields_of_ready {i : Instr} {exc : Group → Clause → Nat → Exc} {write : Group → Fragment → Clause → Mask → Group}
    (hi : ∀ s g fr k c, LaneReady i s g fr k c →
      exec i s = s.fpDone g (fr.countLane c.uid) k c (c.govOf i) (exc g c) fun _ => write g (fr.countLane c.uid) c (c.govOf i)) :
    FpYields i exc write := by
  intro s g fr k c h
  dsimp only
  rw [hi s g fr k c h]
  exact ⟨State.fpDone_writes, fun he hf ho => (State.fpDone_traps he).trans (laneTrap_laneRec hf ho)⟩

theorem LaneSets.congr {i : Instr} {ty : Ty} {d : BitVec 8} {f f' : Group → Clause → Mask → Nat → Nat} (h : LaneSets i ty d f)
    (hf : ∀ g c gov l, f g c gov l = f' g c gov l) : LaneSets i ty d f' := by
  obtain rfl : f = f' := funext fun g => funext fun c => funext fun gov => funext fun l => hf g c gov l
  exact h

theorem LaneSetsMask.congr {i : Instr} {d : BitVec 4} {f f' : Group → Clause → Mask → Mask} (h : LaneSetsMask i d f)
    (hf : ∀ g c gov, f g c gov = f' g c gov) : LaneSetsMask i d f' := by
  obtain rfl : f = f' := funext fun g => funext fun c => funext fun gov => hf g c gov
  exact h

theorem laneSetsMask_of_laneToMask {i : Instr} {d : BitVec 4} {f : Group → Clause → Mask → Mask}
    (hx : ∀ s, exec i s = laneToMask i d s f) : LaneSetsMask i d f :=
  fun s _ _ _ _ h => (hx s).trans (laneToMask_ready h f)

end Sys2Proof.Machine
end

section
/-! The cross-lane words (R156-R161): the source lane of VSHUF and VBCST, the reduction tree of VREDS and the running value of VSCAN. -/

namespace Sys2Proof.Machine

/-! ## Source lanes (R156-R158) -/

theorem crossLane_natCast (gov : Mask) (a : Nat → Nat) (l x : Nat) :
    crossLane gov a l (x : Int) = if x < 32 ∧ gov.getLsbD x = true then a x else a l := by
  simp [crossLane, inMask, show ((x : Int) < 32) ↔ x < 32 by omega]

theorem crossLane_neg {src : Int} (h : src < 0) (gov : Mask) (a : Nat → Nat) (l : Nat) : crossLane gov a l src = a l :=
  if_neg fun ⟨h0, _⟩ => by omega

/-- A source lane below the reading one, which may lie before lane 0 (.up of R157). -/
theorem crossLane_sub (gov : Mask) (a : Nat → Nat) (l n : Nat) : crossLane gov a l ((l : Int) - n) =
    if n ≤ l then (if l - n < 32 ∧ gov.getLsbD (l - n) = true then a (l - n) else a l) else a l := by
  by_cases h : n ≤ l
  · rw [if_pos h, ← Int.ofNat_sub h, crossLane_natCast]
  · rw [if_neg h, crossLane_neg (by omega)]

/-! ## The reduction tree (R159) -/

/-- What a lane and the lane one span above it combine to, and the exceptions of that step: an absent one leaves the other. -/
def combine (op : Nat → Nat → Nat × Exc) : Option Nat → Option Nat → Option Nat × Exc
  | some x, some y => (some (op x y).1, (op x y).2)
  | none, y => (y, 0)
  | x, none => (x, 0)

/-- The value of the subtree over the 2^n lanes from l on. -/
def subtree (op : Nat → Nat → Nat × Exc) (p : Nat → Option Nat) (n l : Nat) : Option Nat := redTree (fun x y => (op x y).1) p n l

/-- No step of the reduction raises an exception. -/
def QuietTree (op : Nat → Nat → Nat × Exc) (p : Nat → Option Nat) : Prop :=
  ∀ n l, (combine op (subtree op p n l) (subtree op p n (l + 2 ^ n))).2 = 0

/-- The tree before its first span. -/
def Tree.start (p : Nat → Option Nat) : Tree := { val := (List.range 32).map p, exc := List.replicate 32 0 }

/-- The tree after its five spans. -/
def Tree.reduce (op : Nat → Nat → Nat × Exc) (p : Nat → Option Nat) : Tree := [1, 2, 4, 8, 16].foldl (fun t n => t.span op n) (Tree.start p)

/-- The steps of the spans below 2^n are done: each lane that starts a run of 2^n lanes has the value of its subtree, and no step
has raised an exception. -/
structure Tree.Reduced (op : Nat → Nat → Nat × Exc) (p : Nat → Option Nat) (n : Nat) (t : Tree) : Prop where
  val : ∀ l, l < 32 → l % 2 ^ n = 0 → t.val.getD l none = subtree op p n l
  exc : ∀ l, t.exc.getD l 0 = 0

section
variable {op : Nat → Nat → Nat × Exc} {p : Nat → Option Nat} {n : Nat} {t : Tree}

theorem subtree_succ (op : Nat → Nat → Nat × Exc) (p : Nat → Option Nat) (n l : Nat) :
    subtree op p (n + 1) l = (combine op (subtree op p n l) (subtree op p n (l + 2 ^ n))).1 := by
  show redTree _ p (n + 1) l = (combine op (redTree _ p n l) (redTree _ p n (l + 2 ^ n))).1
  rw [redTree]
  cases redTree _ p n l <;> cases redTree _ p n (l + 2 ^ n) <;> rfl

theorem getD_map_range_32 {α : Type} (f : Nat → α) (d : α) (l : Nat) : ((List.range 32).map f).getD l d = if l < 32 then f l else d := by
  by_cases h : l < 32 <;> simp [List.getD_eq_getElem?_getD, h]

theorem Tree.getD_val_span (op : Nat → Nat → Nat × Exc) (t : Tree) (n : Nat) {l : Nat} (hl : l < 32) : (t.span op n).val.getD l none =
    if l % (2 * n) = 0 then (combine op (t.val.getD l none) (t.val.getD (l + n) none)).1 else t.val.getD l none := by
  simp only [Tree.span, getD_map_range_32, if_pos hl]
  split
  · cases t.val.getD l none <;> cases t.val.getD (l + n) none <;> rfl
  · rfl

theorem Tree.getD_exc_span (op : Nat → Nat → Nat × Exc) (t : Tree) (n l : Nat) : (t.span op n).exc.getD l 0 =
    if l < 32 then
      if l % (2 * n) = 0 then t.exc.getD l 0 ||| (combine op (t.val.getD l none) (t.val.getD (l + n) none)).2 else t.exc.getD l 0
    else 0 := by
  simp only [Tree.span, getD_map_range_32]
  refine ite_congr rfl (fun _ => ?_) fun _ => rfl
  split
  · cases t.val.getD l none <;> cases t.val.getD (l + n) none <;> simp [combine]
  · rfl

theorem Tree.reduced_start (op : Nat → Nat → Nat × Exc) (p : Nat → Option Nat) :
    (Tree.start p).Reduced op p 0 where
  val l hl _ := (getD_map_range_32 ..).trans (if_pos hl)
  exc l := by
    rw [Tree.start, List.getD_eq_getElem?_getD, List.getElem?_replicate]
    split <;> rfl

/-- The partner of a lane that starts a run of 2^(n+1) lanes starts a run of 2^n lanes within the warp. -/
theorem partner_lt_32 {l : Nat} (hn : n < 5) (hl : l < 32) (h : l % (2 * 2 ^ n) = 0) :
    l % 2 ^ n = 0 ∧ l + 2 ^ n < 32 ∧ (l + 2 ^ n) % 2 ^ n = 0 := by
  obtain rfl | rfl | rfl | rfl | rfl : n = 0 ∨ n = 1 ∨ n = 2 ∨ n = 3 ∨ n = 4 := by omega
  all_goals omega

theorem Tree.Reduced.span (h : t.Reduced op p n) (hn : n < 5) (hq : QuietTree op p) : (t.span op (2 ^ n)).Reduced op p (n + 1) where
  val l hl hm := by
    rw [Nat.pow_succ'] at hm
    obtain ⟨h0, h1, h2⟩ := partner_lt_32 hn hl hm
    rw [Tree.getD_val_span op t _ hl, if_pos hm, h.val l hl h0, h.val _ h1 h2, subtree_succ]
  exc l := by
    rw [Tree.getD_exc_span, h.exc]
    split
    case isFalse => rfl
    case isTrue hl =>
      split
      case isFalse => rfl
      case isTrue hm =>
        obtain ⟨h0, h1, h2⟩ := partner_lt_32 hn hl hm
        rw [h.val l hl h0, h.val _ h1 h2, hq n l]
        rfl

/-- The five spans of R159, with no exception in any. -/
theorem Tree.reduced_reduce (hq : QuietTree op p) :
    (Tree.reduce op p).Reduced op p 5 :=
  have h1 := (Tree.reduced_start op p).span (by decide) hq
  have h2 := h1.span (by decide) hq
  have h3 := h2.span (by decide) hq
  have h4 := h3.span (by decide) hq
  h4.span (by decide) hq

theorem foldl_or_eq_zero {xs : List Exc} (h : ∀ l, xs.getD l 0 = 0) : xs.foldl (fun x y => x ||| y) 0 = 0 := by
  induction xs with
  | nil => rfl
  | cons x xs ih =>
    have hx : x = 0 := h 0
    rw [List.foldl_cons, hx]
    exact ih fun l => h (l + 1)

end

section
variable {ty : Ty} {op : RedOp} {m : BitVec 4} {d : BitVec 8} {a : Src} {s : State} {g : Group} {fr : Fragment} {k : Nat} {c : Clause}

/-- The value of each governed lane. -/
def governed (gov : Mask) (a : Nat → Nat) (l : Nat) : Option Nat := if gov.getLsbD l then some (a l) else none

/-- The end of VREDS once its tree is combined: FPE for an enabled exception of a step, else the value of the tree in every governed lane (R159). -/
def State.treeDone (s : State) (g : Group) (fr : Fragment) (k : Nat) (c : Clause) (gov : Mask) (ty : Ty) (d : Nat) (t : Tree) : Out :=
  let u : Exc := t.exc.foldl (fun x y => x ||| y) 0
  if u &&& enables c.fpctl != 0 then
    s.laneTrap g fr k c gov .fpe ((u &&& enables c.fpctl).zeroExtend 64) (maskOf fun l => t.exc.getD l 0 &&& enables c.fpctl != 0)
  else
    let h := g.setN ty d gov fun _ => (t.val.getD 0 none).getD 0
    .next (s.laneNext { h with fpctl := stick h.fpctl u } fr k)

theorem State.treeDone_quiet {t : Tree} (h : ∀ l, t.exc.getD l 0 = 0) (gov : Mask) (ty : Ty) (d : Nat) :
    s.treeDone g fr k c gov ty d t = .next (s.laneNext (g.setN ty d gov fun _ => (t.val.getD 0 none).getD 0) fr k) := by
  rw [State.treeDone, foldl_or_eq_zero h, if_neg (by simp)]
  dsimp only
  rw [stick_zero]

/-- A VREDS no step of which raises an exception writes the value of the whole tree. -/
theorem vreds_quiet (h : LaneReady (.vreds ty op m d a) s g fr k c) {gov : Mask} (hg : c.govOf (.vreds ty op m d a) = gov)
    (hq : QuietTree (RedOp.step op ty (rmOf c.fpctl) (ftzOf c.fpctl)) (governed gov (srcN g c ty a))) :
    exec (.vreds ty op m d a) s = .next (s.laneNext (g.setN ty d.toNat gov fun _ =>
      (subtree (RedOp.step op ty (rmOf c.fpctl) (ftzOf c.fpctl)) (governed gov (srcN g c ty a)) 5 0).getD 0) (fr.countLane c.uid) k) := by
  subst hg
  have hr := Tree.reduced_reduce hq
  show execVreds ty op m d a s = _
  rw [execVreds, laneExec_ready h, ← hr.val 0 (by decide) rfl]
  exact State.treeDone_quiet hr.exc ..

end

/-- An operation on integers raises no exception, and RM and FTZ have no part in it. -/
theorem RedOp.step_int {op : RedOp} (ha : op ≠ .fadd) (hn : op ≠ .fmin) (hx : op ≠ .fmax) (ty : Ty) (rm : Nat) (ftz : Bool) :
    RedOp.step op ty rm ftz = fun x y => ((RedOp.step op ty 0 false x y).1, 0) := by
  cases op
  case fadd => exact absurd rfl ha
  case fmin => exact absurd rfl hn
  case fmax => exact absurd rfl hx
  all_goals rfl

/-- A tree of an operation without exceptions is quiet. -/
theorem quietTree_of_op {op : Nat → Nat → Nat × Exc} (h : ∀ x y, (op x y).2 = 0) (p : Nat → Option Nat) : QuietTree op p := by
  intro n l
  cases subtree op p n l <;> cases subtree op p n (l + 2 ^ n) <;> simp [combine, h]

/-- A tree over one lane has its value in the runs that hold the lane. -/
theorem subtree_governed_single (op : Nat → Nat → Nat × Exc) {j : Nat} (hj : j < 32) (a : Nat → Nat) (n l : Nat) :
    subtree op (governed (1#32 <<< j) a) n l = if l ≤ j ∧ j < l + 2 ^ n then some (a j) else none := by
  induction n generalizing l with
  | zero =>
    have hone : (1#32 <<< j).getLsbD l = decide (l = j) := by
      rw [← BitVec.twoPow_eq, BitVec.getLsbD_twoPow]
      simp [hj, eq_comm]
    show (if (1#32 <<< j).getLsbD l = true then some (a l) else none) = _
    rw [hone]
    by_cases h : l = j
    · simp [h]
    · rw [if_neg (by simpa using h), if_neg (by omega)]
  | succ n ih =>
    rw [subtree_succ, ih, ih, Nat.pow_succ]
    by_cases h : j < l + 2 ^ n
    · rw [if_neg (by omega : ¬ (l + 2 ^ n ≤ j ∧ j < l + 2 ^ n + 2 ^ n))]
      by_cases hl : l ≤ j
      · rw [if_pos ⟨hl, h⟩, if_pos (by omega)]
        rfl
      · rw [if_neg (by omega), if_neg (by omega)]
        rfl
    · rw [if_neg (by omega : ¬ (l ≤ j ∧ j < l + 2 ^ n))]
      show (if _ then some (a j) else none) = _
      exact ite_congr (propext (by omega)) (fun _ => rfl) fun _ => rfl

/-- A tree over one lane combines nothing. -/
theorem quietTree_governed_single (op : Nat → Nat → Nat × Exc) {j : Nat} (hj : j < 32) (a : Nat → Nat) :
    QuietTree op (governed (1#32 <<< j) a) := by
  intro n l
  rw [subtree_governed_single op hj, subtree_governed_single op hj]
  by_cases h : j < l + 2 ^ n
  · rw [if_neg (by omega : ¬ (l + 2 ^ n ≤ j ∧ j < l + 2 ^ n + 2 ^ n))]
    split <;> rfl
  · rw [if_neg (by omega : ¬ (l ≤ j ∧ j < l + 2 ^ n))]
    rfl

/-! ## The running value of VSCAN (R160) -/

/-- The running value of a scan takes in one more lane. -/
def runStep (op : Nat → Nat → Nat × Exc) (a : Nat → Nat) (run : Option Nat) (l : Nat) : Option Nat :=
  match run with
  | none => some (a l)
  | some v => some (op v (a l)).1

section
variable {op : Nat → Nat → Nat × Exc} {ident : Nat} {excl : Bool} {a : Nat → Nat}

/-- The scan after its visits to the lanes `ls`. -/
def Scan.visits (op : Nat → Nat → Nat × Exc) (ident : Nat) (excl : Bool) (a : Nat → Nat) (t : Scan) (ls : List Nat) : Scan :=
  ls.foldl (fun t l => t.visit op ident excl a l) t

theorem Scan.run_visit (t : Scan) (l : Nat) : (t.visit op ident excl a l).run = runStep op a t.run l := by
  rw [Scan.visit]
  cases t.run <;> rfl

theorem Scan.run_visits (t : Scan) (ls : List Nat) : (t.visits op ident excl a ls).run = ls.foldl (runStep op a) t.run :=
  (List.foldl_hom Scan.run fun t l => (Scan.run_visit t l).symm).symm

/-- Visits to other lanes leave what a lane got. -/
theorem Scan.visits_of_not_mem {l : Nat} {ls : List Nat} (h : l ∉ ls) (t : Scan) :
    assoc 0 l (t.visits op ident excl a ls).out = assoc 0 l t.out ∧ assoc 0 l (t.visits op ident excl a ls).exc = assoc 0 l t.exc := by
  induction ls generalizing t with
  | nil => exact ⟨rfl, rfl⟩
  | cons x xs ih =>
    obtain ⟨hx, hxs⟩ := List.ne_and_not_mem_of_not_mem_cons h
    have hne : (x == l) = false := beq_false_of_ne (Ne.symm hx)
    obtain ⟨hout, hexc⟩ := ih hxs (t.visit op ident excl a x)
    exact ⟨hout.trans (by simp [Scan.visit, assoc, hne]), hexc.trans (by simp [Scan.visit, assoc, hne])⟩

/-- What a lane of the scan gets as it is visited. -/
theorem Scan.visit_self (t : Scan) (l : Nat) :
    assoc 0 l (t.visit op ident excl a l).out = (if excl then t.run.getD ident else (runStep op a t.run l).getD 0) ∧
    assoc 0 l (t.visit op ident excl a l).exc = match t.run with | none => 0 | some v => (op v (a l)).2 := by
  rw [Scan.visit]
  cases t.run <;> simp [assoc, runStep]

/-- The lanes below one of them, in increasing order, are those that stand before it. -/
theorem filter_lt_eq_before {pre post : List Nat} {l : Nat} (h : (pre ++ l :: post).Pairwise (· < ·)) :
    (pre ++ l :: post).filter (fun x => decide (x < l)) = pre := by
  obtain ⟨-, hpost, hpre⟩ := List.pairwise_append.mp h
  have hbelow : ∀ x ∈ pre, x < l := fun x hx => hpre x hx l List.mem_cons_self
  have habove : ∀ x ∈ l :: post, ¬ x < l := by
    intro x hx
    obtain rfl | hx := List.mem_cons.mp hx
    · exact Nat.lt_irrefl x
    · exact Nat.lt_asymm ((List.pairwise_cons.mp hpost).1 x hx)
  rw [List.filter_append, List.filter_eq_self.mpr fun x hx => decide_eq_true (hbelow x hx),
    List.filter_eq_nil_iff.mpr fun x hx => by simpa using habove x hx, List.append_nil]

/-- What a lane of the scan got, and the exceptions of its step, by the running value over the lanes before it. -/
theorem Scan.visits_of_mem {l : Nat} {ls : List Nat} (hs : ls.Pairwise (· < ·)) (hl : l ∈ ls) {t : Scan} (ht : t.run = none) :
    let prior := ls.filter fun x => decide (x < l)
    let before := prior.foldl (runStep op a) none
    assoc 0 l (t.visits op ident excl a ls).out = (if excl then before.getD ident else ((prior ++ [l]).foldl (runStep op a) none).getD 0) ∧
    assoc 0 l (t.visits op ident excl a ls).exc = match before with | none => 0 | some v => (op v (a l)).2 := by
  obtain ⟨pre, post, rfl⟩ := List.append_of_mem hl
  obtain ⟨-, hpost, -⟩ := List.pairwise_append.mp hs
  have hnot : l ∉ post := fun h => Nat.lt_irrefl l ((List.pairwise_cons.mp hpost).1 l h)
  have hsplit : t.visits op ident excl a (pre ++ l :: post) = ((t.visits op ident excl a pre).visit op ident excl a l).visits op ident excl a post := by
    simp [Scan.visits]
  have hrun : (t.visits op ident excl a pre).run = pre.foldl (runStep op a) none := by rw [Scan.run_visits, ht]
  obtain ⟨hout, hexc⟩ := Scan.visit_self (op := op) (ident := ident) (excl := excl) (a := a) (t.visits op ident excl a pre) l
  dsimp only
  rw [filter_lt_eq_before hs, hsplit, (Scan.visits_of_not_mem hnot _).1, (Scan.visits_of_not_mem hnot _).2, hout, hexc, hrun, List.foldl_append]
  exact ⟨rfl, rfl⟩

end

/-- VSCAN gives each lane the running value over the governed lanes before it, and raises by the lane in which a step does (R160). -/
theorem vscan_yields (ty : Ty) (op : RedOp) (excl : Bool) (m : BitVec 4) (d : BitVec 8) (a : Src) :
    let i : Instr := .vscan ty op excl m d a
    let F (c : Clause) (x y : Nat) : Nat × Exc := RedOp.step op ty (rmOf c.fpctl) (ftzOf c.fpctl) x y
    let prior (gov : Mask) (l : Nat) : List Nat := (lanesOf gov).filter fun x => decide (x < l)
    let run (g : Group) (c : Clause) (ls : List Nat) : Option Nat := ls.foldl (runStep (F c) (srcN g c ty a)) none
    FpYields i (fun g c l => match run g c (prior (c.govOf i) l) with | none => 0 | some v => (F c v (srcN g c ty a l)).2)
      fun g _ c gov => g.setN ty d.toNat gov fun l =>
        if excl then (run g c (prior gov l)).getD (RedOp.identity op ty) else (run g c (prior gov l ++ [l])).getD 0 := by
  refine fpYields_of_ready fun s g fr k c h => ?_
  show execVscan ty op excl m d a s = _
  rw [execVscan, laneExec_ready h]
  have hv {l : Nat} (hl : l ∈ lanesOf (c.govOf (.vscan ty op excl m d a))) :=
    Scan.visits_of_mem (op := RedOp.step op ty (rmOf c.fpctl) (ftzOf c.fpctl)) (ident := RedOp.identity op ty) (excl := excl) (a := srcN g c ty a)
      (pairwise_lt_lanesOf _) hl (t := { out := [], run := none, exc := [] }) rfl
  exact State.fpDone_congr (fun l hl => (hv hl).2) (Group.setN_congr (fun l hl => (hv hl).1) ..) ..

/-! ## The words -/

/-- VSHUF by its source lane. Its selector is one 32-bit register, also of a 64-bit type (log 14). -/
theorem vshuf_sets (ty : Ty) (mode : ShufMode) (m : BitVec 4) (d : BitVec 8) (a b : Src) : LaneSets (.vshuf ty mode m d a b) ty d fun g c gov l =>
    crossLane gov (srcN g c ty a) l (match mode with
      | .idx => ((srcW g c b l).toNat % 32 : Nat)
      | .up => (l : Int) - ((srcW g c b l).toNat % 32 : Nat)
      | .down => (l + (srcW g c b l).toNat % 32 : Nat)
      | .xor => (l ^^^ (srcW g c b l).toNat % 32 : Nat)) :=
  laneSets_of_laneWrite fun _ => by cases mode <;> rfl

/-- VBCST by its source lane, with the selector of VSHUF. -/
theorem vbcst_sets (ty : Ty) (m : BitVec 4) (d : BitVec 8) (a b : Src) : LaneSets (.vbcst ty m d a b) ty d fun g c gov l =>
    crossLane gov (srcN g c ty a) l ((srcW g c b l).toNat % 32 : Nat) :=
  laneSets_of_laneWrite fun _ => rfl

theorem vmatch_sets (ty : Ty) (m : BitVec 4) (d : BitVec 8) (a : Src) : LaneSets (.vmatch ty m d a) .b32 d fun g c gov l =>
    (maskOf fun x => inMask gov x && srcN g c ty a x == srcN g c ty a l).toNat :=
  laneSets_of_laneWrite fun _ => rfl

theorem vvote_sets (ty : Ty) (mode : VoteMode) (m d : BitVec 4) (a : Src) : LaneSetsMask (.vvote ty mode m d a) d fun g c gov =>
    let hit : Mask := maskOf fun l => inMask gov l && srcN g c ty a l != 0
    match mode with
    | .ballot => hit
    | .any => if hit != 0 then gov else 0
    | .all => if hit == gov then gov else 0 :=
  laneSetsMask_of_laneToMask fun _ => by cases mode <;> rfl

/-- A VREDS of an integer operation writes the value of its tree. -/
theorem vreds_int_sets {op : RedOp} (ha : op ≠ .fadd) (hn : op ≠ .fmin) (hx : op ≠ .fmax) (ty : Ty) (m : BitVec 4) (d : BitVec 8) (a : Src) :
    LaneSets (.vreds ty op m d a) ty d fun g c gov _ => (subtree (RedOp.step op ty 0 false) (governed gov (srcN g c ty a)) 5 0).getD 0 := by
  intro s g fr k c h
  have hstep := RedOp.step_int ha hn hx ty (rmOf c.fpctl) (ftzOf c.fpctl)
  have hval := vreds_quiet h rfl (quietTree_of_op (fun x y => by rw [hstep]) _)
  rw [hstep] at hval
  exact hval

/-- A VREDS over one lane writes that lane's own value, whatever its operation. -/
theorem vreds_single {ty : Ty} {op : RedOp} {m : BitVec 4} {d : BitVec 8} {a : Src} {s : State} {g : Group} {fr : Fragment} {k l : Nat} {c : Clause}
    (h : LaneReady (.vreds ty op m d a) s g fr k c) (hg : c.govOf (.vreds ty op m d a) = 1#32 <<< l) (hl : l < 32) :
    exec (.vreds ty op m d a) s = .next (s.laneNext (g.setN ty d.toNat (1#32 <<< l) fun _ => srcN g c ty a l) (fr.countLane c.uid) k) := by
  rw [vreds_quiet h hg (quietTree_governed_single _ hl _), subtree_governed_single _ hl, if_pos (by omega), Option.getD_some]

/-- Settles O36: VSHUF and VBCST by the source lane of `crossLane`, VVOTE and VMATCH by their masks, VREDS by its quiet tree, VSCAN by
`vscan_yields`, and the combining steps by their definition. -/
theorem laneCross : Obligations.LaneCross := by
  unfold Obligations.LaneCross
  refine ⟨fun ty mode m d a b => ?shuffle, fun ty m d a b => ?broadcast, fun ty mode m d a => ?vote, fun ty m d a => ?same,
    fun ty op m d a ha hn hx => vreds_int_sets ha hn hx ty m d a, fun ty op m d a s g fr k l c h hg hl => vreds_single h hg hl,
    fun ty op excl m d a => vscan_yields ty op excl m d a, fun ty op rm ftz x y => by cases op <;> rfl⟩
  case shuffle =>
    refine (vshuf_sets ty mode m d a b).congr fun g c gov l => ?_
    cases mode
    case up => exact crossLane_sub ..
    all_goals exact crossLane_natCast ..
  case broadcast =>
    refine (vbcst_sets ty m d a b).congr fun g c gov l => ?_
    have hn : (srcW g c b l).toNat % 32 < 32 := Nat.mod_lt _ (by decide)
    rw [crossLane_natCast]
    exact ite_congr (propext (and_iff_right hn)) (fun _ => rfl) fun _ => rfl
  case vote =>
    refine (vvote_sets ty mode m d a).congr fun g c gov => ?_
    have hhit : (maskOf fun l => inMask gov l && srcN g c ty a l != 0) = maskOf fun l => gov.getLsbD l && decide (srcN g c ty a l ≠ 0) :=
      maskOf_congr fun l _ => by simp [inMask, bne, BEq.beq]
    dsimp only
    rw [hhit]
    cases mode
    case ballot => rfl
    case any => simp only [bne_iff_ne, ne_eq, ite_not]
    case all => simp only [beq_iff_eq]
  case same => exact (vmatch_sets ty m d a).congr fun g c gov l => rfl

end Sys2Proof.Machine
end
